-- ==== Sys2Proof/Word.lean ====
section
/-!
DEFINITION. The words of the Trolys Z9: its word types and their plainest bit arithmetic (spec/00_scope.md R8, R9, R10).
-/
namespace Sys2Proof

/-- A byte (R10). -/
abbrev Byte := BitVec 8
/-- A 64-bit register, K register or descriptor word. -/
abbrev Word := BitVec 64
/-- A 32-bit word of a face, of the matrix register file or of an instruction stream. -/
abbrev HWord := BitVec 32
/-- One vector of 1,024 bits: element `e` of width `b` stands at bits `b*e + b - 1 : b*e` (R73). -/
abbrev Vec := BitVec 1024

/-- Bits `hi : lo` of a number, as an unsigned value (R8). -/
def fld (w hi lo : Nat) : Nat := w / 2 ^ lo % 2 ^ (hi + 1 - lo)

/-- Bits `hi : lo` of a 64-bit word, as an unsigned value (R8). -/
def wfld (w : Word) (hi lo : Nat) : Nat := fld w.toNat hi lo

/-- The least integer not below `a / b`, for `b > 0` (R317, CeilDiv). -/
def ceilDiv (a b : Nat) : Nat := (a + b - 1) / b

end Sys2Proof
end

