-- ==== Sys2Proof/Syntax.lean ====
section
/-!
DEFINITION. The syntax: one constructor for each row of spec/opcode_table.json. The first 222 are the instruction words
(spec/09_encoding.md R284 to R301), with the fields of their formats as operands; the other 120 are the steps that the
hardware, the firmware and the host make on their own (spec/95_what_each_step_holds.md). A step's operands name the unit it
takes place in (`c` a core, `r` a region, `hs` an HBM stack, `g` an alignment group, `id` a pending item of that core) or carry
what comes from outside the package (a reading, a host's word, a choice of the firmware).
-/
namespace Sys2Proof

/-- Bits 31 and 21:18 of a word of pipes 3 to 5, and of the S0-only and S1-only words (R284). -/
structure Head where
  chain : Bool
  guard : BitVec 4
deriving DecidableEq, Repr

/-- The header of a word that both S0 and S1 accept: `s1` is bit 28, the low bit of PIPE (R284, R297). -/
structure SHead where
  chain : Bool
  s1    : Bool
  guard : BitVec 4
deriving DecidableEq, Repr

/-- One entry of a phase's lease table (R96, R97, R511, R513): slot `i` names (HBM position, PC, bank); masks are by
(position, PC); a shared bank is (stack, PC, bank, grouped); `pack` numbers the pack of the plan, or the part of it on one base die, that the entry
is for, and `dies` are the base dies whose HBM the windows of the tasks map that receive it (R96, log 19). -/
structure LeaseEntry where
  slots  : List (Nat × Nat × Nat) := []
  cols   : List (Nat × Nat × BitVec 8) := []
  rows   : List (Nat × Nat × BitVec 8) := []
  shared : List (Nat × Nat × Nat × Bool) := []
  pack   : Nat := 0
  dies   : List Nat := [0, 1, 2, 3]
deriving DecidableEq, Repr

/-- A request that arrives at the fabric port through an exported window (R52, R192, R504): kind 0 a write of `data`, 1 a read
of `len` bytes, 2 an atomic with operation `op` of R457 and operand `b`, of 8 bytes when `wide`. -/
structure FabricReq where
  kind : Nat
  win  : Nat
  off  : Nat
  len  : Nat
  data : List Byte
  op   : Nat
  wide : Bool
  b    : Word
deriving DecidableEq, Repr

/-- The instruction words and the steps. -/
inductive Instr where
  /-- NOP (R336). Has no effect, whatever its guard. -/
  | nop (h : SHead)
  /-- ADD (R334). Writes the 64-bit sum a + b to D. -/
  | add (h : SHead) (d a b : BitVec 6)
  /-- SUB (R334). Writes the 64-bit difference a − b to D. -/
  | sub (h : SHead) (d a b : BitVec 6)
  /-- ADDI (R335). Writes a plus the extended immediate to D. -/
  | addi (h : SHead) (d a i : BitVec 6)
  /-- MUL (R334). Writes the low 64 bits of a × b to D. -/
  | mul (h : SHead) (d a b : BitVec 6)
  /-- MULHS (R334). Writes the high 64 bits of the signed 128-bit product to D. -/
  | mulhs (h : SHead) (d a b : BitVec 6)
  /-- MULHU (R334). Writes the high 64 bits of the unsigned 128-bit product to D. -/
  | mulhu (h : SHead) (d a b : BitVec 6)
  /-- AND (R334). Writes the bitwise AND of a and b to D. -/
  | and (h : SHead) (d a b : BitVec 6)
  /-- OR (R334). Writes the bitwise OR of a and b to D. -/
  | or (h : SHead) (d a b : BitVec 6)
  /-- XOR (R334). Writes the bitwise XOR of a and b to D. -/
  | xor (h : SHead) (d a b : BitVec 6)
  /-- ANDI (R335). Writes a AND the extended immediate to D. -/
  | andi (h : SHead) (d a i : BitVec 6)
  /-- ORI (R335). Writes a OR the extended immediate to D. -/
  | ori (h : SHead) (d a i : BitVec 6)
  /-- XORI (R335). Writes a XOR the extended immediate to D. -/
  | xori (h : SHead) (d a i : BitVec 6)
  /-- SHL (R334). Shifts a left by b[5:0] into D. -/
  | shl (h : SHead) (d a b : BitVec 6)
  /-- SHR (R334). Shifts a right logically by b[5:0] into D. -/
  | shr (h : SHead) (d a b : BitVec 6)
  /-- SAR (R334). Shifts a right arithmetically by b[5:0] into D. -/
  | sar (h : SHead) (d a b : BitVec 6)
  /-- SHLI (R335). Shifts a left by an unsigned 6-bit immediate into D. -/
  | shli (h : SHead) (d a i : BitVec 6)
  /-- SHRI (R335). Shifts a right logically by an unsigned 6-bit immediate into D. -/
  | shri (h : SHead) (d a i : BitVec 6)
  /-- SARI (R335). Shifts a right arithmetically by an unsigned 6-bit immediate into D. -/
  | sari (h : SHead) (d a i : BitVec 6)
  /-- MIN (R334). Writes the signed minimum of a and b to D. -/
  | min (h : SHead) (d a b : BitVec 6)
  /-- MAX (R334). Writes the signed maximum of a and b to D. -/
  | max (h : SHead) (d a b : BitVec 6)
  /-- MINU (R334). Writes the unsigned minimum of a and b to D. -/
  | minu (h : SHead) (d a b : BitVec 6)
  /-- MAXU (R334). Writes the unsigned maximum of a and b to D. -/
  | maxu (h : SHead) (d a b : BitVec 6)
  /-- LI (R335). Writes the extended immediate to D. -/
  | li (h : SHead) (d : BitVec 6) (i : BitVec 12)
  /-- SEL (R339). Always issues and writes a or b to D, chosen by the predicate in its guard field. -/
  | sel (h : SHead) (d a b : BitVec 6)
  /-- CMPEQ (R337). Writes a = b to a predicate. -/
  | cmpeq (h : SHead) (e : BitVec 4) (a b : BitVec 6)
  /-- CMPNE (R337). Writes a ≠ b to a predicate. -/
  | cmpne (h : SHead) (e : BitVec 4) (a b : BitVec 6)
  /-- CMPLT (R337). Writes the signed a < b to a predicate. -/
  | cmplt (h : SHead) (e : BitVec 4) (a b : BitVec 6)
  /-- CMPLE (R337). Writes the signed a ≤ b to a predicate. -/
  | cmple (h : SHead) (e : BitVec 4) (a b : BitVec 6)
  /-- CMPLTU (R337). Writes the unsigned a < b to a predicate. -/
  | cmpltu (h : SHead) (e : BitVec 4) (a b : BitVec 6)
  /-- CMPLEU (R337). Writes the unsigned a ≤ b to a predicate. -/
  | cmpleu (h : SHead) (e : BitVec 4) (a b : BitVec 6)
  /-- CMPEQI (R337). Writes a = immediate to a predicate. -/
  | cmpeqi (h : SHead) (e : BitVec 4) (a i : BitVec 6)
  /-- CMPLTI (R337). Writes the signed a < immediate to a predicate. -/
  | cmplti (h : SHead) (e : BitVec 4) (a i : BitVec 6)
  /-- PAND (R338). Writes PA AND PB to a predicate. -/
  | pand (h : SHead) (pd pa pb : BitVec 4)
  /-- POR (R338). Writes PA OR PB to a predicate. -/
  | por (h : SHead) (pd pa pb : BitVec 4)
  /-- PXOR (R338). Writes PA XOR PB to a predicate. -/
  | pxor (h : SHead) (pd pa pb : BitVec 4)
  /-- PANDN (R338). Writes PA AND NOT PB to a predicate. -/
  | pandn (h : SHead) (pd pa pb : BitVec 4)
  /-- XMOV (R340). Copies a 64-bit register between clusters A and B, with latency 2. -/
  | xmov (h : SHead) (d a : BitVec 6)
  /-- QRD (R341). Reads words 1:0 of a queue latch into D without popping it. -/
  | qrd (h : SHead) (d : BitVec 6) (q : BitVec 3)
  /-- FADD (R343). Performs an FP32 add with the RM rounding mode. -/
  | fadd (h : SHead) (r : BitVec 2) (d a b : BitVec 5)
  /-- FSUB (R343). Performs an FP32 subtract. -/
  | fsub (h : SHead) (r : BitVec 2) (d a b : BitVec 5)
  /-- FMUL (R343). Performs an FP32 multiply. -/
  | fmul (h : SHead) (r : BitVec 2) (d a b : BitVec 5)
  /-- FFMA (R343). Performs an FP32 fused multiply-add with D as the addend and the destination. -/
  | ffma (h : SHead) (r : BitVec 2) (d a b : BitVec 5)
  /-- FMIN (R344). Writes the FP32 FMin of a and b. -/
  | fmin (h : SHead) (d a b : BitVec 5)
  /-- FMAX (R344). Writes the FP32 FMax of a and b. -/
  | fmax (h : SHead) (d a b : BitVec 5)
  /-- DADD (R343). Performs an FP64 add. -/
  | dadd (h : SHead) (r : BitVec 2) (d a b : BitVec 5)
  /-- DSUB (R343). Performs an FP64 subtract. -/
  | dsub (h : SHead) (r : BitVec 2) (d a b : BitVec 5)
  /-- DMUL (R343). Performs an FP64 multiply. -/
  | dmul (h : SHead) (r : BitVec 2) (d a b : BitVec 5)
  /-- DFMA (R343). Performs an FP64 fused multiply-add. -/
  | dfma (h : SHead) (r : BitVec 2) (d a b : BitVec 5)
  /-- DMIN (R344). Writes the FP64 minimum. -/
  | dmin (h : SHead) (d a b : BitVec 5)
  /-- DMAX (R344). Writes the FP64 maximum. -/
  | dmax (h : SHead) (d a b : BitVec 5)
  /-- FCMPEQ (R345). Writes the FP32 equality test to a predicate. -/
  | fcmpeq (h : SHead) (e : BitVec 4) (a b : BitVec 6)
  /-- FCMPLT (R345). Writes the FP32 less-than test to a predicate. -/
  | fcmplt (h : SHead) (e : BitVec 4) (a b : BitVec 6)
  /-- FCMPLE (R345). Writes the FP32 less-or-equal test to a predicate. -/
  | fcmple (h : SHead) (e : BitVec 4) (a b : BitVec 6)
  /-- DCMPEQ (R345). Writes the FP64 equality test to a predicate. -/
  | dcmpeq (h : SHead) (e : BitVec 4) (a b : BitVec 6)
  /-- DCMPLT (R345). Writes the FP64 less-than test to a predicate. -/
  | dcmplt (h : SHead) (e : BitVec 4) (a b : BitVec 6)
  /-- DCMPLE (R345). Writes the FP64 less-or-equal test to a predicate. -/
  | dcmple (h : SHead) (e : BitVec 4) (a b : BitVec 6)
  /-- CVT (R346). Converts between scalar formats under a conversion code. -/
  | cvt (h : SHead) (r : BitVec 2) (d a x : BitVec 5)
  /-- B (R348). Takes a relative branch after two delay bundles. -/
  | b (h : Head) (i : BitVec 18)
  /-- CALL (R349). Takes a relative branch and writes the link packet to D. -/
  | call (h : Head) (d : BitVec 6) (i : BitVec 12)
  /-- JR (R350). Takes a branch to the packet held in register A. -/
  | jr (h : Head) (a : BitVec 6)
  /-- LOOP (R352). Starts a loop body with its trip count, its stage count and the pending rings. -/
  | loop (h : Head) (a : BitVec 6) (n : BitVec 2)
  /-- END (R357). Ends issue of the task, which enters Ending. -/
  | endTask (h : Head)
  /-- FDIV (R347). Performs an FP32 divide on the S1 divide unit. -/
  | fdiv (h : Head) (r : BitVec 2) (d a b : BitVec 5)
  /-- FSQRT (R347). Performs an FP32 square root on the divide unit. -/
  | fsqrt (h : Head) (r : BitVec 2) (d a : BitVec 5)
  /-- DDIV (R347). Performs an FP64 divide on the divide unit. -/
  | ddiv (h : Head) (r : BitVec 2) (d a b : BitVec 5)
  /-- DSQRT (R347). Performs an FP64 square root on the divide unit. -/
  | dsqrt (h : Head) (r : BitVec 2) (d a : BitVec 5)
  /-- VMOV (R364). Copies one matrix vector into another, in any direction. -/
  | vmov (ch : Bool) (d a : BitVec 7)
  /-- VFADD (R362). Performs a lane-wise FP add. -/
  | vfadd (ch : Bool) (w : BitVec 1) (d a b : BitVec 7)
  /-- VFSUB (R362). Performs a lane-wise FP subtract. -/
  | vfsub (ch : Bool) (w : BitVec 1) (d a b : BitVec 7)
  /-- VFMUL (R362). Performs a lane-wise FP multiply. -/
  | vfmul (ch : Bool) (w : BitVec 1) (d a b : BitVec 7)
  /-- VFMA (R362). Performs a lane-wise fused multiply-add into the destination. -/
  | vfma (ch : Bool) (w : BitVec 1) (d a b : BitVec 7)
  /-- VFMIN (R362). Writes the lane-wise FMin. -/
  | vfmin (ch : Bool) (w : BitVec 1) (d a b : BitVec 7)
  /-- VFMAX (R362). Writes the lane-wise FMax. -/
  | vfmax (ch : Bool) (w : BitVec 1) (d a b : BitVec 7)
  /-- VADD (R363). Performs a lane-wise integer add. -/
  | vadd (ch : Bool) (w : BitVec 1) (d a b : BitVec 7)
  /-- VSUB (R363). Performs a lane-wise integer subtract. -/
  | vsub (ch : Bool) (w : BitVec 1) (d a b : BitVec 7)
  /-- VMUL (R363). Writes the low half of the lane-wise integer product. -/
  | vmul (ch : Bool) (w : BitVec 1) (d a b : BitVec 7)
  /-- VMIN (R363). Writes the lane-wise signed minimum. -/
  | vmin (ch : Bool) (w : BitVec 1) (d a b : BitVec 7)
  /-- VMAX (R363). Writes the lane-wise signed maximum. -/
  | vmax (ch : Bool) (w : BitVec 1) (d a b : BitVec 7)
  /-- VMINU (R363). Writes the lane-wise unsigned minimum. -/
  | vminu (ch : Bool) (w : BitVec 1) (d a b : BitVec 7)
  /-- VMAXU (R363). Writes the lane-wise unsigned maximum. -/
  | vmaxu (ch : Bool) (w : BitVec 1) (d a b : BitVec 7)
  /-- VAND (R364). Writes the 1,024-bit bitwise AND. -/
  | vand (ch : Bool) (d a b : BitVec 7)
  /-- VOR (R364). Writes the 1,024-bit bitwise OR. -/
  | vor (ch : Bool) (d a b : BitVec 7)
  /-- VXOR (R364). Writes the 1,024-bit bitwise XOR. -/
  | vxor (ch : Bool) (d a b : BitVec 7)
  /-- VSHL (R363). Performs a lane-wise left shift. -/
  | vshl (ch : Bool) (w : BitVec 1) (d a b : BitVec 7)
  /-- VSHR (R363). Performs a lane-wise logical right shift. -/
  | vshr (ch : Bool) (w : BitVec 1) (d a b : BitVec 7)
  /-- VSAR (R363). Performs a lane-wise arithmetic right shift. -/
  | vsar (ch : Bool) (w : BitVec 1) (d a b : BitVec 7)
  /-- VFCMPEQ (R365). Writes a lane-wise FP equality mask. -/
  | vfcmpeq (ch : Bool) (w : BitVec 1) (d a b : BitVec 7)
  /-- VFCMPLT (R365). Writes a lane-wise FP less-than mask. -/
  | vfcmplt (ch : Bool) (w : BitVec 1) (d a b : BitVec 7)
  /-- VCMPEQ (R365). Writes a lane-wise integer equality mask. -/
  | vcmpeq (ch : Bool) (w : BitVec 1) (d a b : BitVec 7)
  /-- VCMPLT (R365). Writes a lane-wise signed less-than mask. -/
  | vcmplt (ch : Bool) (w : BitVec 1) (d a b : BitVec 7)
  /-- VSEL (R366). Selects lanes of A or B by the top bits of the old destination. -/
  | vsel (ch : Bool) (w : BitVec 1) (d a b : BitVec 7)
  /-- VEXP2 (R367). Applies Exp2 to each lane. -/
  | vexp2 (ch : Bool) (w : BitVec 1) (d a : BitVec 7)
  /-- VRCP (R368). Writes the lane-wise reciprocal. -/
  | vrcp (ch : Bool) (w : BitVec 1) (d a : BitVec 7)
  /-- VRSQ (R368). Writes the lane-wise reciprocal square root. -/
  | vrsq (ch : Bool) (w : BitVec 1) (d a : BitVec 7)
  /-- VFRSUM (R369). Sums the lanes in a fixed pairwise tree into a scalar register. -/
  | vfrsum (ch : Bool) (w : BitVec 1) (d : BitVec 6) (a : BitVec 7)
  /-- VFRMAX (R370). Reduces the lanes by FMax into a scalar register. -/
  | vfrmax (ch : Bool) (w : BitVec 1) (d : BitVec 6) (a : BitVec 7)
  /-- VBCAST (R371). Broadcasts a scalar into every lane. -/
  | vbcast (ch : Bool) (w : BitVec 1) (d : BitVec 7) (a : BitVec 6)
  /-- VPERM (R372). Permutes the lanes of A by the indices in B. -/
  | vperm (ch : Bool) (w : BitVec 1) (d a b : BitVec 7)
  /-- VCVT (R375). Converts lanes under a conversion code. -/
  | vcvt (ch : Bool) (d a : BitVec 7) (x : BitVec 5)
  /-- VBMAX (R379). Computes block scale codes, writes the scale row and loads the scale bypass. -/
  | vbmax (ch : Bool) (w : BitVec 1) (d a : BitVec 7)
  /-- VQCVT (R381). Quantises blocks to FP4, using the scale bypass. -/
  | vqcvt (ch : Bool) (w : BitVec 1) (d a : BitVec 7)
  /-- VDEQ (R383). Dequantises FP4 blocks with their scales. -/
  | vdeq (ch : Bool) (w : BitVec 1) (d a b : BitVec 7)
  /-- VSETFMT (R384). Writes ENGFMT from a scalar, taking effect three bundles later. -/
  | vsetfmt (ch : Bool) (a : BitVec 6)
  /-- VQMOV (R373). Receive form: copies a queue-latch entry into a vector without popping it. -/
  | vqmov (ch : Bool) (d : BitVec 7) (q : BitVec 3)
  /-- VQMOV_SEND (R374). Send form: sends a vector over a neighbour link. -/
  | vqmovSend (ch : Bool) (d : BitVec 7) (l : BitVec 2)
  /-- CUBE_MM (R396). Queues a matrix multiply C := A·B on the cube. -/
  | cubeMm (h : Head) (t a b : BitVec 6)
  /-- CUBE_MMA (R396). Queues an accumulating matrix multiply. -/
  | cubeMma (h : Head) (t a b : BitVec 6)
  /-- CUBE_MMW (R396). Queues a multiply with latched weights. -/
  | cubeMmw (h : Head) (t a b : BitVec 6)
  /-- CUBE_MMWA (R396). Queues an accumulating multiply with latched weights. -/
  | cubeMmwa (h : Head) (t a b : BitVec 6)
  /-- CUBE_PL (R399). Queues a plane-mode multiply, one plane per layer. -/
  | cubePl (h : Head) (t a b : BitVec 6)
  /-- CUBE_PLA (R399). Queues an accumulating plane-mode multiply. -/
  | cubePla (h : Head) (t a b : BitVec 6)
  /-- CUBE_WL (R400). Queues a weight-latch load. -/
  | cubeWl (h : Head) (t a b : BitVec 6)
  /-- CUBE_FMT (R401). Queues a write of the block-scale register CFMT. -/
  | cubeFmt (h : Head) (t a : BitVec 6)
  /-- CUBE_ZERO (R402). Queues the zeroing of a C region and, optionally, of the side registers. -/
  | cubeZero (h : Head) (t a : BitVec 6)
  /-- CUBE_DRAIN (R403). Queues the conversion of a C region into a face. -/
  | cubeDrain (h : Head) (t a b : BitVec 6)
  /-- CUBE_SCORE (R407). Queues an online-softmax scoring command. -/
  | cubeScore (h : Head) (t a b : BitVec 6)
  /-- CUBE_RESC (R405). Queues the rescaling of C rows by ALPHA. -/
  | cubeResc (h : Head) (t a : BitVec 6)
  /-- CUBE_SIDE (R409). Reads a side register of the cube into D. -/
  | cubeSide (h : Head) (d a b : BitVec 6)
  /-- LDA (R415). Loads a scalar from the A face. -/
  | lda (h : Head) (d a : BitVec 6) (z : BitVec 2) (x : BitVec 1)
  /-- STA (R415). Stores a scalar into the A face. -/
  | sta (h : Head) (d a : BitVec 6) (z : BitVec 2)
  /-- MLDA (R416). Loads a matrix vector from the A face. -/
  | mlda (h : Head) (m : BitVec 7) (a : BitVec 6)
  /-- MSTA (R416). Stores a matrix vector into the A face. -/
  | msta (h : Head) (m : BitVec 7) (a : BitVec 6)
  /-- LDW (R415). Loads a scalar from the W face. -/
  | ldw (h : Head) (d a : BitVec 6) (z : BitVec 2) (x : BitVec 1)
  /-- STW (R415). Stores a scalar into the W face. -/
  | stw (h : Head) (d a : BitVec 6) (z : BitVec 2)
  /-- MLDW (R416). Loads a matrix vector from the W face. -/
  | mldw (h : Head) (m : BitVec 7) (a : BitVec 6)
  /-- MSTW (R416). Stores a matrix vector into the W face. -/
  | mstw (h : Head) (m : BitVec 7) (a : BitVec 6)
  /-- LDC (R415). Loads a scalar from the C face. -/
  | ldc (h : Head) (d a : BitVec 6) (z : BitVec 2) (x : BitVec 1)
  /-- STC (R415). Stores a scalar into the C face. -/
  | stc (h : Head) (d a : BitVec 6) (z : BitVec 2)
  /-- MLDC (R416). Loads a matrix vector from the C face. -/
  | mldc (h : Head) (m : BitVec 7) (a : BitVec 6)
  /-- MSTC (R416). Stores a matrix vector into the C face. -/
  | mstc (h : Head) (m : BitVec 7) (a : BitVec 6)
  /-- LDX (R415). Loads a scalar from a face of the cluster through the X space. -/
  | ldx (h : Head) (d a : BitVec 6) (z : BitVec 2) (x : BitVec 1)
  /-- STX (R415). Stores a scalar into a face of the cluster through the X space. -/
  | stx (h : Head) (d a : BitVec 6) (z : BitVec 2)
  /-- MLDX (R416). Loads a matrix vector through the X space. -/
  | mldx (h : Head) (m : BitVec 7) (a : BitVec 6)
  /-- MSTX (R416). Stores a matrix vector through the X space. -/
  | mstx (h : Head) (m : BitVec 7) (a : BitVec 6)
  /-- AADD_W (R441). Performs a 4-byte atomic add and returns the old value. -/
  | aaddW (h : Head) (s : BitVec 1) (o : BitVec 2) (d a b : BitVec 5)
  /-- AADD_D (R441). Performs an 8-byte atomic add and returns the old value. -/
  | aaddD (h : Head) (s : BitVec 1) (o : BitVec 2) (d a b : BitVec 5)
  /-- ASMAX_W (R441). Performs a 4-byte atomic signed maximum and returns the old value. -/
  | asmaxW (h : Head) (s : BitVec 1) (o : BitVec 2) (d a b : BitVec 5)
  /-- ASMAX_D (R441). Performs an 8-byte atomic signed maximum and returns the old value. -/
  | asmaxD (h : Head) (s : BitVec 1) (o : BitVec 2) (d a b : BitVec 5)
  /-- ASMIN_W (R441). Performs a 4-byte atomic signed minimum and returns the old value. -/
  | asminW (h : Head) (s : BitVec 1) (o : BitVec 2) (d a b : BitVec 5)
  /-- ASMIN_D (R441). Performs an 8-byte atomic signed minimum and returns the old value. -/
  | asminD (h : Head) (s : BitVec 1) (o : BitVec 2) (d a b : BitVec 5)
  /-- AUMAX_W (R441). Performs a 4-byte atomic unsigned maximum and returns the old value. -/
  | aumaxW (h : Head) (s : BitVec 1) (o : BitVec 2) (d a b : BitVec 5)
  /-- AUMAX_D (R441). Performs an 8-byte atomic unsigned maximum and returns the old value. -/
  | aumaxD (h : Head) (s : BitVec 1) (o : BitVec 2) (d a b : BitVec 5)
  /-- AUMIN_W (R441). Performs a 4-byte atomic unsigned minimum and returns the old value. -/
  | auminW (h : Head) (s : BitVec 1) (o : BitVec 2) (d a b : BitVec 5)
  /-- AUMIN_D (R441). Performs an 8-byte atomic unsigned minimum and returns the old value. -/
  | auminD (h : Head) (s : BitVec 1) (o : BitVec 2) (d a b : BitVec 5)
  /-- AXCHG_W (R441). Performs a 4-byte atomic exchange and returns the old value. -/
  | axchgW (h : Head) (s : BitVec 1) (o : BitVec 2) (d a b : BitVec 5)
  /-- AXCHG_D (R441). Performs an 8-byte atomic exchange and returns the old value. -/
  | axchgD (h : Head) (s : BitVec 1) (o : BitVec 2) (d a b : BitVec 5)
  /-- ACAS_W (R441). Performs a 4-byte compare-and-swap and returns the old value. -/
  | acasW (h : Head) (s : BitVec 1) (o : BitVec 2) (d a b : BitVec 5)
  /-- ACAS_D (R441). Performs an 8-byte compare-and-swap and returns the old value. -/
  | acasD (h : Head) (s : BitVec 1) (o : BitVec 2) (d a b : BitVec 5)
  /-- AFADD (R441). Performs an FP32 atomic add and returns the old value. -/
  | afadd (h : Head) (s : BitVec 1) (o : BitVec 2) (d a b : BitVec 5)
  /-- AFMAX (R441). Performs an FP32 atomic FMax and returns the old value. -/
  | afmax (h : Head) (s : BitVec 1) (o : BitVec 2) (d a b : BitVec 5)
  /-- AFMIN (R441). Performs an FP32 atomic FMin and returns the old value. -/
  | afmin (h : Head) (s : BitVec 1) (o : BitVec 2) (d a b : BitVec 5)
  /-- REDADD_W (R441). Performs a 4-byte no-return atomic add. -/
  | redaddW (h : Head) (s : BitVec 1) (o : BitVec 2) (a b : BitVec 5)
  /-- REDADD_D (R441). Performs an 8-byte no-return atomic add. -/
  | redaddD (h : Head) (s : BitVec 1) (o : BitVec 2) (a b : BitVec 5)
  /-- REDSMAX_W (R441). Performs a 4-byte no-return signed maximum. -/
  | redsmaxW (h : Head) (s : BitVec 1) (o : BitVec 2) (a b : BitVec 5)
  /-- REDSMAX_D (R441). Performs an 8-byte no-return signed maximum. -/
  | redsmaxD (h : Head) (s : BitVec 1) (o : BitVec 2) (a b : BitVec 5)
  /-- REDSMIN_W (R441). Performs a 4-byte no-return signed minimum. -/
  | redsminW (h : Head) (s : BitVec 1) (o : BitVec 2) (a b : BitVec 5)
  /-- REDSMIN_D (R441). Performs an 8-byte no-return signed minimum. -/
  | redsminD (h : Head) (s : BitVec 1) (o : BitVec 2) (a b : BitVec 5)
  /-- REDUMAX_W (R441). Performs a 4-byte no-return unsigned maximum. -/
  | redumaxW (h : Head) (s : BitVec 1) (o : BitVec 2) (a b : BitVec 5)
  /-- REDUMAX_D (R441). Performs an 8-byte no-return unsigned maximum. -/
  | redumaxD (h : Head) (s : BitVec 1) (o : BitVec 2) (a b : BitVec 5)
  /-- REDUMIN_W (R441). Performs a 4-byte no-return unsigned minimum. -/
  | reduminW (h : Head) (s : BitVec 1) (o : BitVec 2) (a b : BitVec 5)
  /-- REDUMIN_D (R441). Performs an 8-byte no-return unsigned minimum. -/
  | reduminD (h : Head) (s : BitVec 1) (o : BitVec 2) (a b : BitVec 5)
  /-- REDXCHG_W (R441). Performs a 4-byte no-return exchange. -/
  | redxchgW (h : Head) (s : BitVec 1) (o : BitVec 2) (a b : BitVec 5)
  /-- REDXCHG_D (R441). Performs an 8-byte no-return exchange. -/
  | redxchgD (h : Head) (s : BitVec 1) (o : BitVec 2) (a b : BitVec 5)
  /-- REDCAS_W (R441). Performs a 4-byte no-return compare-and-swap. -/
  | redcasW (h : Head) (s : BitVec 1) (o : BitVec 2) (d a b : BitVec 5)
  /-- REDCAS_D (R441). Performs an 8-byte no-return compare-and-swap. -/
  | redcasD (h : Head) (s : BitVec 1) (o : BitVec 2) (d a b : BitVec 5)
  /-- REDFADD (R441). Performs a no-return FP32 atomic add. -/
  | redfadd (h : Head) (s : BitVec 1) (o : BitVec 2) (a b : BitVec 5)
  /-- REDFMAX (R441). Performs a no-return FP32 atomic FMax. -/
  | redfmax (h : Head) (s : BitVec 1) (o : BitVec 2) (a b : BitVec 5)
  /-- REDFMIN (R441). Performs a no-return FP32 atomic FMin. -/
  | redfmin (h : Head) (s : BitVec 1) (o : BitVec 2) (a b : BitVec 5)
  /-- ACT (R424). Posts a row activation to perform at its stamp. -/
  | act (h : Head) (t a : BitVec 6)
  /-- PRE (R424). Posts a precharge of one bank. -/
  | pre (h : Head) (t a : BitVec 6)
  /-- PREA (R424). Posts a precharge of every bank of a PC except lent ones. -/
  | prea (h : Head) (t a : BitVec 6)
  /-- RD (R424). Posts a one-burst HBM read into the A or W face. -/
  | rd (h : Head) (t a b : BitVec 6)
  /-- WR (R424). Posts a one-burst HBM write from the C face. -/
  | wr (h : Head) (t a b : BitVec 6)
  /-- RDT (R423). Posts a read train of n bursts. -/
  | rdt (h : Head) (t a b : BitVec 6)
  /-- WRT (R423). Posts a write train of n bursts. -/
  | wrt (h : Head) (t a b : BitVec 6)
  /-- REFPB (R424). Posts a per-bank refresh. -/
  | refpb (h : Head) (t a : BitVec 6)
  /-- REFAB (R424). Posts an all-bank refresh of a PC. -/
  | refab (h : Head) (t a : BitVec 6)
  /-- MZERO (R427). Posts an in-memory zeroing of a row. -/
  | mzero (h : Head) (t a : BitVec 6)
  /-- MCOPY (R427). Posts an in-memory copy of a row to another bank. -/
  | mcopy (h : Head) (t a b : BitVec 6)
  /-- MCMP (R428). Posts an in-memory comparison of two rows, with its result to the C face. -/
  | mcmp (h : Head) (t a b : BitVec 6)
  /-- LFENCE (R429). Posts a fence that orders in-memory operations against reads and writes of one stack. -/
  | lfence (h : Head) (t a : BitVec 6)
  /-- MARK (R430). Places markers in the timeline and copy queues, with an add on completion. -/
  | mark (h : Head) (t a b : BitVec 6)
  /-- COPY (R434). Queues a copy-engine copy between faces. -/
  | copy (h : Head) (t a b : BitVec 6)
  /-- MCAST (R435). Queues a multicast to a list of destinations. -/
  | mcast (h : Head) (t a b : BitVec 6)
  /-- FILL (R436). Queues a fill of a face range with a 32-bit constant. -/
  | fill (h : Head) (t a b : BitVec 6)
  /-- HEEL (R148). Sets a HEEL target at which the alignment group aligns. -/
  | heel (h : Head) (t : BitVec 6) (y : BitVec 9)
  /-- REBASE (R455). Sets TBASE := TICK + c. -/
  | rebase (h : Head) (i : BitVec 12)
  /-- RDTICK (R456). Writes the relative tick to D. -/
  | rdtick (h : Head) (d : BitVec 6)
  /-- FLAGSET (R448). Fences to its scope, then stores a flag value as a release. -/
  | flagset (h : Head) (a b : BitVec 6)
  /-- FLAGWAIT (R449). Begins an unbounded wait on a flag word's condition. -/
  | flagwait (h : Head) (d a b : BitVec 6)
  /-- BARARR (R451). Fences at .cluster, then arrives at a hardware barrier. -/
  | bararr (h : Head) (d a : BitVec 6)
  /-- BARWAIT (R452). Begins a wait for a barrier generation to close. -/
  | barwait (h : Head) (d a b : BitVec 6)
  /-- FENCE (R190). Holds issue until every access within its scope has performed. -/
  | fence (h : Head) (s : BitVec 3)
  /-- PUT (R458). Sends face bytes to a fabric window. -/
  | put (h : Head) (d a b : BitVec 6)
  /-- GET (R458). Fetches fabric-window bytes into a face. -/
  | get (h : Head) (d a b : BitVec 6)
  /-- RATOM (R459). Performs a remote atomic at another package's atomic unit. -/
  | ratom (h : Head) (d a b : BitVec 6)
  /-- WAITC (R461). Begins a wait for a completion counter to reach a value. -/
  | waitc (h : Head) (d a b : BitVec 6)
  /-- LAUNCH (R463). Creates an instance of a one-node graph object. -/
  | launch (h : Head) (d a b : BitVec 6)
  /-- GINST (R463). Creates a graph instance with a parameter patch. -/
  | ginst (h : Head) (d a b : BitVec 6)
  /-- GWAIT (R464). Begins a wait for an instance to end, optionally yielding. -/
  | gwait (h : Head) (d a b : BitVec 6)
  /-- CANCEL (R465). Cancels a node, an instance or a launch. -/
  | cancel (h : Head) (a b : BitVec 6)
  /-- CRD (R466). Reads a word of a node's completion record. -/
  | crd (h : Head) (d a b : BitVec 6)
  /-- SEAL (R467). Starts the checking and sealing of a graph object. -/
  | seal (h : Head) (a b : BitVec 6)
  /-- UNSEAL (R467). Starts the unsealing of a graph object. -/
  | unseal (h : Head) (a b : BitVec 6)
  /-- KRD (R468). Reads a K-space control register. -/
  | krd (h : Head) (d a i : BitVec 6)
  /-- KWR (R468). Writes a K-space control register. -/
  | kwr (h : Head) (d a i : BitVec 6)
  /-- TLBW (R470). A handler writes a first-level TLB entry of a frozen member. -/
  | tlbw (h : Head) (d a b : BitVec 6)
  /-- TLBP (R470). A handler probes a first-level or second-level TLB. -/
  | tlbp (h : Head) (d a b : BitVec 6)
  /-- TLBINV (R470). A handler invalidates first-level entries and places translation markers. -/
  | tlbinv (h : Head) (d a b : BitVec 6)
  /-- TRAP (R471). Raises a PRIV fault that carries a code. -/
  | trap (h : Head) (i : BitVec 12)
  /-- LINSP (R474). A handler reads frozen state through a leash. -/
  | linsp (h : Head) (e : BitVec 4) (l : BitVec 2) (x y : BitVec 6)
  /-- LPATCH (R474). A handler patches frozen state through a leash. -/
  | lpatch (h : Head) (e : BitVec 4) (l : BitVec 2) (x y : BitVec 6)
  /-- LRQ (R474). A handler reads a part of a replay entry. -/
  | lrq (h : Head) (e : BitVec 4) (l : BitVec 2) (x y : BitVec 6)
  /-- LREINJ (R474). A handler rewrites a replay-entry part or its DROP bit. -/
  | lreinj (h : Head) (e : BitVec 4) (l : BitVec 2) (x y : BitVec 6)
  /-- RESUME (R269). Resumes the frozen pack through a leash. -/
  | resume (h : Head) (e : BitVec 4) (l : BitVec 2)
  /-- KILL (R270). Kills the frozen pack through a leash. -/
  | kill (h : Head) (e : BitVec 4) (l : BitVec 2)
  /-- HRET (R271). Ends the handler, and the pack is killed if no other leash holds it. -/
  | hret (h : Head)
  /-- LDELEG (R267). Delegates a leash to another handler context. -/
  | ldeleg (h : Head) (e : BitVec 4) (l : BitVec 2) (x y : BitVec 6)
  /-- BCW (R292). Bundle control word: its pop mask, V guard, loop end and exit predicate act for the bundle. -/
  | bcw (ch : Bool) (p : BitVec 8) (v : BitVec 4) (l : BitVec 1) (x : BitVec 4)
  /-- EXT (R291). Extends the preceding word's immediate or start offset. -/
  | ext (ch : Bool) (k : BitVec 1) (v : BitVec 25)
  /-- RING (R294). Writes an entry of the pending ring table. -/
  | ring (ch : Bool) (k : BitVec 1) (r : BitVec 3) (b l : BitVec 6)
  /-- RESULT_COMMIT (R303). A result of latency L commits at the end of issue + L − 1, and its flags are ORed in. -/
  | resultCommit (c : Nat) (hd : Bool) (id : Nat)
  /-- ENGFMT_APPLY (R322). A pending VSETFMT value takes effect at the third bundle after its own. -/
  | engfmtApply (c : Nat)
  /-- LOCAL_STORE_COMMIT (R81). A local face store commits at the end of t + 1. -/
  | localStoreCommit (c : Nat) (hd : Bool) (id : Nat)
  /-- X_ACCESS_PERFORM (R81). An X-space load, store or atomic performs at its target core. -/
  | xAccessPerform (c id : Nat)
  /-- X_LOAD_RETURN (R81). An X-space load or returning atomic writes its destination at t + L − 1. -/
  | xLoadReturn (c : Nat) (hd : Bool) (id : Nat)
  /-- LINK_ENTRY_ARRIVE (R78). A link or crossing-FIFO entry reaches the receiver's FIFO or latch. -/
  | linkEntryArrive (c id : Nat)
  /-- COPY_COMMAND_START (R87). A copy, multicast or fill leaves the queue at its start tick and occupies the engine. -/
  | copyCommandStart (c id : Nat)
  /-- COPY_BEAT_READ (R434). A copy or PUT beat reads its source bytes at its read tick. -/
  | copyBeatRead (c id : Nat)
  /-- COPY_BEAT_COMMIT (R84). A copy or multicast beat commits at a destination. -/
  | copyBeatCommit (c id : Nat)
  /-- FILL_BEAT_COMMIT (R86). A fill beat commits 512 bytes. -/
  | fillBeatCommit (c id : Nat)
  /-- HELD_WRITE_COMMIT (R254). A held pack write into a stopped member commits when its TICK reaches the perform tick. -/
  | heldWriteCommit (c id : Nat)
  /-- TIMELINE_COMMAND_PERFORM (R104). A posted timeline command is presented at its stamp and checked against the other holders and the timing rules. -/
  | timelineCommandPerform (c id : Nat)
  /-- TSV_RESEND (R128). A parity mismatch on arrival causes a resend, and the PC's RCNT counts it. -/
  | tsvResend (c id fails lane : Nat)
  /-- READ_DELIVERY_COMMIT (R108). A read burst commits its 64 B into the face at s + 175. -/
  | readDeliveryCommit (c id : Nat)
  /-- WRITE_BURST_VISIBLE (R112). A write burst's data becomes visible in the bank at s + 24. -/
  | writeBurstVisible (c id : Nat)
  /-- IN_MEMORY_OP_COMPLETE (R124). An MZERO, MCOPY or MCMP completes and its banks become free. -/
  | inMemoryOpComplete (c id : Nat)
  /-- MCMP_RESULT_COMMIT (R428). The MCMP result commits to the C face at stamp + 207. -/
  | mcmpResultCommit (c id : Nat)
  /-- LFENCE_SATISFIED (R126). At tick F the W and M marks of the stack clear. -/
  | lfenceSatisfied (c id : Nat)
  /-- MARK_COMPLETE (R430). When the entries ahead have performed, the MARK adds to its target word. -/
  | markComplete (c id : Nat)
  /-- TRANSLATION_MARKER_RETIRE (R47). A translation marker retires once every entry ahead of it has performed. -/
  | translationMarkerRetire (c id : Nat)
  /-- LENT_SPAN_START (R114). A bank is lent to the controller and precharged at the start of its span. -/
  | lentSpanStart (hs pc f : Nat)
  /-- LENT_SPAN_END (R114). A lent bank is returned precharged and counted as refreshed. -/
  | lentSpanEnd (hs pc f : Nat)
  /-- HOLE_MAINTENANCE (R117). In a frame's hole the controller performs its queued maintenance work. -/
  | holeMaintenance (hs pc f : Nat)
  /-- REFRESH_WINDOW_EXPIRE (R118). A bank reaches r + W without a refresh, and REFMISS faults. -/
  | refreshWindowExpire (c hs pc bank : Nat)
  /-- SAFETY_REFRESH (R123). The wall-time refresh limit forces a refresh and holds the compiled commands. -/
  | safetyRefresh (hs pc bank : Nat)
  /-- IDLE_PC_REFRESH (R119). The controller autonomously refreshes idle PCs and frozen packs' banks. -/
  | idlePcRefresh (hs pc : Nat)
  /-- RCNT_WINDOW_CLEAR (R129). Each PC's retry counter clears every 2^22 mt. -/
  | rcntWindowClear (hs : Nat)
  /-- HBM_TEMPERATURE_READ (R485). The stack temperature is read every 4,096 mt and the band is updated. -/
  | hbmTemperatureRead (hs temp : Nat)
  /-- DROOP_STRETCH (R140). The droop monitor stretches one period of a core region. -/
  | droopStretch (r : Nat)
  /-- REFERENCE_LOST (R160). A core region loses the reference, free-runs and sets FREERUN. -/
  | referenceLost (r : Nat)
  /-- HBM_REFERENCE_LOST (R162). An HBM region loses the reference and holds its compiled commands. -/
  | hbmReferenceLost (hs : Nat)
  /-- REFERENCE_RELOCK (R162). A region relocks to the reference. -/
  | referenceRelock (r : Nat)
  /-- SNAPSHOT_PUBLISH (R147). The alignment network publishes a snapshot every 64 periods. -/
  | snapshotPublish
  /-- HEEL_ARRIVE (R148). TICK reaches the HEEL target, and the core holds. -/
  | heelArrive (c : Nat)
  /-- HEEL_RELEASE (R148). At P + 16 all members are released and TICK advances again. -/
  | heelRelease (g : Nat)
  /-- HEEL_EXIT (R148). At T + 24 issue resumes at the exit tick E. -/
  | heelExit (c : Nat)
  /-- FENCE_END (R190). A fence's waited accesses have performed, and issue resumes. -/
  | fenceEnd (c : Nat) (hd : Bool)
  /-- FLAGWAIT_SATISFIED (R449). The flag word satisfies the condition or shows 0xE0, and the wait ends. -/
  | flagwaitSatisfied (c : Nat) (hd : Bool)
  /-- BARRIER_ARRIVAL (R451). A barrier arrival registers after its fence and returns the generation. -/
  | barrierArrival (c : Nat)
  /-- BARWAIT_END (R452). A barrier wait ends when its generation has closed. -/
  | barwaitEnd (c : Nat)
  /-- WAITC_SATISFIED (R461). A completion counter reaches the value and the wait ends. -/
  | waitcSatisfied (c : Nat)
  /-- GWAIT_END (R464). The instance ends, and the wait returns its outcome. -/
  | gwaitEnd (c : Nat)
  /-- WALKER_INTAKE_FREE (R463). A LAUNCH or GINST waiting for walker space completes. -/
  | walkerIntakeFree (c : Nat)
  /-- G_ATOMIC_PERFORM (R444). The stack's atomic unit performs a grouped or open atomic in its order. -/
  | gAtomicPerform (hs : Nat)
  /-- ATOMIC_RETURN (R444). A G atomic's return writes D at t + L − 1 and frees its slot. -/
  | atomicReturn (c : Nat) (hd : Bool) (id : Nat)
  /-- FABRIC_REQUEST_IN (R52). An incoming fabric operation is translated and performed in this package's G space. -/
  | fabricRequestIn (q : FabricReq)
  /-- FABRIC_COMPLETION (R461). A fabric operation's acknowledgement raises its completion counter. -/
  | fabricCompletion (c id code cause : Nat) (old : Word)
  /-- GET_PIECE_COMMIT (R458). An 8-byte piece of a GET commits into the face in real time. -/
  | getPieceCommit (c id off : Nat) (v : Word)
  /-- TASK_RETIRE (R197). An Ending task retires once all of its accesses have performed. -/
  | taskRetire (c : Nat)
  /-- LAUNCH_END (R210). A launch ends and its completion record takes its final STATE. -/
  | launchEnd (inst node : Nat)
  /-- WALKER_HELD_PUSH (R225). A node held by a full queue is pushed once space frees. -/
  | walkerHeldPush
  /-- READY_AGING (R225). After each full 1 ms an entry moves to the next higher queue. -/
  | readyAging
  /-- INSTANCE_WINDOW_FILL (R41). The Shepherds check a new instance's window lists and fill the second-level TLBs. -/
  | instanceWindowFill (inst : Nat)
  /-- SEAL_COMPLETE (R467). A SEAL or UNSEAL completes and writes its result word. -/
  | sealComplete
  /-- PHASE_BIND (R222). The Shepherds bind the next phase in seven steps. -/
  | phaseBind (leases : List LeaseEntry)
  /-- SHEPHERD_TAKE (R226). A Shepherd claims packs from the head ready entry. -/
  | shepherdTake (die n : Nat)
  /-- SHEPHERD_RETURN (R226). A Shepherd returns claimed packs to the head of the queue. -/
  | shepherdReturn (die inst node pack : Nat)
  /-- RECORD_WRITE (R231). A bind record is written and checked when its word 0 is written. -/
  | recordWrite (r slot : Nat) (ws : List Word)
  /-- RECORD_WITHDRAW (R234). A record is withdrawn before its preload begins. -/
  | recordWithdraw (r slot pos : Nat)
  /-- TLB_PRELOAD (R39). The first-level TLB is cleared and loaded with the launch's window entries. -/
  | tlbPreload (c : Nat)
  /-- PACK_RELEASE (R232). A ready pack is released at P + 16, and each member starts at START. -/
  | packRelease (g : Nat)
  /-- REGION_GATE_BEGIN (R236). A region idle for 50 µs begins to gate. -/
  | regionGateBegin (r : Nat)
  /-- GATING_COMPLETE (R236). Gating ends after 1 µs, and the region keeps only its retention supply. -/
  | gatingComplete (r : Nat)
  /-- WAKE_REQUEST (R237). A wake request ends a hold or joins the in-rush arbiter queue. -/
  | wakeRequest (r : Nat)
  /-- GATE_HOLD_OVERRIDE (R227). The firmware lengthens a region's gating hold. -/
  | gateHoldOverride (r time : Nat)
  /-- RAMP_START (R238). The arbiter grants a region's ramp. -/
  | rampStart (r : Nat)
  /-- RAMP_END (R238). After 12 µs the region is awake. -/
  | rampEnd (r : Nat)
  /-- PREEMPT (R242). The Shepherd holds a victim instance for a higher-priority claimant. -/
  | preempt (victim claimant : Nat)
  /-- RESTORE (R244). The walker state is reloaded and the hold on the victim is lifted. -/
  | restore (inst : Nat)
  /-- PLACE_BALLAST (R246). Ballast runs a cube on zero operands to hold a region's current steady. -/
  | placeBallast (c : Nat)
  /-- SHEPHERD_CANCEL (R211). The Shepherd cancels a level. -/
  | shepherdCancel (level inst node : Nat)
  /-- SHEPHERD_TLB_WRITE (R43). Shepherd firmware writes a TLB entry, with refusals reported in its status. -/
  | shepherdTlbWrite (c idx : Nat) (second : Bool) (w0 w1 : Word)
  /-- SHEPHERD_TLB_INVALIDATE (R46). Shepherd firmware invalidates first- and second-level entries and places markers. -/
  | shepherdTlbInvalidate (cs : List Nat) (all : Bool) (va len : Nat)
  /-- ENERGY_INTERVAL (R245). Each 1 µs interval of core-rail energy is charged to its accounts. -/
  | energyInterval (charges : List (Nat × Nat × Nat))
  /-- FREEZE_NOTICE_ARRIVE (R251). The freeze notice reaches a member, which computes its held tick. -/
  | freezeNoticeArrive (g : Nat)
  /-- MEMBER_STOP (R251). A member reaches its held tick and stops. -/
  | memberStop (c : Nat)
  /-- KENNEL_DISPATCH (R262). Once every member has stopped, a handler context starts with the leash. -/
  | kennelDispatch (g : Nat)
  /-- HANDLER_BUDGET_EXPIRE (R265). A handler that runs past BUDGET faults NEST. -/
  | handlerBudgetExpire (c serial : Nat)
  /-- PACK_RESUME_RELEASE (R269). After the bank restore, the pack is released at P + 16 and continues from Φ. -/
  | packResumeRelease (g epoch : Nat)
  /-- CUBE_COMMAND_START (R388). A cube command leaves its queue at its start tick and begins to run. -/
  | cubeCommandStart (c id : Nat)
  /-- CUBE_STREAM_STEP (R392). A running command reads its k-steps for one step, with operand and poison checks. -/
  | cubeStreamStep (c id : Nat)
  /-- CUBE_RESULT_COMMIT (R397). A cube result element, or a CUBE.ZERO row, commits at its visibility tick. -/
  | cubeResultCommit (c id : Nat)
  /-- DRAIN_PIECE_COMMIT (R404). A drain piece commits into the destination face. -/
  | drainPieceCommit (c id : Nat)
  /-- RESCALE_ROW_COMMIT (R405). A CUBE.RESC row is written at t0 + i + 4. -/
  | rescaleRowCommit (c id : Nat)
  /-- SCORE_P_LINE_COMMIT (R408). A CUBE.SCORE P line commits into an A slice. -/
  | scorePLineCommit (c id : Nat)
  /-- SCORE_SIDE_COMMIT (R408). CUBE.SCORE commits MAX and ALPHA, then SUM, of its rows. -/
  | scoreSideCommit (c id : Nat)
  /-- WEIGHT_LATCH_REPLACE (R400). Each layer's weight latch is replaced at the end of t0 + τw. -/
  | weightLatchReplace (c id : Nat)
  /-- LAYER_FAILURE (R412). Parity finds a physical layer failed in service, and its logical layer is removed. -/
  | layerFailure (c layer : Nat)
  /-- GOVERNOR_EVALUATION (R480). Every 10 µs the governor computes the thermal and power requests and each domain's step. -/
  | governorEvaluation (amps watts : Nat) (calm : Bool)
  /-- STEP_APPLY (R141). A new step takes effect at a publication instant in every region of the domain. -/
  | stepApply
  /-- SENSOR_SAMPLE (R477). The thermal sensors report every 1 µs. -/
  | sensorSample (temps : List Nat)
  /-- WHISTLE_SEND (R482). During the emergency a whistle is sent every 100 µs. -/
  | whistleSend
  /-- WHISTLE_RECEIVE (R483). A received whistle for the job sets WSTEP. -/
  | whistleReceive (job w : Nat)
  /-- WHISTLE_TIMEOUT (R483). WSTEP returns to 16 after 300 µs without a whistle. -/
  | whistleTimeout
  /-- EMERGENCY_END (R482). After 1 ms below the limits the emergency ends and whistles stop. -/
  | emergencyEnd
  /-- THERMAL_TRIP (R484). A sensor at 120 °C removes core power, and the job fails. -/
  | thermalTrip (sensor : Nat)
  /-- CURRENT_TRIP (R484). Core current above 21,000 A for 10 µs removes core power. -/
  | currentTrip (amps : Nat)
  /-- JSTART (R490). A host write of JSTART starts, verifies and binds a job. -/
  | jstart (v : Word)
  /-- JCANCEL (R488). A host write of 1 cancels the job. -/
  | jcancel (v : Word)
  /-- HWBASE_WRITE (R56). The host sets the memory-range base while no job runs. -/
  | hwbaseWrite (v : Word)
  /-- JCAUSE_CLEAR (R492). The host clears sticky JCAUSE bits by writing 1. -/
  | jcauseClear (v : Word)
  /-- CLKSTAT_CLEAR (R163). A write of 1 clears the sticky clock-status bits. -/
  | clkstatClear (r : Nat) (v : Word)
  /-- REGISTER_WRITE (R488). A host write to a control-range register with no behaviour of its own, such as MSI-X. -/
  | registerWrite (off : Nat) (v : Word)
  /-- HOST_MEMORY_READ (R57). A host read through the memory range, with sealed bytes returning 0xFF. -/
  | hostMemoryRead (off n : Nat)
  /-- HOST_MEMORY_WRITE (R56). A host write through the memory range, discarded in sealed or sealed-graph ranges. -/
  | hostMemoryWrite (off : Nat) (data : List Byte)
  /-- HEARTBEAT (R509). HBEAT is incremented every 100 ms. -/
  | heartbeat
  /-- READ_ERROR_LOG (R493). Jeloth CMD 1 returns error-log entries. -/
  | readErrorLog (tag sel : Nat)
  /-- READ_CLOCKS (R493). Jeloth CMD 2 returns CLKSTAT, MUZZLE history and the sensors. -/
  | readClocks (tag : Nat)
  /-- SET_PCAP (R476). Jeloth CMD 3 sets the package power cap. -/
  | setPcap (tag watts : Nat)
  /-- READ_ENERGY (R493). Jeloth CMD 4 returns the energy accounts. -/
  | readEnergy (tag : Nat)
  /-- READ_AVAILABILITY_MAP (R493). Jeloth CMD 5 returns the bank-availability map. -/
  | readAvailabilityMap (tag hs : Nat)
  /-- SET_PKGID (R504). Jeloth CMD 6 sets PKGID while idle. -/
  | setPkgid (tag id : Nat)
  /-- READ_KEYS (R498). Jeloth CMD 7 returns the public keys and certificates. -/
  | readKeys (tag : Nat)
  /-- ATTEST (R503). Jeloth CMD 8 returns a signed measurement report. -/
  | attest (tag : Nat) (nonce : List Byte)
  /-- READ_TRACE (R507). Jeloth CMD 9 returns trace records and selects the mode. -/
  | readTrace (tag sel : Nat) (stop : Bool)
  /-- INSTALL_FIRMWARE (R495). Jeloth CMD 10 verifies and installs a firmware image while idle. -/
  | installFirmware (tag kind : Nat) (image : List Byte)
  /-- READ_PHASE_FAILURE (R493). Jeloth CMD 11 returns the phase-failure record. -/
  | readPhaseFailure (tag : Nat)
  /-- BOOT (R496). At reset the package verifies its firmware, tests layers, trains HBM and derives keys. -/
  | boot
  /-- SHEPHERD_KILL (R272). After a handler fault passes NEST to it, the Shepherd firmware kills the frozen pack under R270. -/
  | shepherdKill (g : Nat)
  /-- BALLAST_STEP_DOWN_END (R246). A ballast operation finishes stepping its activity down within 8 µs and stops, so its core no longer counts as running ballast. -/
  | ballastStepDownEnd (c : Nat)
deriving DecidableEq, Repr

end Sys2Proof
end

