-- ==== Sys2Proof/Decode.lean ====
section
/-!
DEFINITION. Decoding and encoding of one instruction word (R284 to R301), from the opcode maps of spec/09_encoding.md. Every
bit pattern is read or rejected by the cause of R302; the steps of Instr that are no words have no encoding.
-/
namespace Sys2Proof

/-- Why a word is no instruction (R302): the pipe code 6, an opcode outside its map, a field marked zero that is not. -/
inductive Reject where
  | pipe
  | opcode
  | reserved
deriving DecidableEq, Repr

/-- Bit `i` of a word. -/
def bit (w i : Nat) : Bool := fld w i i = 1

/-- Bits `hi : lo` of a word as a field of `n` bits. -/
def fbv (w n hi lo : Nat) : BitVec n := BitVec.ofNat n (fld w hi lo)

/-- The header of a word of pipes 0, 1, 3, 4 and 5 (R284). -/
def head (w : Nat) : Head := ⟨bit w 31, fbv w 4 21 18⟩

/-- The header of a word that S0 and S1 share (R297). -/
def shead (w : Nat) : SHead := ⟨bit w 31, bit w 28, fbv w 4 21 18⟩

/-- An instruction whose listed fields must be zero (R302). -/
def zeros (w : Nat) (zs : List (Nat × Nat)) (i : Instr) : Except Reject Instr :=
  if zs.all (fun z => fld w z.1 z.2 = 0) then .ok i else .error .reserved

/-- The opcodes that S0 and S1 share (R297). -/
def decodeShared (w : Nat) : Except Reject Instr :=
  match fld w 27 22 with
  | 0 => zeros w [(17, 0)] (.nop (shead w))
  | 1 => zeros w [] (.add (shead w) (fbv w 6 17 12) (fbv w 6 11 6) (fbv w 6 5 0))
  | 2 => zeros w [] (.sub (shead w) (fbv w 6 17 12) (fbv w 6 11 6) (fbv w 6 5 0))
  | 3 => zeros w [] (.addi (shead w) (fbv w 6 17 12) (fbv w 6 11 6) (fbv w 6 5 0))
  | 4 => zeros w [] (.mul (shead w) (fbv w 6 17 12) (fbv w 6 11 6) (fbv w 6 5 0))
  | 5 => zeros w [] (.mulhs (shead w) (fbv w 6 17 12) (fbv w 6 11 6) (fbv w 6 5 0))
  | 6 => zeros w [] (.mulhu (shead w) (fbv w 6 17 12) (fbv w 6 11 6) (fbv w 6 5 0))
  | 7 => zeros w [] (.and (shead w) (fbv w 6 17 12) (fbv w 6 11 6) (fbv w 6 5 0))
  | 8 => zeros w [] (.or (shead w) (fbv w 6 17 12) (fbv w 6 11 6) (fbv w 6 5 0))
  | 9 => zeros w [] (.xor (shead w) (fbv w 6 17 12) (fbv w 6 11 6) (fbv w 6 5 0))
  | 10 => zeros w [] (.andi (shead w) (fbv w 6 17 12) (fbv w 6 11 6) (fbv w 6 5 0))
  | 11 => zeros w [] (.ori (shead w) (fbv w 6 17 12) (fbv w 6 11 6) (fbv w 6 5 0))
  | 12 => zeros w [] (.xori (shead w) (fbv w 6 17 12) (fbv w 6 11 6) (fbv w 6 5 0))
  | 13 => zeros w [] (.shl (shead w) (fbv w 6 17 12) (fbv w 6 11 6) (fbv w 6 5 0))
  | 14 => zeros w [] (.shr (shead w) (fbv w 6 17 12) (fbv w 6 11 6) (fbv w 6 5 0))
  | 15 => zeros w [] (.sar (shead w) (fbv w 6 17 12) (fbv w 6 11 6) (fbv w 6 5 0))
  | 16 => zeros w [] (.shli (shead w) (fbv w 6 17 12) (fbv w 6 11 6) (fbv w 6 5 0))
  | 17 => zeros w [] (.shri (shead w) (fbv w 6 17 12) (fbv w 6 11 6) (fbv w 6 5 0))
  | 18 => zeros w [] (.sari (shead w) (fbv w 6 17 12) (fbv w 6 11 6) (fbv w 6 5 0))
  | 19 => zeros w [] (.min (shead w) (fbv w 6 17 12) (fbv w 6 11 6) (fbv w 6 5 0))
  | 20 => zeros w [] (.max (shead w) (fbv w 6 17 12) (fbv w 6 11 6) (fbv w 6 5 0))
  | 21 => zeros w [] (.minu (shead w) (fbv w 6 17 12) (fbv w 6 11 6) (fbv w 6 5 0))
  | 22 => zeros w [] (.maxu (shead w) (fbv w 6 17 12) (fbv w 6 11 6) (fbv w 6 5 0))
  | 23 => zeros w [] (.li (shead w) (fbv w 6 17 12) (fbv w 12 11 0))
  | 24 => zeros w [] (.sel (shead w) (fbv w 6 17 12) (fbv w 6 11 6) (fbv w 6 5 0))
  | 25 => zeros w [(13, 12)] (.cmpeq (shead w) (fbv w 4 17 14) (fbv w 6 11 6) (fbv w 6 5 0))
  | 26 => zeros w [(13, 12)] (.cmpne (shead w) (fbv w 4 17 14) (fbv w 6 11 6) (fbv w 6 5 0))
  | 27 => zeros w [(13, 12)] (.cmplt (shead w) (fbv w 4 17 14) (fbv w 6 11 6) (fbv w 6 5 0))
  | 28 => zeros w [(13, 12)] (.cmple (shead w) (fbv w 4 17 14) (fbv w 6 11 6) (fbv w 6 5 0))
  | 29 => zeros w [(13, 12)] (.cmpltu (shead w) (fbv w 4 17 14) (fbv w 6 11 6) (fbv w 6 5 0))
  | 30 => zeros w [(13, 12)] (.cmpleu (shead w) (fbv w 4 17 14) (fbv w 6 11 6) (fbv w 6 5 0))
  | 31 => zeros w [(13, 12)] (.cmpeqi (shead w) (fbv w 4 17 14) (fbv w 6 11 6) (fbv w 6 5 0))
  | 32 => zeros w [(13, 12)] (.cmplti (shead w) (fbv w 4 17 14) (fbv w 6 11 6) (fbv w 6 5 0))
  | 33 => zeros w [(5, 0)] (.pand (shead w) (fbv w 4 17 14) (fbv w 4 13 10) (fbv w 4 9 6))
  | 34 => zeros w [(5, 0)] (.por (shead w) (fbv w 4 17 14) (fbv w 4 13 10) (fbv w 4 9 6))
  | 35 => zeros w [(5, 0)] (.pxor (shead w) (fbv w 4 17 14) (fbv w 4 13 10) (fbv w 4 9 6))
  | 36 => zeros w [(5, 0)] (.pandn (shead w) (fbv w 4 17 14) (fbv w 4 13 10) (fbv w 4 9 6))
  | 37 => zeros w [(5, 0)] (.xmov (shead w) (fbv w 6 17 12) (fbv w 6 11 6))
  | 38 => zeros w [(11, 3)] (.qrd (shead w) (fbv w 6 17 12) (fbv w 3 2 0))
  | 39 => zeros w [(0, 0)] (.fadd (shead w) (fbv w 2 17 16) (fbv w 5 15 11) (fbv w 5 10 6) (fbv w 5 5 1))
  | 40 => zeros w [(0, 0)] (.fsub (shead w) (fbv w 2 17 16) (fbv w 5 15 11) (fbv w 5 10 6) (fbv w 5 5 1))
  | 41 => zeros w [(0, 0)] (.fmul (shead w) (fbv w 2 17 16) (fbv w 5 15 11) (fbv w 5 10 6) (fbv w 5 5 1))
  | 42 => zeros w [(0, 0)] (.ffma (shead w) (fbv w 2 17 16) (fbv w 5 15 11) (fbv w 5 10 6) (fbv w 5 5 1))
  | 43 => zeros w [(17, 16), (0, 0)] (.fmin (shead w) (fbv w 5 15 11) (fbv w 5 10 6) (fbv w 5 5 1))
  | 44 => zeros w [(17, 16), (0, 0)] (.fmax (shead w) (fbv w 5 15 11) (fbv w 5 10 6) (fbv w 5 5 1))
  | 45 => zeros w [(0, 0)] (.dadd (shead w) (fbv w 2 17 16) (fbv w 5 15 11) (fbv w 5 10 6) (fbv w 5 5 1))
  | 46 => zeros w [(0, 0)] (.dsub (shead w) (fbv w 2 17 16) (fbv w 5 15 11) (fbv w 5 10 6) (fbv w 5 5 1))
  | 47 => zeros w [(0, 0)] (.dmul (shead w) (fbv w 2 17 16) (fbv w 5 15 11) (fbv w 5 10 6) (fbv w 5 5 1))
  | 48 => zeros w [(0, 0)] (.dfma (shead w) (fbv w 2 17 16) (fbv w 5 15 11) (fbv w 5 10 6) (fbv w 5 5 1))
  | 49 => zeros w [(17, 16), (0, 0)] (.dmin (shead w) (fbv w 5 15 11) (fbv w 5 10 6) (fbv w 5 5 1))
  | 50 => zeros w [(17, 16), (0, 0)] (.dmax (shead w) (fbv w 5 15 11) (fbv w 5 10 6) (fbv w 5 5 1))
  | 51 => zeros w [(13, 12)] (.fcmpeq (shead w) (fbv w 4 17 14) (fbv w 6 11 6) (fbv w 6 5 0))
  | 52 => zeros w [(13, 12)] (.fcmplt (shead w) (fbv w 4 17 14) (fbv w 6 11 6) (fbv w 6 5 0))
  | 53 => zeros w [(13, 12)] (.fcmple (shead w) (fbv w 4 17 14) (fbv w 6 11 6) (fbv w 6 5 0))
  | 54 => zeros w [(13, 12)] (.dcmpeq (shead w) (fbv w 4 17 14) (fbv w 6 11 6) (fbv w 6 5 0))
  | 55 => zeros w [(13, 12)] (.dcmplt (shead w) (fbv w 4 17 14) (fbv w 6 11 6) (fbv w 6 5 0))
  | 56 => zeros w [(13, 12)] (.dcmple (shead w) (fbv w 4 17 14) (fbv w 6 11 6) (fbv w 6 5 0))
  | 57 => zeros w [(0, 0)] (.cvt (shead w) (fbv w 2 17 16) (fbv w 5 15 11) (fbv w 5 10 6) (fbv w 5 5 1))
  | _ => .error .opcode

/-- Pipe S0: its own opcodes, then the shared ones (R297). -/
def decodeS0 (w : Nat) : Except Reject Instr :=
  match fld w 27 22 with
  | 58 => zeros w [] (.b (head w) (fbv w 18 17 0))
  | 59 => zeros w [] (.call (head w) (fbv w 6 17 12) (fbv w 12 11 0))
  | 60 => zeros w [(17, 12), (5, 0)] (.jr (head w) (fbv w 6 11 6))
  | 61 => zeros w [(9, 0)] (.loop (head w) (fbv w 6 17 12) (fbv w 2 11 10))
  | 62 => zeros w [(17, 0)] (.endTask (head w))
  | _ => decodeShared w

/-- Pipe S1: its own opcodes, then the shared ones (R297). -/
def decodeS1 (w : Nat) : Except Reject Instr :=
  match fld w 27 22 with
  | 58 => zeros w [(0, 0)] (.fdiv (head w) (fbv w 2 17 16) (fbv w 5 15 11) (fbv w 5 10 6) (fbv w 5 5 1))
  | 59 => zeros w [(5, 0)] (.fsqrt (head w) (fbv w 2 17 16) (fbv w 5 15 11) (fbv w 5 10 6))
  | 60 => zeros w [(0, 0)] (.ddiv (head w) (fbv w 2 17 16) (fbv w 5 15 11) (fbv w 5 10 6) (fbv w 5 5 1))
  | 61 => zeros w [(5, 0)] (.dsqrt (head w) (fbv w 2 17 16) (fbv w 5 15 11) (fbv w 5 10 6))
  | _ => decodeShared w

/-- The V pipe (R298). -/
def decodeV (w : Nat) : Except Reject Instr :=
  match fld w 27 22 with
  | 0 => zeros w [(21, 21), (6, 0)] (.vmov (bit w 31) (fbv w 7 20 14) (fbv w 7 13 7))
  | 1 => zeros w [] (.vfadd (bit w 31) (fbv w 1 21 21) (fbv w 7 20 14) (fbv w 7 13 7) (fbv w 7 6 0))
  | 2 => zeros w [] (.vfsub (bit w 31) (fbv w 1 21 21) (fbv w 7 20 14) (fbv w 7 13 7) (fbv w 7 6 0))
  | 3 => zeros w [] (.vfmul (bit w 31) (fbv w 1 21 21) (fbv w 7 20 14) (fbv w 7 13 7) (fbv w 7 6 0))
  | 4 => zeros w [] (.vfma (bit w 31) (fbv w 1 21 21) (fbv w 7 20 14) (fbv w 7 13 7) (fbv w 7 6 0))
  | 5 => zeros w [] (.vfmin (bit w 31) (fbv w 1 21 21) (fbv w 7 20 14) (fbv w 7 13 7) (fbv w 7 6 0))
  | 6 => zeros w [] (.vfmax (bit w 31) (fbv w 1 21 21) (fbv w 7 20 14) (fbv w 7 13 7) (fbv w 7 6 0))
  | 7 => zeros w [] (.vadd (bit w 31) (fbv w 1 21 21) (fbv w 7 20 14) (fbv w 7 13 7) (fbv w 7 6 0))
  | 8 => zeros w [] (.vsub (bit w 31) (fbv w 1 21 21) (fbv w 7 20 14) (fbv w 7 13 7) (fbv w 7 6 0))
  | 9 => zeros w [] (.vmul (bit w 31) (fbv w 1 21 21) (fbv w 7 20 14) (fbv w 7 13 7) (fbv w 7 6 0))
  | 10 => zeros w [] (.vmin (bit w 31) (fbv w 1 21 21) (fbv w 7 20 14) (fbv w 7 13 7) (fbv w 7 6 0))
  | 11 => zeros w [] (.vmax (bit w 31) (fbv w 1 21 21) (fbv w 7 20 14) (fbv w 7 13 7) (fbv w 7 6 0))
  | 12 => zeros w [] (.vminu (bit w 31) (fbv w 1 21 21) (fbv w 7 20 14) (fbv w 7 13 7) (fbv w 7 6 0))
  | 13 => zeros w [] (.vmaxu (bit w 31) (fbv w 1 21 21) (fbv w 7 20 14) (fbv w 7 13 7) (fbv w 7 6 0))
  | 14 => zeros w [(21, 21)] (.vand (bit w 31) (fbv w 7 20 14) (fbv w 7 13 7) (fbv w 7 6 0))
  | 15 => zeros w [(21, 21)] (.vor (bit w 31) (fbv w 7 20 14) (fbv w 7 13 7) (fbv w 7 6 0))
  | 16 => zeros w [(21, 21)] (.vxor (bit w 31) (fbv w 7 20 14) (fbv w 7 13 7) (fbv w 7 6 0))
  | 17 => zeros w [] (.vshl (bit w 31) (fbv w 1 21 21) (fbv w 7 20 14) (fbv w 7 13 7) (fbv w 7 6 0))
  | 18 => zeros w [] (.vshr (bit w 31) (fbv w 1 21 21) (fbv w 7 20 14) (fbv w 7 13 7) (fbv w 7 6 0))
  | 19 => zeros w [] (.vsar (bit w 31) (fbv w 1 21 21) (fbv w 7 20 14) (fbv w 7 13 7) (fbv w 7 6 0))
  | 20 => zeros w [] (.vfcmpeq (bit w 31) (fbv w 1 21 21) (fbv w 7 20 14) (fbv w 7 13 7) (fbv w 7 6 0))
  | 21 => zeros w [] (.vfcmplt (bit w 31) (fbv w 1 21 21) (fbv w 7 20 14) (fbv w 7 13 7) (fbv w 7 6 0))
  | 22 => zeros w [] (.vcmpeq (bit w 31) (fbv w 1 21 21) (fbv w 7 20 14) (fbv w 7 13 7) (fbv w 7 6 0))
  | 23 => zeros w [] (.vcmplt (bit w 31) (fbv w 1 21 21) (fbv w 7 20 14) (fbv w 7 13 7) (fbv w 7 6 0))
  | 24 => zeros w [] (.vsel (bit w 31) (fbv w 1 21 21) (fbv w 7 20 14) (fbv w 7 13 7) (fbv w 7 6 0))
  | 25 => zeros w [(6, 0)] (.vexp2 (bit w 31) (fbv w 1 21 21) (fbv w 7 20 14) (fbv w 7 13 7))
  | 26 => zeros w [(6, 0)] (.vrcp (bit w 31) (fbv w 1 21 21) (fbv w 7 20 14) (fbv w 7 13 7))
  | 27 => zeros w [(6, 0)] (.vrsq (bit w 31) (fbv w 1 21 21) (fbv w 7 20 14) (fbv w 7 13 7))
  | 28 => zeros w [(20, 20), (6, 0)] (.vfrsum (bit w 31) (fbv w 1 21 21) (fbv w 6 19 14) (fbv w 7 13 7))
  | 29 => zeros w [(20, 20), (6, 0)] (.vfrmax (bit w 31) (fbv w 1 21 21) (fbv w 6 19 14) (fbv w 7 13 7))
  | 30 => zeros w [(13, 13), (6, 0)] (.vbcast (bit w 31) (fbv w 1 21 21) (fbv w 7 20 14) (fbv w 6 12 7))
  | 31 => zeros w [] (.vperm (bit w 31) (fbv w 1 21 21) (fbv w 7 20 14) (fbv w 7 13 7) (fbv w 7 6 0))
  | 32 => zeros w [(21, 21), (6, 5)] (.vcvt (bit w 31) (fbv w 7 20 14) (fbv w 7 13 7) (fbv w 5 4 0))
  | 33 => zeros w [(6, 0)] (.vbmax (bit w 31) (fbv w 1 21 21) (fbv w 7 20 14) (fbv w 7 13 7))
  | 34 => zeros w [(6, 0)] (.vqcvt (bit w 31) (fbv w 1 21 21) (fbv w 7 20 14) (fbv w 7 13 7))
  | 35 => zeros w [] (.vdeq (bit w 31) (fbv w 1 21 21) (fbv w 7 20 14) (fbv w 7 13 7) (fbv w 7 6 0))
  | 36 => zeros w [(21, 13), (6, 0)] (.vsetfmt (bit w 31) (fbv w 6 12 7))
  | 37 => if fld w 21 21 = 1 then zeros w [(13, 9), (6, 0)] (.vqmovSend (bit w 31) (fbv w 7 20 14) (fbv w 2 8 7))
      else zeros w [(21, 21), (13, 10), (6, 0)] (.vqmov (bit w 31) (fbv w 7 20 14) (fbv w 3 9 7))
  | _ => .error .opcode

/-- The M pipe (R300). -/
def decodeM (w : Nat) : Except Reject Instr :=
  match fld w 27 22 with
  | 0 => zeros w [(2, 0)] (.lda (head w) (fbv w 6 17 12) (fbv w 6 11 6) (fbv w 2 5 4) (fbv w 1 3 3))
  | 1 => zeros w [(3, 0)] (.sta (head w) (fbv w 6 17 12) (fbv w 6 11 6) (fbv w 2 5 4))
  | 2 => zeros w [(4, 0)] (.mlda (head w) (fbv w 7 17 11) (fbv w 6 10 5))
  | 3 => zeros w [(4, 0)] (.msta (head w) (fbv w 7 17 11) (fbv w 6 10 5))
  | 4 => zeros w [(2, 0)] (.ldw (head w) (fbv w 6 17 12) (fbv w 6 11 6) (fbv w 2 5 4) (fbv w 1 3 3))
  | 5 => zeros w [(3, 0)] (.stw (head w) (fbv w 6 17 12) (fbv w 6 11 6) (fbv w 2 5 4))
  | 6 => zeros w [(4, 0)] (.mldw (head w) (fbv w 7 17 11) (fbv w 6 10 5))
  | 7 => zeros w [(4, 0)] (.mstw (head w) (fbv w 7 17 11) (fbv w 6 10 5))
  | 8 => zeros w [(2, 0)] (.ldc (head w) (fbv w 6 17 12) (fbv w 6 11 6) (fbv w 2 5 4) (fbv w 1 3 3))
  | 9 => zeros w [(3, 0)] (.stc (head w) (fbv w 6 17 12) (fbv w 6 11 6) (fbv w 2 5 4))
  | 10 => zeros w [(4, 0)] (.mldc (head w) (fbv w 7 17 11) (fbv w 6 10 5))
  | 11 => zeros w [(4, 0)] (.mstc (head w) (fbv w 7 17 11) (fbv w 6 10 5))
  | 12 => zeros w [(2, 0)] (.ldx (head w) (fbv w 6 17 12) (fbv w 6 11 6) (fbv w 2 5 4) (fbv w 1 3 3))
  | 13 => zeros w [(3, 0)] (.stx (head w) (fbv w 6 17 12) (fbv w 6 11 6) (fbv w 2 5 4))
  | 14 => zeros w [(4, 0)] (.mldx (head w) (fbv w 7 17 11) (fbv w 6 10 5))
  | 15 => zeros w [(4, 0)] (.mstx (head w) (fbv w 7 17 11) (fbv w 6 10 5))
  | 16 => zeros w [] (.aaddW (head w) (fbv w 1 17 17) (fbv w 2 16 15) (fbv w 5 14 10) (fbv w 5 9 5) (fbv w 5 4 0))
  | 17 => zeros w [] (.aaddD (head w) (fbv w 1 17 17) (fbv w 2 16 15) (fbv w 5 14 10) (fbv w 5 9 5) (fbv w 5 4 0))
  | 18 => zeros w [] (.asmaxW (head w) (fbv w 1 17 17) (fbv w 2 16 15) (fbv w 5 14 10) (fbv w 5 9 5) (fbv w 5 4 0))
  | 19 => zeros w [] (.asmaxD (head w) (fbv w 1 17 17) (fbv w 2 16 15) (fbv w 5 14 10) (fbv w 5 9 5) (fbv w 5 4 0))
  | 20 => zeros w [] (.asminW (head w) (fbv w 1 17 17) (fbv w 2 16 15) (fbv w 5 14 10) (fbv w 5 9 5) (fbv w 5 4 0))
  | 21 => zeros w [] (.asminD (head w) (fbv w 1 17 17) (fbv w 2 16 15) (fbv w 5 14 10) (fbv w 5 9 5) (fbv w 5 4 0))
  | 22 => zeros w [] (.aumaxW (head w) (fbv w 1 17 17) (fbv w 2 16 15) (fbv w 5 14 10) (fbv w 5 9 5) (fbv w 5 4 0))
  | 23 => zeros w [] (.aumaxD (head w) (fbv w 1 17 17) (fbv w 2 16 15) (fbv w 5 14 10) (fbv w 5 9 5) (fbv w 5 4 0))
  | 24 => zeros w [] (.auminW (head w) (fbv w 1 17 17) (fbv w 2 16 15) (fbv w 5 14 10) (fbv w 5 9 5) (fbv w 5 4 0))
  | 25 => zeros w [] (.auminD (head w) (fbv w 1 17 17) (fbv w 2 16 15) (fbv w 5 14 10) (fbv w 5 9 5) (fbv w 5 4 0))
  | 26 => zeros w [] (.axchgW (head w) (fbv w 1 17 17) (fbv w 2 16 15) (fbv w 5 14 10) (fbv w 5 9 5) (fbv w 5 4 0))
  | 27 => zeros w [] (.axchgD (head w) (fbv w 1 17 17) (fbv w 2 16 15) (fbv w 5 14 10) (fbv w 5 9 5) (fbv w 5 4 0))
  | 28 => zeros w [] (.acasW (head w) (fbv w 1 17 17) (fbv w 2 16 15) (fbv w 5 14 10) (fbv w 5 9 5) (fbv w 5 4 0))
  | 29 => zeros w [] (.acasD (head w) (fbv w 1 17 17) (fbv w 2 16 15) (fbv w 5 14 10) (fbv w 5 9 5) (fbv w 5 4 0))
  | 30 => zeros w [] (.afadd (head w) (fbv w 1 17 17) (fbv w 2 16 15) (fbv w 5 14 10) (fbv w 5 9 5) (fbv w 5 4 0))
  | 31 => zeros w [] (.afmax (head w) (fbv w 1 17 17) (fbv w 2 16 15) (fbv w 5 14 10) (fbv w 5 9 5) (fbv w 5 4 0))
  | 32 => zeros w [] (.afmin (head w) (fbv w 1 17 17) (fbv w 2 16 15) (fbv w 5 14 10) (fbv w 5 9 5) (fbv w 5 4 0))
  | 33 => zeros w [(14, 10)] (.redaddW (head w) (fbv w 1 17 17) (fbv w 2 16 15) (fbv w 5 9 5) (fbv w 5 4 0))
  | 34 => zeros w [(14, 10)] (.redaddD (head w) (fbv w 1 17 17) (fbv w 2 16 15) (fbv w 5 9 5) (fbv w 5 4 0))
  | 35 => zeros w [(14, 10)] (.redsmaxW (head w) (fbv w 1 17 17) (fbv w 2 16 15) (fbv w 5 9 5) (fbv w 5 4 0))
  | 36 => zeros w [(14, 10)] (.redsmaxD (head w) (fbv w 1 17 17) (fbv w 2 16 15) (fbv w 5 9 5) (fbv w 5 4 0))
  | 37 => zeros w [(14, 10)] (.redsminW (head w) (fbv w 1 17 17) (fbv w 2 16 15) (fbv w 5 9 5) (fbv w 5 4 0))
  | 38 => zeros w [(14, 10)] (.redsminD (head w) (fbv w 1 17 17) (fbv w 2 16 15) (fbv w 5 9 5) (fbv w 5 4 0))
  | 39 => zeros w [(14, 10)] (.redumaxW (head w) (fbv w 1 17 17) (fbv w 2 16 15) (fbv w 5 9 5) (fbv w 5 4 0))
  | 40 => zeros w [(14, 10)] (.redumaxD (head w) (fbv w 1 17 17) (fbv w 2 16 15) (fbv w 5 9 5) (fbv w 5 4 0))
  | 41 => zeros w [(14, 10)] (.reduminW (head w) (fbv w 1 17 17) (fbv w 2 16 15) (fbv w 5 9 5) (fbv w 5 4 0))
  | 42 => zeros w [(14, 10)] (.reduminD (head w) (fbv w 1 17 17) (fbv w 2 16 15) (fbv w 5 9 5) (fbv w 5 4 0))
  | 43 => zeros w [(14, 10)] (.redxchgW (head w) (fbv w 1 17 17) (fbv w 2 16 15) (fbv w 5 9 5) (fbv w 5 4 0))
  | 44 => zeros w [(14, 10)] (.redxchgD (head w) (fbv w 1 17 17) (fbv w 2 16 15) (fbv w 5 9 5) (fbv w 5 4 0))
  | 45 => zeros w [] (.redcasW (head w) (fbv w 1 17 17) (fbv w 2 16 15) (fbv w 5 14 10) (fbv w 5 9 5) (fbv w 5 4 0))
  | 46 => zeros w [] (.redcasD (head w) (fbv w 1 17 17) (fbv w 2 16 15) (fbv w 5 14 10) (fbv w 5 9 5) (fbv w 5 4 0))
  | 47 => zeros w [(14, 10)] (.redfadd (head w) (fbv w 1 17 17) (fbv w 2 16 15) (fbv w 5 9 5) (fbv w 5 4 0))
  | 48 => zeros w [(14, 10)] (.redfmax (head w) (fbv w 1 17 17) (fbv w 2 16 15) (fbv w 5 9 5) (fbv w 5 4 0))
  | 49 => zeros w [(14, 10)] (.redfmin (head w) (fbv w 1 17 17) (fbv w 2 16 15) (fbv w 5 9 5) (fbv w 5 4 0))
  | _ => .error .opcode

/-- The X pipe (R299). -/
def decodeX (w : Nat) : Except Reject Instr :=
  match fld w 27 22 with
  | 0 => zeros w [] (.cubeMm (head w) (fbv w 6 17 12) (fbv w 6 11 6) (fbv w 6 5 0))
  | 1 => zeros w [] (.cubeMma (head w) (fbv w 6 17 12) (fbv w 6 11 6) (fbv w 6 5 0))
  | 2 => zeros w [] (.cubeMmw (head w) (fbv w 6 17 12) (fbv w 6 11 6) (fbv w 6 5 0))
  | 3 => zeros w [] (.cubeMmwa (head w) (fbv w 6 17 12) (fbv w 6 11 6) (fbv w 6 5 0))
  | 4 => zeros w [] (.cubePl (head w) (fbv w 6 17 12) (fbv w 6 11 6) (fbv w 6 5 0))
  | 5 => zeros w [] (.cubePla (head w) (fbv w 6 17 12) (fbv w 6 11 6) (fbv w 6 5 0))
  | 6 => zeros w [] (.cubeWl (head w) (fbv w 6 17 12) (fbv w 6 11 6) (fbv w 6 5 0))
  | 7 => zeros w [(5, 0)] (.cubeFmt (head w) (fbv w 6 17 12) (fbv w 6 11 6))
  | 8 => zeros w [(5, 0)] (.cubeZero (head w) (fbv w 6 17 12) (fbv w 6 11 6))
  | 9 => zeros w [] (.cubeDrain (head w) (fbv w 6 17 12) (fbv w 6 11 6) (fbv w 6 5 0))
  | 10 => zeros w [] (.cubeScore (head w) (fbv w 6 17 12) (fbv w 6 11 6) (fbv w 6 5 0))
  | 11 => zeros w [(5, 0)] (.cubeResc (head w) (fbv w 6 17 12) (fbv w 6 11 6))
  | 12 => zeros w [] (.cubeSide (head w) (fbv w 6 17 12) (fbv w 6 11 6) (fbv w 6 5 0))
  | _ => .error .opcode

/-- The D pipe (R301). -/
def decodeD (w : Nat) : Except Reject Instr :=
  match fld w 27 22 with
  | 0 => zeros w [(5, 0)] (.act (head w) (fbv w 6 17 12) (fbv w 6 11 6))
  | 1 => zeros w [(5, 0)] (.pre (head w) (fbv w 6 17 12) (fbv w 6 11 6))
  | 2 => zeros w [(5, 0)] (.prea (head w) (fbv w 6 17 12) (fbv w 6 11 6))
  | 3 => zeros w [] (.rd (head w) (fbv w 6 17 12) (fbv w 6 11 6) (fbv w 6 5 0))
  | 4 => zeros w [] (.wr (head w) (fbv w 6 17 12) (fbv w 6 11 6) (fbv w 6 5 0))
  | 5 => zeros w [] (.rdt (head w) (fbv w 6 17 12) (fbv w 6 11 6) (fbv w 6 5 0))
  | 6 => zeros w [] (.wrt (head w) (fbv w 6 17 12) (fbv w 6 11 6) (fbv w 6 5 0))
  | 7 => zeros w [(5, 0)] (.refpb (head w) (fbv w 6 17 12) (fbv w 6 11 6))
  | 8 => zeros w [(5, 0)] (.refab (head w) (fbv w 6 17 12) (fbv w 6 11 6))
  | 9 => zeros w [(5, 0)] (.mzero (head w) (fbv w 6 17 12) (fbv w 6 11 6))
  | 10 => zeros w [] (.mcopy (head w) (fbv w 6 17 12) (fbv w 6 11 6) (fbv w 6 5 0))
  | 11 => zeros w [] (.mcmp (head w) (fbv w 6 17 12) (fbv w 6 11 6) (fbv w 6 5 0))
  | 12 => zeros w [(5, 0)] (.lfence (head w) (fbv w 6 17 12) (fbv w 6 11 6))
  | 13 => zeros w [] (.mark (head w) (fbv w 6 17 12) (fbv w 6 11 6) (fbv w 6 5 0))
  | 14 => zeros w [] (.copy (head w) (fbv w 6 17 12) (fbv w 6 11 6) (fbv w 6 5 0))
  | 15 => zeros w [] (.mcast (head w) (fbv w 6 17 12) (fbv w 6 11 6) (fbv w 6 5 0))
  | 16 => zeros w [] (.fill (head w) (fbv w 6 17 12) (fbv w 6 11 6) (fbv w 6 5 0))
  | 17 => zeros w [(2, 0)] (.heel (head w) (fbv w 6 17 12) (fbv w 9 11 3))
  | 18 => zeros w [(17, 12)] (.rebase (head w) (fbv w 12 11 0))
  | 19 => zeros w [(11, 0)] (.rdtick (head w) (fbv w 6 17 12))
  | 20 => zeros w [(17, 12)] (.flagset (head w) (fbv w 6 11 6) (fbv w 6 5 0))
  | 21 => zeros w [] (.flagwait (head w) (fbv w 6 17 12) (fbv w 6 11 6) (fbv w 6 5 0))
  | 22 => zeros w [(5, 0)] (.bararr (head w) (fbv w 6 17 12) (fbv w 6 11 6))
  | 23 => zeros w [] (.barwait (head w) (fbv w 6 17 12) (fbv w 6 11 6) (fbv w 6 5 0))
  | 24 => zeros w [(14, 0)] (.fence (head w) (fbv w 3 17 15))
  | 25 => zeros w [] (.put (head w) (fbv w 6 17 12) (fbv w 6 11 6) (fbv w 6 5 0))
  | 26 => zeros w [] (.get (head w) (fbv w 6 17 12) (fbv w 6 11 6) (fbv w 6 5 0))
  | 27 => zeros w [] (.ratom (head w) (fbv w 6 17 12) (fbv w 6 11 6) (fbv w 6 5 0))
  | 28 => zeros w [] (.waitc (head w) (fbv w 6 17 12) (fbv w 6 11 6) (fbv w 6 5 0))
  | 29 => zeros w [] (.launch (head w) (fbv w 6 17 12) (fbv w 6 11 6) (fbv w 6 5 0))
  | 30 => zeros w [] (.ginst (head w) (fbv w 6 17 12) (fbv w 6 11 6) (fbv w 6 5 0))
  | 31 => zeros w [] (.gwait (head w) (fbv w 6 17 12) (fbv w 6 11 6) (fbv w 6 5 0))
  | 32 => zeros w [(17, 12)] (.cancel (head w) (fbv w 6 11 6) (fbv w 6 5 0))
  | 33 => zeros w [] (.crd (head w) (fbv w 6 17 12) (fbv w 6 11 6) (fbv w 6 5 0))
  | 34 => zeros w [(17, 12)] (.seal (head w) (fbv w 6 11 6) (fbv w 6 5 0))
  | 35 => zeros w [(17, 12)] (.unseal (head w) (fbv w 6 11 6) (fbv w 6 5 0))
  | 36 => zeros w [] (.krd (head w) (fbv w 6 17 12) (fbv w 6 11 6) (fbv w 6 5 0))
  | 37 => zeros w [] (.kwr (head w) (fbv w 6 17 12) (fbv w 6 11 6) (fbv w 6 5 0))
  | 38 => zeros w [] (.tlbw (head w) (fbv w 6 17 12) (fbv w 6 11 6) (fbv w 6 5 0))
  | 39 => zeros w [] (.tlbp (head w) (fbv w 6 17 12) (fbv w 6 11 6) (fbv w 6 5 0))
  | 40 => zeros w [] (.tlbinv (head w) (fbv w 6 17 12) (fbv w 6 11 6) (fbv w 6 5 0))
  | 41 => zeros w [(17, 12)] (.trap (head w) (fbv w 12 11 0))
  | 42 => zeros w [] (.linsp (head w) (fbv w 4 17 14) (fbv w 2 13 12) (fbv w 6 11 6) (fbv w 6 5 0))
  | 43 => zeros w [] (.lpatch (head w) (fbv w 4 17 14) (fbv w 2 13 12) (fbv w 6 11 6) (fbv w 6 5 0))
  | 44 => zeros w [] (.lrq (head w) (fbv w 4 17 14) (fbv w 2 13 12) (fbv w 6 11 6) (fbv w 6 5 0))
  | 45 => zeros w [] (.lreinj (head w) (fbv w 4 17 14) (fbv w 2 13 12) (fbv w 6 11 6) (fbv w 6 5 0))
  | 46 => zeros w [(11, 0)] (.resume (head w) (fbv w 4 17 14) (fbv w 2 13 12))
  | 47 => zeros w [(11, 0)] (.kill (head w) (fbv w 4 17 14) (fbv w 2 13 12))
  | 48 => zeros w [(17, 0)] (.hret (head w))
  | 49 => zeros w [] (.ldeleg (head w) (fbv w 4 17 14) (fbv w 2 13 12) (fbv w 6 11 6) (fbv w 6 5 0))
  | _ => .error .opcode

/-- Control words (R290). -/
def decodeCtl (w : Nat) : Except Reject Instr :=
  match fld w 27 26 with
  | 0 => zeros w [(8, 0)] (.bcw (bit w 31) (fbv w 8 25 18) (fbv w 4 17 14) (fbv w 1 13 13) (fbv w 4 12 9))
  | 1 => zeros w [] (.ext (bit w 31) (fbv w 1 25 25) (fbv w 25 24 0))
  | 2 => zeros w [(9, 0)] (.ring (bit w 31) (fbv w 1 25 25) (fbv w 3 24 22) (fbv w 6 21 16) (fbv w 6 15 10))
  | _ => .error .opcode

/-- The instruction of one 32-bit word (R284, R302). -/
def decodeWord (w : Nat) : Except Reject Instr :=
  match fld w 30 28 with
  | 0 => decodeS0 w
  | 1 => decodeS1 w
  | 2 => decodeV w
  | 3 => decodeM w
  | 4 => decodeX w
  | 5 => decodeD w
  | 7 => decodeCtl w
  | _ => .error .pipe

/-- The number of a little-endian list of bytes (R10). -/
def leNat : List Byte → Nat
  | [] => 0
  | b :: bs => b.toNat + 256 * leNat bs

/-- The `n` bytes of a number, least significant first (R10). -/
def leBytes : Nat → Nat → List Byte
  | 0, _ => []
  | n + 1, w => BitVec.ofNat 8 w :: leBytes n (w / 256)

/-- The first instruction word of a byte stream and the bytes after it (R277); none when fewer than four bytes stand there. -/
def decode : List Byte → Option (Except Reject Instr × List Byte)
  | a :: b :: c :: d :: rest => some (decodeWord (leNat [a, b, c, d]), rest)
  | _ => none

/-- The instruction that the decoder reads from a word of the opcode table. -/
def decodeTableWord (nbits w : Nat) : Option Instr :=
  if nbits = 32 then
    match decode (leBytes 4 w) with
    | some (.ok i, _) => some i
    | _ => none
  else none

/-- A truth value as a bit. -/
def b2n (b : Bool) : Nat := if b then 1 else 0

/-- The bits of a header (R284). -/
def Head.bits (h : Head) : Nat := b2n h.chain * 2 ^ 31 + h.guard.toNat * 2 ^ 18

/-- The bits of a header that S0 and S1 share (R284, R297). -/
def SHead.bits (h : SHead) : Nat := b2n h.chain * 2 ^ 31 + b2n h.s1 * 2 ^ 28 + h.guard.toNat * 2 ^ 18

/-- Fields with the place of their lowest bit, put together. -/
def fields : List (Nat × Nat) → Nat
  | [] => 0
  | f :: fs => f.1 * 2 ^ f.2 + fields fs

/-- A word from its fixed bits, its header and its fields, for each kind of header. -/
def encS (base : Nat) (h : SHead) (fs : List (Nat × Nat)) : Nat := base + h.bits + fields fs
@[inherit_doc encS] def encG (base : Nat) (h : Head) (fs : List (Nat × Nat)) : Nat := base + h.bits + fields fs
@[inherit_doc encS] def encC (base : Nat) (chain : Bool) (fs : List (Nat × Nat)) : Nat := base + b2n chain * 2 ^ 31 + fields fs

/-- The word of an instruction (R284 to R301); 0 for a step that has no encoding. -/
def Instr.toWord : Instr → Nat
  | .nop h => encS 0x00000000 h []
  | .add h x0 x1 x2 => encS 0x00400000 h [(x0.toNat, 12), (x1.toNat, 6), (x2.toNat, 0)]
  | .sub h x0 x1 x2 => encS 0x00800000 h [(x0.toNat, 12), (x1.toNat, 6), (x2.toNat, 0)]
  | .addi h x0 x1 x2 => encS 0x00C00000 h [(x0.toNat, 12), (x1.toNat, 6), (x2.toNat, 0)]
  | .mul h x0 x1 x2 => encS 0x01000000 h [(x0.toNat, 12), (x1.toNat, 6), (x2.toNat, 0)]
  | .mulhs h x0 x1 x2 => encS 0x01400000 h [(x0.toNat, 12), (x1.toNat, 6), (x2.toNat, 0)]
  | .mulhu h x0 x1 x2 => encS 0x01800000 h [(x0.toNat, 12), (x1.toNat, 6), (x2.toNat, 0)]
  | .and h x0 x1 x2 => encS 0x01C00000 h [(x0.toNat, 12), (x1.toNat, 6), (x2.toNat, 0)]
  | .or h x0 x1 x2 => encS 0x02000000 h [(x0.toNat, 12), (x1.toNat, 6), (x2.toNat, 0)]
  | .xor h x0 x1 x2 => encS 0x02400000 h [(x0.toNat, 12), (x1.toNat, 6), (x2.toNat, 0)]
  | .andi h x0 x1 x2 => encS 0x02800000 h [(x0.toNat, 12), (x1.toNat, 6), (x2.toNat, 0)]
  | .ori h x0 x1 x2 => encS 0x02C00000 h [(x0.toNat, 12), (x1.toNat, 6), (x2.toNat, 0)]
  | .xori h x0 x1 x2 => encS 0x03000000 h [(x0.toNat, 12), (x1.toNat, 6), (x2.toNat, 0)]
  | .shl h x0 x1 x2 => encS 0x03400000 h [(x0.toNat, 12), (x1.toNat, 6), (x2.toNat, 0)]
  | .shr h x0 x1 x2 => encS 0x03800000 h [(x0.toNat, 12), (x1.toNat, 6), (x2.toNat, 0)]
  | .sar h x0 x1 x2 => encS 0x03C00000 h [(x0.toNat, 12), (x1.toNat, 6), (x2.toNat, 0)]
  | .shli h x0 x1 x2 => encS 0x04000000 h [(x0.toNat, 12), (x1.toNat, 6), (x2.toNat, 0)]
  | .shri h x0 x1 x2 => encS 0x04400000 h [(x0.toNat, 12), (x1.toNat, 6), (x2.toNat, 0)]
  | .sari h x0 x1 x2 => encS 0x04800000 h [(x0.toNat, 12), (x1.toNat, 6), (x2.toNat, 0)]
  | .min h x0 x1 x2 => encS 0x04C00000 h [(x0.toNat, 12), (x1.toNat, 6), (x2.toNat, 0)]
  | .max h x0 x1 x2 => encS 0x05000000 h [(x0.toNat, 12), (x1.toNat, 6), (x2.toNat, 0)]
  | .minu h x0 x1 x2 => encS 0x05400000 h [(x0.toNat, 12), (x1.toNat, 6), (x2.toNat, 0)]
  | .maxu h x0 x1 x2 => encS 0x05800000 h [(x0.toNat, 12), (x1.toNat, 6), (x2.toNat, 0)]
  | .li h x0 x1 => encS 0x05C00000 h [(x0.toNat, 12), (x1.toNat, 0)]
  | .sel h x0 x1 x2 => encS 0x06000000 h [(x0.toNat, 12), (x1.toNat, 6), (x2.toNat, 0)]
  | .cmpeq h x0 x1 x2 => encS 0x06400000 h [(x0.toNat, 14), (x1.toNat, 6), (x2.toNat, 0)]
  | .cmpne h x0 x1 x2 => encS 0x06800000 h [(x0.toNat, 14), (x1.toNat, 6), (x2.toNat, 0)]
  | .cmplt h x0 x1 x2 => encS 0x06C00000 h [(x0.toNat, 14), (x1.toNat, 6), (x2.toNat, 0)]
  | .cmple h x0 x1 x2 => encS 0x07000000 h [(x0.toNat, 14), (x1.toNat, 6), (x2.toNat, 0)]
  | .cmpltu h x0 x1 x2 => encS 0x07400000 h [(x0.toNat, 14), (x1.toNat, 6), (x2.toNat, 0)]
  | .cmpleu h x0 x1 x2 => encS 0x07800000 h [(x0.toNat, 14), (x1.toNat, 6), (x2.toNat, 0)]
  | .cmpeqi h x0 x1 x2 => encS 0x07C00000 h [(x0.toNat, 14), (x1.toNat, 6), (x2.toNat, 0)]
  | .cmplti h x0 x1 x2 => encS 0x08000000 h [(x0.toNat, 14), (x1.toNat, 6), (x2.toNat, 0)]
  | .pand h x0 x1 x2 => encS 0x08400000 h [(x0.toNat, 14), (x1.toNat, 10), (x2.toNat, 6)]
  | .por h x0 x1 x2 => encS 0x08800000 h [(x0.toNat, 14), (x1.toNat, 10), (x2.toNat, 6)]
  | .pxor h x0 x1 x2 => encS 0x08C00000 h [(x0.toNat, 14), (x1.toNat, 10), (x2.toNat, 6)]
  | .pandn h x0 x1 x2 => encS 0x09000000 h [(x0.toNat, 14), (x1.toNat, 10), (x2.toNat, 6)]
  | .xmov h x0 x1 => encS 0x09400000 h [(x0.toNat, 12), (x1.toNat, 6)]
  | .qrd h x0 x1 => encS 0x09800000 h [(x0.toNat, 12), (x1.toNat, 0)]
  | .fadd h x0 x1 x2 x3 => encS 0x09C00000 h [(x0.toNat, 16), (x1.toNat, 11), (x2.toNat, 6), (x3.toNat, 1)]
  | .fsub h x0 x1 x2 x3 => encS 0x0A000000 h [(x0.toNat, 16), (x1.toNat, 11), (x2.toNat, 6), (x3.toNat, 1)]
  | .fmul h x0 x1 x2 x3 => encS 0x0A400000 h [(x0.toNat, 16), (x1.toNat, 11), (x2.toNat, 6), (x3.toNat, 1)]
  | .ffma h x0 x1 x2 x3 => encS 0x0A800000 h [(x0.toNat, 16), (x1.toNat, 11), (x2.toNat, 6), (x3.toNat, 1)]
  | .fmin h x0 x1 x2 => encS 0x0AC00000 h [(x0.toNat, 11), (x1.toNat, 6), (x2.toNat, 1)]
  | .fmax h x0 x1 x2 => encS 0x0B000000 h [(x0.toNat, 11), (x1.toNat, 6), (x2.toNat, 1)]
  | .dadd h x0 x1 x2 x3 => encS 0x0B400000 h [(x0.toNat, 16), (x1.toNat, 11), (x2.toNat, 6), (x3.toNat, 1)]
  | .dsub h x0 x1 x2 x3 => encS 0x0B800000 h [(x0.toNat, 16), (x1.toNat, 11), (x2.toNat, 6), (x3.toNat, 1)]
  | .dmul h x0 x1 x2 x3 => encS 0x0BC00000 h [(x0.toNat, 16), (x1.toNat, 11), (x2.toNat, 6), (x3.toNat, 1)]
  | .dfma h x0 x1 x2 x3 => encS 0x0C000000 h [(x0.toNat, 16), (x1.toNat, 11), (x2.toNat, 6), (x3.toNat, 1)]
  | .dmin h x0 x1 x2 => encS 0x0C400000 h [(x0.toNat, 11), (x1.toNat, 6), (x2.toNat, 1)]
  | .dmax h x0 x1 x2 => encS 0x0C800000 h [(x0.toNat, 11), (x1.toNat, 6), (x2.toNat, 1)]
  | .fcmpeq h x0 x1 x2 => encS 0x0CC00000 h [(x0.toNat, 14), (x1.toNat, 6), (x2.toNat, 0)]
  | .fcmplt h x0 x1 x2 => encS 0x0D000000 h [(x0.toNat, 14), (x1.toNat, 6), (x2.toNat, 0)]
  | .fcmple h x0 x1 x2 => encS 0x0D400000 h [(x0.toNat, 14), (x1.toNat, 6), (x2.toNat, 0)]
  | .dcmpeq h x0 x1 x2 => encS 0x0D800000 h [(x0.toNat, 14), (x1.toNat, 6), (x2.toNat, 0)]
  | .dcmplt h x0 x1 x2 => encS 0x0DC00000 h [(x0.toNat, 14), (x1.toNat, 6), (x2.toNat, 0)]
  | .dcmple h x0 x1 x2 => encS 0x0E000000 h [(x0.toNat, 14), (x1.toNat, 6), (x2.toNat, 0)]
  | .cvt h x0 x1 x2 x3 => encS 0x0E400000 h [(x0.toNat, 16), (x1.toNat, 11), (x2.toNat, 6), (x3.toNat, 1)]
  | .b h x0 => encG 0x0E800000 h [(x0.toNat, 0)]
  | .call h x0 x1 => encG 0x0EC00000 h [(x0.toNat, 12), (x1.toNat, 0)]
  | .jr h x0 => encG 0x0F000000 h [(x0.toNat, 6)]
  | .loop h x0 x1 => encG 0x0F400000 h [(x0.toNat, 12), (x1.toNat, 10)]
  | .endTask h => encG 0x0F800000 h []
  | .fdiv h x0 x1 x2 x3 => encG 0x1E800000 h [(x0.toNat, 16), (x1.toNat, 11), (x2.toNat, 6), (x3.toNat, 1)]
  | .fsqrt h x0 x1 x2 => encG 0x1EC00000 h [(x0.toNat, 16), (x1.toNat, 11), (x2.toNat, 6)]
  | .ddiv h x0 x1 x2 x3 => encG 0x1F000000 h [(x0.toNat, 16), (x1.toNat, 11), (x2.toNat, 6), (x3.toNat, 1)]
  | .dsqrt h x0 x1 x2 => encG 0x1F400000 h [(x0.toNat, 16), (x1.toNat, 11), (x2.toNat, 6)]
  | .vmov h x0 x1 => encC 0x20000000 h [(x0.toNat, 14), (x1.toNat, 7)]
  | .vfadd h x0 x1 x2 x3 => encC 0x20400000 h [(x0.toNat, 21), (x1.toNat, 14), (x2.toNat, 7), (x3.toNat, 0)]
  | .vfsub h x0 x1 x2 x3 => encC 0x20800000 h [(x0.toNat, 21), (x1.toNat, 14), (x2.toNat, 7), (x3.toNat, 0)]
  | .vfmul h x0 x1 x2 x3 => encC 0x20C00000 h [(x0.toNat, 21), (x1.toNat, 14), (x2.toNat, 7), (x3.toNat, 0)]
  | .vfma h x0 x1 x2 x3 => encC 0x21000000 h [(x0.toNat, 21), (x1.toNat, 14), (x2.toNat, 7), (x3.toNat, 0)]
  | .vfmin h x0 x1 x2 x3 => encC 0x21400000 h [(x0.toNat, 21), (x1.toNat, 14), (x2.toNat, 7), (x3.toNat, 0)]
  | .vfmax h x0 x1 x2 x3 => encC 0x21800000 h [(x0.toNat, 21), (x1.toNat, 14), (x2.toNat, 7), (x3.toNat, 0)]
  | .vadd h x0 x1 x2 x3 => encC 0x21C00000 h [(x0.toNat, 21), (x1.toNat, 14), (x2.toNat, 7), (x3.toNat, 0)]
  | .vsub h x0 x1 x2 x3 => encC 0x22000000 h [(x0.toNat, 21), (x1.toNat, 14), (x2.toNat, 7), (x3.toNat, 0)]
  | .vmul h x0 x1 x2 x3 => encC 0x22400000 h [(x0.toNat, 21), (x1.toNat, 14), (x2.toNat, 7), (x3.toNat, 0)]
  | .vmin h x0 x1 x2 x3 => encC 0x22800000 h [(x0.toNat, 21), (x1.toNat, 14), (x2.toNat, 7), (x3.toNat, 0)]
  | .vmax h x0 x1 x2 x3 => encC 0x22C00000 h [(x0.toNat, 21), (x1.toNat, 14), (x2.toNat, 7), (x3.toNat, 0)]
  | .vminu h x0 x1 x2 x3 => encC 0x23000000 h [(x0.toNat, 21), (x1.toNat, 14), (x2.toNat, 7), (x3.toNat, 0)]
  | .vmaxu h x0 x1 x2 x3 => encC 0x23400000 h [(x0.toNat, 21), (x1.toNat, 14), (x2.toNat, 7), (x3.toNat, 0)]
  | .vand h x0 x1 x2 => encC 0x23800000 h [(x0.toNat, 14), (x1.toNat, 7), (x2.toNat, 0)]
  | .vor h x0 x1 x2 => encC 0x23C00000 h [(x0.toNat, 14), (x1.toNat, 7), (x2.toNat, 0)]
  | .vxor h x0 x1 x2 => encC 0x24000000 h [(x0.toNat, 14), (x1.toNat, 7), (x2.toNat, 0)]
  | .vshl h x0 x1 x2 x3 => encC 0x24400000 h [(x0.toNat, 21), (x1.toNat, 14), (x2.toNat, 7), (x3.toNat, 0)]
  | .vshr h x0 x1 x2 x3 => encC 0x24800000 h [(x0.toNat, 21), (x1.toNat, 14), (x2.toNat, 7), (x3.toNat, 0)]
  | .vsar h x0 x1 x2 x3 => encC 0x24C00000 h [(x0.toNat, 21), (x1.toNat, 14), (x2.toNat, 7), (x3.toNat, 0)]
  | .vfcmpeq h x0 x1 x2 x3 => encC 0x25000000 h [(x0.toNat, 21), (x1.toNat, 14), (x2.toNat, 7), (x3.toNat, 0)]
  | .vfcmplt h x0 x1 x2 x3 => encC 0x25400000 h [(x0.toNat, 21), (x1.toNat, 14), (x2.toNat, 7), (x3.toNat, 0)]
  | .vcmpeq h x0 x1 x2 x3 => encC 0x25800000 h [(x0.toNat, 21), (x1.toNat, 14), (x2.toNat, 7), (x3.toNat, 0)]
  | .vcmplt h x0 x1 x2 x3 => encC 0x25C00000 h [(x0.toNat, 21), (x1.toNat, 14), (x2.toNat, 7), (x3.toNat, 0)]
  | .vsel h x0 x1 x2 x3 => encC 0x26000000 h [(x0.toNat, 21), (x1.toNat, 14), (x2.toNat, 7), (x3.toNat, 0)]
  | .vexp2 h x0 x1 x2 => encC 0x26400000 h [(x0.toNat, 21), (x1.toNat, 14), (x2.toNat, 7)]
  | .vrcp h x0 x1 x2 => encC 0x26800000 h [(x0.toNat, 21), (x1.toNat, 14), (x2.toNat, 7)]
  | .vrsq h x0 x1 x2 => encC 0x26C00000 h [(x0.toNat, 21), (x1.toNat, 14), (x2.toNat, 7)]
  | .vfrsum h x0 x1 x2 => encC 0x27000000 h [(x0.toNat, 21), (x1.toNat, 14), (x2.toNat, 7)]
  | .vfrmax h x0 x1 x2 => encC 0x27400000 h [(x0.toNat, 21), (x1.toNat, 14), (x2.toNat, 7)]
  | .vbcast h x0 x1 x2 => encC 0x27800000 h [(x0.toNat, 21), (x1.toNat, 14), (x2.toNat, 7)]
  | .vperm h x0 x1 x2 x3 => encC 0x27C00000 h [(x0.toNat, 21), (x1.toNat, 14), (x2.toNat, 7), (x3.toNat, 0)]
  | .vcvt h x0 x1 x2 => encC 0x28000000 h [(x0.toNat, 14), (x1.toNat, 7), (x2.toNat, 0)]
  | .vbmax h x0 x1 x2 => encC 0x28400000 h [(x0.toNat, 21), (x1.toNat, 14), (x2.toNat, 7)]
  | .vqcvt h x0 x1 x2 => encC 0x28800000 h [(x0.toNat, 21), (x1.toNat, 14), (x2.toNat, 7)]
  | .vdeq h x0 x1 x2 x3 => encC 0x28C00000 h [(x0.toNat, 21), (x1.toNat, 14), (x2.toNat, 7), (x3.toNat, 0)]
  | .vsetfmt h x0 => encC 0x29000000 h [(x0.toNat, 7)]
  | .vqmov h x0 x1 => encC 0x29400000 h [(x0.toNat, 14), (x1.toNat, 7)]
  | .vqmovSend h x0 x1 => encC 0x29600000 h [(x0.toNat, 14), (x1.toNat, 7)]
  | .cubeMm h x0 x1 x2 => encG 0x40000000 h [(x0.toNat, 12), (x1.toNat, 6), (x2.toNat, 0)]
  | .cubeMma h x0 x1 x2 => encG 0x40400000 h [(x0.toNat, 12), (x1.toNat, 6), (x2.toNat, 0)]
  | .cubeMmw h x0 x1 x2 => encG 0x40800000 h [(x0.toNat, 12), (x1.toNat, 6), (x2.toNat, 0)]
  | .cubeMmwa h x0 x1 x2 => encG 0x40C00000 h [(x0.toNat, 12), (x1.toNat, 6), (x2.toNat, 0)]
  | .cubePl h x0 x1 x2 => encG 0x41000000 h [(x0.toNat, 12), (x1.toNat, 6), (x2.toNat, 0)]
  | .cubePla h x0 x1 x2 => encG 0x41400000 h [(x0.toNat, 12), (x1.toNat, 6), (x2.toNat, 0)]
  | .cubeWl h x0 x1 x2 => encG 0x41800000 h [(x0.toNat, 12), (x1.toNat, 6), (x2.toNat, 0)]
  | .cubeFmt h x0 x1 => encG 0x41C00000 h [(x0.toNat, 12), (x1.toNat, 6)]
  | .cubeZero h x0 x1 => encG 0x42000000 h [(x0.toNat, 12), (x1.toNat, 6)]
  | .cubeDrain h x0 x1 x2 => encG 0x42400000 h [(x0.toNat, 12), (x1.toNat, 6), (x2.toNat, 0)]
  | .cubeScore h x0 x1 x2 => encG 0x42800000 h [(x0.toNat, 12), (x1.toNat, 6), (x2.toNat, 0)]
  | .cubeResc h x0 x1 => encG 0x42C00000 h [(x0.toNat, 12), (x1.toNat, 6)]
  | .cubeSide h x0 x1 x2 => encG 0x43000000 h [(x0.toNat, 12), (x1.toNat, 6), (x2.toNat, 0)]
  | .lda h x0 x1 x2 x3 => encG 0x30000000 h [(x0.toNat, 12), (x1.toNat, 6), (x2.toNat, 4), (x3.toNat, 3)]
  | .sta h x0 x1 x2 => encG 0x30400000 h [(x0.toNat, 12), (x1.toNat, 6), (x2.toNat, 4)]
  | .mlda h x0 x1 => encG 0x30800000 h [(x0.toNat, 11), (x1.toNat, 5)]
  | .msta h x0 x1 => encG 0x30C00000 h [(x0.toNat, 11), (x1.toNat, 5)]
  | .ldw h x0 x1 x2 x3 => encG 0x31000000 h [(x0.toNat, 12), (x1.toNat, 6), (x2.toNat, 4), (x3.toNat, 3)]
  | .stw h x0 x1 x2 => encG 0x31400000 h [(x0.toNat, 12), (x1.toNat, 6), (x2.toNat, 4)]
  | .mldw h x0 x1 => encG 0x31800000 h [(x0.toNat, 11), (x1.toNat, 5)]
  | .mstw h x0 x1 => encG 0x31C00000 h [(x0.toNat, 11), (x1.toNat, 5)]
  | .ldc h x0 x1 x2 x3 => encG 0x32000000 h [(x0.toNat, 12), (x1.toNat, 6), (x2.toNat, 4), (x3.toNat, 3)]
  | .stc h x0 x1 x2 => encG 0x32400000 h [(x0.toNat, 12), (x1.toNat, 6), (x2.toNat, 4)]
  | .mldc h x0 x1 => encG 0x32800000 h [(x0.toNat, 11), (x1.toNat, 5)]
  | .mstc h x0 x1 => encG 0x32C00000 h [(x0.toNat, 11), (x1.toNat, 5)]
  | .ldx h x0 x1 x2 x3 => encG 0x33000000 h [(x0.toNat, 12), (x1.toNat, 6), (x2.toNat, 4), (x3.toNat, 3)]
  | .stx h x0 x1 x2 => encG 0x33400000 h [(x0.toNat, 12), (x1.toNat, 6), (x2.toNat, 4)]
  | .mldx h x0 x1 => encG 0x33800000 h [(x0.toNat, 11), (x1.toNat, 5)]
  | .mstx h x0 x1 => encG 0x33C00000 h [(x0.toNat, 11), (x1.toNat, 5)]
  | .aaddW h x0 x1 x2 x3 x4 => encG 0x34000000 h [(x0.toNat, 17), (x1.toNat, 15), (x2.toNat, 10), (x3.toNat, 5), (x4.toNat, 0)]
  | .aaddD h x0 x1 x2 x3 x4 => encG 0x34400000 h [(x0.toNat, 17), (x1.toNat, 15), (x2.toNat, 10), (x3.toNat, 5), (x4.toNat, 0)]
  | .asmaxW h x0 x1 x2 x3 x4 => encG 0x34800000 h [(x0.toNat, 17), (x1.toNat, 15), (x2.toNat, 10), (x3.toNat, 5), (x4.toNat, 0)]
  | .asmaxD h x0 x1 x2 x3 x4 => encG 0x34C00000 h [(x0.toNat, 17), (x1.toNat, 15), (x2.toNat, 10), (x3.toNat, 5), (x4.toNat, 0)]
  | .asminW h x0 x1 x2 x3 x4 => encG 0x35000000 h [(x0.toNat, 17), (x1.toNat, 15), (x2.toNat, 10), (x3.toNat, 5), (x4.toNat, 0)]
  | .asminD h x0 x1 x2 x3 x4 => encG 0x35400000 h [(x0.toNat, 17), (x1.toNat, 15), (x2.toNat, 10), (x3.toNat, 5), (x4.toNat, 0)]
  | .aumaxW h x0 x1 x2 x3 x4 => encG 0x35800000 h [(x0.toNat, 17), (x1.toNat, 15), (x2.toNat, 10), (x3.toNat, 5), (x4.toNat, 0)]
  | .aumaxD h x0 x1 x2 x3 x4 => encG 0x35C00000 h [(x0.toNat, 17), (x1.toNat, 15), (x2.toNat, 10), (x3.toNat, 5), (x4.toNat, 0)]
  | .auminW h x0 x1 x2 x3 x4 => encG 0x36000000 h [(x0.toNat, 17), (x1.toNat, 15), (x2.toNat, 10), (x3.toNat, 5), (x4.toNat, 0)]
  | .auminD h x0 x1 x2 x3 x4 => encG 0x36400000 h [(x0.toNat, 17), (x1.toNat, 15), (x2.toNat, 10), (x3.toNat, 5), (x4.toNat, 0)]
  | .axchgW h x0 x1 x2 x3 x4 => encG 0x36800000 h [(x0.toNat, 17), (x1.toNat, 15), (x2.toNat, 10), (x3.toNat, 5), (x4.toNat, 0)]
  | .axchgD h x0 x1 x2 x3 x4 => encG 0x36C00000 h [(x0.toNat, 17), (x1.toNat, 15), (x2.toNat, 10), (x3.toNat, 5), (x4.toNat, 0)]
  | .acasW h x0 x1 x2 x3 x4 => encG 0x37000000 h [(x0.toNat, 17), (x1.toNat, 15), (x2.toNat, 10), (x3.toNat, 5), (x4.toNat, 0)]
  | .acasD h x0 x1 x2 x3 x4 => encG 0x37400000 h [(x0.toNat, 17), (x1.toNat, 15), (x2.toNat, 10), (x3.toNat, 5), (x4.toNat, 0)]
  | .afadd h x0 x1 x2 x3 x4 => encG 0x37800000 h [(x0.toNat, 17), (x1.toNat, 15), (x2.toNat, 10), (x3.toNat, 5), (x4.toNat, 0)]
  | .afmax h x0 x1 x2 x3 x4 => encG 0x37C00000 h [(x0.toNat, 17), (x1.toNat, 15), (x2.toNat, 10), (x3.toNat, 5), (x4.toNat, 0)]
  | .afmin h x0 x1 x2 x3 x4 => encG 0x38000000 h [(x0.toNat, 17), (x1.toNat, 15), (x2.toNat, 10), (x3.toNat, 5), (x4.toNat, 0)]
  | .redaddW h x0 x1 x2 x3 => encG 0x38400000 h [(x0.toNat, 17), (x1.toNat, 15), (x2.toNat, 5), (x3.toNat, 0)]
  | .redaddD h x0 x1 x2 x3 => encG 0x38800000 h [(x0.toNat, 17), (x1.toNat, 15), (x2.toNat, 5), (x3.toNat, 0)]
  | .redsmaxW h x0 x1 x2 x3 => encG 0x38C00000 h [(x0.toNat, 17), (x1.toNat, 15), (x2.toNat, 5), (x3.toNat, 0)]
  | .redsmaxD h x0 x1 x2 x3 => encG 0x39000000 h [(x0.toNat, 17), (x1.toNat, 15), (x2.toNat, 5), (x3.toNat, 0)]
  | .redsminW h x0 x1 x2 x3 => encG 0x39400000 h [(x0.toNat, 17), (x1.toNat, 15), (x2.toNat, 5), (x3.toNat, 0)]
  | .redsminD h x0 x1 x2 x3 => encG 0x39800000 h [(x0.toNat, 17), (x1.toNat, 15), (x2.toNat, 5), (x3.toNat, 0)]
  | .redumaxW h x0 x1 x2 x3 => encG 0x39C00000 h [(x0.toNat, 17), (x1.toNat, 15), (x2.toNat, 5), (x3.toNat, 0)]
  | .redumaxD h x0 x1 x2 x3 => encG 0x3A000000 h [(x0.toNat, 17), (x1.toNat, 15), (x2.toNat, 5), (x3.toNat, 0)]
  | .reduminW h x0 x1 x2 x3 => encG 0x3A400000 h [(x0.toNat, 17), (x1.toNat, 15), (x2.toNat, 5), (x3.toNat, 0)]
  | .reduminD h x0 x1 x2 x3 => encG 0x3A800000 h [(x0.toNat, 17), (x1.toNat, 15), (x2.toNat, 5), (x3.toNat, 0)]
  | .redxchgW h x0 x1 x2 x3 => encG 0x3AC00000 h [(x0.toNat, 17), (x1.toNat, 15), (x2.toNat, 5), (x3.toNat, 0)]
  | .redxchgD h x0 x1 x2 x3 => encG 0x3B000000 h [(x0.toNat, 17), (x1.toNat, 15), (x2.toNat, 5), (x3.toNat, 0)]
  | .redcasW h x0 x1 x2 x3 x4 => encG 0x3B400000 h [(x0.toNat, 17), (x1.toNat, 15), (x2.toNat, 10), (x3.toNat, 5), (x4.toNat, 0)]
  | .redcasD h x0 x1 x2 x3 x4 => encG 0x3B800000 h [(x0.toNat, 17), (x1.toNat, 15), (x2.toNat, 10), (x3.toNat, 5), (x4.toNat, 0)]
  | .redfadd h x0 x1 x2 x3 => encG 0x3BC00000 h [(x0.toNat, 17), (x1.toNat, 15), (x2.toNat, 5), (x3.toNat, 0)]
  | .redfmax h x0 x1 x2 x3 => encG 0x3C000000 h [(x0.toNat, 17), (x1.toNat, 15), (x2.toNat, 5), (x3.toNat, 0)]
  | .redfmin h x0 x1 x2 x3 => encG 0x3C400000 h [(x0.toNat, 17), (x1.toNat, 15), (x2.toNat, 5), (x3.toNat, 0)]
  | .act h x0 x1 => encG 0x50000000 h [(x0.toNat, 12), (x1.toNat, 6)]
  | .pre h x0 x1 => encG 0x50400000 h [(x0.toNat, 12), (x1.toNat, 6)]
  | .prea h x0 x1 => encG 0x50800000 h [(x0.toNat, 12), (x1.toNat, 6)]
  | .rd h x0 x1 x2 => encG 0x50C00000 h [(x0.toNat, 12), (x1.toNat, 6), (x2.toNat, 0)]
  | .wr h x0 x1 x2 => encG 0x51000000 h [(x0.toNat, 12), (x1.toNat, 6), (x2.toNat, 0)]
  | .rdt h x0 x1 x2 => encG 0x51400000 h [(x0.toNat, 12), (x1.toNat, 6), (x2.toNat, 0)]
  | .wrt h x0 x1 x2 => encG 0x51800000 h [(x0.toNat, 12), (x1.toNat, 6), (x2.toNat, 0)]
  | .refpb h x0 x1 => encG 0x51C00000 h [(x0.toNat, 12), (x1.toNat, 6)]
  | .refab h x0 x1 => encG 0x52000000 h [(x0.toNat, 12), (x1.toNat, 6)]
  | .mzero h x0 x1 => encG 0x52400000 h [(x0.toNat, 12), (x1.toNat, 6)]
  | .mcopy h x0 x1 x2 => encG 0x52800000 h [(x0.toNat, 12), (x1.toNat, 6), (x2.toNat, 0)]
  | .mcmp h x0 x1 x2 => encG 0x52C00000 h [(x0.toNat, 12), (x1.toNat, 6), (x2.toNat, 0)]
  | .lfence h x0 x1 => encG 0x53000000 h [(x0.toNat, 12), (x1.toNat, 6)]
  | .mark h x0 x1 x2 => encG 0x53400000 h [(x0.toNat, 12), (x1.toNat, 6), (x2.toNat, 0)]
  | .copy h x0 x1 x2 => encG 0x53800000 h [(x0.toNat, 12), (x1.toNat, 6), (x2.toNat, 0)]
  | .mcast h x0 x1 x2 => encG 0x53C00000 h [(x0.toNat, 12), (x1.toNat, 6), (x2.toNat, 0)]
  | .fill h x0 x1 x2 => encG 0x54000000 h [(x0.toNat, 12), (x1.toNat, 6), (x2.toNat, 0)]
  | .heel h x0 x1 => encG 0x54400000 h [(x0.toNat, 12), (x1.toNat, 3)]
  | .rebase h x0 => encG 0x54800000 h [(x0.toNat, 0)]
  | .rdtick h x0 => encG 0x54C00000 h [(x0.toNat, 12)]
  | .flagset h x0 x1 => encG 0x55000000 h [(x0.toNat, 6), (x1.toNat, 0)]
  | .flagwait h x0 x1 x2 => encG 0x55400000 h [(x0.toNat, 12), (x1.toNat, 6), (x2.toNat, 0)]
  | .bararr h x0 x1 => encG 0x55800000 h [(x0.toNat, 12), (x1.toNat, 6)]
  | .barwait h x0 x1 x2 => encG 0x55C00000 h [(x0.toNat, 12), (x1.toNat, 6), (x2.toNat, 0)]
  | .fence h x0 => encG 0x56000000 h [(x0.toNat, 15)]
  | .put h x0 x1 x2 => encG 0x56400000 h [(x0.toNat, 12), (x1.toNat, 6), (x2.toNat, 0)]
  | .get h x0 x1 x2 => encG 0x56800000 h [(x0.toNat, 12), (x1.toNat, 6), (x2.toNat, 0)]
  | .ratom h x0 x1 x2 => encG 0x56C00000 h [(x0.toNat, 12), (x1.toNat, 6), (x2.toNat, 0)]
  | .waitc h x0 x1 x2 => encG 0x57000000 h [(x0.toNat, 12), (x1.toNat, 6), (x2.toNat, 0)]
  | .launch h x0 x1 x2 => encG 0x57400000 h [(x0.toNat, 12), (x1.toNat, 6), (x2.toNat, 0)]
  | .ginst h x0 x1 x2 => encG 0x57800000 h [(x0.toNat, 12), (x1.toNat, 6), (x2.toNat, 0)]
  | .gwait h x0 x1 x2 => encG 0x57C00000 h [(x0.toNat, 12), (x1.toNat, 6), (x2.toNat, 0)]
  | .cancel h x0 x1 => encG 0x58000000 h [(x0.toNat, 6), (x1.toNat, 0)]
  | .crd h x0 x1 x2 => encG 0x58400000 h [(x0.toNat, 12), (x1.toNat, 6), (x2.toNat, 0)]
  | .seal h x0 x1 => encG 0x58800000 h [(x0.toNat, 6), (x1.toNat, 0)]
  | .unseal h x0 x1 => encG 0x58C00000 h [(x0.toNat, 6), (x1.toNat, 0)]
  | .krd h x0 x1 x2 => encG 0x59000000 h [(x0.toNat, 12), (x1.toNat, 6), (x2.toNat, 0)]
  | .kwr h x0 x1 x2 => encG 0x59400000 h [(x0.toNat, 12), (x1.toNat, 6), (x2.toNat, 0)]
  | .tlbw h x0 x1 x2 => encG 0x59800000 h [(x0.toNat, 12), (x1.toNat, 6), (x2.toNat, 0)]
  | .tlbp h x0 x1 x2 => encG 0x59C00000 h [(x0.toNat, 12), (x1.toNat, 6), (x2.toNat, 0)]
  | .tlbinv h x0 x1 x2 => encG 0x5A000000 h [(x0.toNat, 12), (x1.toNat, 6), (x2.toNat, 0)]
  | .trap h x0 => encG 0x5A400000 h [(x0.toNat, 0)]
  | .linsp h x0 x1 x2 x3 => encG 0x5A800000 h [(x0.toNat, 14), (x1.toNat, 12), (x2.toNat, 6), (x3.toNat, 0)]
  | .lpatch h x0 x1 x2 x3 => encG 0x5AC00000 h [(x0.toNat, 14), (x1.toNat, 12), (x2.toNat, 6), (x3.toNat, 0)]
  | .lrq h x0 x1 x2 x3 => encG 0x5B000000 h [(x0.toNat, 14), (x1.toNat, 12), (x2.toNat, 6), (x3.toNat, 0)]
  | .lreinj h x0 x1 x2 x3 => encG 0x5B400000 h [(x0.toNat, 14), (x1.toNat, 12), (x2.toNat, 6), (x3.toNat, 0)]
  | .resume h x0 x1 => encG 0x5B800000 h [(x0.toNat, 14), (x1.toNat, 12)]
  | .kill h x0 x1 => encG 0x5BC00000 h [(x0.toNat, 14), (x1.toNat, 12)]
  | .hret h => encG 0x5C000000 h []
  | .ldeleg h x0 x1 x2 x3 => encG 0x5C400000 h [(x0.toNat, 14), (x1.toNat, 12), (x2.toNat, 6), (x3.toNat, 0)]
  | .bcw h x0 x1 x2 x3 => encC 0x70000000 h [(x0.toNat, 18), (x1.toNat, 14), (x2.toNat, 13), (x3.toNat, 9)]
  | .ext h x0 x1 => encC 0x74000000 h [(x0.toNat, 25), (x1.toNat, 0)]
  | .ring h x0 x1 x2 x3 => encC 0x78000000 h [(x0.toNat, 25), (x1.toNat, 22), (x2.toNat, 16), (x3.toNat, 10)]
  | .resultCommit _ _ _ => 0
  | .engfmtApply _ => 0
  | .localStoreCommit _ _ _ => 0
  | .xAccessPerform _ _ => 0
  | .xLoadReturn _ _ _ => 0
  | .linkEntryArrive _ _ => 0
  | .copyCommandStart _ _ => 0
  | .copyBeatRead _ _ => 0
  | .copyBeatCommit _ _ => 0
  | .fillBeatCommit _ _ => 0
  | .heldWriteCommit _ _ => 0
  | .timelineCommandPerform _ _ => 0
  | .tsvResend _ _ _ _ => 0
  | .readDeliveryCommit _ _ => 0
  | .writeBurstVisible _ _ => 0
  | .inMemoryOpComplete _ _ => 0
  | .mcmpResultCommit _ _ => 0
  | .lfenceSatisfied _ _ => 0
  | .markComplete _ _ => 0
  | .translationMarkerRetire _ _ => 0
  | .lentSpanStart _ _ _ => 0
  | .lentSpanEnd _ _ _ => 0
  | .holeMaintenance _ _ _ => 0
  | .refreshWindowExpire _ _ _ _ => 0
  | .safetyRefresh _ _ _ => 0
  | .idlePcRefresh _ _ => 0
  | .rcntWindowClear _ => 0
  | .hbmTemperatureRead _ _ => 0
  | .droopStretch _ => 0
  | .referenceLost _ => 0
  | .hbmReferenceLost _ => 0
  | .referenceRelock _ => 0
  | .snapshotPublish => 0
  | .heelArrive _ => 0
  | .heelRelease _ => 0
  | .heelExit _ => 0
  | .fenceEnd _ _ => 0
  | .flagwaitSatisfied _ _ => 0
  | .barrierArrival _ => 0
  | .barwaitEnd _ => 0
  | .waitcSatisfied _ => 0
  | .gwaitEnd _ => 0
  | .walkerIntakeFree _ => 0
  | .gAtomicPerform _ => 0
  | .atomicReturn _ _ _ => 0
  | .fabricRequestIn _ => 0
  | .fabricCompletion _ _ _ _ _ => 0
  | .getPieceCommit _ _ _ _ => 0
  | .taskRetire _ => 0
  | .launchEnd _ _ => 0
  | .walkerHeldPush => 0
  | .readyAging => 0
  | .instanceWindowFill _ => 0
  | .sealComplete => 0
  | .phaseBind _ => 0
  | .shepherdTake _ _ => 0
  | .shepherdReturn _ _ _ _ => 0
  | .recordWrite _ _ _ => 0
  | .recordWithdraw _ _ _ => 0
  | .tlbPreload _ => 0
  | .packRelease _ => 0
  | .regionGateBegin _ => 0
  | .gatingComplete _ => 0
  | .wakeRequest _ => 0
  | .gateHoldOverride _ _ => 0
  | .rampStart _ => 0
  | .rampEnd _ => 0
  | .preempt _ _ => 0
  | .restore _ => 0
  | .placeBallast _ => 0
  | .shepherdCancel _ _ _ => 0
  | .shepherdTlbWrite _ _ _ _ _ => 0
  | .shepherdTlbInvalidate _ _ _ _ => 0
  | .energyInterval _ => 0
  | .freezeNoticeArrive _ => 0
  | .memberStop _ => 0
  | .kennelDispatch _ => 0
  | .handlerBudgetExpire _ _ => 0
  | .packResumeRelease _ _ => 0
  | .cubeCommandStart _ _ => 0
  | .cubeStreamStep _ _ => 0
  | .cubeResultCommit _ _ => 0
  | .drainPieceCommit _ _ => 0
  | .rescaleRowCommit _ _ => 0
  | .scorePLineCommit _ _ => 0
  | .scoreSideCommit _ _ => 0
  | .weightLatchReplace _ _ => 0
  | .layerFailure _ _ => 0
  | .governorEvaluation _ _ _ => 0
  | .stepApply => 0
  | .sensorSample _ => 0
  | .whistleSend => 0
  | .whistleReceive _ _ => 0
  | .whistleTimeout => 0
  | .emergencyEnd => 0
  | .thermalTrip _ => 0
  | .currentTrip _ => 0
  | .jstart _ => 0
  | .jcancel _ => 0
  | .hwbaseWrite _ => 0
  | .jcauseClear _ => 0
  | .clkstatClear _ _ => 0
  | .registerWrite _ _ => 0
  | .hostMemoryRead _ _ => 0
  | .hostMemoryWrite _ _ => 0
  | .heartbeat => 0
  | .readErrorLog _ _ => 0
  | .readClocks _ => 0
  | .setPcap _ _ => 0
  | .readEnergy _ => 0
  | .readAvailabilityMap _ _ => 0
  | .setPkgid _ _ => 0
  | .readKeys _ => 0
  | .attest _ _ => 0
  | .readTrace _ _ _ => 0
  | .installFirmware _ _ _ => 0
  | .readPhaseFailure _ => 0
  | .boot => 0
  | .shepherdKill _ => 0
  | .ballastStepDownEnd _ => 0

/-- Whether a constructor is an instruction word (a row of the table with an encoding). -/
def Instr.isWord : Instr → Bool
  | .nop _ => true
  | .add _ _ _ _ => true
  | .sub _ _ _ _ => true
  | .addi _ _ _ _ => true
  | .mul _ _ _ _ => true
  | .mulhs _ _ _ _ => true
  | .mulhu _ _ _ _ => true
  | .and _ _ _ _ => true
  | .or _ _ _ _ => true
  | .xor _ _ _ _ => true
  | .andi _ _ _ _ => true
  | .ori _ _ _ _ => true
  | .xori _ _ _ _ => true
  | .shl _ _ _ _ => true
  | .shr _ _ _ _ => true
  | .sar _ _ _ _ => true
  | .shli _ _ _ _ => true
  | .shri _ _ _ _ => true
  | .sari _ _ _ _ => true
  | .min _ _ _ _ => true
  | .max _ _ _ _ => true
  | .minu _ _ _ _ => true
  | .maxu _ _ _ _ => true
  | .li _ _ _ => true
  | .sel _ _ _ _ => true
  | .cmpeq _ _ _ _ => true
  | .cmpne _ _ _ _ => true
  | .cmplt _ _ _ _ => true
  | .cmple _ _ _ _ => true
  | .cmpltu _ _ _ _ => true
  | .cmpleu _ _ _ _ => true
  | .cmpeqi _ _ _ _ => true
  | .cmplti _ _ _ _ => true
  | .pand _ _ _ _ => true
  | .por _ _ _ _ => true
  | .pxor _ _ _ _ => true
  | .pandn _ _ _ _ => true
  | .xmov _ _ _ => true
  | .qrd _ _ _ => true
  | .fadd _ _ _ _ _ => true
  | .fsub _ _ _ _ _ => true
  | .fmul _ _ _ _ _ => true
  | .ffma _ _ _ _ _ => true
  | .fmin _ _ _ _ => true
  | .fmax _ _ _ _ => true
  | .dadd _ _ _ _ _ => true
  | .dsub _ _ _ _ _ => true
  | .dmul _ _ _ _ _ => true
  | .dfma _ _ _ _ _ => true
  | .dmin _ _ _ _ => true
  | .dmax _ _ _ _ => true
  | .fcmpeq _ _ _ _ => true
  | .fcmplt _ _ _ _ => true
  | .fcmple _ _ _ _ => true
  | .dcmpeq _ _ _ _ => true
  | .dcmplt _ _ _ _ => true
  | .dcmple _ _ _ _ => true
  | .cvt _ _ _ _ _ => true
  | .b _ _ => true
  | .call _ _ _ => true
  | .jr _ _ => true
  | .loop _ _ _ => true
  | .endTask _ => true
  | .fdiv _ _ _ _ _ => true
  | .fsqrt _ _ _ _ => true
  | .ddiv _ _ _ _ _ => true
  | .dsqrt _ _ _ _ => true
  | .vmov _ _ _ => true
  | .vfadd _ _ _ _ _ => true
  | .vfsub _ _ _ _ _ => true
  | .vfmul _ _ _ _ _ => true
  | .vfma _ _ _ _ _ => true
  | .vfmin _ _ _ _ _ => true
  | .vfmax _ _ _ _ _ => true
  | .vadd _ _ _ _ _ => true
  | .vsub _ _ _ _ _ => true
  | .vmul _ _ _ _ _ => true
  | .vmin _ _ _ _ _ => true
  | .vmax _ _ _ _ _ => true
  | .vminu _ _ _ _ _ => true
  | .vmaxu _ _ _ _ _ => true
  | .vand _ _ _ _ => true
  | .vor _ _ _ _ => true
  | .vxor _ _ _ _ => true
  | .vshl _ _ _ _ _ => true
  | .vshr _ _ _ _ _ => true
  | .vsar _ _ _ _ _ => true
  | .vfcmpeq _ _ _ _ _ => true
  | .vfcmplt _ _ _ _ _ => true
  | .vcmpeq _ _ _ _ _ => true
  | .vcmplt _ _ _ _ _ => true
  | .vsel _ _ _ _ _ => true
  | .vexp2 _ _ _ _ => true
  | .vrcp _ _ _ _ => true
  | .vrsq _ _ _ _ => true
  | .vfrsum _ _ _ _ => true
  | .vfrmax _ _ _ _ => true
  | .vbcast _ _ _ _ => true
  | .vperm _ _ _ _ _ => true
  | .vcvt _ _ _ _ => true
  | .vbmax _ _ _ _ => true
  | .vqcvt _ _ _ _ => true
  | .vdeq _ _ _ _ _ => true
  | .vsetfmt _ _ => true
  | .vqmov _ _ _ => true
  | .vqmovSend _ _ _ => true
  | .cubeMm _ _ _ _ => true
  | .cubeMma _ _ _ _ => true
  | .cubeMmw _ _ _ _ => true
  | .cubeMmwa _ _ _ _ => true
  | .cubePl _ _ _ _ => true
  | .cubePla _ _ _ _ => true
  | .cubeWl _ _ _ _ => true
  | .cubeFmt _ _ _ => true
  | .cubeZero _ _ _ => true
  | .cubeDrain _ _ _ _ => true
  | .cubeScore _ _ _ _ => true
  | .cubeResc _ _ _ => true
  | .cubeSide _ _ _ _ => true
  | .lda _ _ _ _ _ => true
  | .sta _ _ _ _ => true
  | .mlda _ _ _ => true
  | .msta _ _ _ => true
  | .ldw _ _ _ _ _ => true
  | .stw _ _ _ _ => true
  | .mldw _ _ _ => true
  | .mstw _ _ _ => true
  | .ldc _ _ _ _ _ => true
  | .stc _ _ _ _ => true
  | .mldc _ _ _ => true
  | .mstc _ _ _ => true
  | .ldx _ _ _ _ _ => true
  | .stx _ _ _ _ => true
  | .mldx _ _ _ => true
  | .mstx _ _ _ => true
  | .aaddW _ _ _ _ _ _ => true
  | .aaddD _ _ _ _ _ _ => true
  | .asmaxW _ _ _ _ _ _ => true
  | .asmaxD _ _ _ _ _ _ => true
  | .asminW _ _ _ _ _ _ => true
  | .asminD _ _ _ _ _ _ => true
  | .aumaxW _ _ _ _ _ _ => true
  | .aumaxD _ _ _ _ _ _ => true
  | .auminW _ _ _ _ _ _ => true
  | .auminD _ _ _ _ _ _ => true
  | .axchgW _ _ _ _ _ _ => true
  | .axchgD _ _ _ _ _ _ => true
  | .acasW _ _ _ _ _ _ => true
  | .acasD _ _ _ _ _ _ => true
  | .afadd _ _ _ _ _ _ => true
  | .afmax _ _ _ _ _ _ => true
  | .afmin _ _ _ _ _ _ => true
  | .redaddW _ _ _ _ _ => true
  | .redaddD _ _ _ _ _ => true
  | .redsmaxW _ _ _ _ _ => true
  | .redsmaxD _ _ _ _ _ => true
  | .redsminW _ _ _ _ _ => true
  | .redsminD _ _ _ _ _ => true
  | .redumaxW _ _ _ _ _ => true
  | .redumaxD _ _ _ _ _ => true
  | .reduminW _ _ _ _ _ => true
  | .reduminD _ _ _ _ _ => true
  | .redxchgW _ _ _ _ _ => true
  | .redxchgD _ _ _ _ _ => true
  | .redcasW _ _ _ _ _ _ => true
  | .redcasD _ _ _ _ _ _ => true
  | .redfadd _ _ _ _ _ => true
  | .redfmax _ _ _ _ _ => true
  | .redfmin _ _ _ _ _ => true
  | .act _ _ _ => true
  | .pre _ _ _ => true
  | .prea _ _ _ => true
  | .rd _ _ _ _ => true
  | .wr _ _ _ _ => true
  | .rdt _ _ _ _ => true
  | .wrt _ _ _ _ => true
  | .refpb _ _ _ => true
  | .refab _ _ _ => true
  | .mzero _ _ _ => true
  | .mcopy _ _ _ _ => true
  | .mcmp _ _ _ _ => true
  | .lfence _ _ _ => true
  | .mark _ _ _ _ => true
  | .copy _ _ _ _ => true
  | .mcast _ _ _ _ => true
  | .fill _ _ _ _ => true
  | .heel _ _ _ => true
  | .rebase _ _ => true
  | .rdtick _ _ => true
  | .flagset _ _ _ => true
  | .flagwait _ _ _ _ => true
  | .bararr _ _ _ => true
  | .barwait _ _ _ _ => true
  | .fence _ _ => true
  | .put _ _ _ _ => true
  | .get _ _ _ _ => true
  | .ratom _ _ _ _ => true
  | .waitc _ _ _ _ => true
  | .launch _ _ _ _ => true
  | .ginst _ _ _ _ => true
  | .gwait _ _ _ _ => true
  | .cancel _ _ _ => true
  | .crd _ _ _ _ => true
  | .seal _ _ _ => true
  | .unseal _ _ _ => true
  | .krd _ _ _ _ => true
  | .kwr _ _ _ _ => true
  | .tlbw _ _ _ _ => true
  | .tlbp _ _ _ _ => true
  | .tlbinv _ _ _ _ => true
  | .trap _ _ => true
  | .linsp _ _ _ _ _ => true
  | .lpatch _ _ _ _ _ => true
  | .lrq _ _ _ _ _ => true
  | .lreinj _ _ _ _ _ => true
  | .resume _ _ _ => true
  | .kill _ _ _ => true
  | .hret _ => true
  | .ldeleg _ _ _ _ _ => true
  | .bcw _ _ _ _ _ => true
  | .ext _ _ _ => true
  | .ring _ _ _ _ _ => true
  | .resultCommit _ _ _ => false
  | .engfmtApply _ => false
  | .localStoreCommit _ _ _ => false
  | .xAccessPerform _ _ => false
  | .xLoadReturn _ _ _ => false
  | .linkEntryArrive _ _ => false
  | .copyCommandStart _ _ => false
  | .copyBeatRead _ _ => false
  | .copyBeatCommit _ _ => false
  | .fillBeatCommit _ _ => false
  | .heldWriteCommit _ _ => false
  | .timelineCommandPerform _ _ => false
  | .tsvResend _ _ _ _ => false
  | .readDeliveryCommit _ _ => false
  | .writeBurstVisible _ _ => false
  | .inMemoryOpComplete _ _ => false
  | .mcmpResultCommit _ _ => false
  | .lfenceSatisfied _ _ => false
  | .markComplete _ _ => false
  | .translationMarkerRetire _ _ => false
  | .lentSpanStart _ _ _ => false
  | .lentSpanEnd _ _ _ => false
  | .holeMaintenance _ _ _ => false
  | .refreshWindowExpire _ _ _ _ => false
  | .safetyRefresh _ _ _ => false
  | .idlePcRefresh _ _ => false
  | .rcntWindowClear _ => false
  | .hbmTemperatureRead _ _ => false
  | .droopStretch _ => false
  | .referenceLost _ => false
  | .hbmReferenceLost _ => false
  | .referenceRelock _ => false
  | .snapshotPublish => false
  | .heelArrive _ => false
  | .heelRelease _ => false
  | .heelExit _ => false
  | .fenceEnd _ _ => false
  | .flagwaitSatisfied _ _ => false
  | .barrierArrival _ => false
  | .barwaitEnd _ => false
  | .waitcSatisfied _ => false
  | .gwaitEnd _ => false
  | .walkerIntakeFree _ => false
  | .gAtomicPerform _ => false
  | .atomicReturn _ _ _ => false
  | .fabricRequestIn _ => false
  | .fabricCompletion _ _ _ _ _ => false
  | .getPieceCommit _ _ _ _ => false
  | .taskRetire _ => false
  | .launchEnd _ _ => false
  | .walkerHeldPush => false
  | .readyAging => false
  | .instanceWindowFill _ => false
  | .sealComplete => false
  | .phaseBind _ => false
  | .shepherdTake _ _ => false
  | .shepherdReturn _ _ _ _ => false
  | .recordWrite _ _ _ => false
  | .recordWithdraw _ _ _ => false
  | .tlbPreload _ => false
  | .packRelease _ => false
  | .regionGateBegin _ => false
  | .gatingComplete _ => false
  | .wakeRequest _ => false
  | .gateHoldOverride _ _ => false
  | .rampStart _ => false
  | .rampEnd _ => false
  | .preempt _ _ => false
  | .restore _ => false
  | .placeBallast _ => false
  | .shepherdCancel _ _ _ => false
  | .shepherdTlbWrite _ _ _ _ _ => false
  | .shepherdTlbInvalidate _ _ _ _ => false
  | .energyInterval _ => false
  | .freezeNoticeArrive _ => false
  | .memberStop _ => false
  | .kennelDispatch _ => false
  | .handlerBudgetExpire _ _ => false
  | .packResumeRelease _ _ => false
  | .cubeCommandStart _ _ => false
  | .cubeStreamStep _ _ => false
  | .cubeResultCommit _ _ => false
  | .drainPieceCommit _ _ => false
  | .rescaleRowCommit _ _ => false
  | .scorePLineCommit _ _ => false
  | .scoreSideCommit _ _ => false
  | .weightLatchReplace _ _ => false
  | .layerFailure _ _ => false
  | .governorEvaluation _ _ _ => false
  | .stepApply => false
  | .sensorSample _ => false
  | .whistleSend => false
  | .whistleReceive _ _ => false
  | .whistleTimeout => false
  | .emergencyEnd => false
  | .thermalTrip _ => false
  | .currentTrip _ => false
  | .jstart _ => false
  | .jcancel _ => false
  | .hwbaseWrite _ => false
  | .jcauseClear _ => false
  | .clkstatClear _ _ => false
  | .registerWrite _ _ => false
  | .hostMemoryRead _ _ => false
  | .hostMemoryWrite _ _ => false
  | .heartbeat => false
  | .readErrorLog _ _ => false
  | .readClocks _ => false
  | .setPcap _ _ => false
  | .readEnergy _ => false
  | .readAvailabilityMap _ _ => false
  | .setPkgid _ _ => false
  | .readKeys _ => false
  | .attest _ _ => false
  | .readTrace _ _ _ => false
  | .installFirmware _ _ _ => false
  | .readPhaseFailure _ => false
  | .boot => false
  | .shepherdKill _ => false
  | .ballastStepDownEnd _ => false

/-- What an operand field of a word names (R286, R287, R289): a register of its pipe's cluster (6 bits), a register of the
other cluster (XMOV's source), a T field (0 names none), a register counted from the cluster's base (5 bits), a matrix operand
(7 bits), a register of cluster A in a V word (7 bits), a predicate destination (4 bits). -/
inductive OpClass where
  | reg
  | other
  | tfield
  | rel
  | mat
  | sreg
  | pdst
deriving DecidableEq, Repr

/-- The operand fields of a word, each by its lowest bit: S0 and S1 (R297). -/
def fieldsS (pipe op : Nat) : List (Nat × OpClass) :=
  if op = 0 ∨ op = 62 then []
  else if op = 3 ∨ (10 ≤ op ∧ op ≤ 12) ∨ (16 ≤ op ∧ op ≤ 18) then [(12, .reg), (6, .reg)]
  else if op = 23 ∨ op = 38 then [(12, .reg)]
  else if op ≤ 24 then [(12, .reg), (6, .reg), (0, .reg)]
  else if op ≤ 30 ∨ (51 ≤ op ∧ op ≤ 56) then [(14, .pdst), (6, .reg), (0, .reg)]
  else if op ≤ 32 then [(14, .pdst), (6, .reg)]
  else if op ≤ 36 then [(14, .pdst)]
  else if op = 37 then [(12, .reg), (6, .other)]
  else if op ≤ 50 then [(11, .rel), (6, .rel), (1, .rel)]
  else if op = 57 then [(11, .rel), (6, .rel)]
  else if pipe = 1 then
    if op = 58 ∨ op = 60 then [(11, .rel), (6, .rel), (1, .rel)] else [(11, .rel), (6, .rel)]
  else if op = 59 ∨ op = 61 then [(12, .reg)]
  else if op = 60 then [(6, .reg)]
  else []

/-- The operand fields of a V word (R289, R298). -/
def fieldsV (op : Nat) : List (Nat × OpClass) :=
  if op = 28 ∨ op = 29 then [(14, .sreg), (7, .mat)]
  else if op = 30 then [(14, .mat), (7, .sreg)]
  else if op = 36 then [(7, .sreg)]
  else if op = 37 then [(14, .mat)]
  else if op = 0 ∨ (25 ≤ op ∧ op ≤ 27) ∨ (32 ≤ op ∧ op ≤ 34) then [(14, .mat), (7, .mat)]
  else [(14, .mat), (7, .mat), (0, .mat)]

/-- The operand fields of an M word (R286, R300). -/
def fieldsM (op : Nat) : List (Nat × OpClass) :=
  if op < 16 then (if op % 4 < 2 then [(12, .reg), (6, .reg)] else [(11, .mat), (5, .reg)])
  else if op < 33 ∨ op = 45 ∨ op = 46 then [(10, .rel), (5, .rel), (0, .rel)]
  else [(5, .rel), (0, .rel)]

/-- The operand fields of an X word (R299). -/
def fieldsX (op : Nat) : List (Nat × OpClass) :=
  if op = 12 then [(12, .reg), (6, .reg), (0, .reg)] else [(12, .tfield), (6, .reg), (0, .reg)]

/-- The operand fields of a D word (R301). -/
def fieldsD (op : Nat) : List (Nat × OpClass) :=
  if op ≤ 16 then
    if op ≤ 2 ∨ (7 ≤ op ∧ op ≤ 9) ∨ op = 12 then [(12, .tfield), (6, .reg)]
    else [(12, .tfield), (6, .reg), (0, .reg)]
  else if op = 17 then [(12, .tfield)]
  else if op = 18 ∨ op = 24 ∨ op = 41 ∨ op = 48 then []
  else if op = 19 then [(12, .reg)]
  else if op = 20 ∨ op = 32 ∨ op = 34 ∨ op = 35 then [(6, .reg), (0, .reg)]
  else if op = 22 ∨ op = 36 ∨ op = 37 then [(12, .reg), (6, .reg)]
  else if op = 46 ∨ op = 47 then [(14, .pdst)]
  else if op ≥ 42 then [(14, .pdst), (6, .reg), (0, .reg)]
  else [(12, .reg), (6, .reg), (0, .reg)]

/-- The operand fields of an instruction word. -/
def operandFields (w : Nat) : List (Nat × OpClass) :=
  match fld w 30 28 with
  | 0 => fieldsS 0 (fld w 27 22)
  | 1 => fieldsS 1 (fld w 27 22)
  | 2 => fieldsV (fld w 27 22)
  | 3 => fieldsM (fld w 27 22)
  | 4 => fieldsX (fld w 27 22)
  | 5 => fieldsD (fld w 27 22)
  | _ => []

/-- Whether a pipe's scalar operands lie in cluster B (R65): S1, M and D. -/
def pipeB (pipe : Nat) : Bool := pipe = 1 ∨ pipe = 3 ∨ pipe = 5

/-- Whether the field at bit `lo` names a register outside the cluster its pipe uses (R65, R287, R360). -/
def clusterBad (w : Nat) (f : Nat × OpClass) : Bool :=
  let pipe := fld w 30 28
  let n := fld w (f.1 + 5) f.1
  match f.2 with
  | .reg => (n ≥ 32) != pipeB pipe
  | .other => (n ≥ 32) == pipeB pipe
  | .tfield => n != 0 && ((n ≥ 32) != pipeB pipe)
  | .sreg => n ≥ 32
  | _ => false

/-- Whether a field value that fits its format is reserved (R286, R302, R346, R360, R375): a conversion code not assigned or
with a rounding mode it does not take, SCOPE 6 or 7, GRP 384 or above, a scalar operand of a V word with bit 6 set. -/
def valueReserved (w : Nat) : Bool :=
  let op := fld w 27 22
  match fld w 30 28 with
  | 0 | 1 =>
    op = 57 && (fld w 5 1 ≥ 16 || (fld w 17 16 != 0 && (fld w 5 1 = 1 || fld w 5 1 = 13 || fld w 5 1 = 15)))
  | 2 => (op = 32 && fld w 4 0 = 31) || (fieldsV op).any fun f => f.2 = .sreg && bit w (f.1 + 6)
  | 5 => (op = 24 && fld w 17 15 ≥ 6) || (op = 17 && fld w 11 3 ≥ 384)
  | _ => false

/-- The kind of EXT a word accepts (R297 to R301): 0 an immediate, 1 a start offset, none. -/
def extKind (w : Nat) : Option Nat :=
  let op := fld w 27 22
  match fld w 30 28 with
  | 0 => if op = 3 ∨ (10 ≤ op ∧ op ≤ 12) ∨ op = 23 ∨ op = 31 ∨ op = 32 ∨ op = 59 then some 0 else none
  | 1 => if op = 3 ∨ (10 ≤ op ∧ op ≤ 12) ∨ op = 23 ∨ op = 31 ∨ op = 32 then some 0 else none
  | 3 => if op < 16 then some 0 else none
  | 4 => if op < 12 then some 1 else none
  | 5 => if op ≤ 17 then some 1 else if op = 18 ∨ op = 36 ∨ op = 37 then some 0 else none
  | _ => none

end Sys2Proof
end

