-- ==== Sys2Proof/Config.lean ====
section
/-!
DEFINITION. What an implementation fixes and the free values (notes/assumptions/5.md). An opaque constant has no body: nothing
can evaluate it, so a statement proved about the machine holds for every value of it. The cryptographic functions that the
spec names without defining them (R495 to R503) stand here in the same form.
-/
namespace Sys2Proof.Config

/-- The n-th free number of a run (log 5, 6, 7): a delay, a place in an order, or a choice the spec leaves open. -/
opaque freeNat : Nat → Nat

/-- The n-th free 64-bit value of a run (log 5). -/
opaque freeWord : Nat → Word

/-- Whether a beat of a copy meets an uncorrectable error on its path or at its destination, by free number (R182, log 87). -/
opaque beatFails : Nat → Bool

/-- Word k of what the n-th pre-emption writes to its slot of the save area, whose layout the spec does not give (R243, log 65). -/
opaque saveWord : Nat → Nat → Word

/-- The place, in words, of the root context within a slot of the save area (R243, log 65). -/
opaque savePlace : Nat

/-- The banks of a PC that repair or heat retires, by free number and PC (R135, log 98). -/
opaque retireMask : Nat → Nat → Word

/-- Whether a row of a bank that is folded can still be read, by free number and row (R135, log 98). -/
opaque rowReadable : Nat → Nat → Bool

/-- SHAKE256 of a byte string, with the given number of output bits (R494, R498, R503). -/
opaque shake256 : Nat → List Byte → Nat

/-- The 256-bit fused seed of the package (R498). -/
opaque fusedSeed : List Byte

/-- The two fixed domain labels of R498: of the identity key and of the device KEM key. -/
opaque identityLabel : List Byte
@[inherit_doc identityLabel] opaque kemLabel : List Byte

/-- The public key of the XMSS pair, and of the ML-KEM-1024 pair, that a derived value gives (R498). -/
opaque xmssPublic : Nat → List Byte
@[inherit_doc xmssPublic] opaque kemPublic : Nat → List Byte

/-- Aedair's certificate of the identity public key (R498). -/
opaque certificate : List Byte → List Byte

/-- The identity key's signature of the KEM public key (R498). -/
opaque kemSignature : Nat → List Byte → List Byte

/-- XMSS verification of a firmware image of the given kind under Aedair's key (R495). -/
opaque xmssVerify : Nat → List Byte → Bool

/-- The security version that a firmware image of the given kind carries (R495). -/
opaque imageVersion : Nat → List Byte → Nat

/-- The firmware image of the given kind with which the package is delivered (R495, R496). -/
opaque firmware : Nat → List Byte

/-- The signature of a report under the given index by the XMSS key that a derived value gives (R499, R503). -/
opaque xmssSign : Nat → Nat → List Byte → List Byte

/-- ML-KEM-1024 decapsulation with the key that a derived value gives (R501): never fails. -/
opaque kemDecapsulate : Nat → List Byte → List Byte

/-- AES-256-XTS encryption of one 64 B line: the two keys, the line number and the line as a number (R502). -/
opaque xtsEncrypt : List Byte → Nat → Nat → Nat

/-- AES-256-XTS decryption of one 64 B line (R502). -/
opaque xtsDecrypt : List Byte → Nat → Nat → Nat

/-- Whether a boot step passes its check in a boot, by the instant of the boot and the step (R496, log 73). -/
opaque bootStepPasses : Nat → Nat → Bool

/-- Number of physical layers of a stack that pass the layer test of boot, 0 to 9 (R497). -/
opaque layersPassing : Nat → Nat

/-- Word 0 of the availability map of a PC as training and repair publish it at boot: stack, PC (R134, R496). -/
opaque liveAtBoot : Nat → Nat → Word

/-- The lease table that the bytes of an image from its LEASETAB on hold, whatever the layout (R494, log 19). -/
opaque leaseTable : List Byte → List LeaseEntry

/-- The bytes of a lease table as the measurement of a bind plan takes them: the spec gives no layout (R494, R503). -/
opaque leaseBytes : List (List Nat) → List Byte

end Sys2Proof.Config
end

