-- ==== Sys2Proof/Machine/State.lean ====
section
/-!
DEFINITION. The state of one Z9 package, as plain data, and the state after reset. INVENTORY.md, under State, names for each
field the rule of spec/ it comes from.
-/
namespace Sys2Proof.Machine

/-- A sparse map: pairs of a key and a value in strictly rising keys; `smGet` gives an absent key a default. -/
abbrev SMap (α : Type) := List (Nat × α)

/-- The memories of the package: (location, byte) in strictly rising locations, no byte zero (log 4). -/
abbrev Memory := List Host.Cell

/-- Why a step can stop. Every fault of the spec is a next state (a freeze or a NEST), so only one reason is left. -/
inductive Fault where
  /-- Raised by a step whose operand names a core, region, stack or PC that the package does not have (R1, R88).
  Safe: no such unit exists. -/
  | noSuchUnit (n : Nat)
deriving DecidableEq, Repr

/-- Why a step can be refused. -/
inductive Refusal where
  /-- Raised by the dispatch for an instruction that has no meaning in this model yet. Safe: the run stops. -/
  | notModelled (mnemonic : String)
deriving DecidableEq, Repr

/-- What a fault records (R247, R260): code, cause, source, the word that raised it, address and auxiliary word; for NEST the
inner code and cause. -/
structure FaultRec where
  code    : Nat := 0
  cause   : Nat := 0
  src     : Nat := 0
  fpc     : Nat := 0
  fword   : Nat := 0
  addr    : Word := 0
  aux     : Word := 0
  incode  : Nat := 0
  incause : Nat := 0
deriving DecidableEq, Repr

/-- Where a command or an operation in flight was issued: core, thread (`hd` for its handler), first packet of the bundle,
position of the word, pipe code and issue tick. -/
structure Origin where
  core   : Nat := 0
  hd     : Bool := false
  pc     : Nat := 0
  pos    : Nat := 0
  pipe   : Nat := 0
  issued : Nat := 0
deriving DecidableEq, Repr

/-- A destination of a result: a scalar register, a predicate, a matrix operand (7 bits, R72), the scale bypass. -/
inductive Dest where
  | sreg (n : Nat)
  | pred (n : Nat)
  | mat  (m : Nat)
  | bypass
deriving DecidableEq, Repr

/-- What a word writes when it commits: its destinations, and the flags it raises (bits 4:0 as FLAGS, bit 5 QSAT, bit 6 QNAN). -/
structure Res where
  writes : List (Dest × Vec) := []
  flags  : Nat := 0
deriving DecidableEq, Repr

/-- A replay entry (R258, R259): the word as issued, the immediate its EXT gave it, the operand slots captured at issue. -/
structure Replay where
  org     : Origin := {}
  instr   : Instr
  imm     : Option Word := none
  slots   : List Vec := []
  vec     : Bool := false
  fmt     : Word := 0
  drop    : Bool := false
  faulted : Bool := false
  patched : Bool := false
deriving DecidableEq, Repr

/-- What an X-space access does at its target (R81, R443): a load of n bytes, a store, an atomic (operation number 0 to 9). -/
inductive XOp where
  | load   (n : Nat) (sx : Bool)
  | store  (data : List Byte)
  | atomic (op n : Nat) (b c : Word)
deriving DecidableEq, Repr

/-- An X-space access on its way: the issuer, the target location, the returns it fills and its number in the issuer's list. -/
structure XAcc where
  org  : Origin := {}
  core : Nat := 0
  face : Nat := 0
  off  : Nat := 0
  op   : XOp := .store []
  ret  : Option Nat := none
  acc  : Nat := 0
deriving DecidableEq, Repr

/-- What a pending item of a core does at its tick. `probe` is the issuer's look at the poison of the line of its atomic `acc`, at
core or stack `d` (R446). -/
inductive Act where
  | result    (rp : Replay) (res : Res)
  | store     (face off : Nat) (data : List Byte)
  | xperf     (x : XAcc)
  | xret      (rp : Replay) (val : Option Vec) (poison : Bool) (addr : Word) (gslot : Bool)
  | probe     (org : Origin) (d acc loc n : Nat) (g hit : Bool) (addr : Word)
  | link      (q : Nat) (v : Vec)
  | copyStart (cmd : Nat)
  | copyRead  (issuer cmd beat : Nat)
  | copyBeat  (issuer cmd dst beat face off : Nat) (data : List Byte) (poison failed : Bool)
  | fillBeat  (cmd beat : Nat)
  | putRead   (fab beat : Nat)
  | deliver   (org : Origin) (face off : Nat) (data : List Byte) (poison : Bool)
  | visible   (cell : Nat) (data : List Byte) (poison : Bool)
  | memop     (kind src dst stamp : Nat)
  | mcmp      (off : Nat) (val : Word)
  | lfence    (hs : Nat)
  | cubeStart (cmd : Nat)
  | cubeRead  (cmd kind u : Nat)
  | cubeRes   (cmd plane diag : Nat)
  | zeroRow   (cmd row : Nat)
  | drain     (cmd piece : Nat)
  | resc      (cmd off : Nat) (data : List Byte)
  | pline     (cmd line : Nat)
  | side      (cmd kind : Nat)
  | latch     (cmd : Nat)
  | markAdd   (mark : Nat)
  | invAdd    (inv : Nat)
deriving DecidableEq, Repr

/-- A pending item: its number, the architectural tick of its core at which it acts, its phase in that tick (0 reads at the
start, 1 commits at the end), its rank and place in the order of R60 and R68, the access it completes, and whether it is a write that
a freeze has held back in the delivery stage (R254). An item of traffic with no defined tick (`net`) performs in the first tick of its target's
region from instant `due` on, and by instant `limit` (R82, R169). Where `orph` names the launch and the tile of a killed
task, the launch waits for the item (R210). -/
structure Pending where
  id    : Nat
  tick  : Nat
  phase : Nat := 1
  rank  : Nat := 0
  src   : Nat := 0
  ord   : Nat := 0
  acc   : Option Nat := none
  waits : Bool := false
  net   : Bool := false
  due   : Nat := 0
  limit : Option Nat := none
  orph  : Option (Nat × Nat × Nat) := none
  act   : Act
deriving DecidableEq, Repr

/-- An access that a thread has issued (R186, R189): what it reaches (0 own core, 1 another core, 2 G atomic, 3 fabric),
the core reached, its queue (1 timeline, 2 copy, 3 cube, else 0), the tick at which it counts as performed for a fence (none while that
is not known), its DoneTick for a MARK behind it (R430), and whether its perform tick is not defined (R82, R190). -/
structure Outst where
  id    : Nat
  cls   : Nat := 0
  core  : Nat := 0
  queue : Nat := 0
  done  : Option Nat := none
  mdone : Option Nat := none
  loose : Bool := false
deriving DecidableEq, Repr

/-- An operation waiting for its place at an atomic unit (R174, R444). -/
structure GAtom where
  org     : Origin
  cell    : Nat
  op      : Nat
  n       : Nat
  b       : Word
  c       : Word
  ret     : Option Nat
  acc     : Nat
  grouped : Option Nat
  relp    : Nat
  due     : Nat
  serial  : Nat
deriving DecidableEq, Repr

/-- What follows the end of a fence (R269, R445, R448, R451). -/
inductive After where
  | nothing
  | flagStore (x : XAcc)
  | atomic    (x : XAcc) (rp : Replay) (g : Option GAtom) (acq : Bool) (addr : Word)
  | arrive    (bar count dest : Nat)
  | resume    (slot pd : Nat)
deriving DecidableEq, Repr

/-- Why a thread issues nothing (R190, R206). -/
inductive Wait where
  | fence  (scope upTo since : Nat) (unb : Bool) (after : After)
  | acq    (resume : Nat)
  | flag   (dest loc cond : Nat) (b : Word)
  | bar    (dest bar : Nat) (g : Nat)
  | arrive (bar count dest : Nat)
  | cc     (dest idx : Nat) (b : Nat)
  | inst   (dest : Nat) (handle : Word) (yield : Bool)
  | intake (dest : Nat) (ginst : Bool) (base : Nat) (va : Word) (patch : List (Word × Word)) (gate : Nat)
deriving DecidableEq, Repr

/-- An entry of the pending ring table (R294). -/
structure Ring where
  matrix : Bool
  base   : Nat
  len    : Nat
deriving DecidableEq, Repr

/-- A branch taken and not yet made (R283, R351): target, delay bundles still to issue, the register of a CALL's link, and the
word that took it. -/
structure Delay where
  target : Nat
  left   : Nat
  link   : Option Nat
  org    : Origin
deriving DecidableEq, Repr

/-- A bundle of the loop buffer (R296): its first packet, its words, the packets it occupies. -/
structure LoopBundle where
  pc    : Nat
  words : List Nat
  npk   : Nat
deriving DecidableEq, Repr

/-- The loop state (R352 to R356): trip count, stages, iterations, the iteration i, the buffer, the position in it, the rings
in force, the packet after the body, and whether the stage predicates of iteration i have been written. -/
structure LoopSt where
  trip   : Nat
  stages : Nat
  iters  : Nat
  i      : Nat := 0
  buffer : List LoopBundle := []
  pos    : Nat := 0
  rings  : SMap Ring := []
  after  : Nat := 0
  staged : Bool := false
deriving DecidableEq, Repr

/-- A thread: the task of a core or the handler on it (R65, R69, R143, R195, R262). The next bundle issues at tick `next`, or, where
`seq` says that the packets of the bundle count (R281), that many ticks after tick `next - 1`. -/
structure Thread where
  regs    : SMap Word := []
  preds   : BitVec 16 := 0
  pc      : Nat := 0
  ab      : Word := 0
  next    : Nat := 0
  seq     : Bool := false
  delay   : Option Delay := none
  loop    : Option LoopSt := none
  rings   : SMap Ring := []
  wait    : Option Wait := none
  divFree : Nat := 0
  agenda  : List Pending := []
  outst   : List Outst := []
  nid     : Nat := 0
deriving DecidableEq, Repr

/-- An exclusive and shared lease as granted by the bind (R96, R97, R99). -/
structure Lease where
  entry : LeaseEntry := {}
  cls   : Nat := 0
  step  : Nat := 0
deriving DecidableEq, Repr

/-- A TLB entry: its two words (R31). -/
structure Tlb where
  w0 : Word := 0
  w1 : Word := 0
deriving DecidableEq, Repr

/-- A burst of a timeline command: its tick, the HBM location of its first byte (PC already hashed), its face offset. -/
structure Burst where
  tick : Nat
  cell : Nat
  foff : Nat
deriving DecidableEq, Repr

/-- A posted timeline command (R101, R424): opcode 0 to 12, absolute tick, stack, bursts not yet presented, the banks it
touches (as the HBM location of row and bank), the face, the result index, the failed transfers of its next burst with the lane
named (R128), and the access it completes. -/
structure TlCmd where
  id       : Nat
  org      : Origin
  op       : Nat
  stamp    : Nat
  tick     : Nat
  hs       : Nat := 0
  bursts   : List Burst := []
  rows     : List Nat := []
  face     : Nat := 0
  ridx     : Nat := 0
  half     : Bool := false
  seq      : Nat := 0
  rejected : Bool := false
  fails    : Nat := 0
  lane     : Nat := 63
  acc      : Nat := 0
deriving DecidableEq, Repr

/-- A destination of a copy (R432): core, face (0 to 3) or 4 + k for queue q(4+k), offset, and whether a beat to it has failed (R182). -/
structure CopyDst where
  core : Nat
  face : Nat
  off  : Nat
  known : Bool
  failed : Bool := false
deriving DecidableEq, Repr

/-- A copy, multicast or fill (R84 to R87): its start, bytes, source and destinations; a fill has a constant. `full` is the commit tick of a
beat that has found its stream queue full, whose fault the issuer has still to take (R79). -/
structure CopyCmd where
  id      : Nat
  org     : Origin
  start   : Nat
  len     : Nat
  score   : Nat := 0
  sface   : Nat := 0
  soff    : Nat := 0
  sknown  : Bool := true
  dsts    : List CopyDst := []
  fill    : Option HWord := none
  started : Bool := false
  left    : Nat := 0
  faulted : Bool := false
  full    : Option Nat := none
  acc     : Nat := 0
deriving DecidableEq, Repr

/-- A cube command with its descriptors and what it captured (R387, R394, R401, R403). -/
structure XCmd where
  id    : Nat
  org   : Origin
  kind  : Nat
  start : Nat
  occ   : Nat
  lmask : Nat := 0
  m     : Nat := 0
  n     : Nat := 0
  k     : Nat := 0
  afmt  : Nat := 0
  bfmt  : Nat := 0
  side  : Bool := false
  keepc : Bool := false
  daddr : Nat := 0
  cstr  : Nat := 0
  woff  : Nat := 0
  aoff  : Nat := 0
  asoff : Nat := 0
  bsoff : Nat := 0
  fmt   : Word := 0
  bs    : Nat := 0
  ofmt  : Nat := 0
  rm    : Nat := 0
  ct    : Bool := false
  tr    : Bool := false
  dspc  : Nat := 0
  caddr : Nat := 0
  started : Bool := false
  faulted : Bool := false
  dead  : Nat := 0
  acc   : Nat := 0
deriving DecidableEq, Repr

/-- What a running cube command has read (R392): the k-steps of its A and B streams by 4096 × slot + k, their scales by
512 × slot + block, the format of each slot's latch, words of C (old ones, drained ones, P of CUBE.SCORE) by 4096 × plane + 64 × row +
column, and the side registers of CUBE.SCORE. -/
structure XRun where
  a   : SMap Nat := []
  b   : SMap Nat := []
  sa  : SMap Nat := []
  sb  : SMap Nat := []
  bf  : SMap Nat := []
  old : SMap HWord := []
  mx  : SMap HWord := []
  sm  : SMap HWord := []
  al  : SMap HWord := []
deriving DecidableEq, Repr

/-- The weight latch of a layer (R398, R400): format, rows KL, columns N, the k-steps and the scales of its blocks. -/
structure Latch where
  fmt    : Nat
  k      : Nat
  n      : Nat
  rows   : SMap Nat := []
  scales : SMap Nat := []
deriving DecidableEq, Repr

/-- The side registers of a C row (R406). -/
structure Side where
  mx : HWord := 0xFF800000
  sm : HWord := 0
  al : HWord := 0x3F800000
deriving DecidableEq, Repr

/-- A pending write of this core (R110, R393, R426, R438): its kind (0 timeline delivery, 1 copy, 2 fill, 3 cube C result,
4 drain piece, 5 P line, 6 side registers), the command, the face, first byte and length, issue and commit ticks. -/
structure PendW where
  kind   : Nat
  cmd    : Nat
  face   : Nat
  lo     : Nat
  len    : Nat
  issued : Nat
  commit : Nat
deriving DecidableEq, Repr

/-- A MARK not yet complete, or a translation marker (R47, R430): its queues, its first tick, the accesses ahead of it, the
C-face word and the value added. A translation marker names its invalidation instead. -/
structure Marker where
  id    : Nat
  org   : Origin
  qsel  : Nat
  r0    : Nat
  ahead : List Nat
  off   : Nat := 0
  val   : Word := 0
  inv   : Option Nat := none
  acc   : Nat := 0
deriving DecidableEq, Repr

/-- A fabric operation outstanding (R457 to R461): kind 0 PUT, 1 GET, 2 RATOM. -/
structure FabOp where
  id    : Nat
  org   : Origin
  kind  : Nat
  cc    : Nat
  fwin  : Nat
  foff  : Nat
  len   : Nat := 0
  face  : Nat := 0
  off   : Nat := 0
  op    : Nat := 0
  wide  : Bool := false
  b     : Word := 0
  ret   : Bool := false
  data  : List Byte := []
  acc   : Nat := 0
deriving DecidableEq, Repr

/-- A core of a frozen pack (R248 to R260): its held tick, the tick Φ of the pack in its own count, the count of its region at
its stop, the tick at which its next bundle was due (R282), what it recorded. -/
structure Frozen where
  held   : Nat
  hw     : Nat := 0
  due    : Nat := 0
  phi    : Nat
  fault  : Option FaultRec := none
  second : Bool := false
  late   : Bool := false
deriving DecidableEq, Repr

/-- The state of a core's task (R196). `over` holds a retired member of a pack that is still live (R203). -/
inductive Stage where
  | free
  | bound
  | running
  | ending
  | over
deriving DecidableEq, Repr

/-- A pending HEEL (R148, R149): the absolute target tick, the word that set it, whether the core holds at it, the instant of
its release, whether no unbounded wait has begun since it issued (R208, R209), and whether it has faulted at its target. -/
structure Heel where
  target : Nat
  fpc    : Nat
  fword  : Nat
  holds  : Bool := false
  released : Option Nat := none
  fresh  : Bool := true
  tried  : Bool := false
deriving DecidableEq, Repr

/-- A core: one control core with its storage, engines and queues. `shift` is its TBASE less the one at the last alignment of its group: with it the relative
ticks of the members are one count between a REBASE and the next HEEL (R104, R115, R145). -/
structure Core where
  stage    : Stage := .free
  task     : Thread := {}
  handler  : Option Thread := none
  tbase    : Word := 0
  taskid   : Word := 0
  packid   : Word := 0
  engfmt   : Word := 0
  fmtq     : List (Nat × Word) := []
  bundles  : Nat := 0
  echk     : Word := 0
  trapen   : Nat := 0
  lease    : Lease := {}
  kennel   : Word := 0
  fi       : SMap Word := []
  leash    : SMap Word := []
  hserial  : Nat := 0
  hpack    : Nat := 0
  mrf      : SMap HWord := []
  fifo     : SMap (List Vec) := []
  bypass   : SMap HWord := []
  heel     : Option Heel := none
  lastExit : Nat := 0
  waited   : Bool := false
  careFrom : Option Nat := none
  careNext : Option Nat := none
  careReb  : Option Nat := none
  rebased  : Bool := false
  shift    : Int := 0
  newBase  : Option Word := none
  tlb      : SMap Tlb := []
  tlbNext  : Option (SMap Tlb) := none
  tlbNew   : List Nat := []
  tlq      : List TlCmd := []
  lastRow  : SMap Nat := []
  lastCol  : SMap Nat := []
  tlseq    : Nat := 0
  copies   : List CopyCmd := []
  copyEnd  : Nat := 0
  copyLast : Nat := 0
  markers  : List Marker := []
  cubes    : List XCmd := []
  xrun     : SMap XRun := []
  cubeEnd  : Nat := 0
  cubeLast : Nat := 0
  latches  : SMap Latch := []
  cfmt     : Word := 0
  sides    : SMap Side := []
  pendw    : List PendW := []
  atoms    : Nat := 0
  cc       : SMap Word := []
  fabs     : List FabOp := []
  arriving : List Pending := []
  frozen   : Option Frozen := none
  skip     : Nat := 0
  absorb   : Nat := 0
  lavail   : Nat := 0
  lmask    : Nat := 0
  snapRel  : Nat := 0
  snapHold : Option Nat := none
  inst     : Nat := 0
  node     : Nat := 0
  ltile    : Nat := 0
  bindNchg : Nat := 0
  aligned  : Nat := 0
  links    : SMap Nat := []
deriving DecidableEq, Repr

/-- The power state of a region (R236 to R238), with the instant at which its idleness or its gating began. -/
inductive Power where
  | awake
  | idle (since : Nat)
  | gating (since : Nat)
  | gated
  | queued
  | ramping
deriving DecidableEq, Repr

/-- One step-domain description of a region (R478 to R483): request, evaluations at or below 100 °C, whistle step, bits 23:21
of MUZZLE, and the last two as they stood when the present group of 16 periods began (`wshow`, `yshow`, R481). -/
structure Gov where
  req   : Nat := 16
  cool  : Nat := 0
  wstep : Nat := 16
  why   : Nat := 0
  nchg  : Nat := 0
  wshow : Nat := 16
  yshow : Nat := 0
deriving DecidableEq, Repr

/-- A core region (R138 to R143, R229, R236, R262); `ticks` and `occ` count its ticks and the occupied core-ticks of each instance in the present interval
of R245. -/
structure Region where
  hw        : Word := 0
  edge      : Nat := 0
  phase     : Nat := 0
  step      : Nat := 16
  nextStep  : Option Nat := none
  lastStr   : Option Nat := none
  breach    : Option Nat := none
  lost      : Option Nat := none
  nstretch  : Nat := 0
  lock      : Bool := false
  freerun   : Bool := false
  droopovr  : Bool := false
  reverse   : Bool := false
  power     : Power := .awake
  holdFor   : Nat := 900000
  slots     : SMap (List (List Word)) := []
  preload   : SMap Nat := []
  status    : Nat := 0
  l2        : SMap Tlb := []
  ctxs      : SMap Nat := []
  waiters   : List (Nat × Nat × Nat) := []
  gov       : Gov := {}
  temps     : List Nat := []
  ballast   : List Nat := []
  ticks     : Nat := 0
  occ       : SMap Nat := []
deriving DecidableEq, Repr

/-- A command presented on a PC (R104, R105): its stamp, opcode (13 for an activation that only the budget of R121 still counts), bank,
and the core it came from. Stamps count from the core's present TBASE, so those before it are negative. -/
structure Pres where
  stamp : Int
  op    : Nat
  bank  : Nat
  core  : Nat
deriving DecidableEq, Repr

/-- A bank (R106, R118, R120, R125, R134, R135), with the alignment group of a grouped shared bank (R174, R175); `shut` is the row that the
controller has closed while the pack of its holder is frozen (R136), `ref` and `busy` are the stamps of its last refresh and of the end of its last
in-memory operation, counted from its holder's present TBASE. -/
structure Bank where
  group   : Option Nat := none
  row     : Option Nat := none
  shut    : Option Nat := none
  ref     : Int := 0
  busy    : Int := 0
  wmark   : Bool := false
  mmark   : Bool := false
  table   : List (Nat × Nat) := []
  retired : Bool := false
  fold    : Option Nat := none
  host    : Bool := false
deriving DecidableEq, Repr

/-- A pseudo-channel (R95, R105, R114, R129, R134). Mode 0 idle, 1 compiled, 2 atomic; `idleAt` holds the counts of the
four regions of the cube stack at the last release (R137, R232), less the counts that a region has lost since with its power; `shown` is the number of spare lanes that the availability map shows (R134), `old` how many
of `names` belong to the retry window before the present one, in which a swap fell due that is still to be made (R129). -/
structure Pc where
  mode   : Nat := 0
  group  : Nat := 0
  hist   : List Pres := []
  rcnt   : Nat := 0
  names  : List Nat := []
  old    : Option Nat := none
  spares : Nat := 2
  shown  : Nat := 2
  half   : Bool := false
  halfNext : Bool := false
  swap   : Bool := false
  idleAt : List Int := []
  hold   : Nat := 0
  refreshed : Nat := 0
deriving DecidableEq, Repr

/-- An HBM stack with its controller and management core; `backlog` holds the bursts whose transfers are still to be verified (R117), `hot` says that
the stack has reached band 3 since the last phase boundary (R486). -/
structure Hbm where
  hmask  : Word := 0
  pcs    : SMap Pc := []
  banks  : SMap Bank := []
  th     : Nat := 1024
  drfm   : List (Nat × Nat × Nat) := []
  rescue : List (Nat × Nat) := []
  backlog : List Nat := []
  units  : List GAtom := []
  log    : List (List Word) := []
  band   : Nat := 0
  cold   : Nat := 0
  coolMs : Nat := 0
  hot    : Bool := false
  out    : Bool := false
  lock   : Bool := false
  freerun : Bool := false
  scrub  : SMap Nat := []
  power  : Power := .awake
deriving DecidableEq, Repr

/-- The freeze of a pack (R251 to R256): Φ as a relative tick, the primary core, whether the notice has arrived, whether a
handler has been given, whether a resume is on its way. -/
structure Freeze where
  phi      : Nat
  primary  : Nat
  wall     : Nat
  noticed  : Bool := false
  served   : Bool := false
  resuming : Bool := false
deriving DecidableEq, Repr

/-- A live pack (R202, R203), by its alignment group. -/
structure Pack where
  members : List Nat
  inst    : Nat
  node    : Nat
  freeze  : Option Freeze := none
  epoch   : Nat := 0
deriving DecidableEq, Repr

/-- A completion record (R212). State 0 pending, 1 running, 2 done, 3 failed, 4 cancelled. `errAt` are the instant and the core of its first error, `mcOf` those
of the first failed multicast with its command. -/
structure Completion where
  state  : Nat := 0
  remain : Nat := 0
  errcnt : Nat := 0
  code   : Nat := 0
  cause  : Nat := 0
  tile   : Nat := 0
  mcmask : Word := 0
  errAt  : Nat × Nat := (0, 0)
  mcOf   : Option (Nat × Nat × Nat) := none
deriving DecidableEq, Repr

/-- How a node stands (R210, R214, R224, R225). -/
inductive NodeSt where
  | waiting
  | held
  | ready
  | claimed
  | done
  | failed
  | skipped
deriving DecidableEq, Repr

/-- A node of a live instance (R213, R217, R224): descriptor words 0 to 3, parameters, in-edges left, state, record, the time
it became ready, the queue it was taken from, packs claimed, returned and released, cancelled, its operations in flight whose tasks are gone, the entries of
its window list once it has passed its check, the regions whose second-level TLB has taken them (R38, R41), and the time for which holds have frozen its aging (R242). -/
structure Node where
  desc    : List Word := []
  params  : List Word := []
  left    : Nat := 0
  st      : NodeSt := .waiting
  comp    : Completion := {}
  since   : Nat := 0
  eff     : Nat := 0
  claimed : Nat := 0
  back    : List Nat := []
  ran     : List Nat := []
  cancelled : Bool := false
  outst   : Nat := 0
  wins    : Option (List Tlb) := none
  cands   : List Nat := []
  frz     : Nat := 0
deriving DecidableEq, Repr

/-- An edge of a graph object (R213). -/
structure Edge where
  src : Nat
  dst : Nat
  err : Bool
deriving DecidableEq, Repr

/-- An entry of a ready queue (R225): instance, node, ready time, and the time it joined its queue. -/
structure Ready where
  inst  : Nat
  node  : Nat
  since : Nat
  raised : Nat := 0
deriving DecidableEq, Repr

/-- A live instance of a graph object (R217, R242, R462): physical base of the object, its virtual address, slot, serial,
creator task, nodes and edges, the second-level
entries of its windows, its hold with the time of it and the claimant, the slot of the save area that holds its root context, and the serial of its job. -/
structure Inst where
  obj     : Nat
  objva   : Word
  slot    : Nat
  serial  : Nat
  creator : Option (Nat × Nat × Nat) := none
  ccore   : Nat := 0
  root    : Bool := false
  nodes   : SMap Node := []
  edges   : List Edge := []
  windows : Bool := false
  gate    : Option (Nat × Nat) := none
  hold    : Bool := false
  heldAt  : Nat := 0
  claimant : Option Nat := none
  entries : List Tlb := []
  saved   : Option Nat := none
  cancelled : Bool := false
  energy  : Nat := 0
  job     : Nat := 0
deriving DecidableEq, Repr

/-- A sealed graph object (R215): its physical base and length, its count of creations for each slot (R462). -/
structure Sealed where
  base : Nat
  len  : Nat
  serials : SMap Nat := []
deriving DecidableEq, Repr

/-- A SEAL or UNSEAL in progress (R467): the object's physical address, the result word, the issuer, and the launch of an issuer that has been
killed (R210). -/
structure SealOp where
  undo   : Bool
  base   : Nat
  off    : Nat
  org    : Origin
  gate   : Nat
  acc    : Nat
  orph   : Option (Nat × Nat × Nat) := none
deriving DecidableEq, Repr

/-- A pack that a cancel has caught between its preload and its release (R234): its group and launch, its tasks as core and tile. -/
structure Doomed where
  group : Nat
  inst  : Nat
  node  : Nat
  tasks : List (Nat × Nat)
deriving DecidableEq, Repr

/-- The graph walker (R210 to R218, R224 to R226, R463, R467). `takes` are the takes of the present reference period (R226), `past` the packs that have ended
in it, as instant, group and leases by core (R235), `doomed` the packs to be killed at their release (R234), `kept` the saved root contexts whose instances have ended: the
launch and tile of the context and its slot (R243, R244). `owing` are the instances that owe energy of PCs, atomic units or ballast in the present interval, `ballastOf`
the instances that ballast runs for, by core (R245). -/
structure Walker where
  insts   : SMap Inst := []
  ended   : SMap (Inst × Nat) := []
  nextId  : Nat := 0
  queues  : SMap (List Ready) := []
  held    : List (Nat × Nat) := []
  sealedT : List Sealed := []
  seals   : List SealOp := []
  takes   : List (Nat × Nat) := []
  past    : List (Nat × Nat × List (Nat × LeaseEntry)) := []
  doomed  : List Doomed := []
  kept    : List ((Nat × Nat × Nat) × Nat) := []
  owing   : List Nat := []
  ballastOf : SMap Nat := []
deriving DecidableEq, Repr

/-- A barrier of a cluster (R450): open generation, arrivals, COUNT, bound launch, error, and how closed generations ended. -/
structure Barrier where
  gen     : Nat := 0
  arrived : Nat := 0
  count   : Nat := 0
  launch  : Option (Nat × Nat) := none
  err     : Bool := false
  bad     : List Nat := []
deriving DecidableEq, Repr

/-- An invalidation in progress (R47, R470): markers left, and the completion word of a handler's TLBINV. -/
structure Inval where
  left : Nat
  core : Nat
  off  : Option Nat
deriving DecidableEq, Repr

/-- The image of the running job (R494, R500, R501). -/
structure Image where
  addr   : Nat := 0
  len    : Nat := 0
  nphase : Nat := 0
  sealed : Bool := false
  traced : Bool := false
  phtab  : Nat := 0
  srec   : Nat := 0
  digest : Nat := 0
  ranges : List (Nat × Nat) := []
  keys   : List Byte := []
deriving DecidableEq, Repr

/-- The host-side registers and the package system controller (R488 to R503); `saveArea` is the pre-emption save area of the bound phase (R243, R494). `msix` holds what the host has written to the words of the control
range that only store, `serving` the tag of a request that is being served (R493), `hostData` what its last read of memory, number `hostId`, has returned,
`jphase` the phase last bound and `nextPhase` the one bound next or running (R491), `trips` and `peaks` the trip records and the highest reading of each sensor (R487). -/
structure Psc where
  jstate : Nat := 0
  jerr   : Nat := 0
  jphase : Nat := 0
  nextPhase : Nat := 0
  jserial : Nat := 0
  hwbase : Word := 0
  sacnt  : Nat := 0
  jcause : Nat := 0
  hbeat  : Nat := 0
  msix   : SMap Word := []
  pba    : Word := 0
  hostData : List Byte := []
  hostId : Nat := 0
  resp   : List Word := []
  pfail  : List Nat := []
  image  : Option Image := none
  phaseOpen : Bool := false
  pcap   : Nat := 10000
  pkgid  : Nat := 1023
  sigidx : Nat := 0
  fwver  : SMap Nat := []
  fwnew  : SMap Nat := []
  fwrun  : SMap Nat := []
  meas   : SMap Nat := []
  preq   : Nat := 16
  emergency : Bool := false
  emCalm : Nat := 0
  whistleAt : Nat := 0
  whistleNext : Option Nat := none
  whistleCnt : Nat := 0
  whistled : List Nat := []
  tripped : Bool := false
  trips  : List (Bool × Nat × Nat) := []
  energyJob : Nat := 0
  energyMaint : Nat := 0
  muzzle : List (Nat × Nat × Nat × Nat) := []
  bootFail : Nat := 0
  booted : Bool := false
  clkFab : Nat := 0
  peaks  : List Nat := []
  saveArea : Option Nat := none
  serving : Option Nat := none
deriving DecidableEq, Repr

/-- The trace unit of a cube stack (R507). -/
structure Trace where
  recs    : List (List Word) := []
  stop    : Bool := false
  dropped : Nat := 0
deriving DecidableEq, Repr

/-- A step of the hardware, the firmware or the host that is due: the rows of Instr from `resultCommit` on, with their operands, and the four steps that others
leave behind: the service of the takes of a reference period (R226), a further piece of a host read or write (R173), a further try of nodes that wait for room in the TLBs (R41). (A type of its own, since Lean's runtime builds no object of a constructor past the 244th; `runEv` runs each as `exec`
does.) -/
inductive Ev where
  | resultCommit (c : Nat) (hd : Bool) (id : Nat)
  | engfmtApply (c : Nat)
  | localStoreCommit (c : Nat) (hd : Bool) (id : Nat)
  | xAccessPerform (c id : Nat)
  | xLoadReturn (c : Nat) (hd : Bool) (id : Nat)
  | linkEntryArrive (c id : Nat)
  | copyCommandStart (c id : Nat)
  | copyBeatRead (c id : Nat)
  | copyBeatCommit (c id : Nat)
  | fillBeatCommit (c id : Nat)
  | heldWriteCommit (c id : Nat)
  | timelineCommandPerform (c id : Nat)
  | tsvResend (c id fails lane : Nat)
  | readDeliveryCommit (c id : Nat)
  | writeBurstVisible (c id : Nat)
  | inMemoryOpComplete (c id : Nat)
  | mcmpResultCommit (c id : Nat)
  | lfenceSatisfied (c id : Nat)
  | markComplete (c id : Nat)
  | translationMarkerRetire (c id : Nat)
  | lentSpanStart (hs pc f : Nat)
  | lentSpanEnd (hs pc f : Nat)
  | holeMaintenance (hs pc f : Nat)
  | refreshWindowExpire (c hs pc bank : Nat)
  | safetyRefresh (hs pc bank : Nat)
  | idlePcRefresh (hs pc : Nat)
  | rcntWindowClear (hs : Nat)
  | hbmTemperatureRead (hs temp : Nat)
  | droopStretch (r : Nat)
  | referenceLost (r : Nat)
  | hbmReferenceLost (hs : Nat)
  | referenceRelock (r : Nat)
  | snapshotPublish
  | heelArrive (c : Nat)
  | heelRelease (g : Nat)
  | heelExit (c : Nat)
  | fenceEnd (c : Nat) (hd : Bool)
  | flagwaitSatisfied (c : Nat) (hd : Bool)
  | barrierArrival (c : Nat)
  | barwaitEnd (c : Nat)
  | waitcSatisfied (c : Nat)
  | gwaitEnd (c : Nat)
  | walkerIntakeFree (c : Nat)
  | gAtomicPerform (hs : Nat)
  | atomicReturn (c : Nat) (hd : Bool) (id : Nat)
  | fabricRequestIn (q : FabricReq)
  | fabricCompletion (c id code cause : Nat) (old : Word)
  | getPieceCommit (c id off : Nat) (v : Word)
  | taskRetire (c : Nat)
  | launchEnd (inst node : Nat)
  | walkerHeldPush
  | readyAging
  | instanceWindowFill (inst : Nat)
  | sealComplete
  | phaseBind (leases : List LeaseEntry)
  | shepherdTake (die n : Nat)
  | shepherdReturn (die inst node pack : Nat)
  | recordWrite (r slot : Nat) (ws : List Word)
  | recordWithdraw (r slot pos : Nat)
  | tlbPreload (c : Nat)
  | packRelease (g : Nat)
  | regionGateBegin (r : Nat)
  | gatingComplete (r : Nat)
  | wakeRequest (r : Nat)
  | gateHoldOverride (r time : Nat)
  | rampStart (r : Nat)
  | rampEnd (r : Nat)
  | preempt (victim claimant : Nat)
  | restore (inst : Nat)
  | placeBallast (c : Nat)
  | shepherdCancel (level inst node : Nat)
  | shepherdTlbWrite (c idx : Nat) (second : Bool) (w0 w1 : Word)
  | shepherdTlbInvalidate (cs : List Nat) (all : Bool) (va len : Nat)
  | energyInterval (charges : List (Nat × Nat × Nat))
  | freezeNoticeArrive (g : Nat)
  | memberStop (c : Nat)
  | kennelDispatch (g : Nat)
  | handlerBudgetExpire (c serial : Nat)
  | packResumeRelease (g epoch : Nat)
  | cubeCommandStart (c id : Nat)
  | cubeStreamStep (c id : Nat)
  | cubeResultCommit (c id : Nat)
  | drainPieceCommit (c id : Nat)
  | rescaleRowCommit (c id : Nat)
  | scorePLineCommit (c id : Nat)
  | scoreSideCommit (c id : Nat)
  | weightLatchReplace (c id : Nat)
  | layerFailure (c layer : Nat)
  | governorEvaluation (amps watts : Nat) (calm : Bool)
  | stepApply
  | sensorSample (temps : List Nat)
  | whistleSend
  | whistleReceive (job w : Nat)
  | whistleTimeout
  | emergencyEnd
  | thermalTrip (sensor : Nat)
  | currentTrip (amps : Nat)
  | jstart (v : Word)
  | jcancel (v : Word)
  | hwbaseWrite (v : Word)
  | jcauseClear (v : Word)
  | clkstatClear (r : Nat) (v : Word)
  | registerWrite (off : Nat) (v : Word)
  | hostMemoryRead (off n : Nat)
  | hostMemoryWrite (off : Nat) (data : List Byte)
  | heartbeat
  | readErrorLog (tag sel : Nat)
  | readClocks (tag : Nat)
  | setPcap (tag watts : Nat)
  | readEnergy (tag : Nat)
  | readAvailabilityMap (tag hs : Nat)
  | setPkgid (tag id : Nat)
  | readKeys (tag : Nat)
  | attest (tag : Nat) (nonce : List Byte)
  | readTrace (tag sel : Nat) (stop : Bool)
  | installFirmware (tag kind : Nat) (image : List Byte)
  | readPhaseFailure (tag : Nat)
  | boot
  | shepherdKill (g : Nat)
  | ballastStepDownEnd (c : Nat)
  | takeServe
  | hostReadPiece (id off n : Nat)
  | hostWritePiece (off : Nat) (data : List Byte)
  | windowRefill
deriving DecidableEq, Repr

/-- A step still to be made in the present instant: a step of the hardware, the issue of a thread, the start and the end of
a region's tick, the timeline of a core (log 1). A start whose core is to fault at a stamp of the same tick holds its issue, which follows in `late`
if the fault does not come (R250, R520). -/
inductive Work where
  | event    (e : Ev)
  | issue    (c : Nat) (h : Bool)
  | start    (c : Nat) (h hold : Bool)
  | late     (c : Nat)
  | timeline (c : Nat)
  | commits  (c : Nat) (h : Bool)
  | edge     (r : Nat)
deriving DecidableEq, Repr

/-- What the schedules of a core's neighbours say of its links at its present tick, where the issue needs it: for an outgoing link the pops that the receiver makes
before an entry sent now enters its FIFO (R79, R158), the outgoing links on which a send without space stops the core (R251 rule 4), and the incoming queues into
which a stopped neighbour would have sent an entry by now (R251 rule 2). -/
structure LinkPlan where
  pops  : SMap Nat := []
  halts : List Nat := []
  feeds : List Nat := []
deriving DecidableEq, Repr

/-- The word being issued (log 1): its core and thread, the first packet of its bundle, its position, the EXT that stands
after it, the word before it, the guard of the bundle's V word, whether the bundle stands in a loop body or is a delay bundle, the
RING numbers that the bundle has written, the fault its check raised, whether the bundle has begun an unbounded wait (R206), and what the links of
its core have before them. -/
structure Cur where
  core   : Nat := 0
  hd     : Bool := false
  pc     : Nat := 0
  pos    : Nat := 0
  npk    : Nat := 1
  ext    : Option Nat := none
  prev   : Option Nat := none
  vg     : Nat := 0
  inLoop : Bool := false
  inDelay : Bool := false
  rset   : Nat := 0
  raised : Option FaultRec := none
  unb    : Bool := false
  plan   : LinkPlan := {}
deriving DecidableEq, Repr

/-- The state of the package. -/
structure State where
  mem      : Memory
  poison   : List Nat
  burstErr : SMap Nat
  cores    : SMap Core
  regions  : SMap Region
  hbms     : SMap Hbm
  packs    : SMap Pack
  barriers : SMap Barrier
  walker   : Walker
  psc      : Psc
  fwtab    : SMap Tlb
  exptab   : SMap Tlb
  ftlb     : List Tlb
  leases   : List LeaseEntry
  traces   : SMap Trace
  ramps    : List Nat
  releases : SMap Nat
  epochs   : SMap Nat
  invals   : SMap Inval
  now      : Nat
  work     : List Work
  timers   : List (Nat × Ev)
  cur      : Cur
  fresh    : Nat
deriving DecidableEq, Repr

/-- The machine right after reset: every register at the value the spec gives (INVENTORY.md, State), memory with nothing
listed, BOOT due at once (R496), the periodic steps of the package at their first instants (log 1, 2, 3). -/
def State.reset : State where
  mem := []
  poison := []
  burstErr := []
  cores := []
  regions := []
  hbms := []
  packs := []
  barriers := []
  walker := {}
  psc := {}
  fwtab := []
  exptab := []
  ftlb := []
  leases := []
  traces := []
  ramps := []
  releases := []
  epochs := []
  invals := []
  now := 0
  work := [.event .boot]
  timers := [(320, .snapshotPublish), (18000, .energyInterval []), (180000, .governorEvaluation 0 0 true), (1800000000, .heartbeat)]
  cur := {}
  fresh := 0

end Sys2Proof.Machine
end

