-- ==== Sys2Proof/Machine/Ops.lean ====
section
/-!
DEFINITION. The named operations on the state: sparse maps and memory, locations, cores and their threads, ticks and time,
registers, pending items, and taking a fault (a freeze of the pack, or NEST in a handler).
-/
namespace Sys2Proof.Machine

/-! ### Sparse maps -/

/-- The value of a key, if listed. -/
def smFind {α : Type} : SMap α → Nat → Option α
  | [], _ => none
  | (k, v) :: m, a => if k = a then some v else smFind m a

/-- The value of a key, or the default. -/
def smGet {α : Type} (d : α) (m : SMap α) (a : Nat) : α := (smFind m a).getD d

/-- A map with one key set, in strictly rising keys. -/
def smSet {α : Type} : SMap α → Nat → α → SMap α
  | [], a, v => [(a, v)]
  | (k, w) :: m, a, v =>
    if a < k then (a, v) :: (k, w) :: m
    else if a = k then (a, v) :: m
    else (k, w) :: smSet m a v

/-- A map with one key unlisted. -/
def smErase {α : Type} (m : SMap α) (a : Nat) : SMap α := m.filter fun p => p.1 != a

/-- A map with every value changed by a function of its key. -/
def smMap {α β : Type} (f : Nat → α → β) (m : SMap α) : SMap β := m.map fun p => (p.1, f p.1 p.2)

/-- A list with one element put in its place under an order, after those not above it. -/
def insertBy {α : Type} (le : α → α → Bool) (x : α) : List α → List α
  | [] => [x]
  | y :: ys => if le x y then x :: y :: ys else y :: insertBy le x ys

/-- A list in ascending order, equal elements in the order they stood. -/
def sortBy {α : Type} (le : α → α → Bool) : List α → List α
  | [] => []
  | x :: xs => insertBy le x (sortBy le xs)

/-- Whether the keys rise strictly. -/
def smSorted {α : Type} : SMap α → Bool
  | [] => true
  | [_] => true
  | p :: q :: m => p.1 < q.1 && smSorted (q :: m)

/-! ### Memory: bytes by location (log 4) -/

/-- The byte at a location; a location not listed reads zero (log 4). -/
def readByte (m : Memory) (a : Nat) : Byte := smGet 0 m a

/-- A memory with one byte written, in the canonical form. -/
def writeByte (m : Memory) (a : Nat) (b : Byte) : Memory := if b = 0 then smErase m a else smSet m a b

/-- The canonical form: locations rise strictly and no listed byte is zero. -/
def Memory.wf (m : Memory) : Bool := smSorted m && m.all fun p => p.2 != 0

/-- The `n` bytes from a location on. -/
def readBytes (m : Memory) : Nat → Nat → List Byte
  | _, 0 => []
  | a, n + 1 => readByte m a :: readBytes m (a + 1) n

/-- A memory with consecutive bytes written from a location on. -/
def writeBytes (m : Memory) : Nat → List Byte → Memory
  | _, [] => m
  | a, b :: bs => writeBytes (writeByte m a b) (a + 1) bs

/-- A memory whose locations `lo` to `hi - 1` are zero. -/
def clearRange (m : Memory) (lo hi : Nat) : Memory := m.filter fun p => !(lo ≤ p.1 && p.1 < hi)

/-! ### Locations -/

/-- The location of a face byte: face 0 A, 1 W, 2 C, 3 the instruction buffer (R14, R25, R164). -/
def faceLoc (core face off : Nat) : Nat := 2 ^ 40 + core * 2 ^ 23 + face * 2 ^ 21 + off

/-- The extent of a face in bytes (R14). -/
def faceSize (face : Nat) : Nat :=
  if face = 2 then 2 ^ 20 else if face = 3 then 2 ^ 18 else 2 ^ 21

/-- The parity of the ones among the low ten bits of a number. -/
def parity10 (n : Nat) : Nat := (fld n 0 0 + fld n 1 1 + fld n 2 2 + fld n 3 3 + fld n 4 4 + fld n 5 5 + fld n 6 6 + fld n 7 7
  + fld n 8 8 + fld n 9 9) % 2

/-- What the hash mask XORs into the PC field of an address, from the gathered bits (R92). -/
def hashBits (hm : Nat) (soff : Nat) : Nat :=
  let g := fld soff 21 16 * 16 + fld soff 15 13 * 2 + fld soff 6 6
  let b (i : Nat) : Nat := parity10 (Nat.land (fld hm (10 * i + 9) (10 * i)) g) * 2 ^ i
  b 0 + b 1 + b 2 + b 3 + b 4 + b 5

/-- The location of a physical address under the hash mask of its stack (R28, R91, R92): the PC field after hashing. The
mapping is its own inverse, since no selector reads a PC bit. -/
def hashLoc (hm : Nat) (pa : Nat) : Nat :=
  pa / 2 ^ 13 * 2 ^ 13 + Nat.xor (fld pa 12 7) (hashBits hm pa) * 2 ^ 7 + fld pa 6 0

/-- Fields of an HBM location (R28, R91): stack, row, bank, column, PC. -/
def locHs (l : Nat) : Nat := fld l 39 36
@[inherit_doc locHs] def locRow (l : Nat) : Nat := fld l 35 22
@[inherit_doc locHs] def locBank (l : Nat) : Nat := fld l 21 16
@[inherit_doc locHs] def locCol (l : Nat) : Nat := fld l 15 13 * 2 + fld l 6 6
@[inherit_doc locHs] def locPc (l : Nat) : Nat := fld l 12 7

/-- The HBM location of a burst from its fields. -/
def mkLoc (hs row bank col pc : Nat) : Nat :=
  hs * 2 ^ 36 + row * 2 ^ 22 + bank * 2 ^ 16 + col / 2 * 2 ^ 13 + pc * 2 ^ 7 + col % 2 * 2 ^ 6

/-- The index of a bank within its stack. -/
def bankIx (pc bank : Nat) : Nat := pc * 64 + bank

/-! ### Cores, regions, stacks -/

/-- The region of a core (R1). -/
def regionOf (c : Nat) : Nat := c / 96 * 4 + c % 96 / 8 / 3
/-- The cluster of a core (R1). -/
def clusterOf (c : Nat) : Nat := c / 192
/-- The row and column of a core in its stack (R1). -/
def rowOf (c : Nat) : Nat := c % 96 / 8
@[inherit_doc rowOf] def colOf (c : Nat) : Nat := c % 8
/-- The core of a cluster-local index, for a member of that cluster (R26). -/
def coreOfX (cluster x : Nat) : Nat := cluster * 192 + x
/-- The cluster-local index of a core (R26). -/
def xOfCore (c : Nat) : Nat := c % 192
/-- The cube stack of a core. -/
def stackOf (c : Nat) : Nat := c / 96

/-- |a − b|. -/
def dist (a b : Nat) : Nat := (a - b) + (b - a)
/-- Hop count and crossing count between two cores of a cluster (R80). -/
def hops (a b : Nat) : Nat := dist (rowOf a) (rowOf b) + dist (colOf a) (colOf b)
@[inherit_doc hops] def cross (a b : Nat) : Nat := if stackOf a = stackOf b then 0 else 1
/-- h + 6c, the one-way distance of R81 and R84. -/
def leg (a b : Nat) : Nat := hops a b + 6 * cross a b

/-- A core, a region, a stack, by index; one not listed is as after reset. -/
def State.core (s : State) (c : Nat) : Core := smGet {} s.cores c
@[inherit_doc State.core] def State.region (s : State) (r : Nat) : Region := smGet {} s.regions r
@[inherit_doc State.core] def State.hbm (s : State) (h : Nat) : Hbm := smGet {} s.hbms h

/-- The state with a core, a region, a stack replaced. -/
def State.setCore (s : State) (c : Nat) (k : Core) : State := { s with cores := smSet s.cores c k }
@[inherit_doc State.setCore] def State.setRegion (s : State) (r : Nat) (k : Region) : State :=
  { s with regions := smSet s.regions r k }
@[inherit_doc State.setCore] def State.setHbm (s : State) (h : Nat) (k : Hbm) : State := { s with hbms := smSet s.hbms h k }

/-- The state with a core, a region, a stack changed by a function. -/
def State.modCore (s : State) (c : Nat) (f : Core → Core) : State := s.setCore c (f (s.core c))
@[inherit_doc State.modCore] def State.modRegion (s : State) (r : Nat) (f : Region → Region) : State := s.setRegion r (f (s.region r))
@[inherit_doc State.modCore] def State.modHbm (s : State) (h : Nat) (f : Hbm → Hbm) : State := s.setHbm h (f (s.hbm h))

/-- The pseudo-channel and the bank of a stack. -/
def Hbm.pc (h : Hbm) (p : Nat) : Pc := smGet {} h.pcs p
@[inherit_doc Hbm.pc] def Hbm.bank (h : Hbm) (p b : Nat) : Bank := smGet {} h.banks (bankIx p b)
/-- A stack with a pseudo-channel or a bank changed. -/
def Hbm.modPc (h : Hbm) (p : Nat) (f : Pc → Pc) : Hbm := { h with pcs := smSet h.pcs p (f (h.pc p)) }
@[inherit_doc Hbm.modPc] def Hbm.modBank (h : Hbm) (p b : Nat) (f : Bank → Bank) : Hbm :=
  { h with banks := smSet h.banks (bankIx p b) (f (h.bank p b)) }

/-- The thread of a core: its task, or the handler on it. -/
def State.thread (s : State) (c : Nat) (hd : Bool) : Thread :=
  if hd then ((s.core c).handler).getD {} else (s.core c).task

/-- A core with one of its threads changed; a handler that has ended stays ended. -/
def Core.modThread (k : Core) (hd : Bool) (f : Thread → Thread) : Core :=
  if hd then { k with handler := k.handler.map f } else { k with task := f k.task }

/-- The state with a thread of a core changed. -/
def State.modThread (s : State) (c : Nat) (hd : Bool) (f : Thread → Thread) : State :=
  s.modCore c fun k => k.modThread hd f

/-! ### Ticks and time -/

/-- The architectural tick of a thread: TICK = HW − AB (R143); a handler counts its own (R263). -/
def State.tick (s : State) (c : Nat) (hd : Bool) : Nat := ((s.region (regionOf c)).hw - (s.thread c hd).ab).toNat

/-- The relative tick of a task, TICK − TBASE (R145). -/
def State.rel (s : State) (c : Nat) : Word := BitVec.ofNat 64 (s.tick c false) - (s.core c).tbase

/-- The free number of this step, reduced to 0 to n, and the state that has drawn it (log 5). -/
def State.draw (s : State) (n : Nat) : Nat × State := (Config.freeNat s.fresh % (n + 1), { s with fresh := s.fresh + 1 })

/-- A list of timers with one more, after those of the same instant. -/
def insertTimer (t : Nat) (e : Ev) : List (Nat × Ev) → List (Nat × Ev)
  | [] => [(t, e)]
  | x :: xs => if t < x.1 then (t, e) :: x :: xs else x :: insertTimer t e xs

/-- The state with a step due at a later instant. -/
def State.later (s : State) (d : Nat) (e : Ev) : State := { s with timers := insertTimer (s.now + d) e s.timers }

/-- The next publication instant of the alignment network at or after an instant (R147): every 64 periods, 320 units. -/
def nextPublication (t : Nat) : Nat := ceilDiv t 320 * 320

/-! ### Registers -/

/-- A scalar register; s0 reads as zero (R65). -/
def Thread.reg (t : Thread) (n : Nat) : Word := if n = 0 then 0 else smGet 0 t.regs n
/-- A thread with a scalar register written; a write to s0 is discarded (R65). -/
def Thread.setReg (t : Thread) (n : Nat) (v : Word) : Thread := if n = 0 then t else { t with regs := smSet t.regs n v }
/-- A predicate; p0 reads as true (R69). -/
def Thread.pred (t : Thread) (n : Nat) : Bool := n = 0 || t.preds.getLsbD n
/-- A thread with a predicate written; a write to p0 is discarded (R69). -/
def Thread.setPred (t : Thread) (n : Nat) (v : Bool) : Thread :=
  if n = 0 then t
  else { t with preds := if v then t.preds ||| (1#16 <<< n) else t.preds &&& ~~~(1#16 <<< n) }

/-- Row and column of element `e` of a matrix operand, direction in bits 6:5, index in bits 4:0 (R72). -/
def matRow (m e : Nat) : Nat := if m / 32 = 0 then m % 32 else e
@[inherit_doc matRow] def matCol (m e : Nat) : Nat :=
  if m / 32 = 0 then e else if m / 32 = 1 then m % 32
  else if m / 32 = 2 then (e + m % 32) % 32 else (m % 32 + 32 - e) % 32

/-- Word `w` of a vector. -/
def vword (v : Vec) (w : Nat) : HWord := BitVec.ofNat 32 (v.toNat / 2 ^ (32 * w) % 2 ^ 32)

/-- The number made of elements of `b` bits, element 0 lowest (R73). -/
def packNat (b : Nat) : List Nat → Nat
  | [] => 0
  | x :: xs => x % 2 ^ b + 2 ^ b * packNat b xs

/-- Element `e` of width `b` of a vector (R73). -/
def velem (v : Vec) (b e : Nat) : Nat := v.toNat / 2 ^ (b * e) % 2 ^ b

/-- A vector from its elements of `b` bits (R73). -/
def vpack (b : Nat) (xs : List Nat) : Vec := BitVec.ofNat 1024 (packNat b xs)

/-- A matrix operand read whole (R72). -/
def readMat (mrf : SMap HWord) (m : Nat) : Vec :=
  vpack 32 ((List.range 32).map fun e => (smGet 0 mrf (32 * matRow m e + matCol m e)).toNat)

/-- The matrix register file with a whole vector operand written (R72, R74). -/
def writeMat (mrf : SMap HWord) (m : Nat) (v : Vec) : SMap HWord :=
  (List.range 32).foldl (fun f e => smSet f (32 * matRow m e + matCol m e) (vword v e)) mrf

/-- The scale bypass as a vector, and from one (R380). -/
def readBypass (b : SMap HWord) : Vec := vpack 32 ((List.range 32).map fun e => (smGet 0 b e).toNat)
@[inherit_doc readBypass] def writeBypass (v : Vec) : SMap HWord := (List.range 32).foldl (fun f e => smSet f e (vword v e)) []

/-! ### Poison (R131) -/

/-- Whether a line is poisoned. -/
def poisoned (s : State) (line : Nat) : Bool := s.poison.contains line

/-- The lines that `n` bytes from a location on touch. -/
def linesOf (loc n : Nat) : List Nat :=
  (List.range (if n = 0 then 0 else (loc + n - 1) / 64 - loc / 64 + 1)).map (· + loc / 64)

/-- The lowest poisoned line among `n` bytes from a location on. -/
def poisonIn (s : State) (loc n : Nat) : Option Nat :=
  (linesOf loc n).find? (poisoned s)

/-- A sorted list of lines with one more. -/
def insertLine (l : Nat) : List Nat → List Nat
  | [] => [l]
  | x :: xs => if l < x then l :: x :: xs else if l = x then x :: xs else x :: insertLine l xs

/-- The state with the poison bits of the lines that `n` bytes from a location touch set. -/
def setPoison (s : State) (loc n : Nat) : State :=
  { s with poison := (linesOf loc n).foldl (fun p l => insertLine l p) s.poison }

/-- The state with the poison bits of the lines wholly inside `n` bytes from a location cleared. -/
def clearPoison (s : State) (loc n : Nat) : State :=
  { s with poison := s.poison.filter fun l => !(loc ≤ l * 64 && l * 64 + 64 ≤ loc + n) }

/-- A commit to a face: good data clears the poison of lines it writes whole, a poisoned commit sets that of every line it
touches (R131). -/
def commitFace (s : State) (c face off : Nat) (data : List Byte) (bad : Bool) : State :=
  let loc := faceLoc c face off
  let s := { s with mem := writeBytes s.mem loc data }
  if bad then setPoison s loc data.length else clearPoison s loc data.length

/-! ### Pending items and accesses -/

/-- The state with an item added to the agenda of a thread; its number is the thread's next. -/
def State.post (s : State) (c : Nat) (hd : Bool) (p : Pending) : State :=
  s.modThread c hd fun t => { t with agenda := t.agenda ++ [{ p with id := t.nid }], nid := t.nid + 1 }

/-- The state with an access recorded for a thread (R186), under the thread's next number. -/
def State.access (s : State) (c : Nat) (hd : Bool) (o : Outst) : State :=
  s.modThread c hd fun t => { t with outst := t.outst ++ [{ o with id := t.nid }], nid := t.nid + 1 }

/-- A pending item by its number. -/
def Thread.item (t : Thread) (id : Nat) : Option Pending := t.agenda.find? fun p => p.id = id

/-- A thread without an item. -/
def Thread.drop (t : Thread) (id : Nat) : Thread := { t with agenda := t.agenda.filter fun p => p.id != id }

/-- The state in which an access is known to have performed at a tick of its issuer. -/
def State.performed (s : State) (c : Nat) (hd : Bool) (acc tick : Nat) : State :=
  s.modThread c hd fun t => { t with outst := t.outst.map fun o =>
    if o.id = acc ∧ o.done = none then { o with done := some tick, mdone := some tick } else o }

/-- Accesses that have performed by a tick are forgotten. -/
def Thread.prune (t : Thread) (tick : Nat) : Thread :=
  { t with outst := t.outst.filter fun o => match o.mdone, o.done with
      | some m, some d => tick < m || tick ≤ d
      | _, _ => true }

/-! ### Packs -/

/-- The alignment group of a core's task (R200). -/
def Core.group (k : Core) : Nat := wfld k.packid 40 32
/-- A live pack. -/
def State.pack (s : State) (g : Nat) : Option Pack := smFind s.packs g
/-- The state with a pack changed. -/
def State.modPack (s : State) (g : Nat) (f : Pack → Pack) : State :=
  match s.pack g with
  | some p => { s with packs := smSet s.packs g (f p) }
  | none => s

/-- Whether a core's task takes part in its pack: running or ending (R196). -/
def Core.live (k : Core) : Bool := k.stage = .running || k.stage = .ending

/-- The state in which the regions of some cores count their groups of 16 periods as that of the first does. At an alignment event, and when a pack resumes, the members' ticks of equal
value then run alike whatever stretches their regions have taken before (R141, R151, log 139). -/
def rephase (s : State) (cs : List Nat) : State :=
  match (cs.map regionOf).eraseDups with
  | [] => s
  | r :: rs => rs.foldl (fun s q => s.modRegion q fun k => { k with phase := (s.region r).phase }) s

/-- The members of a pack that have not retired. -/
def State.liveMembers (s : State) (p : Pack) : List Nat := p.members.filter fun c => (s.core c).live

/-- Whether two cores hold tasks of one pack. -/
def State.samePack (s : State) (a b : Nat) : Bool :=
  match s.pack (s.core a).group with
  | some p => p.members.contains a && p.members.contains b
  | none => a = b

/-! ### Errors of launches (R212) -/

/-- The state with a launch's completion record changed. -/
def State.modNode (s : State) (inst node : Nat) (f : Node → Node) : State :=
  match smFind s.walker.insts inst with
  | some i =>
    match smFind i.nodes node with
    | some n => { s with walker := { s.walker with insts := smSet s.walker.insts inst { i with nodes := smSet i.nodes node (f n) } } }
    | none => s
  | none => s

/-- An error of a core, at an instant, recorded in a completion record: the count saturates, and the first one stays, that of the lowest core among those of
one tick (R212). -/
def Completion.error (r : Completion) (now core code cause tile : Nat) : Completion :=
  let first : Bool := r.errcnt = 0 || (r.errAt.1 = now && core < r.errAt.2)
  let r := { r with errcnt := min 65535 (r.errcnt + 1) }
  if first then { r with code := code, cause := cause, tile := tile, errAt := (now, core) } else r

/-- The failure of a multicast's beat to its destination `j` noted (R182, R212): the mask is that of the first multicast that failed, of those of one tick that
of the lowest core. -/
def Completion.multicast (r : Completion) (now core cmd j : Nat) : Completion :=
  let mine : Word := BitVec.ofNat 64 (2 ^ j)
  match r.mcOf with
  | none => { r with mcmask := mine, mcOf := some (now, core, cmd) }
  | some (t, c, x) =>
    if c = core && x = cmd then { r with mcmask := r.mcmask ||| mine }
    else if t = now && core < c then { r with mcmask := mine, mcOf := some (now, core, cmd) }
    else r

/-- The state in which an instance owes energy of the present interval (R245). -/
def State.owes (s : State) (inst : Nat) : State := { s with walker := { s.walker with owing := insertLine inst s.walker.owing } }

/-- The state with an error of a core's task recorded in its launch (R132, R182, R212). -/
def State.launchError (s : State) (c code cause : Nat) : State :=
  s.modNode (s.core c).inst (s.core c).node fun n => { n with comp := n.comp.error s.now c code cause (s.core c).ltile }

/-! ### Trace and interrupts -/

/-- A word of the MSI-X table: vector control, bit 32 of the odd words, masks its vector until the host writes it (log 23). -/
def msixWord (p : Psc) (off : Nat) : Word := smGet (if off % 16 = 8 then BitVec.ofNat 64 (2 ^ 32) else 0) p.msix off

/-- Whether an MSI-X vector is masked (log 23). -/
def masked (p : Psc) (v : Nat) : Bool := (msixWord p (0x2008 + 16 * v)).getLsbD 32

/-- The state with a JCAUSE bit set: the write raises the MSI-X vector of its number, which stays pending while it is masked (R188, R492,
log 23). -/
def State.cause (s : State) (b : Nat) : State :=
  { s with psc := { s.psc with
      jcause := Nat.lor s.psc.jcause (2 ^ b),
      pba := if masked s.psc b then s.psc.pba ||| BitVec.ofNat 64 (2 ^ b) else s.psc.pba } }

/-- A trace record of a core's stack (R507): type, core or 511, relative tick, argument; at seven eighths of the ring JCAUSE
bit 3 is set; when full the oldest record goes, or, in stop mode, the new one is dropped and counted. -/
def State.trace (s : State) (stack type core : Nat) (rtick arg : Word) : State :=
  match s.psc.image with
  | some im =>
    if im.traced then
      let t := smGet {} s.traces stack
      let r : List Word := [BitVec.ofNat 64 (type * 2 ^ 58 + core * 2 ^ 49), rtick, BitVec.ofNat 64 (s.now / 180), arg]
      let full : Bool := t.recs.length ≥ 2 ^ 21
      let t := if full && t.stop then { t with dropped := t.dropped + 1 }
        else { t with recs := (if full then t.recs.drop 1 else t.recs) ++ [r] }
      let s := { s with traces := smSet s.traces stack t }
      if t.recs.length = 7 * 2 ^ 18 then s.cause 3 else s
    else s
  | none => s

/-! ### Taking a fault (R248 to R256, R272) -/

/-- The packet of the bundle that a thread issues next (R260, RPC): from the loop buffer once the body is there. -/
def Thread.rpc (t : Thread) : Nat :=
  match t.loop with
  | some l => if l.i = 0 then t.pc else ((l.buffer[l.pos]?).map (·.pc)).getD t.pc
  | none => t.pc

/-- The place of a replay entry: its issue tick and pipe code; none for an item that is no entry (R258). -/
def replayKey (p : Pending) : Option (Nat × Nat) :=
  match p.act with
  | .result rp _ => if rp.org.pipe < 4 then some (rp.org.issued, rp.org.pipe) else none
  | .xret rp _ _ _ _ => if rp.faulted then some (rp.org.issued, rp.org.pipe) else none
  | _ => none

/-- The replay entries of a stopped member in ascending (issue tick, pipe code) (R258). -/
def replays (t : Thread) : List Pending :=
  sortBy (fun a b => match replayKey a, replayKey b with
    | some x, some y => x.1 < y.1 || (x.1 = y.1 && x.2 ≤ y.2)
    | _, _ => true) (t.agenda.filter fun p => (replayKey p).isSome)

/-- The order of commits at the end of a tick (R60, R68). -/
def commitLe (a b : Pending) : Bool :=
  a.rank < b.rank || (a.rank = b.rank && (a.src < b.src || (a.src = b.src && a.ord ≤ b.ord)))

/-- The FAULTINFO registers of a stopped member (R260). -/
def faultInfo (s : State) (c : Nat) (f : Frozen) (z : Freeze) : SMap Word :=
  let k := s.core c
  let r := f.fault.getD {}
  let p := s.pack k.group
  let nsec := (((p.map (·.members)).getD []).filter fun m => (((s.core m).frozen).map (·.second)).getD false).length
  let member (m : Nat) : Nat := wfld (s.core m).packid 7 0
  let w (n : Nat) : Word := BitVec.ofNat 64 n
  [ (0, w (r.incause * 2 ^ 40 + r.incode * 2 ^ 32 + (replays k.task).length * 2 ^ 24 + b2n f.late * 2 ^ 22 + b2n f.second * 2 ^ 21
        + b2n (z.primary = c) * 2 ^ 20 + r.src * 2 ^ 16 + r.cause * 2 ^ 8 + r.code)),
    (1, w f.phi),
    (2, w f.held),
    (3, w (r.fword * 2 ^ 47 + r.fpc * 2 ^ 32 + k.task.rpc)),
    (4, r.addr),
    (5, r.aux),
    (6, w (z.primary * 2 ^ 8 + member z.primary)),
    (7, w (nsec * 2 ^ 16 + ((p.map (·.epoch)).getD 0) % 2 ^ 16)) ]

/-- The FAULTINFO registers of every stopped member of a group, written when a member stops (R260). -/
def fillInfo (s : State) (g : Nat) : State :=
  match s.pack g with
  | some p =>
    match p.freeze with
    | some z => p.members.foldl (fun s c =>
        match (s.core c).frozen with
        | some f => s.modCore c fun k => { k with fi := faultInfo s c f z }
        | none => s) s
    | none => s
  | none => s

/-- A member's own tick of the pack's relative tick. -/
def ownTick (s : State) (c : Nat) (rel : Nat) : Nat := ((s.core c).tbase + BitVec.ofNat 64 rel).toNat

/-- The state in which the reads that copies of other cores still have to make at a stopped core wait at their issuers, for the same relative
tick (R165, log 24). -/
def returnReads (s : State) (c : Nat) : State :=
  let away (p : Pending) : Bool := match p.act with
    | .copyRead i _ _ => i != c
    | _ => false
  let moved := (s.core c).task.agenda.filter away
  let s := s.modCore c fun k => { k with task := { k.task with agenda := k.task.agenda.filter fun p => !away p } }
  moved.foldl (fun s p => match p.act with
    | .copyRead i _ _ => s.post i false { p with tick := ownTick s i ((BitVec.ofNat 64 p.tick - (s.core c).tbase).toNat) }
    | _ => s) s

/-- The banks of an exclusive lease on the base die of a core: stack, PC, bank. -/
def leaseBanks (c : Nat) (e : LeaseEntry) : List (Nat × Nat × Nat) := e.slots.map fun x => (4 * stackOf c + x.1, x.2.1, x.2.2)

/-- The physical bank of a logical one (R135): folded banks stand for their host. -/
def Hbm.phys (h : Hbm) (p b : Nat) : Nat := ((h.bank p b).fold).getD b

/-- The state with a bank of a stack changed. -/
def State.modBank (s : State) (hs pc b : Nat) (f : Bank → Bank) : State := s.modHbm hs fun h => h.modBank pc b f

/-- A bank whose open row the controller has recorded and closed, and one whose recorded row it has opened again (R136). -/
def Bank.close (b : Bank) : Bank := if b.row.isSome then { b with row := none, shut := b.row } else b
@[inherit_doc Bank.close] def Bank.reopen (b : Bank) : Bank := if b.shut.isSome then { b with row := b.shut, shut := none } else b

/-- The physical banks of a core's exclusive lease: those of a FOLD pair are one (R100, R135). -/
def State.leasePhys (s : State) (c : Nat) : List (Nat × Nat × Nat) :=
  ((leaseBanks c (s.core c).lease.entry).map fun b => (b.1, b.2.1, (s.hbm b.1).phys b.2.1 b.2.2)).eraseDups

/-- The state with every bank of a core's exclusive lease changed. -/
def State.modLease (s : State) (c : Nat) (f : Bank → Bank) : State :=
  (s.leasePhys c).foldl (fun s b => s.modBank b.1 b.2.1 b.2.2 f) s

/-- The state in which what the controller has noted of a core counts from a new TBASE, of which `d` is the old one less the new (R104, R118, R145): the
commands presented on the PCs of its lease, the last refreshes of its banks and the ends of their in-memory operations. -/
def rebaseTimers (s : State) (c : Nat) (d : Int) : State :=
  let s := s.modLease c fun b => { b with ref := b.ref + d, busy := b.busy + d }
  (((leaseBanks c (s.core c).lease.entry).map fun b => (b.1, b.2.1)).eraseDups).foldl (fun s q =>
    s.modHbm q.1 fun h => h.modPc q.2 fun x =>
      { x with hist := x.hist.map fun p => if p.core = c then { p with stamp := p.stamp + d } else p }) s

/-- The count of a core's region at which what waits for a tick of its task arrives there: a freeze delays the tick, not the
arrival. -/
def arrival (k : Core) (t : Nat) : Nat :=
  match k.frozen with
  | some f => f.hw + t - f.held
  | none => (BitVec.ofNat 64 t + k.task.ab).toNat

/-- Whether an item is an effect of a command that the HBM has performed: a write burst on its way to the bank, an in-memory operation. -/
def isBankEffect (p : Pending) : Bool :=
  match p.act with
  | .visible _ _ _ => true
  | .memop _ _ _ _ => true
  | _ => false

/-- The state in which what the HBM has taken from a core goes on by the count of its region, whatever becomes of the core's tick (R136, R253). -/
def freeEffects (s : State) (c : Nat) : State :=
  s.modCore c fun k =>
    { k with arriving := k.arriving ++ (k.task.agenda.filter isBankEffect).map fun p => { p with tick := arrival k p.tick - 1, phase := 1, acc := none },
             task := { k.task with agenda := k.task.agenda.filter fun p => !isBankEffect p } }

/-- The packets of the bundle that a thread fetches next, by the chain bits in the instruction buffer (R278). -/
def nextPackets (s : State) (c : Nat) (th : Thread) : Nat :=
  let chain (n : Nat) : Bool := (readByte s.mem (faceLoc c 3 (12 * th.pc + 4 * n + 3))).getLsbD 7
  if !(chain 0 && chain 1 && chain 2) then 1 else if !(chain 3 && chain 4 && chain 5) then 2 else 3

/-- The tick at which the next bundle of a task is due (R281, R282). -/
def dueTick (s : State) (c : Nat) : Nat :=
  let th := (s.core c).task
  if th.seq then th.next + nextPackets s c th - 1 else th.next

/-- A member stops at a tick of its own (R248, R251): nothing of it advances, but for what the HBM has taken, and its banks are closed (R136); when every live member has stopped, the kennel
dispatch is due (R262). DEDUCED (log 124): Φ stands in a member's own ticks, FTICK with it (R260). -/
def stopMember (s : State) (c held : Nat) (fault : Option FaultRec) (second late : Bool) : State :=
  let g := (s.core c).group
  match s.pack g with
  | none => s
  | some p =>
    match p.freeze with
    | none => s
    | some z =>
      let f : Frozen := { held := held, hw := (s.region (regionOf c)).hw.toNat, due := dueTick s c, phi := ownTick s c z.phi, fault := fault, second := second, late := late }
      let s := (freeEffects (returnReads s c) c).modLease c Bank.close
      let s := fillInfo (s.modCore c fun k => { k with frozen := some f }) g
      if (s.liveMembers p).all (fun m => (s.core m).frozen.isSome) then s.later 0 (.kennelDispatch g) else s

/-- The state in which the frozen tick of a pack has moved down to that of a new primary fault (R256): its members count from it, and those with a fault of
their own are SECOND. -/
def moveFreeze (s : State) (p : Pack) (rel : Nat) : State :=
  p.members.foldl (fun s m => s.modCore m fun k => { k with frozen := k.frozen.map fun f =>
    { f with phi := ownTick s m rel, second := f.second || f.fault.isSome } }) s

/-- A fault of a task, detected at tick `t` of its core: the member stops at `t`; the first one of its pack begins the freeze
and sends the notice, which takes four network periods, 20 units (R248, R251); a later one is SECOND, and the pack's primary
fault is the one with the least relative tick, then the lowest core (R256). -/
def freezeAt (s : State) (c t : Nat) (r : FaultRec) : State :=
  let k := s.core c
  if k.frozen.isSome then s else
  let g := k.group
  let rel := (BitVec.ofNat 64 t - k.tbase).toNat
  let s := s.trace (stackOf c) 4 c (BitVec.ofNat 64 rel) (BitVec.ofNat 64 (r.code * 256 + r.cause))
  match s.pack g with
  | none => s
  | some p =>
    match p.freeze with
    | none =>
      let s := s.modPack g fun p => { p with freeze := some { phi := rel, primary := c, wall := s.now }, epoch := p.epoch + 1 }
      let s := (p.members.filter fun m => !(s.core m).live).foldl (fun s m => s.modLease m Bank.close) s
      let s := if (s.liveMembers p).length > 1 then s.later 20 (.freezeNoticeArrive g) else s
      stopMember s c t (some r) false false
    | some z =>
      let first : Bool := rel < z.phi || (rel = z.phi && c < z.primary)
      if first then
        stopMember (moveFreeze (s.modPack g fun p => { p with freeze := some { z with phi := rel, primary := c } }) p rel) c t (some r) false false
      else stopMember s c t (some r) true false

/-- The state in which the handler on a core has ended and its context is free: the first pack waiting for one is served within 2 µs
(R262, R264). -/
def endHandler (s : State) (c : Nat) : State :=
  if (s.core c).handler.isNone then s
  else
    let s := s.modCore c fun k => { k with handler := none, leash := [] }
    let s := s.modRegion (regionOf c) fun r => { r with ctxs := r.ctxs.filter fun x => x.2 ≠ c }
    match (s.region (regionOf c)).waiters with
    | [] => s
    | w :: _ => s.later 0 (.kennelDispatch w.2.2)

/-- A fault in the handler on a core (R272): the handler stops and its context is freed; the primary member's FAULTINFO0
records NEST with the inner code and cause, a trace record of type 4 notes it (R507), and the firmware is left with the frozen pack. -/
def nest (s : State) (c : Nat) (r : FaultRec) : State :=
  let g := (s.core c).hpack
  let s := s.trace (stackOf c) 4 c (s.rel c) (BitVec.ofNat 64 (15 * 256 + r.code))
  let s := endHandler s c
  match (s.pack g).bind (·.freeze) with
  | some z =>
    let s := s.modCore z.primary fun k => { k with frozen := k.frozen.map fun f =>
      { f with fault := some { (f.fault.getD {}) with code := 15, cause := r.code, incode := r.code, incause := r.cause } } }
    fillInfo s g
  | none => s

/-- A fault of a thread at tick `t` of it: the one operation by which every fault of the spec is taken. -/
def takeFault (s : State) (c : Nat) (hd : Bool) (t : Nat) (r : FaultRec) : State :=
  if hd then nest s c r else freezeAt s c t r

/-- The fault of the word being issued: recorded with its packet, position and pipe (R260), and taken at its issue tick. -/
def raise (s : State) (pipe code cause : Nat) (addr aux : Word := 0) : State :=
  let r : FaultRec := { code := code, cause := cause, src := pipe, fpc := s.cur.pc + s.cur.pos / 3, fword := s.cur.pos % 3,
                        addr := addr, aux := aux }
  let s' := takeFault s s.cur.core s.cur.hd (s.tick s.cur.core s.cur.hd) r
  { s' with cur := { s'.cur with raised := some r } }

/-- A fault of an engine command or an operation in flight at tick `t`: FPC and FWORD name the word that issued it (R250). -/
def faultOf (o : Origin) (src code cause : Nat) (addr aux : Word := 0) : FaultRec :=
  { code := code, cause := cause, src := src, fpc := o.pc + o.pos / 3, fword := o.pos % 3, addr := addr, aux := aux }

/-! ### Address translation (R28 to R36) -/

/-- The page size of an entry in bytes (R29, R31). -/
def Tlb.pageSize (e : Tlb) : Nat :=
  if wfld e.w0 12 11 = 0 then 2 ^ 13 else if wfld e.w0 12 11 = 1 then 2 ^ 21 else 2 ^ 30

/-- Whether a valid entry covers a virtual address (R34). -/
def Tlb.covers (e : Tlb) (va : Nat) : Bool :=
  wfld e.w0 10 10 = 1 && wfld e.w0 47 13 * 2 ^ 13 ≤ va && va < wfld e.w0 47 13 * 2 ^ 13 + e.pageSize

/-- The physical address of a virtual address under an entry (R34). -/
def Tlb.phys (e : Tlb) (va : Nat) : Nat := wfld e.w1 39 13 * 2 ^ 13 + va % e.pageSize

/-- The outcome of a translation: a physical address, or the XLATE cause (R36). -/
inductive Xlat where
  | ok (pa : Nat) (sealed : Bool)
  | bad (cause : Nat)
deriving DecidableEq, Repr

/-- Translation of a G address for an access that needs the given permissions, bits of word 0 (R17, R28, R34): RD 512, WR 256,
AT 128. -/
def translate (tlb : SMap Tlb) (va : Word) (perm : Nat) : Xlat :=
  if wfld va 63 48 ≠ 0 then .bad 2
  else
    match tlb.find? fun e => e.2.covers va.toNat with
    | none => .bad 0
    | some e => if Nat.land e.2.w0.toNat perm = perm then .ok (e.2.phys va.toNat) (wfld e.2.w0 6 6 = 1) else .bad 1

/-- The HBM location of a physical address under the hash mask of its stack. -/
def State.loc (s : State) (pa : Nat) : Nat := hashLoc (s.hbm (pa / 2 ^ 36 % 16)).hmask.toNat pa

/-- Whether a physical range meets a sealed graph object (R216). -/
def inSealedGraph (s : State) (pa n : Nat) : Bool :=
  s.walker.sealedT.any fun r => r.base < pa + n && pa < r.base + r.len

/-- Whether a physical byte lies in a range that the running job has sealed (R33, R57). -/
def inSealedRange (s : State) (pa : Nat) : Bool :=
  match s.psc.image with
  | some im => im.sealed && im.ranges.any fun r => r.1 ≤ pa && pa < r.1 + r.2
  | none => false

/-- One 64 B line as the pipeline of its stack reads it: deciphered in a sealed range (R502). -/
def readLine (s : State) (loc : Nat) : List Byte :=
  let pa := s.loc loc
  let raw := readBytes s.mem loc 64
  if inSealedRange s pa then
    leBytes 64 (Config.xtsDecrypt (((s.psc.image.map (·.keys))).getD []) (pa / 64) (leNat raw))
  else raw

/-- The state with one 64 B line written through the pipeline of its stack: enciphered in a sealed range (R502). -/
def writeLine (s : State) (loc : Nat) (data : List Byte) : State :=
  let pa := s.loc loc
  let raw := if inSealedRange s pa then
      leBytes 64 (Config.xtsEncrypt (((s.psc.image.map (·.keys))).getD []) (pa / 64) (leNat data))
    else data
  { s with mem := writeBytes s.mem loc raw }

/-- Bytes of the physical address space from an address on, each in the line of its location (R28, R91). -/
def readPhys (s : State) (pa n : Nat) : List Byte :=
  (List.range n).map fun i =>
    let a := pa + i
    (readLine s (s.loc (a / 64 * 64))).getD (a % 64) 0

/-- A 64-bit word of the physical address space, at an aligned address. -/
def readPhys64 (s : State) (pa : Nat) : Word :=
  BitVec.ofNat 64 (leNat (((readLine s (s.loc (pa / 64 * 64))).drop (pa % 64)).take 8))

/-- The state with one byte of the physical address space written. -/
def writePhysByte (s : State) (pa : Nat) (b : Byte) : State :=
  let l := s.loc (pa / 64 * 64)
  let line := readLine s l
  writeLine s l (line.take (pa % 64) ++ [b] ++ line.drop (pa % 64 + 1))

/-- The state with consecutive bytes of the physical address space written. -/
def writePhys (s : State) : Nat → List Byte → State
  | _, [] => s
  | pa, b :: bs => writePhys (writePhysByte s pa b) (pa + 1) bs

/-- The graph walker readies nothing of the running job without an image: whether a job runs (R491). -/
def State.jobRuns (s : State) : Bool := s.psc.jstate = 1 || s.psc.jstate = 2

end Sys2Proof.Machine
end

