-- ==== Sys2Proof/Machine/Flags.lean ====
section
/-!
DEFINITION. Number formats, rounding, and every flag computation (R307 to R331): exact values, Round, the arithmetic helpers,
ToInt, Exp2, the quantiser, and the flags they raise.
-/
namespace Sys2Proof.Machine

/-- Flag bits (R318): INVALID 1, DIVZERO 2, OVERFLOW 4, UNDERFLOW 8, INEXACT 16; QSAT 32 and QNAN 64 of the quantiser. -/
def fINVALID : Nat := 1
@[inherit_doc fINVALID] def fDIVZERO : Nat := 2
@[inherit_doc fINVALID] def fOVERFLOW : Nat := 4
@[inherit_doc fINVALID] def fUNDERFLOW : Nat := 8
@[inherit_doc fINVALID] def fINEXACT : Nat := 16
@[inherit_doc fINVALID] def fQSAT : Nat := 32
@[inherit_doc fINVALID] def fQNAN : Nat := 64

/-- How a format treats its top codes (R307, R309): infinities and NaNs; E4M3; FP4. -/
inductive Style where
  | ieee
  | e4m3
  | fp4
deriving DecidableEq, Repr

/-- A floating-point format (R307): width, exponent bits, mantissa bits, bias. -/
structure Fmt where
  w     : Nat
  eb    : Nat
  mb    : Nat
  bias  : Nat
  style : Style
deriving DecidableEq, Repr

/-- The formats of R307. -/
def FP64 : Fmt := ⟨64, 11, 52, 1023, .ieee⟩
@[inherit_doc FP64] def FP32 : Fmt := ⟨32, 8, 23, 127, .ieee⟩
@[inherit_doc FP64] def BF16 : Fmt := ⟨16, 8, 7, 127, .ieee⟩
@[inherit_doc FP64] def FP16 : Fmt := ⟨16, 5, 10, 15, .ieee⟩
@[inherit_doc FP64] def E5M2 : Fmt := ⟨8, 5, 2, 15, .ieee⟩
@[inherit_doc FP64] def E4M3 : Fmt := ⟨8, 4, 3, 7, .e4m3⟩
@[inherit_doc FP64] def FP4 : Fmt := ⟨4, 2, 1, 1, .fp4⟩

/-- An exact value (R317): a NaN keeps whether its code was signalling; a finite value is (m + d) × 2^e with 0 < d < 1 when
`sticky`, d = 0 otherwise. -/
inductive Fl where
  | nan (sig : Bool)
  | inf (neg : Bool)
  | zero (neg : Bool)
  | fin (neg : Bool) (m : Nat) (e : Int) (sticky : Bool)
deriving DecidableEq, Repr

/-- The canonical NaN of a format (R308); FP4 has none and gives +0 (R309). -/
def canonNaN (f : Fmt) : Nat :=
  match f.style with
  | .ieee => (2 ^ f.eb - 1) * 2 ^ f.mb + 2 ^ (f.mb - 1)
  | .e4m3 => 0x7F
  | .fp4 => 0

/-- The largest finite code of a format, without its sign (R307). -/
def maxCode (f : Fmt) : Nat :=
  match f.style with
  | .ieee => (2 ^ f.eb - 1) * 2 ^ f.mb - 1
  | .e4m3 => 0x7E
  | .fp4 => 7

/-- A code with its sign bit. -/
def signed (f : Fmt) (neg : Bool) (code : Nat) : Nat := code + b2n neg * 2 ^ (f.w - 1)

/-- The code of an infinity; the largest finite code where the format has none (R309). -/
def infCode (f : Fmt) : Nat :=
  match f.style with
  | .ieee => (2 ^ f.eb - 1) * 2 ^ f.mb
  | _ => maxCode f

/-- The value of a code (Decode, R307, R317). -/
def decodeF (f : Fmt) (bits : Nat) : Fl :=
  let neg : Bool := bits / 2 ^ (f.w - 1) % 2 = 1
  let m := bits % 2 ^ f.mb
  let e := bits / 2 ^ f.mb % 2 ^ f.eb
  let top : Bool := e = 2 ^ f.eb - 1
  if f.style = .ieee && top then
    if m = 0 then .inf neg else .nan (f.w ≠ 8 && m < 2 ^ (f.mb - 1))
  else if f.style = .e4m3 && top && m = 7 then .nan false
  else if e = 0 then
    if m = 0 then .zero neg else .fin neg m (1 - (f.bias : Int) - f.mb) false
  else .fin neg (2 ^ f.mb + m) ((e : Int) - f.bias - f.mb) false

/-- Whether a discarded part rounds the magnitude up (R313): mode, sign, whether the kept part is odd, the order of the
discarded part against a half (0 below, 1 equal, 2 above), whether anything is discarded. -/
def roundUp (rm : Nat) (neg odd : Bool) (half : Nat) (any : Bool) : Bool :=
  if rm = 0 then half = 2 || (half = 1 && odd)
  else if rm = 1 then false
  else if rm = 2 then any && neg
  else any && !neg

/-- A magnitude (m + d) × 2^e on the grid of 2^q: the rounded count of grid steps and whether it is inexact. -/
def onGrid (rm : Nat) (neg : Bool) (m : Nat) (e q : Int) (sticky : Bool) : Nat × Bool :=
  if q ≤ e then (m * 2 ^ (e - q).toNat, sticky)
  else
    let k := (q - e).toNat
    let r := m / 2 ^ k
    let d := m % 2 ^ k
    let h := 2 ^ (k - 1)
    let half := if d < h then 0 else if d = h && !sticky then 1 else 2
    let any : Bool := d ≠ 0 || sticky
    (r + b2n (roundUp rm neg (r % 2 = 1) half any), any)

/-- The value that an overflow gives (R309, R313). -/
def overflowCode (f : Fmt) (rm : Nat) (neg : Bool) : Nat :=
  let big : Bool := match f.style with
    | .ieee => rm = 0 || (rm = 2 && neg) || (rm = 3 && !neg)
    | _ => false
  signed f neg (if big then infCode f else maxCode f)

/-- A finite non-zero value rounded to a format with the flags it raises (R313). A zero result takes the sign `zneg`. -/
def roundFin (f : Fmt) (rm : Nat) (neg : Bool) (m : Nat) (e : Int) (sticky zneg : Bool) : Nat × Nat :=
  let lead : Int := (Nat.log2 m : Int) + e
  let emin : Int := 1 - (f.bias : Int)
  let q : Int := max lead emin - f.mb
  let (r, inexact) := onGrid rm neg m e q sticky
  let (r, q) := if r = 2 ^ (f.mb + 1) then (2 ^ f.mb, q + 1) else (r, q)
  let code := if r < 2 ^ f.mb then r else (q + f.mb + f.bias).toNat * 2 ^ f.mb + (r - 2 ^ f.mb)
  if code > maxCode f then (overflowCode f rm neg, fOVERFLOW + fINEXACT)
  else
    let fl := (if inexact then fINEXACT else 0) + (if inexact && lead < emin then fUNDERFLOW else 0)
    if code = 0 then ((if f.style = .fp4 then 0 else signed f zneg 0), fl) else (signed f neg code, fl)

/-- Round (R313). -/
def roundF (f : Fmt) (x : Fl) (rm : Nat) : Nat × Nat :=
  match x with
  | .nan sig => (canonNaN f, if sig then fINVALID else 0)
  | .inf neg => if f.style = .ieee then (signed f neg (infCode f), 0) else (signed f neg (maxCode f), fOVERFLOW + fINEXACT)
  | .zero neg => (if f.style = .fp4 then 0 else signed f neg 0, 0)
  | .fin neg m e sticky => roundFin f rm neg m e sticky neg

/-- Round of a sum: a result of zero from a non-zero sum takes the sign of R314. -/
def roundSum (f : Fmt) (x : Fl) (rm : Nat) : Nat × Nat :=
  match x with
  | .fin neg m e sticky => roundFin f rm neg m e sticky (rm = 2)
  | _ => roundF f x rm

/-- Whether a value is a NaN, and a signalling one. -/
def Fl.isNaN : Fl → Bool
  | .nan _ => true
  | _ => false
@[inherit_doc Fl.isNaN] def Fl.isSig : Fl → Bool
  | .nan s => s
  | _ => false

/-- A NaN for an invalid operation, and its flag (R314). -/
def invalidFl : Fl × Nat := (.nan false, fINVALID)

/-- The NaN that operands with a NaN among them give (R314). -/
def nanOf (xs : List Fl) : Fl × Nat := (.nan false, if xs.any Fl.isSig then fINVALID else 0)

/-- The exact product (R314). -/
def mulFl (x y : Fl) : Fl × Nat :=
  match x, y with
  | .nan s, z => nanOf [.nan s, z]
  | z, .nan s => nanOf [z, .nan s]
  | .inf _, .zero _ => invalidFl
  | .zero _, .inf _ => invalidFl
  | .inf a, .inf b => (.inf (a != b), 0)
  | .inf a, .fin b _ _ _ => (.inf (a != b), 0)
  | .fin a _ _ _, .inf b => (.inf (a != b), 0)
  | .zero a, .zero b => (.zero (a != b), 0)
  | .zero a, .fin b _ _ _ => (.zero (a != b), 0)
  | .fin a _ _ _, .zero b => (.zero (a != b), 0)
  | .fin a m e _, .fin b n g _ => (.fin (a != b) (m * n) (e + g) false, 0)

/-- The negation of a value. -/
def Fl.negate : Fl → Fl
  | .nan s => .nan s
  | .inf n => .inf (!n)
  | .zero n => .zero (!n)
  | .fin n m e s => .fin (!n) m e s

/-- A finite value in units of 2^u, as an integer; exact when u is at most its exponent. -/
def units (neg : Bool) (m : Nat) (e u : Int) : Int :=
  let v : Int := m * 2 ^ (e - u).toNat
  if neg then -v else v

/-- The exact sum (R314): a zero sum has the sign of the mode, or that of two zeros of one sign. -/
def addFl (x y : Fl) (rm : Nat) : Fl × Nat :=
  match x, y with
  | .nan s, z => nanOf [.nan s, z]
  | z, .nan s => nanOf [z, .nan s]
  | .inf a, .inf b => if a = b then (.inf a, 0) else invalidFl
  | .inf a, _ => (.inf a, 0)
  | _, .inf b => (.inf b, 0)
  | .zero a, .zero b => (.zero (if a = b then a else rm = 2), 0)
  | .zero _, z => (z, 0)
  | z, .zero _ => (z, 0)
  | .fin a m e _, .fin b n g _ =>
    let u := min e g
    let v := units a m e u + units b n g u
    (if v = 0 then .zero (rm = 2) else .fin (v < 0) v.natAbs u false, 0)

/-- FAdd, FSub, FMul, FFma (R314, R317), on codes. -/
def fAdd (f : Fmt) (a b rm : Nat) : Nat × Nat :=
  let (x, fl) := addFl (decodeF f a) (decodeF f b) rm
  let (r, g) := roundSum f x rm
  (r, Nat.lor fl g)
@[inherit_doc fAdd] def fSub (f : Fmt) (a b rm : Nat) : Nat × Nat :=
  let (x, fl) := addFl (decodeF f a) (decodeF f b).negate rm
  let (r, g) := roundSum f x rm
  (r, Nat.lor fl g)
@[inherit_doc fAdd] def fMul (f : Fmt) (a b rm : Nat) : Nat × Nat :=
  let (x, fl) := mulFl (decodeF f a) (decodeF f b)
  let (r, g) := roundF f x rm
  (r, Nat.lor fl g)

/-- a × b + c rounded once, on exact values (R314): a NaN operand decides first. -/
def fmaFl (f : Fmt) (x y z : Fl) (rm : Nat) : Nat × Nat :=
  if x.isNaN || y.isNaN || z.isNaN then (canonNaN f, (nanOf [x, y, z]).2)
  else
    let (p, fl) := mulFl x y
    if p.isNaN then (canonNaN f, fl)
    else
      let (v, fl2) := addFl p z rm
      let (r, g) := roundSum f v rm
      (r, Nat.lor fl2 g)

@[inherit_doc fAdd] def fFma (f : Fmt) (a b c rm : Nat) : Nat × Nat := fmaFl f (decodeF f a) (decodeF f b) (decodeF f c) rm

/-- The exact quotient of two positive integers times 2^e, kept to `p` bits and a sticky rest. -/
def ratFl (neg : Bool) (num den : Nat) (e : Int) (p : Nat) : Fl :=
  let k := p + 4 + Nat.log2 den
  let q := num * 2 ^ k / den
  .fin neg q (e - k) (num * 2 ^ k % den ≠ 0)

/-- The exact quotient (R314). -/
def divFl (f : Fmt) (x y : Fl) : Fl × Nat :=
  match x, y with
  | .nan s, z => nanOf [.nan s, z]
  | z, .nan s => nanOf [z, .nan s]
  | .inf _, .inf _ => invalidFl
  | .inf a, .zero b => (.inf (a != b), 0)
  | .inf a, .fin b _ _ _ => (.inf (a != b), 0)
  | .zero _, .zero _ => invalidFl
  | .zero a, .inf b => (.zero (a != b), 0)
  | .zero a, .fin b _ _ _ => (.zero (a != b), 0)
  | .fin a _ _ _, .inf b => (.zero (a != b), 0)
  | .fin a _ _ _, .zero b => (.inf (a != b), fDIVZERO)
  | .fin a m e _, .fin b n g _ => (ratFl (a != b) m n (e - g) f.mb, 0)

@[inherit_doc fAdd] def fDiv (f : Fmt) (a b rm : Nat) : Nat × Nat :=
  let (x, fl) := divFl f (decodeF f a) (decodeF f b)
  let (r, g) := roundF f x rm
  (r, Nat.lor fl g)

/-- The integer square root, from bit `k - 1` of the root down. -/
def isqrtFrom (n : Nat) : Nat → Nat → Nat
  | 0, r => r
  | k + 1, r => isqrtFrom n k (if (r + 2 ^ k) * (r + 2 ^ k) ≤ n then r + 2 ^ k else r)

/-- The integer square root. -/
def isqrt (n : Nat) : Nat := isqrtFrom n (Nat.log2 n / 2 + 1) 0

/-- The exact square root (R314). -/
def sqrtFl (f : Fmt) (x : Fl) : Fl × Nat :=
  match x with
  | .nan s => nanOf [.nan s]
  | .zero n => (.zero n, 0)
  | .inf true => invalidFl
  | .inf false => (.inf false, 0)
  | .fin true _ _ _ => invalidFl
  | .fin false m e _ =>
    let k := 2 * (f.mb + 4) + (e % 2).toNat
    let n := m * 2 ^ k
    let r := isqrt n
    (.fin false r ((e - k) / 2) (r * r ≠ n), 0)

@[inherit_doc fAdd] def fSqrt (f : Fmt) (a rm : Nat) : Nat × Nat :=
  let (x, fl) := sqrtFl f (decodeF f a)
  let (r, g) := roundF f x rm
  (r, Nat.lor fl g)

/-- The exact reciprocal square root (R368). -/
def rsqFl (f : Fmt) (x : Fl) : Fl × Nat :=
  match x with
  | .nan s => nanOf [.nan s]
  | .zero n => (.inf n, fDIVZERO)
  | .inf true => invalidFl
  | .inf false => (.zero false, 0)
  | .fin true _ _ _ => invalidFl
  | .fin false m e _ =>
    let k := 2 * (f.mb + 4) + 2 * (Nat.log2 m / 2 + 1) + (e % 2).toNat
    let r := isqrt (2 ^ k / m)
    (.fin false r ((-e - k) / 2) (r * r * m ≠ 2 ^ k), 0)

/-- VRCP and VRSQ of a lane (R368). -/
def fRcp (f : Fmt) (a rm : Nat) : Nat × Nat :=
  let (x, fl) := divFl f (.fin false 1 0 false) (decodeF f a)
  let (r, g) := roundF f x rm
  (r, Nat.lor fl g)
@[inherit_doc fRcp] def fRsq (f : Fmt) (a rm : Nat) : Nat × Nat :=
  let (x, fl) := rsqFl f (decodeF f a)
  let (r, g) := roundF f x rm
  (r, Nat.lor fl g)

/-- The sign of x − y for values that are not NaN: −1, 0 or 1; zeros are equal. -/
def cmpFl (x y : Fl) : Int :=
  let side (z : Fl) : Int := match z with
    | .inf true => -2
    | .fin true _ _ _ => -1
    | .fin false _ _ _ => 1
    | .inf false => 2
    | _ => 0
  match x, y with
  | .fin a m e _, .fin b n g _ =>
    let u := min e g
    (units a m e u - units b n g u).sign
  | _, _ => (side x - side y).sign

/-- FMax and FMin (R315). -/
def fMax (f : Fmt) (a b : Nat) : Nat × Nat :=
  let x := decodeF f a
  let y := decodeF f b
  if x.isNaN || y.isNaN then (canonNaN f, (nanOf [x, y]).2)
  else if cmpFl x y = 0 then (if x = .zero true then b else a, 0)
  else (if cmpFl x y = 1 then a else b, 0)
@[inherit_doc fMax] def fMin (f : Fmt) (a b : Nat) : Nat × Nat :=
  let x := decodeF f a
  let y := decodeF f b
  if x.isNaN || y.isNaN then (canonNaN f, (nanOf [x, y]).2)
  else if cmpFl x y = 0 then (if x = .zero true then a else b, 0)
  else (if cmpFl x y = 1 then b else a, 0)

/-- The FP compares (R345, R365): test 0 equal, 1 less, 2 less or equal. -/
def fCmp (f : Fmt) (test a b : Nat) : Bool × Nat :=
  let x := decodeF f a
  let y := decodeF f b
  if x.isNaN || y.isNaN then
    (false, if test = 0 then (nanOf [x, y]).2 else fINVALID)
  else (if test = 0 then cmpFl x y = 0 else if test = 1 then cmpFl x y = -1 else cmpFl x y ≠ 1, 0)

/-- The value of an integer as an exact value. -/
def intFl (v : Int) : Fl := if v = 0 then .zero false else .fin (v < 0) v.natAbs 0 false

/-- The value of `w` bits as a two's-complement integer. -/
def sint (w n : Nat) : Int := if n % 2 ^ w < 2 ^ (w - 1) then ((n % 2 ^ w : Nat) : Int) else ((n % 2 ^ w : Nat) : Int) - 2 ^ w

/-- The `w` low bits of an integer. -/
def bitsOf (w : Nat) (v : Int) : Nat := (v % 2 ^ w).toNat

/-- IntDecode (R312, R317, R321): the reserved code reads as ISUB selects. -/
def intDecode (bits w : Nat) (uns : Bool) (isub : Nat) : Int :=
  if uns then ((bits % 2 ^ w : Nat) : Int)
  else if bits % 2 ^ w = 2 ^ (w - 1) then
    (if isub = 0 then -(2 ^ (w - 1)) else if isub = 1 then -(2 ^ (w - 1) - 1) else 0)
  else sint w bits

/-- IntRange (R317). -/
def intRange (w : Nat) (uns : Bool) (isub : Nat) : Int × Int :=
  if uns then (0, 2 ^ w - 1)
  else if isub = 0 then (-(2 ^ (w - 1)), 2 ^ (w - 1) - 1)
  else (-(2 ^ (w - 1) - 1), 2 ^ (w - 1) - 1)

/-- A value rounded to an integer under a mode, and whether rounding changed it. -/
def toIntegral (rm : Nat) (neg : Bool) (m : Nat) (e : Int) (sticky : Bool) : Int × Bool :=
  let (r, inexact) := onGrid rm neg m e 0 sticky
  (if neg then -(r : Int) else r, inexact)

/-- ToInt (R316). -/
def toInt (x : Fl) (w : Nat) (uns : Bool) (isub rm : Nat) : Int × Nat :=
  let (lo, hi) := intRange w uns isub
  match x with
  | .nan _ => (0, fINVALID)
  | .zero _ => (0, 0)
  | .inf neg => (if neg then lo else hi, fINVALID)
  | .fin neg m e sticky =>
    let (v, inexact) := toIntegral rm neg m e sticky
    if v < lo then (lo, fINVALID) else if v > hi then (hi, fINVALID) else (v, if inexact then fINEXACT else 0)

/-- Round of a value to its own format's integral values (R375, code 30). -/
def roundIntegral (f : Fmt) (a rm : Nat) : Nat × Nat :=
  match decodeF f a with
  | .nan s => (canonNaN f, if s then fINVALID else 0)
  | .fin neg m e s =>
    let (v, inexact) := toIntegral rm neg m e s
    let x : Fl := if v = 0 then .zero neg else intFl v
    ((roundF f x 0).1, if inexact then fINEXACT else 0)
  | _ => (a, 0)

/-! ### Exp2 (R326, R327) -/

/-- The table T of R327: the FP32 value nearest to 2^(i / 64). -/
def exp2Table : List Nat :=
  [0x3F800000, 0x3F8164D2, 0x3F82CD87, 0x3F843A29, 0x3F85AAC3, 0x3F871F62, 0x3F88980F, 0x3F8A14D5,
   0x3F8B95C2, 0x3F8D1ADF, 0x3F8EA43A, 0x3F9031DC, 0x3F91C3D3, 0x3F935A2B, 0x3F94F4F0, 0x3F96942D] ++
  [0x3F9837F0, 0x3F99E046, 0x3F9B8D3A, 0x3F9D3EDA, 0x3F9EF532, 0x3FA0B051, 0x3FA27043, 0x3FA43516,
   0x3FA5FED7, 0x3FA7CD94, 0x3FA9A15B, 0x3FAB7A3A, 0x3FAD583F, 0x3FAF3B79, 0x3FB123F6, 0x3FB311C4] ++
  [0x3FB504F3, 0x3FB6FD92, 0x3FB8FBAF, 0x3FBAFF5B, 0x3FBD08A4, 0x3FBF179A, 0x3FC12C4D, 0x3FC346CD,
   0x3FC5672A, 0x3FC78D75, 0x3FC9B9BE, 0x3FCBEC15, 0x3FCE248C, 0x3FD06334, 0x3FD2A81E, 0x3FD4F35B] ++
  [0x3FD744FD, 0x3FD99D16, 0x3FDBFBB8, 0x3FDE60F5, 0x3FE0CCDF, 0x3FE33F89, 0x3FE5B907, 0x3FE8396A,
   0x3FEAC0C7, 0x3FED4F30, 0x3FEFE4BA, 0x3FF28177, 0x3FF5257D, 0x3FF7D0DF, 0x3FFA83B3, 0x3FFD3E0C]

/-- Exp2 of a finite value (R326): x = v × 2^−149 with v an integer, −150 ≤ x < 128. DESIGN CHOICE (log 136): r goes to the fused operations as the exact real
f − i/64, also for −2^−7 < x < 0, where it may be no FP32 value. -/
def exp2Fin (v : Int) : Nat × Nat :=
  let n := v / 2 ^ 149
  let f := (v % 2 ^ 149).toNat
  let i := f / 2 ^ 143
  let r := f % 2 ^ 143
  let rf : Fl := if r = 0 then .zero false else .fin false r (-149) false
  let step (p : Nat) (c : Nat) : Nat := (fmaFl FP32 (decodeF FP32 p) rf (decodeF FP32 c) 0).1
  let q := step (step (step 0x3D635847 0x3E75FDF0) 0x3F317218) 0x3F800000
  let y := (fMul FP32 (exp2Table.getD i 0) q 0).1
  match decodeF FP32 y with
  | .fin s m e _ =>
    let (b, fl) := roundFin FP32 0 s m (e + n) false s
    (b, if Nat.land fl fUNDERFLOW ≠ 0 then fUNDERFLOW + fINEXACT else 0)
  | _ => (y, 0)

/-- Exp2 of an FP32 code (R326). -/
def exp2F (a : Nat) : Nat × Nat :=
  match decodeF FP32 a with
  | .nan s => (canonNaN FP32, if s then fINVALID else 0)
  | .inf true => (0, 0)
  | .inf false => (infCode FP32, 0)
  | .zero _ => exp2Fin 0
  | .fin neg m e _ =>
    let v := units neg m e (-149)
    if v ≥ 128 * 2 ^ 149 then (infCode FP32, fOVERFLOW + fINEXACT)
    else if v < -150 * 2 ^ 149 then (0, fUNDERFLOW + fINEXACT)
    else exp2Fin v

/-! ### Block scales and the quantiser (R310, R323 to R325) -/

/-- The value of an E3M5 scale code in units of 2^−7 (R310). -/
def scaleUnits (c : Nat) : Nat :=
  if c = 0xFF then 31 * 128 else if c / 32 = 0 then c else (32 + c % 32) * 2 ^ (c / 32 - 1)

/-- The value of an E3M5 scale code (R310). -/
def scaleFl (c : Nat) : Fl := if scaleUnits c = 0 then .zero false else .fin false (scaleUnits c) (-7) false

/-- Whether k × 2^−7 is at least m 2^e / (6 × n 2^g). -/
def scaleReaches (k m : Nat) (e : Int) (n : Nat) (g : Int) : Bool :=
  let u := min e g
  m * 2 ^ (e - u).toNat * 128 ≤ k * 6 * n * 2 ^ (g - u).toNat

/-- How a block is classed (R379). -/
inductive BlockClass where
  | nan
  | zero
  | sat
  | normal
deriving DecidableEq, Repr

/-- The larger of two magnitudes of values that are not NaN. -/
def maxMag (x y : Fl) : Fl :=
  let pos (z : Fl) : Fl := match z with
    | .fin _ m e s => .fin false m e s
    | .inf _ => .inf false
    | .zero _ => .zero false
    | .nan s => .nan s
  if cmpFl (pos x) (pos y) = -1 then pos y else pos x

/-- The scale code and the class of a block under a band scale (R323, R324, R379). -/
def blockScale (v : List Fl) (bs : Fl) : Nat × BlockClass :=
  let unusable : Bool := match bs with
    | .nan _ => true
    | .inf _ => true
    | .fin neg _ _ _ => neg
    | .zero _ => false
  if v.any Fl.isNaN || unusable then (0, .nan)
  else
    match bs, v.foldl maxMag (.zero false) with
    | .fin _ n g _, .fin _ m e _ =>
      if !scaleReaches (31 * 128) m e n g then (0xFF, .sat)
      else (((List.range 255).find? fun c => scaleReaches (scaleUnits c) m e n g).getD 0xFF, .normal)
    | .fin _ _ _ _, .inf _ => (0xFF, .sat)
    | _, _ => (0, .zero)

/-- RoundFP4(v / (scale × bs)) (R323). -/
def quantElem (v : Fl) (sc : Nat) (bs : Fl) : Nat :=
  match v, bs with
  | .inf neg, _ => (roundF FP4 (.inf neg) 0).1
  | .fin a m e _, .fin _ n g _ => (roundF FP4 (ratFl a (m * 128) (scaleUnits sc * n) (e - g) 4) 0).1
  | _, _ => 0

/-- The exact product of a list of values, with the flags. -/
def prodFl (xs : List Fl) : Fl × Nat :=
  xs.foldl (fun acc x => let (p, f) := mulFl acc.1 x; (p, Nat.lor acc.2 f)) (.fin false 1 0 false, 0)

/-! ### The cube's sums (R325, R330, R331) -/

/-- One step of a partial sum: Round(FP32, p + x × y, RNE) with the product exact (R330). -/
def cubeStep (p : Nat) (x y : Fl) : Nat := (fmaFl FP32 x y (decodeF FP32 p) 0).1

/-- One block step of FP4 (R325): the exact sum of eight products times the two scales, added in one rounding. -/
def fp4Step (p : Nat) (a b : List Nat) (sa sb : Nat) : Nat :=
  let s : Int := (List.zipWith (fun x y =>
    match decodeF FP4 x, decodeF FP4 y with
    | .fin n m e _, .fin k l g _ => units (n != k) (m * l) (e + g) (-2)
    | _, _ => 0) a b).foldl (· + ·) 0
  let t : Fl := if s = 0 then .zero false else .fin (s < 0) s.natAbs (-2) false
  let (sig, _) := mulFl (scaleFl sa) (scaleFl sb)
  (fmaFl FP32 t sig (decodeF FP32 p) 0).1

/-- The signed 32-bit sum of an integer path (R331). -/
def intStep (p : Nat) (x y : Int) : Nat := bitsOf 32 ((p : Int) + x * y)

/-- FP32 addition under RNE, the vertical addition of the cube (R330). -/
def cubeAdd (a b : Nat) : Nat := (fAdd FP32 a b 0).1

end Sys2Proof.Machine
end

