-- ==== Sys2Proof/Machine/Operands.lean ====
section
/-!
DEFINITION. Operand forms and the issue of one word: ring rewriting, the encoding checks of R302, guards, immediates, operand
reads, start ticks, face addresses, X-space targets, and the posting of results.
-/
namespace Sys2Proof.Machine

/-! ### Ring rewriting (R295) -/

/-- A number rewritten by the first ring of its kind that holds it, in iteration `i` (R295). -/
def ringMap (rings : SMap Ring) (matrix : Bool) (i n : Nat) : Nat :=
  match rings.find? fun r => r.2.matrix = matrix && r.2.base ≤ n && n < r.2.base + r.2.len with
  | some r => r.2.base + (n - r.2.base + i) % r.2.len
  | none => n

/-- A word with the field of `n` bits at `lo` replaced. -/
def setField (w lo n v : Nat) : Nat := w - fld w (lo + n - 1) lo * 2 ^ lo + v % 2 ^ n * 2 ^ lo

/-- One operand field of a word rewritten by the rings in force (R295): registers and T fields as scalar registers, matrix
operands only in direction 0; relative fields after their base is added. -/
def ringField (rings : SMap Ring) (i : Nat) (w : Nat) (f : Nat × OpClass) : Nat :=
  let lo := f.1
  match f.2 with
  | .mat => if fld w (lo + 6) (lo + 5) = 0 then setField w lo 5 (ringMap rings true i (fld w (lo + 4) lo)) else w
  | .rel =>
    let base := if pipeB (fld w 30 28) then 32 else 0
    setField w lo 5 (ringMap rings false i (base + fld w (lo + 4) lo) - base)
  | .pdst => w
  | .tfield => if fld w (lo + 5) lo = 0 then w else setField w lo 6 (ringMap rings false i (fld w (lo + 5) lo))
  | _ => setField w lo 6 (ringMap rings false i (fld w (lo + 5) lo))

/-- A word as the loop hardware rewrites it in iteration `i` (R295). -/
def ringWord (rings : SMap Ring) (i : Nat) (w : Nat) : Nat := (operandFields w).foldl (ringField rings i) w

/-! ### Checks, guards and immediates -/

/-- Whether a word is a branch or a LOOP of pipe S0 (R283, R355). -/
def isBranch (w : Nat) : Bool := fld w 30 28 = 0 && 58 ≤ fld w 27 22 && fld w 27 22 ≤ 61
/-- Whether a word is END. -/
def isEnd (w : Nat) : Bool := fld w 30 28 = 0 && fld w 27 22 = 62

/-- The cause of the ILLEGAL fault that a word's encoding raises where it stands, whatever its guard (R280, R302): 1 RESERVED,
3 CLUSTER, 4 STAGE. -/
def illegalCause (cur : Cur) (w : Nat) : Option Nat :=
  if valueReserved w || (cur.inLoop && isBranch w) || (cur.inDelay && (isBranch w || isEnd w)) then some 1
  else if (operandFields w).any (clusterBad w) then some 3
  else if cur.inLoop && (operandFields w).any (fun f => f.2 = .pdst && fld w (f.1 + 3) f.1 ≥ 12) then some 4
  else none

/-- The thread being issued. -/
def State.cthread (s : State) : Thread := s.thread s.cur.core s.cur.hd

/-- The pipe code of a word. -/
def pipeOf (w : Nat) : Nat := fld w 30 28

/-- The SRC field of a fault of a word (R260): its pipe code, 0 for a control word (log 10). -/
def srcOf (w : Nat) : Nat := if pipeOf w < 6 then pipeOf w else 0

/-- Whether a word's guard is true (R285): a V word by VG, SEL and control words always, NOP whatever its guard (R336). -/
def guardTrue (s : State) (w : Nat) : Bool :=
  match pipeOf w with
  | 2 => s.cthread.pred s.cur.vg
  | 7 => true
  | 0 | 1 => fld w 27 22 = 24 || s.cthread.pred (fld w 21 18)
  | _ => s.cthread.pred (fld w 21 18)

/-- Who may issue a word (R263, R469, R472). -/
inductive Perm where
  | both
  | task
  | handler
deriving DecidableEq, Repr

/-- Whether a thread is refused a word. -/
def Perm.refuses (p : Perm) (hd : Bool) : Bool :=
  match p with
  | .both => false
  | .task => hd
  | .handler => !hd

/-- The words of whose registers no value is ILLEGAL (R280): all but those that read a descriptor, a selector, a flag word or an offset with bits of its own. -/
def noIllegal : Instr → Bool
  | .nop .. | .add .. | .sub .. | .addi .. | .mul .. | .mulhs .. | .mulhu .. | .and .. | .or .. | .xor .. | .andi .. | .ori .. | .xori ..
  | .shl .. | .shr .. | .sar .. | .shli .. | .shri .. | .sari .. | .min .. | .max .. | .minu .. | .maxu .. | .li .. | .sel .. | .cmpeq ..
  | .cmpne .. | .cmplt .. | .cmple .. | .cmpltu .. | .cmpleu .. | .cmpeqi .. | .cmplti .. | .pand .. | .por .. | .pxor .. | .pandn ..
  | .xmov .. | .qrd .. | .fadd .. | .fsub .. | .fmul .. | .ffma .. | .fmin .. | .fmax .. | .dadd .. | .dsub .. | .dmul .. | .dfma ..
  | .dmin .. | .dmax .. | .fcmpeq .. | .fcmplt .. | .fcmple .. | .dcmpeq .. | .dcmplt .. | .dcmple .. | .cvt .. | .b .. | .call ..
  | .jr .. | .loop .. | .endTask .. | .fdiv .. | .fsqrt .. | .ddiv .. | .dsqrt .. | .vmov .. | .vfadd .. | .vfsub .. | .vfmul ..
  | .vfma .. | .vfmin .. | .vfmax .. | .vadd .. | .vsub .. | .vmul .. | .vmin .. | .vmax .. | .vminu .. | .vmaxu .. | .vand .. | .vor ..
  | .vxor .. | .vshl .. | .vshr .. | .vsar .. | .vfcmpeq .. | .vfcmplt .. | .vcmpeq .. | .vcmplt .. | .vsel .. | .vexp2 .. | .vrcp ..
  | .vrsq .. | .vfrsum .. | .vfrmax .. | .vbcast .. | .vperm .. | .vcvt .. | .vbmax .. | .vqcvt .. | .vdeq .. | .vqmov .. | .vqmovSend ..
  | .lda .. | .sta .. | .mlda .. | .msta .. | .ldw .. | .stw .. | .mldw .. | .mstw .. | .ldc .. | .stc .. | .mldc .. | .mstc .. | .ldx ..
  | .stx .. | .mldx .. | .mstx .. | .rdtick .. | .barwait .. | .fence .. | .gwait .. | .cancel .. | .crd .. | .seal .. | .unseal ..
  | .krd .. | .kwr .. | .trap .. | .linsp .. | .lpatch .. | .lrq .. | .lreinj .. | .resume .. | .kill .. | .hret .. | .ldeleg .. => true
  | _ => false

/-- The cause of the ILLEGAL fault that the effect of a word raises, from a value of its registers, where its guard is true. -/
def effectIllegal (s : State) (i : Instr) (eff : State → State) : Option Nat :=
  if noIllegal i || !guardTrue s i.toWord then none
  else
    match (eff s).cur.raised with
    | some r => if r.code = 1 then some r.cause else none
    | none => none

/-- The issue of one word: the ILLEGAL faults in the order of their causes, those of its encoding and those of a value of its registers; then the guard, the
right to issue it, and its effect (R280, R285). A word of a bundle that has already faulted has no effect. -/
def issueWord (s : State) (i : Instr) (p : Perm) (eff : State → State) : Host.Outcome State Fault Refusal :=
  .next <|
    match s.cur.raised with
    | some _ => s
    | none =>
      match illegalCause s.cur i.toWord, effectIllegal s i eff with
      | some c, some e => if e < c then eff s else raise s (srcOf i.toWord) 1 c
      | some c, none => raise s (srcOf i.toWord) 1 c
      | none, some _ => eff s
      | none, none =>
        if !guardTrue s i.toWord then s
        else if p.refuses s.cur.hd then raise s (srcOf i.toWord) 13 0
        else eff s

/-- A number of `n` bits sign-extended to 64 (R288). -/
def sext (n v : Nat) : Word := BitVec.ofInt 64 (sint n v)

/-- The value of the EXT that stands after the word. -/
def extVal (cur : Cur) : Option Nat := cur.ext.map fun e => fld e 24 0

/-- The immediate of the forms RRI and PRI, from the field I6 (R288). -/
def imm6 (cur : Cur) (n : Nat) : Word :=
  match extVal cur with
  | some v => sext 31 (v * 64 + n)
  | none => sext 6 n

/-- The immediate of the form RI, from the field I12 (R288). -/
def imm12 (cur : Cur) (n : Nat) : Word :=
  match extVal cur with
  | some v => sext 37 (v * 4096 + n)
  | none => sext 12 n

/-- The byte offset of the forms MLS and MMX (R288). -/
def immOff (cur : Cur) : Word :=
  match extVal cur with
  | some v => sext 25 v
  | none => 0

/-! ### Operand reads -/

/-- A scalar register of the thread being issued. -/
def rdReg (s : State) (n : Nat) : Word := s.cthread.reg n

/-- A 64-bit value as an operand slot. -/
def slotOf (v : Word) : Vec := BitVec.ofNat 1024 v.toNat
/-- The 64-bit value of an operand slot. -/
def ofSlot (v : Vec) : Word := BitVec.ofNat 64 v.toNat

/-- The core being issued. -/
def State.ccore (s : State) : Core := s.core s.cur.core

/-- The issue tick of the word being issued. -/
def State.ctick (s : State) : Nat := s.tick s.cur.core s.cur.hd

/-- The origin of the word being issued. -/
def origin (s : State) (pipe : Nat) : Origin :=
  { core := s.cur.core, hd := s.cur.hd, pc := s.cur.pc, pos := s.cur.pos, pipe := pipe, issued := s.ctick }

/-- Start tick or stamp of an engine word (R293): the T field and an EXT of kind 1 give an offset of 32 bits from TBASE; none
when both are absent. -/
def offsetOf (s : State) (t : Nat) : Option Nat :=
  match extVal s.cur with
  | some v => some ((v + if t = 0 then 0 else wfld (rdReg s t) 31 0) % 2 ^ 32)
  | none => if t = 0 then none else some (wfld (rdReg s t) 31 0)

/-- The absolute tick of an offset from TBASE (R101, R293). -/
def State.fromBase (s : State) (off : Nat) : Nat := (s.ccore.tbase + BitVec.ofNat 64 off).toNat

/-- The start tick of an engine word (R293). -/
def startTick (s : State) (t : Nat) : Nat :=
  match offsetOf s t with
  | some off => s.fromBase off
  | none => s.ctick + 1

/-! ### Results (R303, R332) -/

/-- The order of results that commit in one tick (R68): issue tick, then pipe code. -/
def resOrd (o : Origin) : Nat := o.issued * 8 + o.pipe

/-- The state with a result due at the end of issue + L − 1. -/
def postResult (s : State) (lat : Nat) (rp : Replay) (res : Res) : State :=
  s.post s.cur.core s.cur.hd
    { id := 0, tick := s.ctick + lat - 1, src := s.cur.core, ord := resOrd rp.org, act := .result rp res }

/-- The replay entry of the word being issued (R258, R259). -/
def mkReplay (s : State) (i : Instr) (imm : Option Word) (slots : List Vec) (vec : Bool) : Replay :=
  { org := origin s (pipeOf i.toWord), instr := i, imm := imm, slots := slots, vec := vec, fmt := s.ccore.engfmt }

/-- The register number of a 5-bit field of the form F, counted from the pipe's cluster (R287, R342). -/
def relReg (s1 : Bool) (f : Nat) : Nat := (if s1 then 32 else 0) + f

/-! ### Faces and X-space targets -/

/-- The check of a face address (R17, R19, R21): alignment, then extent; the ALIGN cause of the first failure. -/
def faceCheck (face : Nat) (ea : Word) (n : Nat) : Option Nat :=
  if ea.toNat % n ≠ 0 then some 0
  else if ea.toNat ≥ faceSize face then some 1
  else none

/-- The check of an X address (R17, R25 to R27): the ALIGN cause of the first failure. -/
def xCheck (ea : Word) (n : Nat) : Option Nat :=
  if ea.toNat % n ≠ 0 then some 0
  else if wfld ea 63 31 ≠ 0 then some 1
  else if wfld ea 22 21 = 2 ∧ wfld ea 20 0 ≥ 2 ^ 20 then some 1
  else if wfld ea 22 21 = 3 ∧ wfld ea 20 0 ≥ 2 ^ 18 then some 1
  else if wfld ea 30 23 ≥ 192 then some 2
  else if wfld ea 22 21 = 3 then some 3
  else none

/-- Whether a core's region is gating or gated (R240). -/
def gatedCore (s : State) (c : Nat) : Bool :=
  match (s.region (regionOf c)).power with
  | .gating _ => true
  | .gated => true
  | .queued => true
  | .ramping => true
  | _ => false

/-- The core of an X address for an issuer (R25, R26). -/
def xCore (c : Nat) (ea : Word) : Nat := coreOfX (clusterOf c) (wfld ea 30 23)

/-- Ticks since the exit of the last alignment event of a core (R152). -/
def sinceExit (s : State) (c : Nat) : Nat := s.tick c false - (s.core c).lastExit

/-- Whether the perform tick of an access of core `c` to core `d` is defined (R82, R153, R169): its own faces, a member of its
pack in its own region, or a member in another region within 2,560 ticks of the last alignment event; a handler's never. -/
def exactTick (s : State) (c : Nat) (hd : Bool) (d : Nat) : Bool :=
  !hd && (c = d || (s.samePack c d && (s.core d).stage ≠ .free && (s.core d).stage ≠ .bound &&
    (regionOf c = regionOf d || (sinceExit s c ≤ 2560 && !(s.core c).waited))))

/-- The count of its region at which a task's tick 0 fell (R143): AB as it stands once what a freeze still delays has been absorbed. -/
def Core.base (k : Core) : Word :=
  match k.frozen with
  | some f => BitVec.ofNat 64 f.hw - BitVec.ofNat 64 f.held
  | none => k.task.ab + BitVec.ofNat 64 k.absorb

/-- A tick of core `c` as a tick of core `d` (R145, R167, R168): the same count of the region in one region, the same relative tick otherwise. -/
def mapTick (s : State) (c d t : Nat) : Nat :=
  if regionOf c = regionOf d then (BitVec.ofNat 64 t + (s.core c).base - (s.core d).base).toNat
  else (BitVec.ofNat 64 t - (s.core c).tbase + (s.core d).tbase).toNat

/-- Whether a tick-scheduled exchange with another region faults STALE after an unbounded wait (R208). -/
def staleExchange (s : State) (c d : Nat) : Bool :=
  (s.core c).waited && regionOf c ≠ regionOf d && s.samePack c d

/-- The tick at which a read at tick `t` finds a face byte of its own core not yet written by a pending write of the kinds
listed (R393, R426, R438): issued at or before `t` and committing at the end of `t` or later. -/
def pendingOn (k : Core) (kinds : List Nat) (self : Option Nat) (face lo len t : Nat) : Option Nat :=
  ((k.pendw.filter fun p => kinds.contains p.kind && !(self = some p.cmd && (p.kind = 1 || p.kind = 2)) && p.face = face && p.issued ≤ t && t ≤ p.commit
      && p.lo < lo + len && lo < p.lo + p.len).map fun p => max p.lo lo).min?

/-- The state with a pending write recorded. -/
def State.pendWrite (s : State) (c : Nat) (p : PendW) : State := s.modCore c fun k => { k with pendw := k.pendw ++ [p] }

/-! ### Latches (R75 to R77) -/

/-- The neighbour of a core over a link: 0 north, 1 east, 2 south, 3 west (R75). -/
def neighbour (c link : Nat) : Option Nat :=
  match link with
  | 0 => if rowOf c = 0 then none else some (c - 8)
  | 1 => if colOf c = 7 then none else some (c + 1)
  | 2 => if rowOf c = 11 then none else some (c + 8)
  | _ => if colOf c = 0 then none else some (c - 1)

/-- Whether a member's stop falls outside R251 (R252): beyond its alignment window, or after an unbounded wait. -/
def lateMember (s : State) (c : Nat) : Bool := (s.core c).waited || sinceExit s c > 6144

/-- The relative tick of a core's own tick, as a number with a sign (R145). -/
def relOf (s : State) (c t : Nat) : Int := (BitVec.ofNat 64 t - (s.core c).tbase).toInt

/-- The beats of a command (R84, R86). -/
def CopyCmd.beats (x : CopyCmd) : Nat := ceilDiv x.len (if x.fill.isSome then 512 else 256)
/-- The delay from a command's start tick to the commit of beat 0 at a destination (R84 to R86). -/
def CopyCmd.delay (x : CopyCmd) (d : CopyDst) : Nat :=
  if x.fill.isSome then 2 else 20 + 2 * (leg x.org.core x.score + leg x.score d.core)

/-- Whether a beat of a stopped member's copy, due at or after its held tick, would have stood in queue `q` of core `c` before the present tick of that core
(R251 rule 2). -/
def heldBeat (s : State) (c q m held : Nat) (x : CopyCmd) : Bool :=
  x.dsts.any fun d => d.core = c && d.face = q && (
    let first := max held (x.start + x.delay d)
    first ≤ x.start + x.delay d + (x.beats - 1) && relOf s m first < (s.rel c).toInt)

/-- Whether the entry that queue `q` of a member lacks is one that a stopped member of its pack would have sent at or after its own held tick, in time for the
present tick (R251 rule 2): over a link one that the neighbour's schedule would have sent (`Cur.plan`), for a stream queue a beat that is held back. -/
def stoppedFeeder (s : State) (c q : Nat) : Bool :=
  let held (m : Nat) : Option Nat := if s.samePack c m then (s.core m).frozen.map (·.held) else none
  if q < 4 then
    s.cur.plan.feeds.contains q
  else match s.pack (s.core c).group with
    | some p => p.members.any fun m => ((held m).map fun h => (s.core m).copies.any (heldBeat s c q m h)).getD false
    | none => false

/-- A word or a pop that finds its latch empty (R76, R77, R156): TIMING EMPTY with the two relative ticks of R260; a member of R251
stops instead where its pack is freezing and the sender has stopped. -/
def emptyLatch (s : State) (pipe q : Nat) : State :=
  let c := s.cur.core
  if !s.cur.hd && !lateMember s c && stoppedFeeder s c q then
    let s := stopMember s c s.ctick none false false
    { s with cur := { s.cur with raised := some {} } }
  else
    let lo := if q < 4 then ((neighbour c q).map fun n => (s.core n).snapRel % 2 ^ 32).getD 0 else 0xFFFFFFFF
    raise s pipe 3 1 0 (BitVec.ofNat 64 ((s.rel c).toNat % 2 ^ 32 * 2 ^ 32 + lo))

/-- The head entry of a queue latch. -/
def latchOf (k : Core) (q : Nat) : Option Vec := (smGet [] k.fifo q).head?

/-- The issue of a word that writes a result: its operand slots are read, its result is computed and posted. -/
def issueResult (s : State) (i : Instr) (p : Perm) (lat : Nat) (vec : Bool) (imm : Option Word)
    (slots : State → List Vec) (f : Replay → Res) : Host.Outcome State Fault Refusal :=
  issueWord s i p fun s =>
    let rp := mkReplay s i imm (slots s) vec
    postResult s lat rp (f rp)

end Sys2Proof.Machine
end

