-- ==== Sys2Proof/Machine/Fetch.lean ====
section
/-!
DEFINITION. Fetch (spec/09_encoding.md R277 to R281; spec/01_address_spaces.md R22 to R24): which words form the next bundle of a thread, when it
issues, and where the bundle after it stands.
-/
namespace Sys2Proof.Machine

/-- The word at position `n` of the packets from `pc` on in the instruction buffer of a core (R277). -/
def fetchWord (s : State) (c pc n : Nat) : Nat := leNat (readBytes s.mem (faceLoc c 3 (12 * pc + 4 * n)) 4)

/-- The words of a bundle from position `n` on (R278, R279): through the first word with CHAIN = 0, at most `k` words, and none past
packet 21,844. -/
def fetchWords (s : State) (c pc : Nat) : Nat → Nat → List Nat
  | 0, _ => []
  | k + 1, n =>
    if pc + n / 3 > 21844 then []
    else
      let w := fetchWord s c pc n
      if bit w 31 then w :: fetchWords s c pc k (n + 1) else [w]

/-- Whether the words fetched run past packet 21,844 (R23, R302). -/
def overrun (ws : List Nat) : Bool := ws.length < 7 && (ws.getLast?.map (bit · 31)).getD true

/-- The packets that a bundle occupies (R278); one that runs past the end counts the packet that is not there. -/
def packets (ws : List Nat) : Nat := if overrun ws then ws.length / 3 + 1 else ceilDiv ws.length 3

/-- Whether a word is an EXT. -/
def isExt (w : Nat) : Bool := pipeOf w = 7 && fld w 27 26 = 1
/-- Whether a word is a BCW. -/
def isBcw (w : Nat) : Bool := pipeOf w = 7 && fld w 27 26 = 0
/-- Whether a word is a RING. -/
def isRing (w : Nat) : Bool := pipeOf w = 7 && fld w 27 26 = 2

/-- What a thread is to issue next on a core: its packet, its words as fetched or buffered, the packets it occupies; and whether it is fetched. -/
def Thread.bundle (s : State) (c : Nat) (t : Thread) : LoopBundle × Bool :=
  let fetched : LoopBundle × Bool :=
    let ws := fetchWords s c t.pc 7 0
    (⟨t.pc, ws, packets ws⟩, true)
  match t.loop with
  | some l => if l.i = 0 then fetched else ((l.buffer[l.pos]?).getD ⟨t.pc, [], 1⟩, false)
  | none => fetched

@[inherit_doc Thread.bundle] def nextBundle (s : State) (c : Nat) (hd : Bool) : LoopBundle × Bool := (s.thread c hd).bundle s c

/-- Whether the bundle issues at tick `t` or has been due (R281, R282, R296). -/
def bundleDue (th : Thread) (npk t : Nat) : Bool := if th.seq then th.next + npk ≤ t + 1 else th.next ≤ t

/-! ### Clocks -/

/-- A generator period of a region in units of 1/18 ns: 5 at forward bias, 6 at reverse bias (R139). -/
def Region.period (r : Region) : Nat := if r.reverse then 6 else 5

/-- Whether the step in force delivers a period of a group of 16 (R141). -/
def delivered (step e : Nat) : Bool := e * step / 16 < (e + 1) * step / 16

/-- A region whose generator is locked to the reference: its edges fall on the multiples of its period (R139, R151). DESIGN CHOICE (log 139): so the edges of all locked
regions of a cluster coincide, but for stretches. -/
def Region.locked (r : Region) : Region := { r with lock := true, edge := ceilDiv r.edge r.period * r.period }

/-- The instants of the delivered edges of a region among its next generator edges, as they fall while its period does not change; `phase` is the place of the next one
in its group of 16. -/
def Region.edges (r : Region) (n : Nat) : List Nat :=
  (List.range n).filterMap fun j => if delivered r.step ((r.phase + j) % 16) then some (r.edge + j * r.period) else none

/-- The instant of the next tick of a region (R141). -/
def Region.nextTick (r : Region) : Nat := ((r.edges 16).head?).getD r.edge

/-! ### The place of the next bundle -/

/-- A thread with the stage predicates of its iteration written (R353). -/
def Thread.staged (th : Thread) (l : LoopSt) : Thread :=
  let th := (List.range 4).foldl (fun (th : Thread) j => th.setPred (12 + j) (j < l.stages && j ≤ l.i && l.i + 1 ≤ l.trip + j)) th
  { th with loop := some { l with staged := true } }

/-- The thread after the words of a bundle that issues at tick `t` (R281, R283, R296, R352, R354): the bundle joins the loop buffer in the first iteration, and
the place of the next bundle follows; a loop end is the BCW's. `l0` says whether a loop stood before it. -/
def Thread.past (th : Thread) (t : Nat) (b : LoopBundle) (l0 : Bool) : Thread :=
  let fwd := { th with pc := b.pc + b.npk, next := t + 1, seq := true }
  match th.loop with
  | some l =>
    if !l0 then fwd
    else if l.i = 0 then { fwd with loop := some { l with buffer := l.buffer ++ [b] } }
    else { th with loop := some { l with pos := l.pos + 1 }, next := t + 1, seq := false }
  | none => fwd

/-- The loop after its loop-end bundle (R354, R296): exit when the exit predicate is true or the last iteration has run, else the next
iteration begins at the next tick. -/
def Thread.loopEnd (th : Thread) (t xp after : Nat) : Thread :=
  match th.loop with
  | none => th
  | some l =>
    let aft := if l.i = 0 then after else l.after
    if (xp ≠ 0 && th.pred xp) || l.i + 1 ≥ l.iters then { th with loop := none, pc := aft, next := t + 1, seq := true }
    else { th with loop := some { l with i := l.i + 1, pos := 0, staged := false, after := aft }, next := t + 1, seq := false }

/-- A thread after a delay bundle (R283): after the second one the target is next. -/
def Thread.delayed (th : Thread) (d : Delay) : Thread :=
  if d.left > 1 then { th with delay := some { d with left := d.left - 1 } } else { th with delay := none, pc := d.target }

end Sys2Proof.Machine
end

