-- ==== Sys2Proof/Machine/Scalar.lean ====
section
/-!
DEFINITION. The instructions of the S0 and S1 pipes (spec/11_scalar_instructions.md R332 to R357): what each result is, as a
function of the captured operands (R259), and one meaning for each word.
-/
namespace Sys2Proof.Machine

/-- Operand slot `k` of a word in flight, as a scalar (R259). -/
def slot (rp : Replay) (k : Nat) : Word := ofSlot (rp.slots.getD k 0)

/-- A result of one scalar register (R67). -/
def regRes (d : Nat) (v : Word) : Res := { writes := [(.sreg d, slotOf v)] }

/-- A floating-point result of one scalar register: its code, zero-extended, and its flags (R67, R319). -/
def fpRes (d : Nat) (x : Nat × Nat) : Res := { writes := [(.sreg d, BitVec.ofNat 1024 x.1)], flags := x.2 }

/-- A result of one predicate. -/
def predRes (p : Nat) (v : Bool × Nat) : Res := { writes := [(.pred p, BitVec.ofNat 1024 (b2n v.1))], flags := v.2 }

/-- An integer result of ToInt, sign-extended to 64 bits. -/
def intRes (v : Int × Nat) : Nat × Nat := (bitsOf 64 v.1, v.2)

/-- FP32 operand bits of a register (R342). -/
def lo32 (v : Word) : Nat := wfld v 31 0

/-- CVT by its conversion code (R346). -/
def cvtVal (code rm : Nat) (a : Word) : Nat × Nat :=
  match code with
  | 0 => roundF FP32 (decodeF FP64 a.toNat) rm
  | 1 => roundF FP64 (decodeF FP32 (lo32 a)) rm
  | 2 => roundF FP32 (intFl (sint 64 a.toNat)) rm
  | 3 => roundF FP32 (intFl a.toNat) rm
  | 4 => roundF FP64 (intFl (sint 64 a.toNat)) rm
  | 5 => roundF FP64 (intFl a.toNat) rm
  | 6 => intRes (toInt (decodeF FP32 (lo32 a)) 64 false 0 rm)
  | 7 => intRes (toInt (decodeF FP32 (lo32 a)) 64 true 0 rm)
  | 8 => intRes (toInt (decodeF FP64 a.toNat) 64 false 0 rm)
  | 9 => intRes (toInt (decodeF FP64 a.toNat) 64 true 0 rm)
  | 10 => intRes (toInt (decodeF FP32 (lo32 a)) 32 false 0 rm)
  | 11 => intRes (toInt (decodeF FP64 a.toNat) 32 false 0 rm)
  | 12 => roundF BF16 (decodeF FP32 (lo32 a)) rm
  | 13 => roundF FP32 (decodeF BF16 (wfld a 15 0)) rm
  | 14 => roundF FP16 (decodeF FP32 (lo32 a)) rm
  | 15 => roundF FP32 (decodeF FP16 (wfld a 15 0)) rm
  | _ => (0, 0)

/-- The result of a word of pipe S0 or S1 from its captured operands (R334 to R347). -/
def scalarRes (rp : Replay) : Res :=
  let a := slot rp 0
  let b := slot rp 1
  let c := slot rp 2
  let n := rp.imm.getD 0
  match rp.instr with
  | .add _ d _ _ => regRes d.toNat (a + b)
  | .sub _ d _ _ => regRes d.toNat (a - b)
  | .mul _ d _ _ => regRes d.toNat (a * b)
  | .mulhs _ d _ _ => regRes d.toNat (BitVec.ofInt 64 (a.toInt * b.toInt / 2 ^ 64))
  | .mulhu _ d _ _ => regRes d.toNat (BitVec.ofNat 64 (a.toNat * b.toNat / 2 ^ 64))
  | .and _ d _ _ => regRes d.toNat (a &&& b)
  | .or _ d _ _ => regRes d.toNat (a ||| b)
  | .xor _ d _ _ => regRes d.toNat (a ^^^ b)
  | .shl _ d _ _ => regRes d.toNat (a <<< (b.toNat % 64))
  | .shr _ d _ _ => regRes d.toNat (a >>> (b.toNat % 64))
  | .sar _ d _ _ => regRes d.toNat (a.sshiftRight (b.toNat % 64))
  | .min _ d _ _ => regRes d.toNat (if a.toInt ≤ b.toInt then a else b)
  | .max _ d _ _ => regRes d.toNat (if a.toInt ≤ b.toInt then b else a)
  | .minu _ d _ _ => regRes d.toNat (if a.toNat ≤ b.toNat then a else b)
  | .maxu _ d _ _ => regRes d.toNat (if a.toNat ≤ b.toNat then b else a)
  | .addi _ d _ _ => regRes d.toNat (a + n)
  | .andi _ d _ _ => regRes d.toNat (a &&& n)
  | .ori _ d _ _ => regRes d.toNat (a ||| n)
  | .xori _ d _ _ => regRes d.toNat (a ^^^ n)
  | .shli _ d _ _ => regRes d.toNat (a <<< n.toNat)
  | .shri _ d _ _ => regRes d.toNat (a >>> n.toNat)
  | .sari _ d _ _ => regRes d.toNat (a.sshiftRight n.toNat)
  | .li _ d _ => regRes d.toNat n
  | .sel _ d _ _ => regRes d.toNat (if c = 0 then b else a)
  | .cmpeq _ e _ _ => predRes e.toNat (a = b, 0)
  | .cmpne _ e _ _ => predRes e.toNat (a ≠ b, 0)
  | .cmplt _ e _ _ => predRes e.toNat (a.toInt < b.toInt, 0)
  | .cmple _ e _ _ => predRes e.toNat (a.toInt ≤ b.toInt, 0)
  | .cmpltu _ e _ _ => predRes e.toNat (a.toNat < b.toNat, 0)
  | .cmpleu _ e _ _ => predRes e.toNat (a.toNat ≤ b.toNat, 0)
  | .cmpeqi _ e _ _ => predRes e.toNat (a = n, 0)
  | .cmplti _ e _ _ => predRes e.toNat (a.toInt < n.toInt, 0)
  | .pand _ pd _ _ => predRes pd.toNat (a ≠ 0 && b ≠ 0, 0)
  | .por _ pd _ _ => predRes pd.toNat (a ≠ 0 || b ≠ 0, 0)
  | .pxor _ pd _ _ => predRes pd.toNat ((a ≠ 0) != (b ≠ 0), 0)
  | .pandn _ pd _ _ => predRes pd.toNat (a ≠ 0 && b = 0, 0)
  | .xmov _ d _ => regRes d.toNat a
  | .qrd _ d _ => regRes d.toNat a
  | .fadd h r d _ _ => fpRes (relReg h.s1 d.toNat) (fAdd FP32 (lo32 a) (lo32 b) r.toNat)
  | .fsub h r d _ _ => fpRes (relReg h.s1 d.toNat) (fSub FP32 (lo32 a) (lo32 b) r.toNat)
  | .fmul h r d _ _ => fpRes (relReg h.s1 d.toNat) (fMul FP32 (lo32 a) (lo32 b) r.toNat)
  | .dadd h r d _ _ => fpRes (relReg h.s1 d.toNat) (fAdd FP64 a.toNat b.toNat r.toNat)
  | .dsub h r d _ _ => fpRes (relReg h.s1 d.toNat) (fSub FP64 a.toNat b.toNat r.toNat)
  | .dmul h r d _ _ => fpRes (relReg h.s1 d.toNat) (fMul FP64 a.toNat b.toNat r.toNat)
  | .ffma h r d _ _ => fpRes (relReg h.s1 d.toNat) (fFma FP32 (lo32 a) (lo32 b) (lo32 c) r.toNat)
  | .dfma h r d _ _ => fpRes (relReg h.s1 d.toNat) (fFma FP64 a.toNat b.toNat c.toNat r.toNat)
  | .fmin h d _ _ => fpRes (relReg h.s1 d.toNat) (fMin FP32 (lo32 a) (lo32 b))
  | .fmax h d _ _ => fpRes (relReg h.s1 d.toNat) (fMax FP32 (lo32 a) (lo32 b))
  | .dmin h d _ _ => fpRes (relReg h.s1 d.toNat) (fMin FP64 a.toNat b.toNat)
  | .dmax h d _ _ => fpRes (relReg h.s1 d.toNat) (fMax FP64 a.toNat b.toNat)
  | .fcmpeq _ e _ _ => predRes e.toNat (fCmp FP32 0 (lo32 a) (lo32 b))
  | .fcmplt _ e _ _ => predRes e.toNat (fCmp FP32 1 (lo32 a) (lo32 b))
  | .fcmple _ e _ _ => predRes e.toNat (fCmp FP32 2 (lo32 a) (lo32 b))
  | .dcmpeq _ e _ _ => predRes e.toNat (fCmp FP64 0 a.toNat b.toNat)
  | .dcmplt _ e _ _ => predRes e.toNat (fCmp FP64 1 a.toNat b.toNat)
  | .dcmple _ e _ _ => predRes e.toNat (fCmp FP64 2 a.toNat b.toNat)
  | .cvt h r d _ x => fpRes (relReg h.s1 d.toNat) (cvtVal x.toNat r.toNat a)
  | .fdiv _ r d _ _ => fpRes (32 + d.toNat) (fDiv FP32 (lo32 a) (lo32 b) r.toNat)
  | .fsqrt _ r d _ => fpRes (32 + d.toNat) (fSqrt FP32 (lo32 a) r.toNat)
  | .ddiv _ r d _ _ => fpRes (32 + d.toNat) (fDiv FP64 a.toNat b.toNat r.toNat)
  | .dsqrt _ r d _ => fpRes (32 + d.toNat) (fSqrt FP64 a.toNat r.toNat)
  | _ => {}

/-- The issue of a word whose operand slots are scalar registers. -/
def issueRegs (s : State) (i : Instr) (lat : Nat) (imm : Option Word) (rs : List Nat) : Host.Outcome State Fault Refusal :=
  issueResult s i .both lat false imm (fun s => rs.map fun r => slotOf (rdReg s r)) scalarRes

/-- The issue of a divide or square root: STRUCT DIVIDER while the unit of the thread is busy, else the unit is taken until the
result commits (R303, R347). -/
def issueDivide (s : State) (i : Instr) (lat : Nat) (rs : List Nat) : Host.Outcome State Fault Refusal :=
  issueWord s i .both fun s =>
    if s.ctick < s.cthread.divFree then raise s 1 12 0
    else
      let rp := mkReplay s i none (rs.map fun r => slotOf (rdReg s r)) false
      postResult (s.modThread s.cur.core s.cur.hd fun t => { t with divFree := s.ctick + lat }) lat rp (scalarRes rp)

/-- A predicate as an operand slot. -/
def predSlot (s : State) (p : Nat) : Vec := BitVec.ofNat 1024 (b2n (s.cthread.pred p))

/-- A taken branch (R283, R348 to R350): ALIGN cause 1 for a target outside the instruction buffer, else the target waits for two
delay bundles. -/
def takeBranch (s : State) (target : Int) (link : Option Nat) : State :=
  if target < 0 ∨ target > 21844 then raise s 0 9 1 (BitVec.ofInt 64 target) 0
  else s.modThread s.cur.core s.cur.hd fun t =>
    { t with delay := some { target := target.toNat, left := 2, link := link, org := origin s 0 } }

/-- NOP (R336). Has no effect, whatever its guard. -/
def execNop (h : SHead) (s : State) : Host.Outcome State Fault Refusal :=
  issueWord s (.nop h) .both id

/-- ADD (R334). Writes the 64-bit sum a + b to D. -/
def execAdd (h : SHead) (d a b : BitVec 6) (s : State) : Host.Outcome State Fault Refusal :=
  issueRegs s (.add h d a b) 1 none [a.toNat, b.toNat]

/-- SUB (R334). Writes the 64-bit difference a − b to D. -/
def execSub (h : SHead) (d a b : BitVec 6) (s : State) : Host.Outcome State Fault Refusal :=
  issueRegs s (.sub h d a b) 1 none [a.toNat, b.toNat]

/-- ADDI (R335). Writes a plus the extended immediate to D. -/
def execAddi (h : SHead) (d a i : BitVec 6) (s : State) : Host.Outcome State Fault Refusal :=
  issueRegs s (.addi h d a i) 1 (some (imm6 s.cur i.toNat)) [a.toNat]

/-- MUL (R334). Writes the low 64 bits of a × b to D. -/
def execMul (h : SHead) (d a b : BitVec 6) (s : State) : Host.Outcome State Fault Refusal :=
  issueRegs s (.mul h d a b) 3 none [a.toNat, b.toNat]

/-- MULHS (R334). Writes the high 64 bits of the signed 128-bit product to D. -/
def execMulhs (h : SHead) (d a b : BitVec 6) (s : State) : Host.Outcome State Fault Refusal :=
  issueRegs s (.mulhs h d a b) 3 none [a.toNat, b.toNat]

/-- MULHU (R334). Writes the high 64 bits of the unsigned 128-bit product to D. -/
def execMulhu (h : SHead) (d a b : BitVec 6) (s : State) : Host.Outcome State Fault Refusal :=
  issueRegs s (.mulhu h d a b) 3 none [a.toNat, b.toNat]

/-- AND (R334). Writes the bitwise AND of a and b to D. -/
def execAnd (h : SHead) (d a b : BitVec 6) (s : State) : Host.Outcome State Fault Refusal :=
  issueRegs s (.and h d a b) 1 none [a.toNat, b.toNat]

/-- OR (R334). Writes the bitwise OR of a and b to D. -/
def execOr (h : SHead) (d a b : BitVec 6) (s : State) : Host.Outcome State Fault Refusal :=
  issueRegs s (.or h d a b) 1 none [a.toNat, b.toNat]

/-- XOR (R334). Writes the bitwise XOR of a and b to D. -/
def execXor (h : SHead) (d a b : BitVec 6) (s : State) : Host.Outcome State Fault Refusal :=
  issueRegs s (.xor h d a b) 1 none [a.toNat, b.toNat]

/-- ANDI (R335). Writes a AND the extended immediate to D. -/
def execAndi (h : SHead) (d a i : BitVec 6) (s : State) : Host.Outcome State Fault Refusal :=
  issueRegs s (.andi h d a i) 1 (some (imm6 s.cur i.toNat)) [a.toNat]

/-- ORI (R335). Writes a OR the extended immediate to D. -/
def execOri (h : SHead) (d a i : BitVec 6) (s : State) : Host.Outcome State Fault Refusal :=
  issueRegs s (.ori h d a i) 1 (some (imm6 s.cur i.toNat)) [a.toNat]

/-- XORI (R335). Writes a XOR the extended immediate to D. -/
def execXori (h : SHead) (d a i : BitVec 6) (s : State) : Host.Outcome State Fault Refusal :=
  issueRegs s (.xori h d a i) 1 (some (imm6 s.cur i.toNat)) [a.toNat]

/-- SHL (R334). Shifts a left by b[5:0] into D. -/
def execShl (h : SHead) (d a b : BitVec 6) (s : State) : Host.Outcome State Fault Refusal :=
  issueRegs s (.shl h d a b) 1 none [a.toNat, b.toNat]

/-- SHR (R334). Shifts a right logically by b[5:0] into D. -/
def execShr (h : SHead) (d a b : BitVec 6) (s : State) : Host.Outcome State Fault Refusal :=
  issueRegs s (.shr h d a b) 1 none [a.toNat, b.toNat]

/-- SAR (R334). Shifts a right arithmetically by b[5:0] into D. -/
def execSar (h : SHead) (d a b : BitVec 6) (s : State) : Host.Outcome State Fault Refusal :=
  issueRegs s (.sar h d a b) 1 none [a.toNat, b.toNat]

/-- SHLI (R335). Shifts a left by an unsigned 6-bit immediate into D. -/
def execShli (h : SHead) (d a i : BitVec 6) (s : State) : Host.Outcome State Fault Refusal :=
  issueRegs s (.shli h d a i) 1 (some (BitVec.ofNat 64 i.toNat)) [a.toNat]

/-- SHRI (R335). Shifts a right logically by an unsigned 6-bit immediate into D. -/
def execShri (h : SHead) (d a i : BitVec 6) (s : State) : Host.Outcome State Fault Refusal :=
  issueRegs s (.shri h d a i) 1 (some (BitVec.ofNat 64 i.toNat)) [a.toNat]

/-- SARI (R335). Shifts a right arithmetically by an unsigned 6-bit immediate into D. -/
def execSari (h : SHead) (d a i : BitVec 6) (s : State) : Host.Outcome State Fault Refusal :=
  issueRegs s (.sari h d a i) 1 (some (BitVec.ofNat 64 i.toNat)) [a.toNat]

/-- MIN (R334). Writes the signed minimum of a and b to D. -/
def execMin (h : SHead) (d a b : BitVec 6) (s : State) : Host.Outcome State Fault Refusal :=
  issueRegs s (.min h d a b) 1 none [a.toNat, b.toNat]

/-- MAX (R334). Writes the signed maximum of a and b to D. -/
def execMax (h : SHead) (d a b : BitVec 6) (s : State) : Host.Outcome State Fault Refusal :=
  issueRegs s (.max h d a b) 1 none [a.toNat, b.toNat]

/-- MINU (R334). Writes the unsigned minimum of a and b to D. -/
def execMinu (h : SHead) (d a b : BitVec 6) (s : State) : Host.Outcome State Fault Refusal :=
  issueRegs s (.minu h d a b) 1 none [a.toNat, b.toNat]

/-- MAXU (R334). Writes the unsigned maximum of a and b to D. -/
def execMaxu (h : SHead) (d a b : BitVec 6) (s : State) : Host.Outcome State Fault Refusal :=
  issueRegs s (.maxu h d a b) 1 none [a.toNat, b.toNat]

/-- LI (R335). Writes the extended immediate to D. -/
def execLi (h : SHead) (d : BitVec 6) (i : BitVec 12) (s : State) : Host.Outcome State Fault Refusal :=
  issueRegs s (.li h d i) 1 (some (imm12 s.cur i.toNat)) []

/-- SEL (R339). Always issues and writes a or b to D, chosen by the predicate in its guard field. -/
def execSel (h : SHead) (d a b : BitVec 6) (s : State) : Host.Outcome State Fault Refusal :=
  issueResult s (.sel h d a b) .both 1 false none
    (fun s => [slotOf (rdReg s a.toNat), slotOf (rdReg s b.toNat), predSlot s h.guard.toNat]) scalarRes

/-- CMPEQ (R337). Writes a = b to a predicate. -/
def execCmpeq (h : SHead) (e : BitVec 4) (a b : BitVec 6) (s : State) : Host.Outcome State Fault Refusal :=
  issueRegs s (.cmpeq h e a b) 1 none [a.toNat, b.toNat]

/-- CMPNE (R337). Writes a ≠ b to a predicate. -/
def execCmpne (h : SHead) (e : BitVec 4) (a b : BitVec 6) (s : State) : Host.Outcome State Fault Refusal :=
  issueRegs s (.cmpne h e a b) 1 none [a.toNat, b.toNat]

/-- CMPLT (R337). Writes the signed a < b to a predicate. -/
def execCmplt (h : SHead) (e : BitVec 4) (a b : BitVec 6) (s : State) : Host.Outcome State Fault Refusal :=
  issueRegs s (.cmplt h e a b) 1 none [a.toNat, b.toNat]

/-- CMPLE (R337). Writes the signed a ≤ b to a predicate. -/
def execCmple (h : SHead) (e : BitVec 4) (a b : BitVec 6) (s : State) : Host.Outcome State Fault Refusal :=
  issueRegs s (.cmple h e a b) 1 none [a.toNat, b.toNat]

/-- CMPLTU (R337). Writes the unsigned a < b to a predicate. -/
def execCmpltu (h : SHead) (e : BitVec 4) (a b : BitVec 6) (s : State) : Host.Outcome State Fault Refusal :=
  issueRegs s (.cmpltu h e a b) 1 none [a.toNat, b.toNat]

/-- CMPLEU (R337). Writes the unsigned a ≤ b to a predicate. -/
def execCmpleu (h : SHead) (e : BitVec 4) (a b : BitVec 6) (s : State) : Host.Outcome State Fault Refusal :=
  issueRegs s (.cmpleu h e a b) 1 none [a.toNat, b.toNat]

/-- CMPEQI (R337). Writes a = immediate to a predicate. -/
def execCmpeqi (h : SHead) (e : BitVec 4) (a i : BitVec 6) (s : State) : Host.Outcome State Fault Refusal :=
  issueRegs s (.cmpeqi h e a i) 1 (some (imm6 s.cur i.toNat)) [a.toNat]

/-- CMPLTI (R337). Writes the signed a < immediate to a predicate. -/
def execCmplti (h : SHead) (e : BitVec 4) (a i : BitVec 6) (s : State) : Host.Outcome State Fault Refusal :=
  issueRegs s (.cmplti h e a i) 1 (some (imm6 s.cur i.toNat)) [a.toNat]

/-- PAND (R338). Writes PA AND PB to a predicate. -/
def execPand (h : SHead) (pd pa pb : BitVec 4) (s : State) : Host.Outcome State Fault Refusal :=
  issueResult s (.pand h pd pa pb) .both 1 false none (fun s => [predSlot s pa.toNat, predSlot s pb.toNat]) scalarRes

/-- POR (R338). Writes PA OR PB to a predicate. -/
def execPor (h : SHead) (pd pa pb : BitVec 4) (s : State) : Host.Outcome State Fault Refusal :=
  issueResult s (.por h pd pa pb) .both 1 false none (fun s => [predSlot s pa.toNat, predSlot s pb.toNat]) scalarRes

/-- PXOR (R338). Writes PA XOR PB to a predicate. -/
def execPxor (h : SHead) (pd pa pb : BitVec 4) (s : State) : Host.Outcome State Fault Refusal :=
  issueResult s (.pxor h pd pa pb) .both 1 false none (fun s => [predSlot s pa.toNat, predSlot s pb.toNat]) scalarRes

/-- PANDN (R338). Writes PA AND NOT PB to a predicate. -/
def execPandn (h : SHead) (pd pa pb : BitVec 4) (s : State) : Host.Outcome State Fault Refusal :=
  issueResult s (.pandn h pd pa pb) .both 1 false none (fun s => [predSlot s pa.toNat, predSlot s pb.toNat]) scalarRes

/-- XMOV (R340). Copies a 64-bit register between clusters A and B, with latency 2. -/
def execXmov (h : SHead) (d a : BitVec 6) (s : State) : Host.Outcome State Fault Refusal :=
  issueRegs s (.xmov h d a) 2 none [a.toNat]

/-- QRD (R341). Reads words 1:0 of a queue latch into D without popping it. -/
def execQrd (h : SHead) (d : BitVec 6) (q : BitVec 3) (s : State) : Host.Outcome State Fault Refusal :=
  issueWord s (.qrd h d q) .both fun s =>
    match latchOf s.ccore q.toNat with
    | none => emptyLatch s (b2n h.s1) q.toNat
    | some v =>
      let rp := mkReplay s (.qrd h d q) none [BitVec.ofNat 1024 (velem v 64 0)] false
      postResult s 1 rp (scalarRes rp)

/-- FADD (R343). Performs an FP32 add with the RM rounding mode. -/
def execFadd (h : SHead) (r : BitVec 2) (d a b : BitVec 5) (s : State) : Host.Outcome State Fault Refusal :=
  issueRegs s (.fadd h r d a b) 4 none [relReg h.s1 a.toNat, relReg h.s1 b.toNat]

/-- FSUB (R343). Performs an FP32 subtract. -/
def execFsub (h : SHead) (r : BitVec 2) (d a b : BitVec 5) (s : State) : Host.Outcome State Fault Refusal :=
  issueRegs s (.fsub h r d a b) 4 none [relReg h.s1 a.toNat, relReg h.s1 b.toNat]

/-- FMUL (R343). Performs an FP32 multiply. -/
def execFmul (h : SHead) (r : BitVec 2) (d a b : BitVec 5) (s : State) : Host.Outcome State Fault Refusal :=
  issueRegs s (.fmul h r d a b) 4 none [relReg h.s1 a.toNat, relReg h.s1 b.toNat]

/-- FFMA (R343). Performs an FP32 fused multiply-add with D as the addend and the destination. -/
def execFfma (h : SHead) (r : BitVec 2) (d a b : BitVec 5) (s : State) : Host.Outcome State Fault Refusal :=
  issueRegs s (.ffma h r d a b) 5 none [relReg h.s1 a.toNat, relReg h.s1 b.toNat, relReg h.s1 d.toNat]

/-- FMIN (R344). Writes the FP32 FMin of a and b. -/
def execFmin (h : SHead) (d a b : BitVec 5) (s : State) : Host.Outcome State Fault Refusal :=
  issueRegs s (.fmin h d a b) 2 none [relReg h.s1 a.toNat, relReg h.s1 b.toNat]

/-- FMAX (R344). Writes the FP32 FMax of a and b. -/
def execFmax (h : SHead) (d a b : BitVec 5) (s : State) : Host.Outcome State Fault Refusal :=
  issueRegs s (.fmax h d a b) 2 none [relReg h.s1 a.toNat, relReg h.s1 b.toNat]

/-- DADD (R343). Performs an FP64 add. -/
def execDadd (h : SHead) (r : BitVec 2) (d a b : BitVec 5) (s : State) : Host.Outcome State Fault Refusal :=
  issueRegs s (.dadd h r d a b) 5 none [relReg h.s1 a.toNat, relReg h.s1 b.toNat]

/-- DSUB (R343). Performs an FP64 subtract. -/
def execDsub (h : SHead) (r : BitVec 2) (d a b : BitVec 5) (s : State) : Host.Outcome State Fault Refusal :=
  issueRegs s (.dsub h r d a b) 5 none [relReg h.s1 a.toNat, relReg h.s1 b.toNat]

/-- DMUL (R343). Performs an FP64 multiply. -/
def execDmul (h : SHead) (r : BitVec 2) (d a b : BitVec 5) (s : State) : Host.Outcome State Fault Refusal :=
  issueRegs s (.dmul h r d a b) 5 none [relReg h.s1 a.toNat, relReg h.s1 b.toNat]

/-- DFMA (R343). Performs an FP64 fused multiply-add. -/
def execDfma (h : SHead) (r : BitVec 2) (d a b : BitVec 5) (s : State) : Host.Outcome State Fault Refusal :=
  issueRegs s (.dfma h r d a b) 6 none [relReg h.s1 a.toNat, relReg h.s1 b.toNat, relReg h.s1 d.toNat]

/-- DMIN (R344). Writes the FP64 minimum. -/
def execDmin (h : SHead) (d a b : BitVec 5) (s : State) : Host.Outcome State Fault Refusal :=
  issueRegs s (.dmin h d a b) 2 none [relReg h.s1 a.toNat, relReg h.s1 b.toNat]

/-- DMAX (R344). Writes the FP64 maximum. -/
def execDmax (h : SHead) (d a b : BitVec 5) (s : State) : Host.Outcome State Fault Refusal :=
  issueRegs s (.dmax h d a b) 2 none [relReg h.s1 a.toNat, relReg h.s1 b.toNat]

/-- FCMPEQ (R345). Writes the FP32 equality test to a predicate. -/
def execFcmpeq (h : SHead) (e : BitVec 4) (a b : BitVec 6) (s : State) : Host.Outcome State Fault Refusal :=
  issueRegs s (.fcmpeq h e a b) 2 none [a.toNat, b.toNat]

/-- FCMPLT (R345). Writes the FP32 less-than test to a predicate. -/
def execFcmplt (h : SHead) (e : BitVec 4) (a b : BitVec 6) (s : State) : Host.Outcome State Fault Refusal :=
  issueRegs s (.fcmplt h e a b) 2 none [a.toNat, b.toNat]

/-- FCMPLE (R345). Writes the FP32 less-or-equal test to a predicate. -/
def execFcmple (h : SHead) (e : BitVec 4) (a b : BitVec 6) (s : State) : Host.Outcome State Fault Refusal :=
  issueRegs s (.fcmple h e a b) 2 none [a.toNat, b.toNat]

/-- DCMPEQ (R345). Writes the FP64 equality test to a predicate. -/
def execDcmpeq (h : SHead) (e : BitVec 4) (a b : BitVec 6) (s : State) : Host.Outcome State Fault Refusal :=
  issueRegs s (.dcmpeq h e a b) 2 none [a.toNat, b.toNat]

/-- DCMPLT (R345). Writes the FP64 less-than test to a predicate. -/
def execDcmplt (h : SHead) (e : BitVec 4) (a b : BitVec 6) (s : State) : Host.Outcome State Fault Refusal :=
  issueRegs s (.dcmplt h e a b) 2 none [a.toNat, b.toNat]

/-- DCMPLE (R345). Writes the FP64 less-or-equal test to a predicate. -/
def execDcmple (h : SHead) (e : BitVec 4) (a b : BitVec 6) (s : State) : Host.Outcome State Fault Refusal :=
  issueRegs s (.dcmple h e a b) 2 none [a.toNat, b.toNat]

/-- CVT (R346). Converts between scalar formats under a conversion code. -/
def execCvt (h : SHead) (r : BitVec 2) (d a x : BitVec 5) (s : State) : Host.Outcome State Fault Refusal :=
  issueRegs s (.cvt h r d a x) 4 none [relReg h.s1 a.toNat]

/-- B (R348). Takes a relative branch after two delay bundles. -/
def execB (h : Head) (i : BitVec 18) (s : State) : Host.Outcome State Fault Refusal :=
  issueWord s (.b h i) .both fun s => takeBranch s ((s.cur.pc : Int) + i.toInt) none

/-- CALL (R349). Takes a relative branch and writes the link packet to D. -/
def execCall (h : Head) (d : BitVec 6) (i : BitVec 12) (s : State) : Host.Outcome State Fault Refusal :=
  issueWord s (.call h d i) .both fun s => takeBranch s ((s.cur.pc : Int) + (imm12 s.cur i.toNat).toInt) (some d.toNat)

/-- JR (R350). Takes a branch to the packet held in register A. -/
def execJr (h : Head) (a : BitVec 6) (s : State) : Host.Outcome State Fault Refusal :=
  issueWord s (.jr h a) .both fun s => takeBranch s (rdReg s a.toNat).toNat none

/-- LOOP (R352). Starts a loop body with its trip count, its stage count and the pending rings. -/
def execLoop (h : Head) (a : BitVec 6) (n : BitVec 2) (s : State) : Host.Outcome State Fault Refusal :=
  issueWord s (.loop h a n) .both fun s =>
    let trip := wfld (rdReg s a.toNat) 31 0
    let stages := n.toNat + 1
    s.modThread s.cur.core s.cur.hd fun t =>
      { t with loop := some { trip := trip, stages := stages, iters := max 1 (trip + stages - 1), rings := t.rings }, rings := [] }

/-- END (R357). Ends issue of the task, which enters Ending. -/
def execEndTask (h : Head) (s : State) : Host.Outcome State Fault Refusal :=
  issueWord s (.endTask h) .task fun s => s.modCore s.cur.core fun k => { k with stage := .ending }

/-- FDIV (R347). Performs an FP32 divide on the S1 divide unit. -/
def execFdiv (h : Head) (r : BitVec 2) (d a b : BitVec 5) (s : State) : Host.Outcome State Fault Refusal :=
  issueDivide s (.fdiv h r d a b) 14 [32 + a.toNat, 32 + b.toNat]

/-- FSQRT (R347). Performs an FP32 square root on the divide unit. -/
def execFsqrt (h : Head) (r : BitVec 2) (d a : BitVec 5) (s : State) : Host.Outcome State Fault Refusal :=
  issueDivide s (.fsqrt h r d a) 14 [32 + a.toNat]

/-- DDIV (R347). Performs an FP64 divide on the divide unit. -/
def execDdiv (h : Head) (r : BitVec 2) (d a b : BitVec 5) (s : State) : Host.Outcome State Fault Refusal :=
  issueDivide s (.ddiv h r d a b) 24 [32 + a.toNat, 32 + b.toNat]

/-- DSQRT (R347). Performs an FP64 square root on the divide unit. -/
def execDsqrt (h : Head) (r : BitVec 2) (d a : BitVec 5) (s : State) : Host.Outcome State Fault Refusal :=
  issueDivide s (.dsqrt h r d a) 24 [32 + a.toNat]

end Sys2Proof.Machine
end

