-- ==== Sys2Proof/Machine/Vector.lean ====
section
/-!
DEFINITION. The instructions of the V pipe (spec/12_vector_instructions.md R358 to R386): what each result is, as a function of
the captured operands, and one meaning for each word.
-/
namespace Sys2Proof.Machine

/-- Lane width and floating-point format under the W bit (R358). -/
def laneW (w : BitVec 1) : Nat := if w = 0 then 32 else 16
@[inherit_doc laneW] def laneF (w : BitVec 1) : Fmt := if w = 0 then FP32 else BF16

/-- The lanes of `b` bits of a vector, lane 0 first (R358, R73). -/
def lanes (b : Nat) (v : Vec) : List Nat := (List.range (1024 / b)).map (velem v b)

/-- Operand slot `k` of a word in flight, as a vector (R385). -/
def vslot (rp : Replay) (k : Nat) : Vec := rp.slots.getD k 0

/-- A result of one matrix vector: its lanes, and the OR of their flags (R319, R359). -/
def matRes (m b : Nat) (xs : List (Nat × Nat)) : Res :=
  { writes := [(.mat m, vpack b (xs.map (·.1)))], flags := xs.foldl (fun f x => Nat.lor f x.2) 0 }

/-- A result that raises no flag. -/
def quiet (f : Nat → Nat → Nat) (a b : Nat) : Nat × Nat := (f a b, 0)

/-- A test of a compare as a lane of `b` bits (R365). -/
def maskLane (b : Nat) (t : Bool × Nat) : Nat × Nat := (if t.1 then 2 ^ b - 1 else 0, t.2)

/-- The smaller or larger of two lanes as signed numbers (R363). -/
def sMin (b x y : Nat) : Nat := if sint b x ≤ sint b y then x else y
@[inherit_doc sMin] def sMax (b x y : Nat) : Nat := if sint b x ≤ sint b y then y else x

/-- The BF16 code of a lane widened exactly to FP32, or an FP32 lane as it is (R369). -/
def widen (w : BitVec 1) (x : Nat) : Nat := if w = 0 then x else x * 2 ^ 16

/-- One level of the pairwise tree of R369, with the flags so far. -/
def pairUp (op : Nat → Nat → Nat × Nat) : List (Nat × Nat) → List (Nat × Nat)
  | x :: y :: xs =>
    let r := op x.1 y.1
    (r.1, Nat.lor r.2 (Nat.lor x.2 y.2)) :: pairUp op xs
  | xs => xs

/-- The pairwise tree of R369 over 2^n lanes. -/
def tree (op : Nat → Nat → Nat × Nat) : Nat → List (Nat × Nat) → Nat × Nat
  | 0, xs => xs.headD (0, 0)
  | n + 1, xs => tree op n (pairUp op xs)

/-- VEXP2 of a lane (R367). -/
def vexp2Lane (w : BitVec 1) (rm a : Nat) : Nat × Nat :=
  if w = 0 then exp2F a
  else
    let (x, f) := exp2F (widen w a)
    let (y, g) := roundF BF16 (decodeF FP32 x) rm
    (y, Nat.lor f g)

/-- VPERM of a lane: the lane of the source that an index lane of `b` bits names, or zero (R372). -/
def permLane (b : Nat) (a : Vec) (k : Nat) : Nat := if k / 2 ^ (b - 1) = 1 then 0 else velem a b (k % (1024 / b))

/-! ### Conversions (R375, R376) -/

/-- A vector with 32 elements of `b` bits of part `q` replaced (R376). -/
def putPart (old : Vec) (b q : Nat) (xs : List (Nat × Nat)) : List (Nat × Nat) :=
  (List.range (1024 / b)).map fun k => if k / 32 = q then xs.getD (k % 32) (0, 0) else (velem old b k, 0)

/-- The 32 elements of `b` bits of part `q` of a vector (R375). -/
def part (v : Vec) (b q : Nat) : List Nat := (List.range 32).map fun e => velem v b (32 * q + e)

/-- The FP8 format that ENGFMT names (R321). -/
def f8Of (fmt : Word) : Fmt := if wfld fmt 0 0 = 0 then E4M3 else E5M2

/-- The narrow integer width, signedness and reserved-code rule that ENGFMT names (R321). -/
def iwidOf (fmt : Word) : Nat := 8 / 2 ^ wfld fmt 11 10
@[inherit_doc iwidOf] def iunsOf (fmt : Word) : Bool := wfld fmt 9 9 = 1
@[inherit_doc iwidOf] def isubOf (fmt : Word) : Nat := wfld fmt 8 7

/-- An integer result as `b` bits. -/
def intBits (b : Nat) (v : Int × Nat) : Nat × Nat := (bitsOf b v.1, v.2)

/-- VCVT (R375): the element width and the elements of the result, from the source, the old destination and ENGFMT. -/
def vcvt (fmt : Word) (code : Nat) (a old : Vec) : Nat × List (Nat × Nat) :=
  let rm := wfld fmt 15 14
  let f32 := (lanes 32 a).map fun x => decodeF FP32 x
  let iw := iwidOf fmt
  if code < 2 then (16, putPart old 16 code (f32.map fun x => roundF BF16 x rm))
  else if code < 4 then (32, (part a 16 (code - 2)).map fun x => roundF FP32 (decodeF BF16 x) 0)
  else if code < 6 then (16, putPart old 16 (code - 4) (f32.map fun x => roundF FP16 x rm))
  else if code < 8 then (32, (part a 16 (code - 6)).map fun x => roundF FP32 (decodeF FP16 x) 0)
  else if code < 12 then (8, putPart old 8 (code - 8) (f32.map fun x => roundF (f8Of fmt) x rm))
  else if code < 16 then (32, (part a 8 (code - 12)).map fun x => roundF FP32 (decodeF (f8Of fmt) x) 0)
  else if code = 16 then (32, f32.map fun x => intBits 32 (toInt x 32 false 0 rm))
  else if code = 17 then (32, (lanes 32 a).map fun x => roundF FP32 (intFl (sint 32 x)) rm)
  else if code < 22 then
    (iw, putPart old iw (code - 18) (f32.map fun x => intBits iw (toInt x iw (iunsOf fmt) (isubOf fmt) rm)))
  else if code < 26 then
    (32, (part a iw (code - 22)).map fun x => (bitsOf 32 (intDecode x iw (iunsOf fmt) (isubOf fmt)), 0))
  else if code < 28 then (16, putPart old 16 (code - 26) ((lanes 32 a).map fun x => (x % 2 ^ 16, 0)))
  else if code < 30 then (32, (part a 16 (code - 28)).map fun x => (bitsOf 32 (sint 16 x), 0))
  else (32, (lanes 32 a).map fun x => roundIntegral FP32 x rm)

/-- Whether a conversion code reads the old destination (R376). -/
def narrowing (code : Nat) : Bool :=
  code < 2 || code = 4 || code = 5 || (8 ≤ code && code < 12) || (18 ≤ code && code < 22) || code = 26 || code = 27

/-! ### Block quantisation (R378 to R383) -/

/-- The blocks of eight lanes of a vector under the W bit (R378). -/
def blocks (w : BitVec 1) (v : Vec) : List (List Nat) :=
  (List.range (if w = 0 then 4 else 8)).map fun b => (List.range 8).map fun j => velem v (laneW w) (8 * b + j)

/-- VBMAX (R378 to R380): the row of scales and the scale bypass, from the source and the old destination. -/
def vbmax (w : BitVec 1) (a old : Vec) : Vec × Vec :=
  let bs := (vword old 31).toNat % 2 ^ 16
  let cs := (blocks w a).map fun v => blockScale (v.map (decodeF (laneF w))) (decodeF BF16 bs)
  let codes := packNat 8 (cs.map (·.1))
  let mask (k : BlockClass) : Nat := packNat 1 (cs.map fun c => if c.2 = k then 1 else 0)
  (BitVec.ofNat 1024 (codes + (vword old 31).toNat * 2 ^ 992),
   BitVec.ofNat 1024 (codes + (2 ^ 17 + w.toNat * 2 ^ 16 + mask .nan * 2 ^ 8 + mask .sat) * 2 ^ 960 + bs * 2 ^ 992))

/-- Whether a band scale is a NaN, infinite or below −0 (R323). -/
def badBand (bs : Fl) : Bool :=
  match bs with
  | .nan _ => true
  | .inf _ => true
  | .fin neg _ _ _ => neg
  | .zero _ => false

/-- VQCVT (R381): the block words and the sticky flags, from the source and the image of the scale bypass. -/
def vqcvt (w : BitVec 1) (a img : Vec) : List (Nat × Nat) :=
  let bs := decodeF BF16 ((vword img 31).toNat % 2 ^ 16)
  let ctl := (vword img 30).toNat
  let word (b : Nat) (v : List Nat) : Nat × Nat :=
    let xs := v.map (decodeF (laneF w))
    let sc := velem img 8 b
    if ctl / 2 ^ (8 + b) % 2 = 1 || xs.any Fl.isNaN || badBand bs then (0, fQNAN)
    else if sc = 0 || bs = .zero false || bs = .zero true then (0, 0)
    else (packNat 4 (xs.map fun x => quantElem x sc bs), if ctl / 2 ^ b % 2 = 1 then fQSAT else 0)
  List.zipWith word (List.range 8) (blocks w a)

/-- VDEQ (R383): the lanes, from the block words and the row of scales. -/
def vdeq (w : BitVec 1) (rm : Nat) (a sc : Vec) : List (Nat × Nat) :=
  let bs := decodeF BF16 ((vword sc 31).toNat % 2 ^ 16)
  (List.range (1024 / laneW w)).map fun e =>
    let (x, f) := prodFl [decodeF FP4 (velem a 4 e), scaleFl (velem sc 8 (e / 8)), bs]
    let (y, g) := roundF (laneF w) x rm
    (y, Nat.lor f g)

/-- The result of a V word from its captured operands (R359, R362 to R383). -/
def vectorRes (rp : Replay) : Res :=
  let a := vslot rp 0
  let b := vslot rp 1
  let c := vslot rp 2
  let rm := wfld rp.fmt 15 14
  let un (d : BitVec 7) (w : BitVec 1) (f : Nat → Nat × Nat) : Res := matRes d.toNat (laneW w) ((lanes (laneW w) a).map f)
  let bin (d : BitVec 7) (w : BitVec 1) (f : Nat → Nat → Nat × Nat) : Res :=
    matRes d.toNat (laneW w) (List.zipWith f (lanes (laneW w) a) (lanes (laneW w) b))
  let tri (d : BitVec 7) (w : BitVec 1) (f : Nat → Nat → Nat → Nat × Nat) : Res :=
    matRes d.toNat (laneW w) (List.zipWith (fun x p => f x p.1 p.2) (lanes (laneW w) a)
      (List.zip (lanes (laneW w) b) (lanes (laneW w) c)))
  let red (d : BitVec 6) (w : BitVec 1) (op : Nat → Nat → Nat × Nat) : Res :=
    fpRes d.toNat (tree op (if w = 0 then 5 else 6) ((lanes (laneW w) a).map fun x => (widen w x, 0)))
  match rp.instr with
  | .vmov _ d _ => { writes := [(.mat d.toNat, a)] }
  | .vfadd _ w d _ _ => bin d w fun x y => fAdd (laneF w) x y rm
  | .vfsub _ w d _ _ => bin d w fun x y => fSub (laneF w) x y rm
  | .vfmul _ w d _ _ => bin d w fun x y => fMul (laneF w) x y rm
  | .vfma _ w d _ _ => tri d w fun x y z => fFma (laneF w) x y z rm
  | .vfmin _ w d _ _ => bin d w (fMin (laneF w))
  | .vfmax _ w d _ _ => bin d w (fMax (laneF w))
  | .vadd _ w d _ _ => bin d w (quiet fun x y => x + y)
  | .vsub _ w d _ _ => bin d w (quiet fun x y => x + 2 ^ laneW w - y)
  | .vmul _ w d _ _ => bin d w (quiet fun x y => x * y)
  | .vmin _ w d _ _ => bin d w (quiet (sMin (laneW w)))
  | .vmax _ w d _ _ => bin d w (quiet (sMax (laneW w)))
  | .vminu _ w d _ _ => bin d w (quiet fun x y => if x ≤ y then x else y)
  | .vmaxu _ w d _ _ => bin d w (quiet fun x y => if x ≤ y then y else x)
  | .vand _ d _ _ => { writes := [(.mat d.toNat, a &&& b)] }
  | .vor _ d _ _ => { writes := [(.mat d.toNat, a ||| b)] }
  | .vxor _ d _ _ => { writes := [(.mat d.toNat, a ^^^ b)] }
  | .vshl _ w d _ _ => bin d w (quiet fun x y => x * 2 ^ (y % laneW w))
  | .vshr _ w d _ _ => bin d w (quiet fun x y => x / 2 ^ (y % laneW w))
  | .vsar _ w d _ _ => bin d w (quiet fun x y => bitsOf (laneW w) (sint (laneW w) x / 2 ^ (y % laneW w)))
  | .vfcmpeq _ w d _ _ => bin d w fun x y => maskLane (laneW w) (fCmp (laneF w) 0 x y)
  | .vfcmplt _ w d _ _ => bin d w fun x y => maskLane (laneW w) (fCmp (laneF w) 1 x y)
  | .vcmpeq _ w d _ _ => bin d w fun x y => maskLane (laneW w) (x = y, 0)
  | .vcmplt _ w d _ _ => bin d w fun x y => maskLane (laneW w) (sint (laneW w) x < sint (laneW w) y, 0)
  | .vsel _ w d _ _ => tri d w fun x y z => (if z / 2 ^ (laneW w - 1) = 1 then x else y, 0)
  | .vexp2 _ w d _ => un d w (vexp2Lane w rm)
  | .vrcp _ w d _ => un d w fun x => fRcp (laneF w) x rm
  | .vrsq _ w d _ => un d w fun x => fRsq (laneF w) x rm
  | .vfrsum _ w d _ => red d w fun x y => fAdd FP32 x y rm
  | .vfrmax _ w d _ => red d w (fMax FP32)
  | .vbcast _ w d _ => un d w fun _ => (a.toNat % 2 ^ laneW w, 0)
  | .vperm _ w d _ _ => matRes d.toNat (laneW w) ((lanes (laneW w) b).map fun k => (permLane (laneW w) a k, 0))
  | .vcvt _ d _ x =>
    let r := vcvt rp.fmt x.toNat a c
    matRes d.toNat r.1 r.2
  | .vbmax _ w d _ =>
    let r := vbmax w a b
    { writes := [(.mat d.toNat, r.1), (.bypass, r.2)] }
  | .vqcvt _ w d _ => matRes d.toNat 32 (vqcvt w a b)
  | .vdeq _ w d _ _ => matRes d.toNat (laneW w) (vdeq w rm a b)
  | .vqmov _ d _ => { writes := [(.mat d.toNat, a)] }
  | _ => {}

/-- The issue of a V word whose operand slots are matrix vectors (R359, R386). -/
def issueMats (s : State) (i : Instr) (lat : Nat) (vec : Bool) (ms : List Nat) : Host.Outcome State Fault Refusal :=
  issueResult s i .task lat vec none (fun s => ms.map (readMat s.ccore.mrf)) vectorRes

/-- The queue of a neighbour that a link feeds: the opposite side (R75, R374). -/
def farQueue (link : Nat) : Nat := (link + 2) % 4

/-- The entries on their way over a link into a queue (R79). -/
def linkFlight (k : Core) (q : Nat) : Nat :=
  (k.arriving.filter fun p => match p.act with
    | .link r _ => r = q
    | _ => false).length

/-- The state with an item on its way to a core outside its threads' agendas, and its number there. -/
def State.arrive (s : State) (d : Nat) (p : Pending) : State × Nat :=
  let id := (s.core d).task.nid
  (s.modCore d fun k => { k with arriving := k.arriving ++ [{ p with id := id }], task := { k.task with nid := id + 1 } }, id)

/-- The entries that stand in a queue of a core or are on their way to it over its link (R79). -/
def linkUsed (s : State) (d q : Nat) : Nat := (smGet [] (s.core d).fifo q).length + linkFlight (s.core d) q

/-- The time that an entry takes over a crossing link (R155): 8 tk of its sender's region, and a period of the synchroniser. -/
def crossing (s : State) (c : Nat) : Nat :=
  let r := s.region (regionOf c)
  (((r.edges 128)[7]?).map fun e => e - s.now).getD (8 * r.period) + r.period

/-- A link send (R75, R78, R79, R155 to R158, R208, R240, R374): within a region the entry is in the latch two hardware ticks
after the send; across a boundary it takes 8 tk of link and a period of the synchroniser. The entry would enter a full FIFO where what stands there and
what is on its way, less what the receiver's schedule pops before the entry enters (`Cur.plan`), leaves it no place. -/
def linkSend (s : State) (link : Nat) (v : Vec) : State :=
  let c := s.cur.core
  match neighbour c link with
  | none => raise s 2 9 2
  | some d =>
    let k := s.core d
    let q := farQueue link
    let far : Bool := regionOf c ≠ regionOf d
    let way := crossing s c
    if gatedCore s d then raise s 2 9 2
    else if far && ((s.core c).waited || sinceExit s c > 6144) then raise s 2 3 8
    else if linkUsed s d q ≥ 16 + smGet 0 s.cur.plan.pops link then
      if s.cur.plan.halts.contains link then
        let s := stopMember s c s.ctick none false false
        { s with cur := { s.cur with raised := some {} } }
      else raise s 2 3 9 0 (BitVec.ofNat 64 (k.snapRel % 2 ^ 32 * 2 ^ 32 + (s.rel c).toNat % 2 ^ 32))
    else
      let (s, id) := s.arrive d
        { id := 0, tick := (s.region (regionOf d)).hw.toNat + 1, phase := if far then 0 else 1, act := .link q v, src := c }
      if far then s.later way (.linkEntryArrive d id) else s

/-- VMOV (R364). Copies one matrix vector into another, in any direction. -/
def execVmov (ch : Bool) (d a : BitVec 7) (s : State) : Host.Outcome State Fault Refusal :=
  issueMats s (.vmov ch d a) 2 true [a.toNat]

/-- VFADD (R362). Performs a lane-wise FP add. -/
def execVfadd (ch : Bool) (w : BitVec 1) (d a b : BitVec 7) (s : State) : Host.Outcome State Fault Refusal :=
  issueMats s (.vfadd ch w d a b) 5 true [a.toNat, b.toNat]

/-- VFSUB (R362). Performs a lane-wise FP subtract. -/
def execVfsub (ch : Bool) (w : BitVec 1) (d a b : BitVec 7) (s : State) : Host.Outcome State Fault Refusal :=
  issueMats s (.vfsub ch w d a b) 5 true [a.toNat, b.toNat]

/-- VFMUL (R362). Performs a lane-wise FP multiply. -/
def execVfmul (ch : Bool) (w : BitVec 1) (d a b : BitVec 7) (s : State) : Host.Outcome State Fault Refusal :=
  issueMats s (.vfmul ch w d a b) 5 true [a.toNat, b.toNat]

/-- VFMA (R362). Performs a lane-wise fused multiply-add into the destination. -/
def execVfma (ch : Bool) (w : BitVec 1) (d a b : BitVec 7) (s : State) : Host.Outcome State Fault Refusal :=
  issueMats s (.vfma ch w d a b) 5 true [a.toNat, b.toNat, d.toNat]

/-- VFMIN (R362). Writes the lane-wise FMin. -/
def execVfmin (ch : Bool) (w : BitVec 1) (d a b : BitVec 7) (s : State) : Host.Outcome State Fault Refusal :=
  issueMats s (.vfmin ch w d a b) 2 true [a.toNat, b.toNat]

/-- VFMAX (R362). Writes the lane-wise FMax. -/
def execVfmax (ch : Bool) (w : BitVec 1) (d a b : BitVec 7) (s : State) : Host.Outcome State Fault Refusal :=
  issueMats s (.vfmax ch w d a b) 2 true [a.toNat, b.toNat]

/-- VADD (R363). Performs a lane-wise integer add. -/
def execVadd (ch : Bool) (w : BitVec 1) (d a b : BitVec 7) (s : State) : Host.Outcome State Fault Refusal :=
  issueMats s (.vadd ch w d a b) 2 true [a.toNat, b.toNat]

/-- VSUB (R363). Performs a lane-wise integer subtract. -/
def execVsub (ch : Bool) (w : BitVec 1) (d a b : BitVec 7) (s : State) : Host.Outcome State Fault Refusal :=
  issueMats s (.vsub ch w d a b) 2 true [a.toNat, b.toNat]

/-- VMUL (R363). Writes the low half of the lane-wise integer product. -/
def execVmul (ch : Bool) (w : BitVec 1) (d a b : BitVec 7) (s : State) : Host.Outcome State Fault Refusal :=
  issueMats s (.vmul ch w d a b) 3 true [a.toNat, b.toNat]

/-- VMIN (R363). Writes the lane-wise signed minimum. -/
def execVmin (ch : Bool) (w : BitVec 1) (d a b : BitVec 7) (s : State) : Host.Outcome State Fault Refusal :=
  issueMats s (.vmin ch w d a b) 2 true [a.toNat, b.toNat]

/-- VMAX (R363). Writes the lane-wise signed maximum. -/
def execVmax (ch : Bool) (w : BitVec 1) (d a b : BitVec 7) (s : State) : Host.Outcome State Fault Refusal :=
  issueMats s (.vmax ch w d a b) 2 true [a.toNat, b.toNat]

/-- VMINU (R363). Writes the lane-wise unsigned minimum. -/
def execVminu (ch : Bool) (w : BitVec 1) (d a b : BitVec 7) (s : State) : Host.Outcome State Fault Refusal :=
  issueMats s (.vminu ch w d a b) 2 true [a.toNat, b.toNat]

/-- VMAXU (R363). Writes the lane-wise unsigned maximum. -/
def execVmaxu (ch : Bool) (w : BitVec 1) (d a b : BitVec 7) (s : State) : Host.Outcome State Fault Refusal :=
  issueMats s (.vmaxu ch w d a b) 2 true [a.toNat, b.toNat]

/-- VAND (R364). Writes the 1,024-bit bitwise AND. -/
def execVand (ch : Bool) (d a b : BitVec 7) (s : State) : Host.Outcome State Fault Refusal :=
  issueMats s (.vand ch d a b) 2 true [a.toNat, b.toNat]

/-- VOR (R364). Writes the 1,024-bit bitwise OR. -/
def execVor (ch : Bool) (d a b : BitVec 7) (s : State) : Host.Outcome State Fault Refusal :=
  issueMats s (.vor ch d a b) 2 true [a.toNat, b.toNat]

/-- VXOR (R364). Writes the 1,024-bit bitwise XOR. -/
def execVxor (ch : Bool) (d a b : BitVec 7) (s : State) : Host.Outcome State Fault Refusal :=
  issueMats s (.vxor ch d a b) 2 true [a.toNat, b.toNat]

/-- VSHL (R363). Performs a lane-wise left shift. -/
def execVshl (ch : Bool) (w : BitVec 1) (d a b : BitVec 7) (s : State) : Host.Outcome State Fault Refusal :=
  issueMats s (.vshl ch w d a b) 2 true [a.toNat, b.toNat]

/-- VSHR (R363). Performs a lane-wise logical right shift. -/
def execVshr (ch : Bool) (w : BitVec 1) (d a b : BitVec 7) (s : State) : Host.Outcome State Fault Refusal :=
  issueMats s (.vshr ch w d a b) 2 true [a.toNat, b.toNat]

/-- VSAR (R363). Performs a lane-wise arithmetic right shift. -/
def execVsar (ch : Bool) (w : BitVec 1) (d a b : BitVec 7) (s : State) : Host.Outcome State Fault Refusal :=
  issueMats s (.vsar ch w d a b) 2 true [a.toNat, b.toNat]

/-- VFCMPEQ (R365). Writes a lane-wise FP equality mask. -/
def execVfcmpeq (ch : Bool) (w : BitVec 1) (d a b : BitVec 7) (s : State) : Host.Outcome State Fault Refusal :=
  issueMats s (.vfcmpeq ch w d a b) 2 true [a.toNat, b.toNat]

/-- VFCMPLT (R365). Writes a lane-wise FP less-than mask. -/
def execVfcmplt (ch : Bool) (w : BitVec 1) (d a b : BitVec 7) (s : State) : Host.Outcome State Fault Refusal :=
  issueMats s (.vfcmplt ch w d a b) 2 true [a.toNat, b.toNat]

/-- VCMPEQ (R365). Writes a lane-wise integer equality mask. -/
def execVcmpeq (ch : Bool) (w : BitVec 1) (d a b : BitVec 7) (s : State) : Host.Outcome State Fault Refusal :=
  issueMats s (.vcmpeq ch w d a b) 2 true [a.toNat, b.toNat]

/-- VCMPLT (R365). Writes a lane-wise signed less-than mask. -/
def execVcmplt (ch : Bool) (w : BitVec 1) (d a b : BitVec 7) (s : State) : Host.Outcome State Fault Refusal :=
  issueMats s (.vcmplt ch w d a b) 2 true [a.toNat, b.toNat]

/-- VSEL (R366). Selects lanes of A or B by the top bits of the old destination. -/
def execVsel (ch : Bool) (w : BitVec 1) (d a b : BitVec 7) (s : State) : Host.Outcome State Fault Refusal :=
  issueMats s (.vsel ch w d a b) 2 true [a.toNat, b.toNat, d.toNat]

/-- VEXP2 (R367). Applies Exp2 to each lane. -/
def execVexp2 (ch : Bool) (w : BitVec 1) (d a : BitVec 7) (s : State) : Host.Outcome State Fault Refusal :=
  issueMats s (.vexp2 ch w d a) 8 true [a.toNat]

/-- VRCP (R368). Writes the lane-wise reciprocal. -/
def execVrcp (ch : Bool) (w : BitVec 1) (d a : BitVec 7) (s : State) : Host.Outcome State Fault Refusal :=
  issueMats s (.vrcp ch w d a) 8 true [a.toNat]

/-- VRSQ (R368). Writes the lane-wise reciprocal square root. -/
def execVrsq (ch : Bool) (w : BitVec 1) (d a : BitVec 7) (s : State) : Host.Outcome State Fault Refusal :=
  issueMats s (.vrsq ch w d a) 8 true [a.toNat]

/-- VFRSUM (R369). Sums the lanes in a fixed pairwise tree into a scalar register. -/
def execVfrsum (ch : Bool) (w : BitVec 1) (d : BitVec 6) (a : BitVec 7) (s : State) : Host.Outcome State Fault Refusal :=
  issueMats s (.vfrsum ch w d a) 6 true [a.toNat]

/-- VFRMAX (R370). Reduces the lanes by FMax into a scalar register. -/
def execVfrmax (ch : Bool) (w : BitVec 1) (d : BitVec 6) (a : BitVec 7) (s : State) : Host.Outcome State Fault Refusal :=
  issueMats s (.vfrmax ch w d a) 6 true [a.toNat]

/-- VBCAST (R371). Broadcasts a scalar into every lane. -/
def execVbcast (ch : Bool) (w : BitVec 1) (d : BitVec 7) (a : BitVec 6) (s : State) : Host.Outcome State Fault Refusal :=
  issueResult s (.vbcast ch w d a) .task 2 false none (fun s => [slotOf (rdReg s a.toNat)]) vectorRes

/-- VPERM (R372). Permutes the lanes of A by the indices in B. -/
def execVperm (ch : Bool) (w : BitVec 1) (d a b : BitVec 7) (s : State) : Host.Outcome State Fault Refusal :=
  issueMats s (.vperm ch w d a b) 3 true [a.toNat, b.toNat]

/-- VCVT (R375). Converts lanes under a conversion code. -/
def execVcvt (ch : Bool) (d a : BitVec 7) (x : BitVec 5) (s : State) : Host.Outcome State Fault Refusal :=
  issueResult s (.vcvt ch d a x) .task 3 true none
    (fun s => if narrowing x.toNat then [readMat s.ccore.mrf a.toNat, 0, readMat s.ccore.mrf d.toNat]
      else [readMat s.ccore.mrf a.toNat]) vectorRes

/-- VBMAX (R379). Computes block scale codes, writes the scale row and loads the scale bypass. -/
def execVbmax (ch : Bool) (w : BitVec 1) (d a : BitVec 7) (s : State) : Host.Outcome State Fault Refusal :=
  issueMats s (.vbmax ch w d a) 6 true [a.toNat, d.toNat]

/-- VQCVT (R381). Quantises blocks to FP4, using the scale bypass. -/
def execVqcvt (ch : Bool) (w : BitVec 1) (d a : BitVec 7) (s : State) : Host.Outcome State Fault Refusal :=
  issueWord s (.vqcvt ch w d a) .task fun s =>
    let img := readBypass s.ccore.bypass
    if fld (vword img 30).toNat 17 16 ≠ 2 + w.toNat then raise s 2 3 0
    else
      let rp := mkReplay s (.vqcvt ch w d a) none [readMat s.ccore.mrf a.toNat, img] true
      postResult s 5 rp (vectorRes rp)

/-- VDEQ (R383). Dequantises FP4 blocks with their scales. -/
def execVdeq (ch : Bool) (w : BitVec 1) (d a b : BitVec 7) (s : State) : Host.Outcome State Fault Refusal :=
  issueMats s (.vdeq ch w d a b) 5 true [a.toNat, b.toNat]

/-- VSETFMT (R384). Writes ENGFMT from a scalar, taking effect three bundles later. -/
def execVsetfmt (ch : Bool) (a : BitVec 6) (s : State) : Host.Outcome State Fault Refusal :=
  issueWord s (.vsetfmt ch a) .task fun s =>
    let v := rdReg s a.toNat
    if wfld v 63 16 ≠ 0 || wfld v 13 12 ≠ 0 || wfld v 6 1 ≠ 0 || wfld v 11 10 = 3 || wfld v 8 7 = 3 then raise s 2 1 1
    else s.modCore s.cur.core fun k => { k with fmtq := k.fmtq ++ [(k.bundles + 3, v)] }

/-- VQMOV (R373). Receive form: copies a queue-latch entry into a vector without popping it. -/
def execVqmov (ch : Bool) (d : BitVec 7) (q : BitVec 3) (s : State) : Host.Outcome State Fault Refusal :=
  issueWord s (.vqmov ch d q) .task fun s =>
    match latchOf s.ccore q.toNat with
    | none => emptyLatch s 2 q.toNat
    | some v =>
      let rp := mkReplay s (.vqmov ch d q) none [v] true
      postResult s 2 rp (vectorRes rp)

/-- VQMOV_SEND (R374). Send form: sends a vector over a neighbour link. -/
def execVqmovSend (ch : Bool) (d : BitVec 7) (l : BitVec 2) (s : State) : Host.Outcome State Fault Refusal :=
  issueWord s (.vqmovSend ch d l) .task fun s => linkSend s l.toNat (readMat s.ccore.mrf d.toNat)

end Sys2Proof.Machine
end

