-- ==== Sys2Proof/Machine/CtlWord.lean ====
section
/-!
DEFINITION. Control words (spec/09_encoding.md R290 to R296): the pops and the loop end of a BCW, EXT, and the pending ring table.
-/
namespace Sys2Proof.Machine

/-- The state in which the latches of a pop mask have dropped their heads, lowest first; an empty one faults (R77). The latches and FIFOs of a stopped member keep
their values (R257): a handler's BCW drops nothing (log 15). -/
def popLatches (s : State) (mask : Nat) : List Nat → State
  | [] => s
  | q :: qs =>
    match s.cur.raised with
    | some _ => s
    | none =>
      if fld mask q q = 0 then popLatches s mask qs
      else if (latchOf s.ccore q).isNone then emptyLatch s 0 q
      else if s.cur.hd then popLatches s mask qs
      else popLatches (s.modCore s.cur.core fun k => { k with fifo := smSet k.fifo q ((smGet [] k.fifo q).drop 1) }) mask qs

/-- BCW (R292). Bundle control word: its pop mask, V guard, loop end and exit predicate act for the bundle. -/
def execBcw (ch : Bool) (p : BitVec 8) (v : BitVec 4) (l : BitVec 1) (x : BitVec 4) (s : State) :
    Host.Outcome State Fault Refusal :=
  issueWord s (.bcw ch p v l x) .both fun s =>
    if (l = 1 && !s.cur.inLoop) || (x ≠ 0 && l = 0) then raise s 0 1 1
    else
      let s := popLatches s p.toNat (List.range 8)
      if s.cur.raised.isSome || l = 0 then s
      else s.modThread s.cur.core s.cur.hd fun th => th.loopEnd s.ctick x.toNat (s.cur.pc + s.cur.npk)

/-- EXT (R291). Extends the preceding word's immediate or start offset. -/
def execExt (ch : Bool) (k : BitVec 1) (v : BitVec 25) (s : State) : Host.Outcome State Fault Refusal :=
  issueWord s (.ext ch k v) .both fun s =>
    match s.cur.prev.bind extKind with
    | none => raise s 0 2 2
    | some n => if n = k.toNat then s else raise s 0 1 1

/-- Whether two rings of one kind overlap (R294). -/
def Ring.overlaps (a b : Ring) : Bool := a.matrix = b.matrix && a.base < b.base + b.len && b.base < a.base + a.len

/-- The ILLEGAL cause of a RING word (R294): its length, its end, a pending entry it overlaps, a number written twice, its place
in a loop body, then its cluster. -/
def ringCause (cur : Cur) (pending : SMap Ring) (n : Nat) (r : Ring) : Option Nat :=
  if r.len = 0 || r.len > 32 || r.base + r.len > (if r.matrix then 32 else 64) || cur.inLoop || fld cur.rset n n = 1
      || pending.any (fun e => e.1 ≠ n && e.2.overlaps r) then some 1
  else if !r.matrix && (r.base = 0 || (r.base < 32 && r.base + r.len > 32)) then some 3
  else none

/-- RING (R294). Writes an entry of the pending ring table. -/
def execRing (ch : Bool) (k : BitVec 1) (r : BitVec 3) (b l : BitVec 6) (s : State) : Host.Outcome State Fault Refusal :=
  issueWord s (.ring ch k r b l) .both fun s =>
    let e : Ring := ⟨k = 1, b.toNat, l.toNat⟩
    match ringCause s.cur s.cthread.rings r.toNat e with
    | some c => raise s 0 1 c
    | none =>
      let s := s.modThread s.cur.core s.cur.hd fun t => { t with rings := smSet t.rings r.toNat e }
      { s with cur := { s.cur with rset := Nat.lor s.cur.rset (2 ^ r.toNat) } }

end Sys2Proof.Machine
end

