-- ==== Sys2Proof/Machine/Face.lean ====
section
/-!
DEFINITION. Face loads and stores of the M pipe (spec/14_memory_instructions.md R413 to R419), and the way of an X-space access
to its target core (R81, R82, R169, R171).
-/
namespace Sys2Proof.Machine

/-- A loaded scalar of 2^z bytes, sign-extended when asked (R415). -/
def extend (z : BitVec 2) (x : BitVec 1) (v : Word) : Word := if x = 1 then sext (8 * 2 ^ z.toNat) v.toNat else v

/-- The result of a load from the bytes it read, its slot 0 (R415, R416, log 11). -/
def loadRes (rp : Replay) : Res :=
  let v := slot rp 0
  let m := vslot rp 0
  match rp.instr with
  | .lda _ d _ z x => regRes d.toNat (extend z x v)
  | .ldw _ d _ z x => regRes d.toNat (extend z x v)
  | .ldc _ d _ z x => regRes d.toNat (extend z x v)
  | .ldx _ d _ z x => regRes d.toNat (extend z x v)
  | .mlda _ d _ => { writes := [(.mat d.toNat, m)] }
  | .mldw _ d _ => { writes := [(.mat d.toNat, m)] }
  | .mldc _ d _ => { writes := [(.mat d.toNat, m)] }
  | .mldx _ d _ => { writes := [(.mat d.toNat, m)] }
  | _ => {}

/-- The effective address of a face access (R414). -/
def faceEA (s : State) (a : BitVec 6) : Word := rdReg s a.toNat + immOff s.cur

/-- Bytes as an operand slot. -/
def byteSlot (bs : List Byte) : Vec := BitVec.ofNat 1024 (leNat bs)

/-- Whether a load of `n` bytes faults EARLY (R110, R418): the checker is on, the load is a task's of the A or W face, and a byte
awaits a timeline delivery of this core. -/
def isEarly (s : State) (face off n : Nat) : Bool :=
  !s.cur.hd && face < 2 && wfld s.ccore.echk 0 0 = 1 && (pendingOn s.ccore [0] none face off n s.ctick).isSome

/-- A local load (R413 to R418): it reads at its issue tick, and its result commits at the end of the fifth tick after. -/
def issueLoad (s : State) (i : Instr) (p : Perm) (face n : Nat) (vec : Bool) (a : BitVec 6) : Host.Outcome State Fault Refusal :=
  issueWord s i p fun s =>
    let ea := faceEA s a
    match faceCheck face ea n with
    | some k => raise s 3 9 k ea
    | none =>
      let loc := faceLoc s.cur.core face ea.toNat
      if isEarly s face ea.toNat n then raise s 3 11 0 ea
      else if (poisonIn s loc n).isSome then raise s 3 8 0 ea
      else
        let rp := mkReplay s i none [byteSlot (readBytes s.mem loc n)] vec
        let s := s.access s.cur.core s.cur.hd { id := 0, done := some (s.ctick + 5), mdone := some (s.ctick + 5) }
        postResult s 6 rp (loadRes rp)

/-- A local store (R81, R415, R416): the task's commits at the end of t + 1; a handler's in real time (R183, R419). -/
def issueStore (s : State) (i : Instr) (p : Perm) (face n : Nat) (a : BitVec 6) (data : State → Nat) :
    Host.Outcome State Fault Refusal :=
  issueWord s i p fun s =>
    let ea := faceEA s a
    let c := s.cur.core
    match faceCheck face ea n with
    | some k => raise s 3 9 k ea
    | none =>
      let bs := leBytes n (data s)
      let t := s.ctick + 1
      let ord := s.ctick * 8 + 3
      let s := s.access c s.cur.hd { id := 0, done := some t, mdone := some t }
      if s.cur.hd then
        (s.arrive c { id := 0, tick := (s.region (regionOf c)).hw.toNat + 1, rank := 5, src := c, ord := ord,
                      act := .store face ea.toNat bs }).1
      else s.post c false { id := 0, tick := t, rank := 5, src := c, ord := ord, act := .store face ea.toNat bs }

/-! ### X space -/

/-- L of R81 for an access between two cores. -/
def xLat (c d : Nat) : Nat := 30 + 2 * hops c d + 12 * cross c d
/-- The distance in ticks from the issue of an access to its perform tick at the target (R81). -/
def xWay (c d : Nat) : Nat := 15 + leg c d

/-- The state in which an X-space access is on its way (R81, R82, R165, R169, R171). With a defined perform tick it waits for that
tick of the target; otherwise it performs in a tick of the target's region that is free within the bound of R82, behind earlier traffic
of the same pair of cores. `t` is the tick from which it is timed. DESIGN CHOICE (log 106): an access whose XCORE is the issuing core stands against its core's
local accesses by the ticks of R165, not by the order of issue of R171. -/
def sendX (s : State) (x : XAcc) (t : Nat) (rank : Nat) : State :=
  let c := x.org.core
  let d := x.core
  let load : Bool := rank = 0
  let ord := t * 8 + x.org.pipe
  if exactTick s c x.org.hd d then
    s.post d false { id := 0, tick := mapTick s c d (t + xWay c d), phase := if load then 0 else 1, rank := rank, src := c,
                     ord := ord, acc := some x.acc, act := .xperf x }
  else
    let bound := if load || x.ret.isSome then (xLat c d - 2) * 5 else xLat c d * 5
    let (k, s) := s.draw bound
    (s.arrive d { id := 0, tick := 0, phase := if load then 0 else 1, rank := rank, src := c, ord := ord, acc := some x.acc, net := true,
                  due := s.now + k, limit := some (s.now + bound), act := .xperf x }).1

/-- The checks of an X-space access at its issue (R17, R25 to R27, R208, R240, R414): the fault, or the target. -/
def xTarget (s : State) (ea : Word) (n : Nat) : Except (Nat × Nat) (Nat × Nat × Nat) :=
  match xCheck ea n with
  | some k => .error (9, k)
  | none =>
    let d := xCore s.cur.core ea
    if gatedCore s d then .error (9, 3)
    else if !s.cur.hd && staleExchange s s.cur.core d then .error (3, 8)
    else .ok (d, wfld ea 22 21, wfld ea 20 0)

/-- An access record for an access that reaches a core: its tick when that is known. -/
def xOutst (s : State) (d : Nat) (tick : Nat) (known : Bool) : State :=
  let k := if known then some tick else none
  s.access s.cur.core s.cur.hd { id := 0, cls := 1, core := d, done := k, mdone := k, loose := !exactTick s s.cur.core s.cur.hd d }

/-- The number that the next access or item of the thread being issued gets. -/
def State.nextId (s : State) : Nat := s.cthread.nid

/-- The fault of an X-space check: STALE gives no address, ALIGN gives the address operand. -/
def raiseX (s : State) (pipe : Nat) (f : Nat × Nat) (ea : Word) : State :=
  raise s pipe f.1 f.2 (if f.1 = 9 then ea else 0)

/-- An X-space load (R81, R415 to R417): it reads at the target, and its value returns at the end of t + L − 1. The slot of its replay entry is the address, a scalar
(R259). -/
def issueLoadX (s : State) (i : Instr) (p : Perm) (n : Nat) (a : BitVec 6) : Host.Outcome State Fault Refusal :=
  issueWord s i p fun s =>
    let ea := faceEA s a
    match xTarget s ea n with
    | .error f => raiseX s 3 f ea
    | .ok (d, face, off) =>
      let c := s.cur.core
      let t := s.ctick
      let rp := mkReplay s i none [slotOf ea] false
      let acc := s.nextId
      let s := xOutst s d (t + xLat c d - 1) true
      let ret := s.nextId
      let s := s.post c s.cur.hd { id := 0, tick := t + xLat c d - 1, src := c, ord := resOrd rp.org, acc := some acc,
                                   act := .xret rp none false ea false }
      sendX s { org := rp.org, core := d, face := face, off := off, op := .load n false, ret := some ret, acc := acc } t 0

/-- An X-space store (R81, R415, R416). -/
def issueStoreX (s : State) (i : Instr) (p : Perm) (n : Nat) (a : BitVec 6) (data : State → Nat) :
    Host.Outcome State Fault Refusal :=
  issueWord s i p fun s =>
    let ea := faceEA s a
    match xTarget s ea n with
    | .error f => raiseX s 3 f ea
    | .ok (d, face, off) =>
      let c := s.cur.core
      let t := s.ctick
      let bs := leBytes n (data s)
      let acc := s.nextId
      let s := xOutst s d (t + xWay c d) (exactTick s c s.cur.hd d)
      sendX s { org := origin s 3, core := d, face := face, off := off, op := .store bs, acc := acc } t 5

/-- The data of a scalar and of a matrix store, read at the issue tick (R415, R416). -/
def regData (d : BitVec 6) (s : State) : Nat := (rdReg s d.toNat).toNat
@[inherit_doc regData] def matData (m : BitVec 7) (s : State) : Nat := (readMat s.ccore.mrf m.toNat).toNat

/-- LDA (R415). Loads a scalar from the A face. -/
def execLda (h : Head) (d a : BitVec 6) (z : BitVec 2) (x : BitVec 1) (s : State) : Host.Outcome State Fault Refusal :=
  issueLoad s (.lda h d a z x) .both 0 (2 ^ z.toNat) false a

/-- STA (R415). Stores a scalar into the A face. -/
def execSta (h : Head) (d a : BitVec 6) (z : BitVec 2) (s : State) : Host.Outcome State Fault Refusal :=
  issueStore s (.sta h d a z) .both 0 (2 ^ z.toNat) a (regData d)

/-- MLDA (R416). Loads a matrix vector from the A face. -/
def execMlda (h : Head) (m : BitVec 7) (a : BitVec 6) (s : State) : Host.Outcome State Fault Refusal :=
  issueLoad s (.mlda h m a) .task 0 128 true a

/-- MSTA (R416). Stores a matrix vector into the A face. -/
def execMsta (h : Head) (m : BitVec 7) (a : BitVec 6) (s : State) : Host.Outcome State Fault Refusal :=
  issueStore s (.msta h m a) .task 0 128 a (matData m)

/-- LDW (R415). Loads a scalar from the W face. -/
def execLdw (h : Head) (d a : BitVec 6) (z : BitVec 2) (x : BitVec 1) (s : State) : Host.Outcome State Fault Refusal :=
  issueLoad s (.ldw h d a z x) .both 1 (2 ^ z.toNat) false a

/-- STW (R415). Stores a scalar into the W face. -/
def execStw (h : Head) (d a : BitVec 6) (z : BitVec 2) (s : State) : Host.Outcome State Fault Refusal :=
  issueStore s (.stw h d a z) .both 1 (2 ^ z.toNat) a (regData d)

/-- MLDW (R416). Loads a matrix vector from the W face. -/
def execMldw (h : Head) (m : BitVec 7) (a : BitVec 6) (s : State) : Host.Outcome State Fault Refusal :=
  issueLoad s (.mldw h m a) .task 1 128 true a

/-- MSTW (R416). Stores a matrix vector into the W face. -/
def execMstw (h : Head) (m : BitVec 7) (a : BitVec 6) (s : State) : Host.Outcome State Fault Refusal :=
  issueStore s (.mstw h m a) .task 1 128 a (matData m)

/-- LDC (R415). Loads a scalar from the C face. -/
def execLdc (h : Head) (d a : BitVec 6) (z : BitVec 2) (x : BitVec 1) (s : State) : Host.Outcome State Fault Refusal :=
  issueLoad s (.ldc h d a z x) .both 2 (2 ^ z.toNat) false a

/-- STC (R415). Stores a scalar into the C face. -/
def execStc (h : Head) (d a : BitVec 6) (z : BitVec 2) (s : State) : Host.Outcome State Fault Refusal :=
  issueStore s (.stc h d a z) .both 2 (2 ^ z.toNat) a (regData d)

/-- MLDC (R416). Loads a matrix vector from the C face. -/
def execMldc (h : Head) (m : BitVec 7) (a : BitVec 6) (s : State) : Host.Outcome State Fault Refusal :=
  issueLoad s (.mldc h m a) .task 2 128 true a

/-- MSTC (R416). Stores a matrix vector into the C face. -/
def execMstc (h : Head) (m : BitVec 7) (a : BitVec 6) (s : State) : Host.Outcome State Fault Refusal :=
  issueStore s (.mstc h m a) .task 2 128 a (matData m)

/-- LDX (R415). Loads a scalar from a face of the cluster through the X space. -/
def execLdx (h : Head) (d a : BitVec 6) (z : BitVec 2) (x : BitVec 1) (s : State) : Host.Outcome State Fault Refusal :=
  issueLoadX s (.ldx h d a z x) .both (2 ^ z.toNat) a

/-- STX (R415). Stores a scalar into a face of the cluster through the X space. -/
def execStx (h : Head) (d a : BitVec 6) (z : BitVec 2) (s : State) : Host.Outcome State Fault Refusal :=
  issueStoreX s (.stx h d a z) .both (2 ^ z.toNat) a (regData d)

/-- MLDX (R416). Loads a matrix vector through the X space. -/
def execMldx (h : Head) (m : BitVec 7) (a : BitVec 6) (s : State) : Host.Outcome State Fault Refusal :=
  issueLoadX s (.mldx h m a) .task 128 a

/-- MSTX (R416). Stores a matrix vector through the X space. -/
def execMstx (h : Head) (m : BitVec 7) (a : BitVec 6) (s : State) : Host.Outcome State Fault Refusal :=
  issueStoreX s (.mstx h m a) .task 128 a (matData m)

end Sys2Proof.Machine
end

