-- ==== Sys2Proof/Machine/Atomic.lean ====
section
/-!
DEFINITION. Atomics (spec/15_sync_system_instructions.md R441 to R446): the new value of each operation, the checks at issue, the
ways to an X-space target and to the atomic unit of a stack, and the wait of a fence (R189, R190, R206, R208, R209).
-/
namespace Sys2Proof.Machine

/-- The new value of an atomic of `n` bytes from the old value, the operand and the compare value (R441). Operations: 0 add,
1 and 2 signed maximum and minimum, 3 and 4 unsigned, 5 exchange, 6 compare and swap, 7 to 9 FP32 add, maximum, minimum. -/
def atomVal (op n old b c : Nat) : Nat :=
  let m := 2 ^ (8 * n)
  let b := b % m
  match op with
  | 0 => (old + b) % m
  | 1 => sMax (8 * n) old b
  | 2 => sMin (8 * n) old b
  | 3 => if old ≤ b then b else old
  | 4 => if old ≤ b then old else b
  | 5 => b
  | 6 => if old = c % m then b else old
  | 7 => (fAdd FP32 old b 0).1
  | 8 => (fMax FP32 old b).1
  | _ => (fMin FP32 old b).1

/-- The register that an atomic writes the old value to: none for the no-return forms (R441). -/
def atomDest (i : Instr) : Option Nat :=
  match i with
  | .aaddW _ _ _ d _ _ => some (32 + d.toNat)
  | .aaddD _ _ _ d _ _ => some (32 + d.toNat)
  | .asmaxW _ _ _ d _ _ => some (32 + d.toNat)
  | .asmaxD _ _ _ d _ _ => some (32 + d.toNat)
  | .asminW _ _ _ d _ _ => some (32 + d.toNat)
  | .asminD _ _ _ d _ _ => some (32 + d.toNat)
  | .aumaxW _ _ _ d _ _ => some (32 + d.toNat)
  | .aumaxD _ _ _ d _ _ => some (32 + d.toNat)
  | .auminW _ _ _ d _ _ => some (32 + d.toNat)
  | .auminD _ _ _ d _ _ => some (32 + d.toNat)
  | .axchgW _ _ _ d _ _ => some (32 + d.toNat)
  | .axchgD _ _ _ d _ _ => some (32 + d.toNat)
  | .acasW _ _ _ d _ _ => some (32 + d.toNat)
  | .acasD _ _ _ d _ _ => some (32 + d.toNat)
  | .afadd _ _ _ d _ _ => some (32 + d.toNat)
  | .afmax _ _ _ d _ _ => some (32 + d.toNat)
  | .afmin _ _ _ d _ _ => some (32 + d.toNat)
  | _ => none

/-- The result of a returning atomic: the old value, zero-extended (R441). -/
def atomRes (rp : Replay) (old : Vec) : Res :=
  match atomDest rp.instr with
  | some r => regRes r (ofSlot old)
  | none => {}

/-! ### Fences (R189 to R191) -/

/-- Whether an access lies within a fence's scope (R189): a handler's fence waits for all of its accesses (R191). DESIGN CHOICE (log 105): a copy or multicast to
another core's face stands in the rows that name it, from .pack on, and not in .core's 'every engine command'. -/
def inScope (s : State) (c : Nat) (hd : Bool) (scope : Nat) (o : Outst) : Bool :=
  hd || match o.cls with
    | 0 => true
    | 1 => scope ≥ 3 || (scope ≥ 1 && s.samePack c o.core) || (scope = 2 && regionOf c = regionOf o.core)
    | 2 => scope ≥ 4
    | 3 => scope ≥ 5
    | _ => false

/-- Whether an access has not performed before tick `t` (R190). -/
def Outst.isOpen (o : Outst) (t : Nat) : Bool := !((o.done.map fun d => decide (d < t)).getD false)

/-- Whether a fence for the accesses below number `upTo` is an unbounded wait (R190, R206): one of .pack is where it waits for an access without a defined perform
tick. -/
def fenceUnbounded (s : State) (scope upTo : Nat) : Bool :=
  scope ≥ 2 || (scope = 1 && s.cthread.outst.any fun o => o.id < upTo && inScope s s.cur.core s.cur.hd 1 o && o.loose && o.isOpen s.ctick)

/-- The last tick at which a timeline command of a core still to be presented performs. -/
def lastStamp (k : Core) : Nat := k.tlq.foldl (fun m t => (t.bursts.foldl (fun m b => max m b.tick) (max m t.tick))) 0

/-- The state in which the bundle being issued has begun an unbounded wait of its task (R206), which counts from the end of the bundle (R208). -/
def beginUnbounded (s : State) : State := if s.cur.hd then s else { s with cur := { s.cur with unb := true } }

/-- The state in which an unbounded wait of a core's task has begun with the bundle it has issued (R208, R209): until the exit of a HEEL issued after it,
exchanges fault STALE, and the core's banks are in the controller's care from its present tick or that of the last command posted on. Where a HEEL is pending that is to
end the care of an earlier wait, it still does; the new care begins as `careNext`. -/
def beginCare (s : State) (c : Nat) : State :=
  let from_ := max (s.tick c false) (lastStamp (s.core c))
  s.modCore c fun k =>
    if k.careFrom.isSome && (k.heel.map (·.fresh)).getD false then { k with careNext := k.careNext.orElse fun _ => some from_ }
    else { k with waited := true, careFrom := k.careFrom.orElse fun _ => some from_, heel := k.heel.map fun h => { h with fresh := false } }

/-- The state in which the thread being issued waits. -/
def setWait (s : State) (w : Wait) : State := s.modThread s.cur.core s.cur.hd fun t => { t with wait := some w }

/-- A fence of a scope for the accesses below number `upTo`, with what follows it (R190). -/
def startFence (s : State) (scope upTo : Nat) (after : After) : State :=
  let unb := fenceUnbounded s scope upTo
  let s := if unb then beginUnbounded s else s
  setWait s (.fence scope upTo s.ctick unb after)

/-! ### Sending -/

/-- One-way transport to a stack's atomic unit, and the latency of a G atomic (R444). -/
def tauA (c hs : Nat) : Nat := if hs / 4 = stackOf c then 24 else 40
@[inherit_doc tauA] def gLat (c hs : Nat) : Nat := 2 * tauA c hs + 20

/-- The state with the issuer's look at the poison of its atomic's line at its tick `p` (R446). -/
def postProbe (s : State) (o : Origin) (p d acc loc n : Nat) (g : Bool) (addr : Word) : State :=
  s.post o.core o.hd { id := 0, tick := p, phase := 0, src := o.core, ord := resOrd o, act := .probe o d acc loc n g false addr }

/-- The state in which an X-space atomic, timed from tick `u`, is on its way (R443). -/
def sendAtomX (s : State) (x : XAcc) (rp : Replay) (u : Nat) (addr : Word) : State :=
  let c := x.org.core
  let d := x.core
  let n := match x.op with
    | .atomic _ n _ _ => n
    | _ => 0
  let s := postProbe s x.org (u + xWay c d) d x.acc (faceLoc d x.face x.off) n false addr
  match atomDest rp.instr with
  | some _ =>
    let ret := (s.thread c x.org.hd).nid
    let s := s.post c x.org.hd { id := 0, tick := u + xLat c d - 1, src := c, ord := resOrd x.org, acc := some x.acc,
                                 act := .xret rp none false addr false }
    sendX (s.performed c x.org.hd x.acc (u + xLat c d - 1)) { x with ret := some ret } u 6
  | none =>
    let s := if exactTick s c x.org.hd d then s.performed c x.org.hd x.acc (u + xWay c d) else s
    sendX s x u 6

/-- The state in which a G atomic, timed from tick `u`, is on its way to its unit (R174, R444): it takes a slot of the core until
its return; a grouped one performs at relative tick p, an open one at a free time before its return. -/
def sendAtomG (s : State) (g : GAtom) (rp : Replay) (u : Nat) (addr : Word) : State :=
  let c := g.org.core
  let hd := g.org.hd
  let hs := locHs g.cell
  let ret := (s.thread c hd).nid
  let s := s.post c hd { id := 0, tick := u + gLat c hs - 1, src := c, ord := resOrd g.org, acc := some g.acc,
                         act := .xret rp none false addr true }
  let s := s.performed c hd g.acc (u + gLat c hs - 1)
  let s := s.modCore c fun k => { k with atoms := k.atoms + 1 }
  match g.grouped with
  | some _ =>
    let p := u + tauA c hs + 14
    let s := postProbe s g.org p hs g.acc g.cell g.n true addr
    let rel := (BitVec.ofNat 64 p - (s.core c).tbase).toNat
    s.modHbm hs fun h => { h with units := h.units ++ [{ g with ret := some ret, relp := rel }] }
  | none =>
    let (k, s) := s.draw ((gLat c hs - 2) * 5)
    let w := max (s.now + k) (smGet 0 (s.core c).links (1000 + hs))
    let s := s.modCore c fun k => { k with links := smSet k.links (1000 + hs) w }
    let s := s.modHbm hs fun h => { h with units := h.units ++ [{ g with ret := some ret, due := w }] }
    s.later (w - s.now) (.gAtomicPerform hs)

/-- Where an atomic goes. -/
inductive AtomTo where
  | x (x : XAcc)
  | g (g : GAtom)

/-- The state with an atomic sent under its ordering suffix (R445): .REL waits for a fence first, .ACQ holds issue until t + L. -/
def orderAtom (s : State) (dst : AtomTo) (rp : Replay) (ord : Nat) (addr : Word) : State :=
  let c := s.cur.core
  let acq : Bool := ord = 1 || ord = 3
  let hold (s : State) (l : Nat) : State := if acq then setWait s (.acq (s.ctick + l)) else s
  match dst with
  | .x x =>
    if ord ≥ 2 then startFence s 3 x.acc (.atomic x rp none acq addr)
    else hold (sendAtomX s x rp s.ctick addr) (xLat c x.core)
  | .g g =>
    if ord ≥ 2 then startFence s 4 g.acc (.atomic {} rp (some g) acq addr)
    else hold (sendAtomG s g rp s.ctick addr) (gLat c (locHs g.cell))

/-- Whether a cell lies in a bank of the core's shared leases, and as grouped or open (R97). -/
def sharedBank (s : State) (c cell : Nat) : Option Bool :=
  ((s.core c).lease.entry.shared.find? fun b => b.1 = locHs cell && b.2.1 = locPc cell && b.2.2.1 = locBank cell).map (·.2.2.2)

/-- The fault of a G atomic at its issue, in the order of R442 from row 5 on, or its cell and group (code, cause, whether the
address is recorded). -/
def atomG (s : State) (ea : Word) (n ord : Nat) : Except (Nat × Nat) (Nat × Option Nat) :=
  match translate s.ccore.tlb ea 896 with
  | .bad k => .error (6, k)
  | .ok pa _ =>
    if inSealedGraph s pa n then .error (14, 0)
    else
      let cell := s.loc pa
      let c := s.cur.core
      match sharedBank s c cell with
      | none => .error (5, 2)
      | some grouped =>
        if grouped && s.cur.hd then .error (13, 0)
        else if grouped && (((s.hbm (locHs cell)).bank (locPc cell) (locBank cell)).group ≠ some s.ccore.group || ord ≥ 2)
        then .error (5, 2)
        else if grouped && (s.ccore.waited || sinceExit s c > 6144) then .error (3, 8)
        else if s.ccore.atoms ≥ 8 then .error (12, 1)
        else .ok (cell, if grouped then some s.ccore.group else none)

/-- The issue of an atomic (R441 to R446): `op` the operation, `n` its bytes, `g` G space, `ord` the ordering suffix, `cas` whether
a compare value is read; the register fields are those of the form MA. -/
def issueAtomic (s : State) (i : Instr) (op n : Nat) (sp : BitVec 1) (o : BitVec 2) (a b : BitVec 5) (cmp : Option (BitVec 5)) :
    Host.Outcome State Fault Refusal :=
  issueWord s i .both fun s =>
    let ea := rdReg s (32 + a.toNat)
    let bv := rdReg s (32 + b.toNat)
    let cv := match cmp with
      | some d => rdReg s (32 + d.toNat)
      | none => 0
    let ord := o.toNat
    let rp := mkReplay s i none [slotOf ea] false
    if ord = 1 && (atomDest i).isNone && cmp.isNone then raise s 3 1 1
    else if ea.toNat % n ≠ 0 then raise s 3 9 0 ea
    else if sp = 0 then
      match xTarget s ea n with
      | .error f => raiseX s 3 f ea
      | .ok (d, face, off) =>
        let acc := s.nextId
        let s := xOutst s d 0 false
        orderAtom s (.x { org := rp.org, core := d, face := face, off := off, op := .atomic op n bv cv, acc := acc }) rp ord ea
    else
      match atomG s ea n ord with
      | .error f => raise s 3 f.1 f.2 (if f.1 = 6 || f.1 = 14 || f.1 = 5 then ea else 0)
      | .ok (cell, group) =>
        let acc := s.nextId
        let s := s.access s.cur.core s.cur.hd { id := 0, cls := 2 }
        orderAtom s (.g { org := rp.org, cell := cell, op := op, n := n, b := bv, c := cv, ret := none, acc := acc, grouped := group,
                          relp := 0, due := 0, serial := 0 }) rp ord ea

/-- AADD_W (R441). Performs a 4-byte atomic add and returns the old value. -/
def execAaddW (h : Head) (sp : BitVec 1) (o : BitVec 2) (d a b : BitVec 5) (s : State) : Host.Outcome State Fault Refusal :=
  issueAtomic s (.aaddW h sp o d a b) 0 4 sp o a b none

/-- AADD_D (R441). Performs an 8-byte atomic add and returns the old value. -/
def execAaddD (h : Head) (sp : BitVec 1) (o : BitVec 2) (d a b : BitVec 5) (s : State) : Host.Outcome State Fault Refusal :=
  issueAtomic s (.aaddD h sp o d a b) 0 8 sp o a b none

/-- ASMAX_W (R441). Performs a 4-byte atomic signed maximum and returns the old value. -/
def execAsmaxW (h : Head) (sp : BitVec 1) (o : BitVec 2) (d a b : BitVec 5) (s : State) : Host.Outcome State Fault Refusal :=
  issueAtomic s (.asmaxW h sp o d a b) 1 4 sp o a b none

/-- ASMAX_D (R441). Performs an 8-byte atomic signed maximum and returns the old value. -/
def execAsmaxD (h : Head) (sp : BitVec 1) (o : BitVec 2) (d a b : BitVec 5) (s : State) : Host.Outcome State Fault Refusal :=
  issueAtomic s (.asmaxD h sp o d a b) 1 8 sp o a b none

/-- ASMIN_W (R441). Performs a 4-byte atomic signed minimum and returns the old value. -/
def execAsminW (h : Head) (sp : BitVec 1) (o : BitVec 2) (d a b : BitVec 5) (s : State) : Host.Outcome State Fault Refusal :=
  issueAtomic s (.asminW h sp o d a b) 2 4 sp o a b none

/-- ASMIN_D (R441). Performs an 8-byte atomic signed minimum and returns the old value. -/
def execAsminD (h : Head) (sp : BitVec 1) (o : BitVec 2) (d a b : BitVec 5) (s : State) : Host.Outcome State Fault Refusal :=
  issueAtomic s (.asminD h sp o d a b) 2 8 sp o a b none

/-- AUMAX_W (R441). Performs a 4-byte atomic unsigned maximum and returns the old value. -/
def execAumaxW (h : Head) (sp : BitVec 1) (o : BitVec 2) (d a b : BitVec 5) (s : State) : Host.Outcome State Fault Refusal :=
  issueAtomic s (.aumaxW h sp o d a b) 3 4 sp o a b none

/-- AUMAX_D (R441). Performs an 8-byte atomic unsigned maximum and returns the old value. -/
def execAumaxD (h : Head) (sp : BitVec 1) (o : BitVec 2) (d a b : BitVec 5) (s : State) : Host.Outcome State Fault Refusal :=
  issueAtomic s (.aumaxD h sp o d a b) 3 8 sp o a b none

/-- AUMIN_W (R441). Performs a 4-byte atomic unsigned minimum and returns the old value. -/
def execAuminW (h : Head) (sp : BitVec 1) (o : BitVec 2) (d a b : BitVec 5) (s : State) : Host.Outcome State Fault Refusal :=
  issueAtomic s (.auminW h sp o d a b) 4 4 sp o a b none

/-- AUMIN_D (R441). Performs an 8-byte atomic unsigned minimum and returns the old value. -/
def execAuminD (h : Head) (sp : BitVec 1) (o : BitVec 2) (d a b : BitVec 5) (s : State) : Host.Outcome State Fault Refusal :=
  issueAtomic s (.auminD h sp o d a b) 4 8 sp o a b none

/-- AXCHG_W (R441). Performs a 4-byte atomic exchange and returns the old value. -/
def execAxchgW (h : Head) (sp : BitVec 1) (o : BitVec 2) (d a b : BitVec 5) (s : State) : Host.Outcome State Fault Refusal :=
  issueAtomic s (.axchgW h sp o d a b) 5 4 sp o a b none

/-- AXCHG_D (R441). Performs an 8-byte atomic exchange and returns the old value. -/
def execAxchgD (h : Head) (sp : BitVec 1) (o : BitVec 2) (d a b : BitVec 5) (s : State) : Host.Outcome State Fault Refusal :=
  issueAtomic s (.axchgD h sp o d a b) 5 8 sp o a b none

/-- ACAS_W (R441). Performs a 4-byte compare-and-swap and returns the old value. -/
def execAcasW (h : Head) (sp : BitVec 1) (o : BitVec 2) (d a b : BitVec 5) (s : State) : Host.Outcome State Fault Refusal :=
  issueAtomic s (.acasW h sp o d a b) 6 4 sp o a b (some d)

/-- ACAS_D (R441). Performs an 8-byte compare-and-swap and returns the old value. -/
def execAcasD (h : Head) (sp : BitVec 1) (o : BitVec 2) (d a b : BitVec 5) (s : State) : Host.Outcome State Fault Refusal :=
  issueAtomic s (.acasD h sp o d a b) 6 8 sp o a b (some d)

/-- AFADD (R441). Performs an FP32 atomic add and returns the old value. -/
def execAfadd (h : Head) (sp : BitVec 1) (o : BitVec 2) (d a b : BitVec 5) (s : State) : Host.Outcome State Fault Refusal :=
  issueAtomic s (.afadd h sp o d a b) 7 4 sp o a b none

/-- AFMAX (R441). Performs an FP32 atomic FMax and returns the old value. -/
def execAfmax (h : Head) (sp : BitVec 1) (o : BitVec 2) (d a b : BitVec 5) (s : State) : Host.Outcome State Fault Refusal :=
  issueAtomic s (.afmax h sp o d a b) 8 4 sp o a b none

/-- AFMIN (R441). Performs an FP32 atomic FMin and returns the old value. -/
def execAfmin (h : Head) (sp : BitVec 1) (o : BitVec 2) (d a b : BitVec 5) (s : State) : Host.Outcome State Fault Refusal :=
  issueAtomic s (.afmin h sp o d a b) 9 4 sp o a b none

/-- REDADD_W (R441). Performs a 4-byte no-return atomic add. -/
def execRedaddW (h : Head) (sp : BitVec 1) (o : BitVec 2) (a b : BitVec 5) (s : State) : Host.Outcome State Fault Refusal :=
  issueAtomic s (.redaddW h sp o a b) 0 4 sp o a b none

/-- REDADD_D (R441). Performs an 8-byte no-return atomic add. -/
def execRedaddD (h : Head) (sp : BitVec 1) (o : BitVec 2) (a b : BitVec 5) (s : State) : Host.Outcome State Fault Refusal :=
  issueAtomic s (.redaddD h sp o a b) 0 8 sp o a b none

/-- REDSMAX_W (R441). Performs a 4-byte no-return signed maximum. -/
def execRedsmaxW (h : Head) (sp : BitVec 1) (o : BitVec 2) (a b : BitVec 5) (s : State) : Host.Outcome State Fault Refusal :=
  issueAtomic s (.redsmaxW h sp o a b) 1 4 sp o a b none

/-- REDSMAX_D (R441). Performs an 8-byte no-return signed maximum. -/
def execRedsmaxD (h : Head) (sp : BitVec 1) (o : BitVec 2) (a b : BitVec 5) (s : State) : Host.Outcome State Fault Refusal :=
  issueAtomic s (.redsmaxD h sp o a b) 1 8 sp o a b none

/-- REDSMIN_W (R441). Performs a 4-byte no-return signed minimum. -/
def execRedsminW (h : Head) (sp : BitVec 1) (o : BitVec 2) (a b : BitVec 5) (s : State) : Host.Outcome State Fault Refusal :=
  issueAtomic s (.redsminW h sp o a b) 2 4 sp o a b none

/-- REDSMIN_D (R441). Performs an 8-byte no-return signed minimum. -/
def execRedsminD (h : Head) (sp : BitVec 1) (o : BitVec 2) (a b : BitVec 5) (s : State) : Host.Outcome State Fault Refusal :=
  issueAtomic s (.redsminD h sp o a b) 2 8 sp o a b none

/-- REDUMAX_W (R441). Performs a 4-byte no-return unsigned maximum. -/
def execRedumaxW (h : Head) (sp : BitVec 1) (o : BitVec 2) (a b : BitVec 5) (s : State) : Host.Outcome State Fault Refusal :=
  issueAtomic s (.redumaxW h sp o a b) 3 4 sp o a b none

/-- REDUMAX_D (R441). Performs an 8-byte no-return unsigned maximum. -/
def execRedumaxD (h : Head) (sp : BitVec 1) (o : BitVec 2) (a b : BitVec 5) (s : State) : Host.Outcome State Fault Refusal :=
  issueAtomic s (.redumaxD h sp o a b) 3 8 sp o a b none

/-- REDUMIN_W (R441). Performs a 4-byte no-return unsigned minimum. -/
def execReduminW (h : Head) (sp : BitVec 1) (o : BitVec 2) (a b : BitVec 5) (s : State) : Host.Outcome State Fault Refusal :=
  issueAtomic s (.reduminW h sp o a b) 4 4 sp o a b none

/-- REDUMIN_D (R441). Performs an 8-byte no-return unsigned minimum. -/
def execReduminD (h : Head) (sp : BitVec 1) (o : BitVec 2) (a b : BitVec 5) (s : State) : Host.Outcome State Fault Refusal :=
  issueAtomic s (.reduminD h sp o a b) 4 8 sp o a b none

/-- REDXCHG_W (R441). Performs a 4-byte no-return exchange. -/
def execRedxchgW (h : Head) (sp : BitVec 1) (o : BitVec 2) (a b : BitVec 5) (s : State) : Host.Outcome State Fault Refusal :=
  issueAtomic s (.redxchgW h sp o a b) 5 4 sp o a b none

/-- REDXCHG_D (R441). Performs an 8-byte no-return exchange. -/
def execRedxchgD (h : Head) (sp : BitVec 1) (o : BitVec 2) (a b : BitVec 5) (s : State) : Host.Outcome State Fault Refusal :=
  issueAtomic s (.redxchgD h sp o a b) 5 8 sp o a b none

/-- REDCAS_W (R441). Performs a 4-byte no-return compare-and-swap. -/
def execRedcasW (h : Head) (sp : BitVec 1) (o : BitVec 2) (d a b : BitVec 5) (s : State) : Host.Outcome State Fault Refusal :=
  issueAtomic s (.redcasW h sp o d a b) 6 4 sp o a b (some d)

/-- REDCAS_D (R441). Performs an 8-byte no-return compare-and-swap. -/
def execRedcasD (h : Head) (sp : BitVec 1) (o : BitVec 2) (d a b : BitVec 5) (s : State) : Host.Outcome State Fault Refusal :=
  issueAtomic s (.redcasD h sp o d a b) 6 8 sp o a b (some d)

/-- REDFADD (R441). Performs a no-return FP32 atomic add. -/
def execRedfadd (h : Head) (sp : BitVec 1) (o : BitVec 2) (a b : BitVec 5) (s : State) : Host.Outcome State Fault Refusal :=
  issueAtomic s (.redfadd h sp o a b) 7 4 sp o a b none

/-- REDFMAX (R441). Performs a no-return FP32 atomic FMax. -/
def execRedfmax (h : Head) (sp : BitVec 1) (o : BitVec 2) (a b : BitVec 5) (s : State) : Host.Outcome State Fault Refusal :=
  issueAtomic s (.redfmax h sp o a b) 8 4 sp o a b none

/-- REDFMIN (R441). Performs a no-return FP32 atomic FMin. -/
def execRedfmin (h : Head) (sp : BitVec 1) (o : BitVec 2) (a b : BitVec 5) (s : State) : Host.Outcome State Fault Refusal :=
  issueAtomic s (.redfmin h sp o a b) 9 4 sp o a b none

end Sys2Proof.Machine
end

