-- ==== Sys2Proof/Machine/Sync.lean ====
section
/-!
DEFINITION. Flags, barriers, fences, HEEL and time (spec/15_sync_system_instructions.md R447 to R456; spec/04_time_and_alignment.md
R148, R149; spec/05_consistency.md R190).
-/
namespace Sys2Proof.Machine

/-- The checks of a flag descriptor (R447): the fault, or COND, SCOPE and the flag word's core, face and offset. -/
def flagTarget (s : State) (a : Word) (isSet : Bool) : Except (Nat × Nat) (Nat × Nat × Nat × Nat × Nat) :=
  let cond := wfld a 37 35
  let scope := wfld a 34 32
  if wfld a 63 38 ≠ 0 || wfld a 31 31 ≠ 0 || scope ≥ 6 || (if isSet then cond ≠ 0 else cond ≥ 4) then .error (1, 1)
  else
    match xTarget s (BitVec.ofNat 64 (wfld a 30 0)) 8 with
    | .error f => .error f
    | .ok (d, face, off) => .ok (cond, scope, d, face, off)

/-- The address that a fault of a flag word records (R260): the X address for ALIGN. -/
def flagAddr (a : Word) : Word := BitVec.ofNat 64 (wfld a 30 0)

/-- Whether a flag word satisfies COND against b (R447). -/
def flagCond (cond : Nat) (v b : Word) : Bool :=
  match cond with
  | 0 => v = b
  | 1 => v ≠ b
  | 2 => v.toNat ≥ b.toNat
  | _ => v.toInt ≥ b.toInt

/-- The absolute target of a HEEL (R293, R454). -/
def heelTarget (s : State) (t : Nat) : Nat := startTick s t

/-- HEEL (R148). Sets a HEEL target at which the alignment group aligns. -/
def execHeel (h : Head) (t : BitVec 6) (y : BitVec 9) (s : State) : Host.Outcome State Fault Refusal :=
  issueWord s (.heel h t y) .both fun s =>
    let target := heelTarget s t.toNat
    if y.toNat ≠ s.ccore.group then raise s 5 1 5
    else if s.cur.hd then raise s 5 13 0
    else if target ≤ s.ctick then raise s 5 3 2
    else if s.ccore.heel.isSome then raise s 5 12 2
    else s.modCore s.cur.core fun k =>
      { k with heel := some { target := target, fpc := s.cur.pc + s.cur.pos / 3, fword := s.cur.pos % 3 } }

/-- REBASE (R455). TBASE := TICK + c at the end of the issue tick (endRebase). -/
def execRebase (h : Head) (i : BitVec 12) (s : State) : Host.Outcome State Fault Refusal :=
  issueWord s (.rebase h i) .both fun s =>
    let c := (extVal s.cur).getD 0 * 4096 + i.toNat
    if c < 64 || c > 2 ^ 20 then raise s 5 1 1
    else if s.cur.hd then raise s 5 13 0
    else if s.ccore.heel.isSome then raise s 5 12 2
    else s.modCore s.cur.core fun k => { k with newBase := some (BitVec.ofNat 64 (s.ctick + c)) }

/-- RDTICK (R456). Writes the relative tick to D. -/
def execRdtick (h : Head) (d : BitVec 6) (s : State) : Host.Outcome State Fault Refusal :=
  issueWord s (.rdtick h d) .both fun s =>
    let rp := mkReplay s (.rdtick h d) none [slotOf (s.rel s.cur.core)] false
    postResult s 1 rp (regRes d.toNat (s.rel s.cur.core))

/-- FLAGSET (R448). Fences to its scope, then stores a flag value as a release. -/
def execFlagset (h : Head) (a b : BitVec 6) (s : State) : Host.Outcome State Fault Refusal :=
  issueWord s (.flagset h a b) .both fun s =>
    let av := rdReg s a.toNat
    let bv := rdReg s b.toNat
    if wfld bv 63 56 = 0xE0 then raise s 5 1 1
    else
      match flagTarget s av true with
      | .error f => raiseX s 5 f (flagAddr av)
      | .ok (_, scope, d, face, off) =>
        let acc := s.nextId
        let x : XAcc := { org := origin s 5, core := d, face := face, off := off, op := .store (leBytes 8 bv.toNat), acc := acc }
        xOutst (startFence s scope acc (.flagStore x)) d 0 false

/-- FLAGWAIT (R449). Begins an unbounded wait on a flag word's condition. -/
def execFlagwait (h : Head) (d a b : BitVec 6) (s : State) : Host.Outcome State Fault Refusal :=
  issueWord s (.flagwait h d a b) .both fun s =>
    let av := rdReg s a.toNat
    match flagTarget s av false with
    | .error f => raiseX s 5 f (flagAddr av)
    | .ok (cond, _, c, face, off) =>
      setWait (beginUnbounded s) (.flag d.toNat (faceLoc c face off) cond (rdReg s b.toNat))

/-- BARARR (R451). Fences at .cluster, then arrives at a hardware barrier. -/
def execBararr (h : Head) (d a : BitVec 6) (s : State) : Host.Outcome State Fault Refusal :=
  issueWord s (.bararr h d a) .task fun s =>
    let av := rdReg s a.toNat
    let count := wfld av 15 8
    if wfld av 63 16 ≠ 0 || wfld av 7 4 ≠ 0 || count = 0 || count > 192 then raise s 5 1 1
    else startFence s 3 s.nextId (.arrive (wfld av 3 0) count d.toNat)

/-- BARWAIT (R452). Begins a wait for a barrier generation to close. -/
def execBarwait (h : Head) (d a b : BitVec 6) (s : State) : Host.Outcome State Fault Refusal :=
  issueWord s (.barwait h d a b) .task fun s =>
    setWait (beginUnbounded s) (.bar d.toNat (clusterOf s.cur.core * 16 + wfld (rdReg s a.toNat) 3 0) (wfld (rdReg s b.toNat) 31 0))

/-- FENCE (R190). Holds issue until every access within its scope has performed. -/
def execFence (h : Head) (sp : BitVec 3) (s : State) : Host.Outcome State Fault Refusal :=
  issueWord s (.fence h sp) .both fun s => startFence s sp.toNat s.nextId .nothing

end Sys2Proof.Machine
end

