-- ==== Sys2Proof/Machine/Control.lean ====
section
/-!
DEFINITION. Control registers and the TLBs (spec/15_sync_system_instructions.md R468 to R471; spec/01_address_spaces.md R31 to R36,
R42 to R49, R53 to R55): reads and writes of K space, fills and invalidations of a TLB with their markers, TRAP.
-/
namespace Sys2Proof.Machine

/-! ### K space -/

/-- LEASE of a core (R99). -/
def leaseWord (l : Lease) : Word :=
  let npc := ((l.entry.slots.map fun x => x.1 * 64 + x.2.1).eraseDups).length
  BitVec.ofNat 64 (l.entry.shared.length % 256 * 2 ^ 20 + l.cls % 16 * 2 ^ 16 + l.step % 16 * 2 ^ 12 + npc % 8 * 2 ^ 9
    + l.entry.slots.length % 512)

/-- MUZZLE of a core (R481). -/
def muzzleWord (s : State) (c : Nat) : Word :=
  let r := s.region (regionOf c)
  let nchg := (r.gov.nchg + 256 - (s.core c).bindNchg % 256) % 256
  BitVec.ofNat 64 (nchg * 2 ^ 24 + r.gov.yshow * 2 ^ 21 + r.gov.wshow * 2 ^ 16 + (if r.reverse then 10 else 8) * 2 ^ 8 + r.step)

/-- The K registers assigned (R54). -/
def kAssigned (a : Nat) : Bool :=
  a ≤ 0x58 || (0x80 ≤ a && a ≤ 0x98) || (0x100 ≤ a && a ≤ 0x138)
/-- The K registers that only a handler reads (R54). -/
def kHandlerOnly (a : Nat) : Bool := a = 0x58 || (0x100 ≤ a && a ≤ 0x138)

/-- The value of a K register of a core (R53 to R55); an address with no register reads zero. -/
def kRead (s : State) (c a : Nat) : Word :=
  let k := s.core c
  match a with
  | 0x00 => BitVec.ofNat 64 (s.tick c false)
  | 0x08 => k.tbase
  | 0x10 => BitVec.ofNat 64 c
  | 0x18 => BitVec.ofNat 64 (regionOf c)
  | 0x20 => k.taskid
  | 0x28 => k.packid
  | 0x30 => k.engfmt
  | 0x38 => k.echk
  | 0x40 => muzzleWord s c
  | 0x48 => leaseWord k.lease
  | 0x50 => k.kennel
  | 0x58 => smGet 0 k.leash 0
  | 0x80 => (s.hbm (stackOf c * 4)).hmask
  | 0x88 => (s.hbm (stackOf c * 4 + 1)).hmask
  | 0x90 => (s.hbm (stackOf c * 4 + 2)).hmask
  | 0x98 => (s.hbm (stackOf c * 4 + 3)).hmask
  | 0x100 => smGet 0 k.fi 0
  | 0x108 => smGet 0 k.fi 1
  | 0x110 => smGet 0 k.fi 2
  | 0x118 => smGet 0 k.fi 3
  | 0x120 => smGet 0 k.fi 4
  | 0x128 => smGet 0 k.fi 5
  | 0x130 => smGet 0 k.fi 6
  | 0x138 => smGet 0 k.fi 7
  | _ => 0

/-- The bits of ECHK that a write reaches (R318); reserved bits are ignored (R11). -/
def echkMask : Word := 0x1F7F01

/-- The check of a K address (R53, R54): the fault of a read, or of a write. -/
def kCheck (a : Word) (write hd : Bool) : Option (Nat × Nat) :=
  if a.toNat % 8 ≠ 0 then some (9, 0)
  else if a.toNat ≥ 0x10000 then some (9, 1)
  else if write then (if kAssigned a.toNat && a.toNat ≠ 0x38 then some (13, 0) else none)
  else if kHandlerOnly a.toNat && !hd then some (13, 0) else none

/-! ### Leashes (R266) -/

/-- The frozen pack that a leash names, if the leash is valid: its group frozen with the same EPOCH, and no resume begun (R266,
R269). -/
def leashPack (s : State) (w : Word) : Option Pack :=
  match s.pack (wfld w 8 0) with
  | some p => if (p.freeze.map fun z => !z.resuming) = some true && p.epoch % 2 ^ 16 = wfld w 31 16 then some p else none
  | none => none

/-- The frozen pack reached through a leash slot of a handler with a right, bit 32 INSPECT to bit 35 KILL. -/
def leashWith (s : State) (c slot right : Nat) : Option Pack :=
  let w := smGet 0 (s.core c).leash slot
  if wfld w right right = 1 then leashPack s w else none

/-- The core of a member of a pack that has not retired (R203, R266). -/
def memberCore (s : State) (p : Pack) (m : Nat) : Option Nat := (p.members[m]?).bind fun c => if (s.core c).live then some c else none

/-! ### TLBs -/

/-- The SIZE field, VPN base and PFN base of an entry. -/
def Tlb.vbase (e : Tlb) : Nat := wfld e.w0 47 13 * 2 ^ 13
@[inherit_doc Tlb.vbase] def Tlb.pbase (e : Tlb) : Nat := wfld e.w1 39 13 * 2 ^ 13
@[inherit_doc Tlb.vbase] def Tlb.valid (e : Tlb) : Bool := wfld e.w0 10 10 = 1

/-- Whether an entry breaks the format of R32. -/
def Tlb.badFormat (e : Tlb) : Bool :=
  wfld e.w0 63 48 ≠ 0 || wfld e.w0 5 0 ≠ 0 || wfld e.w1 63 40 ≠ 0 || wfld e.w1 12 0 ≠ 0 || wfld e.w0 12 11 = 3
    || e.vbase % e.pageSize ≠ 0 || e.pbase % e.pageSize ≠ 0

/-- Whether an entry breaks the colour rule (R35). -/
def Tlb.badColour (e : Tlb) : Bool :=
  match wfld e.w0 12 11 with
  | 0 => wfld e.w0 21 13 ≠ wfld e.w1 21 13
  | 1 => wfld e.w0 21 21 ≠ wfld e.w1 21 21
  | _ => false

/-- Whether the pages of two entries overlap. -/
def Tlb.overlaps (a b : Tlb) : Bool := a.vbase < b.vbase + b.pageSize && b.vbase < a.vbase + a.pageSize

/-- An entry with SE as the hardware sets it (R33): 1 when its page lies in a range that the running job has sealed. -/
def sealedEntry (s : State) (e : Tlb) : Tlb :=
  let se : Bool := match s.psc.image with
    | some im => im.sealed && im.ranges.any fun r => r.1 ≤ e.pbase && e.pbase + e.pageSize ≤ r.1 + r.2
    | none => false
  { e with w0 := BitVec.ofNat 64 (setField e.w0.toNat 6 1 (b2n se)) }

/-- A fill of index `n` of a TLB of `size` entries (R32, R35, R43, R44): the TLB, or the refusal as fault code and cause. -/
def tlbFill (s : State) (t : SMap Tlb) (size n : Nat) (e : Tlb) : Except (Nat × Nat) (SMap Tlb) :=
  if n ≥ size then .error (6, 4)
  else if !e.valid then .ok (smErase t n)
  else if e.badFormat then .error (6, 4)
  else if e.badColour then .error (7, 0)
  else if t.any (fun x => x.1 ≠ n && x.2.valid && x.2.overlaps e) then .error (6, 3)
  else .ok (smSet t n (sealedEntry s e))

/-- The first-level TLB of a core as it will stand at the end of the present tick (R44, R46). -/
def Core.tlbDue (k : Core) : SMap Tlb := k.tlbNext.getD k.tlb

/-- A core whose first-level TLB stands as the writes and invalidations of the tick before leave it (R44, R46, R470). -/
def Core.settle (k : Core) : Core :=
  match k.tlbNext with
  | some t => { k with tlb := t, tlbNext := none, tlbNew := [] }
  | none => k

/-- A core after a fill of index `n` of its first-level TLB, in force from the end of the present tick (R43, R44, R48, R470): writes of one tick take effect in index
order, so that of two which overlap the one of the higher index is refused. `tlbNew` holds the indices written in the present tick. -/
def Core.fillTlb (k : Core) (s : State) (n : Nat) (e : Tlb) : Except (Nat × Nat) Core :=
  let after (x : Nat × Tlb) : Bool := e.valid && k.tlbNew.contains x.1 && n < x.1 && x.2.overlaps e
  match tlbFill s (k.tlbDue.filter fun x => !after x) 384 n e with
  | .ok t => .ok { k with tlbNext := some t, tlbNew := if e.valid then insertLine n k.tlbNew else k.tlbNew.filter (· ≠ n) }
  | .error f => .error f

/-- A TLB without the valid entries whose pages overlap `n` bytes from a virtual address, or without any (R46). -/
def tlbDrop (t : SMap Tlb) (all : Bool) (va n : Nat) : SMap Tlb :=
  if all then [] else t.filter fun x => !(n ≠ 0 && x.2.vbase < va + n && va < x.2.vbase + x.2.pageSize)

/-- A core after an invalidation of its first-level TLB, in force from the end of the present tick (R46, R48): invalidations of a tick come before its writes, so
an entry written in the present tick survives. -/
def Core.dropTlb (k : Core) (all : Bool) (va n : Nat) : Core :=
  { k with tlbNext := some (k.tlbDue.filter fun x => k.tlbNew.contains x.1 || (tlbDrop [x] all va n).length = 1) }

/-- The translation markers that stand in a queue of a core: 1 timeline, 2 copy (R47). -/
def markersIn (k : Core) (q : Nat) : Nat := (k.markers.filter fun m => m.inv.isSome && m.qsel = q).length

/-- The accesses that stand in a queue of a core, 1 timeline, 2 copy. -/
def queued (k : Core) (q : Nat) : List Nat := (k.task.outst.filter fun o => o.queue = q).map (·.id)

/-- A core with a marker added, under the task's next number. -/
def Core.mark (k : Core) (m : Marker) : Core :=
  { k with markers := k.markers ++ [{ m with id := k.task.nid }], task := { k.task with nid := k.task.nid + 1 } }

/-- The state with one translation marker of an invalidation in each queue of a core (R46, R47). -/
def placeMarkers (s : State) (c inv : Nat) : State :=
  s.modCore c fun k => (k.mark { id := 0, org := {}, qsel := 1, r0 := 0, ahead := queued k 1, inv := some inv }).mark
    { id := 0, org := {}, qsel := 2, r0 := 0, ahead := queued k 2, inv := some inv }

/-- An invalidation of the first-level entries of some cores (R46, R47): refused whole when a queue would hold a seventeenth marker;
else the entries go and the markers are placed. `core` and `off` name the completion word of a handler's. -/
def invalidate (s : State) (cs : List Nat) (all : Bool) (va n core : Nat) (off : Option Nat) : Option State :=
  if cs.any fun c => markersIn (s.core c) 1 ≥ 16 || markersIn (s.core c) 2 ≥ 16 then none
  else if cs.isEmpty && off.isNone then some s
  else
    let id := s.invals.foldl (fun m e => max m (e.1 + 1)) 0
    let s := { s with invals := smSet s.invals id { left := 2 * cs.length, core := core, off := off } }
    some (cs.foldl (fun s c => placeMarkers (s.modCore c (·.dropTlb all va n)) c id) s)

/-- The reserved bits of a TLB selector (R469). -/
def selBad (a : Word) : Bool :=
  wfld a 63 32 ≠ 0 || wfld a 30 30 ≠ 0 || wfld a 27 26 ≠ 0 || wfld a 15 9 ≠ 0

/-- The probe of a TLB (R470): word 1 of the covering entry with bit 63 and its index, or 0. -/
def tlbProbe (t : SMap Tlb) (va : Nat) : Word :=
  match t.find? fun e => e.2.covers va with
  | some e => BitVec.ofNat 64 (2 ^ 63 + e.2.pbase + e.1 % 2 ^ 13)
  | none => 0

/-- The state with a register of the thread being issued due after a latency, from a D word. -/
def postReg (s : State) (i : Instr) (lat d : Nat) (v : Word) : State :=
  postResult s lat (mkReplay s i none [slotOf v] false) (regRes d v)

/-- KRD (R468). Reads a K-space control register. -/
def execKrd (h : Head) (d a i : BitVec 6) (s : State) : Host.Outcome State Fault Refusal :=
  issueWord s (.krd h d a i) .both fun s =>
    let ka := rdReg s a.toNat + imm6 s.cur i.toNat
    match kCheck ka false s.cur.hd with
    | some f => raise s 5 f.1 f.2 ka
    | none =>
      let done := s.ctick + 3
      let s := s.access s.cur.core s.cur.hd { id := 0, cls := 9, done := some done, mdone := some done }
      postReg s (.krd h d a i) 4 d.toNat (kRead s s.cur.core ka.toNat)

/-- KWR (R468). Writes a K-space control register. -/
def execKwr (h : Head) (d a i : BitVec 6) (s : State) : Host.Outcome State Fault Refusal :=
  issueWord s (.kwr h d a i) .both fun s =>
    let ka := rdReg s a.toNat + imm6 s.cur i.toNat
    match kCheck ka true s.cur.hd with
    | some f => raise s 5 f.1 f.2 ka
    | none =>
      if ka.toNat = 0x38 then s.modCore s.cur.core fun k => { k with echk := rdReg s d.toNat &&& echkMask }
      else s

/-- TLBW (R470). A handler writes a first-level TLB entry of a frozen member. -/
def execTlbw (h : Head) (d a b : BitVec 6) (s : State) : Host.Outcome State Fault Refusal :=
  issueWord s (.tlbw h d a b) .handler fun s =>
    let av := rdReg s a.toNat
    if selBad av then raise s 5 1 1
    else
      match (leashWith s s.cur.core (wfld av 29 28) 33).bind fun p => memberCore s p (wfld av 23 16) with
      | none => s
      | some c =>
        match (s.core c).fillTlb s (wfld av 8 0) ⟨rdReg s b.toNat, rdReg s d.toNat⟩ with
        | .error f => raise s 5 f.1 f.2
        | .ok k => s.setCore c k

/-- TLBP (R470). A handler probes a first-level or second-level TLB. -/
def execTlbp (h : Head) (d a b : BitVec 6) (s : State) : Host.Outcome State Fault Refusal :=
  issueWord s (.tlbp h d a b) .handler fun s =>
    let av := rdReg s a.toNat
    let two : Bool := wfld av 31 31 = 1
    let va := (rdReg s b.toNat).toNat
    if selBad av then raise s 5 1 1
    else
      let v := match (leashWith s s.cur.core (wfld av 29 28) 32).bind fun p => memberCore s p (wfld av 23 16) with
        | none => 0
        | some c => if two then tlbProbe (s.region (regionOf c)).l2 va else tlbProbe (s.core c).tlb va
      postReg s (.tlbp h d a b) (if two then 12 else 4) d.toNat v

/-- TLBINV (R470). A handler invalidates first-level entries and places translation markers. -/
def execTlbinv (h : Head) (d a b : BitVec 6) (s : State) : Host.Outcome State Fault Refusal :=
  issueWord s (.tlbinv h d a b) .handler fun s =>
    let av := rdReg s a.toNat
    let dv := rdReg s d.toNat
    if selBad av || wfld dv 63 40 ≠ 0 then raise s 5 1 1
    else if wfld dv 2 0 ≠ 0 then raise s 5 9 0 (BitVec.ofNat 64 (wfld dv 19 0))
    else
      match leashWith s s.cur.core (wfld av 29 28) 33 with
      | none => s
      | some p =>
        let cs := if wfld av 24 24 = 1 then s.liveMembers p else (memberCore s p (wfld av 23 16)).toList
        if cs.isEmpty then s
        else
          let va := (rdReg s b.toNat).toNat / 2 ^ 13 * 2 ^ 13
          match invalidate s cs (wfld av 25 25 = 1) va (wfld dv 39 20 * 2 ^ 13) s.cur.core (some (wfld dv 19 0)) with
          | some s => s
          | none => raise s 5 12 3

/-- TRAP (R471). Raises a PRIV fault that carries a code. -/
def execTrap (h : Head) (i : BitVec 12) (s : State) : Host.Outcome State Fault Refusal :=
  issueWord s (.trap h i) .both fun s => raise s 5 13 0 (BitVec.ofNat 64 (2 ^ 63 + i.toNat))

end Sys2Proof.Machine
end

