-- ==== Sys2Proof/Machine/Timeline.lean ====
section
/-!
DEFINITION. The timeline commands and MARK (spec/14_memory_instructions.md R420 to R431; spec/03_hbm_timeline.md R89 to R102, R111,
R113, R114, R126): the checks at issue in the order of R422, and the posting to the core's queue. Opcodes: 0 ACT, 1 PRE, 2 PREA, 3 RD,
4 WR, 5 RDT, 6 WRT, 7 REFPB, 8 REFAB, 9 MZERO, 10 MCOPY, 11 MCMP, 12 LFENCE.
-/
namespace Sys2Proof.Machine

/-- A fault that a check finds: code, cause, address and auxiliary word. -/
structure Flt where
  code  : Nat
  cause : Nat
  addr  : Word := 0
  aux   : Word := 0
deriving DecidableEq, Repr

/-- A check: its fault when it fails. -/
def chk (bad : Bool) (f : Flt) : Option Flt := if bad then some f else none

/-- The fault of the first of several checks that fails. -/
def firstFlt : List (Option Flt) → Option Flt
  | [] => none
  | some f :: _ => some f
  | none :: cs => firstFlt cs

/-- The state in which the word being issued has raised a fault. -/
def raiseFlt (s : State) (pipe : Nat) (f : Flt) : State := raise s pipe f.code f.cause f.addr f.aux

/-! ### Frames and timing classes -/

/-- Frame length and the start of its hole (R113). -/
def inHole (stamp : Nat) : Bool := stamp % 4096 ≥ 4032

/-- The banks lent at a stamp (R114): that of its frame, and in a hole that of the next frame as well. -/
def lentBanks (stamp : Nat) : List Nat :=
  let f := stamp / 4096
  if inHole stamp then [f % 64, (f + 1) % 64] else [f % 64]

/-- Whether a bank or its partner in a FOLD pair is lent at a stamp (R100, R114). -/
def lentAt (s : State) (loc stamp : Nat) : Bool :=
  let h := s.hbm (locHs loc)
  (lentBanks stamp).any fun b => h.phys (locPc loc) b = h.phys (locPc loc) (locBank loc)

/-- Ticks between the bursts of a train, from a burst to its commit, and to its visibility (R100, R108, R111, R112). -/
def burstGap (half : Bool) : Nat := if half then 16 else 8
@[inherit_doc burstGap] def readDelay (half : Bool) : Nat := if half then 191 else 175
@[inherit_doc burstGap] def writeDelay (half : Bool) : Nat := if half then 32 else 24

/-- The duration of an in-memory operation (R124). -/
def memopTicks (op : Nat) : Nat := if op = 9 then 128 else if op = 10 then 224 else 208

/-- The kinds of command (R89, R424): a column command, a read, a write, one on slots, an in-memory operation. -/
def isCol (op : Nat) : Bool := 3 ≤ op && op ≤ 6
@[inherit_doc isCol] def isRd (op : Nat) : Bool := op = 3 || op = 5
@[inherit_doc isCol] def isWr (op : Nat) : Bool := op = 4 || op = 6
@[inherit_doc isCol] def isMem (op : Nat) : Bool := 9 ≤ op && op ≤ 11

/-! ### The checks of R422 -/

/-- What a timeline word asks for: opcode, the check of order 1, those of orders 2 to 4, the G addresses with the permission each
needs, a lease slot with its row, the face and the face offsets of the bursts, the result index and the HBM position. -/
structure TlAsk where
  op    : Nat
  bad   : Bool := false
  early : List (Option Flt) := []
  addrs : List (Word × Nat) := []
  slot  : Option (Nat × Nat) := none
  face  : Nat := 0
  foffs : List Nat := []
  ridx  : Nat := 0
  pos   : Nat := 0

/-- The locations of the G addresses of a command, translated in order (R45, R423). -/
def tlLocs (s : State) : List (Word × Nat) → Except Flt (List Nat)
  | [] => .ok []
  | (va, perm) :: as =>
    match translate s.ccore.tlb va perm with
    | .bad k => .error ⟨6, k, va, 0⟩
    | .ok pa _ =>
      match tlLocs s as with
      | .ok ls => .ok (s.loc pa :: ls)
      | .error f => .error f

/-- The locations that a command names: those of its addresses, or the bank of its lease slot (R96, R421). -/
def askLocs (s : State) (q : TlAsk) : Except Flt (List Nat) :=
  match q.slot with
  | some (slot, row) =>
    match s.ccore.lease.entry.slots[slot]? with
    | some (pos, pc, bank) => .ok [mkLoc (stackOf s.cur.core * 4 + pos) row bank 0 pc]
    | none => .error ⟨5, 0, 0, 0⟩
  | none => tlLocs s q.addrs

/-- Whether the bytes of a burst, or of the row that holds it, lie in a sealed graph object (R216). -/
def sealedBurst (s : State) (loc : Nat) : Bool := inSealedGraph s (s.loc loc) 64
@[inherit_doc sealedBurst] def sealedRow (s : State) (loc : Nat) : Bool :=
  (List.range 16).any fun c => sealedBurst s (mkLoc (locHs loc) (locRow loc) (locBank loc) c (locPc loc))

/-- The bytes that a command writes meet a sealed graph object (R216, R422 order 6): the address that meets one. -/
def writesSealed (s : State) (q : TlAsk) (locs : List Nat) : Option Word :=
  if isWr q.op then ((q.addrs.zip locs).find? fun x => sealedBurst s x.2).map (·.1.1)
  else if q.op = 9 || q.op = 10 then
    match (q.addrs.zip locs).getLast? with
    | some x => if sealedRow s x.2 then some x.1.1 else none
    | none => none
  else none

/-- The HBM position of a location on the base die of a core, its slot in the lease, the slot mask of its PC for a bus (R96). -/
def leaseKey (c loc : Nat) : Nat × Nat × Nat := (locHs loc - 4 * stackOf c, locPc loc, locBank loc)
@[inherit_doc leaseKey] def laneMask (ms : List (Nat × Nat × BitVec 8)) (c loc : Nat) : Nat :=
  ((ms.find? fun m => m.1 = locHs loc - 4 * stackOf c && m.2.1 = locPc loc).map fun m => m.2.2.toNat).getD 0

/-- The checks of the lease (R98, R422 order 7): STACK, KIND, BANK, WHOLE, SLOT. -/
def leaseChecks (s : State) (op : Nat) (addr : Word) (xs : List (Nat × Nat)) : List (Option Flt) :=
  let c := s.cur.core
  let l := s.ccore.lease.entry
  let ls := xs.map (·.1)
  let key := leaseKey c (ls.headD 0)
  let held := (l.slots.filter fun x => x.1 = key.1 && x.2.1 = key.2.1).length
  [ chk (ls.any fun x => locHs x / 4 ≠ stackOf c) ⟨5, 3, addr, 0⟩,
    chk (ls.any fun x => ((s.hbm (locHs x)).pc (locPc x)).mode = 2) ⟨5, 2, addr, 0⟩,
    chk (ls.any fun x => !l.slots.contains (leaseKey c x)) ⟨5, 0, addr, 0⟩,
    chk ((op = 2 || op = 8) && held ≠ 64) ⟨5, 4, addr, 0⟩,
    chk (xs.any fun x => !bit (laneMask (if isCol op then l.cols else l.rows) c x.1) (x.2 / 2 % 8)) ⟨5, 1, addr, 0⟩ ]

/-- The auxiliary word of a DRAMRULE fault (R260): the stamps of the earlier and of the faulting command. -/
def dramAux (earlier stamp : Nat) : Word := BitVec.ofNat 64 (earlier % 2 ^ 32 * 2 ^ 32 + stamp % 2 ^ 32)

/-- The rows of a command break R100 or R422 order 9: out of service in a FOLD bank, or two rows not in one PC or in one bank. -/
def badRows (s : State) (op : Nat) (locs : List Nat) : Bool :=
  (s.ccore.lease.cls = 2 && (op = 0 || isCol op || isMem op) && locs.any fun x => locRow x ≥ 8192) ||
  match op, locs with
  | 10, [a, b] => locHs a ≠ locHs b || locPc a ≠ locPc b || (s.hbm (locHs a)).phys (locPc a) (locBank a) = (s.hbm (locHs b)).phys (locPc b) (locBank b)
  | 11, [a, b] => locHs a ≠ locHs b || locPc a ≠ locPc b || (s.hbm (locHs a)).phys (locPc a) (locBank a) = (s.hbm (locHs b)).phys (locPc b) (locBank b)
  | _, _ => false

/-- The key of a PC in the order maps of R102. -/
def pcKey (loc : Nat) : Nat := locHs loc * 64 + locPc loc

/-- The last posting to a PC is not below a command's tick (R102): the fault ORDER with the two stamps. -/
def orderCheck (s : State) (op : Nat) (x : Nat × Nat) : Option Flt :=
  match smFind (if isCol op then s.ccore.lastCol else s.ccore.lastRow) (pcKey x.1) with
  | some p =>
    chk (s.fromBase x.2 ≤ p) ⟨4, 8, 0, dramAux (BitVec.ofNat 64 p - s.ccore.tbase).toNat x.2⟩
  | none => none

/-- The new TBASEs of the members of a core's pack since their last alignment, in the core's own relative ticks (R104, R113, R145). -/
def rebases (s : State) (c : Nat) : List Int :=
  (((s.pack (s.core c).group).map (·.members)).getD [c]).filterMap fun m =>
    if (s.core m).shift = 0 then none else some ((s.core m).shift - (s.core c).shift)

/-- Whether a tick of the core being issued lies in the 64 ticks before a new TBASE of a member of its pack (R113). -/
def rebaseHole (s : State) (tick : Nat) : Bool :=
  let rel : Int := (tick : Int) - s.ccore.tbase.toNat
  (rebases s s.cur.core).any fun b => b - 64 ≤ rel && rel < b

/-- Whether a tick lies before the end of the care of the core's banks (R209): the exit of a HEEL issued since the wait. -/
def inCare (k : Core) (tick : Nat) : Bool :=
  match k.careFrom, k.heel with
  | none, _ => false
  | some _, some h => k.careNext.isSome || !h.fresh || tick < h.target + 24
  | some _, none => true

/-- ORDER, HOLE and LENT (R102, R114, R209, R422 order 10), each over the bursts in turn. -/
def frameChecks (s : State) (op stamp : Nat) (xs : List (Nat × Nat)) : List (Option Flt) :=
  (xs.map (orderCheck s op)) ++
  [ chk (xs.any fun x => inHole x.2 || rebaseHole s (s.fromBase x.2)) ⟨4, 3, 0, dramAux 0 stamp⟩,
    chk (op ≠ 2 && op ≠ 8 && xs.any fun x => lentAt s x.1 x.2) ⟨4, 4, 0, dramAux 0 stamp⟩,
    chk (xs.any fun x => inCare s.ccore (s.fromBase x.2)) ⟨4, 4, 0, dramAux 0 stamp⟩ ]

/-- Whether a marker still stands in a queue of its core at a tick (R47, R430): an access ahead of it there has not performed. -/
def Core.standing (k : Core) (q t : Nat) (m : Marker) : Bool :=
  k.task.outst.any fun o => m.ahead.contains o.id && o.queue = q && ((o.mdone.map fun d => decide (t < d)).getD true)

/-- The entries of the timeline queue in use (R101, R430). -/
def Core.tlUsed (k : Core) (t : Nat) : Nat :=
  k.tlq.length + (k.markers.filter fun m => m.inv.isNone && (m.qsel = 1 || m.qsel = 3) && k.standing 1 t m).length

/-- The copy-engine places in use (R87, R430). -/
def Core.copyUsed (k : Core) (t : Nat) : Nat :=
  (k.copies.filter fun x => x.start > t).length +
  (k.markers.filter fun m => m.inv.isNone && m.qsel ≥ 2 && k.standing 2 t m).length

/-- The checks of R422 from order 6 on. `sc` is the stamp, or the implied one where the word gives none (R293). -/
def lateChecks (s : State) (q : TlAsk) (off : Option Nat) (sc : Nat) (xs : List (Nat × Nat)) : Option Flt :=
  let addr := (q.addrs.head?.map (·.1)).getD 0
  let ls := xs.map (·.1)
  firstFlt <|
    [(writesSealed s q ls).map fun a => ⟨14, 0, a, 0⟩]
    ++ (if q.op = 12 then [] else leaseChecks s q.op addr xs)
    ++ [chk off.isNone ⟨3, 2, 0, 0⟩, chk (sc % 2 = 1) ⟨3, 3, 0, 0⟩, chk (s.fromBase sc < s.ctick + 16) ⟨3, 2, 0, 0⟩]
    ++ [chk (badRows s q.op ls) ⟨4, 1, 0, dramAux 0 sc⟩]
    ++ (if q.op = 12 then [] else frameChecks s q.op sc xs)
    ++ [chk (s.ccore.tlUsed s.ctick ≥ 256) ⟨12, 3, 0, 0⟩]

/-! ### Posting (R101, R424) -/

/-- The ticks at which a command counts as performed: for a fence, and for a MARK behind it (R186, R190, R430). -/
def tlDone (op last : Nat) (half : Bool) : Option Nat × Option Nat :=
  if isRd op then (some (last + readDelay half), some (last + readDelay half + 1))
  else if isWr op then (some (last + writeDelay half), some (last + writeDelay half))
  else if isMem op then (some (last + memopTicks op), some (last + memopTicks op))
  else if op = 12 then (none, none)
  else (some last, some last)

/-- A core with the posting of a command noted in its order maps (R102). -/
def Core.noteOrder (k : Core) (op : Nat) (xs : List (Nat × Nat)) : Core :=
  if op = 12 then k
  else if isCol op then { k with lastCol := xs.foldl (fun m x => smSet m (pcKey x.1) x.2) k.lastCol }
  else { k with lastRow := smSet k.lastRow (pcKey ((xs.headD (0, 0)).1)) ((xs.headD (0, 0)).2) }

/-- The state with a timeline command posted; `xs` are its locations with their stamps. The posting is traced with the stamp in bits 31:0 of ARG, the PC in bits 37:32
and the HBM stack above (R507, log 107). -/
def postCommand (s : State) (q : TlAsk) (stamp : Nat) (xs : List (Nat × Nat)) : State :=
  let c := s.cur.core
  let k := s.ccore
  let half : Bool := k.lease.cls = 1
  let tick := s.fromBase stamp
  let ys := xs.map fun x => (x.1, s.fromBase x.2)
  let last := (ys.getLast?.map (·.2)).getD tick
  let (done, mdone) := tlDone q.op last half
  let acc := s.nextId
  let cmd : TlCmd :=
    { id := k.tlseq, org := origin s 5, op := q.op, stamp := stamp, tick := tick,
      hs := (xs.head?.map fun x => locHs x.1).getD (4 * stackOf c + q.pos),
      bursts := if isCol q.op then List.zipWith (fun y f => ⟨y.2, y.1, f⟩) ys q.foffs else [],
      rows := if isCol q.op then [] else xs.map (·.1), face := q.face, ridx := q.ridx, half := half, seq := k.tlseq, acc := acc }
  let pend : List PendW :=
    if isRd q.op then
      List.zipWith (fun y f => ⟨0, k.tlseq, q.face, f, 64, s.ctick, y.2 + readDelay half⟩) ys q.foffs
    else []
  let s := s.access c s.cur.hd { id := 0, queue := 1, done := done, mdone := mdone }
  let s := s.trace (stackOf c) 3 c (s.rel c) (BitVec.ofNat 64 ((cmd.hs * 64 + ((xs.head?.map fun x => locPc x.1).getD 0)) * 2 ^ 32 + stamp % 2 ^ 32))
  s.modCore c fun k =>
    { k.noteOrder q.op ys with tlq := k.tlq ++ [cmd], tlseq := k.tlseq + 1, pendw := k.pendw ++ pend }

/-- The stamps of a command's locations (R89, R111, R423): one for each burst of a train, one for a row command. -/
def stamped (q : TlAsk) (half : Bool) (sc : Nat) (locs : List Nat) : List (Nat × Nat) :=
  if isCol q.op then List.zipWith (fun k l => (l, sc + burstGap half * k)) (List.range locs.length) locs
  else locs.map fun l => (l, sc)

/-- The issue of a timeline word (R420, R422): the first check that fails decides the fault, else the command is posted. -/
def issueTimeline (s : State) (i : Instr) (t : BitVec 6) (ask : State → TlAsk) : Host.Outcome State Fault Refusal :=
  issueWord s i .task fun s =>
    let q := ask s
    match firstFlt (chk q.bad ⟨1, 1, 0, 0⟩ :: q.early) with
    | some f => raiseFlt s 5 f
    | none =>
      match askLocs s q with
      | .error f => raiseFlt s 5 f
      | .ok locs =>
        let off := offsetOf s t.toNat
        let sc := off.getD ((BitVec.ofNat 64 (s.ctick + 1) - s.ccore.tbase).toNat % 2 ^ 32)
        let xs := stamped q (s.ccore.lease.cls = 1) sc locs
        match lateChecks s q off sc xs with
        | some f => raiseFlt s 5 f
        | none => postCommand s q sc xs

/-- A command on a lease slot, from its slot descriptor (R421). -/
def slotAsk (op : Nat) (a : BitVec 6) (s : State) : TlAsk :=
  let v := rdReg s a.toNat
  { op := op, bad := wfld v 63 30 ≠ 0 || wfld v 15 9 ≠ 0 || (op ≠ 0 && wfld v 29 16 ≠ 0), slot := some (wfld v 8 0, wfld v 29 16) }

/-- The column of a G address, and the address with its column field set (R91, R423). -/
def addrCol (a : Word) : Nat := wfld a 15 13 * 2 + wfld a 6 6
@[inherit_doc addrCol] def withCol (a : Word) (col : Nat) : Word := BitVec.ofNat 64 (setField (setField a.toNat 13 3 (col / 2)) 6 1 (col % 2))

/-- A read or write of bursts, from its G address and its face descriptor (R421 to R423). -/
def burstAsk (op : Nat) (a b : BitVec 6) (s : State) : TlAsk :=
  let av := rdReg s a.toNat
  let bv := rdReg s b.toNat
  let n := wfld bv 26 23 + 1
  let face := wfld bv 22 21
  let foff := wfld bv 20 0
  let fa : Word := BitVec.ofNat 64 foff
  { op := op,
    bad := wfld bv 63 27 ≠ 0 || face = 3 || ((op = 3 || op = 4) && n ≠ 1) || addrCol av + n > 16,
    early := [chk (av.toNat % 64 ≠ 0) ⟨9, 0, av, 0⟩, chk (foff % 64 ≠ 0) ⟨9, 0, fa, 0⟩, chk (foff + 64 * n > faceSize face) ⟨9, 1, fa, 0⟩,
              chk (isRd op = (face = 2)) ⟨9, 3, fa, 0⟩],
    addrs := (List.range n).map fun k => (withCol av (addrCol av + k), if isRd op then 512 else 256),
    face := face, foffs := (List.range n).map fun k => foff + 64 * k }

/-- ACT (R424). Posts a row activation to perform at its stamp. -/
def execAct (h : Head) (t a : BitVec 6) (s : State) : Host.Outcome State Fault Refusal :=
  issueTimeline s (.act h t a) t (slotAsk 0 a)

/-- PRE (R424). Posts a precharge of one bank. -/
def execPre (h : Head) (t a : BitVec 6) (s : State) : Host.Outcome State Fault Refusal :=
  issueTimeline s (.pre h t a) t (slotAsk 1 a)

/-- PREA (R424). Posts a precharge of every bank of a PC except lent ones. -/
def execPrea (h : Head) (t a : BitVec 6) (s : State) : Host.Outcome State Fault Refusal :=
  issueTimeline s (.prea h t a) t (slotAsk 2 a)

/-- RD (R424). Posts a one-burst HBM read into the A or W face. -/
def execRd (h : Head) (t a b : BitVec 6) (s : State) : Host.Outcome State Fault Refusal :=
  issueTimeline s (.rd h t a b) t (burstAsk 3 a b)

/-- WR (R424). Posts a one-burst HBM write from the C face. -/
def execWr (h : Head) (t a b : BitVec 6) (s : State) : Host.Outcome State Fault Refusal :=
  issueTimeline s (.wr h t a b) t (burstAsk 4 a b)

/-- RDT (R423). Posts a read train of n bursts. -/
def execRdt (h : Head) (t a b : BitVec 6) (s : State) : Host.Outcome State Fault Refusal :=
  issueTimeline s (.rdt h t a b) t (burstAsk 5 a b)

/-- WRT (R423). Posts a write train of n bursts. -/
def execWrt (h : Head) (t a b : BitVec 6) (s : State) : Host.Outcome State Fault Refusal :=
  issueTimeline s (.wrt h t a b) t (burstAsk 6 a b)

/-- REFPB (R424). Posts a per-bank refresh. -/
def execRefpb (h : Head) (t a : BitVec 6) (s : State) : Host.Outcome State Fault Refusal :=
  issueTimeline s (.refpb h t a) t (slotAsk 7 a)

/-- REFAB (R424). Posts an all-bank refresh of a PC. -/
def execRefab (h : Head) (t a : BitVec 6) (s : State) : Host.Outcome State Fault Refusal :=
  issueTimeline s (.refab h t a) t (slotAsk 8 a)

/-- MZERO (R427). Posts an in-memory zeroing of a row. -/
def execMzero (h : Head) (t a : BitVec 6) (s : State) : Host.Outcome State Fault Refusal :=
  issueTimeline s (.mzero h t a) t fun s => { op := 9, addrs := [(rdReg s a.toNat, 256)] }

/-- MCOPY (R427). Posts an in-memory copy of a row to another bank. -/
def execMcopy (h : Head) (t a b : BitVec 6) (s : State) : Host.Outcome State Fault Refusal :=
  issueTimeline s (.mcopy h t a b) t fun s => { op := 10, addrs := [(rdReg s a.toNat, 512), (rdReg s b.toNat, 256)] }

/-- MCMP (R428). Posts an in-memory comparison of two rows, with its result to the C face. -/
def execMcmp (h : Head) (t a b : BitVec 6) (s : State) : Host.Outcome State Fault Refusal :=
  issueTimeline s (.mcmp h t a b) t fun s =>
    let bv := rdReg s b.toNat
    { op := 11, addrs := [(rdReg s a.toNat, 512), (BitVec.ofNat 64 (wfld bv 47 0), 512)], ridx := wfld bv 63 48 }

/-- LFENCE (R429). Posts a fence that orders in-memory operations against reads and writes of one stack. -/
def execLfence (h : Head) (t a : BitVec 6) (s : State) : Host.Outcome State Fault Refusal :=
  issueTimeline s (.lfence h t a) t fun s =>
    let v := rdReg s a.toNat
    { op := 12, bad := wfld v 63 2 ≠ 0, pos := wfld v 1 0 }

/-- MARK (R430). Places markers in the timeline and copy queues, with an add on completion. -/
def execMark (h : Head) (t a b : BitVec 6) (s : State) : Host.Outcome State Fault Refusal :=
  issueWord s (.mark h t a b) .task fun s =>
    let v := rdReg s a.toNat
    let qsel := wfld v 63 62
    let toff := wfld v 19 0
    let ta : Word := BitVec.ofNat 64 toff
    let r0 := startTick s t.toNat
    let k := s.ccore
    match firstFlt [
        chk (wfld v 61 20 ≠ 0 || qsel = 0) ⟨1, 1, 0, 0⟩,
        chk (toff % 8 ≠ 0) ⟨9, 0, ta, 0⟩,
        chk (toff ≥ faceSize 2) ⟨9, 1, ta, 0⟩,
        chk (r0 ≤ s.ctick) ⟨3, 2, 0, 0⟩,
        chk (qsel ≠ 2 && k.tlUsed s.ctick ≥ 256) ⟨12, 3, 0, 0⟩,
        chk (qsel ≠ 1 && k.copyUsed s.ctick ≥ 16) ⟨12, 1, 0, 0⟩] with
    | some f => raiseFlt s 5 f
    | none =>
      let ahead := (if qsel ≠ 2 then queued k 1 else []) ++ (if qsel ≠ 1 then queued k 2 else [])
      let acc := s.nextId
      let s := s.access s.cur.core s.cur.hd { id := 0, loose := k.task.outst.any fun o => o.loose && ahead.contains o.id }
      s.modCore s.cur.core fun k =>
        k.mark { id := 0, org := origin s 5, qsel := qsel, r0 := r0, ahead := ahead, off := toff, val := rdReg s b.toNat, acc := acc }

end Sys2Proof.Machine
end

