-- ==== Sys2Proof/Machine/Copy.lean ====
section
/-!
DEFINITION. COPY, MCAST and FILL (spec/14_memory_instructions.md R432 to R440; spec/02_on_chip_storage.md R83 to R87): the engine
addresses, the checks of R437, and the queueing of a command.
-/
namespace Sys2Proof.Machine

/-- The reserved parts of an engine address (R432, R437 order 1); `src` says whether it carries LEN. -/
def engReserved (v : Word) (src : Bool) : Bool :=
  let len := wfld v 57 36
  wfld v 63 58 ≠ 0 || wfld v 35 35 ≠ 0 || wfld v 31 31 ≠ 0 || wfld v 34 32 ≥ 6
    || (wfld v 34 32 = 5 && wfld v 22 2 ≠ 0)
    || (if src then len = 0 || len > 2 ^ 21 else len ≠ 0)

/-- The part an engine address plays (R433). -/
inductive EngRole where
  | source
  | dest
  | fill
deriving DecidableEq, Repr

/-- The core, the face (4 to 7 for a stream queue) and the offset that an engine address of `n` bytes names, or the ALIGN fault of
R17 rows 2 and 3 (R25 to R27, R83, R433). -/
def engWhere (s : State) (v : Word) (n : Nat) (role : EngRole) : Except Flt (Nat × Nat × Nat) :=
  let c := s.cur.core
  let sp := wfld v 34 32
  let a := wfld v 30 0
  let fa : Word := BitVec.ofNat 64 a
  if sp = 5 then
    if fld a 30 23 ≥ 192 then .error ⟨9, 2, fa, 0⟩
    else if role ≠ .dest then .error ⟨9, 3, fa, 0⟩
    else .ok (coreOfX (clusterOf c) (fld a 30 23), 4 + fld a 1 0, 0)
  else
    let face := if sp = 4 then fld a 22 21 else sp
    let off := if sp = 4 then fld a 20 0 else a
    if off + n > faceSize face then .error ⟨9, 1, fa, 0⟩
    else if sp = 4 && fld a 30 23 ≥ 192 then .error ⟨9, 2, fa, 0⟩
    else if (face = 3 && role ≠ .dest) || (sp = 4 && role = .fill) then .error ⟨9, 3, fa, 0⟩
    else .ok (if sp = 4 then coreOfX (clusterOf c) (fld a 30 23) else c, face, off)

/-- The places of several engine addresses, in order. -/
def engWheres (s : State) (n : Nat) (role : EngRole) : List Word → Except Flt (List (Nat × Nat × Nat))
  | [] => .ok []
  | v :: vs =>
    match engWhere s v n role with
    | .error f => .error f
    | .ok x =>
      match engWheres s n role vs with
      | .error f => .error f
      | .ok xs => .ok (x :: xs)

/-- What a copy-engine word asks for: its bytes, the check of the registers, those of the multicast list, the source and the
destinations, and a fill's constant. -/
structure CopyAsk where
  len   : Nat
  bad   : Bool
  list  : List (Option Flt) := []
  src   : Option Word
  dsts  : List Word
  fill  : Option HWord := none

/-- The ALIGN checks of R433: a stream queue takes whole entries, a fill whole words. -/
def engAlign (q : CopyAsk) : List (Option Flt) :=
  let a (v : Word) : Word := BitVec.ofNat 64 (wfld v 30 0)
  [ chk (q.fill.isSome && (q.len % 4 ≠ 0 || wfld (q.dsts.headD 0) 30 0 % 4 ≠ 0)) ⟨9, 0, a (q.dsts.headD 0), 0⟩,
    chk (q.len % 128 ≠ 0 && q.dsts.any fun d => wfld d 34 32 = 5) ⟨9, 0, a ((q.src.getD 0)), 0⟩ ]

/-- The source place of a command; a fill's is that of its destination. -/
def engSource (s : State) (q : CopyAsk) : Except Flt (Nat × Nat × Nat) :=
  match q.src with
  | some v => engWhere s v q.len .source
  | none => .ok (s.cur.core, 0, 0)

/-- The bytes of a beat: its first and the count (R84, R86). -/
def CopyCmd.beat (x : CopyCmd) (b : Nat) : Nat × Nat :=
  let z := if x.fill.isSome then 512 else 256
  (z * b, min z (x.len - z * b))
/-- The delay from a command's start tick to the read of beat 0 at the source (R165). -/
def CopyCmd.readAt (x : CopyCmd) : Nat := 4 + 2 * leg x.org.core x.score

/-- The accesses of a command (R186, R189): one for each destination core, complete at that destination's completion tick. -/
def CopyCmd.outst (x : CopyCmd) (id : Nat) : List Outst :=
  x.dsts.map fun d =>
    let t := if x.sknown && d.known then some (x.start + x.delay d + x.beats) else none
    { id := id, cls := if d.core = x.org.core then 0 else 1, core := d.core, queue := 2, done := t, mdone := t, loose := t.isNone }

/-- The writes of a command to its own core's faces that the checkers look at (R393, R426, R438); a beat whose tick R82 does not define is pending until it has
committed. -/
def CopyCmd.pending (x : CopyCmd) : List PendW :=
  (x.dsts.filter fun d => d.core = x.org.core && d.face < 3).flatMap fun d =>
    (List.range x.beats).map fun b =>
      let (lo, n) := x.beat b
      { kind := if x.fill.isSome then 2 else 1, cmd := x.id, face := d.face, lo := d.off + lo, len := n, issued := x.org.issued,
        commit := if x.sknown && d.known then x.start + x.delay d + b else 2 ^ 62 }

/-- The state with a copy-engine command queued (R87); its start is posted on the core's own agenda. -/
def queueCopy (s : State) (q : CopyAsk) (start : Nat) (src : Nat × Nat × Nat) (dsts : List (Nat × Nat × Nat)) : State :=
  let c := s.cur.core
  let acc := s.nextId
  let x : CopyCmd :=
    { id := acc, org := origin s 5, start := start, len := q.len, score := src.1, sface := src.2.1, soff := src.2.2,
      sknown := exactTick s c s.cur.hd src.1,
      dsts := dsts.map fun d => { core := d.1, face := d.2.1, off := d.2.2, known := exactTick s c s.cur.hd d.1 },
      fill := q.fill, acc := acc }
  let x := { x with left := x.beats * x.dsts.length }
  let s := s.modThread c s.cur.hd fun t => { t with outst := t.outst ++ x.outst acc, nid := t.nid + 1 }
  let s := s.modCore c fun k =>
    { k with copies := k.copies ++ [x], copyEnd := start + x.beats, copyLast := start, pendw := k.pendw ++ x.pending }
  s.post c s.cur.hd { id := 0, tick := start, phase := 0, src := c, ord := resOrd x.org, act := .copyStart x.id }

/-- The issue of a copy-engine word: the checks of R437 in their order, STALE (R208) before LATE, else the command is queued. -/
def issueCopy (s : State) (i : Instr) (t : BitVec 6) (ask : State → CopyAsk) : Host.Outcome State Fault Refusal :=
  issueWord s i .task fun s =>
    let q := ask s
    let c := s.cur.core
    match firstFlt (chk q.bad ⟨1, 1, 0, 0⟩ :: q.list ++ engAlign q) with
    | some f => raiseFlt s 5 f
    | none =>
      match engSource s q with
      | .error f => raiseFlt s 5 f
      | .ok src =>
        match engWheres s q.len (if q.fill.isSome then .fill else .dest) q.dsts with
        | .error f => raiseFlt s 5 f
        | .ok dsts =>
          let start := startTick s t.toNat
          let gated := ((q.src.toList ++ q.dsts).zip ((if q.src.isSome then [src] else []) ++ dsts)).find? fun x => gatedCore s x.2.1
          match firstFlt [
              gated.map fun x => ⟨9, 3, BitVec.ofNat 64 (wfld x.1 30 0), 0⟩,
              chk ((src :: dsts).any fun d => staleExchange s c d.1) ⟨3, 8, 0, 0⟩,
              chk (start ≤ s.ctick) ⟨3, 2, 0, 0⟩,
              chk (s.ccore.copyUsed s.ctick ≥ 16 || start < s.ccore.copyEnd || start < s.ccore.copyLast) ⟨12, 1, 0, 0⟩] with
          | some f => raiseFlt s 5 f
          | none => queueCopy s q start src dsts

/-- COPY (R434). Queues a copy-engine copy between faces. -/
def execCopy (h : Head) (t a b : BitVec 6) (s : State) : Host.Outcome State Fault Refusal :=
  issueCopy s (.copy h t a b) t fun s =>
    let av := rdReg s a.toNat
    let bv := rdReg s b.toNat
    { len := wfld av 57 36, bad := engReserved av true || engReserved bv false, src := some av, dsts := [bv] }

/-- MCAST (R435). Queues a multicast to a list of destinations. -/
def execMcast (h : Head) (t a b : BitVec 6) (s : State) : Host.Outcome State Fault Refusal :=
  issueCopy s (.mcast h t a b) t fun s =>
    let av := rdReg s a.toNat
    let bv := rdReg s b.toNat
    let n := wfld bv 29 24 + 1
    let off := wfld bv 20 0
    let fa : Word := BitVec.ofNat 64 off
    let loc := faceLoc s.cur.core 2 off
    let ds := (List.range n).map fun k => BitVec.ofNat 64 (leNat (readBytes s.mem (loc + 8 * k) 8))
    { len := wfld av 57 36, bad := engReserved av true || wfld bv 63 30 ≠ 0 || wfld bv 23 21 ≠ 0,
      list := [chk (off % 8 ≠ 0) ⟨9, 0, fa, 0⟩, chk (off + 8 * n > faceSize 2) ⟨9, 1, fa, 0⟩,
               chk (poisonIn s loc (8 * n)).isSome ⟨8, 0, fa, 0⟩, chk (ds.any fun d => engReserved d false) ⟨1, 1, 0, 0⟩],
      src := some av, dsts := ds }

/-- FILL (R436). Queues a fill of a face range with a 32-bit constant. -/
def execFill (h : Head) (t a b : BitVec 6) (s : State) : Host.Outcome State Fault Refusal :=
  issueCopy s (.fill h t a b) t fun s =>
    let av := rdReg s a.toNat
    let bv := rdReg s b.toNat
    { len := wfld av 57 36, bad := engReserved av true || wfld bv 63 32 ≠ 0, src := none, dsts := [av],
      fill := some (BitVec.ofNat 32 (wfld bv 31 0)) }

end Sys2Proof.Machine
end

