-- ==== Sys2Proof/Machine/Cube.lean ====
section
/-!
DEFINITION. The words of the cube (spec/13_cube_instructions.md R387 to R409): descriptors, the plan of a command (its steps and the
ticks of its writes), the checks of R389 and R390, the queueing, and CUBE.SIDE. Kinds of command are the opcodes: 0 MM, 1 MMA, 2 MMW,
3 MMWA, 4 PL, 5 PLA, 6 WL, 7 FMT, 8 ZERO, 9 DRAIN, 10 SCORE, 11 RESC.
-/
namespace Sys2Proof.Machine

/-! ### Formats and shares of K (R391, R396, R399) -/

/-- Element width, and k-steps per tick, of a format code (R391). -/
def fmtBits (f : Nat) : Nat := [16, 16, 8, 8, 4, 8, 4, 2].getD f 16
@[inherit_doc fmtBits] def fmtRate (f : Nat) : Nat := [1, 1, 2, 2, 4, 2, 4, 4].getD f 1
/-- The allowed pairs of formats (R391). -/
def fmtPair (a b : Nat) : Bool := (a < 2 && b < 2) || ((a = 2 || a = 3) && (b = 2 || b = 3)) || (a = b && 4 ≤ a && a ≤ 7)
/-- Whether a format is an integer one (R391). -/
def isIntFmt (f : Nat) : Bool := 5 ≤ f && f ≤ 7

/-- The active layers, ascending (R394). -/
def XCmd.layers (x : XCmd) : List Nat := (List.range 8).filter fun l => bit x.lmask l
/-- The forms that multiply with a shared K, plane forms, accumulating forms, forms on latched weights. -/
def XCmd.isMul (x : XCmd) : Bool := x.kind ≤ 3 || x.kind = 10
@[inherit_doc XCmd.isMul] def XCmd.isPlane (x : XCmd) : Bool := x.kind = 4 || x.kind = 5
@[inherit_doc XCmd.isMul] def XCmd.accumulates (x : XCmd) : Bool := x.kind = 1 || x.kind = 3 || x.kind = 5
@[inherit_doc XCmd.isMul] def XCmd.latched (x : XCmd) : Bool := x.kind = 2 || x.kind = 3
/-- The forms that stream A, and that stream W (R395). -/
def XCmd.readsA (x : XCmd) : Bool := x.kind ≤ 5 || x.kind = 10
@[inherit_doc XCmd.readsA] def XCmd.readsW (x : XCmd) : Bool := x.kind ≤ 1 || (4 ≤ x.kind && x.kind ≤ 6) || x.kind = 10
/-- The format that paces the stream. -/
def XCmd.pace (x : XCmd) : Nat := if x.kind = 6 then x.bfmt else x.afmt
/-- Whether a stream is of FP4 blocks. -/
def XCmd.fp4 (x : XCmd) : Bool := x.pace = 4
/-- The share of K of a slot (R396): the whole of K in plane mode and for a latch load. -/
def XCmd.ks (x : XCmd) : Nat :=
  if x.isMul then (if x.fp4 then 8 * ceilDiv (x.k / 8) x.layers.length else ceilDiv x.k x.layers.length) else x.k
/-- The local k-steps of slot `m`: from 0 to this count (R396). -/
def XCmd.steps (x : XCmd) (m : Nat) : Nat :=
  if x.isMul then min x.k ((m + 1) * x.ks) - min x.k (m * x.ks) else x.k
/-- The stream time τ, or τw (R397, R399, R400). -/
def XCmd.tau (x : XCmd) : Nat := ceilDiv (x.steps 0) (fmtRate x.pace)
/-- t0 + 6 + τ + 2L, the vis of element (0, 0) (R397). -/
def XCmd.base (x : XCmd) : Nat := x.start + 6 + x.tau + 2 * x.layers.length
/-- The planes of a result: one, or one for each active layer (R399). -/
def XCmd.planes (x : XCmd) : Nat := if x.isPlane then x.layers.length else 1
/-- The C offset of element (0, 0) of plane `p` (R394, R399). -/
def XCmd.planeAt (x : XCmd) (p : Nat) : Nat := x.daddr + if x.isPlane then 256 * x.cstr * x.layers.getD p 0 else 0
/-- The tick at whose end diagonal `d` of plane `p` is written (R397, R399). -/
def XCmd.diagTick (x : XCmd) (p d : Nat) : Nat := x.base + d + p * (x.m + x.n - 1) - 1
/-- Z of a CUBE.SCORE (R408). -/
def XCmd.zTick (x : XCmd) : Nat := x.base + x.m + x.n - 2
/-- The depth kp of the P lines of a slot (R408). -/
def XCmd.kp (x : XCmd) : Nat := ceilDiv x.n x.layers.length
/-- The A-face offset of P line `j` (R408). -/
def XCmd.lineAt (x : XCmd) (j : Nat) : Nat := x.layers.getD (j / x.kp) 0 * 2 ^ 18 + x.daddr + 128 * (j % x.kp)

/-! ### The destination of a drain (R404) -/

/-- Output width of an OFMT in bytes (R403). -/
def outBytes (ofmt : Nat) : Nat := [4, 2, 2, 1, 1].getD ofmt 1
/-- The bytes written in each record, as first byte and count (R404). -/
def XCmd.runs (x : XCmd) : List (Nat × Nat) :=
  let e := outBytes x.ofmt
  (List.range (if x.tr then x.n else x.m)).map fun r => (x.daddr + 64 * e * r, e * (if x.tr then x.m else x.n))
/-- The end of the last run. -/
def XCmd.runEnd (x : XCmd) : Nat := ((x.runs.getLast?).map fun r => r.1 + r.2).getD x.daddr
/-- The parts of the runs in a 128-byte chunk. -/
def XCmd.inChunk (x : XCmd) (q : Nat) : List (Nat × Nat) :=
  x.runs.filterMap fun r =>
    let lo := max r.1 (128 * q)
    let hi := min (r.1 + r.2) (128 * q + 128)
    if lo < hi then some (lo, hi - lo) else none
/-- The pieces of a drain in ascending address, each as the parts of runs it writes (R404). -/
def XCmd.pieces (x : XCmd) : List (List (Nat × Nat)) :=
  ((List.range ((x.runEnd - 1) / 128 - x.daddr / 128 + 1)).map fun q => x.inChunk (x.daddr / 128 + q)).filter fun p => !p.isEmpty
/-- The tick at whose end piece `u` commits (R404). -/
def XCmd.pieceTick (x : XCmd) (u : Nat) : Nat := x.start + x.m + 3 + u

/-! ### Writes of a command (R390, R393) -/

/-- A run of consecutive things that a command writes: C words (space 0), bytes of the A face (1), MAX (2), SUM (3) or ALPHA (4) of rows;
the first is written at the end of `tick`, each next one a tick later where `slope` says so. -/
structure Seg where
  space : Nat
  lo    : Nat
  n     : Nat
  tick  : Nat
  slope : Bool := false
deriving DecidableEq, Repr

/-- The tick of the thing at place `a` of a segment. -/
def Seg.at (g : Seg) (a : Nat) : Nat := if g.slope then g.tick + (a - g.lo) else g.tick
/-- The last tick of a segment. -/
def Seg.last (g : Seg) : Nat := g.at (g.lo + g.n - 1)
/-- How many things a segment writes at the end of a tick. -/
def Seg.count (g : Seg) (t : Nat) : Nat :=
  if g.slope then (if g.tick ≤ t && t < g.tick + g.n then 1 else 0) else if g.tick = t then g.n else 0
/-- The lowest place among `n` from `lo` that a segment writes at the end of tick `t` or later. -/
def Seg.pendingAt (g : Seg) (space lo n t : Nat) : Option Nat :=
  let a := max (max lo g.lo) (if g.slope then g.lo + (t - g.tick) else g.lo)
  if g.space = space && a < lo + n && a < g.lo + g.n && t ≤ g.at a then some a else none

/-- The segments of a drain piece. -/
def pieceSegs (dspc tick : Nat) (parts : List (Nat × Nat)) : List Seg :=
  parts.map fun p =>
    if dspc = 0 then ⟨1, p.1, p.2, tick, false⟩ else ⟨0, p.1 / 4, (p.1 + p.2 - 1) / 4 - p.1 / 4 + 1, tick, false⟩

/-- The side registers that a command writes (R402, R408). -/
def XCmd.sideSegs (x : XCmd) : List Seg :=
  if x.kind = 8 && x.side then [⟨2, 0, x.m, x.start, false⟩, ⟨3, 0, x.m, x.start, false⟩, ⟨4, 0, x.m, x.start, false⟩]
  else if x.kind = 10 then
    [⟨2, 0, x.m, x.zTick + 10, false⟩, ⟨4, 0, x.m, x.zTick + 10, false⟩, ⟨3, 0, x.m, x.zTick + x.n + 16, false⟩]
  else []

/-- Everything that a command writes in a face (R397, R399, R402, R404, R405, R408). -/
def XCmd.faceSegs (x : XCmd) : List Seg :=
  let row (i : Nat) : Nat := (x.daddr + 256 * i) / 4
  match x.kind with
  | 6 => []
  | 7 => []
  | 8 => if x.keepc then [] else (List.range x.m).map fun i => ⟨0, row i, x.n, x.start + i, false⟩
  | 9 => ((List.range x.pieces.length).zip x.pieces).flatMap fun u => pieceSegs x.dspc (x.pieceTick u.1) u.2
  | 10 => (List.range x.n).map fun j => ⟨1, x.lineAt j, 2 * x.m, x.zTick + 10 + j, false⟩
  | 11 => (List.range x.m).map fun i => ⟨0, row i, x.n, x.start + i + 4, false⟩
  | _ => (List.range x.planes).flatMap fun p =>
      (List.range x.m).map fun i => ⟨0, (x.planeAt p + 256 * i) / 4, x.n, x.diagTick p i, true⟩

/-- Everything that a command writes. -/
def XCmd.segs (x : XCmd) : List Seg := x.faceSegs ++ x.sideSegs

/-- The last tick at which a command acts. -/
def XCmd.last (x : XCmd) : Nat :=
  x.segs.foldl (fun m g => max m g.last) (if x.kind = 6 then x.start + x.tau else x.start)

/-- C words that a command writes at the end of a tick, and reads at a tick (R390 condition 1). -/
def XCmd.writesAt (x : XCmd) (t : Nat) : Nat := (x.faceSegs.map fun g => if g.space = 0 then g.count t else 0).foldl (· + ·) 0
@[inherit_doc XCmd.writesAt] def XCmd.readsAt (x : XCmd) (t : Nat) : Nat :=
  if x.accumulates then x.writesAt t
  else if (x.kind = 9 || x.kind = 11) && x.start ≤ t && t < x.start + x.m then x.n else 0

/-- The destination pieces of a drain or a score, as tick and target: a slice of the A face, or 8 for C (R390 condition 2). -/
def XCmd.targets (x : XCmd) : List (Nat × Nat) :=
  match x.kind with
  | 9 => (List.range x.pieces.length).map fun u => (x.pieceTick u, if x.dspc = 0 then x.daddr / 2 ^ 18 else 8)
  | 10 => (List.range x.n).map fun j => (x.zTick + 10 + j, x.layers.getD (j / x.kp) 0)
  | _ => []

/-- Whether every thing that two segments both write is written strictly later by the new one (R390 condition 3). -/
def Seg.after (new old : Seg) : Bool :=
  let lo := max new.lo old.lo
  let hi := min (new.lo + new.n) (old.lo + old.n)
  new.space ≠ old.space || hi ≤ lo || (old.at lo < new.at lo && old.at (hi - 1) < new.at (hi - 1))

/-- Whether a command is acceptable beside those queued and running (R390). -/
def cubeFits (xs : List XCmd) (x : XCmd) : Bool :=
  let ticks := (List.range (x.last + 1 - x.start)).map (· + x.start)
  let total (f : XCmd → Nat) : Nat := (xs.map f).foldl (· + ·) 0
  ticks.all (fun t => (x.writesAt t = 0 || x.writesAt t + total (·.writesAt t) ≤ 64) && (x.readsAt t = 0 || x.readsAt t + total (·.readsAt t) ≤ 64))
    && x.targets.all (fun p => !xs.any fun y => y.targets.contains p)
    && x.segs.all (fun g => xs.all fun y => y.segs.all fun h => g.after h)

/-! ### Descriptors and checks (R389, R394, R395, R401, R403) -/

/-- The fields of D0 and D1 of the common layout that a command uses (R395): LMASK, MM1, NM1, KM1, AFMT, BFMT, SIDE and KEEPC, DADDR, CSTR,
WOFF, AOFF as bits 0 to 10. -/
def fieldUse (kind : Nat) : Nat :=
  match kind with
  | 0 => 0b11010111111
  | 1 => 0b11010111111
  | 10 => 0b11010111111
  | 2 => 0b10010011111
  | 3 => 0b10010011111
  | 4 => 0b11110111111
  | 5 => 0b11110111111
  | 6 => 0b01000101101
  | 8 => 0b00011000110
  | _ => 0b00010000110

/-- Whether a descriptor pair holds something in a field that its command does not use, or in a reserved bit (R394, R395). -/
def descReserved (kind : Nat) (d0 d1 : Word) : Bool :=
  let fs := [wfld d0 63 56, wfld d0 55 50, wfld d0 49 44, wfld d0 43 32, wfld d0 31 28, wfld d0 27 24, wfld d0 23 22, wfld d0 20 0,
             wfld d1 47 36, wfld d1 35 18, wfld d1 17 0]
  wfld d0 21 21 ≠ 0 || wfld d1 63 48 ≠ 0 ||
    ((List.range 11).any fun f => !bit (fieldUse kind) f && fs.getD f 0 ≠ 0)

/-- The command of the common layout that two descriptors name. -/
def mainCmd (kind : Nat) (org : Origin) (start : Nat) (fmt d0 d1 : Word) : XCmd :=
  let x : XCmd :=
    { id := 0, org := org, kind := kind, start := start, occ := 1, lmask := wfld d0 63 56, m := wfld d0 55 50 + 1, n := wfld d0 49 44 + 1,
      k := wfld d0 43 32 + 1, afmt := wfld d0 31 28, bfmt := wfld d0 27 24, side := bit d0.toNat 23, keepc := bit d0.toNat 22,
      daddr := wfld d0 20 0, cstr := wfld d1 47 36, woff := wfld d1 35 18, aoff := wfld d1 17 0, fmt := fmt }
  { x with occ := if kind = 8 || kind = 11 then 1 else if kind = 6 then x.tau + 1 else x.tau }

/-- The limits of the fields of the common layout (R389 order 1, R391, R395, R396, R399, R400, R407, R408). -/
def mainReserved (lmask : Nat) (x : XCmd) (d0 d1 : Word) : Bool :=
  descReserved x.kind d0 d1
    || (x.kind ≠ 8 && x.kind ≠ 11 && (x.lmask = 0 || Nat.land x.lmask lmask ≠ x.lmask))
    || ((x.isMul || x.isPlane) && (if x.latched then x.afmt > 7 else !fmtPair x.afmt x.bfmt))
    || (x.kind = 6 && (x.bfmt > 7 || x.k > 64))
    || (x.kind ≠ 8 && x.kind ≠ 11 && x.fp4 && x.k % 8 ≠ 0)
    || (x.isPlane && x.cstr < x.m)
    || (x.kind = 10 && (isIntFmt x.afmt || isIntFmt x.bfmt || fld x.daddr 20 18 ≠ 0))

/-- CFMT as it will stand when a new command starts (R395): the value in force, or that of the last CUBE.FMT queued. -/
def cfmtAhead (k : Core) : Word :=
  k.cubes.foldl (fun v x => if x.kind = 7 then x.fmt else v) k.cfmt

/-- The alignment and extent checks of the common layout (R389 orders 2 and 3, R392, R394, R395, R408). -/
def mainChecks (cf : Word) (x : XCmd) : List (Option Flt) :=
  let a (n : Nat) : Word := BitVec.ofNat 64 n
  let len (f : Nat) : Nat := 8 * fmtBits f * x.steps 0
  let scales := 64 * ceilDiv (x.steps 0) 8
  let writesC : Bool := x.kind ≤ 5 || x.kind = 8 || x.kind = 11
  [ chk (x.aoff % 16 ≠ 0) ⟨9, 0, a x.aoff, 0⟩, chk (x.woff % 16 ≠ 0) ⟨9, 0, a x.woff, 0⟩,
    chk (x.daddr % (if x.kind = 10 then 128 else 4) ≠ 0) ⟨9, 0, a x.daddr, 0⟩,
    chk (x.readsA && x.aoff + len x.afmt > 2 ^ 18) ⟨9, 1, a x.aoff, 0⟩,
    chk (x.readsA && x.fp4 && wfld cf 17 0 + scales > 2 ^ 18) ⟨9, 1, a (wfld cf 17 0), 0⟩,
    chk (x.readsW && x.woff + len x.bfmt > 2 ^ 18) ⟨9, 1, a x.woff, 0⟩,
    chk (x.readsW && x.fp4 && wfld cf 35 18 + scales > 2 ^ 18) ⟨9, 1, a (wfld cf 35 18), 0⟩,
    chk (writesC && x.planeAt (x.planes - 1) + 256 * (x.m - 1) + 4 * x.n > 2 ^ 20) ⟨9, 1, a x.daddr, 0⟩,
    chk (x.kind = 10 && x.daddr + 128 * x.kp > 2 ^ 18) ⟨9, 1, a x.daddr, 0⟩ ]

/-- The command of a CUBE.DRAIN (R403). -/
def drainCmd (org : Origin) (start : Nat) (fmt d0 d1 : Word) : XCmd :=
  { id := 0, org := org, kind := 9, start := start, occ := 1, m := wfld d0 47 42 + 1, n := wfld d0 41 36 + 1, daddr := wfld d0 20 0,
    fmt := fmt, bs := wfld d0 63 48, ofmt := wfld d0 35 32, rm := wfld d0 31 30, ct := bit d0.toNat 29, tr := bit d0.toNat 28,
    dspc := wfld d0 22 21, caddr := wfld d1 19 0 }

/-- The checks of a CUBE.DRAIN up to its destination space (R389 orders 1 to 4, R403, R404). -/
def drainChecks (x : XCmd) (d0 d1 : Word) : List (Option Flt) :=
  let a (n : Nat) : Word := BitVec.ofNat 64 n
  [ chk (wfld d0 27 23 ≠ 0 || x.ofmt ≥ 5 || wfld d1 63 20 ≠ 0) ⟨1, 1, 0, 0⟩,
    chk (x.daddr % 64 ≠ 0) ⟨9, 0, a x.daddr, 0⟩, chk (x.caddr % 4 ≠ 0) ⟨9, 0, a x.caddr, 0⟩,
    chk (x.caddr + 256 * (x.m - 1) + 4 * x.n > 2 ^ 20) ⟨9, 1, a x.caddr, 0⟩,
    chk (x.dspc = 0 && x.daddr / 2 ^ 18 ≠ (x.runEnd - 1) / 2 ^ 18) ⟨9, 1, a x.daddr, 0⟩,
    chk (x.dspc = 2 && x.runEnd > 2 ^ 20) ⟨9, 1, a x.daddr, 0⟩,
    chk (x.dspc = 1 || x.dspc = 3) ⟨9, 3, a x.daddr, 0⟩ ]

/-- The command of a CUBE.FMT, whose value stands in the field for ENGFMT (R401), and its checks. -/
def fmtCmd (org : Origin) (start : Nat) (d0 : Word) : XCmd := { id := 0, org := org, kind := 7, start := start, occ := 1, fmt := d0 }
@[inherit_doc fmtCmd] def fmtChecks (d0 : Word) : List (Option Flt) :=
  [ chk (wfld d0 63 36 ≠ 0) ⟨1, 1, 0, 0⟩, chk (wfld d0 17 0 % 64 ≠ 0) ⟨9, 0, BitVec.ofNat 64 (wfld d0 17 0), 0⟩,
    chk (wfld d0 35 18 % 64 ≠ 0) ⟨9, 0, BitVec.ofNat 64 (wfld d0 35 18), 0⟩ ]

/-- The state with a cube command queued (R388); its start is posted on the core's own agenda. -/
def queueCube (s : State) (x : XCmd) : State :=
  let c := s.cur.core
  let acc := s.nextId
  let x := { x with id := acc, acc := acc }
  let s := s.access c s.cur.hd { id := 0, queue := 3, done := some (x.last + 1), mdone := some (x.last + 1) }
  let s := s.modCore c fun k => { k with cubes := k.cubes ++ [x], cubeEnd := x.start + x.occ, cubeLast := x.start }
  s.post c s.cur.hd { id := 0, tick := x.start, phase := 0, src := c, ord := resOrd x.org, act := .cubeStart x.id }

/-- The issue of an X word that queues a command: its own checks, then LATE, then the queue (R389). -/
def issueCube (s : State) (i : Instr) (cmd : State → XCmd × List (Option Flt)) : Host.Outcome State Fault Refusal :=
  issueWord s i .task fun s =>
    let (x, checks) := cmd s
    match firstFlt checks with
    | some f => raiseFlt s 4 f
    | none =>
      let k := s.ccore
      if x.start ≤ s.ctick then raise s 4 3 2
      else if (k.cubes.filter fun y => y.start > s.ctick).length ≥ 16 || x.start < k.cubeEnd || !cubeFits k.cubes x then raise s 4 12 1
      else queueCube s x

/-- A command of the common layout with its checks. -/
def mainAsk (kind : Nat) (t : BitVec 6) (d0 d1 : Word) (s : State) : XCmd × List (Option Flt) :=
  let x := mainCmd kind (origin s 4) (startTick s t.toNat) s.ccore.engfmt d0 d1
  (x, chk (mainReserved s.ccore.lmask x d0 d1) ⟨1, 1, 0, 0⟩ :: mainChecks (cfmtAhead s.ccore) x)

/-- CUBE_MM (R396). Queues a matrix multiply C := A·B on the cube. -/
def execCubeMm (h : Head) (t a b : BitVec 6) (s : State) : Host.Outcome State Fault Refusal :=
  issueCube s (.cubeMm h t a b) fun s => mainAsk 0 t (rdReg s a.toNat) (rdReg s b.toNat) s

/-- CUBE_MMA (R396). Queues an accumulating matrix multiply. -/
def execCubeMma (h : Head) (t a b : BitVec 6) (s : State) : Host.Outcome State Fault Refusal :=
  issueCube s (.cubeMma h t a b) fun s => mainAsk 1 t (rdReg s a.toNat) (rdReg s b.toNat) s

/-- CUBE_MMW (R396). Queues a multiply with latched weights. -/
def execCubeMmw (h : Head) (t a b : BitVec 6) (s : State) : Host.Outcome State Fault Refusal :=
  issueCube s (.cubeMmw h t a b) fun s => mainAsk 2 t (rdReg s a.toNat) (rdReg s b.toNat) s

/-- CUBE_MMWA (R396). Queues an accumulating multiply with latched weights. -/
def execCubeMmwa (h : Head) (t a b : BitVec 6) (s : State) : Host.Outcome State Fault Refusal :=
  issueCube s (.cubeMmwa h t a b) fun s => mainAsk 3 t (rdReg s a.toNat) (rdReg s b.toNat) s

/-- CUBE_PL (R399). Queues a plane-mode multiply, one plane per layer. -/
def execCubePl (h : Head) (t a b : BitVec 6) (s : State) : Host.Outcome State Fault Refusal :=
  issueCube s (.cubePl h t a b) fun s => mainAsk 4 t (rdReg s a.toNat) (rdReg s b.toNat) s

/-- CUBE_PLA (R399). Queues an accumulating plane-mode multiply. -/
def execCubePla (h : Head) (t a b : BitVec 6) (s : State) : Host.Outcome State Fault Refusal :=
  issueCube s (.cubePla h t a b) fun s => mainAsk 5 t (rdReg s a.toNat) (rdReg s b.toNat) s

/-- CUBE_WL (R400). Queues a weight-latch load. -/
def execCubeWl (h : Head) (t a b : BitVec 6) (s : State) : Host.Outcome State Fault Refusal :=
  issueCube s (.cubeWl h t a b) fun s => mainAsk 6 t (rdReg s a.toNat) (rdReg s b.toNat) s

/-- CUBE_FMT (R401). Queues a write of the block-scale register CFMT. -/
def execCubeFmt (h : Head) (t a : BitVec 6) (s : State) : Host.Outcome State Fault Refusal :=
  issueCube s (.cubeFmt h t a) fun s =>
    (fmtCmd (origin s 4) (startTick s t.toNat) (rdReg s a.toNat), fmtChecks (rdReg s a.toNat))

/-- CUBE_ZERO (R402). Queues the zeroing of a C region and, optionally, of the side registers. -/
def execCubeZero (h : Head) (t a : BitVec 6) (s : State) : Host.Outcome State Fault Refusal :=
  issueCube s (.cubeZero h t a) fun s => mainAsk 8 t (rdReg s a.toNat) 0 s

/-- CUBE_DRAIN (R403). Queues the conversion of a C region into a face. -/
def execCubeDrain (h : Head) (t a b : BitVec 6) (s : State) : Host.Outcome State Fault Refusal :=
  issueCube s (.cubeDrain h t a b) fun s =>
    let x := drainCmd (origin s 4) (startTick s t.toNat) s.ccore.engfmt (rdReg s a.toNat) (rdReg s b.toNat)
    (x, drainChecks x (rdReg s a.toNat) (rdReg s b.toNat))

/-- CUBE_SCORE (R407). Queues an online-softmax scoring command. -/
def execCubeScore (h : Head) (t a b : BitVec 6) (s : State) : Host.Outcome State Fault Refusal :=
  issueCube s (.cubeScore h t a b) fun s => mainAsk 10 t (rdReg s a.toNat) (rdReg s b.toNat) s

/-- CUBE_RESC (R405). Queues the rescaling of C rows by ALPHA. -/
def execCubeResc (h : Head) (t a : BitVec 6) (s : State) : Host.Outcome State Fault Refusal :=
  issueCube s (.cubeResc h t a) fun s => mainAsk 11 t (rdReg s a.toNat) 0 s

/-- The side register of a row and kind (R409): 0 MAX, 1 SUM, 2 ALPHA, 3 zero. -/
def sideReg (k : Core) (row kind : Nat) : HWord :=
  let r := smGet {} k.sides row
  match kind with
  | 0 => r.mx
  | 1 => r.sm
  | 2 => r.al
  | _ => 0

/-- CUBE_SIDE (R409). Reads a side register of the cube into D. -/
def execCubeSide (h : Head) (d a b : BitVec 6) (s : State) : Host.Outcome State Fault Refusal :=
  issueWord s (.cubeSide h d a b) .task fun s =>
    let v : Word := (sideReg s.ccore (wfld (rdReg s a.toNat) 5 0) (wfld (rdReg s b.toNat) 1 0)).setWidth 64
    postResult s 2 (mkReplay s (.cubeSide h d a b) none [slotOf v] false) (regRes d.toNat v)

end Sys2Proof.Machine
end

