-- ==== Sys2Proof/Machine/Controller.lean ====
section
/-!
DEFINITION. The HBM controller and its management core (spec/03_hbm_timeline.md R103 to R107, R113 to R135): the error log, lane swaps,
the timing rules between commands presented on a pseudo-channel, and the presentation of a command.
-/
namespace Sys2Proof.Machine

/-! ### The error log and lane swaps (R127 to R133, R516, R517) -/

/-- What an error-log entry names beside its stack and PC. -/
structure LogPos where
  bank   : Nat := 0
  row    : Nat := 0
  col    : Nat := 0
  lane   : Nat := 63
  resend : Nat := 0
  symbol : Nat := 0
  core   : Nat := 511
  stamp  : Nat := 0
deriving DecidableEq, Repr

/-- The place of a burst in a log entry. -/
def logAt (cell core stamp : Nat) : LogPos :=
  { bank := locBank cell, row := locRow cell, col := locCol cell, core := core, stamp := stamp }

/-- The state with an entry appended to the ring of a stack (R133), with the count of the command clock at the first mt edge from now on (R103, R516);
each append sets JCAUSE bit 2 (R492). -/
def hbmLog (s : State) (hs pc type : Nat) (p : LogPos) : State :=
  let h := s.hbm hs
  let w0 := type * 2 ^ 60 + hs * 2 ^ 56 + pc * 2 ^ 50 + p.bank * 2 ^ 44 + p.row * 2 ^ 30 + p.col * 2 ^ 26 + p.lane * 2 ^ 20
    + p.resend * 2 ^ 16 + (h.pc pc).rcnt % 256 * 2 ^ 8 + p.symbol
  let w1 := ceilDiv s.now 10 % 2 ^ 32 * 2 ^ 32 + p.core * 2 ^ 23
  let e : List Word := [BitVec.ofNat 64 w0, BitVec.ofNat 64 w1, BitVec.ofNat 64 (p.stamp % 2 ^ 32), 0]
  let log := if h.log.length ≥ 1024 then h.log.drop 1 else h.log
  (s.setHbm hs { h with log := log ++ [e] }).cause 2

/-- The lane named most often, the lowest of equals (R129). -/
def worstLane (names : List Nat) : Option Nat :=
  (List.range 38).foldl (fun best l =>
    let n := names.count l
    match best with
    | some b => if names.count b < n then some l else best
    | none => if n > 0 then some l else none) none

/-- The lanes named in the retry window in which a PC's swap fell due: the earlier window's where a new one has begun since (R129). -/
def Pc.window (q : Pc) : List Nat := (q.old.map q.names.take).getD q.names

/-- The state after the swap of a PC's failing lane, or its in-field test where no entry of the window names one (R129, R130): without a spare left
the PC falls to half width at the next phase boundary, and the entry names no lane (R516). `stamp` is that of the hole used. -/
def swapLane (s : State) (hs pc stamp : Nat) : State :=
  let q := (s.hbm hs).pc pc
  let (lane, s) := match worstLane q.window with
    | some l => (some l, s)
    | none =>
      let (k, s) := s.draw 38
      (if k < 38 then some k else none, s)
  let set (s : State) (f : Pc → Pc) : State := s.modHbm hs fun h => h.modPc pc f
  let s := set s fun q => { q with rcnt := 0, names := q.names.drop (q.old.getD 0), old := none, swap := false }
  match lane with
  | none => hbmLog s hs pc 6 { stamp := stamp }
  | some l =>
    if q.spares = 0 then hbmLog (set s fun q => { q with halfNext := true }) hs pc 7 { stamp := stamp }
    else hbmLog (set s fun q => { q with spares := q.spares - 1 }) hs pc 6 { lane := l, stamp := stamp }

/-- The state after a transfer of a burst that needed resends (R128, R129): RCNT rises, the entry names the lane, the burst joins the retry backlog
(R117), and at 8 a swap is due, at once on a PC that is not in compiled mode. -/
def resent (s : State) (cell type : Nat) (p : LogPos) : State :=
  let hs := locHs cell
  let pc := locPc cell
  let s := s.modHbm hs fun h =>
    { h.modPc pc fun q =>
        { q with rcnt := q.rcnt + 1, names := if p.lane < 38 then q.names ++ [p.lane] else q.names, swap := q.swap || q.rcnt + 1 ≥ 8 } with
      backlog := h.backlog ++ [cell] }
  let s := hbmLog s hs pc type p
  let q := (s.hbm hs).pc pc
  if q.swap && q.mode ≠ 1 then swapLane s hs pc 0 else s

/-- The stored error of a burst (R127): 0 none, 1 + a corrected symbol up to 256, more for an uncorrectable one. -/
def State.stored (s : State) (cell : Nat) : Nat := smGet 0 s.burstErr (cell / 64)
/-- Whether a burst is uncorrectable. -/
def State.badBurst (s : State) (cell : Nat) : Bool := s.stored cell > 256
/-- The state in which a good or a poisoned write has stored a burst afresh (R127, R128, R131). -/
def State.rewritten (s : State) (cell : Nat) (bad : Bool) : State :=
  { s with burstErr := if bad then smSet s.burstErr (cell / 64) 257 else smErase s.burstErr (cell / 64) }

/-- The state with the error that array ECC finds in a burst logged (R127, R133), if there is one. -/
def logArray (s : State) (cell : Nat) (pos : LogPos) : State :=
  let v := s.stored cell
  if v = 0 then s
  else if v ≤ 256 then hbmLog s (locHs cell) (locPc cell) 0 { pos with symbol := v - 1 } else hbmLog s (locHs cell) (locPc cell) 1 pos

/-- A read transfer of a burst (R127, R128): its data, whether it is poisoned, and the state with its log entries; `fails` transfers
fail their parity. -/
def readBurst (s : State) (cell core stamp fails lane : Nat) : List Byte × Bool × State :=
  let data := readLine s cell
  let v := s.stored cell
  let pos := logAt cell core stamp
  let s := logArray s cell pos
  let s := if fails = 0 then s else resent s cell (if fails ≤ 3 then 2 else 3) { pos with lane := lane, resend := min 3 fails }
  (data, v > 256 || fails > 3, s)

/-- A write transfer of a burst (R128): whether it stores the line as poison, and the state with its log entry. -/
def writeTransfer (s : State) (cell core stamp fails lane : Nat) : Bool × State :=
  let pos := logAt cell core stamp
  let s := if fails = 0 then s else resent s cell (if fails ≤ 2 then 4 else 5) { pos with lane := lane, resend := min 2 fails }
  (fails > 2, s)

/-- How many transfers of an access fail their parity, up to `n`, and the lane named: free (R128, log 5). -/
def freeFails (s : State) (n : Nat) : Nat × Nat × State :=
  let (f, s) := s.draw n
  let (l, s) := s.draw 38
  (f, if l < 38 then l else 63, s)

/-- The read transfers of `n` bytes of the physical address space for the host or the fabric (R127, R128): whether one came poisoned, and the state with their log
entries; no core issues them (log 103). -/
def readLines (s : State) (pa n : Nat) : Bool × State :=
  (linesOf pa n).foldl (fun a l =>
    let (f, lane, s) := freeFails a.2 4
    let r := readBurst s (s.loc (64 * l)) 511 0 f lane
    (a.1 || r.2.1, r.2.2)) (false, s)

/-- The state after the write transfers of `n` bytes for the host or the fabric (R128): a line whose transfers fail for good is stored as poison. -/
def writeLines (s : State) (pa n : Nat) : State :=
  (linesOf pa n).foldl (fun s l =>
    let (f, lane, s) := freeFails s 3
    let (lost, s) := writeTransfer s (s.loc (64 * l)) 511 0 f lane
    if lost then s.rewritten (s.loc (64 * l)) true else s) s

/-- The state after transfers of some bursts for the walker, a Shepherd or a controller, which are no access of a core (R127, R128, log 103): the log entries of the reads, and what they
count; what is read goes on as it is stored, poisoned or not. -/
def State.readCells (s : State) (cells : List Nat) : State :=
  let t := cells.foldl (fun s l =>
    let (f, lane, s) := freeFails s 4
    (readBurst s l 511 0 f lane).2.2) s
  { s with hbms := t.hbms, fresh := t.fresh }

@[inherit_doc State.readCells] def State.writeCells (s : State) (cells : List Nat) : State :=
  let t := cells.foldl (fun s l =>
    let (f, lane, s) := freeFails s 3
    let (lost, s) := writeTransfer s l 511 0 f lane
    if lost then s.rewritten l true else s) s
  { s with hbms := t.hbms, fresh := t.fresh, burstErr := t.burstErr }

/-- The bursts of some pieces of the physical address space, each an address and its bytes. -/
def State.cellsOf (s : State) (ps : List (Nat × Nat)) : List Nat := ps.flatMap fun p => (linesOf p.1 p.2).map fun l => s.loc (64 * l)

/-- The state after the reads, or the writes, of some pieces of the physical address space by the walker, a Shepherd or a controller (log 103). -/
def State.noteReads (s : State) (ps : List (Nat × Nat)) : State := s.readCells (s.cellsOf ps)
@[inherit_doc State.noteReads] def State.noteWrites (s : State) (ps : List (Nat × Nat)) : State := s.writeCells (s.cellsOf ps)

/-! ### Timing rules between presented commands (R105, R107, R121) -/

/-- Whether a command counts as ACT-class (R105). -/
def actClass (op : Nat) : Bool := op = 0 || op = 7 || op = 8 || isMem op

/-- The least number of ticks from a presented command to a new one (R105), with the longer bursts of class HALF (R100); bank 64 stands for the whole
PC, and opcode 2 for a precharge that closed nothing. -/
def minGap (half : Bool) (p : Pres) (op bank : Nat) : Nat :=
  let same : Bool := p.bank = bank
  let group : Bool := p.bank = 64 || bank = 64 || p.bank / 4 = bank / 4
  let need (b : Bool) (n : Nat) : Nat := if b then n else 0
  let opens : Bool := op = 0 || op = 7 || isMem op
  [ need (p.op = 0 && isCol op && same) 48, need (p.op = 1 && opens && same) 48, need (p.op = 0 && op = 1 && same) 104,
    need (p.op = 0 && op = 0 && same) 152, need (isWr p.op && op = 1 && same) 76, need (isRd p.op && op = 1 && same) 12,
    need (p.op = 7 && opens && same) 576, need (p.op = 8 && !isCol op) 1120,
    need (actClass p.op && actClass op && (!same || bank = 64)) (if group then 12 else 8),
    need (isCol p.op && isCol op) ((if group then 8 else 4) * if half then 2 else 1), need (isWr p.op && isRd op) (if group then 40 else 28),
    need (isRd p.op && isWr op) 48 ].foldl max 0

/-- The stamps of the phantom activations of a hole that tFAW may count for a stamp (R116): those before the frame of the stamp, and those before the new TBASEs `bases`. -/
def phantoms (stamp : Int) (bases : List Int) : List Int :=
  ((if stamp < 4096 then [] else [stamp - stamp % 4096]) ++ bases).flatMap fun b =>
    (if b ≤ stamp && stamp < b + 16 then [b - 48] else []) ++ (if b ≤ stamp && stamp < b + 32 then [b - 32] else [])

/-- The stamp of an earlier command that a new one stands too close to, if any (R105): `banks` are those of the new one. -/
def spacing (half : Bool) (hist : List Pres) (op : Nat) (banks : List Nat) (stamp : Int) (bases : List Int) : Option Int :=
  match hist.find? fun p => banks.any fun b => stamp < p.stamp + minGap half p op b with
  | some p => some p.stamp
  | none =>
    if !actClass op then none
    else
      let near := (hist.filter fun p => actClass p.op && stamp < p.stamp + 64).map (·.stamp) ++ phantoms stamp bases
      if near.length + banks.length > 4 then near.min? else none

/-- The stamp of the first of 64 activations of a bank group within 8,192 stamps (R121). -/
def budget (hist : List Pres) (bank : Nat) (stamp : Int) : Option Int :=
  let near := hist.filter fun p => (p.op = 0 || p.op = 13) && p.bank / 4 = bank / 4 && stamp < p.stamp + 8192
  if near.length ≥ 64 then (near.head?).map (·.stamp) else none

/-- The row as its physical bank holds it (R135). -/
def Hbm.physRow (h : Hbm) (pc bank row : Nat) : Nat := if ((h.bank pc bank).fold).isSome then row + 8192 else row

/-- The Misra–Gries table of a bank after a compiled activation, and whether the row's count has reached TH (R120). -/
def activate (table : List (Nat × Nat)) (th row : Nat) : List (Nat × Nat) × Bool :=
  let table :=
    if table.any fun e => e.1 = row then table.map fun e => if e.1 = row then (row, e.2 + 1) else e
    else if table.length < 8 then table ++ [(row, 1)]
    else (table.map fun e => (e.1, e.2 - 1)).filter fun e => e.2 ≠ 0
  if table.any fun e => e.1 = row && e.2 = th then (table.filter fun e => e.1 ≠ row, true) else (table, false)

/-- Whether a pending LFENCE of a core to a stack has not been satisfied (R125, R126). -/
def fencing (k : Core) (hs : Nat) : Bool :=
  k.task.agenda.any fun p => match p.act with
    | .lfence h => h = hs
    | _ => false

/-! ### Presentation -/

/-- What is presented of a command at one tick: opcode, tick, stamp, the stamp counted from the core's present TBASE, stack, PC, the (physical) banks
with their rows. -/
structure Show where
  op    : Nat
  tick  : Nat
  stamp : Nat
  rel   : Int
  hs    : Nat
  pc    : Nat
  banks : List Nat
  rows  : List Nat

/-- The next presentation of a command: a burst, or the row command itself; PREA and REFAB name every bank of the PC that is not
lent at the stamp (R114). -/
def TlCmd.show (s : State) (c : Nat) (x : TlCmd) : Show :=
  let cells := match x.bursts with
    | b :: _ => [b.cell]
    | [] => x.rows
  let cell := cells.headD 0
  let hs := if cells.isEmpty then x.hs else locHs cell
  let h := s.hbm hs
  let pc := locPc cell
  let tick := match x.bursts with
    | b :: _ => b.tick
    | [] => x.tick
  let stamp := x.stamp + (tick - x.tick)
  let banks :=
    if x.op = 2 || x.op = 8 then (List.range 64).filter fun b => !(lentBanks stamp).any fun l => h.phys pc l = b
    else cells.map fun c => h.phys pc (locBank c)
  { op := x.op, tick := tick, stamp := stamp, rel := (tick : Int) - (s.core c).tbase.toNat, hs := hs, pc := pc, banks := banks,
    rows := cells.map fun c => h.physRow pc (locBank c) (locRow c) }

/-- A DRAMRULE fault of a presented command against an earlier stamp. -/
def Show.rule (v : Show) (cause : Nat) (earlier : Int) : Flt := ⟨4, cause, 0, dramAux (earlier % 2 ^ 32).toNat v.stamp⟩

/-- The commands presented on a PC with their stamps in the relative ticks of a core (R104, R145). -/
def seen (s : State) (c hs pc : Nat) : List Pres :=
  ((s.hbm hs).pc pc).hist.map fun p => { p with stamp := p.stamp + (s.core p.core).shift - (s.core c).shift }

/-- The new TBASEs before which a core has to count the phantom activations of a hole (R113, R116), in its relative ticks. -/
def holeBases (s : State) (c : Nat) : List Int := if (s.core c).rebased then 0 :: rebases s c else rebases s c

/-- The live members of a pack that hold a bank of a PC. -/
def holders (s : State) (g hs pc : Nat) : List Nat :=
  match s.pack g with
  | some p => (s.liveMembers p).filter fun c => (s.core c).lease.entry.slots.any fun x => 4 * stackOf c + x.1 = hs && x.2.1 = pc
  | none => []

/-- Whether another holder of the PC is still to present, at the same stamp and on the same bus, a command posted before this one (R107); of two posted at
one tick that of the lower core is the earlier. -/
def busTaken (s : State) (c : Nat) (x : TlCmd) (v : Show) : Bool :=
  let posted (d : Nat) (y : TlCmd) : Int := (y.org.issued : Int) - (s.core d).tbase.toNat + (s.core d).shift
  (holders s (s.core c).group v.hs v.pc).any fun d => d ≠ c && (s.core d).frozen.isNone && (s.core d).tlq.any fun y =>
    let u := y.show s d
    y.op ≠ 12 && u.hs = v.hs && u.pc = v.pc && u.rel + (s.core d).shift = v.rel + (s.core c).shift && isCol u.op = isCol v.op &&
      (posted d y < posted c x || (posted d y = posted c x && d < c))

/-- The checks of a command at its stamp (R104 to R107, R121, R123 to R125, R162): the first that fails. A PREA passes over a bank that is busy with an
in-memory operation (log 89). -/
def presentFault (s : State) (c : Nat) (x : TlCmd) (v : Show) : Option Flt :=
  let h := s.hbm v.hs
  let q := h.pc v.pc
  let k := s.core c
  let bank (b : Nat) : Bank := h.bank v.pc b
  let hist := seen s c v.hs v.pc
  let last : Int := (hist.getLast?.map (·.stamp)).getD 0
  let closes := if v.op = 1 || v.op = 2 then v.banks.filter fun b => (bank b).row.isSome else v.banks
  let asOp := if v.op = 2 then 1 else v.op
  let whole := v.op = 8
  firstFlt [
    chk (!h.lock) ⟨3, 6, 0, 0⟩,
    chk (ceilDiv s.now 10 * 10 < q.hold) ⟨3, 4, 0, 0⟩,
    if busTaken s c x v then some (v.rule 2 v.rel)
    else (hist.find? fun p => p.stamp = v.rel && p.core ≠ c && isCol p.op = isCol v.op).map fun p => v.rule 2 p.stamp,
    chk (fencing k v.hs && v.banks.any fun b => (bank b).wmark || (bank b).mmark) (v.rule 7 last),
    chk (if isCol v.op then (bank (v.banks.headD 0)).row ≠ some (v.rows.headD 0)
         else v.op ≠ 1 && v.op ≠ 2 && v.banks.any fun b => (bank b).row.isSome) (v.rule 1 last),
    chk ((isCol v.op && v.banks.any fun b => (bank b).mmark) || (isMem v.op && v.banks.any fun b => (bank b).wmark)) (v.rule 7 last),
    chk (!isCol v.op && v.op ≠ 2 && v.banks.any fun b => v.rel < (bank b).busy) (v.rule 0 last),
    if closes.isEmpty then (hist.find? fun p => p.op = 8 && v.rel < p.stamp + 1120).map fun p => v.rule 0 p.stamp
    else (spacing q.half hist asOp (if whole then [64] else closes) v.rel (holeBases s c)).map fun e => v.rule 0 e,
    if v.op = 0 then (budget hist (v.banks.headD 0) v.rel).map fun e => v.rule 6 e else none ]

/-- The byte of the C face that a write burst finds not yet written by an engine of its core (R426). -/
def cubePending (k : Core) (face lo n t : Nat) : Option Nat :=
  let seg (x : XCmd) (g : Seg) : Option Nat :=
    if x.org.issued > t then none
    else if face = 2 && g.space = 0 then (g.pendingAt 0 (lo / 4) ((lo + n - 1) / 4 - lo / 4 + 1) t).map fun w => max lo (4 * w)
    else if face = 0 && g.space = 1 then g.pendingAt 1 lo n t
    else none
  (k.cubes.flatMap fun x => x.faceSegs.filterMap (seg x)).min?

/-- The lowest byte of a range of a face that awaits a write of an engine of the core, or a delivery where `reads` says so, at a tick. -/
def enginePending (k : Core) (reads : Bool) (self : Option Nat) (face lo n t : Nat) : Option Nat :=
  match pendingOn k (if reads then [0, 1, 2, 3, 4, 5] else [1, 2, 3, 4, 5]) self face lo n t, cubePending k face lo n t with
  | some a, some b => some (min a b)
  | some a, none => some a
  | none, b => b

/-- The fault of a write burst whose C bytes are still to be written (R426). -/
def burstOperand (s : State) (c : Nat) (x : TlCmd) : Option Flt :=
  match x.bursts with
  | b :: _ =>
    if isWr x.op then (enginePending (s.core c) false none 2 b.foff 64 b.tick).map fun o => ⟨3, 0, BitVec.ofNat 64 o, 0⟩ else none
  | [] => none

/-- The state with commands noted as presented on a PC; what no rule looks at any more is forgotten. -/
def note (s : State) (hs pc : Nat) (ps : List Pres) : State :=
  let at_ (p : Pres) : Int := p.stamp + (s.core p.core).shift
  s.modHbm hs fun h => h.modPc pc fun q =>
    { q with hist := (q.hist.filter fun p => ps.all fun n => at_ n < at_ p + 8192) ++ ps }

/-- F of an LFENCE at its stamp (R126): no earlier than the visibility of the core's write bursts to the stack stamped before it, and the completion of its
in-memory operations there stamped before it, as the controller has noted them. -/
def fenceTick (s : State) (c : Nat) (x : TlCmd) : Nat :=
  let at_ : Int := (x.tick : Int) - (s.core c).tbase.toNat
  let upTo (p : Pres) : Int :=
    if p.core ≠ c || at_ ≤ p.stamp then at_
    else if isWr p.op then p.stamp + writeDelay x.half else if isMem p.op then p.stamp + memopTicks p.op else at_
  x.tick + (((s.hbm x.hs).pcs.flatMap fun q => q.2.hist.map upTo).foldl max at_ - at_).toNat

/-- The state in which the W and M marks of a core's banks in a stack have cleared (R126). -/
def clearMarks (s : State) (c hs : Nat) : State :=
  ((s.core c).lease.entry.slots.filter fun x => 4 * stackOf c + x.1 = hs).foldl (fun s x =>
    s.modBank hs x.2.1 ((s.hbm hs).phys x.2.1 x.2.2) fun b => { b with wmark := false, mmark := false }) s

/-- The location of column `col` of the row that holds a location. -/
def rowCell (l col : Nat) : Nat := mkLoc (locHs l) (locRow l) (locBank l) col (locPc l)

/-- The state with the errors that array ECC finds in an access to a whole row logged (R127, R133). -/
def logRow (s : State) (l core stamp : Nat) : State :=
  (List.range 16).foldl (fun s col => logArray s (rowCell l col) (logAt (rowCell l col) core stamp)) s

/-- The result of a comparison of two rows (R124): 0, or 1 + the first differing or uncorrectable column. -/
def compareRows (s : State) (a b : Nat) : Nat :=
  match (List.range 16).find? fun k =>
      s.badBurst (rowCell a k) || s.badBurst (rowCell b k) || readLine s (rowCell a k) ≠ readLine s (rowCell b k) with
  | some k => k + 1
  | none => 0

/-- The state after a row command other than an in-memory operation (R106, R118, R120, R424). -/
def presentRow (s : State) (c : Nat) (v : Show) : State :=
  let p (op bank : Nat) : Pres := { stamp := v.rel, op := op, bank := bank, core := c }
  let h := s.hbm v.hs
  let b := v.banks.headD 0
  match v.op with
  | 0 =>
    let row := v.rows.headD 0
    let (table, hit) := activate (h.bank v.pc b).table h.th row
    let s := s.modBank v.hs v.pc b fun k => { k with row := some row, table := table }
    let s := if hit then s.modHbm v.hs fun h => { h with drfm := h.drfm ++ [(v.pc, b, row)] } else s
    note s v.hs v.pc [p 0 b]
  | 7 => note (s.modBank v.hs v.pc b fun k => { k with ref := v.rel }) v.hs v.pc [p 7 b]
  | 8 => note (v.banks.foldl (fun s b => s.modBank v.hs v.pc b fun k => { k with ref := v.rel }) s) v.hs v.pc [p 8 64]
  | _ =>
    let shut := v.banks.filter fun b => (h.bank v.pc b).row.isSome
    let s := shut.foldl (fun s b => s.modBank v.hs v.pc b fun k => { k with row := none }) s
    note s v.hs v.pc (if shut.isEmpty then [p 2 64] else shut.map (p 1))

/-- The state with an uncorrectable error of an in-memory operation recorded in the launch, if one of its rows holds one (R3, R221, log 111). -/
def recordRows (s : State) (c : Nat) (rows : List Nat) : State :=
  if rows.any fun r => (List.range 16).any fun col => s.badBurst (rowCell r col) then s.launchError c 8 0 else s

/-- The state after an in-memory operation has begun (R124, R125, R427, R428): the rows it reads meet the array ECC, and its end is posted on the core's agenda. -/
def presentMem (s : State) (c : Nat) (x : TlCmd) (v : Show) : State :=
  let s := v.banks.foldl (fun s b => s.modBank v.hs v.pc b fun k => { k with busy := v.rel + memopTicks v.op, mmark := true }) s
  let s := note s v.hs v.pc (v.banks.map fun b => { stamp := v.rel, op := v.op, bank := b, core := c })
  let a := x.rows.headD 0
  let b := x.rows.getLastD 0
  if v.op = 11 then
    let s := recordRows (logRow (logRow s a c v.stamp) b c v.stamp) c [a, b]
    s.post c false { id := 0, tick := v.tick + 207, rank := 1, src := c, ord := x.seq, acc := some x.acc,
                     act := .mcmp (8 * x.ridx) (BitVec.ofNat 64 (compareRows s a b)) }
  else
    let s := if v.op = 10 then recordRows (logRow s a c v.stamp) c [a] else s
    s.post c false { id := 0, tick := v.tick + memopTicks v.op, phase := 0, src := c, ord := x.seq, acc := some x.acc,
                     act := .memop v.op a b v.stamp }

/-- The state after a burst has been presented (R108, R111, R112, R125, R131, R425, R426). -/
def presentBurst (s : State) (c : Nat) (x : TlCmd) (v : Show) (b : Burst) : State :=
  let bank := v.banks.headD 0
  let s := note s v.hs v.pc [{ stamp := v.rel, op := v.op, bank := bank, core := c }]
  if isRd v.op then
    let (data, bad, s) := readBurst s b.cell c v.stamp x.fails x.lane
    s.post c false { id := 0, tick := b.tick + readDelay x.half, rank := 1, src := c, ord := x.seq, acc := some x.acc,
                     act := .deliver x.org x.face b.foff data bad }
  else
    let loc := faceLoc c 2 b.foff
    let data := readBytes s.mem loc 64
    let bad := (poisonIn s loc 64).isSome
    let (lost, s) := writeTransfer s b.cell c v.stamp x.fails x.lane
    let s := s.modBank v.hs v.pc bank fun k => { k with wmark := true }
    s.post c false { id := 0, tick := b.tick + writeDelay x.half, phase := 0, src := c, ord := x.seq, acc := some x.acc,
                     act := .visible b.cell data (bad || lost) }

/-- A core with a command's first presentation taken off its queue; a command with none left leaves it. -/
def Core.presented (k : Core) (id : Nat) : Core :=
  { k with tlq := k.tlq.filterMap fun x =>
      if x.id ≠ id then some x
      else match x.bursts with
        | _ :: b :: bs => some { x with bursts := b :: bs, fails := 0, lane := 63, rejected := false }
        | _ => none }

/-- The state in which a command has failed: its task faults, and it stays at the head of the held commands, marked rejected (R104); an OVERRUN is
recorded in the launch (R3, R221). DESIGN CHOICE (log 121): the fault is detected at the tick of its task, also while that still absorbs its lead (R269). -/
def rejectCommand (s : State) (c : Nat) (x : TlCmd) (f : Flt) : State :=
  let s := if f.code = 3 && f.cause = 4 then s.launchError c 3 4 else s
  let s := s.modCore c fun k => { k with tlq := k.tlq.map fun y => if y.id = x.id then { y with rejected := true } else y }
  takeFault s c false (s.tick c false) (faultOf x.org 7 f.code f.cause f.addr f.aux)

/-- The state after the next presentation of a command at its stamp (R103, R104): it performs, or its task faults and it stays at the
head of the held commands, marked rejected. An LFENCE is held like any other while the HBM region has lost the reference (R162). -/
def presentCommand (s : State) (c : Nat) (x : TlCmd) : State :=
  if x.op = 12 then
    if !(s.hbm x.hs).lock then rejectCommand s c x ⟨3, 6, 0, 0⟩ else
    let F := fenceTick s c x
    let s := (s.modCore c fun k => k.presented x.id).performed c false x.acc F
    if F = x.tick then clearMarks s c x.hs
    else s.post c false { id := 0, tick := F, phase := 0, src := c, ord := x.seq, acc := some x.acc, act := .lfence x.hs }
  else
    let v := x.show s c
    match firstFlt [presentFault s c x v, burstOperand s c x] with
    | some f => rejectCommand s c x f
    | none =>
      let s := s.modCore c fun k => k.presented x.id
      match x.bursts with
      | b :: _ => presentBurst s c x v b
      | [] => if isMem x.op then presentMem s c x v else presentRow s c v

/-! ### Holders and release (R95, R115, R137, R517) -/

/-- Whether the banks of a core are in the controller's care at its present tick (R209): the care begins no earlier than the last command posted. -/
def careNow (s : State) (c : Nat) : Bool := ((s.core c).careFrom.map fun t => decide (t ≤ s.tick c false)).getD false

/-- The holder whose relative tick is the frame tick of a PC (R115): while every holder's banks are in care, the one that has rebased last in it. DESIGN CHOICE (log 137): once
every holder has retired while the pack still keeps the PC (R203), any live member of the pack stands for one. -/
def frameLead (s : State) (g hs pc : Nat) : Option Nat :=
  let hsd := match holders s g hs pc with
    | [] => ((s.pack g).map (s.liveMembers ·)).getD []
    | cs => cs
  match hsd.find? fun c => !careNow s c with
  | some c => some c
  | none =>
    (hsd.filter fun c => (s.core c).careReb.isSome).foldl (fun m c => match m with
      | some b => if ((s.core b).careReb.getD 0) < ((s.core c).careReb.getD 0) || (s.core b).careReb.isNone then some c else m
      | none => some c) hsd.head?

/-- The counts of the four regions of the cube stack that an HBM stack serves. -/
def regionCounts (s : State) (hs : Nat) : List Int := (List.range 4).map fun k => ((s.region (hs / 4 * 4 + k)).hw.toNat : Int)

/-- The state in which a PC has left compiled mode (R137, R517): its banks precharged and unmarked, none awaiting a rescue, a pending swap made at once. -/
def releasePc (s : State) (hs pc : Nat) : State :=
  let s := s.modHbm hs fun h =>
    { h.modPc pc fun q => { q with mode := 0, group := 0, hist := [], idleAt := regionCounts s hs } with
      banks := h.banks.map fun b => if b.1 / 64 = pc then (b.1, { b.2 with row := none, shut := none, busy := 0, wmark := false, mmark := false }) else b,
      rescue := h.rescue.filter fun r => r.1 ≠ pc }
  if ((s.hbm hs).pc pc).swap then swapLane s hs pc 0 else s

/-- The state in which every PC of a pack has been released. -/
def releasePcs (s : State) (g : Nat) : State :=
  s.hbms.foldl (fun s h => (h.2.pcs.filter fun q => q.2.mode = 1 && q.2.group = g).foldl (fun s q => releasePc s h.1 q.1) s) s

end Sys2Proof.Machine
end

