-- ==== Sys2Proof/Machine/Fabric.lean ====
section
/-!
DEFINITION. Fabric operations between packages (spec/15_sync_system_instructions.md R457 to R461; spec/01_address_spaces.md R50 to
R52; spec/05_consistency.md R192; spec/17_host_fabric_security.md R505, R506): the checks at issue, the sending, and the performing of an
operation in this package's own G space.
-/
namespace Sys2Proof.Machine

/-! ### Windows -/

/-- The fault of an F-space access of `n` bytes that needs a permission, bit 0 RD, 1 WR, 2 AT (R50, R51). -/
def fwinFault (s : State) (a : Word) (n perm : Nat) : Option Flt :=
  let e := smGet {} s.fwtab (wfld a 47 40)
  chk (wfld a 63 48 ≠ 0 || wfld e.w0 63 63 = 0 || wfld e.w0 (32 + perm) (32 + perm) = 0 || wfld a 39 0 + n > wfld e.w1 39 0)
    ⟨6, 5, a, 0⟩

/-- Whether a window of the job's table leads to this package (R52, R505). -/
def ownWindow (s : State) (w : Nat) : Bool := wfld (smGet {} s.fwtab w).w0 17 8 = s.psc.pkgid

/-- The physical address of a byte of an exported window under a permission, bit 0 RD, 1 WR, 2 AT, or the code and cause of the failure
(R34, R52, R506). -/
def exported (s : State) (win off n perm : Nat) : Except (Nat × Nat) Nat :=
  let e := smGet {} s.exptab win
  if wfld e.w0 63 63 = 0 || wfld e.w0 (48 + perm) (48 + perm) = 0 || off + n > wfld e.w1 39 0 then .error (6, 5)
  else
    let tlb : SMap Tlb := (List.range s.ftlb.length).zip s.ftlb
    match translate tlb (BitVec.ofNat 64 (wfld e.w0 47 0 + off)) (if perm = 0 then 512 else if perm = 1 then 256 else 896) with
    | .bad k => .error (6, k)
    | .ok pa _ => if perm ≠ 0 && inSealedGraph s pa n then .error (14, 0) else .ok pa

/-- What an operation in this package's G space answers: code and cause of a failure, zero for none, an old value, the bytes read, and whether they
come poisoned (R127). -/
structure FabAns where
  code  : Nat := 0
  cause : Nat := 0
  old   : Word := 0
  data  : List Byte := []
  bad   : Bool := false
deriving DecidableEq, Repr

/-- Bytes read from an exported window, in pieces of eight. -/
def exportedRead (s : State) (win : Nat) : Nat → Nat → Except (Nat × Nat) (List Byte)
  | _, 0 => .ok []
  | off, k + 1 =>
    match exported s win off 8 0 with
    | .error f => .error f
    | .ok pa =>
      match exportedRead s win (off + 8) k with
      | .ok bs => .ok (readPhys s pa 8 ++ bs)
      | .error f => .error f

/-- The physical addresses of the pieces of eight bytes of a write to an exported window. -/
def exportedWrite (s : State) (win : Nat) : Nat → Nat → Except (Nat × Nat) (List Nat)
  | _, 0 => .ok []
  | off, k + 1 =>
    match exported s win off 8 1, exportedWrite s win (off + 8) k with
    | .ok pa, .ok ps => .ok (pa :: ps)
    | .error f, _ => .error f
    | _, .error f => .error f

/-- The read transfers of pieces of eight bytes of an exported window (R127, R128): whether one came poisoned, and the state with their log entries. -/
def readExported (s : State) (win : Nat) : Nat → Nat → Bool × State
  | _, 0 => (false, s)
  | off, k + 1 =>
    let r := match exported s win off 8 0 with
      | .ok pa => readLines s pa 8
      | .error _ => (false, s)
    let q := readExported r.2 win (off + 8) k
    (r.1 || q.1, q.2)

/-- The operation number of R441 of a RATOM's OP (R457). -/
def ratomOp (op : Nat) : Nat := if op ≤ 5 then op else op + 1

/-- The state after an operation in this package's G space, and its answer (R52, R459): a PUT writes its bytes, a GET reads, a
RATOM acts on its word, or, where the array holds its line as uncorrectable, leaves it (R446). -/
def performFabric (s : State) (q : FabricReq) : State × FabAns :=
  if q.kind = 0 then
    match exportedWrite s q.win q.off (ceilDiv q.data.length 8) with
    | .error f => (s, { code := f.1, cause := f.2 })
    | .ok ps => (((List.range ps.length).zip ps).foldl (fun s p => writeLines (writePhys s p.2 ((q.data.drop (8 * p.1)).take 8)) p.2 8) s, {})
  else if q.kind = 1 then
    match exportedRead s q.win q.off (ceilDiv q.len 8) with
    | .error f => (s, { code := f.1, cause := f.2 })
    | .ok bs =>
      let (bad, s) := readExported s q.win q.off (ceilDiv q.len 8)
      (s, { data := bs, bad := bad })
  else
    let n := if q.wide then 8 else 4
    match exported s q.win q.off n 2 with
    | .error f => (s, { code := f.1, cause := f.2 })
    | .ok pa =>
      let old := leNat (readPhys s pa n)
      let (bad, s) := readLines s pa n
      if bad then (s, { code := 8, cause := 2 })
      else (writeLines (writePhys s pa (leBytes n (atomVal (ratomOp q.op) n old q.b.toNat 0))) pa n, { old := BitVec.ofNat 64 old })

/-- An operation in this package's G space, of a write its first piece of eight bytes (R173); the checks are those of the whole. -/
def firstPiece (s : State) (q : FabricReq) : State × FabAns :=
  if q.kind = 0 then
    match exportedWrite s q.win q.off (ceilDiv q.data.length 8) with
    | .error f => (s, { code := f.1, cause := f.2 })
    | .ok _ => performFabric s { q with data := q.data.take 8 }
  else performFabric s q

/-! ### Sending -/

/-- A free number that nothing bounds, and the state that has drawn it (log 5). -/
def State.drawAny (s : State) : Nat × State := (Config.freeNat s.fresh, { s with fresh := s.fresh + 1 })

/-- A free word, and the state that has drawn it (log 5). -/
def State.drawWord (s : State) : Word × State := (Config.freeWord s.fresh, { s with fresh := s.fresh + 1 })

/-- The state in which a step of a fabric operation of a core is due at a free time, behind the earlier ones of that core to the
same window (R192). -/
def fabLater (s : State) (c fwin : Nat) (e : Ev) : State :=
  let (k, s) := s.drawAny
  let w := max (s.now + k) (smGet 0 (s.core c).links (2000 + fwin))
  (s.modCore c fun k => { k with links := smSet k.links (2000 + fwin) w }).later (w - s.now) e

/-- The code and cause that another package answers: none, or any (R52, log 5). -/
def remoteAnswer (s : State) : Nat × Nat × State :=
  let (bad, s) := s.draw 1
  if bad = 0 then (0, 0, s)
  else
    let (code, s) := s.draw 14
    let (cause, s) := s.draw 15
    (code + 1, cause, s)

/-- The state in which the completion of an operation is due (R192, R461); what another package answers is free. -/
def fabComplete (s : State) (c : Nat) (x : FabOp) : State :=
  if ownWindow s x.fwin then fabLater s c x.fwin (.fabricCompletion c x.id 0 0 0)
  else
    let (code, cause, s) := remoteAnswer s
    let (old, s) := s.drawWord
    fabLater s c x.fwin (.fabricCompletion c x.id code cause old)

/-- The state in which the next piece of a GET is due; a package that refuses answers with an error at once (R458). -/
def fabPieces (s : State) (c : Nat) (x : FabOp) : State :=
  if ownWindow s x.fwin then fabLater s c x.fwin (.getPieceCommit c x.id 0 0)
  else
    let (code, cause, s) := remoteAnswer s
    if code ≠ 0 then fabLater s c x.fwin (.fabricCompletion c x.id code cause 0)
    else
      let (v, s) := s.drawWord
      fabLater s c x.fwin (.getPieceCommit c x.id 0 v)

/-- The reserved bits of a fabric control word (R457): all but CC in PUT and GET. -/
def fabReserved (kind : Nat) (d : Word) : Bool :=
  if kind ≠ 2 then wfld d 63 3 ≠ 0
  else wfld d 63 40 ≠ 0 || wfld d 19 10 ≠ 0 || wfld d 3 3 ≠ 0 || wfld d 7 4 ≥ 9 || (wfld d 7 4 ≥ 6 && wfld d 8 8 = 1)

/-- The checks of R460. -/
def fabChecks (s : State) (kind : Nat) (a b d : Word) : List (Option Flt) :=
  let foff : Word := BitVec.ofNat 64 (wfld b 30 0)
  let len := wfld b 57 36
  let n := if kind = 2 then (if wfld d 8 8 = 1 then 8 else 4) else len
  [ chk (fabReserved kind d || (kind ≠ 2 && (engReserved b true || wfld b 34 32 > 2))) ⟨1, 1, 0, 0⟩,
    chk (wfld a 39 0 % (if kind = 2 then n else 8) ≠ 0) ⟨9, 0, a, 0⟩,
    chk (kind ≠ 2 && (foff.toNat % 8 ≠ 0 || len % 8 ≠ 0)) ⟨9, 0, foff, 0⟩,
    chk (kind = 2 && wfld d 9 9 = 1 && wfld d 39 20 % 8 ≠ 0) ⟨9, 0, BitVec.ofNat 64 (wfld d 39 20), 0⟩,
    chk (kind ≠ 2 && foff.toNat + len > faceSize (wfld b 34 32)) ⟨9, 1, foff, 0⟩,
    fwinFault s a n (if kind = 0 then 1 else if kind = 1 then 0 else 2),
    chk (s.ccore.fabs.length ≥ 64) ⟨12, 1, 0, 0⟩ ]

/-- The state with a fabric operation sent (R457 to R459): a PUT reads its first beat at t + 1. -/
def sendFabric (s : State) (kind : Nat) (a b d : Word) : State :=
  let c := s.cur.core
  let acc := s.nextId
  let x : FabOp :=
    { id := acc, org := origin s 5, kind := kind, cc := wfld d 2 0, fwin := wfld a 47 40, foff := wfld a 39 0,
      len := if kind = 2 then 0 else wfld b 57 36, face := wfld b 34 32, off := if kind = 2 then wfld d 39 20 else wfld b 30 0,
      op := wfld d 7 4, wide := bit d.toNat 8, b := b, ret := bit d.toNat 9, acc := acc }
  let s := s.access c s.cur.hd { id := 0, cls := 3 }
  let s := s.modCore c fun k => { k with fabs := k.fabs ++ [x] }
  if kind = 0 then
    s.post c s.cur.hd { id := 0, tick := s.ctick + 1, phase := 0, src := c, ord := resOrd x.org, act := .putRead acc 0 }
  else if kind = 1 then fabPieces s c x
  else fabComplete s c x

/-- The issue of a fabric word (R460). -/
def issueFabric (s : State) (i : Instr) (kind : Nat) (d a b : BitVec 6) : Host.Outcome State Fault Refusal :=
  issueWord s i .task fun s =>
    let av := rdReg s a.toNat
    let bv := rdReg s b.toNat
    let dv := rdReg s d.toNat
    match firstFlt (fabChecks s kind av bv dv) with
    | some f => raiseFlt s 5 f
    | none => sendFabric s kind av bv dv

/-- PUT (R457). Sends face bytes to a fabric window of another package. -/
def execPut (h : Head) (d a b : BitVec 6) (s : State) : Host.Outcome State Fault Refusal :=
  issueFabric s (.put h d a b) 0 d a b

/-- GET (R457). Fetches bytes from a fabric window into a face. -/
def execGet (h : Head) (d a b : BitVec 6) (s : State) : Host.Outcome State Fault Refusal :=
  issueFabric s (.get h d a b) 1 d a b

/-- RATOM (R457). Performs an atomic at another package's window. -/
def execRatom (h : Head) (d a b : BitVec 6) (s : State) : Host.Outcome State Fault Refusal :=
  issueFabric s (.ratom h d a b) 2 d a b

/-- WAITC (R461). Begins a wait for a completion counter. -/
def execWaitc (h : Head) (d a b : BitVec 6) (s : State) : Host.Outcome State Fault Refusal :=
  issueWord s (.waitc h d a b) .task fun s =>
    let av := rdReg s a.toNat
    if wfld av 63 3 ≠ 0 then raise s 5 1 1
    else setWait (beginUnbounded s) (.cc d.toNat (wfld av 2 0) (wfld (rdReg s b.toNat) 31 0))

end Sys2Proof.Machine
end

