-- ==== Sys2Proof/Machine/Graph.lean ====
section
/-!
DEFINITION. Graph objects and the graph walker (spec/06_execution_model.md R210 to R218; spec/07_dispatch.md R224 to R226): the checks of
a seal, the creation of an instance, ready queues, and how the end of a node acts on its successors and its instance.
-/
namespace Sys2Proof.Machine

/-! ### Graph objects (R213) -/

/-- Word `k` of a graph object at a physical base. -/
def gword (s : State) (base k : Nat) : Word := readPhys64 s (base + 8 * k)
/-- The number of nodes and of edges that a header gives. -/
def nNode (s : State) (base : Nat) : Nat := wfld (gword s base 0) 12 0
@[inherit_doc nNode] def nEdge (s : State) (base : Nat) : Nat := wfld (gword s base 0) 30 16
/-- Word `w` of node `n`. -/
def nodeWord (s : State) (base n w : Nat) : Word := gword s base (4 + 16 * n + w)
/-- The 32-bit entry of edge `e`. -/
def edgeWord (s : State) (base e : Nat) : Nat := leNat (readPhys s (base + 32 + 128 * nNode s base + 4 * e) 4)
/-- An edge from its entry. -/
def edgeOf (w : Nat) : Edge := ⟨fld w 11 0, fld w 23 12, bit w 24⟩
/-- The edges of an object. -/
def edgesOf (s : State) (base : Nat) : List Edge := (List.range (nEdge s base)).map fun e => edgeOf (edgeWord s base e)
/-- The length of an object in bytes. -/
def objLen (s : State) (base : Nat) : Nat := 32 + 128 * nNode s base + 4 * nEdge s base

/-- Tasks of a node, from its descriptor word 0 (R210). -/
def gridSize (w0 : Word) : Nat := wfld w0 15 0 * wfld w0 31 16 * wfld w0 47 32

/-- The seal code that the header gives: a limit or a reserved field broken (R213, R467). -/
def badHeader (s : State) (base : Nat) : Bool :=
  let w := gword s base 0
  wfld w 63 31 ≠ 0 || wfld w 15 13 ≠ 0 || nNode s base = 0 || nNode s base > 4096 || nEdge s base > 16384
    || gword s base 1 ≠ 0 || gword s base 2 ≠ 0 || gword s base 3 ≠ 0

/-- The seal code of a node: 1 a field or limit broken, 2 PACKSZ not dividing the grid, 0 none (R213, R215, R467). -/
def nodeCode (s : State) (base n : Nat) : Nat :=
  let w (k : Nat) : Word := nodeWord s base n k
  let packsz := wfld (w 0) 55 48
  if wfld (w 0) 63 56 = 0 || packsz = 0 || packsz > 192 || gridSize (w 0) = 0
      || wfld (w 1) 63 40 ≠ 0 || wfld (w 1) 31 19 ≠ 0 || wfld (w 1) 15 15 ≠ 0 || wfld (w 1) 39 32 = 0 || wfld (w 1) 39 32 > 64
      || wfld (w 1) 14 0 > 21844 || wfld (w 2) 63 48 ≠ 0 || wfld (w 2) 4 0 ≠ 0 || wfld (w 3) 63 12 ≠ 0
      || w 12 ≠ 0 || w 13 ≠ 0 || w 14 ≠ 0 || w 15 ≠ 0 then 1
  else if gridSize (w 0) % packsz ≠ 0 then 2
  else 0

/-- The nodes that edges lead to from a set, within a number of rounds. -/
def reach (es : List Edge) : Nat → List Nat → List Nat
  | 0, vs => vs
  | k + 1, vs => reach es k (es.foldl (fun vs e => if vs.contains e.src && !vs.contains e.dst then e.dst :: vs else vs) vs)

/-- The lowest edge that stands on a cycle. -/
def cycleEdge (n : Nat) (es : List Edge) : Option Nat :=
  (List.range es.length).find? fun i =>
    match es[i]? with
    | some e => (reach es n [e.dst]).contains e.src
    | none => false

/-- The seal code of edge `i`: 1 a reserved bit set, 3 no such node, 4 an entry that stands before it, 0 none. -/
def edgeCode (s : State) (base i : Nat) : Nat :=
  let w := edgeWord s base i
  let e := edgeOf w
  if fld w 31 25 ≠ 0 then 1
  else if e.src ≥ nNode s base || e.dst ≥ nNode s base then 3
  else if (List.range i).any fun j => edgeWord s base j = w then 4
  else 0

/-- The first of some indices with a code other than zero. -/
def firstCode (f : Nat → Nat) (n : Nat) : Option (Nat × Nat) :=
  ((List.range n).find? fun i => f i ≠ 0).map fun i => (f i, i)

/-- The failure of the checks of a seal, as CODE and INDEX of R467: nodes, then edges, each in index order, then cycles. -/
def sealFault (s : State) (base : Nat) : Option (Nat × Nat) :=
  if badHeader s base then some (1, 0)
  else
    match firstCode (nodeCode s base) (nNode s base) with
    | some f => some f
    | none =>
      match firstCode (edgeCode s base) (nEdge s base) with
      | some f => some f
      | none => (cycleEdge (nNode s base) (edgesOf s base)).map fun i => (5, i)

/-- The sealed object at a physical base. -/
def sealedAt (s : State) (base : Nat) : Option Sealed := s.walker.sealedT.find? fun r => r.base = base

/-- The bytes of an object that its checks read: the header alone where that breaks a limit. -/
def objPieces (s : State) (base : Nat) : List (Nat × Nat) := [(base, if badHeader s base then 32 else objLen s base)]

/-- The state after the seal of an object, which the walker reads, with the CODE and INDEX of R467 (R215, R223); one already sealed stands as it is. -/
def sealObject (s : State) (base : Nat) : State × Nat × Nat :=
  if (sealedAt s base).isSome then (s, 0, 0)
  else
    match sealFault s base with
    | some (c, i) => (s.noteReads (objPieces s base), c, i)
    | none =>
      if s.walker.sealedT.length ≥ 64 then (s.noteReads (objPieces s base), 6, 0)
      else ({ s.noteReads (objPieces s base) with
        walker := { s.walker with sealedT := s.walker.sealedT ++ [{ base := base, len := objLen s base }] } }, 0, 0)

/-- The live instances of an object. -/
def liveOf (s : State) (base : Nat) : List Inst := (s.walker.insts.filter fun i => i.2.obj = base).map (·.2)

/-- The state after the unseal of an object, with the CODE and INDEX of R467. -/
def unsealObject (s : State) (base : Nat) : State × Nat × Nat :=
  match sealedAt s base with
  | none => (s, 8, 0)
  | some _ =>
    match ((liveOf s base).map (·.slot)).min? with
    | some slot => (s, 7, slot)
    | none => ({ s with walker := { s.walker with sealedT := s.walker.sealedT.filter fun r => r.base ≠ base } }, 0, 0)

/-! ### Instances (R217, R218, R462) -/

/-- An instance by its number, and the state with one changed. -/
def State.instance? (s : State) (id : Nat) : Option Inst := smFind s.walker.insts id
@[inherit_doc State.instance?] def State.modInst (s : State) (id : Nat) (f : Inst → Inst) : State :=
  match s.instance? id with
  | some i => { s with walker := { s.walker with insts := smSet s.walker.insts id (f i) } }
  | none => s

/-- The handle of an instance (R462). -/
def Inst.handle (i : Inst) : Word :=
  BitVec.ofNat 64 (i.serial % 256 * 2 ^ 48 + wfld i.objva 47 5 * 2 ^ 5 + i.slot)

/-- A handle with BUSY or with REFUSED and its CODE; SERIAL and INST, which name nothing, are free (R462, log 5). -/
def noHandle (s : State) (busy : Bool) (code : Nat) (objva : Word) : State × Word :=
  let (v, s) := s.drawWord
  (s, BitVec.ofNat 64 ((if busy then 2 ^ 63 else 2 ^ 62) + code * 2 ^ 56 + wfld v 55 48 * 2 ^ 48 + wfld objva 47 5 * 2 ^ 5 + wfld v 1 0))

/-- A node as an instance begins it (R210, R212, R217, R224). -/
def freshNode (s : State) (base n : Nat) (es : List Edge) : Node :=
  { desc := (List.range 4).map (nodeWord s base n), params := (List.range 8).map fun w => nodeWord s base n (4 + w),
    left := (es.filter fun e => e.dst = n).length, comp := { remain := gridSize (nodeWord s base n 0) } }

/-- An entry of a patch list breaks R217. -/
def badPatch (nn : Nat) (p : Word × Word) : Bool := wfld p.1 63 15 ≠ 0 || wfld p.1 11 0 ≥ nn

/-- The nodes of an instance with a patch applied, later entries winning (R217). -/
def patchNodes (ns : SMap Node) (patch : List (Word × Word)) : SMap Node :=
  patch.foldl (fun ns p =>
    match smFind ns (wfld p.1 11 0) with
    | some n => smSet ns (wfld p.1 11 0) { n with params := n.params.set (wfld p.1 14 12) p.2 }
    | none => ns) ns

/-- The state with an instance of the sealed object at `base` created, which the walker reads, and its number (R217); `slot` is free. -/
def newInst (s : State) (base : Nat) (objva : Word) (slot : Nat) (patch : List (Word × Word)) (i : Inst) : State × Nat × Inst :=
  let serial := (((sealedAt s base).map fun r => smGet 0 r.serials slot).getD 0) + 1
  let es := edgesOf s base
  let ns : SMap Node := (List.range (nNode s base)).map fun n => (n, freshNode s base n es)
  let i := { i with obj := base, objva := objva, slot := slot, serial := serial, nodes := patchNodes ns patch, edges := es, job := s.psc.jserial }
  let w := s.walker
  let w := { w with
    insts := smSet w.insts w.nextId i, nextId := w.nextId + 1,
    ended := w.ended.filter fun e => !(e.2.1.obj = base && e.2.1.slot = slot),
    sealedT := w.sealedT.map fun r => if r.base = base then { r with serials := smSet r.serials slot serial } else r }
  ({ s.noteReads (objPieces s base) with walker := w }, s.walker.nextId, i)

/-- The lowest free instance slot of an object, if the walker may hold one more instance (R217, R218). -/
def freeSlot (s : State) (base : Nat) : Option Nat :=
  if s.walker.insts.length ≥ 256 then none
  else [0, 1, 2, 3].find? fun n => !(liveOf s base).any fun i => i.slot = n

/-- What a handle names: a live instance with its number, or one that has ended with its result (R464, R466). -/
def findHandle (s : State) (h : Word) : Option (Nat × Inst × Option Nat) :=
  if wfld h 63 62 ≠ 0 then none
  else
    match s.walker.insts.find? fun e => e.2.handle = h with
    | some e => some (e.1, e.2, none)
    | none => (s.walker.ended.find? fun e => e.2.1.handle = h).map fun e => (e.1, e.2.1, some e.2.2)

/-- Whether a node has ended. -/
def NodeSt.over (t : NodeSt) : Bool := t = .done || t = .failed || t = .skipped

/-! ### Second-level TLBs (R38, R41) -/

/-- The lowest key that a map does not list, from a key on. -/
def lowFree {α : Type} : Nat → SMap α → Nat
  | k, [] => k
  | k, (a, _) :: m => if a = k then lowFree (k + 1) m else lowFree k m

/-- A second-level TLB with the entries of a node added, equal ones shared (R38); none where they conflict or do not fit. -/
def addEntries : List Tlb → SMap Tlb → Option (SMap Tlb)
  | [], t => some t
  | e :: es, t =>
    if t.any fun x => x.2 = e then addEntries es t
    else if t.any (fun x => x.2.overlaps e) || lowFree 0 t ≥ 8192 then none
    else addEntries es (smSet t (lowFree 0 t) e)

/-- The state in which the entries of a node have been entered in one region more where it has room for them, and the regions that have taken them. -/
def tryFill (es : List Tlb) (a : State × List Nat) (r : Nat) : State × List Nat :=
  match addEntries es (a.1.region r).l2 with
  | some t => if a.2.contains r then a else (a.1.modRegion r fun k => { k with l2 := t }, insertLine r a.2)
  | none => a

/-- The state in which the entries of a node that has passed its check stand in the second-level TLB of every region that has room for them: its candidates
(R38, R41). -/
def fillRegions (s : State) (inst node : Nat) : State :=
  match (smFind s.walker.insts inst).bind fun i => smFind i.nodes node with
  | none => s
  | some n =>
    match n.wins with
    | none => s
    | some es =>
      if n.st.over then s
      else
        let r := (List.range 16).foldl (tryFill es) (s, n.cands)
        r.1.modNode inst node fun n => { n with cands := r.2 }

/-! ### Ready queues (R224, R225) -/

/-- PRIO of a node. -/
def Node.prio (n : Node) : Nat := wfld (n.desc.getD 1 0) 17 16
/-- The cores of a pack of a node (R205). -/
def Node.size (n : Node) : Nat := wfld (n.desc.getD 0 0) 55 48
/-- Packs of a node (R205). -/
def Node.packs (n : Node) : Nat := gridSize (n.desc.getD 0 0) / wfld (n.desc.getD 0 0) 55 48

/-- 1 ms in units of 1/18 ns. -/
def msUnits : Nat := 18000000

/-- An entry in its place of a queue, by ready time in reference periods, then in the order of R224 (R225). -/
def readyLe (a b : Ready) : Bool :=
  a.since / 180 < b.since / 180 || (a.since / 180 = b.since / 180 && (a.inst < b.inst || (a.inst = b.inst && a.node ≤ b.node)))

/-- A queue with an entry in its place. -/
def enqueue (e : Ready) (q : List Ready) : List Ready := insertBy (fun a b => !readyLe b a) e q

/-- The state in which the walker holds a node that a full queue keeps back, behind those it holds already. -/
def State.holdNode (s : State) (inst node : Nat) : State :=
  { s with walker := { s.walker with held := s.walker.held ++ [(inst, node)] } }

/-- The state with a ready node pushed, or held by the walker while its queue is full or others are held for it; its aging is due 1 ms later (R225). -/
def pushReady (s : State) (inst node since : Nat) : State :=
  match (s.instance? inst).bind fun i => smFind i.nodes node with
  | none => s
  | some n =>
    let q := smGet [] s.walker.queues n.prio
    let behind : Bool := s.walker.held.any fun h => (((s.instance? h.1).bind fun i => smFind i.nodes h.2).map (·.prio)) = some n.prio
    if q.length ≥ 4096 || behind then
      (s.modNode inst node fun n => { n with st := .held, since := since }).holdNode inst node
    else
      let s := s.modNode inst node fun n => { n with st := .ready, since := since }
      let e : Ready := { inst := inst, node := node, since := since, raised := since + n.frz }
      ({ s with walker := { s.walker with queues := smSet s.walker.queues n.prio (enqueue e q) } }).later
        (since + n.frz + msUnits - s.now) .readyAging

/-- The state in which the held nodes are looked at again, since a queue has space. -/
def wakeHeld (s : State) : State := if s.walker.held.isEmpty then s else s.later 0 .walkerHeldPush

/-- The state with every node of an instance that is ready pushed, in index order; none while its issuer's earlier accesses or its
window lists hold it back (R41, R224, R463). -/
def readyNodes (s : State) (inst : Nat) : State :=
  match s.instance? inst with
  | none => s
  | some i =>
    if i.gate.isSome || !i.windows then s
    else (i.nodes.filter fun n => n.2.st = .waiting && n.2.left = 0 && !n.2.cancelled).foldl (fun s n => pushReady s inst n.1 s.now) s

/-! ### Ends (R210, R214) -/

/-- An out-edge of an ended node acts on its successor (R214): the successor, and whether it has become SKIPPED. -/
def edgeActs (st : NodeSt) (e : Edge) (succ : Node) : Node × Bool :=
  if succ.st.over || succ.cancelled then (succ, false)
  else if (st = .done && !e.err) || (st = .failed && e.err) then ({ succ with left := succ.left - 1 }, false)
  else ({ succ with st := .skipped }, true)

/-- The nodes of an instance after some have ended, with all that follows (R214); `k` bounds the number of ends. -/
def settle (es : List Edge) : Nat → List Nat → SMap Node → SMap Node
  | 0, _, ns => ns
  | _, [], ns => ns
  | k + 1, n :: todo, ns =>
    let st := ((smFind ns n).map (·.st)).getD .skipped
    let r := (es.filter fun e => e.src = n).foldl (fun (a : SMap Node × List Nat) e =>
      match smFind a.1 e.dst with
      | some d =>
        let (d', skipped) := edgeActs st e d
        (smSet a.1 e.dst d', if skipped then a.2 ++ [e.dst] else a.2)
      | none => a) (ns, todo)
    settle es k r.2 r.1

/-- The first node of an instance that ended FAILED and has no error edge out of it: the instance fails (R214). -/
def Inst.failing (i : Inst) : Option (Nat × Node) :=
  i.nodes.find? fun n => n.2.st = .failed && !i.edges.any fun e => e.src = n.1 && e.err

/-- How an instance ended (R464): 0 success, 1 failure, 2 cancellation. -/
def Inst.result (i : Inst) : Nat := if i.cancelled then 2 else if i.failing.isSome then 1 else 0

/-- A 512-bit measurement register extended with bytes (R503): SHAKE256 of the register and the bytes. -/
def extendMeas (m : Nat) (x : List Byte) : Nat := Config.shake256 512 (leBytes 64 m ++ x)

/-- The bytes of the trace records of every stack. -/
def traceBytes (s : State) : List Byte := s.traces.flatMap fun t => t.2.recs.flatMap fun r => r.flatMap fun w => leBytes 8 w.toNat

/-- The state in which the job has ended (R501, R503): the keys of a sealed job are gone, and a traced one's digest extends MTRACE. -/
def closeJob (s : State) : State :=
  match s.psc.image with
  | none => s
  | some im =>
    let meas := if im.traced then smSet s.psc.meas 3 (extendMeas (smGet 0 s.psc.meas 3) (leBytes 64 (Config.shake256 512 (traceBytes s))))
      else s.psc.meas
    { s with psc := { s.psc with meas := meas, image := some { im with keys := [] } } }

/-- A job state written to JSTAT: JCAUSE bit 0 records the change (R491, R492); states 3 to 5 end the job. -/
def setJob (s : State) (st err : Nat) : State :=
  if s.psc.jstate = st then s
  else
    let s := if st ≥ 3 then closeJob s else s
    ({ s with psc := { s.psc with jstate := st, jerr := err } }).cause 0

/-- The state in which the running phase fails at a step of its bind or in an instance, and the job with it (R214, R222, R493): the
first failure is recorded, and the work left is cancelled (log 12). -/
def failPhase (s : State) (step ix wix code cause : Nat) : State :=
  if !s.jobRuns then s
  else
    let s := if s.psc.pfail.isEmpty then { s with psc := { s.psc with pfail := [s.psc.nextPhase, step, ix, wix, code, cause] } } else s
    (setJob s 4 7).later 0 (.shepherdCancel 3 0 0)

/-- The state after a phase has ended (R210, R492): JCAUSE bit 1, whether or not its job has failed or been cancelled; a running job is done after its last phase. -/
def endPhase (s : State) : State :=
  let s := ({ s with psc := { s.psc with phaseOpen := false } }).cause 1
  if s.psc.jstate ≠ 2 then s
  else if s.psc.nextPhase + 1 ≥ ((s.psc.image.map (·.nphase)).getD 0) then setJob s 3 0
  else { s with psc := { s.psc with nextPhase := s.psc.nextPhase + 1 } }

/-- The launch that created an instance may end once the instance has (R210): all that a launch waits for. -/
def launchOver (s : State) (inst node : Nat) : Bool :=
  match (s.instance? inst).bind fun i => smFind i.nodes node with
  | none => false
  | some n =>
    !n.st.over && n.comp.remain = 0 && n.outst = 0 &&
      !s.walker.insts.any fun i => match i.2.creator with
        | some (a, b, _) => a = inst && b = node
        | none => false

/-- The state in which the end of a launch is due, if all that it waits for has come. -/
def checkLaunch (s : State) (inst node : Nat) : State :=
  if launchOver s inst node then s.later 0 (.launchEnd inst node) else s

/-- Whether a node that has passed its check can be placed nowhere: no region's second-level TLB has taken its windows (R41). -/
def Node.noPlace (n : Node) : Bool := n.wins.isSome && n.cands.isEmpty

/-- The state in which the nodes that wait for room in the second-level TLBs have been tried again (R41). -/
def refill (s : State) : State :=
  (s.walker.insts.flatMap fun j => (j.2.nodes.filter fun n => n.2.noPlace).map fun n => (j.1, n.1)).foldl (fun s x => fillRegions s x.1 x.2) s

/-- The state after Shepherd firmware has taken entries out of a region's second-level TLB (R38, R41, R46): a region that no longer holds a node's windows is no
candidate for it, and the nodes that have waited for room are tried again. -/
def lostEntries (s : State) (r : Nat) : State :=
  let l2 := (s.region r).l2
  let keeps (n : Node) : Bool := (n.wins.getD []).all fun e => l2.any fun x => x.2 = e
  let waits : Bool := s.walker.insts.any fun i => i.2.nodes.any fun n => n.2.noPlace
  let s := { s with walker := { s.walker with insts := smMap (fun _ (i : Inst) =>
    { i with nodes := smMap (fun _ (n : Node) => if keeps n then n else { n with cands := n.cands.filter (· ≠ r) }) i.nodes }) s.walker.insts } }
  if waits then s.later 0 .windowRefill else s

/-- The state without the second-level entries of an ended instance that no other live instance uses (R41), those of the root kept; where entries have gone,
regions may become candidates of the nodes that wait for them. -/
def dropEntries (s : State) (i : Inst) : State :=
  if i.root then s
  else
    let gone := i.entries.filter fun e => !s.walker.insts.any fun j => j.2.entries.contains e
    let s := { s with regions := smMap (fun _ (r : Region) => { r with l2 := r.l2.filter fun x => !gone.contains x.2 }) s.regions }
    if gone.isEmpty then s
    else (s.walker.insts.flatMap fun j => j.2.nodes.map fun n => (j.1, n.1)).foldl (fun s x => fillRegions s x.1 x.2) s

/-- The state with the ended instance put among the ended, its energy charged to the job, its waiters due (R210, R218, R245). DESIGN CHOICE (log 119): a failed instance
fails its phase when it has ended, not as soon as one of its nodes has failed (R214); one of an earlier job, cancelled with that, leaves the present job alone. -/
def closeInst (s : State) (id : Nat) (i : Inst) : State :=
  let w := s.walker
  let s := { s with
    walker := { w with
      insts := smErase w.insts id, ended := smSet w.ended id (i, i.result)
      kept := w.kept.filter (fun x => x.1.1 ≠ id) ++ (match i.creator, i.saved with
        | some o, some a => [(o, a)]
        | _, _ => []) },
    psc := if i.job = s.psc.jserial then { s.psc with energyJob := s.psc.energyJob + i.energy } else s.psc }
  let s := dropEntries s i
  let s := match i.failing with
    | some (n, x) => if i.job = s.psc.jserial then failPhase s 0 n 0 x.comp.code x.comp.cause else s
    | none => s
  let s := match i.creator with
    | some (a, b, _) => checkLaunch s a b
    | none => s
  if s.psc.phaseOpen && s.walker.insts.isEmpty then endPhase s else s

/-- The state after some nodes of an instance have taken their end states: the edges act, nodes become ready, the instance ends when every
node has (R210, R214). -/
def nodesEnded (s : State) (inst : Nat) (ended : List Nat) : State :=
  match s.instance? inst with
  | none => s
  | some i =>
    let i := { i with nodes := settle i.edges (i.nodes.length + 1) ended i.nodes }
    let s := s.modInst inst fun _ => i
    if i.nodes.all fun n => n.2.st.over then closeInst s inst i else readyNodes s inst

/-- A barrier whose open generation has closed (R450). -/
def Barrier.close (b : Barrier) : Barrier :=
  { gen := (b.gen + 1) % 2 ^ 32, bad := if b.err then b.bad ++ [b.gen] else b.bad }

/-- The state after the end of a launch (R212, R214, R450): its record takes its final STATE, its node ends DONE or FAILED, and barrier
generations bound to it that have ended in error close. -/
def endLaunch (s : State) (inst node : Nat) : State :=
  if !launchOver s inst node then s
  else
    let s := s.modNode inst node fun n =>
      let st := if n.cancelled then 4 else if n.comp.errcnt = 0 then 2 else 3
      { n with comp := { n.comp with state := st }, st := if st = 2 then .done else .failed }
    let s := { s with barriers := smMap (fun _ (b : Barrier) => if b.err && b.launch = some (inst, node) then b.close else b) s.barriers }
    nodesEnded s inst [node]

/-- A word of a completion record (R212). -/
def Completion.word (r : Completion) (w : Nat) : Word :=
  match w with
  | 0 => BitVec.ofNat 64 (r.state * 2 ^ 48 + r.remain)
  | 1 => BitVec.ofNat 64 (r.errcnt * 2 ^ 48 + r.code * 2 ^ 40 + r.cause * 2 ^ 32)
  | 2 => BitVec.ofNat 64 r.tile
  | _ => r.mcmask

end Sys2Proof.Machine
end

