-- ==== Sys2Proof/Machine/Tasks.lean ====
section
/-!
DEFINITION. The end of tasks, packs and levels (spec/06_execution_model.md R196, R197, R203, R211, R212; spec/08_faults.md R254, R270, R274;
spec/03_hbm_timeline.md R137): what a member leaves behind when it retires or is killed, the kill of a pack, the cancels.
-/
namespace Sys2Proof.Machine

/-- The number of a core that is none: an operation in flight whose task has been killed is marked with it, and with its launch. -/
def orphanCore : Nat := 4096

/-- An origin marked as that of a task of a launch that has been killed or has retired; `issued` then holds its core. -/
def orphan (inst node : Nat) (o : Origin) : Origin := { o with core := orphanCore, pc := inst, pos := node, issued := if o.core < orphanCore then o.core else o.issued }

/-- The state after an operation of a killed task has performed: its launch may end now (R210). -/
def orphanDone (s : State) (o : Origin) : State :=
  checkLaunch (s.modNode o.pc o.pos fun n => { n with outst := n.outst - 1 }) o.pc o.pos

/-- The state after an item in flight has performed or has been discarded: the launch of the killed task that sent it may end now (R210). -/
def itemOver (s : State) (p : Pending) : State :=
  match p.orph, p.act with
  | some (inst, node, _), _ => checkLaunch (s.modNode inst node fun n => { n with outst := n.outst - 1 }) inst node
  | none, .xperf x => if x.org.core = orphanCore then orphanDone s x.org else s
  | none, _ => s

/-- The state in which one translation marker of an invalidation has retired (R47, R470): behind the last one, 1 is to be added to the completion word of a
handler's, in its place among the commits of the tick. -/
def retireMarker (s : State) (inv : Nat) : State :=
  match smFind s.invals inv with
  | none => s
  | some v =>
    if v.left > 1 then { s with invals := smSet s.invals inv { v with left := v.left - 1 } }
    else if v.off.isSome then { s with invals := smSet s.invals inv { v with left := 0 } }
    else { s with invals := smErase s.invals inv }

/-- The state with 1 added to the completion word of an invalidation whose markers have all retired (R470). -/
def addCompletion (s : State) (inv : Nat) : State :=
  match smFind s.invals inv with
  | none => s
  | some v =>
    match v.off with
    | none => s
    | some off =>
      if v.left ≠ 0 then s
      else
        let loc := faceLoc v.core 2 off
        commitFace { s with invals := smErase s.invals inv } v.core 2 off (leBytes 8 (leNat (readBytes s.mem loc 8) + 1)) false

/-! ### What a member leaves (R254, R270) -/

/-- Whether an item of a core's agenda is a write of another member into its faces. -/
def isForeignWrite (c : Nat) (p : Pending) : Bool :=
  match p.act with
  | .xperf x => x.org.core ≠ c && (match x.op with
    | .store _ => true
    | _ => false)
  | .copyBeat i _ _ _ _ _ _ _ _ => i ≠ c
  | _ => false

/-- Whether an item of a core's agenda goes on without its task: an operation of another core, or a write or an in-memory operation that the
HBM has taken. -/
def outlives (c : Nat) (p : Pending) : Bool :=
  match p.act with
  | .xperf x => x.org.core ≠ c
  | .copyBeat i _ _ _ _ _ _ _ _ => i ≠ c
  | .copyRead i _ _ => i ≠ c
  | .visible _ _ _ => true
  | .memop _ _ _ _ => true
  | _ => false

/-- The state in which what outlives a task performs by the count of the region instead of its tick; with `kill`, the writes that have
arrived at the stopped member are discarded (R254, R270). -/
def looseAgenda (s : State) (c : Nat) (kill : Bool) : State :=
  let k := s.core c
  let now := (s.region (regionOf c)).hw.toNat
  let stays (p : Pending) : Bool := outlives c p && !(kill && k.frozen.isSome && isForeignWrite c p && arrival k p.tick ≤ now)
  let s := s.modCore c fun k =>
    { k with arriving := k.arriving ++ (k.task.agenda.filter stays).map fun p => { p with tick := arrival k p.tick, phase := 1, acc := none },
             task := { k.task with agenda := [] } }
  (k.task.agenda.filter fun p => !stays p).foldl itemOver s

/-- Whether an item that stands at core `d` is an operation of core `c`'s task on its way: an access to another core, a beat of a copy, a write or an
in-memory operation that the HBM has taken. -/
def isOwnItem (c d : Nat) (p : Pending) : Bool :=
  p.orph.isNone && (match p.act with
    | .xperf x => x.org.core = c && !x.org.hd
    | .copyBeat i _ _ _ _ _ _ _ _ => i = c
    | .visible _ _ _ => d = c
    | .memop _ _ _ _ => d = c
    | _ => false)

/-- An item at core `d`, marked as that of a killed task of core `c` where it is one. -/
def orphanItem (c inst node tile d : Nat) (p : Pending) : Pending :=
  if !isOwnItem c d p then p
  else
    match p.act with
    | .xperf x => { p with act := .xperf { x with org := orphan inst node x.org } }
    | _ => { p with orph := some (inst, node, tile) }

/-- Whether an operation at an atomic unit is of a core's task; and the operation marked as that of a killed task. -/
def isOwnG (c : Nat) (g : GAtom) : Bool := g.org.core = c && !g.org.hd
@[inherit_doc isOwnG] def orphanAtom (c inst node : Nat) (g : GAtom) : GAtom :=
  if isOwnG c g then { g with org := orphan inst node g.org, ret := none } else g

/-- A core with every item of its task's agenda and every arriving item changed. -/
def Core.mapItems (k : Core) (f : Pending → Pending) : Core :=
  { k with arriving := k.arriving.map f, task := { k.task with agenda := k.task.agenda.map f } }

/-- Whether a SEAL or UNSEAL in progress is of a core's task; and it marked as that of a killed task. -/
def isOwnSeal (c : Nat) (x : SealOp) : Bool := x.org.core = c && !x.org.hd && x.orph.isNone
@[inherit_doc isOwnSeal] def orphanSeal (c inst node tile : Nat) (x : SealOp) : SealOp :=
  if isOwnSeal c x then { x with orph := some (inst, node, tile) } else x

/-- Whether a fabric operation has been sent: the data of a PUT has been read (R458). -/
def FabOp.isSent (x : FabOp) : Bool := x.kind ≠ 0 || x.data.length ≥ x.len

/-- The state in which the operations of a killed task that are on their way are marked, and its launch waits for them (R210, R270): accesses to
other cores, beats, what the HBM has taken, atomics at the units of the stacks, SEALs, and the fabric operations that have been sent. -/
def orphanAll (s : State) (c : Nat) : State :=
  let k := s.core c
  let n := (s.cores.map fun d => ((d.2.task.agenda ++ d.2.arriving).filter (isOwnItem c d.1)).length).foldl (· + ·) 0
    + (s.walker.seals.filter (isOwnSeal c)).length
  let m := (s.hbms.map fun h => (h.2.units.filter (isOwnG c)).length).foldl (· + ·) 0
  let sent := k.fabs.filter (·.isSent)
  let s := { s with
    cores := smMap (fun d (x : Core) => x.mapItems (orphanItem c k.inst k.node k.ltile d)) s.cores,
    walker := { s.walker with seals := s.walker.seals.map (orphanSeal c k.inst k.node k.ltile) },
    hbms := smMap (fun _ (h : Hbm) => { h with units := h.units.map (orphanAtom c k.inst k.node) }) s.hbms }
  let s := s.modCore c fun k => { k with fabs := sent.map fun x => { x with org := orphan k.inst k.node x.org } }
  s.modNode k.inst k.node fun x => { x with outst := x.outst + n + m + sent.length }

/-- A core between tasks: what a bind does not set keeps its value, numbers of accesses go on. DESIGN CHOICE (log 132): its count of ticks goes on from
the task that has ended; R233 gives TICK no value between tasks, and no thread runs that could read it. -/
def Core.freed (k : Core) : Core :=
  { k with stage := .free, task := { ab := k.task.ab, nid := k.task.nid }, tlq := [], copies := [], markers := [], cubes := [], xrun := [],
           pendw := [], atoms := 0, frozen := none, heel := none, skip := 0, absorb := 0, waited := false,
           careFrom := none, careNext := none, careReb := none, rebased := false, shift := 0, newBase := none, lease := {}, fmtq := [], lastRow := [], lastCol := [] }

/-- The state in which the open barrier generations bound to a launch have ended in error (R274, R450). -/
def breakBarriers (s : State) (inst node : Nat) : State :=
  { s with barriers := smMap (fun _ (b : Barrier) => if b.arrived > 0 && b.launch = some (inst, node) then { b with err := true } else b) s.barriers }

/-- The state with the waiters outside the pack of a killed member released (R274): each flag word of its faces that a thread of no task or handler of the
pack waits on takes 0xE0 in its
upper byte, and an open barrier generation bound to its launch ends in error. -/
def releaseWaiters (s : State) (c : Nat) : State :=
  let k := s.core c
  let inFaces (loc : Nat) : Bool := faceLoc c 0 0 ≤ loc && loc < faceLoc (c + 1) 0 0
  let word (w : Option Wait) : List Nat := match w with
    | some (.flag _ loc _ _) => if inFaces loc then [loc] else []
    | _ => []
  let locs := s.cores.flatMap fun d =>
    (if s.samePack c d.1 then [] else word d.2.task.wait) ++ if d.2.hpack = k.group then [] else word (d.2.handler.bind (·.wait))
  let s := { s with mem := locs.foldl (fun m l => writeByte m (l + 7) 0xE0) s.mem }
  breakBarriers s k.inst k.node

/-- The state after the end of a member of a launch (R212): REMAIN falls; `err` is what a kill records. -/
def countOut (s : State) (c : Nat) (err : Option (Nat × Nat)) : State :=
  let k := s.core c
  let s := s.modNode k.inst k.node fun n =>
    let r := { n.comp with remain := n.comp.remain - 1 }
    { n with comp := match err with
        | some (a, b) => r.error s.now c a b k.ltile
        | none => r }
  checkLaunch s k.inst k.node

/-- The state in which the start of waiting records on a region's slots is looked at again (R232): the preload of the record at the head of a
core's slot begins when its core is free. -/
def nextPreload (s : State) (c : Nat) : State :=
  let r := s.region (regionOf c)
  let slot := rowOf c % 3 * 8 + colOf c
  if !(smGet [] r.slots slot).isEmpty && (s.core c).stage = .free && (s.core c).handler.isNone && (smFind r.preload slot).isNone
      && !gatedCore s c
  then s.later 0 (.tlbPreload c) else s

/-- The number of the period of the 100 MHz reference, 180 units, that holds an instant. -/
def refPeriod (t : Nat) : Nat := t / 180

/-- The walker with a pack noted that ends in the present period of the reference (R235). -/
def Walker.notePast (w : Walker) (now g : Nat) (leases : List (Nat × LeaseEntry)) : Walker :=
  { w with past := (w.past.filter fun x => refPeriod x.1 = refPeriod now) ++ [(now, g, leases)] }

/-- The state after the last member of a pack has ended (R137, R203): its PCs are released and its cores are free. -/
def endPack (s : State) (g : Nat) : State :=
  match s.pack g with
  | none => s
  | some p =>
    let w := s.walker.notePast s.now g (p.members.map fun c => (c, (s.core c).lease.entry))
    let s := releasePcs { s with packs := smErase s.packs g, epochs := smSet s.epochs g p.epoch, walker := w } g
    let s := p.members.foldl (fun s c => (looseAgenda s c false).modCore c Core.freed) s
    p.members.foldl nextPreload s

/-- The state after the kill of one member (R270, R274). -/
def killMember (s : State) (c : Nat) (err : Nat × Nat) : State :=
  let s := releaseWaiters (endHandler s c) c
  let s := ((s.core c).markers.filterMap (·.inv)).foldl retireMarker s
  let s := looseAgenda (orphanAll s c) c true
  let s := countOut s c (some err)
  s.modCore c fun k => { k.freed with stage := .over }

/-- The state of a pack that goes on behind the retirement of a member (R203). While it freezes, the member's banks are closed as a stopped one's are (R136), and if all
that still live have stopped, the kennel dispatch is due (R262). -/
def leaveFreeze (s : State) (c : Nat) (p : Pack) : State :=
  if p.freeze.isNone then s
  else
    let s := s.modLease c Bank.close
    if (s.liveMembers p).all fun m => (s.core m).frozen.isSome then s.later 0 (.kennelDispatch (s.core c).group) else s

/-- The state after a task has retired (R196, R197, R203); its launch waits for the fabric operations that it leaves (R210, R275), and the pack ends with its last
member. -/
def retireTask (s : State) (c : Nat) : State :=
  let k := s.core c
  let s := s.modCore c fun k => { k with stage := .over, task := { k.task with outst := [] }, fabs := k.fabs.map fun x =>
    if x.org.core = c then { x with org := orphan k.inst k.node x.org } else x }
  let s := s.modNode k.inst k.node fun n => { n with outst := n.outst + (k.fabs.filter fun x => x.org.core = c).length }
  let s := s.trace (stackOf c) 6 c (s.rel c) 0
  let s := countOut s c none
  match s.pack (s.core c).group with
  | some p => if (s.liveMembers p).isEmpty then endPack s (s.core c).group else leaveFreeze s c p
  | none => s

/-- What the killed tasks of a pack record (R212, R270, R247): the primary fault of its freeze, else KILLED. DESIGN CHOICE (log 133): after a NEST (R272)
that is code 15 with the inner code as its cause, as FAULTINFO0 of the primary member shows it. -/
def killRecord (s : State) (p : Pack) : Nat × Nat :=
  match p.freeze.bind fun z => ((s.core z.primary).frozen).bind (·.fault) with
  | some f => (f.code, f.cause)
  | none => (16, 0)

/-- The kill of a pack (R270): every member that has not retired ends; the handlers on its cores end; its PCs are released. -/
def killPack (s : State) (g : Nat) : State :=
  match s.pack g with
  | none => s
  | some p =>
    let r := killRecord s p
    let s := { s with walker := s.walker.notePast s.now g (p.members.map fun c => (c, (s.core c).lease.entry)) }
    let s := p.members.foldl (fun s c => if (s.core c).live then killMember s c r else s) s
    let s := { s with regions := smMap (fun _ (r : Region) => { r with waiters := r.waiters.filter fun w => w.2.2 ≠ g }) s.regions }
    endPack s g

/-! ### Cancels (R211) -/

/-- The packs of a launch. -/
def packsOf (s : State) (inst node : Nat) : List Nat := (s.packs.filter fun p => p.2.inst = inst && p.2.node = node).map (·.1)

/-- The instances created by the tasks of a launch, or of a whole instance. -/
def children (s : State) (inst : Nat) (node : Option Nat) : List Nat :=
  (s.walker.insts.filter fun i => match i.2.creator with
    | some (a, b, _) => a = inst && (node.isNone || node = some b)
    | none => false).map (·.1)

/-- The fields INST, NODE and GROUP of a bind record (R230). -/
def recInst (r : List Word) : Nat := wfld (r.getD 0 0) 49 48
@[inherit_doc recInst] def recNode (r : List Word) : Nat := wfld (r.getD 0 0) 47 36
@[inherit_doc recInst] def recGroup (r : List Word) : Nat := wfld (r.getD 2 0) 40 32

/-- Whether a pack is claimed and neither returned nor released. -/
def Node.placeable (n : Node) (p : Nat) : Bool := p < n.claimed && !n.back.contains p && !n.ran.contains p && !n.cancelled

/-- Word `k` of a bind record, and its fields LTILE and RESTORE (R230). -/
def rWord (ws : List Word) (k : Nat) : Word := ws.getD k 0
@[inherit_doc rWord] def recLtile (ws : List Word) : Nat := wfld (rWord ws 7) 47 0
@[inherit_doc rWord] def recRestore (ws : List Word) : Bool := wfld (rWord ws 6) 9 9 = 1

/-- The saved root context that a record with RESTORE binds again (R244): its slot of the save area, whether its instance lives or has ended. -/
def savedFor (s : State) (inst : Nat) (ws : List Word) : Option Nat :=
  let of_ : Nat × Nat × Nat := (inst, recNode ws, recLtile ws)
  match (s.walker.insts.find? fun v => v.2.saved.isSome && !v.2.hold && v.2.creator = some of_).bind (·.2.saved) with
  | some a => some a
  | none => (s.walker.kept.find? fun x => x.1 = of_).map (·.2)

/-- The state in which a slot of the save area holds no root context any more (R244). -/
def freeSaved (s : State) (a : Nat) : State :=
  { s with walker := { s.walker with
    insts := smMap (fun _ (i : Inst) => if i.saved = some a then { i with saved := none } else i) s.walker.insts
    kept := s.walker.kept.filter fun x => x.2 ≠ a } }

/-- The pack to which the task of a linear tile belongs (R205). -/
def Node.packOf (n : Node) (ltile : Nat) : Nat := ltile / wfld (n.desc.getD 0 0) 55 48

/-- Whether a record's tile coordinates, linear tile, member and size are those of one task of a node (R205). -/
def Node.tileOk (n : Node) (ws : List Word) : Bool :=
  let w0 := n.desc.getD 0 0
  let x := wfld (rWord ws 1) 15 0
  let y := wfld (rWord ws 1) 31 16
  let z := wfld (rWord ws 1) 47 32
  x < wfld w0 15 0 && y < wfld w0 31 16 && z < wfld w0 47 32 && recLtile ws = x + wfld w0 15 0 * (y + wfld w0 31 16 * z)
    && wfld (rWord ws 2) 23 16 = wfld w0 55 48 && wfld (rWord ws 2) 7 0 = recLtile ws % wfld w0 55 48

/-- The live instance whose claimed task a record binds (R226, R230, log 17): the oldest one that fits INST, NODE and LTILE. -/
def recordOwner (s : State) (ws : List Word) : Option Nat :=
  (s.walker.insts.find? fun e => e.2.slot = recInst ws && (match smFind e.2.nodes (recNode ws) with
    | some n => n.tileOk ws &&
        if recRestore ws then (savedFor s e.1 ws).isSome && !n.cancelled else n.placeable (n.packOf (recLtile ws))
    | none => false)).map (·.1)

/-- The core of a slot of a region, and the slot of a core (R229). -/
def slotCore (r slot : Nat) : Nat := r / 4 * 96 + (r % 4 * 3 + slot / 8) * 8 + slot % 8
@[inherit_doc slotCore] def slotOfCore (c : Nat) : Nat := rowOf c % 3 * 8 + colOf c

/-- The records of all slots, with their cores. -/
def allRecords (s : State) : List (Nat × List Word) :=
  s.regions.flatMap fun r => r.2.slots.flatMap fun q => q.2.map fun x => (slotCore r.1 q.1, x)

/-- The records of a group that stand at the heads of their slots, with their cores, by MEMBER. -/
def headRecords (s : State) (g : Nat) : List (Nat × List Word) :=
  let hs := s.regions.flatMap fun r => r.2.slots.filterMap fun q =>
    match q.2.head? with
    | some x => if recGroup x = g then some (slotCore r.1 q.1, x) else none
    | none => none
  sortBy (fun a b => wfld (rWord a.2 2) 7 0 ≤ wfld (rWord b.2 2) 7 0) hs

/-- A core without the preload of a record that has gone. -/
def Core.unbound (k : Core) : Core := if k.stage = .bound then { k with stage := .free } else k

/-- The state after records have left the slots: a core whose preload has gone is free again, but for those of a pack
that is to be killed at its release (R234), and the next records begin theirs. -/
def settleSlots (s : State) : State :=
  let lost := (s.cores.filter fun d => d.2.stage = .bound && (smFind (s.region (regionOf d.1)).preload (slotOfCore d.1)).isNone
    && !s.walker.doomed.any fun x => x.tasks.any fun t => t.1 = d.1).map (·.1)
  let s := lost.foldl (fun s c => s.modCore c Core.unbound) s
  (s.regions.flatMap fun r => r.2.slots.map fun q => slotCore r.1 q.1).foldl nextPreload s

/-- The state in which the records of a group have left every slot (R211, R234). -/
def dropRecords (s : State) (g : Nat) : State :=
  { s with
    regions := smMap (fun _ (r : Region) => { r with
      preload := r.preload.filter fun p => !(((smGet [] r.slots p.1).head?).map fun x => decide (recGroup x = g)).getD false
      slots := smMap (fun _ (q : List (List Word)) => q.filter fun x => recGroup x ≠ g) r.slots }) s.regions }

/-- The state in which the records of a group have left every slot, and its release with them. -/
def clearGroup (s : State) (g : Nat) : State := settleSlots (dropRecords { s with releases := smErase s.releases g } g)

/-- Whether every member of a group stands at the head of its slot with its preload ended (R232, R234). -/
def preloaded (s : State) (g : Nat) : Bool :=
  let rs := headRecords s g
  (match rs.head? with
    | some x => decide (rs.length = wfld (rWord x.2 2) 23 16)
    | none => false) && rs.all fun y =>
      let r := s.region (regionOf y.1)
      ((smFind r.preload (slotOfCore y.1)).map fun h => decide (h ≤ r.hw.toNat)).getD false

/-- Whether a record with RESTORE is of an instance's slot, its saved context meanwhile held again or discarded (R244). -/
def staleRestore (s : State) (inst : Nat) (ws : List Word) : Bool :=
  recRestore ws && (recordOwner s ws).isNone && (s.instance? inst).map (·.slot) = some (recInst ws)

/-- The groups that hold records of a launch (R234). -/
def launchGroups (s : State) (inst node : Nat) : List Nat :=
  (((allRecords s).filter fun x => recNode x.2 = node && (recordOwner s x.2 = some inst || staleRestore s inst x.2)).map fun x => recGroup x.2).eraseDups

/-- The state in which a pack of a cancelled launch that is past its preload is to be killed at its release instant (R234): that already scheduled, else the
one that the next publication gives (log 60). -/
def doom (inst node : Nat) (s : State) (g : Nat) : State :=
  let d : Doomed := ⟨g, inst, node, (headRecords s g).map fun x => (x.1, recLtile x.2)⟩
  let s := { s with walker := { s.walker with doomed := s.walker.doomed ++ [d] } }
  if (smFind s.releases g).isSome then s
  else
    let t := nextPublication s.now + 80
    ({ s with releases := smSet s.releases g t }).later (t - s.now) (.packRelease g)

/-- The state in which such a pack has been killed at its release instant, before any bundle issued (R212, R234). -/
def killDoomed (s : State) (d : Doomed) : State :=
  let s := breakBarriers { s with walker := { s.walker with doomed := s.walker.doomed.erase d } } d.inst d.node
  let s := d.tasks.foldl (fun s x => (s.modCore x.1 Core.unbound).modNode d.inst d.node fun n =>
    { n with comp := { (n.comp.error s.now x.1 16 0 x.2) with remain := n.comp.remain - 1 } }) s
  checkLaunch (d.tasks.foldl (fun s x => nextPreload s x.1) s) d.inst d.node

/-- The state after the cancel of one launch of an instance (R211, R234): its queue entries and records go, its running packs are killed, and it
ends CANCELLED; a pack already past its preload is killed at its release. DESIGN CHOICE (log 131): its tasks that have not started and have no pack past
its preload leave REMAIN at once and add nothing to ERRCNT. -/
def cancelLaunch (s : State) (inst node : Nat) : State :=
  match (s.instance? inst).bind fun i => smFind i.nodes node with
  | none => s
  | some n =>
    if n.st.over || n.cancelled then s
    else
      let w := s.walker
      let mine (r : Ready) : Bool := r.inst = inst && r.node = node
      let s := { s with walker := { w with queues := smMap (fun _ (q : List _) => q.filter fun r => !mine r) w.queues,
                                           held := w.held.filter fun h => h ≠ (inst, node) } }
      let rs := launchGroups s inst node
      let late := rs.filter fun g => (smFind s.releases g).isSome || preloaded s g
      let s := wakeHeld (settleSlots (rs.foldl dropRecords (late.foldl (doom inst node) s)))
      let gs := packsOf s inst node
      let due := ((s.walker.doomed.filter fun d => d.inst = inst && d.node = node).map fun d => d.tasks.length).foldl (· + ·) 0
      let alive := due + (gs.map fun g => ((s.pack g).map fun p => (s.liveMembers p).length).getD 0).foldl (· + ·) 0
      let s := (breakBarriers s inst node).modNode inst node fun n => { n with cancelled := true, comp := { n.comp with remain := alive } }
      checkLaunch (gs.foldl killPack s) inst node

/-- The state after the cancel of an instance, and of the instances that its tasks created down to `k` levels (R211); a saved root context is discarded where the
instance is held, and else stays for a record with RESTORE (R244). -/
def cancelInst : Nat → State → Nat → State
  | 0, s, _ => s
  | k + 1, s, inst =>
    match s.instance? inst with
    | none => s
    | some i =>
      let kids := children s inst none
      let s := s.modInst inst fun i => { i with cancelled := true, hold := false, saved := if i.hold then none else i.saved }
      let s := kids.foldl (cancelInst k) s
      i.nodes.foldl (fun s n => cancelLaunch s inst n.1) s

/-- The state after the cancel of a launch with the instances that its tasks created (R211). -/
def cancelNode (s : State) (inst node : Nat) : State :=
  cancelLaunch ((children s inst (some node)).foldl (cancelInst 256) s) inst node

/-- The state after the cancel of the job (R211, R488). -/
def cancelJob (s : State) : State :=
  let s := (s.walker.insts.map (·.1)).foldl (cancelInst 257) s
  if s.jobRuns then setJob s 5 0 else s

end Sys2Proof.Machine
end

