-- ==== Sys2Proof/Machine/Launch.lean ====
section
/-!
DEFINITION. Launches and graphs at run time (spec/15_sync_system_instructions.md R462 to R467; spec/06_execution_model.md R210 to R218):
the words that create, wait on, cancel and read instances, and those that seal graph objects.
-/
namespace Sys2Proof.Machine

/-- The creations that the walker holds in its intake (R463): those of instances whose issuer's earlier accesses have not performed. -/
def intakeUsed (s : State) : Nat := (s.walker.insts.filter fun i => i.2.gate.isSome).length

/-- The words of a patch list or of a LAUNCH's parameters in the C face of a core. -/
def cWord (s : State) (c off : Nat) : Word := BitVec.ofNat 64 (leNat (readBytes s.mem (faceLoc c 2 off) 8))

/-- The patch that register B names (R217, R463): the entries of a GINST's list, or P0 to P7 of node 0 for a LAUNCH. -/
def patchOf (s : State) (c : Nat) (ginst : Bool) (b : Word) : List (Word × Word) :=
  let off := wfld b 19 0
  if ginst then (List.range (wfld b 25 20)).map fun k => (cWord s c (off + 16 * k), cWord s c (off + 16 * k + 8))
  else if wfld b 20 20 = 1 then (List.range 8).map fun k => (BitVec.ofNat 64 (k * 2 ^ 12), cWord s c (off + 8 * k))
  else []

/-- The bytes of the C face that register B names. -/
def patchLen (ginst : Bool) (b : Word) : Nat := if ginst then 16 * wfld b 25 20 else 64 * wfld b 20 20

/-- The creation of an instance by a task of a core (R217, R218, R462, R463): the handle, and the state with the instance or without it.
`base` is the object's physical address, `gate` the number below which the issuer's accesses come before. -/
def createInst (s : State) (c : Nat) (ginst : Bool) (base : Nat) (va : Word) (patch : List (Word × Word)) (gate : Nat) : State × Word :=
  match sealedAt s base with
  | none => noHandle s false 1 va
  | some _ =>
    if !ginst && nNode s base ≠ 1 then noHandle s false 3 va
    else if patch.any (badPatch (nNode s base)) then noHandle s false 2 va
    else
      match freeSlot s base with
      | none => noHandle s true 0 va
      | some slot =>
        let k := s.core c
        let (s, id, i) := newInst s base va slot patch
          { obj := base, objva := va, slot := slot, serial := 0, creator := some (k.inst, k.node, k.ltile), ccore := c,
            gate := some (c, gate) }
        let (d, s) := s.draw 3600000
        (s.later d (.instanceWindowFill id), i.handle)

/-- The issue of LAUNCH or GINST (R463): the checks, the patch list read at issue, then the creation, or the wait for the walker's intake. -/
def issueCreate (s : State) (i : Instr) (ginst : Bool) (d a b : BitVec 6) : Host.Outcome State Fault Refusal :=
  issueWord s i .task fun s =>
    let av := rdReg s a.toNat
    let bv := rdReg s b.toNat
    let c := s.cur.core
    let off := wfld bv 19 0
    let n := patchLen ginst bv
    let fa : Word := BitVec.ofNat 64 off
    let base := match translate s.ccore.tlb av 512 with
      | .ok pa _ => Except.ok pa
      | .bad k => .error k
    match firstFlt [
        chk (wfld bv 63 (if ginst then 26 else 21) ≠ 0 || (ginst && wfld bv 25 20 > 32)) ⟨1, 1, 0, 0⟩,
        chk (av.toNat % 32 ≠ 0) ⟨9, 0, av, 0⟩, chk (n ≠ 0 && off % 8 ≠ 0) ⟨9, 0, fa, 0⟩, chk (n ≠ 0 && off + n > faceSize 2) ⟨9, 1, fa, 0⟩,
        (match base with
         | .error k => some ⟨6, k, av, 0⟩
         | .ok _ => none),
        chk (n ≠ 0 && (poisonIn s (faceLoc c 2 off) n).isSome) ⟨8, 0, fa, 0⟩] with
    | some f => raiseFlt s 5 f
    | none =>
      if intakeUsed s ≥ 64 then
        setWait (beginUnbounded s) (.intake d.toNat ginst (base.toOption.getD 0) av (patchOf s c ginst bv) s.nextId)
      else
        let (s, h) := createInst s c ginst (base.toOption.getD 0) av (patchOf s c ginst bv) s.nextId
        postResult s 8 (mkReplay s i none [slotOf h] false) (regRes d.toNat h)

/-- LAUNCH (R463). Creates an instance of a one-node object with eight parameter words. -/
def execLaunch (h : Head) (d a b : BitVec 6) (s : State) : Host.Outcome State Fault Refusal :=
  issueCreate s (.launch h d a b) false d a b

/-- GINST (R463). Creates an instance of a sealed graph object with an optional patch list. -/
def execGinst (h : Head) (d a b : BitVec 6) (s : State) : Host.Outcome State Fault Refusal :=
  issueCreate s (.ginst h d a b) true d a b

/-- GWAIT (R464). Begins a wait for the end of an instance. -/
def execGwait (h : Head) (d a b : BitVec 6) (s : State) : Host.Outcome State Fault Refusal :=
  issueWord s (.gwait h d a b) .both fun s =>
    setWait (beginUnbounded s) (.inst d.toNat (rdReg s a.toNat) (wfld (rdReg s b.toNat) 0 0 = 1))

/-- Whether an instance was created by the task of a core (R465). -/
def createdBy (s : State) (c : Nat) (i : Inst) : Bool :=
  i.creator = some ((s.core c).inst, (s.core c).node, (s.core c).ltile)

/-- CANCEL (R465). Cancels a node, an instance or the issuer's own instance. -/
def execCancel (h : Head) (a b : BitVec 6) (s : State) : Host.Outcome State Fault Refusal :=
  issueWord s (.cancel h a b) .both fun s =>
    let av := rdReg s a.toNat
    let bv := rdReg s b.toNat
    let c := s.cur.core
    let node := wfld bv 13 2
    match wfld bv 1 0 with
    | 2 => if s.cur.hd || av ≠ 0 then raise s 5 13 0 else cancelInst 257 s s.ccore.inst
    | 3 =>
      if !s.cur.hd || av ≠ 0 then raise s 5 13 0
      else match s.pack s.ccore.hpack with
        | some p => cancelNode s p.inst p.node
        | none => s
    | lvl =>
      if s.cur.hd then raise s 5 13 0
      else
        match findHandle s av with
        | none => s
        | some (id, i, res) =>
          if !createdBy s c i then raise s 5 13 0
          else if res.isSome then s
          else if lvl = 1 then cancelInst 257 s id
          else if node ≥ i.nodes.length then s
          else cancelNode s id node

/-- The instance that a handle names, or the issuer's own for 0 (R466). -/
def handleInst (s : State) (c : Nat) (v : Word) : Option Inst :=
  if v = 0 then s.instance? (s.core c).inst else (findHandle s v).map (·.2.1)

/-- The word of a completion record that CRD reads (R466): all ones for a stale handle or a node that is not there. -/
def crdWord (s : State) (c : Nat) (a b : Word) : Word :=
  match (handleInst s c a).bind fun i => smFind i.nodes (wfld b 11 0) with
  | some n => n.comp.word (wfld b 13 12)
  | none => -1

/-- CRD (R466). Reads a word of a node's completion record. -/
def execCrd (h : Head) (d a b : BitVec 6) (s : State) : Host.Outcome State Fault Refusal :=
  issueWord s (.crd h d a b) .both fun s =>
    let v := crdWord s s.cur.core (rdReg s a.toNat) (rdReg s b.toNat)
    postResult s 40 (mkReplay s (.crd h d a b) none [slotOf v] false) (regRes d.toNat v)

/-- The issue of SEAL or UNSEAL (R467): the object is translated, and the operation waits in the walker for its issuer's accesses. -/
def issueSeal (s : State) (i : Instr) (undo : Bool) (a b : BitVec 6) : Host.Outcome State Fault Refusal :=
  issueWord s i .task fun s =>
    let av := rdReg s a.toNat
    let bv := rdReg s b.toNat
    match faceCheck 2 bv 8 with
    | some k => raise s 5 9 k bv
    | none =>
      if av.toNat % 32 ≠ 0 then raise s 5 9 0 av
      else
        match translate s.ccore.tlb av 512 with
        | .bad k => raise s 5 6 k av
        | .ok pa _ =>
          let acc := s.nextId
          let s := s.access s.cur.core s.cur.hd { id := 0, cls := 3 }
          let op : SealOp := { undo := undo, base := pa, off := bv.toNat, org := origin s 5, gate := acc, acc := acc }
          let s := { s with walker := { s.walker with seals := s.walker.seals ++ [op] } }
          let (k, s) := s.drawAny
          s.later k .sealComplete

/-- SEAL (R467). Seals a graph object and reports to a result word. -/
def execSeal (h : Head) (a b : BitVec 6) (s : State) : Host.Outcome State Fault Refusal := issueSeal s (.seal h a b) false a b

/-- UNSEAL (R467). Unseals a graph object and reports to a result word. -/
def execUnseal (h : Head) (a b : BitVec 6) (s : State) : Host.Outcome State Fault Refusal := issueSeal s (.unseal h a b) true a b

end Sys2Proof.Machine
end

