-- ==== Sys2Proof/Machine/Leash.lean ====
section
/-!
DEFINITION. The leash words (spec/15_sync_system_instructions.md R472 to R474; spec/08_faults.md R258, R259, R266 to R271): inspection and
patches of a frozen member, its replay queue, resume, kill, return and delegation.
-/
namespace Sys2Proof.Machine

/-- The result of a replay entry from its captured slots (R249, R258, R259). -/
def replayRes (rp : Replay) : Res :=
  if rp.org.pipe = 2 then vectorRes rp else if rp.org.pipe = 3 then loadRes rp else scalarRes rp

/-- The latch shape of a layer (R473, KIND 6). -/
def latchShape (k : Core) (l : Nat) : Word :=
  match smFind k.latches l with
  | some x => BitVec.ofNat 64 (2 ^ 31 + x.n * 2 ^ 16 + x.k * 2 ^ 8 + x.fmt)
  | none => 0

/-- The rejected timeline command that heads the held commands of the pack of a core, with the member that posted it (R104, R473, KIND 8): of several the one of the
least stamp. -/
def rejectedHead (s : State) (c : Nat) : Option (Nat × TlCmd) :=
  let ms := ((s.pack (s.core c).group).map (·.members)).getD [c]
  let all := ms.flatMap fun m => ((s.core m).tlq.filter (·.rejected)).map fun x => (m, x)
  (sortBy (fun a b => relOf s a.1 a.2.tick ≤ relOf s b.1 b.2.tick) all).head?

/-- The faulted command that heads an engine queue of a member (R473, KIND 8). -/
def faultedCube (k : Core) : Option XCmd := k.cubes.find? (·.faulted)
@[inherit_doc faultedCube] def faultedCopy (k : Core) : Option CopyCmd := k.copies.find? (·.faulted)

/-- The state of member core `c` named by KIND and INDEX (R473). -/
def leashRead (s : State) (c kind ix : Nat) : Option Word :=
  let k := s.core c
  match kind with
  | 0 => if ix < 64 then some (k.task.reg ix) else none
  | 1 => if ix < 16 then some (BitVec.ofNat 64 (b2n (k.task.pred ix))) else none
  | 2 => if ix < 1024 then some ((smGet 0 k.mrf ix).setWidth 64) else none
  | 3 => if ix < 32 then some ((smGet 0 k.bypass ix).setWidth 64) else none
  | 4 => if ix % 8 = 0 && kAssigned ix then some (kRead s c ix) else none
  | 5 => if ix < 256 then (latchOf k (ix / 32)).map fun v => (vword v (ix % 32)).setWidth 64 else none
  | 6 =>
    if ix < 256 then (if ix % 4 = 3 then none else some ((sideReg k (ix / 4) (ix % 4)).setWidth 64))
    else if ix = 256 then some k.cfmt
    else if ix < 265 then some (latchShape k (ix - 257))
    else none
  | 7 => if ix = 0 then some (BitVec.ofNat 64 k.skip) else none
  | 8 =>
    if ix = 0 then
      some (BitVec.ofNat 64 (b2n (rejectedHead s c).isSome + 2 * b2n ((faultedCube k).isSome || (faultedCopy k).isSome)))
    else none
  | _ => none

/-- The pending writes left by a cube command that is dropped: what it has already read and still commits (R393). -/
def leftWrites (k : Core) (x : XCmd) : List PendW :=
  (x.faceSegs.filter fun g => x.started && (x.kind = 9 || x.kind = 10 || x.kind = 11) && !g.slope).flatMap fun g =>
    if k.task.agenda.any fun p => p.tick = g.tick && (match p.act with
        | .drain id _ => id = x.id
        | .resc id _ _ => id = x.id
        | .pline id _ => id = x.id
        | _ => false) then
      [{ kind := if x.kind = 9 then 4 else if x.kind = 10 then 5 else 3, cmd := x.id, face := if g.space = 0 then 2 else 0,
         lo := if g.space = 0 then 4 * g.lo else g.lo, len := if g.space = 0 then 4 * g.n else g.n, issued := x.org.issued,
         commit := g.tick }]
    else []

/-- Whether an item is a read of an engine command of a core that is still to be made. -/
def isCubeRead (id : Nat) (p : Pending) : Bool :=
  match p.act with
  | .cubeStart i => i = id
  | .cubeRead i _ _ => i = id
  | _ => false
@[inherit_doc isCubeRead] def isCopyRead (c id : Nat) (p : Pending) : Bool :=
  match p.act with
  | .copyStart i => i = id
  | .copyRead d i _ => d = c && i = id
  | .fillBeat i _ => i = id
  | _ => false

/-- A core without a cube command (R249, R268): what it has read still commits. -/
def Core.dropCube (k : Core) (x : XCmd) : Core :=
  let left := k.cubes.filter fun y => y.id ≠ x.id
  { k with cubes := left, pendw := k.pendw ++ leftWrites k x,
           cubeEnd := left.foldl (fun m y => max m (y.start + y.occ)) 0, cubeLast := left.foldl (fun m y => max m y.start) 0,
           task := { k.task with agenda := k.task.agenda.filter fun p => !isCubeRead x.id p } }

/-- Whether a pending write of a copy-engine command of a core is of a beat that is on its way. -/
def Core.onWay (k : Core) (c : Nat) (p : PendW) : Bool :=
  (k.task.agenda ++ k.arriving).any fun q => match q.act with
    | .copyBeat i cmd _ _ face off _ _ _ => i = c && cmd = p.cmd && face = p.face && off = p.lo
    | _ => false

/-- A core without a copy-engine command (R249, R268, R393): no write is pending but those of the beats on their way. -/
def Core.dropCopy (k : Core) (c : Nat) (x : CopyCmd) : Core :=
  let left := k.copies.filter fun y => y.id ≠ x.id
  { k with copies := left, pendw := k.pendw.filter fun p => !((p.kind = 1 || p.kind = 2) && p.cmd = x.id) || k.onWay c p, copyEnd := left.foldl (fun m y => max m (y.start + y.beats)) 0, copyLast := left.foldl (fun m y => max m y.start) 0,
           task := { k.task with agenda := k.task.agenda.filter fun p => !isCopyRead c x.id p } }

/-- The state without the entries that a command of core `c` was to bring to stream queues at or after its core's tick (R79, R251, R268). -/
def dropBeats (s : State) (c : Nat) (x : CopyCmd) : State :=
  let t := s.tick c false
  let lost (p : Pending) : Bool := match p.act with
    | .copyBeat i cmd j b face _ _ _ _ => i = c && cmd = x.id && face ≥ 4 && (match x.dsts[j]? with
        | some d => t ≤ x.start + x.delay d + b
        | none => true)
    | _ => false
  { s with cores := smMap (fun _ (k : Core) => { k with
      arriving := k.arriving.filter fun p => !lost p, task := { k.task with agenda := k.task.agenda.filter fun p => !lost p } }) s.cores }

/-- A core without a timeline command (R268, R393): no delivery is pending of the bursts that it has not presented. -/
def Core.dropTimeline (k : Core) (x : TlCmd) : Core :=
  { k with tlq := k.tlq.filter fun y => y.id ≠ x.id,
           pendw := k.pendw.filter fun p => !(p.kind = 0 && p.cmd = x.id && x.bursts.any fun b => b.foff = p.lo) }

/-- The state with the heads that bits 0 and 1 name dropped (R268, R473, KIND 8). -/
def dropHeads (s : State) (c : Nat) (v : Word) : State :=
  let t := s.tick c false
  let s := if wfld v 0 0 = 1 then
      match rejectedHead s c with
      | some (m, x) => (s.modCore m fun k => k.dropTimeline x).performed m false x.acc (s.tick m false)
      | none => s
    else s
  if wfld v 1 1 = 1 then
    match faultedCube (s.core c) with
    | some x => (s.modCore c fun k => k.dropCube x).performed c false x.acc t
    | none =>
      match faultedCopy (s.core c) with
      | some x => ((dropBeats s c x).modCore c fun k => k.dropCopy c x).performed c false x.acc t
      | none => s
  else s

/-- The bits of ENGFMT that a patch reaches, and whether a value has a reserved IWID or ISUB (R321). -/
def engfmtMask : Word := 0xCF81
@[inherit_doc engfmtMask] def engfmtBad (v : Word) : Bool := wfld v 11 10 = 3 || wfld v 8 7 = 3

/-- The state of member core `c` named by KIND and INDEX patched (R268, R473); none where the selector names nothing that can be patched. -/
def leashWrite (s : State) (c kind ix : Nat) (v : Word) : Option State :=
  let mod (f : Core → Core) : Option State := some (s.modCore c f)
  match kind with
  | 0 => if 1 ≤ ix && ix < 64 then mod fun k => { k with task := k.task.setReg ix v } else none
  | 1 => if 1 ≤ ix && ix < 16 then mod fun k => { k with task := k.task.setPred ix (v.getLsbD 0) } else none
  | 2 => if ix < 1024 then mod fun k => { k with mrf := smSet k.mrf ix (v.setWidth 32) } else none
  | 3 => if ix < 32 then mod fun k => { k with bypass := smSet k.bypass ix (v.setWidth 32) } else none
  | 4 =>
    if ix = 0x30 then (if engfmtBad v then none else mod fun k => { k with engfmt := v &&& engfmtMask, fmtq := [] })
    else if ix = 0x38 then mod fun k => { k with echk := v &&& echkMask }
    else none
  | 7 => if ix = 0 then mod fun k => { k with skip := wfld v 2 0 } else none
  | 8 => if ix = 0 then some (dropHeads s c v) else none
  | _ => none

/-- The core and the KIND and INDEX that a state selector names in a frozen pack (R473). -/
def selector (s : State) (p : Pack) (v : Word) : Option (Nat × Nat × Nat) :=
  if wfld v 63 56 ≠ 0 || wfld v 43 16 ≠ 0 then none
  else (memberCore s p (wfld v 55 48)).map fun c => (c, wfld v 47 44, wfld v 15 0)

/-! ### The replay queue (R258, R259, R474) -/

/-- The replay entry of an item. -/
def Pending.replay (p : Pending) : Option Replay :=
  match p.act with
  | .result rp _ => some rp
  | .xret rp _ _ _ _ => some rp
  | _ => none

/-- VEC of a replay entry's header (R259): of the entries with a vector slot, R385 excepts those of VFRSUM and VFRMAX. -/
def Replay.vecBit (rp : Replay) : Bool :=
  match rp.instr with
  | .vfrsum _ _ _ _ => false
  | .vfrmax _ _ _ _ => false
  | _ => rp.vec

/-- The header of a replay entry (R259). -/
def replayHeader (held : Nat) (p : Pending) (rp : Replay) : Word :=
  BitVec.ofNat 64 (b2n rp.vecBit * 2 ^ 46 + rp.slots.length % 4 * 2 ^ 44 + b2n rp.drop * 2 ^ 43 + b2n rp.faulted * 2 ^ 42
    + (p.tick - held) % 128 * 2 ^ 35 + rp.org.pipe % 8 * 2 ^ 32 + rp.instr.toWord)

/-- The member, the item and the replay entry that an LRQ or LREINJ selector names, if the PART is there. -/
def entryOf (s : State) (p : Pack) (v : Word) : Option (Nat × Pending × Replay) :=
  match memberCore s p (wfld v 55 48) with
  | none => none
  | some c =>
    match (replays (s.core c).task)[wfld v 4 0]? with
    | none => none
    | some x =>
      match x.replay with
      | some rp => if wfld v 9 8 ≤ rp.slots.length then some (c, x, rp) else none
      | none => none

/-- The part of a replay entry that LRQ reads. -/
def entryRead (held : Nat) (x : Pending) (rp : Replay) (v : Word) : Word :=
  match wfld v 9 8 with
  | 0 => replayHeader held x rp
  | n =>
    let slot := rp.slots.getD (n - 1) 0
    if rp.vec then (vword slot (wfld v 14 10)).setWidth 64 else ofSlot slot

/-- A replay entry with a part written by LREINJ: DROP of its header, a slot or a word of one. -/
def entryWrite (rp : Replay) (sel v : Word) : Replay :=
  match wfld sel 9 8 with
  | 0 => { rp with drop := v.getLsbD 43 }
  | n =>
    let old := rp.slots.getD (n - 1) 0
    let new : Vec := if rp.vec then BitVec.ofNat 1024 (setField old.toNat (32 * wfld sel 14 10) 32 (wfld v 31 0)) else slotOf v
    { rp with slots := rp.slots.set (n - 1) new, patched := true }

/-- An item with its replay entry replaced. -/
def Pending.withReplay (p : Pending) (rp : Replay) : Pending :=
  match p.act with
  | .result _ r => { p with act := .result rp r }
  | .xret _ a b c d => { p with act := .xret rp a b c d }
  | _ => p

/-! ### The words -/

/-- The writes of a leash word: its predicate, and a value for X where it has one. -/
def leashRes (pd : Nat) (ok : Bool) (x : Option (Nat × Word)) : Res :=
  let p : List (Dest × Vec) := [(.pred pd, slotOf (BitVec.ofNat 64 (b2n ok)))]
  { writes := match x with
      | some (r, v) => (.sreg r, slotOf v) :: p
      | none => p }

/-- The issue of a leash word of latency L (R472): `act` gives the state in which it has acted and the value for X, or none. -/
def issueLeash (s : State) (i : Instr) (lat : Nat) (pd : BitVec 4) (act : State → Option (State × Option (Nat × Word))) :
    Host.Outcome State Fault Refusal :=
  issueWord s i .handler fun s =>
    match act s with
    | some (s', v) => postResult s' lat (mkReplay s i none [] false) (leashRes pd.toNat true v)
    | none => postResult s lat (mkReplay s i none [] false) (leashRes pd.toNat false none)

/-- LINSP (R474). Reads a state of a frozen member. -/
def execLinsp (h : Head) (pd : BitVec 4) (l : BitVec 2) (x y : BitVec 6) (s : State) : Host.Outcome State Fault Refusal :=
  issueLeash s (.linsp h pd l x y) 4 pd fun s =>
    match leashWith s s.cur.core l.toNat 32 with
    | none => none
    | some p =>
      match selector s p (rdReg s y.toNat) with
      | some (c, kind, ix) => (leashRead s c kind ix).map fun v => (s, some (x.toNat, v))
      | none => none

/-- LPATCH (R474). Patches a state of a frozen member. -/
def execLpatch (h : Head) (pd : BitVec 4) (l : BitVec 2) (x y : BitVec 6) (s : State) : Host.Outcome State Fault Refusal :=
  issueLeash s (.lpatch h pd l x y) 2 pd fun s =>
    match leashWith s s.cur.core l.toNat 33 with
    | none => none
    | some p =>
      match selector s p (rdReg s x.toNat) with
      | some (c, kind, ix) => (leashWrite s c kind ix (rdReg s y.toNat)).map fun s => (s, none)
      | none => none

/-- LRQ (R474). Reads a part of a replay entry. -/
def execLrq (h : Head) (pd : BitVec 4) (l : BitVec 2) (x y : BitVec 6) (s : State) : Host.Outcome State Fault Refusal :=
  issueLeash s (.lrq h pd l x y) 4 pd fun s =>
    match leashWith s s.cur.core l.toNat 32 with
    | none => none
    | some p =>
      (entryOf s p (rdReg s y.toNat)).map fun (c, it, rp) =>
        (s, some (x.toNat, entryRead (((s.core c).frozen.map (·.held)).getD 0) it rp (rdReg s y.toNat)))

/-- LREINJ (R474). Writes a part of a replay entry. -/
def execLreinj (h : Head) (pd : BitVec 4) (l : BitVec 2) (x y : BitVec 6) (s : State) : Host.Outcome State Fault Refusal :=
  issueLeash s (.lreinj h pd l x y) 2 pd fun s =>
    match leashWith s s.cur.core l.toNat 33 with
    | none => none
    | some p =>
      (entryOf s p (rdReg s x.toNat)).map fun (c, it, rp) =>
        let rp := entryWrite rp (rdReg s x.toNat) (rdReg s y.toNat)
        (s.modThread c false fun t => { t with agenda := t.agenda.map fun q => if q.id = it.id then it.withReplay rp else q }, none)

/-- RESUME (R474). Resumes the frozen pack and ends the handler: the word is a release, so it first waits for the handler's
accesses. -/
def execResume (h : Head) (pd : BitVec 4) (l : BitVec 2) (s : State) : Host.Outcome State Fault Refusal :=
  issueWord s (.resume h pd l) .handler fun s =>
    match leashWith s s.cur.core l.toNat 34 with
    | some _ => startFence s 1 s.nextId (.resume l.toNat pd.toNat)
    | none => postResult s 1 (mkReplay s (.resume h pd l) none [] false) (leashRes pd.toNat false none)

/-- The state in which the resume of a pack has begun (R269): every handler on its cores ends, the controller restores its banks for 152 mt,
and the release falls 16 network periods after the next publication instant. -/
def beginResume (s : State) (g : Nat) : State :=
  match s.pack g with
  | none => s
  | some p =>
    let s := s.modPack g fun p => { p with freeze := p.freeze.map fun z => { z with resuming := true } }
    let s := p.members.foldl endHandler s
    s.later (nextPublication (s.now + 1520) + 80 - s.now) (.packResumeRelease g p.epoch)

/-- KILL (R474). Kills the frozen pack and ends the handler. -/
def execKill (h : Head) (pd : BitVec 4) (l : BitVec 2) (s : State) : Host.Outcome State Fault Refusal :=
  issueWord s (.kill h pd l) .handler fun s =>
    let c := s.cur.core
    match leashWith s c l.toNat 35 with
    | some _ => endHandler (killPack s (wfld (smGet 0 s.ccore.leash l.toNat) 8 0)) c
    | none => postResult s 1 (mkReplay s (.kill h pd l) none [] false) (leashRes pd.toNat false none)

/-- Whether a handler of some core holds a valid leash on a frozen pack (R271). -/
def leashHeld (s : State) (g : Nat) : Bool :=
  s.cores.any fun d => d.2.handler.isSome && d.2.leash.any fun x => wfld x.2 8 0 = g && (leashPack s x.2).isSome

/-- HRET (R474). Returns from the handler: its pack, still frozen with no other holder, is killed (R271). -/
def execHret (h : Head) (s : State) : Host.Outcome State Fault Refusal :=
  issueWord s (.hret h) .handler fun s =>
    let c := s.cur.core
    let g := s.ccore.hpack
    let s := endHandler s c
    match (s.pack g).bind (·.freeze) with
    | some z => if z.resuming || leashHeld s g then s else killPack s g
    | none => s

/-- The lowest free leash slot of a context: one of 1 to 3 that holds no valid leash (R267). -/
def freeLeash (s : State) (c : Nat) : Option Nat :=
  [1, 2, 3].find? fun n => (leashPack s (smGet 0 (s.core c).leash n)).isNone

/-- LDELEG (R474). Delegates a leash with narrowed rights to another context of the cluster. -/
def execLdeleg (h : Head) (pd : BitVec 4) (l : BitVec 2) (x y : BitVec 6) (s : State) : Host.Outcome State Fault Refusal :=
  issueLeash s (.ldeleg h pd l x y) 2 pd fun s =>
    let w := smGet 0 s.ccore.leash l.toNat
    let n := wfld (rdReg s x.toNat) 5 0
    match leashPack s w, smFind (s.region (clusterOf s.cur.core * 8 + n / 8)).ctxs (n % 8) with
    | some _, some c =>
      if c = s.cur.core then none
      else (freeLeash s c).map fun slot =>
        let v := setField w.toNat 32 4 (Nat.land (wfld w 35 32) (wfld (rdReg s y.toNat) 3 0))
        (s.modCore c fun k => { k with leash := smSet k.leash slot (BitVec.ofNat 64 v) }, none)
    | _, _ => none

end Sys2Proof.Machine
end

