-- ==== Sys2Proof/Machine/CoreEvents.lean ====
section
/-!
DEFINITION. The steps of a core's results, accesses and waits (spec/09_encoding.md R303; spec/10_arithmetic.md R319 to R322;
spec/02_on_chip_storage.md R77 to R82; spec/05_consistency.md R174, R190; spec/15_sync_system_instructions.md R444 to R452, R461, R463, R464;
spec/06_execution_model.md R197): each acts on a pending item of a core, named by its number; a number that names none changes nothing.
-/
namespace Sys2Proof.Machine

/-! ### Items -/

/-- The pending item of a core with a number: of a thread's agenda, or arriving. -/
def State.findItem (s : State) (c : Nat) (hd : Bool) (id : Nat) : Option Pending :=
  match (s.thread c hd).item id with
  | some p => some p
  | none => (s.core c).arriving.find? fun p => p.id = id

/-- The state without a pending item. -/
def State.dropItem (s : State) (c : Nat) (hd : Bool) (id : Nat) : State :=
  if ((s.thread c hd).item id).isSome then s.modThread c hd (·.drop id)
  else s.modCore c fun k => { k with arriving := k.arriving.filter fun p => p.id ≠ id }

/-- The state with a pending item of a thread changed. -/
def State.setItem (s : State) (c : Nat) (hd : Bool) (id : Nat) (f : Pending → Pending) : State :=
  s.modThread c hd fun t => { t with agenda := t.agenda.map fun p => if p.id = id then f p else p }

/-! ### Results (R303, R319, R320) -/

/-- The state with the writes of a result made, in order (R65, R69, R74, R380). -/
def writeDests (s : State) (c : Nat) (hd : Bool) : List (Dest × Vec) → State
  | [] => s
  | (d, v) :: ws =>
    let s := match d with
      | .sreg n => s.modThread c hd (·.setReg n (ofSlot v))
      | .pred n => s.modThread c hd (·.setPred n (v.getLsbD 0))
      | .mat m => s.modCore c fun k => { k with mrf := writeMat k.mrf m v }
      | .bypass => s.modCore c fun k => { k with bypass := writeBypass v }
    writeDests s c hd ws

/-- The least trap-enabled cause among the flags of a result (R320). -/
def trapCause (trapen flags : Nat) : Option Nat := [0, 1, 2, 3, 4].find? fun c => bit trapen c && bit flags c

/-- Whether a thread takes a write of a result: within a loop body only the loop hardware writes p12 to p15 (R70, log 94). -/
def Thread.takes (th : Thread) (w : Dest × Vec) : Bool :=
  match w.1 with
  | .pred n => n < 12 || th.loop.isNone
  | _ => true

/-- The state after the commit of a result: an enabled flag of a task's result faults ARITH instead, and the item stays to be performed again
(R249, R320). -/
def commitResult (s : State) (c : Nat) (hd : Bool) (p : Pending) (rp : Replay) (res : Res) : State :=
  let writes := res.writes.filter (s.thread c hd).takes
  if hd then writeDests (s.dropItem c true p.id) c true writes
  else
    match trapCause (s.core c).trapen res.flags with
    | some cause =>
      let s := s.setItem c false p.id (·.withReplay { rp with faulted := true })
      takeFault s c false (s.tick c false) (faultOf rp.org rp.org.pipe 10 cause 0 (BitVec.ofNat 64 (res.flags % 32)))
    | none =>
      let s := writeDests (s.dropItem c false p.id) c false writes
      s.modCore c fun k => { k with echk := k.echk ||| BitVec.ofNat 64 (res.flags % 128 * 256) }

/-- RESULT_COMMIT (R303). A result of latency L commits at the end of issue + L − 1, and its flags are ORed in. A result for p12 to p15 of
a word issued before or beside a LOOP that commits inside the loop's body writes nothing there (R70, log 94). -/
def execResultCommit (c : Nat) (hd : Bool) (id : Nat) (s : State) : Host.Outcome State Fault Refusal :=
  .next <|
    match s.findItem c hd id with
    | some p =>
      match p.act with
      | .result rp res => commitResult s c hd p rp res
      | _ => s
    | none => s

/-- ENGFMT_APPLY (R322). ENGFMT changes for the bundle issued third after the VSETFMT. -/
def execEngfmtApply (c : Nat) (s : State) : Host.Outcome State Fault Refusal :=
  .next <| s.modCore c fun k =>
    let due := k.fmtq.filter fun e => e.1 ≤ k.bundles
    { k with engfmt := (due.getLast?.map (·.2)).getD k.engfmt, fmtq := k.fmtq.filter fun e => k.bundles < e.1 }

/-- LOCAL_STORE_COMMIT (R81). A local store commits at the end of t + 1. -/
def execLocalStoreCommit (c : Nat) (hd : Bool) (id : Nat) (s : State) : Host.Outcome State Fault Refusal :=
  .next <|
    match s.findItem c hd id with
    | some p =>
      match p.act with
      | .store face off data => commitFace (s.dropItem c hd id) c face off data false
      | _ => s
    | none => s

/-! ### X-space accesses (R81, R82, R165, R166, R171, R443) -/

/-- The state with the return of an access given its value, or marked poisoned. -/
def giveReturn (s : State) (c : Nat) (hd : Bool) (acc : Nat) (val : Option Vec) (poison : Bool) : State :=
  s.modThread c hd fun t => { t with agenda := t.agenda.map fun p =>
    match p.act with
    | .xret rp _ _ a g => if p.acc = some acc then { p with act := .xret rp val poison a g } else p
    | _ => p }

/-- The state in which an access with no defined perform tick has performed: its issuer learns of it after a free time within its way back
(R82, R190). -/
def reported (s : State) (x : XAcc) : State :=
  if x.org.core ≥ 384 then orphanDone s x.org
  else
    match (s.thread x.org.core x.org.hd).outst.find? fun o => o.id = x.acc with
    | some o =>
      if o.done.isSome then s
      else
        let (k, s) := s.draw (xWay x.org.core x.core)
        s.performed x.org.core x.org.hd x.acc (s.tick x.org.core x.org.hd + 1 + k)
    | none => s

/-- The state in which the look at the poison of an atomic that is still to come has found it (R446). -/
def markProbe (s : State) (c : Nat) (hd : Bool) (acc : Nat) : State × Bool :=
  let mine (p : Pending) : Bool := match p.act with
    | .probe _ _ a _ _ _ _ _ => a = acc
    | _ => false
  if (s.thread c hd).agenda.any mine then
    (s.modThread c hd fun t => { t with agenda := t.agenda.map fun p =>
      match p.act with
      | .probe o d a l n g _ w => if a = acc then { p with act := .probe o d a l n g true w } else p
      | _ => p }, true)
  else (s, false)

/-- The state in which an atomic with no defined tick that has met poison after its issuer's look is to fault at the issuer's next tick, before its bundle
issues (R250, R446). -/
def lateProbe (s : State) (o : Origin) (d acc loc n : Nat) (addr : Word) : State :=
  s.post o.core o.hd { id := 0, tick := s.tick o.core o.hd + 1, phase := 0, src := o.core, ord := resOrd o,
                       act := .probe o d acc loc n false true addr }

/-- The state after an X-space access has performed at its target (R81, R165, R166, R441). -/
def performX (s : State) (x : XAcc) : State :=
  let loc := faceLoc x.core x.face x.off
  let c := x.org.core
  let hd := x.org.hd
  let s := match x.op with
    | .load n _ =>
      if (poisonIn s loc n).isSome then giveReturn s c hd x.acc none true
      else giveReturn s c hd x.acc (some (BitVec.ofNat 1024 (leNat (readBytes s.mem loc n)))) false
    | .store data => commitFace s x.core x.face x.off data false
    | .atomic op n b v =>
      if (poisonIn s loc n).isSome then
        let (s, seen) := markProbe s c hd x.acc
        if seen || c ≥ 384 then s
        else lateProbe s x.org x.core x.acc loc n (BitVec.ofNat 64 (xOfCore x.core * 2 ^ 23 + x.face * 2 ^ 21 + x.off))
      else
        let old := leNat (readBytes s.mem loc n)
        let s := commitFace s x.core x.face x.off (leBytes n (atomVal op n old b.toNat v.toNat)) false
        giveReturn s c hd x.acc (some (BitVec.ofNat 1024 old)) false
  reported s x

/-- The state after a return has written its destination, or has faulted (R417, R446): a load that met poison stays as the faulting replay
entry, a poisoned atomic of an open bank is gone. -/
def commitReturn (s : State) (c : Nat) (hd : Bool) (p : Pending) : State :=
  match p.act with
  | .xret rp val poison addr gslot =>
    let free (s : State) : State := if gslot then s.modCore c fun k => { k with atoms := k.atoms - 1 } else s
    if poison then
      if gslot then takeFault (free (s.dropItem c hd p.id)) c hd (s.tick c hd) (faultOf rp.org 3 8 2 addr)
      else
        let s := if hd then s else s.setItem c hd p.id (·.withReplay { rp with faulted := true })
        takeFault s c hd (s.tick c hd) (faultOf rp.org 3 8 4 addr)
    else
      match val with
      | none => s
      | some v =>
        let res := if (atomDest rp.instr).isSome || gslot then atomRes rp v else loadRes { rp with slots := [v] }
        free (writeDests (s.dropItem c hd p.id) c hd res.writes)
  | _ => s

/-- XLOAD_RETURN (R81). An X-space load's value returns and its destination is written. -/
def execXLoadReturn (c : Nat) (hd : Bool) (id : Nat) (s : State) : Host.Outcome State Fault Refusal :=
  .next <|
    match s.findItem c hd id with
    | some p => commitReturn s c hd p
    | none => s

/-- ATOMIC_RETURN (R444). A returning atomic writes D, and the atomic's slot is freed. -/
def execAtomicReturn (c : Nat) (hd : Bool) (id : Nat) (s : State) : Host.Outcome State Fault Refusal :=
  .next <|
    match s.findItem c hd id with
    | some p => commitReturn s c hd p
    | none => s

/-- Whether an earlier entry to a queue still waits at the end of its link (R79). -/
def linkBehind (k : Core) (q id : Nat) : Bool :=
  k.arriving.any fun p => match p.act with
    | .link r _ => r = q && p.id < id
    | _ => false

/-- LINK_ENTRY_ARRIVE (R78, R79). A link entry arrives and enters the receiver's FIFO, in the order of the link. One whose place the receiver's schedule was to
have freed and has not is not lost: it waits. -/
def execLinkEntryArrive (c id : Nat) (s : State) : Host.Outcome State Fault Refusal :=
  .next <|
    match s.findItem c false id with
    | some p =>
      match p.act with
      | .link q v =>
        if (smGet [] (s.core c).fifo q).length ≥ 16 || linkBehind (s.core c) q id then
          (if p.phase = 0 then s.later (s.region (regionOf c)).period (.linkEntryArrive c id) else s)
        else (s.dropItem c false id).modCore c fun k => { k with fifo := smSet k.fifo q (smGet [] k.fifo q ++ [v]) }
      | _ => s
    | none => s

/-- The state with an uncorrectable error that a core's operation has met recorded in the launch of its task, of a killed one too, as code 8 with a cause (R3, R221, log 111). -/
def memError (s : State) (o : Origin) (cause : Nat) : State :=
  if o.core ≥ 384 then s.modNode o.pc o.pos fun n => { n with comp := n.comp.error s.now o.issued 8 cause 0 }
  else if o.hd then s else s.launchError o.core 8 cause

@[inherit_doc memError] def atomError (s : State) (o : Origin) : State := memError s o 2

/-! ### The look at poison (R446) -/

/-- The state after the issuer's look at the line of its atomic at its tick p: a poisoned line faults POISON ATOMIC, and the atomic is not
performed. The unit's read of an uncorrectable burst is logged with the issuing core (R127, R516). -/
def probeAtomic (s : State) (c : Nat) (hd : Bool) (p : Pending) : State :=
  match p.act with
  | .probe org d acc loc n g hit addr =>
    let s := s.dropItem c hd p.id
    let isMine (q : Pending) : Bool := match q.act with
      | .xperf x => x.org.core = c && x.org.hd = hd && x.acc = acc
      | _ => false
    let mineG (a : GAtom) : Bool := a.org.core = c && a.org.hd = hd && a.acc = acc
    let waiting : Bool := if g then (s.hbm d).units.any mineG else ((s.core d).task.agenda ++ (s.core d).arriving).any isMine
    let bad : Bool := if g then s.badBurst loc else (poisonIn s loc n).isSome
    if !(hit || (waiting && bad)) then s
    else
      let s := if g then s.modHbm d fun h => { h with units := h.units.filter fun a => !mineG a }
        else s.modCore d fun k => { k with arriving := k.arriving.filter fun q => !isMine q,
                                           task := { k.task with agenda := k.task.agenda.filter fun q => !isMine q } }
      let s := s.modThread c hd fun t =>
        { t with agenda := t.agenda.filter fun q => !(q.acc = some acc && (match q.act with
                    | .xret _ _ _ _ _ => true
                    | _ => false)),
                 outst := t.outst.filter fun o => o.id ≠ acc }
      let s := if g then s.modCore c fun k => { k with atoms := k.atoms - 1 } else s
      let (f, l, s) := if g && !hit then freeFails s 4 else (0, 63, s)
      let s := if g && !hit then atomError (readBurst s (loc / 64 * 64) c 0 f l).2.2 org else s
      takeFault s c hd (s.tick c hd) (faultOf org 3 8 2 addr)
  | _ => s

/-! ### Atomic units (R174, R255, R444) -/

/-- Whether every member of a group that has not retired has passed a relative tick; a group that is gone has (R174, R255). -/
def groupPassed (s : State) (g relp : Nat) : Bool :=
  match s.pack g with
  | some p => (s.liveMembers p).all fun c => relp < (s.rel c).toNat
  | none => true

/-- Whether an operation at a unit is due. -/
def GAtom.isDue (s : State) (a : GAtom) : Bool :=
  match a.grouped with
  | some g => groupPassed s g a.relp
  | none => a.due ≤ s.now

/-- The order of the operations that a unit performs at one instant (R174, R444): grouped ones by relative tick and core, then open
ones by arrival. -/
def atomLe (a b : GAtom) : Bool :=
  match a.grouped, b.grouped with
  | some _, some _ => a.relp < b.relp || (a.relp = b.relp && a.org.core ≤ b.org.core)
  | some _, none => true
  | none, some _ => false
  | none, none => a.due ≤ b.due

/-- Whether an operation of a core stands behind an earlier grouped one of the core at the same unit that is not due (R171, R176). -/
def heldBehind (s : State) (us : List GAtom) (a : GAtom) : Bool :=
  a.grouped.isNone && (us.takeWhile fun b => b.acc ≠ a.acc || b.org ≠ a.org).any fun b =>
    b.org.core = a.org.core && b.grouped.isSome && !b.isDue s

/-- The open operations that a grouped one takes with it: those that its core has sent to the unit before it (R171, R176). -/
def aheadOf (us : List GAtom) (a : GAtom) : List GAtom :=
  (us.takeWhile fun b => b.acc ≠ a.acc || b.org ≠ a.org).filter fun b => b.org.core = a.org.core && b.grouped.isNone

/-- The operations that a unit performs now, in their order (R174, R176, R444). -/
def unitOrder (s : State) (us : List GAtom) : List GAtom :=
  let due := sortBy atomLe (us.filter fun a => a.isDue s && !heldBehind s us a)
  (due.flatMap fun a => if a.grouped.isSome then aheadOf us a ++ [a] else [a]).eraseDups

/-- The state after one operation of an atomic unit (R127, R128, R441, R446): a poisoned line keeps its value, and the return of an open one faults; a write that
fails for good stores the line as poison. DESIGN CHOICE (log 129): a write that succeeds stores the burst afresh, like the good writes that R127 lists, and so clears
a correctable error stored there; R127's list names no atomic. -/
def performG (s : State) (a : GAtom) : State :=
  let c := a.org.core
  let s := s.owes (if c ≥ 384 then a.org.pc else if a.org.hd then ((s.pack (s.core c).hpack).map (·.inst)).getD (s.core c).inst else (s.core c).inst)
  let cell := a.cell / 64 * 64
  let by_ := if c < 384 then c else a.org.issued
  let (f, l, s) := freeFails s 4
  let (data, bad, s) := readBurst s cell by_ 0 f l
  let s := if bad then
      (let s := atomError s a.org
       if a.grouped.isSome then (markProbe s c a.org.hd a.acc).1 else giveReturn s c a.org.hd a.acc none true)
    else
      let old := leNat ((data.drop (a.cell % 64)).take a.n)
      let new := data.take (a.cell % 64) ++ leBytes a.n (atomVal a.op a.n old a.b.toNat a.c.toNat) ++ data.drop (a.cell % 64 + a.n)
      let (f, l, s) := freeFails s 3
      let (lost, s) := writeTransfer s cell by_ 0 f l
      giveReturn ((writeLine s cell new).rewritten cell lost) c a.org.hd a.acc (some (BitVec.ofNat 1024 old)) false
  if c ≥ 384 then orphanDone s a.org else s

/-- G_ATOMIC_PERFORM (R444). The atomic unit of a stack performs the atomics that are due, in their order. -/
def execGAtomicPerform (hs : Nat) (s : State) : Host.Outcome State Fault Refusal :=
  .next <|
    let due := unitOrder s (s.hbm hs).units
    let s' := s.modHbm hs fun h => { h with units := h.units.filter fun a => !due.contains a }
    due.foldl performG s'

/-! ### REBASE (R207, R455) -/

/-- The state at the end of a tick in which a core has issued a REBASE: TBASE changes, and what counts from it with it (R104, R115, R209). -/
def endRebase (s : State) (c : Nat) : State :=
  match (s.core c).newBase with
  | none => s
  | some b =>
    (rebaseTimers s c (((s.core c).tbase.toNat : Int) - b.toNat)).modCore c fun k =>
      { k with tbase := b, rebased := true, newBase := none, shift := k.shift + ((b.toNat : Int) - k.tbase.toNat),
               careReb := if k.careFrom.isSome then some (s.region (regionOf c)).hw.toNat else none }

/-! ### Waits (R190, R206, R445 to R452, R461, R463, R464) -/

/-- The state in which the wait of a thread has ended at tick `u`: its next bundle issues at `u`. -/
def endWait (s : State) (c : Nat) (hd : Bool) (u : Nat) : State :=
  s.modThread c hd fun t => { t with wait := none, next := u, seq := false }

/-- Whether a fence of a thread has ended at tick `u` (R189, R190). -/
def fenceOver (s : State) (c : Nat) (hd : Bool) (scope upTo since u : Nat) : Bool :=
  since < u && (s.thread c hd).outst.all fun o =>
    upTo ≤ o.id || !inScope s c hd scope o || ((o.done.map fun d => decide (d < u)).getD false)

/-- The state after what follows a fence that has ended at tick `u` (R269, R445, R448, R451). -/
def afterFence (s : State) (c : Nat) (hd : Bool) (u : Nat) (a : After) : State :=
  let hold (s : State) (acq : Bool) (l : Nat) : State :=
    if acq then s.modThread c hd fun t => { t with wait := some (.acq (u + l)) } else s
  match a with
  | .nothing => s
  | .flagStore x =>
    let s := if exactTick s c hd x.core then s.performed c hd x.acc (u + xWay c x.core) else s
    sendX s x u 5
  | .atomic x rp none acq addr => hold (sendAtomX s x rp u addr) acq (xLat c x.core)
  | .atomic _ rp (some g) acq addr => hold (sendAtomG s g rp u addr) acq (gLat c (locHs g.cell))
  | .arrive bar count dest => s.modThread c hd fun t => { t with wait := some (.arrive bar count dest) }
  | .resume slot pd =>
    let w := smGet 0 (s.core c).leash slot
    match leashWith s c slot 34 with
    | some _ => endHandler (beginResume s (wfld w 8 0)) c
    | none => s.modThread c hd (·.setPred pd false)

/-- FENCE_END (R190). A fence ends at the first tick at which every covered access has performed. -/
def execFenceEnd (c : Nat) (hd : Bool) (s : State) : Host.Outcome State Fault Refusal :=
  .next <|
    let u := s.tick c hd
    match (s.thread c hd).wait with
    | some (.fence scope upTo since _ after) =>
      if fenceOver s c hd scope upTo since u then afterFence (endWait s c hd u) c hd u after else s
    | some (.acq t) => if t ≤ u then endWait s c hd u else s
    | _ => s

/-- FLAGWAIT_SATISFIED (R449). A flag wait ends when its flag word meets the condition or reads 0xE0; D takes the word. -/
def execFlagwaitSatisfied (c : Nat) (hd : Bool) (s : State) : Host.Outcome State Fault Refusal :=
  .next <|
    match (s.thread c hd).wait with
    | some (.flag dest loc cond b) =>
      let v : Word := BitVec.ofNat 64 (leNat (readBytes s.mem loc 8))
      if flagCond cond v b || wfld v 63 56 = 0xE0 then (endWait s c hd (s.tick c hd)).modThread c hd (·.setReg dest v) else s
    | _ => s

/-- BARRIER_ARRIVAL (R451). A barrier arrival registers at the end of its fence's end tick; D takes the generation. -/
def execBarrierArrival (c : Nat) (s : State) : Host.Outcome State Fault Refusal :=
  .next <|
    match (s.core c).task.wait with
    | some (.arrive bar count dest) =>
      let n := clusterOf c * 16 + bar
      let k := s.core c
      let b : Barrier := smGet {} s.barriers n
      let b := if b.arrived = 0 then { b with count := count, launch := some (k.inst, k.node) } else b
      let v : Word := BitVec.ofNat 64 ((if b.err then 0xE0 * 2 ^ 56 else 0) + b.gen)
      let b := { b with arrived := b.arrived + 1 }
      let b := if b.arrived ≥ b.count then b.close else b
      let s := { s with barriers := smSet s.barriers n b }
      (endWait s c false (s.tick c false + 1)).modThread c false (·.setReg dest v)
    | _ => s

/-- How generation `g` of a barrier stands for its waiters (R274, R450, R452): not closed, or the value of D. -/
def barrierEnd (b : Barrier) (g : Nat) : Option Word :=
  if g = b.gen then (if b.err then some 0xE0 else none)
  else if (b.gen + 2 ^ 32 - g) % 2 ^ 32 < 2 ^ 31 then some (if b.bad.contains g then 0xE0 else 0)
  else none

/-- BARWAIT_END (R452). A barrier wait ends when its generation has closed or ended in error. -/
def execBarwaitEnd (c : Nat) (s : State) : Host.Outcome State Fault Refusal :=
  .next <|
    match (s.core c).task.wait with
    | some (.bar dest bar g) =>
      match barrierEnd (smGet {} s.barriers bar) g with
      | some v => (endWait s c false (s.tick c false)).modThread c false (·.setReg dest v)
      | none => s
    | _ => s

/-- WAITC_SATISFIED (R461). A wait for a completion counter ends when int32(COUNT − b) is not negative; D takes the counter. -/
def execWaitcSatisfied (c : Nat) (s : State) : Host.Outcome State Fault Refusal :=
  .next <|
    match (s.core c).task.wait with
    | some (.cc dest ix b) =>
      let v := smGet 0 (s.core c).cc ix
      if (wfld v 31 0 + 2 ^ 32 - b) % 2 ^ 32 < 2 ^ 31 then (endWait s c false (s.tick c false)).modThread c false (·.setReg dest v) else s
    | _ => s

/-- The value that a GWAIT ends with (R464): none while the instance is live. -/
def gwaitValue (s : State) (h : Word) : Option Word :=
  match findHandle s h with
  | none => some 3
  | some (_, _, some r) => some (BitVec.ofNat 64 r)
  | some (_, _, none) => none

/-- The state in which the wait of a thread for an instance has ended, if the instance has. -/
def endGwait (s : State) (c : Nat) (hd : Bool) : State :=
  match (s.thread c hd).wait with
  | some (.inst dest h _) =>
    match gwaitValue s h with
    | some v => (endWait s c hd (s.tick c hd)).modThread c hd (·.setReg dest v)
    | none => s
  | _ => s

/-- GWAIT_END (R464). A wait for an instance ends with the instance; D takes the result. That of a task which is stopped stands (R248, R257). -/
def execGwaitEnd (c : Nat) (s : State) : Host.Outcome State Fault Refusal :=
  let stands : Bool := (s.core c).frozen.isSome || (s.core c).absorb > 0
  .next (endGwait (if stands then s else endGwait s c false) c true)

/-- WALKER_INTAKE_FREE (R463). The walker's intake has room for a waiting creation, with the object and the list as they were at issue; D takes its handle. -/
def execWalkerIntakeFree (c : Nat) (s : State) : Host.Outcome State Fault Refusal :=
  .next <|
    match (s.core c).task.wait with
    | some (.intake dest ginst base va patch gate) =>
      if intakeUsed s ≥ 64 then s
      else
        let (s, h) := createInst s c ginst base va patch gate
        (endWait s c false (s.tick c false)).modThread c false (·.setReg dest h)
    | _ => s

end Sys2Proof.Machine
end

