-- ==== Sys2Proof/Machine/CopyEvents.lean ====
section
/-!
DEFINITION. The steps of copies, fills and fabric operations (spec/14_memory_instructions.md R434 to R439; spec/02_on_chip_storage.md R79,
R84 to R87; spec/05_consistency.md R165, R181, R182, R192; spec/15_sync_system_instructions.md R458, R461).
-/
namespace Sys2Proof.Machine

/-- A copy-engine command of a core. -/
def Core.copy (k : Core) (id : Nat) : Option CopyCmd := k.copies.find? fun x => x.id = id

/-- A fabric operation of a core. -/
def Core.fab (k : Core) (id : Nat) : Option FabOp := k.fabs.find? fun x => x.id = id

/-- The tick of the issuer at which beat `b` is read at the source (R165). -/
def CopyCmd.readTick (x : CopyCmd) (b : Nat) : Nat := x.start + x.readAt + b

/-! ### Reads -/

/-- The state in which the read of beat `b` is due (R165, R169): on the issuer's count for a source in its region, on that of a source in
another region, or in a free tick of the source's region where R82 gives none. -/
def postCopyRead (s : State) (i : Nat) (x : CopyCmd) (b : Nat) : State :=
  let p : Pending := { id := 0, tick := x.readTick b, phase := 0, src := i, ord := x.acc, act := .copyRead i x.id b }
  if !x.sknown then
    let (k, s) := s.drawAny
    (s.arrive x.score { p with tick := 0, net := true, due := s.now + k }).1
  else if regionOf i = regionOf x.score || (s.core x.score).frozen.isSome then s.post i false p
  else s.post x.score false { p with tick := mapTick s i x.score p.tick }

/-- The state in which a beat is on its way to a destination, number `j` of its command (R84, R181, R439): at its tick there, or within the
bound of R82. Whether it fails on its way is free (R182, log 87). DEDUCED (log 106): a beat performs at its tick of R165, also where an X store that was issued behind it
has an earlier one (R171). -/
def sendBeat (s : State) (i : Nat) (x : CopyCmd) (b : Nat) (data : List Byte) (poison : Bool) (j : Nat) (d : CopyDst) : State :=
  let off := if d.face < 4 then d.off + (x.beat b).1 else 0
  let failed := Config.beatFails s.fresh
  let s := { s with fresh := s.fresh + 1 }
  let p : Pending := { id := 0, tick := x.start + x.delay d + b, rank := 3, src := i, ord := x.acc,
                       act := .copyBeat i x.id j b d.face off data poison failed }
  if x.sknown && d.known then s.post d.core false { p with tick := mapTick s i d.core p.tick }
  else
    let bound := xLat x.score d.core * 5
    let (k, s) := s.draw bound
    (s.arrive d.core { p with tick := 0, net := true, due := s.now + k, limit := some (s.now + bound) }).1

/-- The state in which a beat is on its way to every destination from number `j` on. -/
def sendBeats (i : Nat) (x : CopyCmd) (b : Nat) (data : List Byte) (poison : Bool) : Nat → List CopyDst → State → State
  | _, [], s => s
  | j, d :: ds, s => sendBeats i x b data poison (j + 1) ds (sendBeat s i x b data poison j d)

/-- The fault of a beat that reads a byte of the issuer's own face which an engine of the core still has to write (R438, R458). -/
def beatOperand (s : State) (i face lo n t : Nat) (self : Option Nat) : Option Flt :=
  (enginePending (s.core i) true self face lo n t).map fun o => ⟨3, 0, BitVec.ofNat 64 o, 0⟩
@[inherit_doc beatOperand] def copyOperand (s : State) (i : Nat) (x : CopyCmd) (b : Nat) : Option Flt :=
  let (lo, n) := x.beat b
  if x.score = i then beatOperand s i x.sface (x.soff + lo) n (x.readTick b) (some x.id) else none
@[inherit_doc beatOperand] def putOperand (s : State) (i : Nat) (x : FabOp) (b : Nat) : Option Flt :=
  beatOperand s i x.face (x.off + 256 * b) (min 256 (x.len - 256 * b)) (x.org.issued + 1 + b) none

/-- The state after the read of beat `b` of a copy or multicast (R131, R165, R434): poison travels with the beat, and the next read is due a
tick later. -/
def readBeat (s : State) (i : Nat) (x : CopyCmd) (b : Nat) : State :=
  let (lo, n) := x.beat b
  let loc := faceLoc x.score x.sface (x.soff + lo)
  let s := sendBeats i x b (readBytes s.mem loc n) (poisonIn s loc n).isSome 0 x.dsts s
  if b + 1 < x.beats then postCopyRead s i x (b + 1) else s

/-- The state after a beat of a PUT has been read (R458): behind the last one the operation is on its way. -/
def readPut (s : State) (i : Nat) (x : FabOp) (b : Nat) : State :=
  let n := min 256 (x.len - 256 * b)
  let x := { x with data := x.data ++ readBytes s.mem (faceLoc i x.face (x.off + 256 * b)) n }
  let s := s.modCore i fun k => { k with fabs := k.fabs.map fun y => if y.id = x.id then x else y }
  if 256 * (b + 1) < x.len then
    s.post i false { id := 0, tick := x.org.issued + 2 + b, phase := 0, src := i, ord := x.acc, act := .putRead x.id (b + 1) }
  else fabComplete s i x

/-- The state in which an engine step of the task of a core has faulted (R249, R250). -/
def engineFault (s : State) (i : Nat) (org : Origin) (f : Flt) : State :=
  takeFault s i false (s.tick i false) (faultOf org 6 f.code f.cause f.addr f.aux)

/-- The state after a read of the copy engine, or of a PUT, that stands on the agenda of a core: a read of an issuer that has stopped before it
waits with the issuer. -/
def copyReadStep (s : State) (c : Nat) (p : Pending) : State :=
  match p.act with
  | .copyRead i cmd b =>
    match (s.core i).copy cmd with
    | none => s.dropItem c false p.id
    | some x =>
      let stopped : Bool := match (s.core i).frozen with
        | some f => f.held ≤ x.readTick b
        | none => false
      if c ≠ i && stopped then
        (s.dropItem c false p.id).post i false { id := 0, tick := x.readTick b, phase := 0, src := i, ord := x.acc, act := p.act }
      else
        match copyOperand s i x b with
        | some f =>
          engineFault (s.modCore i fun k => { k with copies := k.copies.map fun y => if y.id = cmd then { y with faulted := true } else y })
            i x.org f
        | none => readBeat (s.dropItem c false p.id) i x b
  | .putRead fab b =>
    match (s.core c).fab fab with
    | none => s.dropItem c false p.id
    | some x =>
      match putOperand s c x b with
      | some f => engineFault s c x.org f
      | none => readPut (s.dropItem c false p.id) c x b
  | _ => s

/-- COPY_COMMAND_START (R87). A copy, multicast or fill leaves the queue and occupies the engine. -/
def execCopyCommandStart (c id : Nat) (s : State) : Host.Outcome State Fault Refusal :=
  .next <|
    match s.findItem c false id with
    | some p =>
      match p.act with
      | .copyStart cmd =>
        let s := s.dropItem c false id
        match (s.core c).copy cmd with
        | none => s
        | some x =>
          let s := s.modCore c fun k => { k with copies := k.copies.map fun y => if y.id = cmd then { y with started := true } else y }
          if x.fill.isSome then
            s.post c false { id := 0, tick := x.start + 2, rank := 2, src := c, ord := x.acc, act := .fillBeat cmd 0 }
          else postCopyRead s c x 0
      | _ => s
    | none => s

/-! ### Commits -/

/-- A command with one more beat committed; one with none left leaves the engine. -/
def Core.beatDone (k : Core) (cmd : Nat) : Core :=
  { k with copies := k.copies.filterMap fun x =>
      if x.id ≠ cmd then some x else if x.left ≤ 1 then none else some { x with left := x.left - 1 } }

/-- The state after the commit of a beat has been counted (R82, R190): behind the last one of a destination without a known tick, the access
to it has performed. -/
def countBeat (s : State) (i cmd j b : Nat) : State :=
  match (s.core i).copy cmd with
  | none => s
  | some x =>
    let d := x.dsts.getD j ⟨0, 0, 0, true, false⟩
    let s := s.modCore i (·.beatDone cmd)
    if (x.sknown && d.known) || b + 1 < x.beats then s
    else
      let (n, s) := s.draw (xWay x.score d.core)
      let t := s.tick i false + 1 + n
      s.modThread i false fun th => { th with outst := th.outst.map fun o =>
        if o.id = x.acc ∧ o.core = d.core ∧ o.done = none then { o with done := some t, mdone := some t } else o }

/-- A command with a failed beat to destination `j` noted (R182). -/
def CopyCmd.failAt (x : CopyCmd) (j : Nat) : CopyCmd :=
  { x with dsts := (List.range x.dsts.length).zipWith (fun n d => if n = j then { d with failed := true } else d) x.dsts }

/-- The state with the failure of a beat to a destination recorded in its launch (R182, R439): the count of errors, the first of them, the mask. `orph` names the
launch and the tile of a task that has been killed since. -/
def recordFailure (s : State) (i cmd j : Nat) (orph : Option (Nat × Nat × Nat)) : State :=
  let k := s.core i
  let (inst, node, tile) := orph.getD (k.inst, k.node, k.ltile)
  let s := s.modCore i fun k => { k with copies := k.copies.map fun x => if x.id = cmd then x.failAt j else x }
  s.modNode inst node fun n => { n with comp := (n.comp.error s.now i 8 5 tile).multicast s.now i cmd j }

/-- The entries of 128 bytes that a beat brings to a stream queue (R79). -/
def streamEntries (data : List Byte) : List Vec :=
  (List.range (ceilDiv data.length 128)).map fun k => BitVec.ofNat 1024 (leNat ((data.drop (128 * k)).take 128))

/-- The issuer's tick at which beat `b` commits at a destination (R84, R165). -/
def CopyCmd.commitTick (x : CopyCmd) (d : CopyDst) (b : Nat) : Nat := x.start + x.delay d + b

/-- Whether a stopped issuer holds back a beat of its own to a stream queue (R251 rule 2): one whose commit tick is at or after its held tick. -/
def beatHeld (s : State) (i cmd j b : Nat) : Bool :=
  match (s.core i).frozen, (s.core i).copy cmd with
  | some f, some x => match x.dsts[j]? with
    | some d => f.held ≤ x.commitTick d b
    | none => false
  | _, _ => false

/-- The fault of a beat that finds its stream queue full (R79, R260): the sender's and the receiver's ticks, as the last snapshot shows the latter. -/
def fullFlt (s : State) (i d : Nat) : Flt :=
  ⟨3, 9, 0, BitVec.ofNat 64 ((s.core d).snapRel % 2 ^ 32 * 2 ^ 32 + (s.rel i).toNat % 2 ^ 32)⟩

/-- The state in which a beat has found its stream queue full (R79): it is not lost, and its issuer faults at the beat's commit tick. -/
def queueFull (s : State) (i cmd j b : Nat) : State :=
  s.modCore i fun k => { k with copies := k.copies.map fun x =>
    if x.id = cmd then { x with full := some (match x.dsts[j]? with
      | some d => if x.sknown && d.known then x.commitTick d b else s.tick i false
      | none => s.tick i false) } else x }

/-- A core to which a beat of its own copy without a known tick has come: the write of it is pending no more (R393), whether or not its command still stands in the
engine. -/
def Core.landed (k : Core) (cmd face off : Nat) : Core :=
  { k with pendw := k.pendw.filter fun p => !(p.kind = 1 && p.cmd = cmd && p.face = face && p.lo = off && p.commit = 2 ^ 62) }

/-- The state after the commit of a beat at core `c` (R60, R79, R131, R182, R251, R439): into a face, or into a stream queue, whose entries carry no poison (log
88). -/
def commitBeat (s : State) (c : Nat) (p : Pending) : State :=
  match p.act with
  | .copyBeat i cmd j b face off data poison failed =>
    let record (s : State) : State := if failed then recordFailure s i cmd j p.orph else s
    if face < 4 then
      let s := if i = c then s.modCore c (·.landed cmd face off) else s
      itemOver (countBeat (record (commitFace (s.dropItem c false p.id) c face off data (poison || failed))) i cmd j b) p
    else
      let es := streamEntries data
      if beatHeld s i cmd j b then s
      else if (smGet [] (s.core c).fifo face).length + es.length > 16 then queueFull s i cmd j b
      else
        let s := (s.dropItem c false p.id).modCore c fun k => { k with fifo := smSet k.fifo face (smGet [] k.fifo face ++ es) }
        itemOver (countBeat (record s) i cmd j b) p
  | _ => s

/-! ### Traffic with no defined tick (R82, R169, R171) -/

/-- The state after an item has performed at core `c`: an X-space access, a beat, the read of a beat. -/
def performNet (c : Nat) (s : State) (p : Pending) : State :=
  match p.act with
  | .xperf x => performX (s.dropItem c false p.id) x
  | .copyBeat _ _ _ _ _ _ _ _ _ => commitBeat s c p
  | .copyRead _ _ _ => copyReadStep s c p
  | _ => s

/-- The number of the access to which an item of traffic belongs, which rises in the order of issue. -/
def Pending.accNo (p : Pending) : Nat :=
  match p.act with
  | .xperf x => x.acc
  | .copyBeat _ cmd _ _ _ _ _ _ _ => cmd
  | .copyRead _ cmd _ => cmd
  | _ => p.id

/-- Whether an item stands before another of the same core in the order of issue (R171). -/
def Pending.before (q p : Pending) : Bool := q.src = p.src && (q.accNo < p.accNo || (q.accNo = p.accNo && q.id < p.id))

/-- The earlier items of the same core that wait at a target with no defined tick, in their order (R171). -/
def netAhead (s : State) (c : Nat) (p : Pending) : List Pending :=
  sortBy (fun a b => a.accNo ≤ b.accNo) ((s.core c).arriving.filter fun q => q.net && q.before p)

/-- The state after an item has performed at core `c`, and before it, where it has no defined tick, the earlier ones of its core (R82, R171). -/
def performInOrder (s : State) (c : Nat) (p : Pending) : State :=
  ((if p.net then netAhead s c p else []) ++ [p]).foldl (performNet c) s

/-- Whether a copy command of core `i` has beats that have not been read. -/
def unreadBeats (s : State) (i : Nat) (x : CopyCmd) : Bool :=
  (s.core i).task.agenda.any (isCopyRead i x.id) || ((s.core x.score).task.agenda ++ (s.core x.score).arriving).any fun q => match q.act with
    | .copyRead j cmd _ => j = i && cmd = x.id
    | _ => false

/-- Whether a beat of a copy command of core `i` is on its way to core `c`. -/
def beatsComing (s : State) (c i : Nat) (x : CopyCmd) : Bool :=
  ((s.core c).task.agenda ++ (s.core c).arriving).any fun q => match q.act with
    | .copyBeat j cmd _ _ _ _ _ _ _ => j = i && cmd = x.id
    | _ => false

/-- Whether traffic of a task to core `c`, its access number `acc`, waits there for reads or beats of an earlier copy of its core (R171): where its own tick is not
defined (`net`) for any, else for those with none. Traffic to its own core stands by its ticks (log 106). -/
def behindCopy (s : State) (c i acc : Nat) (net : Bool) : Bool :=
  i ≠ c && i < 384 && (s.core i).copies.any fun x => x.id < acc &&
    ((x.score = c && (net || !x.sknown) && unreadBeats s i x) ||
      x.dsts.any fun d => d.core = c && (net || !(x.sknown && d.known)) && (unreadBeats s i x || beatsComing s c i x))

/-- Whether an item that stands at core `c` waits for reads or beats of an earlier copy of its core (R171). -/
def Pending.behind (s : State) (c : Nat) (p : Pending) : Bool :=
  match p.act with
  | .xperf x => !x.org.hd && behindCopy s c x.org.core x.acc p.net
  | .copyBeat i cmd _ _ _ _ _ _ _ => behindCopy s c i cmd p.net
  | .copyRead i cmd _ => p.net && behindCopy s c i cmd true
  | _ => false

/-- X_ACCESS_PERFORM (R81, R171). An X-space access performs at its target; one behind beats of an earlier copy that have no defined tick waits for them. -/
def execXAccessPerform (c id : Nat) (s : State) : Host.Outcome State Fault Refusal :=
  .next <|
    match s.findItem c false id with
    | some p =>
      match p.act with
      | .xperf _ => if p.behind s c then s else performInOrder s c p
      | _ => s
    | none => s

/-- COPY_BEAT_READ (R165). A copy or multicast beat is read at its source. -/
def execCopyBeatRead (c id : Nat) (s : State) : Host.Outcome State Fault Refusal :=
  .next <|
    match s.findItem c false id with
    | some p => copyReadStep s c p
    | none => s

/-- COPY_BEAT_COMMIT (R84). A copy or multicast beat commits at the destination. -/
def execCopyBeatCommit (c id : Nat) (s : State) : Host.Outcome State Fault Refusal :=
  .next <|
    match s.findItem c false id with
    | some p =>
      match p.act with
      | .copyBeat _ _ _ _ _ _ _ _ _ => if p.behind s c then s else performInOrder s c p
      | _ => s
    | none => s

/-- Whether an item may perform in the present tick of its target's region, whose next tick comes at instant `next` (R82). -/
def Pending.ready (p : Pending) (now next : Nat) : Bool := p.due ≤ now || (p.limit.map fun l => decide (l < next)).getD false

/-- Whether an earlier item of the same core waits at a target for a tick that is defined (R171): the target's task has not stopped before it. -/
def timedAhead (k : Core) (p : Pending) : Bool :=
  k.frozen.isNone && k.task.agenda.any fun q => q.before p && (match q.act with
    | .xperf _ => true
    | .copyBeat _ _ _ _ _ _ _ _ _ => true
    | _ => false)

/-- Whether a later item of the same core performs at a target in its tick `t`, or in the next one where it would come before this one there (R171): this one is to
perform now. -/
def forcedBy (k : Core) (t : Nat) (p : Pending) : Bool :=
  k.frozen.isNone && k.task.agenda.any fun q => p.before q
    && (q.tick ≤ t || (p.phase = 1 && q.tick = t + 1 && (q.phase = 0 || commitLe q p)))
    && (match q.act with
      | .xperf _ => true
      | .copyBeat _ _ _ _ _ _ _ _ _ => true
      | _ => false)

/-- The writes with no defined tick that perform in the present tick, among those that have arrived, in the order of issue (R169, R171): each core's own in their order,
as far as the order of R60 lets them. `seen` gives the rank of the last one of a core, 7 where one waits. -/
def netWrites (ok : Pending → Bool) : SMap (Nat × Nat) → List Pending → List Pending
  | _, [] => []
  | seen, p :: ps =>
    if !p.net then netWrites ok seen ps
    else
      let top := smGet (0, 0) seen p.src
      if p.phase = 1 && ok p && (top.1 < p.rank || (top.1 = p.rank && top.2 ≤ p.ord)) then p :: netWrites ok (smSet seen p.src (p.rank, p.ord)) ps
      else netWrites ok (smSet seen p.src (7, 0)) ps

/-- The writes with no defined tick that perform at a core in the present tick of its region. -/
def dueWrites (s : State) (c : Nat) : List Pending :=
  let k := s.core c
  let next := (s.region (regionOf c)).nextTick
  netWrites (fun p => (p.ready s.now next || forcedBy k (s.tick c false) p) && !timedAhead k p && !p.behind s c) []
    (sortBy (fun a b => a.accNo ≤ b.accNo) k.arriving)

/-- The state after the reads with no defined tick that perform at a core at the start of the present tick of its region, each behind its core's earlier traffic. -/
def netReads (s : State) (c : Nat) : State :=
  let next := (s.region (regionOf c)).nextTick
  ((s.core c).arriving.filter fun p => p.net && p.phase = 0 && (p.ready s.now next || forcedBy (s.core c) (s.tick c false) p)).foldl (fun s p =>
    if ((s.core c).arriving.any (·.id = p.id)) && (netAhead s c p).isEmpty && !timedAhead (s.core c) p && !p.behind s c then performNet c s p else s) s

/-- The 32-bit constant repeated over bytes whose first stands at `o` of the destination (R436). -/
def fillBytes (v : HWord) (o n : Nat) : List Byte := (List.range n).map fun k => BitVec.ofNat 8 (fld v.toNat (8 * ((o + k) % 4) + 7) (8 * ((o + k) % 4)))

/-- FILL_BEAT_COMMIT (R86). A fill beat commits 512 bytes. -/
def execFillBeatCommit (c id : Nat) (s : State) : Host.Outcome State Fault Refusal :=
  .next <|
    match s.findItem c false id with
    | some p =>
      match p.act with
      | .fillBeat cmd b =>
        let s := s.dropItem c false id
        match (s.core c).copy cmd with
        | none => s
        | some x =>
          let (lo, n) := x.beat b
          let d := x.dsts.getD 0 ⟨c, 0, 0, true, false⟩
          let s := commitFace s c d.face (d.off + lo) (fillBytes (x.fill.getD 0) lo n) false
          let s := s.modCore c (·.beatDone cmd)
          if b + 1 < x.beats then
            s.post c false { id := 0, tick := x.start + 3 + b, rank := 2, src := c, ord := x.acc, act := .fillBeat cmd (b + 1) }
          else s
      | _ => s
    | none => s

/-- The state after a write that a freeze has held back has committed (R254). -/
def commitHeld (c : Nat) (s : State) (p : Pending) : State :=
  match p.act with
  | .xperf x => performX (s.dropItem c false p.id) x
  | .store face off data => commitFace (s.dropItem c false p.id) c face off data false
  | .copyBeat _ _ _ _ _ _ _ _ _ => commitBeat s c p
  | _ => s

/-- HELD_WRITE_COMMIT (R254). A write that a freeze has held back in a member's delivery stage commits. -/
def execHeldWriteCommit (c id : Nat) (s : State) : Host.Outcome State Fault Refusal :=
  .next <|
    match s.findItem c false id with
    | some p => commitHeld c s p
    | none => s

/-- The writes that a freeze has held back for a task, in ascending perform tick and then in the order of R60 (R254). -/
def heldWrites (s : State) (c : Nat) : List Pending :=
  sortBy (fun a b => a.tick < b.tick || (a.tick = b.tick && commitLe a b)) ((s.core c).task.agenda.filter (·.waits))

/-- Whether an access has performed by tick `t` (R186, R197): one with a completion or visibility tick at that tick, any other once it
has committed before. -/
def Outst.over (o : Outst) (t : Nat) : Bool :=
  if o.queue = 0 then (o.done.map fun d => decide (d < t)).getD false else (o.mdone.map fun d => decide (d ≤ t)).getD false

/-- TASK_RETIRE (R197, R254). An Ending task retires at the first tick, that of its END or a later one, by which all of its accesses have performed; the writes that
a freeze still holds back for it commit first. The acknowledgement of a fabric operation that has been sent lies beyond the scope .package of R197 and is not waited for. -/
def execTaskRetire (c : Nat) (s : State) : Host.Outcome State Fault Refusal :=
  .next <|
    let k := s.core c
    let t := s.tick c false
    if k.stage = .ending && k.frozen.isNone && k.task.outst.all (fun o => o.over t || k.fabs.any fun x => x.acc = o.id && x.isSent) then
      retireTask ((heldWrites s c).foldl (commitHeld c) s) c
    else s

/-! ### The steps of a fabric operation -/

/-- Whether an earlier operation of a core to the same window is still outstanding (R192). -/
def olderFab (k : Core) (x : FabOp) : Bool := k.fabs.any fun y => y.fwin = x.fwin && y.id < x.id

/-- A completion counter after one more completion (R461). -/
def countCompletion (v : Word) (code cause : Nat) : Word :=
  let count := (wfld v 31 0 + 1) % 2 ^ 32
  let errs := wfld v 63 48
  if code = 0 then BitVec.ofNat 64 (setField v.toNat 0 32 count)
  else if errs = 0 then BitVec.ofNat 64 (2 ^ 48 + code * 2 ^ 40 + cause * 2 ^ 32 + count)
  else BitVec.ofNat 64 (min 65535 (errs + 1) * 2 ^ 48 + wfld v 47 32 * 2 ^ 32 + count)

/-- The request that an operation makes at its destination. -/
def FabOp.req (s : State) (x : FabOp) : FabricReq :=
  { kind := x.kind, win := wfld (smGet {} s.fwtab x.fwin).w0 7 0, off := x.foff, len := x.len, data := x.data, op := x.op,
    wide := x.wide, b := x.b }

/-- The state in which an operation has completed with a code, a cause and an old value (R459, R461): the old value of a RATOM with RET is
written before the counter rises. -/
def finishFabric (s : State) (c : Nat) (x : FabOp) (code cause : Nat) (old : Word) : State :=
  let s := if x.kind = 2 && x.ret && code = 0 then
      commitFace s c 2 x.off (leBytes 8 (if x.wide then old.toNat else wfld old 31 0)) false
    else s
  let s := s.modCore c fun k => { k with fabs := k.fabs.filter fun y => y.id ≠ x.id }
  let count (s : State) : State := s.modCore c fun k => { k with cc := smSet k.cc x.cc (countCompletion (smGet 0 k.cc x.cc) code cause) }
  if x.org.core ≥ 384 then orphanDone (if (s.core c).stage = .over || (s.core c).stage = .free then count s else s) x.org
  else
    let s := count s
    s.performed c x.org.hd x.acc (s.tick c x.org.hd)

/-- FABRIC_REQUEST_IN (R52, R173). An incoming fabric operation is translated and performed in this package's G space, a write piece by piece: one that fails
its checks writes nothing, the pieces behind the first follow at free times (log 5). -/
def execFabricRequestIn (q : FabricReq) (s : State) : Host.Outcome State Fault Refusal :=
  .next <|
    let s' := (firstPiece s q).1
    if q.kind = 0 && q.data.length > 8 && (exportedWrite s q.win q.off (ceilDiv q.data.length 8)).toBool then
      let (k, s') := s'.drawAny
      s'.later k (.fabricRequestIn { q with off := q.off + 8, data := q.data.drop 8 })
    else s'

/-- FABRIC_COMPLETION (R173, R461). A fabric operation's acknowledgement raises its completion counter. An operation whose window leads to this
package performs here first, a PUT piece by piece; one that meets an uncorrectable line is an error of the task's launch (R3, log 111). -/
def execFabricCompletion (c id code cause : Nat) (old : Word) (s : State) : Host.Outcome State Fault Refusal :=
  .next <|
    match (s.core c).fab id with
    | none => s
    | some x =>
      if olderFab (s.core c) x then s.later 5 (.fabricCompletion c id code cause old)
      else if ownWindow s x.fwin && x.kind ≠ 1 then
        let (s, r) := firstPiece s (x.req s)
        if x.kind = 0 && x.data.length > 8 && r.code = 0 then
          let rest : FabOp := { x with foff := x.foff + 8, len := x.len - 8, data := x.data.drop 8 }
          fabLater (s.modCore c fun k => { k with fabs := k.fabs.map fun y => if y.id = id then rest else y }) c x.fwin (.fabricCompletion c id 0 0 0)
        else finishFabric (if r.code = 8 then atomError s x.org else s) c x r.code r.cause r.old
      else finishFabric s c x code cause old

/-- GET_PIECE_COMMIT (R127, R458). An 8-byte piece of a GET commits into the face in real time, poisoned where the array or the transfer has failed, an error of the task's launch (R3, log 111); the operation completes behind its last one. -/
def execGetPieceCommit (c id off : Nat) (v : Word) (s : State) : Host.Outcome State Fault Refusal :=
  .next <|
    match (s.core c).fab id with
    | none => s
    | some x =>
      if olderFab (s.core c) x then s.later 5 (.getPieceCommit c id off v)
      else
        let own := ownWindow s x.fwin
        let (s', r) := performFabric s { x.req s with off := x.foff + off, len := 8 }
        let s := if own then s' else s
        if own && r.code ≠ 0 then s.later 0 (.fabricCompletion c id r.code r.cause 0)
        else
          let s := if own && r.bad then memError s x.org 0 else s
          let s := commitFace s c x.face (x.off + off) (if own then r.data else leBytes 8 v.toNat) (own && r.bad)
          if off + 8 ≥ x.len then s.later 0 (.fabricCompletion c id 0 0 0)
          else
            let (w, s) := s.drawWord
            fabLater s c x.fwin (.getPieceCommit c id (off + 8) w)

end Sys2Proof.Machine
end

