-- ==== Sys2Proof/Machine/CubeEvents.lean ====
section
/-!
DEFINITION. The steps of the cube (spec/13_cube_instructions.md R388 to R412; spec/10_arithmetic.md R325, R328, R330, R331): the start of a
command, its reads with the checks of R393, and its writes.
-/
namespace Sys2Proof.Machine

/-- A cube command of a core, and what it has read. -/
def Core.cube (k : Core) (id : Nat) : Option XCmd := k.cubes.find? fun x => x.id = id
@[inherit_doc Core.cube] def Core.run (k : Core) (id : Nat) : XRun := smGet {} k.xrun id

/-- The state with a cube command of a core, or what it has read, changed. -/
def State.modCube (s : State) (c id : Nat) (f : XCmd → XCmd) : State :=
  s.modCore c fun k => { k with cubes := k.cubes.map fun x => if x.id = id then f x else x }
@[inherit_doc State.modCube] def State.modRun (s : State) (c id : Nat) (f : XRun → XRun) : State :=
  s.modCore c fun k => { k with xrun := smSet k.xrun id (f (k.run id)) }

/-! ### The checks of a step (R393) -/

/-- The face bytes that a step reads: face, first byte, count. -/
structure Rd where
  face : Nat
  lo   : Nat
  n    : Nat

/-- The lowest byte of a range that a drain piece or a P line of another command issued by a tick still has to write. -/
def pieceAwaits (k : Core) (x : XCmd) (r : Rd) (t : Nat) : Option Nat :=
  ((k.cubes.filter fun y => y.id ≠ x.id && (y.kind = 9 || y.kind = 10) && y.org.issued ≤ t).flatMap fun y =>
    y.faceSegs.filterMap fun g =>
      if r.face = 0 && g.space = 1 then g.pendingAt 1 r.lo r.n t
      else if r.face = 2 && g.space = 0 then (g.pendingAt 0 (r.lo / 4) ((r.lo + r.n - 1) / 4 - r.lo / 4 + 1) t).map fun w => max r.lo (4 * w)
      else none).min?

/-- The commands queued before one (R388). -/
def earlierCubes (k : Core) (x : XCmd) : List XCmd := k.cubes.filter fun y => y.id < x.id

/-- The lowest byte of a range of C that an earlier command still has to write at a tick. -/
def wordAwaits (k : Core) (x : XCmd) (r : Rd) (t : Nat) : Option Nat :=
  if r.face ≠ 2 then none
  else ((earlierCubes k x).flatMap fun y => y.faceSegs.filterMap fun g =>
      (g.pendingAt 0 (r.lo / 4) ((r.lo + r.n - 1) / 4 - r.lo / 4 + 1) t).map fun w => max r.lo (4 * w)).min?

/-- The lowest byte of a read that awaits a write, and that lies in a poisoned line. -/
def readAwaits (k : Core) (x : XCmd) (t : Nat) (r : Rd) : Option Nat :=
  ([pendingOn k [0, 1, 2, 3, 4, 5] none r.face r.lo r.n t, pieceAwaits k x r t, wordAwaits k x r t].filterMap id).min?
@[inherit_doc readAwaits] def readPoisoned (s : State) (c : Nat) (r : Rd) : Option Nat :=
  (poisonIn s (faceLoc c r.face r.lo) r.n).map fun l => max (l * 64) (faceLoc c r.face r.lo) - faceLoc c r.face 0

/-- Whether an earlier command still has to write the side register of a row at a tick (space 2 MAX, 3 SUM, 4 ALPHA). -/
def sideAwaits (k : Core) (x : XCmd) (space row t : Nat) : Bool :=
  (earlierCubes k x).any fun y => y.sideSegs.any fun g => (g.pendingAt space row 1 t).isSome

/-- The fault of a step that makes some reads at a tick: OPERAND before POISON, at the lowest failing byte. -/
def stepFault (s : State) (c : Nat) (x : XCmd) (t : Nat) (rs : List Rd) (side : Bool) : Option Flt :=
  let k := s.core c
  match (rs.filterMap (readAwaits k x t)).min? with
  | some o => some ⟨3, 0, BitVec.ofNat 64 (if side then 0 else o), 0⟩
  | none =>
    if side then some ⟨3, 0, 0, 0⟩
    else ((rs.filterMap (readPoisoned s c)).min?).map fun o => ⟨8, 1, BitVec.ofNat 64 o, 0⟩

/-! ### Streams (R392) -/

/-- The k-steps that slot `m` reads at step `u`. -/
def XCmd.stepsAt (x : XCmd) (m u : Nat) : List Nat :=
  let r := fmtRate x.pace
  ((List.range r).map fun q => r * u + q).filter fun q => q < x.steps m

/-- The face offset of k-step `q` of the A or the B stream of layer `l`. -/
def XCmd.aStep (x : XCmd) (l q : Nat) : Nat := l * 2 ^ 18 + x.aoff + 8 * fmtBits x.afmt * q
@[inherit_doc XCmd.aStep] def XCmd.bStep (x : XCmd) (l q : Nat) : Nat := l * 2 ^ 18 + x.woff + 8 * fmtBits x.bfmt * q

/-- The face offsets of the scales of block `q` of layer `l`. -/
def XCmd.aScale (x : XCmd) (l q : Nat) : Nat := l * 2 ^ 18 + x.asoff + 64 * q
@[inherit_doc XCmd.aScale] def XCmd.bScale (x : XCmd) (l q : Nat) : Nat := l * 2 ^ 18 + x.bsoff + 64 * q

/-- The block whose scales slot `m` reads at step `u`. -/
def XCmd.blockAt (x : XCmd) (m u : Nat) : Option Nat := if x.fp4 && u % 2 = 0 && 4 * u < x.steps m then some (u / 2) else none

/-- The reads of the stream step `u` of a command: elements beyond M and N are not read. -/
def XCmd.streamReads (x : XCmd) (u : Nat) : List Rd :=
  ((List.range x.layers.length).zip x.layers).flatMap fun (m, l) =>
    let qs := x.stepsAt m u
    let q := (x.blockAt m u).toList
    (if x.readsA then qs.map (fun q => ⟨0, x.aStep l q, ceilDiv (fmtBits x.afmt * x.m) 8⟩) ++ (q.map fun q => ⟨0, x.aScale l q, x.m⟩) else [])
    ++ (if x.readsW then qs.map (fun q => ⟨1, x.bStep l q, ceilDiv (fmtBits x.bfmt * x.n) 8⟩) ++ (q.map fun q => ⟨1, x.bScale l q, x.n⟩) else [])

/-- Face bytes of a core as a number. -/
def faceNat (s : State) (c face off n : Nat) : Nat := leNat (readBytes s.mem (faceLoc c face off) n)

/-- What a command has read after the stream step `u`. -/
def streamRun (s : State) (c : Nat) (x : XCmd) (u : Nat) (r : XRun) : XRun :=
  ((List.range x.layers.length).zip x.layers).foldl (fun (r : XRun) (m, l) =>
    let r := (x.stepsAt m u).foldl (fun (r : XRun) q =>
      { r with a := if x.readsA then smSet r.a (4096 * m + q) (faceNat s c 0 (x.aStep l q) (8 * fmtBits x.afmt)) else r.a,
               b := if x.readsW then smSet r.b (4096 * m + q) (faceNat s c 1 (x.bStep l q) (8 * fmtBits x.bfmt)) else r.b }) r
    match x.blockAt m u with
    | none => r
    | some q =>
      { r with sa := if x.readsA then smSet r.sa (512 * m + q) (faceNat s c 0 (x.aScale l q) 64) else r.sa,
               sb := if x.readsW then smSet r.sb (512 * m + q) (faceNat s c 1 (x.bScale l q) 64) else r.sb }) r

/-! ### Results (R330, R331) -/

/-- The value of an element code in a floating-point format (R391). -/
def elemFl (f v : Nat) : Fl := decodeF ([BF16, FP16, E4M3, E5M2].getD f FP4) v

/-- Element `e` of a k-step in format `f`. -/
def elemAt (f v e : Nat) : Nat := v / 2 ^ (fmtBits f * e) % 2 ^ fmtBits f

/-- The partial sum of slot `m` at element (i, j) of a command (R330, R331, R396). -/
def partSum (x : XCmd) (r : XRun) (m i j : Nat) : Nat :=
  let a (q : Nat) : Nat := elemAt x.afmt (smGet 0 r.a (4096 * m + q)) i
  let bf := if x.latched then smGet 0 r.bf m else x.bfmt
  let b (q : Nat) : Nat := elemAt bf (smGet 0 r.b (4096 * m + q)) j
  if x.fp4 then
    (List.range (x.steps m / 8)).foldl (fun p q =>
      fp4Step p ((List.range 8).map fun e => a (8 * q + e)) ((List.range 8).map fun e => b (8 * q + e))
        (elemAt 2 (smGet 0 r.sa (512 * m + q)) i) (elemAt 2 (smGet 0 r.sb (512 * m + q)) j)) 0
  else if isIntFmt x.afmt then
    let int (v : Nat) : Int := intDecode v (fmtBits x.afmt) (iunsOf x.fmt) (isubOf x.fmt)
    (List.range (x.steps m)).foldl (fun p q => intStep p (int (a q)) (int (b q))) 0
  else (List.range (x.steps m)).foldl (fun p q => cubeStep p (elemFl x.afmt (a q)) (elemFl bf (b q))) 0

/-- The addition of two words of a command: FP32 under RNE, or int32 (R330, R331). -/
def XCmd.add (x : XCmd) (a b : Nat) : Nat := if isIntFmt x.afmt then (a + b) % 2 ^ 32 else cubeAdd a b

/-- Element (i, j) of plane `p` of a command, the old word added where it accumulates (R330, R399). -/
def cubeElem (x : XCmd) (r : XRun) (p i j : Nat) : Nat :=
  let v := if x.isPlane then partSum x r p i j
    else (List.range (x.layers.length - 1)).foldl (fun acc m => x.add acc (partSum x r (m + 1) i j)) (partSum x r 0 i j)
  if x.accumulates then x.add (smGet 0 r.old (4096 * p + 64 * i + j)).toNat v else v

/-- The elements (i, j) of diagonal `d` of an M × N result. -/
def diagonal (m n d : Nat) : List (Nat × Nat) := ((List.range m).map fun i => (i, d - i)).filter fun e => e.1 ≤ d && e.2 < n

/-- The C offset of element (i, j) of plane `p`. -/
def XCmd.wordAt (x : XCmd) (p i j : Nat) : Nat := x.planeAt p + 256 * i + 4 * j

/-! ### CUBE.DRAIN, CUBE.RESC and CUBE.SCORE (R404, R405, R407) -/

/-- The converted element of a drain (R404). -/
def drainElem (x : XCmd) (v : HWord) : Nat :=
  let y := (mulFl (if x.ct then intFl (sint 32 v.toNat) else decodeF FP32 v.toNat) (decodeF BF16 x.bs)).1
  match x.ofmt with
  | 0 => (roundF FP32 y x.rm).1
  | 1 => (roundF BF16 y x.rm).1
  | 2 => (roundF FP16 y x.rm).1
  | 3 => (roundF (f8Of x.fmt) y x.rm).1
  | _ => bitsOf 8 (toInt y 8 (iunsOf x.fmt) (isubOf x.fmt) x.rm).1

/-- The byte of a drain's destination at a face offset (R404). -/
def drainByte (x : XCmd) (r : XRun) (a : Nat) : Byte :=
  let e := outBytes x.ofmt
  let rc := (a - x.daddr) / (64 * e)
  let el := (a - x.daddr) % (64 * e) / e
  let v := drainElem x (smGet 0 r.old (if x.tr then 64 * el + rc else 64 * rc + el))
  BitVec.ofNat 8 (v / 2 ^ (8 * ((a - x.daddr) % e)))

/-- A row of CUBE.RESC: each word times ALPHA (R405). -/
def rescWord (v al : HWord) : List Byte := leBytes 4 (fMul FP32 v.toNat al.toNat 0).1

/-- The scoring of a row (R407): P, MAX, SUM and ALPHA, from its scores and its MAX and SUM. -/
def scoreRow (ss : List Nat) (mo sum : Nat) : List Nat × Nat × Nat × Nat :=
  let sub (a b : Nat) : Nat := (fAdd FP32 a (Nat.xor b (2 ^ 31)) 0).1
  let mx := ss.foldl (fun m v => (fMax FP32 m v).1) mo
  let empty : Bool := mx = infCode FP32 + 2 ^ 31
  let a := if empty then 0x3F800000 else (exp2F (sub mo mx)).1
  let p := ss.map fun v => if empty then 0 else (roundF BF16 (decodeF FP32 (exp2F (sub v mx)).1) 0).1
  let t := p.foldl (fun t v => (fAdd FP32 t (roundF FP32 (decodeF BF16 v) 0).1 0).1) 0
  (p, mx, (fAdd FP32 (fMul FP32 sum a 0).1 t 0).1, a)

/-- What a CUBE.SCORE has after its Z: P by 64 × row + line, and the new side registers. -/
def scoreRun (k : Core) (x : XCmd) (r : XRun) : XRun :=
  (List.range x.m).foldl (fun (q : XRun) i =>
    let side := smGet {} k.sides i
    let (p, mx, sm, al) := scoreRow ((List.range x.n).map (cubeElem x r 0 i)) side.mx.toNat side.sm.toNat
    { q with old := ((List.range x.n).zip p).foldl (fun m e => smSet m (64 * i + e.1) (BitVec.ofNat 32 e.2)) q.old,
             mx := smSet q.mx i (BitVec.ofNat 32 mx), sm := smSet q.sm i (BitVec.ofNat 32 sm), al := smSet q.al i (BitVec.ofNat 32 al) }) r

/-! ### Posting -/

/-- The state with an item of a cube command posted (R60, rank 4). -/
def postCube (s : State) (c : Nat) (x : XCmd) (tick phase : Nat) (a : Act) : State :=
  s.post c false { id := 0, tick := tick, phase := phase, rank := 4, src := c, ord := x.acc, act := a }

/-- The state with several items of a cube command posted. -/
def postCubes (c : Nat) (x : XCmd) (phase : Nat) : List (Nat × Act) → State → State
  | [], s => s
  | (t, a) :: as, s => postCubes c x phase as (postCube s c x t phase a)

/-- The commits of the diagonals of a result, and the reads of their old words. -/
def XCmd.diags (x : XCmd) : List (Nat × Nat) :=
  (List.range x.planes).flatMap fun p => (List.range (x.m + x.n - 1)).map fun d => (p, d)

/-- What a command posts at its start: reads (phase 0), and commits whose ticks its shape fixes (phase 1). -/
def XCmd.plan (x : XCmd) : List (Nat × Act) × List (Nat × Act) :=
  match x.kind with
  | 6 => ([(x.start, .cubeRead x.id 0 0)], [(x.start + x.tau, .latch x.id)])
  | 7 => ([], [])
  | 8 => ([], (if x.keepc then [] else (List.range x.m).map fun i => (x.start + i, .zeroRow x.id i)) ++ (if x.side then [(x.start, .side x.id 2)] else []))
  | 9 => ((List.range x.m).map fun i => (x.start + i, .cubeRead x.id 2 i), [])
  | 10 => ([(x.start, .cubeRead x.id 0 0), (x.zTick, .cubeRead x.id 4 0)], [])
  | 11 => ((List.range x.m).map fun i => (x.start + i, .cubeRead x.id 3 i), [])
  | _ => ((x.start, .cubeRead x.id 0 0)
            :: (if x.accumulates then x.diags.map fun e => (x.diagTick e.1 e.2, .cubeRead x.id 1 (128 * e.1 + e.2)) else []),
          x.diags.map fun e => (x.diagTick e.1 e.2, .cubeRes x.id e.1 e.2))

/-- The fault of a command at its start (R398, R412): a layer that is not available, or a latch that does not fit. -/
def startFault (s : State) (c : Nat) (x : XCmd) : Option Flt :=
  let k := s.core c
  let fits (m l : Nat) : Bool := match smFind k.latches l with
    | some h => x.steps m ≤ h.k && x.n ≤ h.n && fmtPair x.afmt h.fmt
    | none => false
  if (x.kind ≤ 6 || x.kind = 10) && Nat.land x.lmask k.lavail ≠ x.lmask then some ⟨8, 1, 0, 0⟩
  else if x.latched && !((List.range x.layers.length).zip x.layers).all (fun e => fits e.1 e.2) then some ⟨3, 0, 0, 0⟩
  else none

/-- What a command on latched weights takes from the latches at its start (R398): their rows, scales and formats. -/
def latchRun (k : Core) (x : XCmd) : XRun :=
  ((List.range x.layers.length).zip x.layers).foldl (fun (r : XRun) (m, l) =>
    match smFind k.latches l with
    | none => r
    | some h =>
      { r with b := h.rows.foldl (fun b e => smSet b (4096 * m + e.1) e.2) r.b,
               sb := h.scales.foldl (fun b e => smSet b (512 * m + e.1) e.2) r.sb, bf := smSet r.bf m h.fmt }) {}

/-- The state after the start of a command that has not faulted (R388, R401): it captures CFMT and the latches, and its reads and writes
are due. -/
def startCube (s : State) (c : Nat) (x : XCmd) : State :=
  let k := s.core c
  if x.kind = 7 then s.modCore c fun k => { k with cfmt := x.fmt, cubes := k.cubes.filter fun y => y.id ≠ x.id }
  else
    let x := { x with started := true, asoff := wfld k.cfmt 17 0, bsoff := wfld k.cfmt 35 18 }
    let s := s.modCube c x.id fun _ => x
    let s := if x.latched then s.modRun c x.id fun _ => latchRun k x else s
    postCubes c x 1 x.plan.2 (postCubes c x 0 x.plan.1 s)

/-! ### Reads -/

/-- The face bytes that a read of a command makes, and whether it reads a side register that an earlier command still has to write: kind 0
a stream step, 1 the old words of a diagonal, 2 a row of a drain, 3 a row of CUBE.RESC, 4 the side registers of CUBE.SCORE. -/
def cubeReads (k : Core) (x : XCmd) (kind u t : Nat) : List Rd × Bool :=
  match kind with
  | 0 => (x.streamReads u, false)
  | 1 => ((diagonal x.m x.n (u % 128)).map fun e => ⟨2, x.wordAt (u / 128) e.1 e.2, 4⟩, false)
  | 2 => ([⟨2, x.caddr + 256 * u, 4 * x.n⟩], false)
  | 3 => ([⟨2, x.daddr + 256 * u, 4 * x.n⟩], sideAwaits k x 4 u t)
  | _ => ([], (List.range x.m).any fun i => sideAwaits k x 2 i t || sideAwaits k x 3 i t)

/-- The plan tick of a read of a command. -/
def XCmd.readTick (x : XCmd) (kind u : Nat) : Nat :=
  match kind with
  | 1 => x.diagTick (u / 128) (u % 128)
  | 4 => x.zTick
  | _ => x.start + u

/-- The words of C that a read takes, by 4096 × plane + 64 × row + column. -/
def takeWords (s : State) (c : Nat) (es : List (Nat × Nat)) (m : SMap HWord) : SMap HWord :=
  es.foldl (fun m e => smSet m e.1 (BitVec.ofNat 32 (faceNat s c 2 e.2 4))) m

/-- The state after a read of a command that has not faulted. -/
def cubeTake (s : State) (c : Nat) (x : XCmd) (kind u : Nat) : State :=
  let k := s.core c
  match kind with
  | 0 =>
    let s := s.modRun c x.id (streamRun s c x u)
    if u + 1 < x.tau then postCube s c x (x.start + u + 1) 0 (.cubeRead x.id 0 (u + 1)) else s
  | 1 =>
    let es := (diagonal x.m x.n (u % 128)).map fun e => (4096 * (u / 128) + 64 * e.1 + e.2, x.wordAt (u / 128) e.1 e.2)
    s.modRun c x.id fun r => { r with old := takeWords s c es r.old }
  | 2 =>
    let es := (List.range x.n).map fun j => (64 * u + j, x.caddr + 256 * u + 4 * j)
    let s := s.modRun c x.id fun r => { r with old := takeWords s c es r.old }
    if u + 1 < x.m then s
    else postCubes c x 1 ((List.range x.pieces.length).map fun q => (x.pieceTick q, .drain x.id q)) s
  | 3 =>
    let al := (smGet {} k.sides u).al
    let off := x.daddr + 256 * u
    let data := (List.range x.n).flatMap fun j => rescWord (BitVec.ofNat 32 (faceNat s c 2 (off + 4 * j) 4)) al
    postCube s c x (x.start + u + 4) 1 (.resc x.id off data)
  | _ =>
    let s := s.modRun c x.id (scoreRun k x)
    postCubes c x 1 ((x.zTick + 10, .side x.id 0) :: (x.zTick + x.n + 16, .side x.id 1)
      :: (List.range x.n).map fun j => (x.zTick + 10 + j, .pline x.id j)) s

/-- The command and the fault of a start or a read that stands on the agenda of a core (R393, R398, R412). -/
def cubeFault (s : State) (c : Nat) (p : Pending) : Option (XCmd × Flt) :=
  let k := s.core c
  match p.act with
  | .cubeStart id => (k.cube id).bind fun x => (startFault s c x).map fun f => (x, f)
  | .cubeRead id kind u => (k.cube id).bind fun x =>
      let t := x.readTick kind u
      let (rs, side) := cubeReads k x kind u t
      (stepFault s c x t rs side).map fun f => (x, f)
  | _ => none

/-- The state after a start or a read that stands on the agenda of a core: a faulted command stays at the head, and the step is made again
at release (R249). -/
def cubeWork (s : State) (c : Nat) (p : Pending) : State :=
  match cubeFault s c p with
  | some (x, f) => engineFault (s.modCube c x.id fun x => { x with faulted := true }) c x.org f
  | none =>
    let s := s.dropItem c false p.id
    match p.act with
    | .cubeStart id => match (s.core c).cube id with
      | some x => startCube s c x
      | none => s
    | .cubeRead id kind u => match (s.core c).cube id with
      | some x => cubeTake s c x kind u
      | none => s
    | _ => s

/-- CUBE_COMMAND_START (R388). A cube command leaves its queue at its start tick and begins to run. -/
def execCubeCommandStart (c id : Nat) (s : State) : Host.Outcome State Fault Refusal :=
  .next <|
    match s.findItem c false id with
    | some p => cubeWork s c p
    | none => s

/-- CUBE_STREAM_STEP (R392). A running command makes the reads of one step, with the operand and poison checks. -/
def execCubeStreamStep (c id : Nat) (s : State) : Host.Outcome State Fault Refusal :=
  .next <|
    match s.findItem c false id with
    | some p => cubeWork s c p
    | none => s

/-! ### Writes -/

/-- The state with words of C written by a command; one whose layer has failed poisons their lines (R412). -/
def writeWords (c : Nat) (bad : Bool) : List (Nat × Nat) → State → State
  | [], s => s
  | (off, v) :: ws, s => writeWords c bad ws (commitFace s c 2 off (leBytes 4 v) bad)

/-- CUBE_RESULT_COMMIT (R397). The elements of a diagonal of a result, or a row of CUBE.ZERO, commit. -/
def execCubeResultCommit (c id : Nat) (s : State) : Host.Outcome State Fault Refusal :=
  .next <|
    match s.findItem c false id with
    | some p =>
      let s := s.dropItem c false id
      let k := s.core c
      match p.act with
      | .cubeRes cmd pl d => match k.cube cmd with
        | some x =>
          let r := k.run cmd
          writeWords c (x.dead ≠ 0) ((diagonal x.m x.n d).map fun e => (x.wordAt pl e.1 e.2, cubeElem x r pl e.1 e.2)) s
        | none => s
      | .zeroRow cmd i => match k.cube cmd with
        | some x => commitFace s c 2 (x.daddr + 256 * i) (List.replicate (4 * x.n) 0) false
        | none => s
      | _ => s
    | none => s

/-- The state with the parts of a drain piece written. -/
def writeParts (c face : Nat) (x : XCmd) (r : XRun) : List (Nat × Nat) → State → State
  | [], s => s
  | (lo, n) :: ps, s => writeParts c face x r ps (commitFace s c face lo ((List.range n).map fun o => drainByte x r (lo + o)) false)

/-- DRAIN_PIECE_COMMIT (R404). A drain piece commits into the destination face. -/
def execDrainPieceCommit (c id : Nat) (s : State) : Host.Outcome State Fault Refusal :=
  .next <|
    match s.findItem c false id with
    | some p =>
      match p.act with
      | .drain cmd q =>
        let s := s.dropItem c false id
        match (s.core c).cube cmd with
        | some x => writeParts c x.dspc x ((s.core c).run cmd) (x.pieces.getD q []) s
        | none => s
      | _ => s
    | none => s

/-- RESCALE_ROW_COMMIT (R405). A CUBE.RESC row is written at the end of t0 + i + 4. -/
def execRescaleRowCommit (c id : Nat) (s : State) : Host.Outcome State Fault Refusal :=
  .next <|
    match s.findItem c false id with
    | some p =>
      match p.act with
      | .resc _ off data => commitFace (s.dropItem c false id) c 2 off data false
      | _ => s
    | none => s

/-- SCORE_P_LINE_COMMIT (R408). A CUBE.SCORE P line commits into an A slice. -/
def execScorePLineCommit (c id : Nat) (s : State) : Host.Outcome State Fault Refusal :=
  .next <|
    match s.findItem c false id with
    | some p =>
      match p.act with
      | .pline cmd j =>
        let s := s.dropItem c false id
        match (s.core c).cube cmd with
        | some x =>
          let r := (s.core c).run cmd
          commitFace s c 0 (x.lineAt j) ((List.range x.m).flatMap fun i => leBytes 2 (smGet 0 r.old (64 * i + j)).toNat) (x.dead ≠ 0)
        | none => s
      | _ => s
    | none => s

/-- The side registers of a row after a write of a command: kind 0 MAX and ALPHA, 1 SUM, 2 the values of CUBE.ZERO. -/
def sideWrite (kind : Nat) (r : XRun) (i : Nat) (d : Side) : Side :=
  match kind with
  | 0 => { d with mx := smGet 0 r.mx i, al := smGet 0 r.al i }
  | 1 => { d with sm := smGet 0 r.sm i }
  | _ => {}

/-- SCORE_SIDE_COMMIT (R408). MAX and ALPHA, then SUM, of the rows of a CUBE.SCORE commit, or the values of a CUBE.ZERO with SIDE. -/
def execScoreSideCommit (c id : Nat) (s : State) : Host.Outcome State Fault Refusal :=
  .next <|
    match s.findItem c false id with
    | some p =>
      match p.act with
      | .side cmd kind =>
        let s := s.dropItem c false id
        match (s.core c).cube cmd with
        | some x => s.modCore c fun k =>
            { k with sides := (List.range x.m).foldl (fun m i => smSet m i (sideWrite kind (k.run cmd) i (smGet {} m i))) k.sides }
        | none => s
      | _ => s
    | none => s

/-- WEIGHT_LATCH_REPLACE (R400). The latch of each layer of the command is replaced at the end of t0 + τw. -/
def execWeightLatchReplace (c id : Nat) (s : State) : Host.Outcome State Fault Refusal :=
  .next <|
    match s.findItem c false id with
    | some p =>
      match p.act with
      | .latch cmd =>
        let s := s.dropItem c false id
        match (s.core c).cube cmd with
        | some x => s.modCore c fun k =>
            let r := k.run cmd
            let rows (m : Nat) : SMap Nat := (List.range x.k).map fun q => (q, smGet 0 r.b (4096 * m + q))
            let scales (m : Nat) : SMap Nat := if x.fp4 then (List.range (x.k / 8)).map fun q => (q, smGet 0 r.sb (512 * m + q)) else []
            { k with latches := ((List.range x.layers.length).zip x.layers).foldl (fun ls e =>
                smSet ls e.2 { fmt := x.bfmt, k := x.k, n := x.n, rows := rows e.1, scales := scales e.1 }) k.latches }
        | none => s
      | _ => s
    | none => s

/-- LAYER_FAILURE (R412). A layer of a core has failed in service: its bit leaves LAVAIL, running commands on it poison what they still write,
and the launch records an uncorrectable error. -/
def execLayerFailure (c layer : Nat) (s : State) : Host.Outcome State Fault Refusal :=
  if c ≥ 384 then .fault (.noSuchUnit c)
  else if layer ≥ 8 then .fault (.noSuchUnit layer)
  else
    let k := s.core c
    let s := s.setCore c
      { k with lavail := if bit k.lavail layer then k.lavail - 2 ^ layer else k.lavail,
               cubes := k.cubes.map fun x => if x.started && bit x.lmask layer then { x with dead := 1 } else x }
    .next (if k.live then s.launchError c 8 1 else s)

end Sys2Proof.Machine
end

