-- ==== Sys2Proof/Machine/MemEvents.lean ====
section
/-!
DEFINITION. The steps of the HBM and its controllers (spec/03_hbm_timeline.md R104, R108, R112 to R135; spec/14_memory_instructions.md
R425 to R431; spec/01_address_spaces.md R47; spec/16_clocks_power_thermal.md R485).
-/
namespace Sys2Proof.Machine

/-! ### Commands -/

/-- TIMELINE_COMMAND_PERFORM (R104). A posted command is presented at its stamp and checked. -/
def execTimelineCommandPerform (c id : Nat) (s : State) : Host.Outcome State Fault Refusal :=
  .next <|
    match (s.core c).tlq.find? fun x => x.id = id with
    | some x => presentCommand s c x
    | none => s

/-- TSV_RESEND (R128). Transfers of a command's next burst fail their parity: the number of those and the lane they name, 63 for none. -/
def execTsvResend (c id fails lane : Nat) (s : State) : Host.Outcome State Fault Refusal :=
  .next <| s.modCore c fun k =>
    { k with tlq := k.tlq.map fun x => if x.id = id then { x with fails := fails, lane := lane } else x }

/-- READ_DELIVERY_COMMIT (R108, R132). A read burst commits its 64 B; a poisoned one is recorded in the launch. -/
def execReadDeliveryCommit (c id : Nat) (s : State) : Host.Outcome State Fault Refusal :=
  .next <|
    match s.findItem c false id with
    | some p =>
      match p.act with
      | .deliver _ face off data poison =>
        let s := commitFace (s.dropItem c false id) c face off data poison
        if poison then s.launchError c 8 0 else s
      | _ => s
    | none => s

/-- WRITE_BURST_VISIBLE (R112, R127, R131). A write burst's data becomes visible in the bank; a poisoned one is stored as poison. -/
def execWriteBurstVisible (c id : Nat) (s : State) : Host.Outcome State Fault Refusal :=
  .next <|
    match s.findItem c false id with
    | some p =>
      match p.act with
      | .visible cell data poison => itemOver ((writeLine (s.dropItem c false id) cell data).rewritten cell poison) p
      | _ => s
    | none => s

/-- The state after one column of an in-memory operation (R124, R127): kind 9 zeroes it, kind 10 copies it through the array ECC. A row of a sealed range passes
the cipher of its lines like any other access (log 91). -/
def memopColumn (kind src dst : Nat) (s : State) (col : Nat) : State :=
  if kind = 9 then (writeLine s (rowCell dst col) (List.replicate 64 0)).rewritten (rowCell dst col) false
  else (writeLine s (rowCell dst col) (readLine s (rowCell src col))).rewritten (rowCell dst col) (s.badBurst (rowCell src col))

/-- IN_MEMORY_OP_COMPLETE (R124). An MZERO or MCOPY has completed. -/
def execInMemoryOpComplete (c id : Nat) (s : State) : Host.Outcome State Fault Refusal :=
  .next <|
    match s.findItem c false id with
    | some p =>
      match p.act with
      | .memop kind src dst _ =>
        itemOver ((List.range 16).foldl (memopColumn kind src dst) (s.dropItem c false id)) p
      | _ => s
    | none => s

/-- MCMP_RESULT_COMMIT (R428). The result of a comparison commits to the C face at stamp + 207. -/
def execMcmpResultCommit (c id : Nat) (s : State) : Host.Outcome State Fault Refusal :=
  .next <|
    match s.findItem c false id with
    | some p =>
      match p.act with
      | .mcmp off val => commitFace (s.dropItem c false id) c 2 off (leBytes 8 val.toNat) false
      | _ => s
    | none => s

/-- LFENCE_SATISFIED (R126). At F the W and M marks of the core's banks in the stack clear. -/
def execLfenceSatisfied (c id : Nat) (s : State) : Host.Outcome State Fault Refusal :=
  .next <|
    match s.findItem c false id with
    | some p =>
      match p.act with
      | .lfence hs => clearMarks (s.dropItem c false id) c hs
      | _ => s
    | none => s

/-! ### Markers (R47, R49, R430, R431) -/

/-- Whether everything ahead of a marker has performed at tick `t` of its core, and its first tick has come. -/
def Marker.due (k : Core) (t : Nat) (m : Marker) : Bool :=
  m.r0 ≤ t && k.task.outst.all fun o => !m.ahead.contains o.id || ((o.mdone.map fun d => decide (d ≤ t)).getD false)

/-- A core without a marker. -/
def Core.unmark (k : Core) (id : Nat) : Core := { k with markers := k.markers.filter fun m => m.id ≠ id }

/-- The MARK of a core that is due at a tick and whose target word stands in a poisoned line, with its fault (R430). -/
def poisonedMark (s : State) (c t : Nat) : Option (Marker × Flt) :=
  ((s.core c).markers.find? fun m => m.inv.isNone && m.due (s.core c) t && (poisonIn s (faceLoc c 2 m.off) 8).isSome).map
    fun m => (m, ⟨8, 2, BitVec.ofNat 64 m.off, 0⟩)

/-- MARK_COMPLETE (R430). The entries ahead have performed: the MARK adds to its target word; at a poisoned one the add waits, and the task faults at the
start of its tick (R520). -/
def execMarkComplete (c id : Nat) (s : State) : Host.Outcome State Fault Refusal :=
  .next <|
    let k := s.core c
    let t := s.tick c false
    match k.markers.find? fun m => m.id = id && m.inv.isNone && m.due k t with
    | none => s
    | some m =>
      let loc := faceLoc c 2 m.off
      if (poisonIn s loc 8).isSome then s
      else
        let s := commitFace s c 2 m.off (leBytes 8 (leNat (readBytes s.mem loc 8) + m.val.toNat)) false
        (s.modCore c fun k => k.unmark id).performed c false m.acc t

/-- TRANSLATION_MARKER_RETIRE (R47). A translation marker retires once every entry ahead of it has performed. -/
def execTranslationMarkerRetire (c id : Nat) (s : State) : Host.Outcome State Fault Refusal :=
  .next <|
    let k := s.core c
    match k.markers.find? fun m => m.id = id && m.due k (s.tick c false) with
    | none => s
    | some m =>
      match m.inv with
      | none => s
      | some inv => retireMarker (s.modCore c fun k => k.unmark id) inv

/-! ### Lent spans and holes (R113 to R118) -/

/-- The member of a pack whose lease has a bank; it keeps it when it retires (R203). -/
def holderOf (s : State) (g hs pc bank : Nat) : Option Nat :=
  (s.pack g).bind fun p => p.members.find? fun c => (s.leasePhys c).contains (hs, pc, bank)

/-- How many ticks the count of a bank's holder stands behind the frame tick of its PC (R115, R145). -/
def behind (s : State) (hs pc bank : Nat) : Int :=
  let g := ((s.hbm hs).pc pc).group
  let shift (c : Option Nat) : Int := (c.map fun c => (s.core c).shift).getD 0
  shift (holderOf s g hs pc bank) - shift (frameLead s g hs pc)

/-- The state with the bank that a frame lends on a PC changed. -/
def modLent (s : State) (hs pc f : Nat) (g : Bank → Bank) : State := s.modBank hs pc ((s.hbm hs).phys pc (f % 64)) g

/-- LENT_SPAN_START (R114). The bank that a frame lends is precharged at the first tick of its span. -/
def execLentSpanStart (hs pc f : Nat) (s : State) : Host.Outcome State Fault Refusal :=
  .next <| modLent s hs pc f fun b => { b with row := none }

/-- LENT_SPAN_END (R114, R118). At the last tick of its span the lent bank is precharged, its timers are satisfied and it counts as refreshed: it awaits no
rescue any more. -/
def execLentSpanEnd (hs pc f : Nat) (s : State) : Host.Outcome State Fault Refusal :=
  .next <|
    let b := (s.hbm hs).phys pc (f % 64)
    let t : Int := ((4096 * f + 4095 : Nat) : Int) - behind s hs pc b
    let s := modLent s hs pc f fun b => { b with row := none, busy := min b.busy t, ref := t }
    s.modHbm hs fun h => { h with rescue := h.rescue.filter (· ≠ (pc, b)) }

/-- The frame tick of a PC (R115): the relative tick of the holder that leads it. -/
def frameTick (s : State) (hs pc : Nat) : Int :=
  match frameLead s ((s.hbm hs).pc pc).group hs pc with
  | some c => (s.rel c).toInt
  | none => 0

/-- The bank and row whose cells a physical bank and row hold (R135): the upper rows of a host are the lower ones of the bank folded onto it. -/
def Hbm.logical (h : Hbm) (pc bank row : Nat) : Nat × Nat :=
  match (List.range 64).find? fun b => (h.bank pc b).fold = some bank with
  | some b => if row ≥ 8192 then (b, row - 8192) else (bank, row)
  | none => (bank, row)

/-- Whether a command of the controller keeps the rules of R105 against the compiled commands before it (R116), and finds the bank free of an in-memory operation; `own`
are its own of the same hole. Stamps count by the frame tick. -/
def ctlClear (s : State) (hs pc op bank : Nat) (stamp : Int) (own : List Pres) : Bool :=
  let h := s.hbm hs
  let hist := match frameLead s (h.pc pc).group hs pc with
    | some c => seen s c hs pc
    | none => (h.pc pc).hist
  (spacing (h.pc pc).half (hist ++ own) op [bank] stamp []).isNone && (bank = 64 || (h.bank pc bank).busy + behind s hs pc bank ≤ stamp)

/-- The state after the rescue refresh of a bank that awaits one (R117, R118), at a stamp. -/
def rescueRefresh (s : State) (hs pc bank : Nat) (stamp : Int) : State :=
  if (s.hbm hs).rescue.contains (pc, bank) then
    (s.modBank hs pc bank fun b => { b with ref := stamp - behind s hs pc bank }).modHbm hs fun h => { h with rescue := h.rescue.filter (· ≠ (pc, bank)) }
  else s

/-- The state after the first directed refresh queued for a bank (R120): it is logged. -/
def directedRefresh (s : State) (hs pc bank stamp : Nat) : State :=
  match (s.hbm hs).drfm.find? fun e => e.1 = pc && e.2.1 = bank with
  | none => s
  | some e => hbmLog (s.modHbm hs fun h => { h with drfm := h.drfm.erase e }) hs pc 9 { bank := bank, row := e.2.2, stamp := stamp }

/-- The state after the patrol scrub of one burst (R117, R127, R128): a corrected one is written back and logged; its transfers are checked like any others. -/
def scrubBurst (stamp cell : Nat) (s : State) : State :=
  let v := s.stored cell
  let pos := logAt cell 511 stamp
  let (f, l, s) := freeFails s 4
  let s := if f = 0 then s else resent s cell (if f ≤ 3 then 2 else 3) { pos with lane := l, resend := min 3 f }
  if v = 0 || f > 3 then s
  else if v > 256 then hbmLog s (locHs cell) (locPc cell) 1 pos
  else
    let (f, l, s) := freeFails s 3
    let (lost, s) := writeTransfer s cell 511 stamp f l
    (hbmLog s (locHs cell) (locPc cell) 10 { pos with symbol := v - 1 }).rewritten cell lost

/-- The state after the verification read of a burst of the retry backlog (R117). -/
def verifyBurst (stamp : Nat) (s : State) (cell : Nat) : State :=
  let s := s.modHbm (locHs cell) fun h => { h with backlog := h.backlog.erase cell }
  let (f, l, s) := freeFails s 4
  (readBurst s cell 511 stamp f l).2.2

/-- The bursts of a stack's retry backlog in a PC, as far as they lie in a physical bank, and in an open row of it. -/
def backlogOf (s : State) (hs pc bank : Nat) : List Nat :=
  (s.hbm hs).backlog.filter fun x => locPc x = pc && (s.hbm hs).phys pc (locBank x) = bank
@[inherit_doc backlogOf] def backlogIn (s : State) (hs pc bank row : Nat) : List Nat :=
  (backlogOf s hs pc bank).filter fun x => (s.hbm hs).physRow pc (locBank x) (locRow x) = row

/-- The state after the column commands of a hole at its stamp + 2 `k`, `k` from 0 to 7, in the bank whose span ends (R116, R117), on the row that the hole before has
opened: the verification reads of the backlog and the patrol scrub of columns 2 `k` and 2 `k` + 1 (log 112). -/
def holeColumns (s : State) (hs pc bank stamp k : Nat) : State :=
  match ((s.hbm hs).bank pc bank).row with
  | none => s
  | some row =>
    if !ctlClear s hs pc 3 bank (stamp + 2 * k : Nat) [] then s
    else
      let s := ((backlogIn s hs pc bank row).filter fun x => locCol x / 2 = k).foldl (verifyBurst stamp) s
      let ix := bankIx pc bank
      if row ≠ smGet 0 (s.hbm hs).scrub ix then s
      else
        let at_ := (s.hbm hs).logical pc bank row
        let s := [2 * k, 2 * k + 1].foldl (fun s col => scrubBurst stamp (mkLoc hs at_.2 at_.1 col pc) s) s
        if k = 7 then s.modHbm hs fun h => { h with scrub := smSet h.scrub ix ((row + 1) % 16384) } else s

/-- The state after the ACT-class command of a hole at its stamp + 16 or + 32, if the rules before the hole allow one (R116, R117, R120): a directed refresh or the
rescue refresh of the bank whose span begins, else at + 16 the activation of its next row to be verified or scrubbed. `stamp` is that of the hole, `off` the place. -/
def holeAct (s : State) (hs pc bank stamp off : Nat) : State :=
  let own : List Pres := if off = 16 then [] else [{ stamp := (stamp + 16 : Nat), op := 7, bank := 64, core := 511 }]
  let h := s.hbm hs
  if !ctlClear s hs pc 8 64 (stamp + off : Nat) own || !ctlClear s hs pc 7 bank (stamp + off : Nat) [] || (h.bank pc bank).row.isSome then s
  else if h.drfm.any fun e => e.1 = pc && e.2.1 = bank then directedRefresh s hs pc bank stamp
  else if h.rescue.contains (pc, bank) then rescueRefresh s hs pc bank (stamp + off : Nat)
  else if off = 16 then
    let row := match backlogOf s hs pc bank with
      | x :: _ => h.physRow pc (locBank x) (locRow x)
      | [] => smGet 0 h.scrub (bankIx pc bank)
    s.modBank hs pc bank fun b => { b with row := some row }
  else s

/-- HOLE_MAINTENANCE (R113, R115 to R117, R129). At the place of a hole to which the frame tick has come the controller makes its queued maintenance: at its first stamp
a pending lane swap, at + 0 to + 14 the column commands in the bank whose span ends, at + 16 and + 32 an ACT-class command in the bank whose span begins (for frame 0, which
has one hole, also in the bank whose span ends), and at + 32 the PRE of the bank whose span ends. In the hole before a REBASE, whose first stamp is −64,
it makes a pending swap alone (R516). -/
def execHoleMaintenance (hs pc f : Nat) (s : State) : Host.Outcome State Fault Refusal :=
  .next <|
    let t := frameTick s hs pc
    let stamp := 4096 * f + 4032
    let out := (s.hbm hs).phys pc (f % 64)
    let into := (s.hbm hs).phys pc ((f + 1) % 64)
    let swapped (s : State) (stamp : Nat) : State := if ((s.hbm hs).pc pc).swap then swapLane s hs pc stamp else s
    let off := (t - stamp).toNat
    if t < stamp || 4096 * f + 4096 ≤ t then swapped s (2 ^ 32 - 64)
    else if off = 16 || off = 32 then
      let first : Bool := f = 0 && (s.hbm hs).drfm.any fun e => e.1 = pc && e.2.1 = out
      let s := if off = 32 then s.modBank hs pc out fun b => { b with row := none } else s
      holeAct s hs pc (if first then out else into) stamp off
    else if off < 16 then holeColumns (if off = 0 then swapped s stamp else s) hs pc out stamp (off / 2)
    else s

/-! ### Refresh (R118, R119, R123) -/

/-- REFRESH_WINDOW_EXPIRE (R118). A bank of a core's lease reaches r + W without a refresh: its task faults REFMISS, and the bank awaits a
rescue refresh. DESIGN CHOICE (log 115): no word has issued this fault, and its FPC and FWORD are 0 (R250). -/
def execRefreshWindowExpire (c hs pc bank : Nat) (s : State) : Host.Outcome State Fault Refusal :=
  .next <|
    let r := ((s.hbm hs).bank pc bank).ref
    let s := s.modHbm hs fun h => { h with rescue := if h.rescue.contains (pc, bank) then h.rescue else h.rescue ++ [(pc, bank)] }
    takeFault s c false (s.tick c false) (faultOf { core := c } 7 4 5 0 (dramAux (r % 2 ^ 32).toNat (s.rel c).toNat))

/-- SAFETY_REFRESH (R123). The wall-time limit refreshes a bank at once and holds the PC's compiled commands until the refresh ends; the refresh counts for the window of
R118 too (log 92). -/
def execSafetyRefresh (hs pc bank : Nat) (s : State) : Host.Outcome State Fault Refusal :=
  .next <|
    let t := frameTick s hs pc
    let s := s.modBank hs pc bank fun b => { b with ref := t - behind s hs pc bank }
    s.modHbm hs fun h => h.modPc pc fun q => { q with hold := s.now + 2880, refreshed := s.now }

/-- The state after the rescue refreshes of a PC of a frozen pack (R117). -/
def rescueAll (s : State) (hs pc : Nat) : State :=
  let t := frameTick s hs pc
  ((s.hbm hs).rescue.filter fun r => r.1 = pc).foldl (fun s r => rescueRefresh s hs pc r.2 t) s

/-- IDLE_PC_REFRESH (R117, R119). The controller refreshes a PC that is not in compiled mode, with the verification reads of its backlog, or the banks of a frozen pack,
those that await a rescue among them. -/
def execIdlePcRefresh (hs pc : Nat) (s : State) : Host.Outcome State Fault Refusal :=
  .next <|
    let q := (s.hbm hs).pc pc
    let frozen : Bool := ((s.pack q.group).bind (·.freeze)).isSome
    let s := if q.mode ≠ 1 then ((s.hbm hs).backlog.filter fun x => locPc x = pc).foldl (verifyBurst 0) s
      else if frozen then rescueAll s hs pc else s
    if q.mode ≠ 1 || frozen then s.modHbm hs fun h => h.modPc pc fun q => { q with refreshed := s.now } else s

/-! ### Counters and temperature (R129, R485) -/

/-- A PC at the end of a retry window (R129): RCNT clears; the lanes named in it stay for a swap that fell due in it. -/
def Pc.clearWindow (q : Pc) : Pc := if q.swap then { q with rcnt := 0, old := some (q.old.getD q.names.length) } else { q with rcnt := 0, names := [], old := none }

/-- RCNT_WINDOW_CLEAR (R129). Each retry counter of a stack clears every 2^22 mt. -/
def execRcntWindowClear (hs : Nat) (s : State) : Host.Outcome State Fault Refusal :=
  .next <|
    let s := s.modHbm hs fun h => { h with pcs := smMap (fun _ (q : Pc) => q.clearWindow) h.pcs }
    s.later (10 * 2 ^ 22) (.rcntWindowClear hs)

/-- The band of a temperature in quarter degrees (R122, log 18), and the lower edge of a band. -/
def bandOf (t : Nat) : Nat := if t ≤ 340 then 0 else if t ≤ 380 then 1 else if t ≤ 420 then 2 else 3
@[inherit_doc bandOf] def bandEdge (b : Nat) : Nat := 300 + 40 * b

/-- A stack after a temperature reading (R485): the band rises at once, and falls by one after eight readings in a row at least 2 °C below its
lower edge; the time since the last reading above band 1 counts towards the return of R486. -/
def Hbm.heated (h : Hbm) (t : Nat) : Hbm :=
  let h := if bandOf t > 1 then { h with coolMs := 0 } else { h with coolMs := h.coolMs + 1 }
  if bandOf t > h.band then { h with band := bandOf t, cold := 0 }
  else if h.band > 0 && t + 8 ≤ bandEdge h.band then
    (if h.cold + 1 ≥ 8 then { h with band := h.band - 1, cold := 0 } else { h with cold := h.cold + 1 })
  else { h with cold := 0 }

/-- The state in which a thermal emergency has begun (R482): the first whistle is due at once. -/
def beginEmergency (s : State) : State :=
  if s.psc.emergency then s
  else (({ s with psc := { s.psc with emergency := true, emCalm := s.now } }).cause 5).later 0 .whistleSend

/-- HBM_TEMPERATURE_READ (R485). A stack's temperature is read, in quarter degrees; band 3 starts a thermal emergency (R486). -/
def execHbmTemperatureRead (hs temp : Nat) (s : State) : Host.Outcome State Fault Refusal :=
  .next <|
    let s := s.modHbm hs (·.heated temp)
    let s := if (s.hbm hs).band = 3 then beginEmergency (s.modHbm hs fun h => { h with hot := true }) else s
    let (t, s) := s.drawAny
    s.later 40960 (.hbmTemperatureRead hs t)

end Sys2Proof.Machine
end

