-- ==== Sys2Proof/Machine/WorkEvents.lean ====
section
/-!
DEFINITION. The steps of the graph walker and of the Shepherd's take and return (spec/06_execution_model.md R210 to R219;
spec/07_dispatch.md R224 to R226; spec/01_address_spaces.md R37, R38, R41; spec/15_sync_system_instructions.md R467).
-/
namespace Sys2Proof.Machine

/-- LAUNCH_END (R210, R212, R214). A launch ends: its record takes its final STATE and its node's out-edges act. -/
def execLaunchEnd (inst node : Nat) (s : State) : Host.Outcome State Fault Refusal := .next (endLaunch s inst node)

/-! ### Ready queues (R219, R225, R226, R242) -/

/-- A node of a live instance. -/
def State.node? (s : State) (inst node : Nat) : Option Node := (s.instance? inst).bind fun i => smFind i.nodes node

/-- Whether a hold keeps a node from being taken, released and aged (R242): none of its packs has been released. -/
def nodeHeld (s : State) (inst node : Nat) : Bool :=
  match s.instance? inst with
  | some i => i.hold && ((smFind i.nodes node).map fun n => n.ran.isEmpty).getD true
  | none => false

/-- WALKER_HELD_PUSH (R225). Nodes that full queues have held back are pushed, in their order, while there is space. -/
def execWalkerHeldPush (s : State) : Host.Outcome State Fault Refusal :=
  .next <|
    let hs := s.walker.held
    hs.foldl (fun s h => pushReady s h.1 h.2 (((s.node? h.1 h.2).map (·.since)).getD s.now))
      { s with walker := { s.walker with held := [] } }

/-- The state with a queue replaced. -/
def setQueue (s : State) (q : Nat) (es : List Ready) : State :=
  { s with walker := { s.walker with queues := smSet s.walker.queues q es } }

/-- The state in which the entries of a queue that have waited a further full 1 ms stand in the next higher one (R225). DESIGN CHOICE (log 120): while that
queue is full, an entry stays where it is, and is tried again 1 µs later. -/
def ageQueue (s : State) (q : Nat) : State :=
  let es := smGet [] s.walker.queues q
  let next := smGet [] s.walker.queues (q + 1)
  let due := es.filter fun e => e.raised + msUnits ≤ s.now && !nodeHeld s e.inst e.node
  let go := due.take (4096 - next.length)
  if due.isEmpty then s
  else
    let up := go.map fun e => { e with raised := e.raised + msUnits }
    let s := setQueue (setQueue s q (es.filter fun e => !go.contains e)) (q + 1) (up.foldl (fun n e => enqueue e n) next)
    let s := up.foldl (fun s e => s.later (e.raised + msUnits - s.now) .readyAging) s
    if go.length < due.length then s.later 18000 .readyAging else s

/-- READY_AGING (R225). An entry that has waited a full 1 ms moves to the next higher queue, up to queue 3. -/
def execReadyAging (s : State) : Host.Outcome State Fault Refusal := .next (wakeHeld (ageQueue (ageQueue (ageQueue s 2) 1) 0))

/-- The head of the highest queue that is not empty, with its queue (R226); entries of held nodes are not taken (R242). -/
def headEntry (s : State) : Option (Nat × Ready) :=
  [3, 2, 1, 0].findSome? fun q =>
    ((smGet [] s.walker.queues q).find? fun e => !nodeHeld s e.inst e.node).map fun e => (q, e)

/-- The packs of a node that have not been claimed. -/
def Node.unclaimed (n : Node) : Nat := n.back.length + (n.packs - n.claimed)

/-- The state after a take: the next 1 to 32 unclaimed packs of the head entry are claimed, which leaves its queue with its last one. A node with no candidate
region stays ready and waits: none of its packs is claimed (R41, log 99). -/
def takeHead (s : State) (n : Nat) : State :=
  match headEntry s with
  | none => s
  | some (q, e) =>
    match s.node? e.inst e.node with
    | none => s
    | some x =>
      let k := min n x.unclaimed
      let y := { x with back := x.back.drop k, claimed := x.claimed + (k - x.back.length), eff := q }
      if x.noPlace then s
      else if y.unclaimed = 0 then
        let s := s.modNode e.inst e.node fun _ => { y with st := .claimed }
        wakeHeld (setQueue s q ((smGet [] s.walker.queues q).filter (· ≠ e)))
      else s.modNode e.inst e.node fun _ => y

/-- SHEPHERD_TAKE (R226). A Shepherd asks for the next 1 to 32 unclaimed packs of the head entry; the takes of a period of the reference are served at its end. -/
def execShepherdTake (die n : Nat) (s : State) : Host.Outcome State Fault Refusal :=
  if die ≥ 4 then .fault (.noSuchUnit die)
  else
    .next <|
      if n = 0 || n > 32 then s
      else
        let w := s.walker
        let s' := { s with walker := { w with takes := insertBy (fun a b => a.1 < b.1) (die, n) w.takes } }
        if w.takes.isEmpty then s'.later ((refPeriod s.now + 1) * 180 - s.now) .takeServe else s'

/-- The takes of a period of the reference are served, in ascending stack index (R226). -/
def serveTakes (s : State) : Host.Outcome State Fault Refusal :=
  .next (s.walker.takes.foldl (fun s x => takeHead s x.2) { s with walker := { s.walker with takes := [] } })

/-- The time for which a node has been waiting as its aging counts it: holds freeze it (R242). -/
def waited (s : State) (inst node : Nat) (n : Node) : Nat :=
  let now := if nodeHeld s inst node then min s.now (((s.instance? inst).map (·.heldAt)).getD s.now) else s.now
  now - n.since - n.frz

/-- The state in which a claimed pack has been returned (R226): its entry stands at the head of its queue with its original ready time. DESIGN CHOICE
(log 116): while that queue is full the walker holds the node, as it holds one that becomes ready (R225). -/
def returnPack (s : State) (inst node pack : Nat) : State :=
  match s.node? inst node with
  | none => s
  | some n =>
    let s := s.modNode inst node fun n => { n with back := insertLine pack n.back, st := .ready }
    let mine (e : Ready) : Bool := e.inst = inst && e.node = node
    match [3, 2, 1, 0].findSome? fun q => ((smGet [] s.walker.queues q).find? mine).map fun e => (q, e) with
    | some (q, e) => setQueue s q (e :: (smGet [] s.walker.queues q).filter (· ≠ e))
    | none =>
      let k := min (3 - n.prio) (waited s inst node n / msUnits)
      let e : Ready := { inst := inst, node := node, since := n.since, raised := n.since + n.frz + k * msUnits }
      let q := smGet [] s.walker.queues (n.prio + k)
      if q.length ≥ 4096 then
        (s.modNode inst node fun n => { n with st := .held }).holdNode inst node
      else
        let s := setQueue s (n.prio + k) (e :: q)
        if n.prio + k < 3 then s.later (e.raised + msUnits - s.now) .readyAging else s

/-- SHEPHERD_RETURN (R226). A Shepherd returns a claimed pack that it cannot place. -/
def execShepherdReturn (die inst node pack : Nat) (s : State) : Host.Outcome State Fault Refusal :=
  if die ≥ 4 then .fault (.noSuchUnit die)
  else
    .next <|
      match s.node? inst node with
      | some n => if n.placeable pack then returnPack s inst node pack else s
      | none => s

/-! ### Window lists (R37, R38, R40, R41) -/

/-- The descriptor of a translation window: its first entry, its count of pages, and whether its other bits are zero (R37). -/
structure Win where
  first : Tlb
  count : Nat
  clean : Bool

/-- The physical address of a word of a window list (R37): through the second-level TLB of the region where it covers the address, else
the address itself (log 16). -/
def listAddr (s : State) (r : Nat) (va : Nat) : Nat :=
  match (s.region r).l2.find? fun e => e.2.covers va with
  | some e => e.2.phys va
  | none => va

/-- A window list as memory holds it. -/
def readWins (s : State) (r va n : Nat) : List Win :=
  (List.range n).map fun k =>
    let w (j : Nat) : Word := readPhys64 s (listAddr s r (va + 32 * k + 8 * j))
    { first := ⟨w 0, w 1⟩, count := wfld (w 2) 31 0, clean := wfld (w 2) 63 32 = 0 && w 3 = 0 }

/-- The entries of a window, valid (R37). -/
def Win.entries (w : Win) : List Tlb :=
  (List.range w.count).map fun k =>
    ⟨BitVec.ofNat 64 (setField (w.first.w0.toNat + k * w.first.pageSize) 10 1 1), w.first.w1 + BitVec.ofNat 64 (k * w.first.pageSize)⟩

/-- Entries checked in list order and added to those before them (R32, R35, R37, R40): the list, or the first failure. -/
def checkEntries (s : State) : List Tlb → List Tlb → Except (Nat × Nat) (List Tlb)
  | acc, [] => .ok acc
  | acc, e :: es =>
    if acc.length ≥ 384 || e.badFormat then .error (6, 4)
    else if e.badColour then .error (7, 0)
    else if acc.any (·.overlaps e) then .error (6, 3)
    else checkEntries s (acc ++ [sealedEntry s e]) es

/-- The entries of a list of windows, or the first failure (R37, R40). -/
def checkWins (s : State) : List Tlb → List Win → Except (Nat × Nat) (List Tlb)
  | acc, [] => .ok acc
  | acc, w :: ws =>
    if w.count = 0 || w.count > 384 || !w.clean || w.first.badFormat then .error (6, 4)
    else
      match checkEntries s acc w.entries with
      | .ok acc => checkWins s acc ws
      | .error f => .error f

/-- The entries of the window list at an address, or the failure of its check. -/
def windowList (s : State) (r va n : Nat) : Except (Nat × Nat) (List Tlb) :=
  if n = 0 || n > 64 then .error (6, 4) else checkWins s [] (readWins s r va n)

/-- The bytes of a window list (R37). -/
def listPieces (s : State) (r va n : Nat) : List (Nat × Nat) := (List.range (min 64 n)).map fun k => (listAddr s r (va + 32 * k), 32)

/-- The window list of a node: its address and its length (R213). -/
def Node.winlist (n : Node) : Nat × Nat := (wfld (n.desc.getD 2 0) 47 0, wfld (n.desc.getD 1 0) 39 32)

/-- The state after the check and fill of one node of an instance, whose list the Shepherd reads (R41): a list that fails ends the node FAILED. -/
def fillNode (s : State) (id : Nat) (x : Nat × Node) : State :=
  if x.2.st ≠ .waiting then s
  else
    let r := regionOf (((s.instance? id).map (·.ccore)).getD 0)
    let list := windowList s r x.2.winlist.1 x.2.winlist.2
    let s := s.noteReads (listPieces s r x.2.winlist.1 x.2.winlist.2)
    match list with
    | .ok es =>
      let s := s.modInst id fun i => { i with entries := i.entries ++ es.filter fun e => !i.entries.contains e }
      fillRegions (s.modNode id x.1 fun n => { n with wins := some es }) id x.1
    | .error f => s.modNode id x.1 fun n => { n with st := .failed, comp := { (n.comp.error s.now 0 f.1 f.2 0) with state := 3 } }

/-- INSTANCE_WINDOW_FILL (R41). The Shepherds have checked an instance's window lists and filled the second-level TLBs: its nodes may become
ready. -/
def execInstanceWindowFill (inst : Nat) (s : State) : Host.Outcome State Fault Refusal :=
  .next <|
    match s.instance? inst with
    | none => s
    | some i =>
      if i.windows then s
      else
        let s := i.nodes.foldl (fun s x => fillNode s inst x) s
        let s := s.modInst inst fun i => { i with windows := true }
        let ended := (((s.instance? inst).map (·.nodes)).getD []).filter fun n =>
          n.2.st = .failed && (smFind i.nodes n.1).map (·.st) = some .waiting
        nodesEnded s inst (ended.map (·.1))

/-! ### Seals (R467) -/

/-- Whether every access that the issuer of a SEAL or UNSEAL made before it has performed, or the issuer has been killed. -/
def sealDue (s : State) (x : SealOp) : Bool :=
  x.orph.isSome ||
  let u := s.tick x.org.core x.org.hd
  (s.thread x.org.core x.org.hd).outst.all fun o => x.gate ≤ o.id || ((o.done.map fun d => decide (d < u)).getD false)

/-- SEAL_COMPLETE (R467). A SEAL or UNSEAL acts on its object and writes its result word; one whose issuer's earlier accesses have not
performed waits. -/
def execSealComplete (s : State) : Host.Outcome State Fault Refusal :=
  .next <|
    match s.walker.seals.find? (sealDue s) with
    | none => if s.walker.seals.isEmpty then s else s.later 5 .sealComplete
    | some x =>
      let s := { s with walker := { s.walker with seals := s.walker.seals.erase x } }
      let (s, code, ix) := if x.undo then unsealObject s x.base else sealObject s x.base
      let c := x.org.core
      let s := commitFace s c 2 x.off (leBytes 8 (2 ^ 32 + code * 2 ^ 16 + ix)) false
      match x.orph with
      | some (inst, node, _) => checkLaunch (s.modNode inst node fun n => { n with outst := n.outst - 1 }) inst node
      | none => s.performed c x.org.hd x.acc (s.tick c x.org.hd)

end Sys2Proof.Machine
end

