-- ==== Sys2Proof/Machine/ShepherdEvents.lean ====
section
/-!
DEFINITION. The steps of the Shepherd and of dispatch (spec/07_dispatch.md R229 to R246; spec/06_execution_model.md R198 to R203, R211;
spec/01_address_spaces.md R39, R40, R43, R46): bind records, preload, release, gating and wake, pre-emption, ballast, energy.
-/
namespace Sys2Proof.Machine

/-! ### Bind records (R229 to R231) -/

/-- Whether a record breaks its format or a limit of a field (R230, R231 code 2). -/
def recBad (s : State) (slot : Nat) (ws : List Word) : Bool :=
  let w (k hi lo : Nat) : Nat := wfld (rWord ws k) hi lo
  ws.length ≠ 8 || w 0 63 63 = 0 || w 0 62 50 ≠ 0 || w 0 20 5 ≠ 0 || w 0 35 21 > 21844 || w 0 4 0 ≠ slot
    || w 1 63 48 ≠ 0 || w 2 63 41 ≠ 0 || w 2 31 24 ≠ 0 || w 2 15 8 ≠ 0 || w 2 40 32 > 383 || w 2 23 16 = 0 || w 2 23 16 > 192
    || w 2 7 0 ≥ w 2 23 16 || w 4 63 20 ≠ 0 || !([1, 2, 4].contains (w 4 19 16)) || w 4 15 12 > 2 || w 4 11 0 ≥ s.leases.length
    || w 5 63 56 ≠ 0 || w 5 55 48 = 0 || w 5 55 48 > 64 || w 6 63 10 ≠ 0 || w 7 63 48 ≠ 0

/-- Whether a record names a node whose launch or instance has been cancelled (R231 code 7). -/
def recCancelled (s : State) (ws : List Word) : Bool :=
  let slot := recInst ws
  (s.walker.insts.any fun e => e.2.slot = slot && ((smFind e.2.nodes (recNode ws)).map (·.cancelled)).getD false)
    || s.walker.ended.any fun e => e.2.1.slot = slot && (e.2.1.cancelled || ((smFind e.2.1.nodes (recNode ws)).map (·.cancelled)).getD false)

/-- The lease entry of a record. -/
def recLease (s : State) (ws : List Word) : LeaseEntry := s.leases.getD (wfld (rWord ws 4) 11 0) {}

/-- The timing class of a bank (R100, R134, R135). DESIGN CHOICE (log 118): a bank of a FOLD pair stays class FOLD in a PC that has fallen to half width (R130). -/
def bankClass (s : State) (hs pc bank : Nat) : Nat :=
  let b := (s.hbm hs).bank pc bank
  if b.fold.isSome || b.host then 2 else if ((s.hbm hs).pc pc).half then 1 else 0

/-- The grouped shared banks of a lease (R174): stack, PC, bank. -/
def groupedBanks (e : LeaseEntry) : List (Nat × Nat × Nat) := (e.shared.filter (·.2.2.2)).map fun b => (b.1, b.2.1, b.2.2.1)

/-- The packs that have ended in the present period of the reference (R235): group and leases by core. -/
def pastPacks (s : State) : List (Nat × List (Nat × LeaseEntry)) :=
  (s.walker.past.filter fun x => refPeriod x.1 = refPeriod s.now).map (·.2)

/-- The leases of the packs that are live, or have ended in the present period of the reference (R235): group, core and entry. -/
def heldLeases (s : State) : List (Nat × Nat × LeaseEntry) :=
  (s.packs.flatMap fun p => p.2.members.map fun m => (p.1, m, (s.core m).lease.entry))
    ++ (pastPacks s).flatMap fun p => p.2.map fun x => (p.1, x.1, x.2)

/-- Whether a lease is refused to a core (R95, R174, R231 code 3): a PC or a grouped bank held by another live pack, a PC with holders in two regions,
another class. -/
def badLease (s : State) (c g : Nat) (e : LeaseEntry) (cls : Nat) : Bool :=
  let banks := leaseBanks c e
  let onPc (d : Nat) (f : LeaseEntry) : Bool := (leaseBanks d f).any fun x => banks.any fun y => x.1 = y.1 && x.2.1 = y.2.1
  (heldLeases s).any (fun p => (p.1 ≠ g || regionOf p.2.1 ≠ regionOf c) && onPc p.2.1 p.2.2)
    || (heldLeases s).any (fun p => p.1 ≠ g && (groupedBanks p.2.2).any (groupedBanks e).contains)
    || ((allRecords s).any fun x => recGroup x.2 = g && regionOf x.1 ≠ regionOf c && onPc x.1 (recLease s x.2))
    || (banks.any fun b => bankClass s b.1 b.2.1 b.2.2 ≠ cls)
    || e.shared.any fun b => bankClass s b.1 b.2.1 b.2.2.1 ≠ cls

/-- Whether a record is refused by what its GROUP already holds (R231 code 5): other records that disagree, or a live pack (R514). -/
def badPack (s : State) (c : Nat) (ws : List Word) : Bool :=
  let g := recGroup ws
  (s.pack g).isSome || (pastPacks s).any (fun p => p.1 = g) || (allRecords s).any fun x => recGroup x.2 = g &&
    (wfld (rWord x.2 2) 23 16 ≠ wfld (rWord ws 2) 23 16 || clusterOf x.1 ≠ clusterOf c || recNode x.2 ≠ recNode ws || recInst x.2 ≠ recInst ws
      || wfld (rWord x.2 2) 7 0 = wfld (rWord ws 2) 7 0 || x.1 = c)

/-- Whether a record of group `a` stands before one of group `b` in a slot. -/
def standsBefore (a b : Nat) : List (List Word) → Bool
  | [] => false
  | r :: q => (recGroup r = a && q.any fun x => recGroup x = b) || standsBefore a b q

/-- Whether a record at the end of a core's slot would cross the order of another pack (R231 code 6). -/
def badOrder (s : State) (c g : Nat) (q : List (List Word)) : Bool :=
  q.any fun x => recGroup x ≠ g && s.regions.any fun r => r.2.slots.any fun p => slotCore r.1 p.1 ≠ c && standsBefore g (recGroup x) p.2

/-- The refusal code of a record write to a core's slot (R231), 0 for none. -/
def recordCode (s : State) (r slot : Nat) (ws : List Word) : Nat :=
  let c := slotCore r slot
  let q := smGet [] (s.region r).slots slot
  let lmask := wfld (rWord ws 6) 7 0
  let lavail := (s.core c).lavail
  if q.length ≥ 4 then 1
  else if recBad s slot ws || ((recordOwner s ws).isNone && !recCancelled s ws) then 2
  else if badLease s c (recGroup ws) (recLease s ws) (wfld (rWord ws 4) 15 12) then 3
  else if lavail = 0 || Nat.land lmask lavail ≠ lmask then 4
  else if badPack s c ws then 5
  else if badOrder s c (recGroup ws) q then 6
  else if (recordOwner s ws).isNone then 7
  else 0

/-- The state with the status register of a region's control block written. -/
def setStatus (s : State) (r v : Nat) : State := s.modRegion r fun k => { k with status := v }

/-- A region that is no longer idle: its hold has ended (R236). -/
def Region.stir (k : Region) : Region :=
  { k with power := match k.power with
      | .idle _ => .awake
      | p => p }

/-- RECORD_WRITE (R231). A bind record is written; its checks are made when word 0 is written, and the status register gives their code. At the head
of its slot it ends the core's ballast (R246), and its preload begins (R232). R231 has no check of the region: a record of a region that is no candidate for its node (R41) is
accepted too (log 99). -/
def execRecordWrite (r slot : Nat) (ws : List Word) (s : State) : Host.Outcome State Fault Refusal :=
  if r ≥ 16 || slot ≥ 24 then .fault (.noSuchUnit r)
  else
    .next <|
      let code := recordCode s r slot ws
      if code ≠ 0 then setStatus s r code
      else
        let s := setStatus s r 0
        let c := slotCore r slot
        let q := smGet [] (s.region r).slots slot
        let s := s.modRegion r fun k =>
          { k.stir with slots := smSet k.slots slot (q ++ [ws]), ballast := if q.isEmpty then k.ballast.filter (· ≠ c) else k.ballast }
        nextPreload (s.trace (stackOf c) 0 c 0 (rWord ws 0)) c

/-- RECORD_WITHDRAW (R234). A record is withdrawn before its preload begins; afterwards the withdrawal is refused with code 8. -/
def execRecordWithdraw (r slot pos : Nat) (s : State) : Host.Outcome State Fault Refusal :=
  if r ≥ 16 || slot ≥ 24 then .fault (.noSuchUnit r)
  else
    .next <|
      let q := smGet [] (s.region r).slots slot
      if pos ≥ q.length then s
      else if pos = 0 && (smFind (s.region r).preload slot).isSome then setStatus s r 8
      else nextPreload ((setStatus s r 0).modRegion r fun k => { k with slots := smSet k.slots slot (q.eraseIdx pos) }) (slotCore r slot)

/-! ### Preload (R39, R40) -/

/-- The state in which the bind of a pack has been stopped (R40): no task of it starts, and its launch's record has the error. -/
def stopBind (s : State) (c : Nat) (ws : List Word) (f : Nat × Nat) : State :=
  let s := clearGroup s (recGroup ws)
  match recordOwner s ws with
  | none => s
  | some id =>
    let size := wfld (rWord ws 2) 23 16
    let s := s.modNode id (recNode ws) fun n =>
      { n with ran := n.packOf (recLtile ws) :: n.ran, comp := { (n.comp.error s.now c f.1 f.2 (recLtile ws)) with remain := n.comp.remain - size } }
    checkLaunch s id (recNode ws)

/-- The entries of a record's window list where its node has brought the list through its check. -/
def passedList (s : State) (ws : List Word) : Option (List Tlb) :=
  ((recordOwner s ws).bind fun id => s.node? id (recNode ws)).bind fun x =>
    if x.winlist = (wfld (rWord ws 5) 47 0, wfld (rWord ws 5) 55 48) then x.wins else none

/-- The entries that the preload of a record copies (R39, R40): for each page of its window list, in list order, the entry of the region's second-level TLB that covers
it. A list that the node has brought through its check is not read again; the entries are held to the rule of overlap. DESIGN CHOICE (log 126): a page of the list that
no entry of the second-level TLB covers any more, after a Shepherd's invalidation, is left out, and the later ones move up. -/
def preloadList (s : State) (r : Nat) (ws : List Word) : Except (Nat × Nat) (List Tlb) :=
  let list : Except (Nat × Nat) (List Tlb) := match passedList s ws with
    | some es => .ok es
    | none => windowList s r (wfld (rWord ws 5) 47 0) (wfld (rWord ws 5) 55 48)
  match list with
  | .ok es => checkEntries s [] (es.filterMap fun e => ((s.region r).l2.find? fun x => x.2.covers e.vbase).map (·.2))
  | .error f => .error f

/-- The state after the reads of a record's window list by its preload. -/
def preloadReads (s : State) (r : Nat) (ws : List Word) : State :=
  if (passedList s ws).isSome then s else s.noteReads (listPieces s r (wfld (rWord ws 5) 47 0) (wfld (rWord ws 5) 55 48))

/-- TLB_PRELOAD (R39, R40). The record at the head of a free core's slot has its window entries loaded into the first-level TLB, four a tick. -/
def execTlbPreload (c : Nat) (s : State) : Host.Outcome State Fault Refusal :=
  .next <|
    let r := regionOf c
    let slot := slotOfCore c
    match (smGet [] (s.region r).slots slot).head? with
    | none => s
    | some ws =>
      if (s.core c).stage ≠ .free || (s.core c).handler.isSome || (smFind (s.region r).preload slot).isSome then s
      else
        match preloadList s r ws with
        | .error f => stopBind (preloadReads s r ws) c ws f
        | .ok es =>
          let s := (preloadReads s r ws).modCore c fun k => { k with tlb := (List.range es.length).zip es, tlbNext := none, tlbNew := [], stage := .bound }
          s.modRegion r fun k => { k with preload := smSet k.preload slot (k.hw.toNat + ceilDiv es.length 4) }

/-! ### Release (R143, R198, R202, R232) -/

/-- Whether a PC has been in idle mode for 1,024 ticks of the region of a core (R137, R232). -/
def pcRested (s : State) (c hs pc : Nat) : Bool :=
  let q := (s.hbm hs).pc pc
  q.mode = 0 && (match q.idleAt[regionOf c % 4]? with
    | some h => decide (h + 1024 ≤ ((s.region (regionOf c)).hw.toNat : Int))
    | none => true)

/-- Whether a pack is ready (R174, R232, R242): every member's record at the head of its slot, its preload ended, its region awake, its PCs idle
long enough and its grouped banks free; the group free, and its node not held. -/
def packReady (s : State) (g : Nat) : Bool :=
  let rs := headRecords s g
  match rs.head? with
  | none => false
  | some x =>
    rs.length = wfld (rWord x.2 2) 23 16 && (s.pack g).isNone && (smFind s.releases g).isNone
      && (match recordOwner s x.2 with
        | some id => !nodeHeld s id (recNode x.2)
        | none => false)
      && rs.all fun y =>
        let r := s.region (regionOf y.1)
        !gatedCore s y.1 && (s.core y.1).handler.isNone
          && ((smFind r.preload (slotOfCore y.1)).map fun h => decide (h ≤ r.hw.toNat)).getD false
          && ((leaseBanks y.1 (recLease s y.2)).all fun b => pcRested s y.1 b.1 b.2.1)
          && s.packs.all fun p => p.2.members.all fun m => !(groupedBanks (s.core m).lease.entry).any (groupedBanks (recLease s y.2)).contains

/-- The root context that a slot of the save area holds (R243, R244): s24 to s31 and the packet after the wait (log 65). -/
def savedRoot (s : State) (slot : Nat) : List Word × Nat :=
  let w (k : Nat) : Word := readPhys64 s (slot + 8 * (Config.savePlace % 4600 + k))
  ((List.range 8).map w, (w 8).toNat)

/-- The registers of a task at its start (R198), those of a restored root context where there is one (R244). -/
def startRegs (ws params : List Word) (saved : Option (List Word × Nat)) : SMap Word :=
  let t (hi lo : Nat) : Word := BitVec.ofNat 64 (wfld (rWord ws 1) hi lo)
  let member : Word := BitVec.ofNat 64 (wfld (rWord ws 2) 7 0)
  let size : Word := BitVec.ofNat 64 (wfld (rWord ws 2) 23 16)
  let lo := (saved.map (·.1)).getD params
  let pairs : List (Nat × Word) := [(1, t 15 0), (2, t 31 16), (3, t 47 32), (4, member), (5, size)]
    ++ (List.range 8).map (fun k => (24 + k, lo.getD k 0)) ++ [(33, BitVec.ofNat 64 (recLtile ws)), (35, member), (36, size)]
    ++ (List.range 8).map fun k => (56 + k, params.getD k 0)
  pairs.foldl (fun m x => smSet m x.1 x.2) []

/-- TASKID of a record's task (R199). -/
def taskId (ws : List Word) : Word :=
  BitVec.ofNat 64 (recNode ws * 2 ^ 50 + recInst ws * 2 ^ 48 + wfld (rWord ws 1) 47 0)

/-- A core whose task starts at the next tick of its region (R71, R143, R198, R410, R461). -/
def Core.started (k : Core) (s : State) (c inst : Nat) (ws params : List Word) (saved : Option (List Word × Nat)) : Core :=
  let start := rWord ws 3
  { k with
    stage := .running
    task := { regs := startRegs ws params saved, pc := (saved.map (·.2)).getD (wfld (rWord ws 0) 35 21),
              ab := (s.region (regionOf c)).hw + 1 - start, next := start.toNat, nid := k.task.nid }
    tbase := start, taskid := taskId ws, packid := rWord ws 2, engfmt := 0, fmtq := [], bundles := 0
    echk := BitVec.ofNat 64 (wfld (rWord ws 6) 8 8), trapen := 0
    lease := { entry := recLease s ws, cls := wfld (rWord ws 4) 15 12, step := wfld (rWord ws 4) 19 16 }
    mrf := [], fifo := [], bypass := [], heel := none, lastExit := start.toNat, waited := saved.isSome, careFrom := none, careNext := none, careReb := none, rebased := false, shift := 0, newBase := none
    tlq := [], lastRow := [], lastCol := [], tlseq := 0, copies := [], copyEnd := 0, copyLast := 0, markers := [], cubes := [], xrun := []
    cubeEnd := 0, cubeLast := 0, latches := [], cfmt := 0, sides := [], pendw := [], atoms := 0, cc := [], fabs := k.fabs
    frozen := none, skip := 0, absorb := 0, lmask := wfld (rWord ws 6) 7 0, snapHold := none, inst := inst, node := recNode ws
    ltile := recLtile ws, bindNchg := (s.region (regionOf c)).gov.nchg, aligned := s.now, links := [] }

/-- The state in which the PCs and the grouped banks of a member's lease serve its group (R95, R97, R137, R174). -/
def claimPcs (s : State) (c g : Nat) : State :=
  let e := (s.core c).lease.entry
  let s := (leaseBanks c e).foldl (fun s b =>
    let s := s.modHbm b.1 fun h => h.modPc b.2.1 fun q => { q with mode := 1, group := g, hist := [] }
    s.modBank b.1 b.2.1 b.2.2 fun k => { k with row := none, ref := 0, busy := 0, wmark := false, mmark := false }) s
  (e.shared.filter (·.2.2.2)).foldl (fun s b => s.modBank b.1 b.2.1 b.2.2.1 fun k => { k with group := some g }) s

/-- The state after the start of one member of a pack. -/
def startMember (inst : Nat) (params : List Word) (saved : Option (List Word × Nat)) (s : State) (x : Nat × List Word) : State :=
  let s := s.modCore x.1 fun k => k.started s x.1 inst x.2 params saved
  let s := if (recLease s x.2).slots.isEmpty then s else s.owes inst
  (claimPcs s x.1 (recGroup x.2)).trace (stackOf x.1) 1 x.1 0 (rWord x.2 3)

/-- The state in which the records of a group at the heads of their slots have been taken. -/
def takeRecords (s : State) (rs : List (Nat × List Word)) : State :=
  rs.foldl (fun s x => s.modRegion (regionOf x.1) fun r =>
    { r with slots := smSet r.slots (slotOfCore x.1) ((smGet [] r.slots (slotOfCore x.1)).drop 1), preload := smErase r.preload (slotOfCore x.1) }) s

/-- PACK_RELEASE (R232). A ready pack is released: every member starts, its TICK and TBASE at START. -/
def execPackRelease (g : Nat) (s : State) : Host.Outcome State Fault Refusal :=
  .next <|
    if (smFind s.releases g).isNone then s
    else
      let s := { s with releases := smErase s.releases g }
      let rs := headRecords s g
      match s.walker.doomed.find? (·.group = g), rs.head? with
      | some d, _ => killDoomed s d
      | none, none => s
      | none, some x =>
        match recordOwner s x.2 with
        | none => clearGroup s g
        | some id =>
          let n := (s.node? id (recNode x.2)).getD {}
          let from_ := if recRestore x.2 then savedFor s id x.2 else none
          let saved := from_.map (savedRoot s)
          let p : Pack := { members := rs.map (·.1), inst := id, node := recNode x.2, epoch := smGet 0 s.epochs g }
          let s := { takeRecords s rs with packs := smSet s.packs g p }
          let s := match from_ with
            | some a => s.noteReads [(a + 8 * (Config.savePlace % 4600), 72)]
            | none => s
          let s := rs.foldl (startMember id n.params saved) (rephase s (rs.map (·.1)))
          let s := match from_ with
            | some a => freeSaved s a
            | none => s
          s.modNode id (recNode x.2) fun n =>
            { n with ran := insertLine (n.packOf (recLtile x.2)) n.ran, comp := { n.comp with state := 1 } }

/-! ### Gating and wake (R236 to R240) -/

/-- The power state of a gateable region, 0 to 15 core regions, 16 to 31 HBM regions; and the state with it changed. -/
def powerOf (s : State) (r : Nat) : Power := if r < 16 then (s.region r).power else (s.hbm (r - 16)).power
@[inherit_doc powerOf] def setPower (s : State) (r : Nat) (p : Power) : State :=
  if r < 16 then s.modRegion r fun k => { k with power := p } else s.modHbm (r - 16) fun h => { h with power := p }

/-- Whether a core region is idle (R236): no record, task, handler or ballast. -/
def regionIdle (s : State) (r : Nat) : Bool :=
  let k := s.region r
  (k.slots.all fun q => q.2.isEmpty) && k.ballast.isEmpty &&
    s.cores.all fun d => regionOf d.1 ≠ r || (d.2.stage = .free && d.2.handler.isNone)

/-- Whether an HBM region may be gated (R237): its PCs all in idle mode and in no lease of the phase. -/
def hbmIdle (s : State) (hs : Nat) : Bool :=
  ((s.hbm hs).pcs.all fun q => q.2.mode = 0) &&
    s.leases.all fun e => (e.slots.all fun x => x.1 ≠ hs % 4) && e.shared.all fun x => x.1 ≠ hs

/-- The state in which the idleness of an HBM region has been looked at (R237): an idle one begins its hold. -/
def lookHbm (s : State) (hs : Nat) : State :=
  match (s.hbm hs).power with
  | .awake => if hbmIdle s hs then setPower s (16 + hs) (.idle s.now) else s
  | .idle _ => if hbmIdle s hs then s else setPower s (16 + hs) .awake
  | _ => s

/-- The cores of a region. -/
def regionCores (r : Nat) : List Nat := (List.range 24).map (slotCore r)

/-- The state in which a region is awake (R237): the preloads that its gating has held up begin. -/
def awaken (s : State) (r : Nat) : State :=
  let s := setPower s r .awake
  if r < 16 then (regionCores r).foldl nextPreload s else lookHbm s (r - 16)

/-- REGION_GATE_BEGIN (R236, R237). A region that has been idle for its hold, an HBM region for 50 µs, begins to gate, which takes 1 µs. -/
def execRegionGateBegin (r : Nat) (s : State) : Host.Outcome State Fault Refusal :=
  if r ≥ 32 then .fault (.noSuchUnit r)
  else
    .next <|
      match powerOf s r with
      | .idle since =>
        if since + (if r < 16 then (s.region r).holdFor else 900000) ≤ s.now && (if r < 16 then regionIdle s r else hbmIdle s (r - 16)) then
          (setPower s r (.gating s.now)).later 18000 (.gatingComplete r)
        else s
      | _ => s

/-- The number of regions that ramp (R238). -/
def ramping (s : State) : Nat := ((List.range 32).filter fun r => powerOf s r = .ramping).length

/-- The state in which the next ramp is due, if the arbiter may grant one (R238). -/
def nextRamp (s : State) : State :=
  match s.ramps with
  | [] => s
  | r :: _ => if ramping s < 2 && powerOf s r = .queued then s.later 0 (.rampStart r) else s

/-- The state in which a gated region has joined the in-rush arbiter's queue. -/
def joinRamps (s : State) (r : Nat) : State := nextRamp { setPower s r .queued with ramps := s.ramps ++ [r] }

/-- A core whose region has lost its supply (R236): faces, matrix registers, FIFOs and delivery stages read zero after wake. -/
def Core.gated (k : Core) : Core := { k with mrf := [], fifo := [], bypass := [], arriving := [], latches := [], sides := [] }

/-- The state in which the faces of a core read zero, its instruction buffer kept. -/
def clearFaces (s : State) (c : Nat) : State :=
  { s with mem := clearRange s.mem (faceLoc c 0 0) (faceLoc c 3 0),
           poison := s.poison.filter fun l => !(faceLoc c 0 0 ≤ l * 64 && l * 64 < faceLoc c 3 0) }

/-- The state after a core has lost its supply. -/
def gateCore (s : State) (c : Nat) : State :=
  (s.core c).arriving.foldl itemOver ((clearFaces s c).modCore c Core.gated)

/-- GATING_COMPLETE (R236, R237). Gating ends; a region whose wake has been requested meanwhile waits for its ramp in its place of the arbiter's queue. -/
def execGatingComplete (r : Nat) (s : State) : Host.Outcome State Fault Refusal :=
  if r ≥ 32 then .fault (.noSuchUnit r)
  else
    .next <|
      match powerOf s r with
      | .gating _ =>
        let s := if r < 16 then (regionCores r).foldl gateCore s else s
        if s.ramps.contains r then nextRamp (setPower s r .queued) else setPower s r .gated
      | _ => s

/-- WAKE_REQUEST (R237, R238). A wake request ends a hold, also one that has ended in the present period of the reference, or joins the arbiter's queue, where a
region that gates waits for the end of that. -/
def execWakeRequest (r : Nat) (s : State) : Host.Outcome State Fault Refusal :=
  if r ≥ 32 then .fault (.noSuchUnit r)
  else
    .next <|
      match powerOf s r with
      | .idle _ => awaken s r
      | .gating since =>
        if refPeriod since = refPeriod s.now then awaken s r
        else if s.psc.tripped || s.ramps.contains r then s else { s with ramps := s.ramps ++ [r] }
      | .gated => if s.psc.tripped then s else joinRamps s r
      | _ => s

/-- GATE_HOLD_OVERRIDE (R227, R228). The firmware lengthens a region's hold, in µs; it never shortens it. -/
def execGateHoldOverride (r time : Nat) (s : State) : Host.Outcome State Fault Refusal :=
  if r ≥ 16 then .fault (.noSuchUnit r)
  else
    .next <|
      let s := s.modRegion r fun k => { k with holdFor := max k.holdFor (time * 18000) }
      match (s.region r).power with
      | .idle since => s.later (since + (s.region r).holdFor - s.now) (.regionGateBegin r)
      | _ => s

/-- RAMP_START (R238). The arbiter grants the first region of its queue a ramp of 12 µs, at most two at once. -/
def execRampStart (r : Nat) (s : State) : Host.Outcome State Fault Refusal :=
  if r ≥ 32 then .fault (.noSuchUnit r)
  else
    .next <|
      if s.ramps.head? = some r && powerOf s r = .queued && ramping s < 2 then
        nextRamp (({ setPower s r .ramping with ramps := s.ramps.drop 1 }).later 216000 (.rampEnd r))
      else s

/-- RAMP_END (R238). The region is awake: the next ramp may begin, and records that wait for it begin their preloads. -/
def execRampEnd (r : Nat) (s : State) : Host.Outcome State Fault Refusal :=
  if r ≥ 32 then .fault (.noSuchUnit r)
  else
    .next <|
      if powerOf s r = .ramping then nextRamp (awaken s r) else s

/-! ### Energy accounts (R245) -/

/-- The state with an energy charge in µJ made: kind 0 to a live instance, 1 to the job, which also takes what an instance that has ended owes, 2 to maintenance
(R245). -/
def charge (s : State) (x : Nat × Nat × Nat) : State :=
  match x.1 with
  | 0 =>
    if (s.instance? x.2.1).isSome then s.modInst x.2.1 fun i => { i with energy := i.energy + x.2.2 }
    else { s with psc := { s.psc with energyJob := s.psc.energyJob + x.2.2 } }
  | 1 => { s with psc := { s.psc with energyJob := s.psc.energyJob + x.2.2 } }
  | _ => { s with psc := { s.psc with energyMaint := s.psc.energyMaint + x.2.2 } }

/-! ### Pre-emption (R242 to R244, R276) -/

/-- The effective priority of a node that a full queue keeps back: PRIO and one for each full 1 ms that it has waited, but for the time of a hold, up to 3 (R219). -/
def agedPrio (s : State) (i : Inst) (n : Node) : Nat :=
  min 3 (n.prio + ((if i.hold then max i.heldAt n.since else s.now) - n.since - n.frz) / msUnits)

/-- The effective priorities of the ready nodes of an instance, those that full queues keep back among them, and those of its nodes that have been taken
and have not ended (R219). -/
def readyPrios (s : State) (inst : Nat) : List Nat :=
  [0, 1, 2, 3].filter fun q => ((smGet [] s.walker.queues q).any fun e => e.inst = inst)
    || s.walker.held.any fun h => h.1 = inst && (match s.instance? h.1, s.node? h.1 h.2 with
      | some i, some n => decide (agedPrio s i n = q)
      | _, _ => false)
@[inherit_doc readyPrios] def runningPrios (i : Inst) : List Nat := (i.nodes.filter fun n => n.2.st = .claimed).map (·.2.eff)

/-- The claimed packs of a node that have neither been released nor returned. -/
def Node.unreleased (n : Node) : List Nat := (List.range n.claimed).filter n.placeable

/-- The state in which the claimed packs of a held node have been returned and its records withdrawn (R242). -/
def unplace (inst : Nat) (s : State) (x : Nat × Node) : State :=
  if x.2.ran.isEmpty && x.2.claimed > 0 && !x.2.st.over then
    let s := (launchGroups s inst x.1).foldl clearGroup s
    (x.2.unreleased.reverse).foldl (fun s p => returnPack s inst x.1 p) s
  else s

/-- The slot of the save area, 36 KiB, that a pre-emption writes, and the state in which it has written there the walker's state of its instance (R243): the first
slot that holds no root context, the bytes free (log 65). -/
def takeSlot (s : State) : Nat × State :=
  match s.psc.saveArea with
  | none => (0, s)
  | some area =>
    let used (k : Nat) : Bool := (s.walker.insts.any fun i => i.2.saved = some (area + 36864 * k)) || s.walker.kept.any fun x => x.2 = area + 36864 * k
    let slot := area + 36864 * (((List.range 257).find? fun k => !used k).getD 0)
    let t := writePhys { s with fresh := s.fresh + 1 } slot ((List.range 4608).flatMap fun j => leBytes 8 (Config.saveWord s.fresh j).toNat)
    (slot, t.noteWrites [(slot, 36864)])

/-- The state in which the root context of a held instance has been saved and its core freed, where it waits in the yielding form (R243). -/
def saveRoot (s : State) (inst : Nat) : State :=
  match s.instance? inst with
  | none => s
  | some i =>
    let k := s.core i.ccore
    let away := (takeSlot s).2
    let waits : Bool := match k.task.wait with
      | some (.inst _ h yield) => yield && h = i.handle
      | _ => false
    match s.pack k.group with
    | none => away
    | some p =>
      if i.creator = some (k.inst, k.node, k.ltile) && k.live && waits && k.frozen.isNone && p.members = [i.ccore] && s.psc.saveArea.isSome then
        let (slot, s) := takeSlot s
        let ctx := ((List.range 8).map fun j => k.task.reg (24 + j)) ++ [BitVec.ofNat 64 k.task.rpc]
        let s := (writePhys s (slot + 8 * (Config.savePlace % 4600)) (ctx.flatMap fun w => leBytes 8 w.toNat)).noteWrites [(slot + 8 * (Config.savePlace % 4600), 72)]
        let s := s.modInst inst fun i => { i with saved := some slot }
        endPack (s.modCore i.ccore fun k => { k with stage := .over }) k.group
      else away

/-- PREEMPT (R242, R243, R245). A victim instance is held for a claimant of strictly higher effective priority, and its state saved; the energy of it, free (log 5), is
charged to the claimant. -/
def execPreempt (victim claimant : Nat) (s : State) : Host.Outcome State Fault Refusal :=
  .next <|
    match s.instance? victim, (readyPrios s claimant).getLast? with
    | some v, some q =>
      if victim = claimant || v.hold || (readyPrios s victim ++ runningPrios v).any fun p => q ≤ p then s
      else
        let s := s.modInst victim fun i => { i with hold := true, heldAt := s.now, claimant := some claimant }
        let (j, s) := s.drawAny
        charge (saveRoot (v.nodes.foldl (unplace victim) s) victim) (0, claimant, j)
    | _, _ => s

/-- RESTORE (R244, R245). The hold of an instance is lifted, and the aging of its ready nodes resumes, by the time for which it has been frozen. -/
def execRestore (inst : Nat) (s : State) : Host.Outcome State Fault Refusal :=
  .next <|
    match s.instance? inst with
    | none => s
    | some i =>
      if !i.hold then s
      else
        let held (since : Nat) : Nat := s.now - max i.heldAt since
        let mine (e : Ready) : Bool := e.inst = inst && nodeHeld s inst e.node
        let moved (e : Ready) : Ready := if mine e then { e with raised := e.raised + held e.since } else e
        let due := s.walker.queues.flatMap fun q => if q.1 < 3 then (q.2.filter mine).map moved else []
        let s' := { s with walker := { s.walker with queues := smMap (fun _ (q : List Ready) => q.map moved) s.walker.queues } }
        let s' := s'.modInst inst fun i => { i with hold := false, nodes := smMap (fun n (x : Node) =>
          if nodeHeld s inst n && (x.st = .ready || x.st = .held || x.st = .claimed) then { x with frz := x.frz + held x.since } else x) i.nodes }
        let (j, s') := s'.drawAny
        charge (due.foldl (fun s e => s.later (e.raised + msUnits - s.now) .readyAging) s') (0, i.claimant.getD inst, j)

/-! ### Ballast, cancels, TLBs, energy (R42, R43, R46, R211, R245, R246) -/

/-- The state in which ballast on a core runs for one of the live instances (R245): whose placement change has called for it, the firmware knows, and is free (log 5). -/
def ballastFor (s : State) (c : Nat) : State :=
  let is := s.walker.insts.map (·.1)
  let (k, s) := s.draw (is.length - 1)
  match is[k]? with
  | some i => { s with walker := { s.walker with ballastOf := smSet s.walker.ballastOf c i } }.owes i
  | none => s

/-- PLACE_BALLAST (R245, R246). Ballast runs on a core that holds no record, for the instance whose placement change calls for it, and steps down within 8 µs. -/
def execPlaceBallast (c : Nat) (s : State) : Host.Outcome State Fault Refusal :=
  if c ≥ 384 then .fault (.noSuchUnit c)
  else
    .next <|
      let r := regionOf c
      let k := s.core c
      if !(smGet [] (s.region r).slots (slotOfCore c)).isEmpty || k.stage ≠ .free || k.handler.isSome || gatedCore s c then s
      else ((ballastFor s c).modRegion r fun q => { q.stir with ballast := insertLine c q.ballast }).later 144000 (.ballastStepDownEnd c)

/-- BALLAST_STEP_DOWN_END (R246). Ballast on a core has stepped down and stops. -/
def execBallastStepDownEnd (c : Nat) (s : State) : Host.Outcome State Fault Refusal :=
  .next (s.modRegion (regionOf c) fun r => { r with ballast := r.ballast.filter (· ≠ c) })

/-- SHEPHERD_CANCEL (R211). The Shepherd cancels a launch (level 0), an instance (1), the phase (2) or the job (3). -/
def execShepherdCancel (level inst node : Nat) (s : State) : Host.Outcome State Fault Refusal :=
  .next <|
    match level with
    | 0 => cancelNode s inst node
    | 1 => cancelInst 257 s inst
    | 2 => (s.walker.insts.map (·.1)).foldl (cancelInst 257) s
    | _ => cancelJob s

/-- SHEPHERD_TLB_WRITE (R43). The firmware writes an entry of a core's first-level TLB, or of its region's second-level one, which may take an old entry away (R41); a refusal is not made and is
reported in the status register as CODE × 256 + CAUSE. -/
def execShepherdTlbWrite (c idx : Nat) (second : Bool) (w0 w1 : Word) (s : State) : Host.Outcome State Fault Refusal :=
  if c ≥ 384 then .fault (.noSuchUnit c)
  else
    .next <|
      let r := regionOf c
      if second then
        match tlbFill s (s.region r).l2 8192 idx ⟨w0, w1⟩ with
        | .ok t => lostEntries ((setStatus s r 0).modRegion r fun k => { k with l2 := t }) r
        | .error f => setStatus s r (f.1 * 256 + f.2)
      else
        match (s.core c).fillTlb s idx ⟨w0, w1⟩ with
        | .ok k => (setStatus s r 0).setCore c k
        | .error f => setStatus s r (f.1 * 256 + f.2)

/-- SHEPHERD_TLB_INVALIDATE (R46, R47). The firmware invalidates entries of some cores and of the second-level TLBs of their regions (R41); a refused one
is reported in the status registers. -/
def execShepherdTlbInvalidate (cs : List Nat) (all : Bool) (va len : Nat) (s : State) : Host.Outcome State Fault Refusal :=
  match cs.find? (384 ≤ ·) with
  | some c => .fault (.noSuchUnit c)
  | none =>
    .next <|
      let rs := (cs.map regionOf).eraseDups
      match invalidate s cs all va len 0 none with
      | none => rs.foldl (fun s r => setStatus s r (12 * 256 + 3)) s
      | some s => rs.foldl (fun s r => lostEntries (s.modRegion r fun k => { k with status := 0, l2 := tlbDrop k.l2 all va len }) r) s

/-- The charges of the core-rail energy `e` of a region in an interval (R245): to each instance in proportion to the core-ticks that its tasks and handlers
occupied, the rest to the job. -/
def railCharges (r : Region) (e : Nat) : List (Nat × Nat × Nat) :=
  let parts := r.occ.map fun x => (0, x.1, e * x.2 / max 1 (24 * r.ticks))
  parts ++ [(1, 0, e - (parts.map (·.2.2)).foldl (· + ·) 0)]

/-- The state after the core rails of the 16 regions have been charged for an interval, each with a free energy (log 5), and the next one begins. -/
def chargeRails (s : State) : State :=
  (List.range 16).foldl (fun s r =>
    let (e, s) := s.drawAny
    ((railCharges (s.region r) e).foldl charge s).modRegion r fun k => { k with ticks := 0, occ := [] }) s

/-- Free charges of some accounts (R245, log 5). -/
def freeCharges (s : State) (ks : List (Nat × Nat)) : List (Nat × Nat × Nat) × State :=
  ks.foldl (fun (a : List (Nat × Nat × Nat) × State) k =>
    let (v, s) := a.2.drawAny
    (a.1 ++ [(k.1, k.2, v)], s)) ([], s)

/-- The instances that owe energy from the beginning of an interval on (R245): those whose packs lease PCs, and those that ballast runs for. -/
def owingNow (s : State) : List Nat :=
  ((s.packs.filter fun p => p.2.members.any fun m => !(s.core m).lease.entry.slots.isEmpty).map (·.2.inst)
    ++ (s.walker.ballastOf.filter fun x => (s.region (regionOf x.1)).ballast.contains x.1).map (·.2)).eraseDups

/-- The state after the instances have paid, free amounts, for the compiled commands of their packs, their atomics and their ballast (R245). -/
def chargeOwing (s : State) : State :=
  let (mine, s) := freeCharges s (s.walker.owing.map fun i => (0, i))
  let s := mine.foldl charge s
  { s with walker := { s.walker with owing := owingNow s } }

/-- ENERGY_INTERVAL (R245). The energy of 1 µs is charged to its accounts: that of the core rails by occupied core-ticks; that of PCs, atomic units and ballast to the instances that
owe it; and the charges of the rest, those of wakes, gating, bias changes and host atomics to the job, those of upkeep to maintenance. -/
def execEnergyInterval (charges : List (Nat × Nat × Nat)) (s : State) : Host.Outcome State Fault Refusal :=
  .next <|
    let (next, s) := freeCharges (chargeOwing (chargeRails (charges.foldl charge s))) [(1, 0), (2, 0)]
    s.later 18000 (.energyInterval next)

end Sys2Proof.Machine
end

