-- ==== Sys2Proof/Machine/AlignEvents.lean ====
section
/-!
DEFINITION. The steps of the clocks and of the alignment network (spec/04_time_and_alignment.md R139 to R163; spec/06_execution_model.md R203,
R208, R209).
-/
namespace Sys2Proof.Machine

/-! ### Step domains (R141) -/

/-- FLOOR of a core region (R142, R478). -/
def Region.floor (r : Region) : Nat := if r.reverse then 10 else 8

/-- The regions of the packs, of those whose release is due, and of the groups `gs`, one list for each. -/
def packRegions (s : State) (gs : List Nat) : List (List Nat) :=
  (s.packs.map fun p => p.2.members.map regionOf) ++ (s.releases.map (·.1) ++ gs).map fun g => (headRecords s g).map fun x => regionOf x.1

/-- The regions that the packs with a member in a set of regions reach. -/
def joined (s : State) (gs rs : List Nat) : List Nat :=
  ((packRegions s gs).flatMap fun own => if own.any rs.contains then own else []).foldl (fun rs r => if rs.contains r then rs else insertLine r rs) rs

/-- The regions reached from some regions through the packs, in ascending order; those of one are its step domain (R141). -/
def reached (s : State) (gs rs : List Nat) : List Nat := (List.range 16).foldl (fun rs _ => joined s gs rs) rs
@[inherit_doc reached] def domainOf (s : State) (r : Nat) : List Nat := reached s [] [r]

/-- The state in which a region's next step is in force, its pattern from the start of a group of 16 periods; a change of it is traced (R141, R481,
R507). -/
def applyStep (s : State) (r : Nat) : State :=
  match (s.region r).nextStep with
  | none => s
  | some m =>
    let old := (s.region r).step
    if old = m then s.modRegion r fun k => { k with nextStep := none, phase := 0 }
    else
      let mask := (domainOf s r).foldl (fun n d => n + 2 ^ d) 0
      let s := s.modRegion r fun k => { k with step := m, nextStep := none, phase := 0, gov := { k.gov with nchg := (k.gov.nchg + 1) % 256 } }
      let s := { s with psc := { s.psc with muzzle := s.psc.muzzle ++ [(s.now, r, old, m)] } }
      s.trace (r / 4) 5 511 0 (BitVec.ofNat 64 (mask * 2 ^ 16 + old * 2 ^ 8 + m))

/-- The state in which the domains that the pack of a group will join hold one step and one pattern (R141, log 95): the least of their steps, in force at the
publication instant that finds the pack ready; `gs` are the groups that are ready with it. -/
def unifySteps (gs : List Nat) (s : State) (g : Nat) : State :=
  let rs := reached s gs ((headRecords s g).foldl (fun rs x => if rs.contains (regionOf x.1) then rs else insertLine (regionOf x.1) rs) [])
  let step (r : Nat) : Nat := (s.region r).nextStep.getD (s.region r).step
  let m := (rs.map step).foldl min 16
  let phase := ((rs.head?).map fun r => (s.region r).phase).getD 0
  if rs.all fun r => (s.region r).step = m && (s.region r).nextStep.isNone && (s.region r).phase = phase then s
  else rs.foldl applyStep (rs.foldl (fun s r => s.modRegion r fun k => { k with nextStep := some m }) s)

/-! ### Clocks (R139, R140, R160 to R163) -/

/-- The live packs with a member in a core region, and those with a lease on an HBM stack. -/
def packsIn (s : State) (r : Nat) : List (Nat × Pack) := s.packs.filter fun p => p.2.members.any fun c => regionOf c = r
@[inherit_doc packsIn] def packsOn (s : State) (hs : Nat) : List (Nat × Pack) :=
  s.packs.filter fun p => p.2.members.any fun c => (leaseBanks c (s.core c).lease.entry).any fun b => b.1 = hs

/-- The state with a clock event traced (R163, R507): a record for each pack that it affects, or one with RTICK zero where it affects none. ARG holds the region's
count, zero where it has none, and RTICK is that of the pack's first member (log 96). -/
def traceClock (s : State) (stack : Nat) (hw : Word) (ps : List (Nat × Pack)) : State :=
  let rels := ps.filterMap fun p => (p.2.members.head?).map s.rel
  (if rels.isEmpty then [0] else rels).foldl (fun s rel => s.trace stack 7 511 rel hw) s

/-- DROOP_STRETCH (R140, R161). The droop monitor of a core region stretches its present period; one within 512 ticks of the previous one sets
DROOPOVR. -/
def execDroopStretch (r : Nat) (s : State) : Host.Outcome State Fault Refusal :=
  if r ≥ 16 then .fault (.noSuchUnit r)
  else
    .next <|
      let k := s.region r
      let hw := k.hw.toNat
      let early : Bool := match k.lastStr with
        | some h => hw < h + 512
        | none => false
      let s := s.setRegion r { k with
        edge := k.edge + k.period, nstretch := (k.nstretch + 1) % 2 ^ 16, lastStr := some hw
        droopovr := k.droopovr || early, breach := if early then some s.now else k.breach }
      if early then traceClock s (r / 4) k.hw (packsIn s r) else s

/-- The state in which an HBM region has lost the reference (R162). -/
def loseHbm (s : State) (hs : Nat) : State :=
  traceClock (s.modHbm hs fun h => { h with lock := false, freerun := true }) (hs / 4) 0 (packsOn s hs)

/-- REFERENCE_LOST (R160, R162). A core region, an HBM region or the fabric region loses the reference and sets FREERUN. -/
def execReferenceLost (r : Nat) (s : State) : Host.Outcome State Fault Refusal :=
  if r > 32 then .fault (.noSuchUnit r)
  else
    .next <|
      if r < 16 then
        let s' := s.modRegion r fun k => { k with lock := false, freerun := true, lost := some s.now }
        traceClock s' (r / 4) (s.region r).hw (packsIn s r)
      else if r < 32 then loseHbm s (r - 16)
      else traceClock { s with psc := { s.psc with clkFab := 2 } } 0 0 []

/-- HBM_REFERENCE_LOST (R162). An HBM region loses the reference: its controller holds every compiled command. -/
def execHbmReferenceLost (hs : Nat) (s : State) : Host.Outcome State Fault Refusal :=
  if hs ≥ 16 then .fault (.noSuchUnit hs) else .next (loseHbm s hs)

/-- REFERENCE_RELOCK (R160, R162). A region is locked to the reference again; its sticky bits stay. -/
def execReferenceRelock (r : Nat) (s : State) : Host.Outcome State Fault Refusal :=
  if r > 32 then .fault (.noSuchUnit r)
  else
    .next <|
      if r < 16 then s.modRegion r (·.locked)
      else if r < 32 then s.modHbm (r - 16) fun h => { h with lock := true }
      else { s with psc := { s.psc with clkFab := Nat.lor s.psc.clkFab 1 } }

/-! ### Snapshots (R147, R148, R149) -/

/-- The relative target of a HEEL at which a core holds. -/
def holdsAt (s : State) (c : Nat) : Option Nat :=
  match (s.core c).heel with
  | some h => if h.holds && h.released.isNone then some (BitVec.ofNat 64 h.target - (s.core c).tbase).toNat else none
  | none => none

/-- A core as a snapshot shows it. -/
def snapCore (s : State) (c : Nat) (k : Core) : Core := { k with snapRel := (s.rel c).toNat, snapHold := holdsAt s c }

/-- Whether the last snapshot shows that a member breaks the HEEL of a member that holds at `t` (R149): it is past `t` and does not hold, or
holds at another target. -/
def breaks (s : State) (t m : Nat) : Bool :=
  match (s.core m).snapHold with
  | some u => u ≠ t
  | none => (BitVec.ofNat 64 t).toInt < (BitVec.ofNat 64 (s.core m).snapRel).toInt

/-- Whether the last snapshot shows every live member of a pack holding at one target (R148, R203). -/
def allArrived (s : State) (p : Pack) : Bool :=
  match ((s.liveMembers p).head?).bind fun c => (s.core c).snapHold with
  | some t => (s.liveMembers p).all fun m => (s.core m).snapHold = some t
  | none => false

/-- The members of a pack that hold at a target which some member breaks. -/
def missed (s : State) (p : Pack) : List Nat :=
  (s.liveMembers p).filter fun c => match (s.core c).snapHold with
    | some t => (s.liveMembers p).any fun m => breaks s t m
    | none => false

/-- The grouped shared banks that the head records of a group lease (R174). -/
def groupShared (s : State) (g : Nat) : List (Nat × Nat × Nat) := (headRecords s g).flatMap fun x => groupedBanks (recLease s x.2)

/-- The PCs that the head records of a group lease. -/
def groupPcs (s : State) (g : Nat) : List (Nat × Nat) :=
  (headRecords s g).flatMap fun x => (leaseBanks x.1 (recLease s x.2)).map fun b => (b.1, b.2.1)

/-- Whether the release of a group puts the cores of no two packs on one PC, nor on one grouped bank, beside those already chosen for release (R95, R174). -/
def agree (s : State) (gs : List Nat) (g : Nat) : Bool := gs.all fun f =>
  ((groupPcs s f).all fun q => !(groupPcs s g).contains q) && (groupShared s f).all fun b => !(groupShared s g).contains b

/-- SNAPSHOT_PUBLISH (R147, R148, R232). The alignment network publishes a snapshot of every core; each pack whose HEEL it completes or breaks, and
each pack that is ready for its start, is released 16 network periods later. -/
def execSnapshotPublish (s : State) : Host.Outcome State Fault Refusal :=
  .next <|
    let s' := { s with cores := smMap (snapCore s) s.cores }
    let due := s'.packs.filter fun p => p.2.freeze.isNone && (allArrived s' p.2 || !(missed s' p.2).isEmpty)
    let s' := due.foldl (fun s p => s.later 80 (.heelRelease p.1)) s'
    let heads := s'.regions.flatMap fun r => r.2.slots.filterMap fun q => (q.2.head?).map recGroup
    let ready := (heads.eraseDups.filter (packReady s')).foldl (fun gs g => if agree s' gs g then gs ++ [g] else gs) []
    let s' := ready.foldl (unifySteps ready) s'
    let s' := ready.foldl (fun s g => ({ s with releases := smSet s.releases g (s.now + 80) }).later 80 (.packRelease g)) s'
    s'.later 320 .snapshotPublish

/-! ### HEEL (R148 to R150, R208, R209) -/

/-- The fault of a member at its HEEL target (R149, R160, R161): NOREF when its region has lost the reference, else DRIFT after a stretch that
breached R140, since the member's last alignment event. At a retry NOREF stands until the region is relocked and the flag cleared, DRIFT until its flag is cleared; a
region without the reference faults NOREF whenever it was lost (log 93). -/
def heelFault (s : State) (c : Nat) (tried : Bool) : Option Nat :=
  let r := s.region (regionOf c)
  let since (t : Option Nat) : Bool := (t.map fun t => decide ((s.core c).aligned ≤ t)).getD false
  if !r.lock || (since r.lost && (!tried || r.freerun)) then some 6
  else if since r.breach && (!tried || r.droopovr) then some 5 else none

/-- The fault that a HEEL raises at its target, recorded with SRC 5 and the HEEL word (R149). -/
def heelRec (h : Heel) (cause : Nat) : FaultRec := { code := 3, cause := cause, src := 5, fpc := h.fpc, fword := h.fword }

/-- HEEL_ARRIVE (R148, R149). TICK reaches the target: the core faults, or holds. -/
def execHeelArrive (c : Nat) (s : State) : Host.Outcome State Fault Refusal :=
  .next <|
    match (s.core c).heel with
    | none => s
    | some h =>
      if h.holds || s.tick c false ≠ h.target then s
      else
        match heelFault s c h.tried with
        | some cause => takeFault (s.modCore c fun k => { k with heel := some { h with tried := true } }) c false h.target (heelRec h cause)
        | none => s.modCore c fun k => { k with heel := some { h with holds := true } }

/-- The state in which the relative ticks of a pack's members agree again, at the release of their HEEL (R115, R148): what a retired member has presented stands as the first
live one counts (DESIGN CHOICE, log 125). -/
def aligned (s : State) (p : Pack) : State :=
  let first := (((s.liveMembers p).head?).map fun c => (s.core c).shift).getD 0
  p.members.foldl (fun s m => s.modCore m fun k => { k with shift := if k.live then 0 else k.shift - first }) s

/-- The state in which a holding member has been released. -/
def releaseMember (s : State) (c : Nat) : State :=
  match (s.core c).heel with
  | some h =>
    let s' := s.modCore c fun k => { k with heel := some { h with released := some s.now }, aligned := s.now }
    s'.trace (stackOf c) 2 c (BitVec.ofNat 64 h.target - (s.core c).tbase) 0
  | none => s

/-- The state in which a holding member has faulted HEELMISS (R149); its target stays pending and it holds there again after release. -/
def missMember (s : State) (c : Nat) : State :=
  match (s.core c).heel with
  | some h =>
    takeFault (s.modCore c fun k => { k with heel := some { h with holds := false } }) c false h.target (heelRec h 7)
  | none => s

/-- HEEL_RELEASE (R148, R149). Every member is released from the target at which the snapshot showed them all; else those whose HEEL it broke fault
HEELMISS. A freeze leaves the HEEL pending. -/
def execHeelRelease (g : Nat) (s : State) : Host.Outcome State Fault Refusal :=
  .next <|
    match s.pack g with
    | none => s
    | some p =>
      let holding (c : Nat) : Bool := (s.core c).snapHold.isSome && holdsAt s c = (s.core c).snapHold
      if p.freeze.isSome then s
      else if allArrived s p then
        let cs := (s.liveMembers p).filter holding
        cs.foldl releaseMember (if cs.isEmpty then s else rephase (aligned s p) cs)
      else ((missed s p).filter holding).foldl missMember s

/-- The commands of a core noted on a PC, after its care has ended (R121, R209): its own activations count only for the budget. -/
def careHist (c : Nat) (hist : List Pres) : List Pres :=
  hist.filterMap fun p => if p.core ≠ c then some p else if p.op = 0 || p.op = 13 then some { p with op := 13 } else none

/-- The state in which the banks of a core's exclusive lease have come back from the controller's care (R209). -/
def endCare (s : State) (c : Nat) : State :=
  let k := s.core c
  let banks := leaseBanks c k.lease.entry
  let t := (s.rel c).toInt
  let s := s.modLease c fun x => { x with row := none, ref := t, busy := t }
  ((banks.map fun b => (b.1, b.2.1)).eraseDups).foldl (fun s q =>
    s.modHbm q.1 fun h => h.modPc q.2 fun x => { x with hist := careHist c x.hist }) s

/-- HEEL_EXIT (R148, R150, R208, R209). At T + 24 issue resumes; the first HEEL issued after an unbounded wait ends the guard and the care that the wait
began; those of a later wait that has begun meanwhile go on. -/
def execHeelExit (c : Nat) (s : State) : Host.Outcome State Fault Refusal :=
  .next <|
    let k := s.core c
    match k.heel with
    | none => s
    | some h =>
      if h.released.isNone || s.tick c false < h.target + 24 then s
      else
        let s := s.modCore c fun k => { k with heel := none, lastExit := h.target + 24, task := { k.task with next := max k.task.next (h.target + 24), seq := false } }
        if !h.fresh then s
        else
          let s := if k.careFrom.isSome then endCare s c else s
          s.modCore c fun k =>
            { k with waited := k.careNext.isSome, careFrom := k.careNext, careNext := none, careReb := if k.careNext.isSome then k.careReb else none }

end Sys2Proof.Machine
end

