-- ==== Sys2Proof/Machine/FreezeEvents.lean ====
section
/-!
DEFINITION. The steps of a freeze (spec/08_faults.md R249 to R256, R258, R259, R262 to R265, R269 to R272): the notice, the stop of a member, the kennel,
the release of a resumed pack, the kill by the firmware.
-/
namespace Sys2Proof.Machine

/-- FREEZE_NOTICE_ARRIVE (R251). The freeze notice reaches the members of the pack. -/
def execFreezeNoticeArrive (g : Nat) (s : State) : Host.Outcome State Fault Refusal :=
  .next (s.modPack g fun p => { p with freeze := p.freeze.map fun z => { z with noticed := true } })

/-- Whether a member that runs stops at its present tick (R251 rule 1, R252, R253). -/
def stopsNow (s : State) (c : Nat) : Bool :=
  let k := s.core c
  match (s.pack k.group).bind (·.freeze) with
  | none => false
  | some z =>
    let bound := (BitVec.ofNat 64 (z.phi + 20)).toInt
    k.live && k.frozen.isNone &&
      ((s.rel c).toInt = bound || (z.noticed && (lateMember s c || bound ≤ (s.rel c).toInt || (holdsAt s c).isSome)))

/-- MEMBER_STOP (R251 to R253). A member of a freezing pack stops at its held tick. -/
def execMemberStop (c : Nat) (s : State) : Host.Outcome State Fault Refusal :=
  .next (if stopsNow s c then stopMember s c (s.tick c false) none false (lateMember s c) else s)

/-! ### The kennel (R262 to R265, R272) -/

/-- The lowest free handler context of a region (R262). -/
def freeCtx (s : State) (r : Nat) : Option Nat := (List.range 8).find? fun n => (smFind (s.region r).ctxs n).isNone

/-- The state in which the handler of a frozen pack runs on its primary member's core, in context `n` of the region (R262, R263, R266): its budget counts from
its first bundle, at the next tick of the region (R265). -/
def startHandler (s : State) (g c n : Nat) (p : Pack) : State :=
  let r := regionOf c
  let k := s.core c
  let serial := k.hserial + 1
  let th : Thread :=
    { regs := [(1, BitVec.ofNat 64 (wfld k.packid 7 0))], pc := wfld k.kennel 14 0, ab := (s.region r).hw, next := 1, nid := 1000000 * serial }
  let leash : Word := BitVec.ofNat 64 (15 * 2 ^ 32 + p.epoch % 2 ^ 16 * 2 ^ 16 + g)
  let s := s.modCore c fun k => { k with handler := some th, leash := [(0, leash)], hserial := serial, hpack := g }
  let s := s.modRegion r fun k => { k with ctxs := smSet k.ctxs n c, waiters := k.waiters.filter fun w => w.2.2 ≠ g }
  let s := s.modPack g fun p => { p with freeze := p.freeze.map fun z => { z with served := true } }
  s.later ((s.region r).nextTick - s.now + wfld k.kennel 47 32 * 18000) (.handlerBudgetExpire c serial)

/-- The state in which the first pack that waits in a region has been given a free context, if there is one (R264). -/
def serveWaiter (r : Nat) (s : State) : State :=
  match (s.region r).waiters, freeCtx s r with
  | w :: ws, some n =>
    match s.pack w.2.2 with
    | some p =>
      if (p.freeze.map fun z => !z.served && !z.resuming) = some true then startHandler s w.2.2 w.2.1 n p
      else s.modRegion r fun k => { k with waiters := ws }
    | none => s.modRegion r fun k => { k with waiters := ws }
  | _, _ => s

/-- The waiting packs of a region in the order of R264: the count at the primary fault, then the core. -/
def waiterLe (a b : Nat × Nat × Nat) : Bool := a.1 < b.1 || (a.1 = b.1 && a.2.1 ≤ b.2.1)

/-- KENNEL_DISPATCH (R262, R264). Every member has stopped: the pack receives a handler context, or waits for one; with BUDGET 0 it is left to the
firmware (R261). -/
def execKennelDispatch (g : Nat) (s : State) : Host.Outcome State Fault Refusal :=
  .next <|
    match s.pack g with
    | none => s
    | some p =>
      match p.freeze with
      | none => s
      | some z =>
        let r := regionOf z.primary
        let stopped := (s.liveMembers p).all fun m => (s.core m).frozen.isSome
        let s :=
          if z.served || z.resuming || !stopped then s
          else if wfld (s.core z.primary).kennel 47 32 = 0 then
            s.modPack g fun p => { p with freeze := p.freeze.map fun z => { z with served := true } }
          else if (s.region r).waiters.any fun w => w.2.2 = g then s
          else
            let hw := (((s.core z.primary).frozen).map (·.hw)).getD 0
            s.modRegion r fun k => { k with waiters := insertBy waiterLe (hw, z.primary, g) k.waiters }
        (List.range 8).foldl (fun s _ => serveWaiter r s) s

/-- HANDLER_BUDGET_EXPIRE (R265). A handler that has not ended within its budget faults NEST with inner code 0; the number of its inner cause is
free (log 5). -/
def execHandlerBudgetExpire (c serial : Nat) (s : State) : Host.Outcome State Fault Refusal :=
  .next <|
    if (s.core c).handler.isSome && (s.core c).hserial = serial then
      let (k, s) := s.draw 255
      nest s c { code := 0, cause := k }
    else s

/-- SHEPHERD_KILL (R272). The firmware kills a frozen pack. -/
def execShepherdKill (g : Nat) (s : State) : Host.Outcome State Fault Refusal :=
  .next <|
    match (s.pack g).bind (·.freeze) with
    | some _ => killPack s g
    | none => s

/-! ### Release after RESUME (R249, R254, R258, R259, R269) -/

/-- The bytes that an X-space load reads (R415, R416). -/
def loadBytes (i : Instr) : Nat :=
  match i with
  | .ldx _ _ _ z _ => 2 ^ z.toNat
  | _ => 128

/-- A replay entry as it goes on after release: performed again from its slots; an X-space load that met poison reads its target again. -/
def rerun (s : State) (c : Nat) (p : Pending) : Pending :=
  match p.act with
  | .result rp res =>
    let rp' := { rp with faulted := false }
    { p with act := .result rp' (if rp.patched then replayRes rp' else res) }
  | .xret rp val poison a g =>
    if rp.faulted then
      let ea := ofSlot (rp.slots.getD 0 0)
      let n := loadBytes rp.instr
      let loc := faceLoc (xCore c ea) (wfld ea 22 21) (wfld ea 20 0)
      let rp' := { rp with faulted := false }
      if (poisonIn s loc n).isSome then { p with act := .xret rp' none true a g }
      else { p with act := .xret rp' (some (BitVec.ofNat 1024 (leNat (readBytes s.mem loc n)))) false a g }
    else { p with act := .xret rp val poison a g }
  | _ => p

/-- Whether an item is a replay entry that the handler has dropped, and whether it occupies the divide unit (R259, R347). -/
def isDropped (p : Pending) : Bool := (replayKey p).isSome && ((p.replay).map (·.drop)).getD false
@[inherit_doc isDropped] def isDivWord (i : Instr) : Bool :=
  match i with
  | .fdiv .. => true
  | .fsqrt .. => true
  | .ddiv .. => true
  | .dsqrt .. => true
  | _ => false
@[inherit_doc isDropped] def isDivide (p : Pending) : Bool := ((p.replay).map fun rp => isDivWord rp.instr).getD false

/-- A member that goes on (R249, R254, R269): its engine and timeline heads are no longer marked, writes of its pack that it has held back wait for
its tick, and it absorbs its lead over Φ. Its next bundle issues at the held tick whatever packets it now has (R282), or at the later one at which it was due (R269,
log 114). -/
def Core.resumed (k : Core) (c : Nat) (f : Frozen) (mates : List Nat) (items : List Pending) (freed : Bool) : Core :=
  let held (p : Pending) : Pending := if isForeignWrite c p && f.held ≤ p.tick && mates.any (fun m => match p.act with
    | .xperf x => x.org.core = m
    | .copyBeat i _ _ _ _ _ _ _ _ => i = m
    | _ => false) then { p with waits := true } else p
  { k with
    frozen := none, absorb := f.held - f.phi + 1
    tlq := k.tlq.map fun x => { x with rejected := false }
    copies := k.copies.map fun x => { x with faulted := false, full := none }
    cubes := k.cubes.map fun x => { x with faulted := false }
    task := { k.task with agenda := items.map held, divFree := if freed then 0 else k.task.divFree,
                          next := if k.task.wait.isSome then k.task.next else max f.due f.held, seq := false } }

/-- The state in which one member of a resumed pack goes on. -/
def resumeMember (mates : List Nat) (s : State) (c : Nat) : State :=
  let k := s.core c
  match k.frozen with
  | none => s
  | some f =>
    let gone := k.task.agenda.filter isDropped
    let items := (k.task.agenda.filter fun p => !isDropped p).map (rerun s c)
    let s := s.modCore c fun k => k.resumed c f mates items (gone.any isDivide)
    gone.foldl (fun s p => match p.acc with
      | some a => s.performed c false a f.held
      | none => s) s

/-- The state in which the banks of a frozen pack stand as they did at the freeze (R117, R136): those that awaited a rescue have been refreshed, the recorded rows
are open again. -/
def restoreBanks (s : State) (members : List Nat) : State :=
  members.foldl (fun s c =>
    let pcs := ((leaseBanks c (s.core c).lease.entry).map fun b => (b.1, b.2.1)).eraseDups
    (pcs.foldl (fun s q => rescueAll s q.1 q.2) s).modLease c Bank.reopen) s

/-- PACK_RESUME_RELEASE (R136, R249, R269). The pack is released from its freeze and continues from Φ. -/
def execPackResumeRelease (g epoch : Nat) (s : State) : Host.Outcome State Fault Refusal :=
  .next <|
    match s.pack g with
    | none => s
    | some p =>
      if p.epoch ≠ epoch || (p.freeze.map (·.resuming)) ≠ some true then s
      else
        let s := (restoreBanks s p.members).modPack g fun p => { p with freeze := none }
        (s.liveMembers p).foldl (resumeMember p.members) (rephase s (s.liveMembers p))

end Sys2Proof.Machine
end

