-- ==== Sys2Proof/Machine/PowerEvents.lean ====
section
/-!
DEFINITION. The steps of the governor, the sensors, the whistle and the trips (spec/16_clocks_power_thermal.md R477 to R484;
spec/04_time_and_alignment.md R141). Temperatures are in quarter degrees (log 18).
-/
namespace Sys2Proof.Machine

/-- H(r), the hottest sensor of a core region, in quarter degrees (R477). -/
def Region.hot (r : Region) : Nat := r.temps.foldl max 0

/-! ### The governor (R478 to R481) -/

/-- The thermal request of a region at an evaluation (R478). -/
def Region.thermal (r : Region) : Region :=
  let g := r.gov
  let cool := if r.hot ≤ 400 then min 10 (g.cool + 1) else 0
  let req := if r.hot ≥ 420 then g.req - 1 else if cool ≥ 10 then g.req + 1 else g.req
  { r with gov := { g with cool := cool, req := min 16 (max r.floor req) } }

/-- The least FLOOR of the core regions, at which the power request of the package is clamped (log 109). -/
def leastFloor (s : State) : Nat := ((List.range 16).map fun r => (s.region r).floor).foldl min 10

/-- The power request after an evaluation (R479). -/
def powerRequest (s : State) (amps watts : Nat) (calm : Bool) : Nat :=
  let prev := s.psc.preq
  let next := if amps > 19000 then prev - 2 else if watts > s.psc.pcap then prev - 1
    else if calm && watts * 100 ≤ 95 * s.psc.pcap && amps ≤ 18000 then prev + 1 else prev
  min 16 (max (leastFloor s) next)

/-- The bits 23:21 of MUZZLE (R481): THERM 1, POWER 2, WHISTLE 4, for each of the three values that is the least and below 16. -/
def whyBits (th pw wh : Nat) : Nat :=
  let m := min th (min pw wh)
  if m ≥ 16 then 0 else (if th = m then 1 else 0) + (if pw = m then 2 else 0) + (if wh = m then 4 else 0)

/-- The state after the evaluation of one domain (R480): its next step, at most 2 from the present one, for all of its regions together, and the bits of
MUZZLE. -/
def evalDomain (s : State) (ds : List Nat) : State :=
  let th := (ds.map fun r => (s.region r).gov.req).foldl min 16
  let wh := (ds.map fun r => (s.region r).gov.wstep).foldl min 16
  let floor := (ds.map fun r => (s.region r).floor).foldl max 8
  let goal := max floor (min th (min s.psc.preq wh))
  let cur := (ds.map fun r => (s.region r).step).foldl min 16
  let next := if goal > cur then min goal (cur + 2) else max goal (cur - 2)
  let change := ds.any fun r => (s.region r).step ≠ next
  ds.foldl (fun s r => s.modRegion r fun k =>
    { k with gov := { k.gov with why := whyBits th s.psc.preq wh }, nextStep := if change then some next else none }) s

/-- GOVERNOR_EVALUATION (R478 to R480, R483). Every 10 µs the governor computes the requests and each domain's step, which is applied at the first
publication instant after the evaluation. `amps` and `watts` are the averages of R479, `calm` its fourth condition. -/
def execGovernorEvaluation (amps watts : Nat) (calm : Bool) (s : State) : Host.Outcome State Fault Refusal :=
  .next <|
    let s := (List.range 16).foldl (fun s r => s.modRegion r fun k => { k.thermal with gov := { k.thermal.gov with
      wstep := (s.psc.whistleNext).getD k.gov.wstep } }) s
    let s := { s with psc := { s.psc with preq := powerRequest s amps watts calm, whistleNext := none } }
    let s := (((List.range 16).map (domainOf s)).eraseDups).foldl evalDomain s
    let s := if (List.range 16).any fun r => (s.region r).nextStep.isSome then s.later (nextPublication (s.now + 1) - s.now) .stepApply else s
    let (a, s) := s.drawAny
    let (w, s) := s.drawAny
    let (c, s) := s.draw 1
    s.later 180000 (.governorEvaluation a w (c = 1))

/-- STEP_APPLY (R141). New steps take effect at a publication instant, at the start of a group of 16 periods. -/
def execStepApply (s : State) : Host.Outcome State Fault Refusal := .next ((List.range 16).foldl applyStep s)

/-! ### Trips (R484) -/

/-- A core whose rail has lost its power keeps only its layer class. -/
def Core.unpowered (k : Core) : Core := { lavail := k.lavail }

/-- A region whose rail has lost its power. -/
def Region.unpowered (r : Region) : Region :=
  { r with power := .gated, slots := [], preload := [], l2 := [], ctxs := [], waiters := [], ballast := [] }

/-- The state after a package trip (R484): power leaves the core rails, every pack is lost, and the running phase with them (R492), the job fails with ERR 8. -/
def tripAll (s : State) (thermal : Bool) (v : Nat) : State :=
  let ended := s.psc.phaseOpen
  let s := { s with psc := { s.psc with tripped := true, trips := s.psc.trips ++ [(thermal, v, s.now)], phaseOpen := false } }
  let s := if ended then s.cause 1 else s
  let s := (s.packs.map (·.1)).foldl releasePcs s
  let s := { s with
    packs := [], releases := [], invals := [], barriers := [], ramps := [],
    mem := clearRange s.mem (faceLoc 0 0 0) (faceLoc 384 0 0),
    poison := s.poison.filter fun l => l * 64 < faceLoc 0 0 0,
    cores := smMap (fun _ (k : Core) => k.unpowered) s.cores,
    regions := (List.range 16).foldl (fun m r => smSet m r (s.region r).unpowered) s.regions,
    walker := { s.walker with insts := [], queues := [], held := [], seals := [], takes := [], doomed := [] } }
  if s.jobRuns then setJob s 4 8 else s

/-- THERMAL_TRIP (R484). A sensor at 120 °C removes power from the core rails. -/
def execThermalTrip (sensor : Nat) (s : State) : Host.Outcome State Fault Refusal :=
  if sensor ≥ 176 then .fault (.noSuchUnit sensor) else .next (if s.psc.tripped then s else tripAll s true sensor)

/-- CURRENT_TRIP (R484). A core-rail current above 21,000 A for 10 µs removes power from the core rails. -/
def execCurrentTrip (amps : Nat) (s : State) : Host.Outcome State Fault Refusal :=
  .next (if s.psc.tripped || amps ≤ 21000 then s else tripAll s false amps)

/-! ### Sensors, emergency and whistle (R477, R482, R483) -/

/-- Free readings of 176 sensors (log 5). -/
def freeTemps (s : State) : List Nat × State :=
  (List.range 176).foldl (fun (a : List Nat × State) _ =>
    let (v, s) := a.2.drawAny
    (a.1 ++ [v], s)) ([], s)

/-- Whether the emergency of R482 may begin: a region at 110 °C or more whose domain is at its FLOOR. -/
def emergencyDue (s : State) : Bool :=
  (List.range 16).any fun r =>
    (s.region r).hot ≥ 440 && (s.region r).step ≤ ((domainOf s r).map fun d => (s.region d).floor).foldl max 8

/-- Whether every H(r) and every band meets the end condition of R482. -/
def allCalm (s : State) : Bool :=
  (List.range 16).all fun r => (s.region r).hot ≤ 400 && (s.hbm r).band ≤ 2

/-- SENSOR_SAMPLE (R477, R482, R484). The thermal sensors report every 1 µs: 11 readings for each core region. -/
def execSensorSample (temps : List Nat) (s : State) : Host.Outcome State Fault Refusal :=
  .next <|
    let s := (List.range 16).foldl (fun s r => s.modRegion r fun k => { k with temps := (temps.drop (11 * r)).take 11 }) s
    let s := { s with psc := { s.psc with peaks := (List.range 176).map fun i => max (temps.getD i 0) (s.psc.peaks.getD i 0), emCalm := if allCalm s then s.psc.emCalm else s.now } }
    let s := match (List.range 176).find? fun i => temps.getD i 0 ≥ 480 with
      | some i =>
        let (k, s) := s.draw 180000
        s.later k (.thermalTrip i)
      | none => s
    let s := if emergencyDue s then beginEmergency s else s
    let s := if s.psc.emergency && s.psc.emCalm + msUnits ≤ s.now then s.later 0 .emergencyEnd else s
    let (next, s) := freeTemps s
    s.later 18000 (.sensorSample next)

/-- The packages that the job's fabric window table names, and this one (R482). -/
def whistleTargets (s : State) : List Nat :=
  ((s.fwtab.filter fun e => wfld e.2.w0 63 63 = 1).map fun e => wfld e.2.w0 17 8).eraseDups ++ [s.psc.pkgid]

/-- WHISTLE_SEND (R482). During the emergency a whistle for the job goes to every package of its window table and to this one, every 100 µs. -/
def execWhistleSend (s : State) : Host.Outcome State Fault Refusal :=
  .next <|
    if s.psc.emergency then
      let s := { s with psc := { s.psc with whistled := whistleTargets s } }
      (s.later 0 (.whistleReceive s.psc.jserial 8)).later 1800000 .whistleSend
    else s

/-- WHISTLE_RECEIVE (R483). A whistle for the running job sets the whistle step from the next evaluation on, the least of several; any other is
counted. -/
def execWhistleReceive (job w : Nat) (s : State) : Host.Outcome State Fault Refusal :=
  .next <|
    if s.jobRuns && job = s.psc.jserial then
      let w := min 16 (max 8 w)
      let next := match s.psc.whistleNext with
        | some v => min v w
        | none => w
      ({ s with psc := { s.psc with whistleNext := some next, whistleAt := s.now } }).later 5400000 .whistleTimeout
    else { s with psc := { s.psc with whistleCnt := s.psc.whistleCnt + 1 } }

/-- WHISTLE_TIMEOUT (R483). WSTEP returns to 16 when no whistle has arrived for 300 µs. -/
def execWhistleTimeout (s : State) : Host.Outcome State Fault Refusal :=
  .next <|
    if s.psc.whistleAt + 5400000 ≤ s.now then
      { s with psc := { s.psc with whistleNext := none },
               regions := smMap (fun _ (r : Region) => { r with gov := { r.gov with wstep := 16 } }) s.regions }
    else s

/-- EMERGENCY_END (R482). After 1 ms within the limits the emergency ends, and whistles stop. -/
def execEmergencyEnd (s : State) : Host.Outcome State Fault Refusal :=
  .next <|
    if s.psc.emergency && s.psc.emCalm + msUnits ≤ s.now then
      ({ s with psc := { s.psc with emergency := false }, timers := s.timers.filter fun x => x.2 ≠ Ev.whistleSend }).cause 5
    else s

end Sys2Proof.Machine
end

