-- ==== Sys2Proof/Machine/JobEvents.lean ====
section
/-!
DEFINITION. The start of a job and the bind of a phase (spec/17_host_fabric_security.md R489, R490, R494, R500 to R506;
spec/07_dispatch.md R222, R223; spec/03_hbm_timeline.md R94 to R96, R122, R130, R134, R135; spec/02_on_chip_storage.md R64).
-/
namespace Sys2Proof.Machine

/-! ### Host writes through the memory range (R56, R57, R173, R216) -/

/-- The physical address of an offset of the memory range. -/
def hostPhys (s : State) (off : Nat) : Nat := s.psc.hwbase.toNat + off

/-- The state in which one access, which met a sealed range or not, has been counted (R57). The spec says 'each such access': DESIGN CHOICE (log 104), an access is
one aligned piece of at most eight bytes, counted once however many sealed bytes it covers. -/
def countSealed (s : State) (hit : Bool) : State :=
  if hit then { s with psc := { s.psc with sacnt := (s.psc.sacnt + 1) % 2 ^ 64 } } else s
@[inherit_doc countSealed] def sealedAccess (s : State) (pa n : Nat) : State := countSealed s ((List.range n).any fun i => inSealedRange s (pa + i))

/-- The bytes from an offset of the memory range up to the end of its aligned piece of eight (R173). -/
def hostPiece (off n : Nat) : Nat := min n (8 - off % 8)

/-- The state with bytes of the host written, but for those in a sealed range or in a sealed graph object (R57, R216). -/
def hostWrite (s : State) : Nat → List Byte → State
  | _, [] => s
  | pa, b :: bs => hostWrite (if inSealedRange s pa || inSealedGraph s pa 1 then s else writePhysByte s pa b) (pa + 1) bs

/-- Whether a byte of the physical address space is closed to the host's writes (R57, R216). -/
def closedByte (s : State) (pa : Nat) : Bool := inSealedRange s pa || inSealedGraph s pa 1

/-- The state after the first aligned piece of a host write (R56, R57, R128, R173, R216); one whose bytes are all discarded makes no transfer. DESIGN CHOICE (log 113): a piece maps under the HWBASE that stands when it is
made. -/
def writePiece (off : Nat) (data : List Byte) (s : State) : State :=
  let pa := hostPhys s off
  let k := hostPiece off data.length
  let hit : Bool := (List.range k).any fun i => closedByte s (pa + i)
  let all : Bool := (List.range k).all fun i => closedByte s (pa + i)
  countSealed (if all then s else writeLines (hostWrite s pa (data.take k)) pa k) hit

/-- The state after the first aligned piece of a host write, the next one due at a free time (R173, log 5). -/
def writeOn (off : Nat) (data : List Byte) (s : State) : State :=
  let k := hostPiece off data.length
  let s := writePiece off data s
  if data.length ≤ k then s
  else
    let (w, s) := s.drawAny
    s.later w (.hostWritePiece (off + k) (data.drop k))

/-- The state after every piece of a host write, up to a number of them. -/
def writeAll : Nat → Nat → List Byte → State → State
  | 0, _, _, s => s
  | n + 1, off, data, s =>
    if data.isEmpty then s
    else writeAll n (off + hostPiece off data.length) (data.drop (hostPiece off data.length)) (writePiece off data s)

/-- The state in which the pieces of prior host writes that are still due have been made, in their order (R188, R489). -/
def releaseWrites (s : State) : State :=
  let late (x : Nat × Ev) : Option (Nat × List Byte) := match x.2 with
    | .hostWritePiece off data => some (off, data)
    | _ => none
  (s.timers.filterMap late).foldl (fun s x => writeAll x.2.length x.1 x.2 s) { s with timers := s.timers.filter fun x => (late x).isNone }

/-! ### JSTART (R489, R490, R494, R500, R501) -/

/-- A number of `n` bytes at a physical address. -/
def physNat (s : State) (pa n : Nat) : Nat := leNat (readPhys s pa n)

/-- An image header as memory holds it (R494). -/
structure Header where
  magic  : Nat
  ver    : Nat
  nphase : Nat
  flags  : Nat
  len    : Nat
  phtab  : Nat
  srec   : Nat
  digest : Nat
deriving DecidableEq, Repr

/-- The header at a physical address. -/
def readHeader (s : State) (a : Nat) : Header :=
  { magic := physNat s a 4, ver := physNat s (a + 4) 2, nphase := physNat s (a + 6) 1, flags := physNat s (a + 7) 1, len := physNat s (a + 8) 8,
    phtab := physNat s (a + 16) 8, srec := physNat s (a + 24) 8, digest := physNat s (a + 32) 32 }

/-- Whether a header at an address breaks its layout, or names a table outside the image (R494, ERR 2); `n` is NRANGE of the sealing record (R500). -/
def Header.bad (h : Header) (a n : Nat) : Bool :=
  let out (p n : Nat) : Bool := p < a || a + h.len < p + n
  a % 2 ^ 16 ≠ 0 || h.magic ≠ 0x5A394A49 || h.ver ≠ 1 || h.nphase = 0 || h.flags ≥ 4 || h.len = 0 || h.len % 2 ^ 16 ≠ 0 || h.len > 2 ^ 36
    || out h.phtab (128 * h.nphase) || (if bit h.flags 0 then out h.srec (1648 + 16 * n) else h.srec ≠ 0)

/-- The sealed ranges of a sealing record (R500). -/
def sealRanges (s : State) (r : Nat) : List (Nat × Nat) :=
  (List.range (physNat s (r + 1640) 1)).map fun i => (physNat s (r + 1648 + 16 * i) 8, physNat s (r + 1656 + 16 * i) 8)

/-- Whether the ranges of a record break R500 (log 20). -/
def badRanges (a len : Nat) : List (Nat × Nat) → Bool
  | [] => false
  | x :: xs => x.1 % 2 ^ 21 ≠ 0 || x.2 % 2 ^ 21 ≠ 0 || x.2 = 0 || x.1 < a || a + len < x.1 + x.2
      || xs.any (fun y => x.1 < y.1 + y.2 && y.1 < x.1 + x.2) || badRanges a len xs

/-- Ranges in ascending address. -/
def ascending (rs : List (Nat × Nat)) : List (Nat × Nat) := sortBy (fun a b => a.1 ≤ b.1) rs

/-- Bytes of ranges, one range after the other. -/
def rangeBytes (s : State) (rs : List (Nat × Nat)) : List Byte := rs.flatMap fun r => readPhys s r.1 r.2

/-- The ERR of a header and a PHASE that do not verify, 0 for none (R491, R494). -/
def headerErr (s : State) (h : Header) (a phase : Nat) : Nat :=
  if h.bad a (physNat s (h.srec + 1640) 1) then 2
  else if phase ≥ h.nphase then 6
  else if Config.shake256 256 (readPhys s (a + 64) (h.len - 64)) ≠ h.digest then 3
  else 0

/-- The value that the fused seed gives under a domain label, from which the identity key and the device KEM key come (R498). -/
def identityKey : Nat := Config.shake256 256 (Config.fusedSeed ++ Config.identityLabel)
@[inherit_doc identityKey] def kemKey : Nat := Config.shake256 256 (Config.fusedSeed ++ Config.kemLabel)

/-- The image of a verified header, with the keys and ranges of a sealed one (R501). -/
def imageOf (s : State) (h : Header) (a : Nat) : Image :=
  let base : Image := { addr := a, len := h.len, nphase := h.nphase, sealed := bit h.flags 0, traced := bit h.flags 1, phtab := h.phtab,
                        srec := h.srec, digest := h.digest }
  if bit h.flags 0 then
    let k := Config.kemDecapsulate kemKey (readPhys s h.srec 1568)
    { base with ranges := sealRanges s h.srec, keys := leBytes 64 (Config.shake256 512 (k ++ leBytes 32 h.digest)) }
  else base

/-- The state of a job whose verification has failed; `im` is its image where its header has been found whole, whose trace is then measured (R503). -/
def failJob (s : State) (im : Option Image) (err : Nat) : State :=
  let s := setJob { s with psc := { s.psc with image := im } } 4 err
  { s with psc := { s.psc with image := none } }

/-- The state in which nothing that tasks of an earlier job have left on its way is waited for any more: the device has been zeroed over it (R64, R210). -/
def forgetOrphans (s : State) : State :=
  let s := { s with walker := { s.walker with insts := smMap (fun _ (i : Inst) =>
    { i with nodes := smMap (fun _ (n : Node) => { n with outst := 0 }) i.nodes }) s.walker.insts } }
  (s.walker.insts.flatMap fun i => i.2.nodes.map fun n => (i.1, n.1)).foldl (fun s x => checkLaunch s x.1 x.2) s

/-- Every face, instruction buffer, matrix register file, delivery stage, FIFO and completion counter reads zero, and the sealed ranges of the
previous job too (R64, R490, R501); what its operations would still write into them is gone. -/
def zeroDevice (s : State) : State :=
  let ranges := match s.psc.image with
    | some im => if im.sealed then im.ranges else []
    | none => []
  let s := { s with psc := { s.psc with image := none } }
  let s := { s with
    mem := clearRange s.mem (faceLoc 0 0 0) (faceLoc 384 0 0)
    poison := s.poison.filter fun l => l * 64 < faceLoc 0 0 0
    cores := smMap (fun _ (k : Core) => { k with mrf := [], fifo := [], arriving := [], cc := [], fabs := [] }) s.cores,
    walker := { s.walker with seals := [] } }
  let s := forgetOrphans s
  let s := ranges.foldl (fun s r => { s with mem := s.mem.filter fun p =>
    let pa := s.loc p.1
    !(p.1 < 2 ^ 40 && r.1 ≤ pa && pa < r.1 + r.2) }) s
  s.noteWrites ranges

/-- The measurements of a new job (R503): MFW 0 from the images that run, MIMG 1 from the header, MPLAN 2 and MTRACE 3 zero. -/
def startMeas (s : State) (a : Nat) : SMap Nat :=
  let fw := (s.psc.fwrun.map (·.2)).foldl (fun m d => extendMeas m (leBytes 64 d)) 0
  [(0, fw), (1, extendMeas 0 (readPhys s a 64)), (2, 0), (3, 0)]

/-- The Shepherd firmware, image kind 1, that has been installed runs from the next job (R495). -/
def newFirmware (run new : SMap Nat) : SMap Nat :=
  match smFind new 1 with
  | some d => smSet run 1 d
  | none => run

/-- The state after the verification of a sealed image (R501): one that fails after its ranges have been sealed leaves them so (R57). -/
def verifySealed (s : State) (im : Image) : State :=
  let pdigest := physNat s (im.srec + 1576) 64
  if physNat s (im.srec + 1568) 8 ≠ im.addr then failJob s (some im) 5
  else if im.ranges.isEmpty || im.ranges.length > 16 || physNat s (im.srec + 1641) 7 ≠ 0 || badRanges im.addr im.len im.ranges then failJob s (some im) 2
  else
    let s := { s with psc := { s.psc with image := some im } }
    if Config.shake256 512 (rangeBytes s (ascending im.ranges)) ≠ pdigest then setJob s 4 4
    else { s with psc := { s.psc with meas := smSet s.psc.meas 1 (extendMeas (smGet 0 s.psc.meas 1) (leBytes 64 pdigest)) } }

/-- The pieces of memory that the verification of an image reads (R494, R500, R501): the header; with a whole header and a phase of it, the image that its digest covers; of a
sealed image the sealing record, then the ranges. -/
def verifyPieces (s : State) (a phase : Nat) : List (Nat × Nat) :=
  let h := readHeader s a
  let whole : Bool := !h.bad a (physNat s (h.srec + 1640) 1) && phase < h.nphase
  let ranges := sealRanges s h.srec
  (a, 64) :: (if whole then [(a + 64, h.len - 64)] ++ (if headerErr s h a phase = 0 && bit h.flags 0 then (h.srec, 1648 + 16 * ranges.length) :: ranges else []) else [])

/-- JSTART (R489, R490). A write with GO starts a job while none runs: prior host writes have been made, the device is zeroed and the image verified; the bind of its first phase follows
(PHASE_BIND). -/
def execJstart (v : Word) (s : State) : Host.Outcome State Fault Refusal :=
  .next <|
    if wfld v 63 63 = 0 || !s.psc.booted then s
    else if s.jobRuns then { s with psc := { s.psc with jerr := 1 } }
    else
      let a := wfld v 39 0
      let phase := wfld v 47 40
      let s := zeroDevice (releaseWrites s)
      let s := { s with psc := { s.psc with
        jserial := (s.psc.jserial + 1) % 2 ^ 16, nextPhase := phase, sacnt := 0, pfail := [], phaseOpen := false
        fwrun := newFirmware s.psc.fwrun s.psc.fwnew } }
      let s := setJob s 1 0
      let s := { s with traces := smMap (fun _ (t : Trace) => { stop := t.stop }) s.traces, psc := { s.psc with meas := startMeas s a, energyJob := 0 } }
      if s.psc.tripped then failJob s none 8
      else
        let h := readHeader s a
        let e := headerErr s h a phase
        let read (t : State) : State := t.noteReads (verifyPieces s a phase)
        read <| if e ≠ 0 then failJob s (if e = 2 then none else some (imageOf s h a)) e
        else
          let im := imageOf s h a
          if im.sealed then verifySealed s im else { s with psc := { s.psc with image := some im } }

/-! ### The phase entry (R494) -/

/-- Word `k` of the entry of the phase to bind. -/
def phaseWord (s : State) (im : Image) (k : Nat) : Word := readPhys64 s (im.phtab + 128 * s.psc.nextPhase + 8 * k)

/-- Whether a phase entry is malformed (R261, R494). -/
def badPhase (s : State) (im : Image) : Bool :=
  let w (k : Nat) : Word := phaseWord s im k
  (w 1).toNat > 2 ^ 18 || (w 2).toNat % 32 ≠ 0 || wfld (w 5) 47 40 ≠ 0 || !([1, 2, 4].contains (wfld (w 6) 3 0)) || wfld (w 6) 15 6 ≠ 0
    || wfld (w 6) 47 31 ≠ 0 || wfld (w 6) 30 16 > 21844 || (w 8).toNat % 64 ≠ 0 || (w 9).toNat % 64 ≠ 0
    || [10, 11, 12, 13, 14, 15].any (fun k => w k ≠ 0)
    || (List.range 16).any fun hs => wfld (readPhys64 s ((w 4).toNat + 8 * hs)) 63 60 ≠ 0

/-! ### Steps 1 and 2: availability, remapping, migration (R94, R130, R134, R135, R486, R517) -/

/-- A PC at a phase boundary: idle, from the present counts of the regions where it was not (R137, R232), at half width where a lane swap has failed, its spare
lanes published. -/
def Pc.boundary (q : Pc) (counts : List Int) : Pc :=
  { q with half := q.half || q.halfNext, halfNext := false, shown := q.spares, mode := 0, group := 0, idleAt := if q.mode = 0 then q.idleAt else counts }

/-- The state in which the pending lane swaps of a stack have been made (R517). -/
def pendingSwaps (s : State) (hs : Nat) : State :=
  ((s.hbm hs).pcs.filter fun q => q.2.swap).foldl (fun s q => swapLane s hs q.1 0) s

/-- A stack at a phase boundary (R130, R486): out of service in band 3, or once it has reached it since the last boundary, back after 10 ms, 4,395 readings, in band 1 or below. (A stack that boot took
out of service, R497, stays out.) -/
def Hbm.boundary (h : Hbm) (counts : List Int) : Hbm :=
  { h with
    pcs := smMap (fun _ (q : Pc) => q.boundary counts) h.pcs
    out := if h.band = 3 || h.hot then true else h.out && h.coolMs < 4395
    hot := h.band = 3
    banks := smMap (fun _ (b : Bank) => { b with row := none, busy := 0, ref := 0, wmark := false, mmark := false, group := none }) h.banks }

/-- The state in which the banks of a PC that repair or heat has retired since the last boundary have left LIVE (R135): which ones is free, folded banks and
their hosts apart (log 98). -/
def retireBanks (s : State) (hs pc : Nat) : State :=
  let mask := Config.retireMask s.fresh pc
  (List.range 64).foldl (fun s b =>
    let k := (s.hbm hs).bank pc b
    if mask.getLsbD b && k.fold.isNone && !k.host then s.modBank hs pc b fun k => { k with retired := true } else s)
    { s with fresh := s.fresh + 1 }

/-- The state in which the rows of a folded bank that cannot be read are poisoned (R135): logical rows 0 to 8,191, which ones is free (log 98). -/
def poisonRows (s : State) (hs pc b : Nat) : State :=
  let n := s.fresh
  let rows := (List.range 8192).filter fun r => !Config.rowReadable n r
  let cells := rows.flatMap fun r => (List.range 16).map fun col => mkLoc hs r b col pc
  cells.foldl (fun s l => s.rewritten l true) { s with fresh := n + 1 }

/-- The state after the transfers of the copy of a bank's logical rows 0 to 8,191 to its host (R127, R128, R135). -/
def copyRows (s : State) (hs pc b : Nat) : State :=
  let cells := (List.range 8192).flatMap fun r => (List.range 16).map fun col => mkLoc hs r b col pc
  (s.readCells cells).writeCells (cells.filter fun l => !s.badBurst l)

/-- The state in which the retired banks of a PC have been folded, each onto the lowest live bank that hosts none (R135). A bank's logical rows 0 to 8,191 keep
their locations in this model, so that nothing is copied but the poison of those that cannot be read. DESIGN CHOICE (log 117): a retired bank of a PC with no live bank left
to host it stays unfolded. -/
def foldPc (s : State) (hs pc : Nat) : State :=
  (List.range 64).foldl (fun s b =>
    let h := s.hbm hs
    if !(h.bank pc b).retired || (h.bank pc b).fold.isSome then s
    else
      match (List.range 64).find? fun k => !(h.bank pc k).retired && !(h.bank pc k).host with
      | none => s
      | some k =>
        let s := (copyRows (poisonRows s hs pc b) hs pc b).modBank hs pc b fun x => { x with fold := some k }
        hbmLog (s.modBank hs pc k fun x => { x with host := true }) hs pc 8 { bank := b }) s

/-- The state after steps 1 and 2 for one stack, but for the migration. -/
def boundaryStack (s : State) (hs : Nat) : State :=
  let counts := regionCounts s hs
  let s := (pendingSwaps s hs).modHbm hs fun h =>
    { h.boundary counts with out := (h.boundary counts).out || Config.layersPassing (hs / 4) < 7 }
  let s := (List.range 64).foldl (fun s pc => retireBanks s hs pc) s
  let pcs := (((s.hbm hs).banks.filter fun b => b.2.retired).map fun b => b.1 / 64).eraseDups
  pcs.foldl (fun s pc => foldPc s hs pc) s

/-- The cell of an HBM location after a change of the hash mask of its stack, for a listed block (R94). -/
def movedLoc (old new : Nat) (l : Nat) : Nat := hashLoc new (hashLoc old l)

/-- A sparse map whose keys in a block of 4 MiB move (R94); `unit` is the number of bytes that a key stands for. -/
def moveKeys {α : Type} (unit blk : Nat) (f : Nat → Nat) (m : SMap α) : SMap α :=
  let inside (k : Nat) : Bool := blk ≤ k * unit && k * unit < blk + 2 ^ 22
  (m.filter fun x => inside x.1).foldl (fun n x => smSet n (f (x.1 * unit) / unit) x.2) (m.filter fun x => !inside x.1)

/-- The state after the move of one block to its new placement. -/
def moveBlock (news : List Nat) (s : State) (blk : Nat) : State :=
  let hs := blk / 2 ^ 36 % 16
  let f := movedLoc (s.hbm hs).hmask.toNat (news.getD hs 0)
  { s with mem := moveKeys 1 blk f s.mem, burstErr := moveKeys 64 blk f s.burstErr }

/-- The state after the HMASK change of step 2, the listed blocks migrated (R94, log 21): the Shepherd reads the phase entry, the masks and the list, and copies the
blocks (R127, R128). -/
def changeHash (s : State) (im : Image) : State :=
  let w5 := phaseWord s im 5
  let news := (List.range 16).map fun hs => (readPhys64 s ((phaseWord s im 4).toNat + 8 * hs)).toNat
  let blks := (List.range (wfld w5 63 48)).map fun k => wfld (readPhys64 s (wfld w5 39 0 + 8 * k)) 39 22 * 2 ^ 22
  let s := s.noteReads ([(im.phtab + 128 * s.psc.nextPhase, 128), ((phaseWord s im 4).toNat, 128), (wfld w5 39 0, 8 * wfld w5 63 48)] ++ blks.map fun b => (b, 2 ^ 22))
  let s := blks.foldl (moveBlock news) s
  let s := (List.range 16).foldl (fun s hs => s.modHbm hs fun h => { h with hmask := BitVec.ofNat 64 (news.getD hs 0) }) s
  s.noteWrites (blks.map fun b => (b, 2 ^ 22))

/-! ### Steps 3 to 6 (R38, R96, R122, R201, R241, R261, R486, R505, R506, R513) -/

/-- A core region in the bias mode and with the thermal request of a new phase (R241, R478): a change of the mode takes 40 µs, in which the region's generator stands
still (log 100), and a step below the new FLOOR is raised at the next publication instant (R141). -/
def Region.bound (k : Region) (rev : Bool) : Region :=
  let k := if k.reverse = rev then k else
    (let k := { k with reverse := rev, edge := k.edge + 720000 }; if k.lock then k.locked else k)
  let k := { k with l2 := [], status := 0 }
  let step := k.nextStep.getD k.step
  { k with nextStep := if step < k.floor then some k.floor else k.nextStep, gov := { k.gov with req := 16, cool := 0 } }

/-- The failure of a step of a phase bind (R493): the step, the node or edge, the window descriptor, code and cause. -/
structure BindFail where
  step  : Nat
  ix    : Nat := 0
  wix   : Nat := 0
  code  : Nat := 0
  cause : Nat := 0
deriving DecidableEq, Repr

/-- The number of the first window descriptor of a list with which the list no longer passes (R40). -/
def badWin (s : State) (ws : List Win) : Nat :=
  ((List.range ws.length).find? fun k => match checkWins s [] (ws.take (k + 1)) with
    | .ok _ => false
    | .error _ => true).getD 0

/-- The regions that a pack of some cores takes, of 24 cores each (R202). -/
def regionsFor (size : Nat) : Nat := min 8 (max 1 (ceilDiv size 24))

/-- The entries of the window lists of the first nodes of the root object, each list checked (R40), with the regions that a pack of each takes; or the node at which
step 4 fails. -/
def rootWins (s : State) (base : Nat) : Nat → Except BindFail (List (Nat × List Tlb))
  | 0 => .ok []
  | k + 1 =>
    match rootWins s base k with
    | .error f => .error f
    | .ok ws =>
      let va := wfld (nodeWord s base k 2) 47 0
      let n := wfld (nodeWord s base k 1) 39 32
      match windowList s 0 va n with
      | .error f => .error ⟨4, k, badWin s (readWins s 0 va n), f.1, f.2⟩
      | .ok es => .ok (ws ++ [(regionsFor (wfld (nodeWord s base k 0) 55 48), es)])

/-- The choices of `n` of some numbers, each in their order. -/
def choices : Nat → List Nat → List (List Nat)
  | 0, _ => [[]]
  | _ + 1, [] => []
  | n + 1, x :: xs => (choices n xs).map (x :: ·) ++ choices (n + 1) xs

/-- The sets of `n` regions of one cluster, over which a pack may stand (R202). -/
def regionSets (n : Nat) : List (List Nat) := choices n (List.range 8) ++ choices n ((List.range 8).map (· + 8))

/-- The second-level TLBs with some entries added in every region of a list; none where one has no room for them. -/
def addEverywhere (es : List Tlb) : List Nat → List (SMap Tlb) → Option (List (SMap Tlb))
  | [], ts => some ts
  | r :: rs, ts =>
    match addEntries es (ts.getD r []) with
    | none => none
    | some t => addEverywhere es rs (ts.set r t)

/-- A set of regions for each node of the root object, so many that a pack of the node fits in them, whose second-level TLBs take the windows of all nodes together (R38,
log 101): the TLBs of the 16 regions then; none where there is no such choice. -/
def placeNodes : List (SMap Tlb) → List (Nat × List Tlb) → Option (List (SMap Tlb) × List (List Nat))
  | ts, [] => some (ts, [])
  | ts, x :: rest => (regionSets x.1).findSome? fun rs =>
      match addEverywhere x.2 rs ts with
      | none => none
      | some us => (placeNodes us rest).map fun y => (y.1, rs :: y.2)

/-- The first node with which the nodes before it and it can no longer be placed together (R38, log 101). -/
def unplaced (ts : List (SMap Tlb)) (ws : List (Nat × List Tlb)) : Nat :=
  ((List.range ws.length).find? fun k => (placeNodes ts (ws.take (k + 1))).isNone).getD 0

/-- The state with the windows of the root object's nodes in the second-level TLBs (R38, R222 step 4), each node's where a pack of it fits at least, and the entries with
those regions; or the node at which the step fails. DESIGN CHOICE (log 127): code 6, cause 3 also for mere lack of room. -/
def fillRoot (s : State) (base n : Nat) : Except BindFail (State × List (List Tlb × List Nat)) :=
  match rootWins s base n with
  | .error f => .error f
  | .ok ws =>
    let ts := (List.range 16).map fun r => (s.region r).l2
    match placeNodes ts ws with
    | none => .error ⟨4, unplaced ts ws, 0, 6, 3⟩
    | some (us, rs) => .ok ((List.range 16).foldl (fun s r => s.modRegion r fun k => { k with l2 := us.getD r [] }) s, (ws.map (·.2)).zip rs)

/-- The entries of the windows of some nodes, each once. -/
def allEntries (ws : List (List Tlb × List Nat)) : List Tlb := (ws.flatMap (·.1)).eraseDups

/-- The HBM stacks that some entries map (R96). -/
def stacksOf (es : List Tlb) : List Nat := (es.map fun e => e.pbase / 2 ^ 36 % 16).eraseDups

/-- Whether a page touches rows that a FOLD bank has lost (R100, R135). -/
def touchesLost (s : State) (e : Tlb) : Bool :=
  let last := e.pbase + e.pageSize - 1
  let row := last / 2 ^ 22 % 2 ^ 14
  row ≥ 8192 && ((s.hbm (e.pbase / 2 ^ 36 % 16)).banks.any fun b => (b.2.fold.isSome || b.2.host) &&
    (let lo := last / 2 ^ 22 * 2 ^ 22 + b.1 % 64 * 2 ^ 16
     lo ≤ last && e.pbase < lo + 2 ^ 16))

/-- The ones of a slot mask. -/
def ones8 (m : BitVec 8) : Nat := ((List.range 8).filter fun i => m.getLsbD i).length

/-- The minimum step and the column cap of a temperature band (R122). -/
def bandStep (b : Nat) : Nat := if b = 0 then 1 else if b = 1 then 2 else 4
@[inherit_doc bandStep] def bandCap (b : Nat) : Nat := if b = 0 then 8 else if b = 1 then 6 else 4

/-- The mask that an entry gives a PC. -/
def maskOf (ms : List (Nat × Nat × BitVec 8)) (q : Nat × Nat) : BitVec 8 := ((ms.find? fun m => m.1 = q.1 && m.2.1 = q.2).map (·.2.2)).getD 0

/-- Whether two of some masks meet. -/
def masksMeet : List (BitVec 8) → Bool
  | [] => false
  | m :: ms => ms.any (fun n => m &&& n ≠ 0) || masksMeet ms

/-- Whether an entry of the lease table breaks R96 or R99, or names what no package has. -/
def badEntry (e : LeaseEntry) : Bool :=
  let pcs := (e.slots.map fun x => (x.1, x.2.1)).eraseDups
  e.slots.length > 320 || pcs.length > 5 || e.shared.length > 255 || e.slots.any (fun x => x.1 ≥ 4 || x.2.1 ≥ 64 || x.2.2 ≥ 64)
    || (List.range 8).any (fun i => (e.cols.filter fun m => m.2.2.getLsbD i).length > 4)
    || (e.cols.map fun m => ones8 m.2.2).foldl (· + ·) 0 > 32
    || e.dies.any (fun d => d ≥ 4) || e.shared.any fun x => x.1 ≥ 16 || x.2.1 ≥ 64 || x.2.2.1 ≥ 64

/-- Whether an entry of the lease table names a bank of a PC that the table shares (R95, R513). -/
def sharesPc (shared : List (Nat × Nat)) (e : LeaseEntry) : Bool :=
  e.slots.any fun x => e.dies.any fun d => shared.contains (4 * d + x.1, x.2.1)

/-- Whether the entries of one pack leave a bank of a leased PC outside every slot or in more than one, or give two holders of a PC masks that meet (R96). -/
def badPlan (es : List LeaseEntry) : Bool :=
  let slots := es.flatMap (·.slots)
  let pcs := (slots.map fun x => (x.1, x.2.1)).eraseDups
  let on (q : Nat × Nat) : List LeaseEntry := es.filter fun e => e.slots.any fun x => x.1 = q.1 && x.2.1 = q.2
  slots.eraseDups.length ≠ slots.length || pcs.any fun q =>
    ((List.range 64).any fun b => !slots.contains (q.1, q.2, b))
      || masksMeet ((on q).map fun e => maskOf e.cols q) || masksMeet ((on q).map fun e => maskOf e.rows q)

/-- Whether a shared bank is marked grouped by one entry and open by another (R174). -/
def badMarks (leases : List LeaseEntry) : Bool :=
  let all := leases.flatMap (·.shared)
  all.any fun a => all.any fun b => a.1 = b.1 && a.2.1 = b.2.1 && a.2.2.1 = b.2.2.1 && a.2.2.2 ≠ b.2.2.2

/-- The stacks whose banks a lease table names (R96, R97). -/
def leasedStacks (leases : List LeaseEntry) : List Nat :=
  (leases.flatMap fun e => (e.slots.flatMap fun x => e.dies.map fun d => 4 * d + x.1) ++ e.shared.map (·.1)).eraseDups

/-- Whether the windows of a node of the root object, given with its LEASEREF, map no base die that its entry of the lease table stands for (R96): such a table
names the slots of its tasks on the wrong stacks (log 19). -/
def wrongDies (leases : List LeaseEntry) (nodes : List (Nat × List Tlb)) : Bool :=
  nodes.any fun n => match leases[n.1]? with
    | some e => !e.slots.isEmpty && !n.2.isEmpty && (stacksOf n.2).all fun hs => !e.dies.contains (hs / 4)
    | none => false

/-- Whether the column masks of a PC's holders in one pack, taken together, exceed the cap of the band of a stack (R122, R485). -/
def overCap (leases : List LeaseEntry) (hs band : Nat) : Bool :=
  let mine := leases.filter fun e => e.dies.contains (hs / 4)
  let packs := (mine.map (·.pack)).eraseDups
  packs.any fun p => (List.range 64).any fun pc =>
    let es := mine.filter fun e => e.pack = p && e.slots.any fun x => x.1 = hs % 4 && x.2.1 = pc
    ones8 ((es.map fun e => maskOf e.cols (hs % 4, pc)).foldl (· ||| ·) 0) > bandCap band

/-- The failure of step 6: the lease table, the refresh step and the masks against the bands of the stacks that the windows map or the leases name, rows out of service; `nodes` are the
LEASEREFs and the windows of the root object's nodes. A lease of a shared PC fails with the cause LEASE of R231 (R513, log 19), before the coverage of R96 is looked at. -/
def stepSix (s : State) (leases : List LeaseEntry) (step : Nat) (nodes : List (Nat × List Tlb)) : Option BindFail :=
  let es := (nodes.flatMap (·.2)).eraseDups
  let shared := leases.flatMap fun e => e.shared.map fun x => (x.1, x.2.1)
  let hot := ((stacksOf es) ++ leasedStacks leases).any fun hs =>
    let h := s.hbm hs
    h.out || h.band ≥ 3 || step < bandStep h.band || overCap leases hs h.band
  let packs := (leases.map (·.pack)).eraseDups.map fun p => leases.filter fun e => e.pack = p
  if leases.any badEntry || wrongDies leases nodes then some ⟨6, 0, 0, 5, 0⟩
  else if leases.any (sharesPc shared) then some ⟨6, 0, 0, 5, 3⟩
  else if packs.any badPlan || badMarks leases then some ⟨6, 0, 0, 5, 0⟩
  else if hot || es.any (touchesLost s) then some ⟨6, 0, 0, 0, 0⟩
  else none

/-- The LEASEREFs of the first nodes of the root object with their windows. -/
def leaseRefs (s : State) (base : Nat) (ws : List (List Tlb × List Nat)) : List (Nat × List Tlb) :=
  ((List.range ws.length).zip ws).map fun x => (wfld (nodeWord s base x.1 3) 11 0, x.2.1)

/-- A table of 256 entries of 16 bytes at a physical address; none at address 0 (R494). -/
def readTable (s : State) (a : Nat) : SMap Tlb :=
  if a = 0 then [] else (List.range 256).map fun k => (k, ⟨readPhys64 s (a + 16 * k), readPhys64 s (a + 16 * k + 8)⟩)

/-- The first valid exported window whose pages overlap a sealed range (R506). -/
def exportsSealed (im : Image) (tab : SMap Tlb) (es : List Tlb) : Option Nat :=
  (tab.find? fun x => wfld x.2.w0 63 63 = 1 && es.any fun e =>
    e.vbase < wfld x.2.w0 47 0 + wfld x.2.w1 39 0 && wfld x.2.w0 47 0 < e.vbase + e.pageSize
      && im.sealed && im.ranges.any fun r => r.1 < e.pbase + e.pageSize && e.pbase < r.1 + r.2).map (·.1)

/-- The state with lines of a code image in the instruction buffer of a core, from a line on; one that was read poisoned is poisoned there (R127, R201). -/
def loadLines (c : Nat) : Nat → List (List Byte × Bool) → State → State
  | _, [], s => s
  | k, x :: xs, s => loadLines c (k + 1) xs (commitFace s c 3 (64 * k) x.1 x.2)

/-- The lines of a code image of `n` bytes as they are read, and the state with the log entries of their transfers (R127, R128). -/
def codeLines : Nat → Nat → Nat → State → List (List Byte × Bool) × State
  | 0, _, _, s => ([], s)
  | k + 1, a, n, s =>
    let r := readLines s a (min 64 n)
    let rest := codeLines k (a + 64) (n - 64) r.2
    ((readPhys s a (min 64 n), r.1) :: rest.1, rest.2)

/-- The state with the phase's code image in every instruction buffer (R201). -/
def loadCode (s : State) (a n : Nat) : State :=
  let (code, s) := codeLines (ceilDiv n 64) a n s
  (List.range 384).foldl (fun s c => loadLines c 0 code s) s

/-- The state with the PCs of the shared leases in atomic mode for the phase (R95). -/
def claimShared (s : State) (leases : List LeaseEntry) : State :=
  (leases.flatMap (·.shared)).foldl (fun s x => s.modHbm x.1 fun h => h.modPc x.2.1 fun q => { q with mode := 2 }) s

/-- The lease table of a phase, as the bytes of the image from LEASETAB on hold it (R494), in a layout that the spec leaves open (log 19). -/
def leaseTable (s : State) (im : Image) : List LeaseEntry :=
  let a := (phaseWord s im 3).toNat
  Config.leaseTable (readPhys s a (im.addr + im.len - a))

/-- The numbers of a lease table, as its measurement takes them. -/
def leaseNats (e : LeaseEntry) : List (List Nat) :=
  (e.pack :: e.dies) :: e.slots.map (fun x => [0, x.1, x.2.1, x.2.2]) ++ e.cols.map (fun m => [1, m.1, m.2.1, m.2.2.toNat])
    ++ e.rows.map (fun m => [2, m.1, m.2.1, m.2.2.toNat]) ++ e.shared.map fun x => [3, x.1, x.2.1, x.2.2.1, b2n x.2.2.2]

/-- The state with MPLAN extended by the phase entry and the bind plan as bound (R503). -/
def measurePlan (s : State) (im : Image) (leases : List LeaseEntry) : State :=
  let entry := (List.range 16).flatMap fun k => leBytes 8 (phaseWord s im k).toNat
  let masks := (List.range 16).flatMap fun hs => leBytes 8 (s.hbm hs).hmask.toNat
  let x := entry ++ Config.leaseBytes (leases.flatMap fun e => [e.slots.length] :: leaseNats e) ++ masks
    ++ leBytes 8 (phaseWord s im 6).toNat
  { s with psc := { s.psc with meas := smSet s.psc.meas 2 (extendMeas (smGet 0 s.psc.meas 2) x) } }

/-! ### The bind (R222, R223) -/

/-- The pieces of memory that step 4 reads: the root object, its nodes' window lists, the exported windows (R38, R506). -/
def stepFourPieces (s : State) (im : Image) : List (Nat × Nat) :=
  let base := (phaseWord s im 2).toNat
  let exps := (phaseWord s im 9).toNat
  objPieces s base ++ (if badHeader s base then [] else (List.range (nNode s base)).flatMap fun k =>
    listPieces s 0 (wfld (nodeWord s base k 2) 47 0) (wfld (nodeWord s base k 1) 39 32)) ++ [(exps, if exps = 0 then 0 else 4096)]

/-- The state after steps 1 to 3 and the reads of step 4. -/
def bindFront (s : State) (im : Image) : State :=
  let plan := phaseWord s im 6
  let s := changeHash ((List.range 16).foldl boundaryStack s) im
  let s := (List.range 16).foldl (fun s r => s.modRegion r fun k => k.bound (wfld plan (4 + r / 8) (4 + r / 8) = 1)) s
  let s := if (List.range 16).any fun r => (s.region r).nextStep.isSome then s.later (nextPublication s.now - s.now) .stepApply else s
  s.noteReads (stepFourPieces s im)

/-- The state in which the firmware has programmed TH of a stack, to a value of 256 to 65,535, or has left it (R120): which is free (log 102). -/
def programTh (s : State) (hs : Nat) : State :=
  let (k, s) := s.draw 65280
  s.modHbm hs fun h => { h with th := if k < 65280 then 256 + k else h.th }

/-- The state after step 6, the tables of the phase written (R58, R222). DESIGN CHOICE (log 128): the exported windows and the fabric TLB then stand until
the next PHASE_BIND or a reset; the end of the phase or of its job takes none of them away. Of the lease table a free number of bytes is read (logs 19, 103). -/
def bindTables (s : State) (im : Image) (leases : List LeaseEntry) (es : List Tlb) : State :=
  let plan := phaseWord s im 6
  let s := (List.range 16).foldl programTh s
  let kennel : Word := BitVec.ofNat 64 (wfld plan 63 16)
  let fw := readTable s (phaseWord s im 8).toNat
  let ex := readTable s (phaseWord s im 9).toNat
  let s := { s with cores := smMap (fun _ (k : Core) => { k with kennel := kennel }) s.cores }
  let s := { s with leases := leases, fwtab := fw }
  let s := { s with exptab := ex, barriers := [] }
  let s := { s with psc := { s.psc with saveArea := some (wfld (phaseWord s im 7) 39 0) } }
  let s := { s with ftlb := es.take 4096 }
  let (n, s) := s.draw (im.addr + im.len - (phaseWord s im 3).toNat)
  let s := s.noteReads [((phaseWord s im 3).toNat, n), ((phaseWord s im 8).toNat, if (phaseWord s im 8).toNat = 0 then 0 else 4096)]
  measurePlan ((List.range 16).foldl lookHbm (claimShared s leases)) im leases

/-- The state after step 7 (R217, R223): the root object sealed, its instance created, its source nodes ready. -/
def bindRoot (s : State) (base : Nat) (ws : List (List Tlb × List Nat)) : State :=
  let (s, code, ix) := sealObject s base
  if code ≠ 0 then failPhase s 7 ix 0 code 0
  else
    match freeSlot s base with
    | none => failPhase s 7 0 0 7 0
    | some slot =>
      let i : Inst := { obj := base, objva := 0, slot := slot, serial := 0, root := true, windows := true, entries := allEntries ws }
      let (s, id, _) := newInst s base (BitVec.ofNat 64 base) slot [] i
      let s := ((List.range ws.length).zip ws).foldl (fun s x =>
        fillRegions (s.modNode id x.1 fun n => { n with wins := some x.2.1, cands := x.2.2 }) id x.1) s
      readyNodes ({ setJob s 2 0 with psc := { (setJob s 2 0).psc with phaseOpen := true, jphase := s.psc.nextPhase } }) id

/-- The state in which the bind has failed. -/
def bindFailed (s : State) (f : BindFail) : State := failPhase s f.step f.ix f.wix f.code f.cause

/-- The state after the seven steps of the bind of a phase with a lease table; a refusal at a step fails the phase and the job. -/
def bindPhase (leases : List LeaseEntry) (im : Image) (s : State) : State :=
  if badPhase s im then bindFailed s ⟨0, 0, 0, 0, 0⟩
  else
    let base := (phaseWord s im 2).toNat
    let s := bindFront s im
    match fillRoot s base (min 4096 (nNode s base)) with
    | .error f => bindFailed s f
    | .ok (s, ws) =>
      let es := allEntries ws
      match exportsSealed im (readTable s (phaseWord s im 9).toNat) es with
      | some k => bindFailed s ⟨4, k, 0, 6, 1⟩
      | none =>
        let s := loadCode s (phaseWord s im 0).toNat (phaseWord s im 1).toNat
        match stepSix s leases (wfld (phaseWord s im 6) 3 0) (leaseRefs s base ws) with
        | some f => bindFailed s f
        | none => bindRoot (bindTables s im leases es) base ws

/-- PHASE_BIND (R222). The Shepherds bind the next phase of a verified or running job in seven steps; `leases` is the lease table that they have read at the phase's LEASETAB
(R494, log 19): no other makes a bind. -/
def execPhaseBind (leases : List LeaseEntry) (s : State) : Host.Outcome State Fault Refusal :=
  .next <|
    match s.psc.image with
    | none => s
    | some im =>
      if !s.jobRuns || s.psc.phaseOpen || !s.packs.isEmpty || leases ≠ leaseTable s im then s
      else bindPhase leases im s

end Sys2Proof.Machine
end

