-- ==== Sys2Proof/Machine/HostEvents.lean ====
section
/-!
DEFINITION. What the host does, the Jeloth interface and boot (spec/17_host_fabric_security.md R488 to R499, R503, R507, R509;
spec/01_address_spaces.md R56, R57; spec/04_time_and_alignment.md R163; spec/16_clocks_power_thermal.md R476).
-/
namespace Sys2Proof.Machine

/-! ### The control range (R488) -/

/-- JSTAT (R491). -/
def jstat (p : Psc) : Word :=
  BitVec.ofNat 64 (p.jserial % 2 ^ 16 * 2 ^ 48 + p.jphase % 256 * 2 ^ 40 + p.jerr % 256 * 2 ^ 32 + p.jstate % 16)

/-- JCANCEL (R488, R211). Writing 1 in bit 0 cancels the job. -/
def execJcancel (v : Word) (s : State) : Host.Outcome State Fault Refusal := .next (if bit v.toNat 0 then cancelJob s else s)

/-- HWBASE_WRITE (R56, R488). The base of the memory range, bits 39:36; ignored while a job runs. -/
def execHwbaseWrite (v : Word) (s : State) : Host.Outcome State Fault Refusal :=
  .next (if s.jobRuns then s else { s with psc := { s.psc with hwbase := BitVec.ofNat 64 (wfld v 39 36 * 2 ^ 36) } })

/-- JCAUSE_CLEAR (R492). Each bit written 1 clears its sticky bit. -/
def execJcauseClear (v : Word) (s : State) : Host.Outcome State Fault Refusal :=
  .next { s with psc := { s.psc with jcause := (BitVec.ofNat 64 s.psc.jcause &&& ~~~v).toNat } }

/-- CLKSTAT_CLEAR (R163). The sticky bits FREERUN and DROOPOVR clear where 1 is written to them: core regions 0 to 15, HBM regions 16 to 31,
fabric region 32. -/
def execClkstatClear (r : Nat) (v : Word) (s : State) : Host.Outcome State Fault Refusal :=
  if r > 32 then .fault (.noSuchUnit r)
  else
    .next <|
      let fr := bit v.toNat 1
      if r < 16 then
        s.modRegion r fun k => { k with freerun := k.freerun && !fr, droopovr := k.droopovr && !bit v.toNat 2 }
      else if r < 32 then s.modHbm (r - 16) fun h => { h with freerun := h.freerun && !fr }
      else { s with psc := { s.psc with clkFab := if fr then s.psc.clkFab % 2 else s.psc.clkFab } }

/-- CLKSTAT of a region (R163). -/
def clkstat (s : State) (r : Nat) : Word :=
  if r < 16 then
    let k := s.region r
    BitVec.ofNat 64 (k.nstretch % 2 ^ 16 * 2 ^ 16 + b2n k.reverse * 256 + b2n k.droopovr * 4 + b2n k.freerun * 2 + b2n k.lock)
  else if r < 32 then BitVec.ofNat 64 (b2n (s.hbm (r - 16)).freerun * 2 + b2n (s.hbm (r - 16)).lock)
  else BitVec.ofNat 64 s.psc.clkFab

/-- What the host reads at an aligned offset of the control range (R488): an offset not listed reads zero. -/
def hostRegister (s : State) (off : Nat) : Word :=
  let p := s.psc
  if off % 8 ≠ 0 then 0
  else if off = 0x0008 then jstat p
  else if off = 0x0018 then p.hwbase
  else if off = 0x0020 then BitVec.ofNat 64 p.sacnt
  else if off = 0x0028 then BitVec.ofNat 64 p.jcause
  else if off = 0x0030 then BitVec.ofNat 64 p.hbeat
  else if 0x1000 ≤ off && off < 0x1800 then smGet 0 p.msix off
  else if 0x1800 ≤ off && off < 0x2000 then p.resp.getD ((off - 0x1800) / 8) 0
  else if 0x2000 ≤ off && off < 0x2200 then msixWord p off
  else if off = 0x3000 then p.pba
  else 0

/-! ### The Jeloth mailbox (R493) -/

/-- The state with a response: its status and tag, then its data; JCAUSE bit 4 (R493, log 22). -/
def respond (s : State) (tag status : Nat) (data : List Word := []) : State :=
  ({ s with psc := { s.psc with
      resp := BitVec.ofNat 64 (tag % 2 ^ 32 * 2 ^ 32 + status) :: data
      serving := if s.psc.serving = some tag then none else s.psc.serving } }).cause 4

/-- Word `k` of the request area, and the bytes of it from word `k` on up to the length of the request. -/
def reqWord (p : Psc) (k : Nat) : Word := smGet 0 p.msix (0x1000 + 8 * k)
@[inherit_doc reqWord] def reqBytes (p : Psc) (k len : Nat) : List Byte :=
  ((List.range 256).flatMap fun i => leBytes 8 (reqWord p (k + i)).toNat).take (len - 8 * k)

/-- The step that serves a request of `len` bytes (R493), its operands from the words behind the first (log 22); none where CMD is not one of Jeloth's or the
length does not fit it. -/
def requestStep (p : Psc) (cmd tag len : Nat) : Option Ev :=
  let a := (reqWord p 1).toNat
  let need (n : Nat) (e : Ev) : Option Ev := if 8 + n ≤ len && len ≤ 2048 then some e else none
  match cmd with
  | 1 => need 8 (.readErrorLog tag a)
  | 2 => need 0 (.readClocks tag)
  | 3 => need 8 (.setPcap tag a)
  | 4 => need 0 (.readEnergy tag)
  | 5 => need 8 (.readAvailabilityMap tag a)
  | 6 => need 8 (.setPkgid tag a)
  | 7 => need 0 (.readKeys tag)
  | 8 => need 32 (.attest tag (reqBytes p 1 len))
  | 9 => need 8 (.readTrace tag (a % 2 ^ 63) (bit a 63))
  | 10 => need 8 (.installFirmware tag a (reqBytes p 2 len))
  | 11 => need 0 (.readPhaseFailure tag)
  | _ => none

/-- The state after the host has written the first word of a request, which it writes last (R493): a malformed one is answered with status 2; any other is served at a free time
(log 5). -/
def request (s : State) (v : Word) : State :=
  let tag := wfld v 63 32
  match requestStep s.psc (wfld v 15 0) tag (wfld v 31 16) with
  | none => respond s tag 2
  | some e =>
    let (k, s) := s.drawAny
    ({ s with psc := { s.psc with serving := some tag } }).later k e

/-- The service of a request with a tag: one that comes while another is being served is discarded (R493). -/
def serve (s : State) (tag : Nat) (f : State → State) : Host.Outcome State Fault Refusal :=
  .next (if s.psc.serving.getD tag = tag then f s else s)

/-- The state after a write of the MSI-X table: a vector that is no longer masked is no longer pending (log 23). -/
def unmask (s : State) (off : Nat) : State :=
  let v := (off - 0x2000) / 16
  if masked s.psc v then s else { s with psc := { s.psc with pba := s.psc.pba &&& ~~~(BitVec.ofNat 64 (2 ^ v)) } }

/-- A list of words with one changed, zeros before it where it is longer. -/
def putWord (ws : List Word) (k : Nat) (v : Word) : List Word := (ws ++ List.replicate (k + 1 - ws.length) 0).set k v

/-- REGISTER_WRITE (R488). A host write of an aligned word of the control range: a register with a step of its own takes it; the words of the mailbox and
of the MSI-X table store it; offsets not listed ignore it. DESIGN CHOICE (log 22): any word of the request area that is written while a request is being served belongs to a request
that is discarded. -/
def execRegisterWrite (off : Nat) (v : Word) (s : State) : Host.Outcome State Fault Refusal :=
  .next <|
    let kept := { s with psc := { s.psc with msix := smSet s.psc.msix off v } }
    if off % 8 ≠ 0 then s
    else if off = 0x0000 then s.later 0 (.jstart v)
    else if off = 0x0010 then s.later 0 (.jcancel v)
    else if off = 0x0018 then s.later 0 (.hwbaseWrite v)
    else if off = 0x0028 then s.later 0 (.jcauseClear v)
    else if 0x1000 ≤ off && off < 0x1800 then
      if s.psc.serving.isSome then s else if off = 0x1000 then request kept v else kept
    else if 0x1800 ≤ off && off < 0x2000 then { s with psc := { s.psc with resp := putWord s.psc.resp ((off - 0x1800) / 8) v } }
    else if 0x2000 ≤ off && off < 0x2200 then unmask kept off
    else s

/-! ### The memory range (R56, R57, R216) -/

/-- The state after the first aligned piece of host read number `id` of `n` bytes (R56, R57, R173): sealed bytes return 0xFF, and a piece of them alone makes no transfer; the next piece follows at a free time
(log 5). DESIGN CHOICE (log 113): a piece maps under the HWBASE that stands when it is made. DESIGN CHOICE (log 130): a burst that comes poisoned returns its
stored bytes, with no mark to the host. -/
def readPiece (s : State) (id off n : Nat) : State :=
  let pa := hostPhys s off
  let k := hostPiece off n
  let d := (List.range k).map fun i => if inSealedRange s (pa + i) then (0xFF : Byte) else (readPhys s (pa + i) 1).headD 0
  let shut : Bool := (List.range k).all fun i => inSealedRange s (pa + i)
  let s := { s with psc := { s.psc with hostData := s.psc.hostData ++ d } }
  let s := sealedAccess (if shut then s else (readLines s pa k).2) pa k
  if n ≤ k then s
  else
    let (w, s) := s.drawAny
    s.later w (.hostReadPiece id (off + k) (n - k))

/-- HOST_MEMORY_READ (R56, R57, R173). A host read of `n` bytes through the memory range, piece by piece. -/
def execHostMemoryRead (off n : Nat) (s : State) : Host.Outcome State Fault Refusal :=
  .next <|
    if off + n > 2 ^ 36 then s
    else readPiece { s with psc := { s.psc with hostData := [], hostId := s.psc.hostId + 1 } } (s.psc.hostId + 1) off n

/-- A further piece of a host read (R173); a read that a newer one has replaced has ended. -/
def furtherPiece (id off n : Nat) (s : State) : Host.Outcome State Fault Refusal := .next (if id = s.psc.hostId then readPiece s id off n else s)

/-- HOST_MEMORY_WRITE (R56, R57, R173, R216). A host write through the memory range: its first aligned piece now, the rest at free times (log 5); a piece that
meets a sealed range or a sealed graph object is counted. -/
def execHostMemoryWrite (off : Nat) (data : List Byte) (s : State) : Host.Outcome State Fault Refusal :=
  .next (if off + data.length > 2 ^ 36 then s else writeOn off data s)

/-- HEARTBEAT (R509). HBEAT is incremented every 100 ms. -/
def execHeartbeat (s : State) : Host.Outcome State Fault Refusal :=
  .next <| ({ s with psc := { s.psc with hbeat := (s.psc.hbeat + 1) % 2 ^ 32 } }).later 1800000000 .heartbeat

/-! ### Jeloth commands (R493) -/

/-- Bytes as words, the first byte lowest. -/
def wordsOf (bs : List Byte) : List Word := (List.range (ceilDiv bs.length 8)).map fun i => BitVec.ofNat 64 (leNat ((bs.drop (8 * i)).take 8))

/-- A number as a response word. -/
def rw (n : Nat) : Word := BitVec.ofNat 64 n

/-- READ_ERROR_LOG (R133, R493). The entries of a stack's log, oldest first, from a given entry on, since the response area shows 63 at a time: `sel` is the stack
in bits 3:0 and the first entry above (log 22). -/
def execReadErrorLog (tag sel : Nat) (s : State) : Host.Outcome State Fault Refusal :=
  serve s tag fun s =>
    if sel / 16 ≥ 1024 then respond s tag 2 else respond s tag 0 (((s.hbm (sel % 16)).log.drop (sel / 16)).flatMap id)

/-- What CMD 2 returns besides the CLKSTAT words (R477, R481, R484, R487, R496): the boot step that failed, the whistles of other jobs (R483), the trips, the sensors, their
highest readings, the MUZZLE history. -/
def powerWords (s : State) : List Word :=
  [rw s.psc.bootFail, rw s.psc.whistleCnt, rw s.psc.trips.length] ++ s.psc.trips.flatMap (fun t => [rw (b2n t.1), rw t.2.1, rw t.2.2])
    ++ ((List.range 16).flatMap fun r => (s.region r).temps).map rw ++ s.psc.peaks.map rw
    ++ s.psc.muzzle.flatMap (fun m => [rw m.1, rw m.2.1, rw m.2.2.1, rw m.2.2.2])

/-- The first word of its data that a READ_CLOCKS or a READ_ENERGY shows: word 1 of the request being served where it has one, else 0 (log 22). -/
def pageFrom (p : Psc) : Nat := if wfld (reqWord p 0) 31 16 < 16 then 0 else (reqWord p 1).toNat

/-- READ_CLOCKS (R163, R477, R481, R493). CLKSTAT of every region, the trips, the sensors and the MUZZLE history, from the word on that the request names, since the
response area shows 255 at a time (log 22). -/
def execReadClocks (tag : Nat) (s : State) : Host.Outcome State Fault Refusal :=
  serve s tag fun s => respond s tag 0 (((List.range 33).map (clkstat s) ++ powerWords s).drop (pageFrom s.psc))

/-- SET_PCAP (R476). The package power cap, 2,000 W to 10,000 W in steps of 50 W. -/
def execSetPcap (tag watts : Nat) (s : State) : Host.Outcome State Fault Refusal :=
  serve s tag fun s =>
    if watts < 2000 || watts > 10000 || watts % 50 ≠ 0 then respond s tag 2
    else respond { s with psc := { s.psc with pcap := watts } } tag 0

/-- READ_ENERGY (R245, R493). The accounts of the job, of maintenance and of each live instance, in µJ, from the word on that the request names, since the response area
shows 255 at a time (log 22). -/
def execReadEnergy (tag : Nat) (s : State) : Host.Outcome State Fault Refusal :=
  serve s tag fun s =>
    respond s tag 0 (([rw s.psc.energyJob, rw s.psc.energyMaint] ++ s.walker.insts.flatMap fun i => [i.2.handle, rw i.2.energy]).drop (pageFrom s.psc))

/-- The two words of a PC in the availability map (R134, R486, R497), which changes only at phase boundaries. -/
def availability (s : State) (hs pc : Nat) : List Word :=
  let live := ((List.range 64).map fun b => if (s.hbm hs).out || ((s.hbm hs).bank pc b).retired then 0 else 2 ^ b).foldl (· + ·) 0
  [rw live, rw (((s.hbm hs).pc pc).shown % 4 * 16 + b2n ((s.hbm hs).pc pc).half)]

/-- The layer classes of the 96 cores above an HBM stack (R411), eight to a word (log 22). -/
def layerWords (s : State) (hs : Nat) : List Word :=
  (List.range 12).map fun j => BitVec.ofNat 64 (packNat 8 ((List.range 8).map fun i => (s.core (hs / 4 * 96 + 8 * j + i)).lavail))

/-- READ_AVAILABILITY_MAP (R134, R411, R493). The bank map of a stack, and the layer classes of the cores above it. -/
def execReadAvailabilityMap (tag hs : Nat) (s : State) : Host.Outcome State Fault Refusal :=
  serve s tag fun s =>
    if hs ≥ 16 then respond s tag 2 else respond s tag 0 ((List.range 64).flatMap (availability s hs) ++ layerWords s hs)

/-- SET_PKGID (R493, R496, R504). PKGID, 0 to 1,023, while no job runs. -/
def execSetPkgid (tag id : Nat) (s : State) : Host.Outcome State Fault Refusal :=
  serve s tag fun s =>
    if s.jobRuns then respond s tag 1
    else if id > 1023 then respond s tag 2
    else respond { s with psc := { s.psc with pkgid := id } } tag 0

/-- The public keys with their signatures (R498): the identity key under Aedair's certificate, the KEM key under the identity key's. -/
def publicKeys : List Byte :=
  Config.xmssPublic identityKey ++ Config.certificate (Config.xmssPublic identityKey)
    ++ Config.kemPublic kemKey ++ Config.kemSignature identityKey (Config.kemPublic kemKey)

/-- READ_KEYS (R498). The public keys with their signatures. -/
def execReadKeys (tag : Nat) (s : State) : Host.Outcome State Fault Refusal := serve s tag fun s => respond s tag 0 (wordsOf publicKeys)

/-- The report of an attestation (R503): the four registers, the nonce, JSTAT, the signature index. -/
def report (s : State) (nonce : List Byte) : List Byte :=
  ((List.range 4).flatMap fun k => leBytes 64 (smGet 0 s.psc.meas k)) ++ nonce ++ leBytes 8 (jstat s.psc).toNat ++ leBytes 8 s.psc.sigidx

/-- ATTEST (R499, R503). The signature index is committed before the signature is released; after 2^20 of them every request is refused with status 3. -/
def execAttest (tag : Nat) (nonce : List Byte) (s : State) : Host.Outcome State Fault Refusal :=
  serve s tag fun s =>
    if nonce.length ≠ 32 then respond s tag 2
    else if s.psc.sigidx ≥ 2 ^ 20 then respond s tag 3
    else
      let r := report s nonce
      let s' := { s with psc := { s.psc with sigidx := s.psc.sigidx + 1 } }
      respond s' tag 0 (wordsOf (r ++ Config.xmssSign identityKey s.psc.sigidx r))

/-- READ_TRACE (R507). The records of a cube stack from a given one on, `sel` being the stack in bits 1:0 and the first record above (log 22), and the choice of
stop mode; of a sealed job only after its end. -/
def execReadTrace (tag sel : Nat) (stop : Bool) (s : State) : Host.Outcome State Fault Refusal :=
  serve s tag fun s =>
    let die := sel % 4
    if sel / 4 ≥ 2 ^ 21 then respond s tag 2
    else
      let t := smGet {} s.traces die
      let closed : Bool := s.jobRuns && ((s.psc.image.map (·.sealed)).getD false)
      let s' := { s with traces := smSet s.traces die { t with stop := stop } }
      respond s' tag 0 (if closed then [] else rw t.dropped :: (t.recs.drop (sel / 4)).flatMap id)

/-- Whether a firmware image of a kind passes its checks (R495): the signature, and the version against the fuse counter. -/
def firmwareOk (p : Psc) (kind : Nat) (image : List Byte) : Bool :=
  Config.xmssVerify kind image && smGet 0 p.fwver kind ≤ Config.imageVersion kind image

/-- INSTALL_FIRMWARE (R493, R495). A verified image of its kind (0 package system controller, 1 Shepherd, 2 HBM management core) is installed and raises the
fuse counter; it runs from the next reset, or the next job for kind 1. -/
def execInstallFirmware (tag kind : Nat) (image : List Byte) (s : State) : Host.Outcome State Fault Refusal :=
  serve s tag fun s =>
    if s.jobRuns then respond s tag 1
    else if kind ≥ 3 || !firmwareOk s.psc kind image then respond s tag 2
    else
      let s' := { s with psc := { s.psc with
        fwver := smSet s.psc.fwver kind (Config.imageVersion kind image), fwnew := smSet s.psc.fwnew kind (Config.shake256 512 image) } }
      respond s' tag 0

/-- READ_PHASE_FAILURE (R493). The first phase failure of the job; zero if no phase failed. -/
def execReadPhaseFailure (tag : Nat) (s : State) : Host.Outcome State Fault Refusal :=
  serve s tag fun s => respond s tag 0 ((if s.psc.pfail.isEmpty then [0, 0, 0, 0, 0, 0] else s.psc.pfail).map rw)

/-! ### Boot (R496, R497) -/

/-- LAVAIL of the cores of a cube stack after the layer test (R411, R497). -/
def bootLavail (die : Nat) : Nat :=
  let n := Config.layersPassing die
  if n ≥ 8 then 0xFF else if n = 7 then 0x7F else 0

/-- A stack after its training (R134, R496): the banks out of service, and, under a cube stack out of service, the stack itself. -/
def bootHbm (hs : Nat) : Hbm :=
  let dead := (List.range 4096).filter fun k => !(Config.liveAtBoot hs (k / 64)).getLsbD (k % 64)
  { lock := true, power := .idle 0, out := bootLavail (hs / 4) = 0, banks := dead.map fun k => (k, { retired := true }) }

/-- The digest of the image of a kind that runs from this reset (R495, R503): the one installed, else the one delivered. -/
def bootDigest (p : Psc) (kind : Nat) : Nat := (smFind p.fwnew kind).getD (Config.shake256 512 (Config.firmware kind))

/-- Whether the image of a kind may run (R495): an installed one has been verified, the one delivered is verified at boot. -/
def firmwareRuns (p : Psc) (kind : Nat) : Bool := (smFind p.fwnew kind).isSome || firmwareOk p kind (Config.firmware kind)

/-- Whether a step of boot passes (R496): steps 1 and 2 verify the firmware they start, what else a step does is the configuration's. -/
def bootStep (s : State) (k : Nat) : Bool :=
  Config.bootStepPasses s.now k && (if k = 1 then firmwareRuns s.psc 0 else if k = 2 then firmwareRuns s.psc 1 && firmwareRuns s.psc 2 else true)

/-- The state with the generator of a core region locked, as a reset leaves the region (R139, R160). -/
def lockRegion (s : State) (r : Nat) : State := s.setRegion r (Region.locked { edge := s.now + 1 })

/-- The state with the periodic readings of a stack due. -/
def bootTimers (s : State) (hs : Nat) : State :=
  let (t, s) := s.drawAny
  (s.later 40960 (.hbmTemperatureRead hs t)).later (10 * 2 ^ 22) (.rcntWindowClear hs)

/-- The state after a boot whose steps have all passed. -/
def bootDone (s : State) : State :=
  let s := { s with
    cores := (List.range 384).map fun c => (c, ({ lavail := bootLavail (c / 96) } : Core))
    hbms := (List.range 16).map fun hs => (hs, bootHbm hs)
    psc := { s.psc with booted := true, pkgid := 1023, clkFab := 1, fwrun := (List.range 3).map fun k => (k, bootDigest s.psc k) } }
  let s := (List.range 16).foldl lockRegion s
  let s := (List.range 16).foldl bootTimers s
  let (ts, s) := freeTemps s
  s.later 18000 (.sensorSample ts)

/-- A stack whose PCs have counted as idle what a region, `k` of its cube stack, counted before its counter began anew (R137, R232). -/
def Hbm.recount (h : Hbm) (k : Nat) (lost : Int) : Hbm :=
  let less (q : Pc) : List Int := (List.range q.idleAt.length).map fun j => if j = k then q.idleAt.getD j 0 - lost else q.idleAt.getD j 0
  { h with pcs := smMap (fun _ (q : Pc) => { q with idleAt := less q }) h.pcs }

/-- The state in which the host has restored the power of the core rails after a trip (R484): the generators lock again, the regions are awake, the sensors go on. -/
def restorePower (s : State) : State :=
  let s := (List.range 16).foldl (fun s r =>
    let old := s.region r
    let s := (lockRegion s r).modRegion r fun k => { k with temps := old.temps }
    (List.range 4).foldl (fun s j => s.modHbm (r / 4 * 4 + j) fun h => h.recount (r % 4) old.hw.toNat) s) s
  { s with psc := { s.psc with tripped := false } }

/-- The package as a reset leaves it (R495, R499): its fuses, its one-time storage and the installed firmware stay; the periodic steps begin anew. -/
def powerOn (s : State) : State :=
  { State.reset with
    now := s.now, fresh := s.fresh, work := []
    psc := { fwver := s.psc.fwver, fwnew := s.psc.fwnew, sigidx := s.psc.sigidx }
    timers := State.reset.timers.map fun x => (nextPublication (s.now + 1) - 320 + x.1, x.2) }

/-- The state after the five steps of boot in order; a failed one holds the package in STATE 4 with ERR 9 (R496). -/
def bootUp (s : State) : State :=
  match [1, 2, 3, 4, 5].find? fun k => !bootStep s k with
  | some k => setJob { s with psc := { s.psc with bootFail := k } } 4 9
  | none => bootDone s

/-- BOOT (R496). The boot of the package, which begins anew where an earlier one has failed. At one that has booted it stands for a reset, behind which it boots again; at one that a trip has cut off, for the
host's restoring of the power, once every sensor reads below 60 °C (R484, log 108). -/
def execBoot (s : State) : Host.Outcome State Fault Refusal :=
  .next <|
    if !s.psc.booted then bootUp (if s.psc.bootFail = 0 then s else powerOn s)
    else if s.psc.tripped then (if (List.range 16).all fun r => (s.region r).hot < 240 then restorePower s else s)
    else bootUp (powerOn s)

end Sys2Proof.Machine
end

