-- ==== Sys2Proof/Machine/Dispatch.lean ====
section
/-!
DEFINITION. The dispatch: one arm for each constructor of Instr, each a direct call of its meaning.
-/
namespace Sys2Proof.Machine

/-- The execution of one instruction word or step. -/
def exec (i : Instr) (s : State) : Host.Outcome State Fault Refusal :=
  match i with
  | .nop h => Sys2Proof.Machine.execNop h s
  | .add h d a b => Sys2Proof.Machine.execAdd h d a b s
  | .sub h d a b => Sys2Proof.Machine.execSub h d a b s
  | .addi h d a im => Sys2Proof.Machine.execAddi h d a im s
  | .mul h d a b => Sys2Proof.Machine.execMul h d a b s
  | .mulhs h d a b => Sys2Proof.Machine.execMulhs h d a b s
  | .mulhu h d a b => Sys2Proof.Machine.execMulhu h d a b s
  | .and h d a b => Sys2Proof.Machine.execAnd h d a b s
  | .or h d a b => Sys2Proof.Machine.execOr h d a b s
  | .xor h d a b => Sys2Proof.Machine.execXor h d a b s
  | .andi h d a im => Sys2Proof.Machine.execAndi h d a im s
  | .ori h d a im => Sys2Proof.Machine.execOri h d a im s
  | .xori h d a im => Sys2Proof.Machine.execXori h d a im s
  | .shl h d a b => Sys2Proof.Machine.execShl h d a b s
  | .shr h d a b => Sys2Proof.Machine.execShr h d a b s
  | .sar h d a b => Sys2Proof.Machine.execSar h d a b s
  | .shli h d a im => Sys2Proof.Machine.execShli h d a im s
  | .shri h d a im => Sys2Proof.Machine.execShri h d a im s
  | .sari h d a im => Sys2Proof.Machine.execSari h d a im s
  | .min h d a b => Sys2Proof.Machine.execMin h d a b s
  | .max h d a b => Sys2Proof.Machine.execMax h d a b s
  | .minu h d a b => Sys2Proof.Machine.execMinu h d a b s
  | .maxu h d a b => Sys2Proof.Machine.execMaxu h d a b s
  | .li h d im => Sys2Proof.Machine.execLi h d im s
  | .sel h d a b => Sys2Proof.Machine.execSel h d a b s
  | .cmpeq h e a b => Sys2Proof.Machine.execCmpeq h e a b s
  | .cmpne h e a b => Sys2Proof.Machine.execCmpne h e a b s
  | .cmplt h e a b => Sys2Proof.Machine.execCmplt h e a b s
  | .cmple h e a b => Sys2Proof.Machine.execCmple h e a b s
  | .cmpltu h e a b => Sys2Proof.Machine.execCmpltu h e a b s
  | .cmpleu h e a b => Sys2Proof.Machine.execCmpleu h e a b s
  | .cmpeqi h e a im => Sys2Proof.Machine.execCmpeqi h e a im s
  | .cmplti h e a im => Sys2Proof.Machine.execCmplti h e a im s
  | .pand h pd pa pb => Sys2Proof.Machine.execPand h pd pa pb s
  | .por h pd pa pb => Sys2Proof.Machine.execPor h pd pa pb s
  | .pxor h pd pa pb => Sys2Proof.Machine.execPxor h pd pa pb s
  | .pandn h pd pa pb => Sys2Proof.Machine.execPandn h pd pa pb s
  | .xmov h d a => Sys2Proof.Machine.execXmov h d a s
  | .qrd h d q => Sys2Proof.Machine.execQrd h d q s
  | .fadd h r d a b => Sys2Proof.Machine.execFadd h r d a b s
  | .fsub h r d a b => Sys2Proof.Machine.execFsub h r d a b s
  | .fmul h r d a b => Sys2Proof.Machine.execFmul h r d a b s
  | .ffma h r d a b => Sys2Proof.Machine.execFfma h r d a b s
  | .fmin h d a b => Sys2Proof.Machine.execFmin h d a b s
  | .fmax h d a b => Sys2Proof.Machine.execFmax h d a b s
  | .dadd h r d a b => Sys2Proof.Machine.execDadd h r d a b s
  | .dsub h r d a b => Sys2Proof.Machine.execDsub h r d a b s
  | .dmul h r d a b => Sys2Proof.Machine.execDmul h r d a b s
  | .dfma h r d a b => Sys2Proof.Machine.execDfma h r d a b s
  | .dmin h d a b => Sys2Proof.Machine.execDmin h d a b s
  | .dmax h d a b => Sys2Proof.Machine.execDmax h d a b s
  | .fcmpeq h e a b => Sys2Proof.Machine.execFcmpeq h e a b s
  | .fcmplt h e a b => Sys2Proof.Machine.execFcmplt h e a b s
  | .fcmple h e a b => Sys2Proof.Machine.execFcmple h e a b s
  | .dcmpeq h e a b => Sys2Proof.Machine.execDcmpeq h e a b s
  | .dcmplt h e a b => Sys2Proof.Machine.execDcmplt h e a b s
  | .dcmple h e a b => Sys2Proof.Machine.execDcmple h e a b s
  | .cvt h r d a x => Sys2Proof.Machine.execCvt h r d a x s
  | .b h im => Sys2Proof.Machine.execB h im s
  | .call h d im => Sys2Proof.Machine.execCall h d im s
  | .jr h a => Sys2Proof.Machine.execJr h a s
  | .loop h a n => Sys2Proof.Machine.execLoop h a n s
  | .endTask h => Sys2Proof.Machine.execEndTask h s
  | .fdiv h r d a b => Sys2Proof.Machine.execFdiv h r d a b s
  | .fsqrt h r d a => Sys2Proof.Machine.execFsqrt h r d a s
  | .ddiv h r d a b => Sys2Proof.Machine.execDdiv h r d a b s
  | .dsqrt h r d a => Sys2Proof.Machine.execDsqrt h r d a s
  | .vmov ch d a => Sys2Proof.Machine.execVmov ch d a s
  | .vfadd ch w d a b => Sys2Proof.Machine.execVfadd ch w d a b s
  | .vfsub ch w d a b => Sys2Proof.Machine.execVfsub ch w d a b s
  | .vfmul ch w d a b => Sys2Proof.Machine.execVfmul ch w d a b s
  | .vfma ch w d a b => Sys2Proof.Machine.execVfma ch w d a b s
  | .vfmin ch w d a b => Sys2Proof.Machine.execVfmin ch w d a b s
  | .vfmax ch w d a b => Sys2Proof.Machine.execVfmax ch w d a b s
  | .vadd ch w d a b => Sys2Proof.Machine.execVadd ch w d a b s
  | .vsub ch w d a b => Sys2Proof.Machine.execVsub ch w d a b s
  | .vmul ch w d a b => Sys2Proof.Machine.execVmul ch w d a b s
  | .vmin ch w d a b => Sys2Proof.Machine.execVmin ch w d a b s
  | .vmax ch w d a b => Sys2Proof.Machine.execVmax ch w d a b s
  | .vminu ch w d a b => Sys2Proof.Machine.execVminu ch w d a b s
  | .vmaxu ch w d a b => Sys2Proof.Machine.execVmaxu ch w d a b s
  | .vand ch d a b => Sys2Proof.Machine.execVand ch d a b s
  | .vor ch d a b => Sys2Proof.Machine.execVor ch d a b s
  | .vxor ch d a b => Sys2Proof.Machine.execVxor ch d a b s
  | .vshl ch w d a b => Sys2Proof.Machine.execVshl ch w d a b s
  | .vshr ch w d a b => Sys2Proof.Machine.execVshr ch w d a b s
  | .vsar ch w d a b => Sys2Proof.Machine.execVsar ch w d a b s
  | .vfcmpeq ch w d a b => Sys2Proof.Machine.execVfcmpeq ch w d a b s
  | .vfcmplt ch w d a b => Sys2Proof.Machine.execVfcmplt ch w d a b s
  | .vcmpeq ch w d a b => Sys2Proof.Machine.execVcmpeq ch w d a b s
  | .vcmplt ch w d a b => Sys2Proof.Machine.execVcmplt ch w d a b s
  | .vsel ch w d a b => Sys2Proof.Machine.execVsel ch w d a b s
  | .vexp2 ch w d a => Sys2Proof.Machine.execVexp2 ch w d a s
  | .vrcp ch w d a => Sys2Proof.Machine.execVrcp ch w d a s
  | .vrsq ch w d a => Sys2Proof.Machine.execVrsq ch w d a s
  | .vfrsum ch w d a => Sys2Proof.Machine.execVfrsum ch w d a s
  | .vfrmax ch w d a => Sys2Proof.Machine.execVfrmax ch w d a s
  | .vbcast ch w d a => Sys2Proof.Machine.execVbcast ch w d a s
  | .vperm ch w d a b => Sys2Proof.Machine.execVperm ch w d a b s
  | .vcvt ch d a x => Sys2Proof.Machine.execVcvt ch d a x s
  | .vbmax ch w d a => Sys2Proof.Machine.execVbmax ch w d a s
  | .vqcvt ch w d a => Sys2Proof.Machine.execVqcvt ch w d a s
  | .vdeq ch w d a b => Sys2Proof.Machine.execVdeq ch w d a b s
  | .vsetfmt ch a => Sys2Proof.Machine.execVsetfmt ch a s
  | .vqmov ch d q => Sys2Proof.Machine.execVqmov ch d q s
  | .vqmovSend ch d l => Sys2Proof.Machine.execVqmovSend ch d l s
  | .cubeMm h t a b => Sys2Proof.Machine.execCubeMm h t a b s
  | .cubeMma h t a b => Sys2Proof.Machine.execCubeMma h t a b s
  | .cubeMmw h t a b => Sys2Proof.Machine.execCubeMmw h t a b s
  | .cubeMmwa h t a b => Sys2Proof.Machine.execCubeMmwa h t a b s
  | .cubePl h t a b => Sys2Proof.Machine.execCubePl h t a b s
  | .cubePla h t a b => Sys2Proof.Machine.execCubePla h t a b s
  | .cubeWl h t a b => Sys2Proof.Machine.execCubeWl h t a b s
  | .cubeFmt h t a => Sys2Proof.Machine.execCubeFmt h t a s
  | .cubeZero h t a => Sys2Proof.Machine.execCubeZero h t a s
  | .cubeDrain h t a b => Sys2Proof.Machine.execCubeDrain h t a b s
  | .cubeScore h t a b => Sys2Proof.Machine.execCubeScore h t a b s
  | .cubeResc h t a => Sys2Proof.Machine.execCubeResc h t a s
  | .cubeSide h d a b => Sys2Proof.Machine.execCubeSide h d a b s
  | .lda h d a z x => Sys2Proof.Machine.execLda h d a z x s
  | .sta h d a z => Sys2Proof.Machine.execSta h d a z s
  | .mlda h m a => Sys2Proof.Machine.execMlda h m a s
  | .msta h m a => Sys2Proof.Machine.execMsta h m a s
  | .ldw h d a z x => Sys2Proof.Machine.execLdw h d a z x s
  | .stw h d a z => Sys2Proof.Machine.execStw h d a z s
  | .mldw h m a => Sys2Proof.Machine.execMldw h m a s
  | .mstw h m a => Sys2Proof.Machine.execMstw h m a s
  | .ldc h d a z x => Sys2Proof.Machine.execLdc h d a z x s
  | .stc h d a z => Sys2Proof.Machine.execStc h d a z s
  | .mldc h m a => Sys2Proof.Machine.execMldc h m a s
  | .mstc h m a => Sys2Proof.Machine.execMstc h m a s
  | .ldx h d a z x => Sys2Proof.Machine.execLdx h d a z x s
  | .stx h d a z => Sys2Proof.Machine.execStx h d a z s
  | .mldx h m a => Sys2Proof.Machine.execMldx h m a s
  | .mstx h m a => Sys2Proof.Machine.execMstx h m a s
  | .aaddW h sp o d a b => Sys2Proof.Machine.execAaddW h sp o d a b s
  | .aaddD h sp o d a b => Sys2Proof.Machine.execAaddD h sp o d a b s
  | .asmaxW h sp o d a b => Sys2Proof.Machine.execAsmaxW h sp o d a b s
  | .asmaxD h sp o d a b => Sys2Proof.Machine.execAsmaxD h sp o d a b s
  | .asminW h sp o d a b => Sys2Proof.Machine.execAsminW h sp o d a b s
  | .asminD h sp o d a b => Sys2Proof.Machine.execAsminD h sp o d a b s
  | .aumaxW h sp o d a b => Sys2Proof.Machine.execAumaxW h sp o d a b s
  | .aumaxD h sp o d a b => Sys2Proof.Machine.execAumaxD h sp o d a b s
  | .auminW h sp o d a b => Sys2Proof.Machine.execAuminW h sp o d a b s
  | .auminD h sp o d a b => Sys2Proof.Machine.execAuminD h sp o d a b s
  | .axchgW h sp o d a b => Sys2Proof.Machine.execAxchgW h sp o d a b s
  | .axchgD h sp o d a b => Sys2Proof.Machine.execAxchgD h sp o d a b s
  | .acasW h sp o d a b => Sys2Proof.Machine.execAcasW h sp o d a b s
  | .acasD h sp o d a b => Sys2Proof.Machine.execAcasD h sp o d a b s
  | .afadd h sp o d a b => Sys2Proof.Machine.execAfadd h sp o d a b s
  | .afmax h sp o d a b => Sys2Proof.Machine.execAfmax h sp o d a b s
  | .afmin h sp o d a b => Sys2Proof.Machine.execAfmin h sp o d a b s
  | .redaddW h sp o a b => Sys2Proof.Machine.execRedaddW h sp o a b s
  | .redaddD h sp o a b => Sys2Proof.Machine.execRedaddD h sp o a b s
  | .redsmaxW h sp o a b => Sys2Proof.Machine.execRedsmaxW h sp o a b s
  | .redsmaxD h sp o a b => Sys2Proof.Machine.execRedsmaxD h sp o a b s
  | .redsminW h sp o a b => Sys2Proof.Machine.execRedsminW h sp o a b s
  | .redsminD h sp o a b => Sys2Proof.Machine.execRedsminD h sp o a b s
  | .redumaxW h sp o a b => Sys2Proof.Machine.execRedumaxW h sp o a b s
  | .redumaxD h sp o a b => Sys2Proof.Machine.execRedumaxD h sp o a b s
  | .reduminW h sp o a b => Sys2Proof.Machine.execReduminW h sp o a b s
  | .reduminD h sp o a b => Sys2Proof.Machine.execReduminD h sp o a b s
  | .redxchgW h sp o a b => Sys2Proof.Machine.execRedxchgW h sp o a b s
  | .redxchgD h sp o a b => Sys2Proof.Machine.execRedxchgD h sp o a b s
  | .redcasW h sp o d a b => Sys2Proof.Machine.execRedcasW h sp o d a b s
  | .redcasD h sp o d a b => Sys2Proof.Machine.execRedcasD h sp o d a b s
  | .redfadd h sp o a b => Sys2Proof.Machine.execRedfadd h sp o a b s
  | .redfmax h sp o a b => Sys2Proof.Machine.execRedfmax h sp o a b s
  | .redfmin h sp o a b => Sys2Proof.Machine.execRedfmin h sp o a b s
  | .act h t a => Sys2Proof.Machine.execAct h t a s
  | .pre h t a => Sys2Proof.Machine.execPre h t a s
  | .prea h t a => Sys2Proof.Machine.execPrea h t a s
  | .rd h t a b => Sys2Proof.Machine.execRd h t a b s
  | .wr h t a b => Sys2Proof.Machine.execWr h t a b s
  | .rdt h t a b => Sys2Proof.Machine.execRdt h t a b s
  | .wrt h t a b => Sys2Proof.Machine.execWrt h t a b s
  | .refpb h t a => Sys2Proof.Machine.execRefpb h t a s
  | .refab h t a => Sys2Proof.Machine.execRefab h t a s
  | .mzero h t a => Sys2Proof.Machine.execMzero h t a s
  | .mcopy h t a b => Sys2Proof.Machine.execMcopy h t a b s
  | .mcmp h t a b => Sys2Proof.Machine.execMcmp h t a b s
  | .lfence h t a => Sys2Proof.Machine.execLfence h t a s
  | .mark h t a b => Sys2Proof.Machine.execMark h t a b s
  | .copy h t a b => Sys2Proof.Machine.execCopy h t a b s
  | .mcast h t a b => Sys2Proof.Machine.execMcast h t a b s
  | .fill h t a b => Sys2Proof.Machine.execFill h t a b s
  | .heel h t y => Sys2Proof.Machine.execHeel h t y s
  | .rebase h im => Sys2Proof.Machine.execRebase h im s
  | .rdtick h d => Sys2Proof.Machine.execRdtick h d s
  | .flagset h a b => Sys2Proof.Machine.execFlagset h a b s
  | .flagwait h d a b => Sys2Proof.Machine.execFlagwait h d a b s
  | .bararr h d a => Sys2Proof.Machine.execBararr h d a s
  | .barwait h d a b => Sys2Proof.Machine.execBarwait h d a b s
  | .fence h sp => Sys2Proof.Machine.execFence h sp s
  | .put h d a b => Sys2Proof.Machine.execPut h d a b s
  | .get h d a b => Sys2Proof.Machine.execGet h d a b s
  | .ratom h d a b => Sys2Proof.Machine.execRatom h d a b s
  | .waitc h d a b => Sys2Proof.Machine.execWaitc h d a b s
  | .launch h d a b => Sys2Proof.Machine.execLaunch h d a b s
  | .ginst h d a b => Sys2Proof.Machine.execGinst h d a b s
  | .gwait h d a b => Sys2Proof.Machine.execGwait h d a b s
  | .cancel h a b => Sys2Proof.Machine.execCancel h a b s
  | .crd h d a b => Sys2Proof.Machine.execCrd h d a b s
  | .seal h a b => Sys2Proof.Machine.execSeal h a b s
  | .unseal h a b => Sys2Proof.Machine.execUnseal h a b s
  | .krd h d a im => Sys2Proof.Machine.execKrd h d a im s
  | .kwr h d a im => Sys2Proof.Machine.execKwr h d a im s
  | .tlbw h d a b => Sys2Proof.Machine.execTlbw h d a b s
  | .tlbp h d a b => Sys2Proof.Machine.execTlbp h d a b s
  | .tlbinv h d a b => Sys2Proof.Machine.execTlbinv h d a b s
  | .trap h im => Sys2Proof.Machine.execTrap h im s
  | .linsp h e l x y => Sys2Proof.Machine.execLinsp h e l x y s
  | .lpatch h e l x y => Sys2Proof.Machine.execLpatch h e l x y s
  | .lrq h e l x y => Sys2Proof.Machine.execLrq h e l x y s
  | .lreinj h e l x y => Sys2Proof.Machine.execLreinj h e l x y s
  | .resume h e l => Sys2Proof.Machine.execResume h e l s
  | .kill h e l => Sys2Proof.Machine.execKill h e l s
  | .hret h => Sys2Proof.Machine.execHret h s
  | .ldeleg h e l x y => Sys2Proof.Machine.execLdeleg h e l x y s
  | .bcw ch p v l x => Sys2Proof.Machine.execBcw ch p v l x s
  | .ext ch k v => Sys2Proof.Machine.execExt ch k v s
  | .ring ch k r b l => Sys2Proof.Machine.execRing ch k r b l s
  | .resultCommit c hd id => Sys2Proof.Machine.execResultCommit c hd id s
  | .engfmtApply c => Sys2Proof.Machine.execEngfmtApply c s
  | .localStoreCommit c hd id => Sys2Proof.Machine.execLocalStoreCommit c hd id s
  | .xAccessPerform c id => Sys2Proof.Machine.execXAccessPerform c id s
  | .xLoadReturn c hd id => Sys2Proof.Machine.execXLoadReturn c hd id s
  | .linkEntryArrive c id => Sys2Proof.Machine.execLinkEntryArrive c id s
  | .copyCommandStart c id => Sys2Proof.Machine.execCopyCommandStart c id s
  | .copyBeatRead c id => Sys2Proof.Machine.execCopyBeatRead c id s
  | .copyBeatCommit c id => Sys2Proof.Machine.execCopyBeatCommit c id s
  | .fillBeatCommit c id => Sys2Proof.Machine.execFillBeatCommit c id s
  | .heldWriteCommit c id => Sys2Proof.Machine.execHeldWriteCommit c id s
  | .timelineCommandPerform c id => Sys2Proof.Machine.execTimelineCommandPerform c id s
  | .tsvResend c id fails lane => Sys2Proof.Machine.execTsvResend c id fails lane s
  | .readDeliveryCommit c id => Sys2Proof.Machine.execReadDeliveryCommit c id s
  | .writeBurstVisible c id => Sys2Proof.Machine.execWriteBurstVisible c id s
  | .inMemoryOpComplete c id => Sys2Proof.Machine.execInMemoryOpComplete c id s
  | .mcmpResultCommit c id => Sys2Proof.Machine.execMcmpResultCommit c id s
  | .lfenceSatisfied c id => Sys2Proof.Machine.execLfenceSatisfied c id s
  | .markComplete c id => Sys2Proof.Machine.execMarkComplete c id s
  | .translationMarkerRetire c id => Sys2Proof.Machine.execTranslationMarkerRetire c id s
  | .lentSpanStart hs pc f => Sys2Proof.Machine.execLentSpanStart hs pc f s
  | .lentSpanEnd hs pc f => Sys2Proof.Machine.execLentSpanEnd hs pc f s
  | .holeMaintenance hs pc f => Sys2Proof.Machine.execHoleMaintenance hs pc f s
  | .refreshWindowExpire c hs pc bank => Sys2Proof.Machine.execRefreshWindowExpire c hs pc bank s
  | .safetyRefresh hs pc bank => Sys2Proof.Machine.execSafetyRefresh hs pc bank s
  | .idlePcRefresh hs pc => Sys2Proof.Machine.execIdlePcRefresh hs pc s
  | .rcntWindowClear hs => Sys2Proof.Machine.execRcntWindowClear hs s
  | .hbmTemperatureRead hs temp => Sys2Proof.Machine.execHbmTemperatureRead hs temp s
  | .droopStretch r => Sys2Proof.Machine.execDroopStretch r s
  | .referenceLost r => Sys2Proof.Machine.execReferenceLost r s
  | .hbmReferenceLost hs => Sys2Proof.Machine.execHbmReferenceLost hs s
  | .referenceRelock r => Sys2Proof.Machine.execReferenceRelock r s
  | .snapshotPublish => Sys2Proof.Machine.execSnapshotPublish s
  | .heelArrive c => Sys2Proof.Machine.execHeelArrive c s
  | .heelRelease g => Sys2Proof.Machine.execHeelRelease g s
  | .heelExit c => Sys2Proof.Machine.execHeelExit c s
  | .fenceEnd c hd => Sys2Proof.Machine.execFenceEnd c hd s
  | .flagwaitSatisfied c hd => Sys2Proof.Machine.execFlagwaitSatisfied c hd s
  | .barrierArrival c => Sys2Proof.Machine.execBarrierArrival c s
  | .barwaitEnd c => Sys2Proof.Machine.execBarwaitEnd c s
  | .waitcSatisfied c => Sys2Proof.Machine.execWaitcSatisfied c s
  | .gwaitEnd c => Sys2Proof.Machine.execGwaitEnd c s
  | .walkerIntakeFree c => Sys2Proof.Machine.execWalkerIntakeFree c s
  | .gAtomicPerform hs => Sys2Proof.Machine.execGAtomicPerform hs s
  | .atomicReturn c hd id => Sys2Proof.Machine.execAtomicReturn c hd id s
  | .fabricRequestIn q => Sys2Proof.Machine.execFabricRequestIn q s
  | .fabricCompletion c id code cause old => Sys2Proof.Machine.execFabricCompletion c id code cause old s
  | .getPieceCommit c id off v => Sys2Proof.Machine.execGetPieceCommit c id off v s
  | .taskRetire c => Sys2Proof.Machine.execTaskRetire c s
  | .launchEnd inst node => Sys2Proof.Machine.execLaunchEnd inst node s
  | .walkerHeldPush => Sys2Proof.Machine.execWalkerHeldPush s
  | .readyAging => Sys2Proof.Machine.execReadyAging s
  | .instanceWindowFill inst => Sys2Proof.Machine.execInstanceWindowFill inst s
  | .sealComplete => Sys2Proof.Machine.execSealComplete s
  | .phaseBind leases => Sys2Proof.Machine.execPhaseBind leases s
  | .shepherdTake die n => Sys2Proof.Machine.execShepherdTake die n s
  | .shepherdReturn die inst node pack => Sys2Proof.Machine.execShepherdReturn die inst node pack s
  | .recordWrite r slot ws => Sys2Proof.Machine.execRecordWrite r slot ws s
  | .recordWithdraw r slot pos => Sys2Proof.Machine.execRecordWithdraw r slot pos s
  | .tlbPreload c => Sys2Proof.Machine.execTlbPreload c s
  | .packRelease g => Sys2Proof.Machine.execPackRelease g s
  | .regionGateBegin r => Sys2Proof.Machine.execRegionGateBegin r s
  | .gatingComplete r => Sys2Proof.Machine.execGatingComplete r s
  | .wakeRequest r => Sys2Proof.Machine.execWakeRequest r s
  | .gateHoldOverride r time => Sys2Proof.Machine.execGateHoldOverride r time s
  | .rampStart r => Sys2Proof.Machine.execRampStart r s
  | .rampEnd r => Sys2Proof.Machine.execRampEnd r s
  | .preempt victim claimant => Sys2Proof.Machine.execPreempt victim claimant s
  | .restore inst => Sys2Proof.Machine.execRestore inst s
  | .placeBallast c => Sys2Proof.Machine.execPlaceBallast c s
  | .shepherdCancel level inst node => Sys2Proof.Machine.execShepherdCancel level inst node s
  | .shepherdTlbWrite c idx second w0 w1 => Sys2Proof.Machine.execShepherdTlbWrite c idx second w0 w1 s
  | .shepherdTlbInvalidate cs all va len => Sys2Proof.Machine.execShepherdTlbInvalidate cs all va len s
  | .energyInterval charges => Sys2Proof.Machine.execEnergyInterval charges s
  | .freezeNoticeArrive g => Sys2Proof.Machine.execFreezeNoticeArrive g s
  | .memberStop c => Sys2Proof.Machine.execMemberStop c s
  | .kennelDispatch g => Sys2Proof.Machine.execKennelDispatch g s
  | .handlerBudgetExpire c serial => Sys2Proof.Machine.execHandlerBudgetExpire c serial s
  | .packResumeRelease g epoch => Sys2Proof.Machine.execPackResumeRelease g epoch s
  | .cubeCommandStart c id => Sys2Proof.Machine.execCubeCommandStart c id s
  | .cubeStreamStep c id => Sys2Proof.Machine.execCubeStreamStep c id s
  | .cubeResultCommit c id => Sys2Proof.Machine.execCubeResultCommit c id s
  | .drainPieceCommit c id => Sys2Proof.Machine.execDrainPieceCommit c id s
  | .rescaleRowCommit c id => Sys2Proof.Machine.execRescaleRowCommit c id s
  | .scorePLineCommit c id => Sys2Proof.Machine.execScorePLineCommit c id s
  | .scoreSideCommit c id => Sys2Proof.Machine.execScoreSideCommit c id s
  | .weightLatchReplace c id => Sys2Proof.Machine.execWeightLatchReplace c id s
  | .layerFailure c layer => Sys2Proof.Machine.execLayerFailure c layer s
  | .governorEvaluation amps watts calm => Sys2Proof.Machine.execGovernorEvaluation amps watts calm s
  | .stepApply => Sys2Proof.Machine.execStepApply s
  | .sensorSample temps => Sys2Proof.Machine.execSensorSample temps s
  | .whistleSend => Sys2Proof.Machine.execWhistleSend s
  | .whistleReceive job w => Sys2Proof.Machine.execWhistleReceive job w s
  | .whistleTimeout => Sys2Proof.Machine.execWhistleTimeout s
  | .emergencyEnd => Sys2Proof.Machine.execEmergencyEnd s
  | .thermalTrip sensor => Sys2Proof.Machine.execThermalTrip sensor s
  | .currentTrip amps => Sys2Proof.Machine.execCurrentTrip amps s
  | .jstart v => Sys2Proof.Machine.execJstart v s
  | .jcancel v => Sys2Proof.Machine.execJcancel v s
  | .hwbaseWrite v => Sys2Proof.Machine.execHwbaseWrite v s
  | .jcauseClear v => Sys2Proof.Machine.execJcauseClear v s
  | .clkstatClear r v => Sys2Proof.Machine.execClkstatClear r v s
  | .registerWrite off v => Sys2Proof.Machine.execRegisterWrite off v s
  | .hostMemoryRead off n => Sys2Proof.Machine.execHostMemoryRead off n s
  | .hostMemoryWrite off data => Sys2Proof.Machine.execHostMemoryWrite off data s
  | .heartbeat => Sys2Proof.Machine.execHeartbeat s
  | .readErrorLog tag sel => Sys2Proof.Machine.execReadErrorLog tag sel s
  | .readClocks tag => Sys2Proof.Machine.execReadClocks tag s
  | .setPcap tag watts => Sys2Proof.Machine.execSetPcap tag watts s
  | .readEnergy tag => Sys2Proof.Machine.execReadEnergy tag s
  | .readAvailabilityMap tag hs => Sys2Proof.Machine.execReadAvailabilityMap tag hs s
  | .setPkgid tag id => Sys2Proof.Machine.execSetPkgid tag id s
  | .readKeys tag => Sys2Proof.Machine.execReadKeys tag s
  | .attest tag nonce => Sys2Proof.Machine.execAttest tag nonce s
  | .readTrace tag sel stop => Sys2Proof.Machine.execReadTrace tag sel stop s
  | .installFirmware tag kind image => Sys2Proof.Machine.execInstallFirmware tag kind image s
  | .readPhaseFailure tag => Sys2Proof.Machine.execReadPhaseFailure tag s
  | .boot => Sys2Proof.Machine.execBoot s
  | .shepherdKill g => Sys2Proof.Machine.execShepherdKill g s
  | .ballastStepDownEnd c => Sys2Proof.Machine.execBallastStepDownEnd c s

end Sys2Proof.Machine
end

