-- ==== Sys2Proof/Machine/Bundle.lean ====
section
/-!
DEFINITION. Fetch, bundles and the issue of one bundle (spec/09_encoding.md R277 to R283, R296, R302; spec/01_address_spaces.md R22 to
R24): which words form the bundle, the fault of a bundle, the words' meanings in the order of R280, and the place of the next
bundle.
-/
namespace Sys2Proof.Machine

/-- The first violation of R279 and R291 in a bundle's words, scanned in order: its position and BUNDLE cause (R280). `seen` holds bit
k for a word of pipe k and bit 8 for a BCW. DESIGN CHOICE (log 135): of two violations in one word the one of the lower cause is taken, DUPPIPE before
LONG; R280 orders violations by word alone. -/
def bundleFault (seen : Nat) (prev : Option Nat) : Nat → List Nat → Option (Nat × Nat)
  | _, [] => none
  | n, w :: ws =>
    let p := pipeOf w
    let kind := fld w 27 26
    let tag := if p < 6 then p else if p = 7 && kind = 0 then 8 else 9
    if tag ≠ 9 && fld seen tag tag = 1 then some (n, 0)
    else if n = 6 && bit w 31 then some (n, 1)
    else if p = 7 && kind = 1 && (prev.bind extKind).isNone then some (n, 2)
    else bundleFault (Nat.lor seen (2 ^ tag)) (some w) (n + 1) ws

/-- A word of the bundle being issued: its position, the word as the rings have rewritten it, its EXT and the word before it. -/
structure BWord where
  pos  : Nat
  word : Nat
  ext  : Option Nat
  prev : Option Nat

/-- The words of a bundle with their neighbours. -/
def bwords (prev : Option Nat) : Nat → List Nat → List BWord
  | _, [] => []
  | n, w :: ws =>
    let e := match ws with
      | x :: _ => if isExt x && !isExt w then some x else none
      | [] => none
    ⟨n, w, e, prev⟩ :: bwords (some w) (n + 1) ws

/-- A bundle under the resume skip mask (R249): a masked pipe word goes with its EXT, a masked RING is not applied, a masked BCW
loses its pop mask. -/
def skipWords (mask : Nat) (bs : List BWord) : List BWord :=
  let masked (n : Nat) : Bool := n < 3 && fld mask n n = 1
  (bs.filter fun b => isBcw b.word || !(if isExt b.word then b.pos > 0 && masked (b.pos - 1) else masked b.pos)).map fun b =>
    if isBcw b.word && masked b.pos then { b with word := setField b.word 18 8 0 } else b

/-- The state in which one word of the bundle is being issued. -/
def State.at (s : State) (cur : Cur) (b : BWord) : State :=
  { s with cur := { cur with pos := b.pos, ext := b.ext, prev := b.prev, rset := s.cur.rset, raised := none, unb := s.cur.unb } }

/-- The meaning of one word of the bundle, in its place; a word that decodes to nothing faults ILLEGAL (R302). -/
def issueOne (s : State) (cur : Cur) (b : BWord) : Host.Outcome State Fault Refusal :=
  let s := s.at cur b
  match decodeWord b.word with
  | .ok i => exec i s
  | .error .pipe => .next (raise s 0 1 2)
  | .error .opcode => .next (raise s (srcOf b.word) 1 0)
  | .error .reserved => .next (raise s (srcOf b.word) 1 1)

/-- The words of a bundle made in turn, from a state on. -/
def issueAll (cur : Cur) : List BWord → State → Host.Outcome State Fault Refusal
  | [], s => .next s
  | b :: bs, s =>
    match issueOne s cur b with
    | .next s => issueAll cur bs s
    | o => o

/-- The fault that a word raises where it stands, with its rank in R280: ILLEGAL before the others, then by position. Code 0 stands for a stop without a fault
(R251). -/
def faultOfWord (s : State) (cur : Cur) (b : BWord) : Option (Nat × FaultRec) :=
  match issueOne s cur b with
  | .next s' => s'.cur.raised.map fun r => ((if r.code = 1 then 0 else 7) + b.pos, r)
  | _ => none

/-- The faults of the RING words, each checked against the table as the earlier ones leave it (R294). -/
def ringFaults (cur : Cur) : List BWord → State → List (Nat × FaultRec)
  | [], _ => []
  | b :: bs, s =>
    match faultOfWord s cur b with
    | some f => [f]
    | none =>
      match issueOne s cur b with
      | .next s' => ringFaults cur bs s'
      | _ => []

/-- The record of a fault of the fetch at word position `n` of a bundle (R278, R280): its rank, packet and position. -/
def fetchFault (cur : Cur) (n code cause : Nat) : Nat × FaultRec :=
  ((if code = 1 then 0 else 7) + n, { code := code, cause := cause, fpc := cur.pc + n / 3, fword := n % 3 })

/-- The first word position of a bundle's packets that stands in a poisoned line of the instruction buffer (R131). -/
def poisonedWord (s : State) (c : Nat) (b : LoopBundle) : Option Nat :=
  (List.range (3 * b.npk)).find? fun n => (poisonIn s (faceLoc c 3 (12 * b.pc + 4 * n)) 4).isSome

/-- The faults of the fetch of a bundle: a 65th bundle of a loop body (R296), the packet that follows packet 21,844 (R23), a poisoned packet
(R131). DESIGN CHOICE (log 134): the fault of a 65th bundle names the bundle's first word and is taken before a fault of that word; R296 and R355 tie it to no
word. -/
def wholeFaults (s : State) (cur : Cur) (b : LoopBundle) (fetched : Bool) : List (Nat × FaultRec) :=
  let long : Bool := match (s.thread cur.core cur.hd).loop with
    | some l => l.i = 0 && l.buffer.length ≥ 64
    | none => false
  (if long then [fetchFault cur 0 1 1] else [])
    ++ (if fetched && overrun b.words then [fetchFault cur b.words.length 9 1] else [])
    ++ (if fetched then ((poisonedWord s cur.core b).map fun n => fetchFault cur n 8 3).toList else [])

/-- The fault with the least rank, the first of equals. -/
def leastFault : List (Nat × FaultRec) → Option (Nat × FaultRec)
  | [] => none
  | f :: fs =>
    match leastFault fs with
    | some g => if g.1 < f.1 then some g else some f
    | none => some f

/-- Whether a word posts timeline deliveries of its own bundle, which an M load of the same bundle may read too early (R110). -/
def isReadCmd (w : Nat) : Bool := pipeOf w = 5 && (fld w 27 22 = 3 || fld w 27 22 = 5)

/-- The state that an RD or RDT of a bundle leaves, if it is one without a fault: its delivery is pending from its issue tick on (R110, R418). -/
def besideRead (s : State) (cur : Cur) (bs : List BWord) : State :=
  match bs.find? fun d => isReadCmd d.word with
  | some d => match issueOne s cur d with
    | .next s1 => if s1.cur.raised.isSome then s else s1
    | _ => s
  | none => s

/-- The faults of a bundle's pipe words and BCW: each is checked on the state before the bundle, an M word on that with the delivery of an RD or RDT of
its bundle pending. -/
def wordFaults (s : State) (cur : Cur) (bs : List BWord) : List (Nat × FaultRec) :=
  let beside := besideRead s cur bs
  bs.filterMap fun b => faultOfWord (if pipeOf b.word = 3 then beside else s) cur b

/-- Whether a word of the next bundle of a task would stop it without a fault (R251 rules 2 and 4). -/
def waitsOnStopped (s : State) (c : Nat) : Bool :=
  let th := s.thread c false
  let b := (nextBundle s c false).1
  let ws := match th.loop with
    | some l => b.words.map (ringWord l.rings l.i)
    | none => b.words
  let bs := skipWords (s.core c).skip (bwords none 0 ws)
  let vg := ((ws.find? isBcw).map fun w => fld w 17 14).getD 0
  let cur : Cur := { core := c, hd := false, pc := b.pc, npk := b.npk, vg := vg, inLoop := th.loop.isSome, inDelay := th.delay.isSome, plan := s.cur.plan }
  (bundleFault 0 none 0 ws).isNone && (wordFaults { s with cur := cur } cur (bs.filter fun b => !isRing b.word)).any fun f => f.2.code = 0

/-- The words of one pipe. -/
def ofPipe (bs : List BWord) (p : Nat) : List BWord := bs.filter fun b => pipeOf b.word = p

/-- The words in the order in which they count as issued (R280): the RING words, the pipes in ascending code, the BCW last. -/
def issueOrder (bs : List BWord) : List BWord :=
  (bs.filter fun b => isRing b.word) ++ ofPipe bs 0 ++ ofPipe bs 1 ++ ofPipe bs 2 ++ ofPipe bs 3 ++ ofPipe bs 4 ++ ofPipe bs 5

/-- The state after a delay bundle (R283, R349): after the second one the target is next, and a CALL's link is due at its end. -/
def delayDone (s : State) (c : Nat) (hd : Bool) (d : Delay) (linkPc : Nat) : State :=
  let s := s.modThread c hd (·.delayed d)
  if d.left > 1 then s
  else
    match d.link with
    | some r =>
      let rp : Replay := { org := d.org, instr := .call ⟨false, 0⟩ (BitVec.ofNat 6 r) 0 }
      s.post c hd { id := 0, tick := s.tick c hd, src := c, ord := resOrd d.org,
                    act := .result rp { writes := [(.sreg r, BitVec.ofNat 1024 linkPc)] } }
    | none => s

/-- The state after the words and the BCW of a bundle that raised no fault. -/
def bundleDone (s : State) (c : Nat) (hd : Bool) (d0 : Option Delay) (linkPc : Nat) : State :=
  let s := match d0 with
    | some d => delayDone s c hd d linkPc
    | none => s
  let s := if (s.core c).stage = .ending && !hd then s.modThread c hd fun th => { th with loop := none } else s
  let s := if hd then s else s.modCore c fun k => { k with bundles := k.bundles + 1, skip := 0 }
  let s := if s.cur.unb then beginCare s c else s
  { s with cur := {} }

/-- The state with no word being issued. -/
def State.idleCur (s : State) : State := { s with cur := {} }

/-- The issue of the next bundle of a thread at its present tick (R277 to R302): the fault of the bundle, of which then no word has any effect, or every
word's effect. What the links of its core have before them stands in the state's `cur` already. The second part says whether a fault was raised. DESIGN CHOICE (log 122): the BUNDLE checks look at the words without the resume skip mask (R249). -/
def issueBundle (s : State) (c : Nat) (hd : Bool) : Host.Outcome State Fault Refusal × Bool :=
  let th := s.thread c hd
  let (b, fetched) := nextBundle s c hd
  let ws := match th.loop with
    | some l => b.words.map (ringWord l.rings l.i)
    | none => b.words
  let all := bwords none 0 ws
  let bs := if hd then all else skipWords (s.core c).skip all
  let vg := ((ws.find? isBcw).map fun w => fld w 17 14).getD 0
  let cur : Cur := { core := c, hd := hd, pc := b.pc, npk := b.npk, vg := vg, inLoop := th.loop.isSome, inDelay := th.delay.isSome, plan := s.cur.plan }
  let s0 := { s with cur := cur }
  let unmask (s : State) : State := if hd then s else s.modCore c fun k => { k with skip := 0 }
  match bundleFault 0 none 0 ws with
  | some (n, k) =>
    let s := raise (unmask (s0.at cur ⟨n, 0, none, none⟩)) (srcOf (ws.getD n 0)) 2 k
    (.next s.idleCur, true)
  | none =>
    let rings := bs.filter fun b => isRing b.word
    let others := bs.filter fun b => !isRing b.word
    match leastFault (wholeFaults s0 cur b fetched ++ ringFaults cur rings s0 ++ wordFaults s0 cur others) with
    | some (_, r) =>
      let s := unmask s0
      (.next (if r.code = 0 then stopMember s c (s.tick c hd) none false false else takeFault s c hd (s.tick c hd) r).idleCur, true)
    | none =>
      match issueAll cur (issueOrder bs) s0 with
      | .next s1 =>
        let s1 := s1.modThread c hd fun t => t.past (s.tick c hd) b th.loop.isSome
        match issueAll cur (bs.filter fun b => isBcw b.word) s1 with
        | .next s2 => (.next (bundleDone s2 c hd th.delay (b.pc + b.npk)), false)
        | o => (o, false)
      | o => (o, false)

end Sys2Proof.Machine
end

