-- ==== Sys2Proof/Machine/Sched.lean ====
section
/-!
DEFINITION. The order of the machine's steps (log 1): the instants of the generator edges and of the timers, and within a tick of a
core the order of its work (spec/02_on_chip_storage.md R59, R60; spec/04_time_and_alignment.md R139 to R146; spec/08_faults.md R520).
-/
namespace Sys2Proof.Machine

/-- A step that is due: the meaning that `exec` gives its instruction. -/
def runEv (e : Ev) (s : State) : Host.Outcome State Fault Refusal :=
  match e with
  | .resultCommit c hd id => execResultCommit c hd id s
  | .engfmtApply c => execEngfmtApply c s
  | .localStoreCommit c hd id => execLocalStoreCommit c hd id s
  | .xAccessPerform c id => execXAccessPerform c id s
  | .xLoadReturn c hd id => execXLoadReturn c hd id s
  | .linkEntryArrive c id => execLinkEntryArrive c id s
  | .copyCommandStart c id => execCopyCommandStart c id s
  | .copyBeatRead c id => execCopyBeatRead c id s
  | .copyBeatCommit c id => execCopyBeatCommit c id s
  | .fillBeatCommit c id => execFillBeatCommit c id s
  | .heldWriteCommit c id => execHeldWriteCommit c id s
  | .timelineCommandPerform c id => execTimelineCommandPerform c id s
  | .tsvResend c id fails lane => execTsvResend c id fails lane s
  | .readDeliveryCommit c id => execReadDeliveryCommit c id s
  | .writeBurstVisible c id => execWriteBurstVisible c id s
  | .inMemoryOpComplete c id => execInMemoryOpComplete c id s
  | .mcmpResultCommit c id => execMcmpResultCommit c id s
  | .lfenceSatisfied c id => execLfenceSatisfied c id s
  | .markComplete c id => execMarkComplete c id s
  | .translationMarkerRetire c id => execTranslationMarkerRetire c id s
  | .lentSpanStart hs pc f => execLentSpanStart hs pc f s
  | .lentSpanEnd hs pc f => execLentSpanEnd hs pc f s
  | .holeMaintenance hs pc f => execHoleMaintenance hs pc f s
  | .refreshWindowExpire c hs pc bank => execRefreshWindowExpire c hs pc bank s
  | .safetyRefresh hs pc bank => execSafetyRefresh hs pc bank s
  | .idlePcRefresh hs pc => execIdlePcRefresh hs pc s
  | .rcntWindowClear hs => execRcntWindowClear hs s
  | .hbmTemperatureRead hs temp => execHbmTemperatureRead hs temp s
  | .droopStretch r => execDroopStretch r s
  | .referenceLost r => execReferenceLost r s
  | .hbmReferenceLost hs => execHbmReferenceLost hs s
  | .referenceRelock r => execReferenceRelock r s
  | .snapshotPublish => execSnapshotPublish s
  | .heelArrive c => execHeelArrive c s
  | .heelRelease g => execHeelRelease g s
  | .heelExit c => execHeelExit c s
  | .fenceEnd c hd => execFenceEnd c hd s
  | .flagwaitSatisfied c hd => execFlagwaitSatisfied c hd s
  | .barrierArrival c => execBarrierArrival c s
  | .barwaitEnd c => execBarwaitEnd c s
  | .waitcSatisfied c => execWaitcSatisfied c s
  | .gwaitEnd c => execGwaitEnd c s
  | .walkerIntakeFree c => execWalkerIntakeFree c s
  | .gAtomicPerform hs => execGAtomicPerform hs s
  | .atomicReturn c hd id => execAtomicReturn c hd id s
  | .fabricRequestIn q => execFabricRequestIn q s
  | .fabricCompletion c id code cause old => execFabricCompletion c id code cause old s
  | .getPieceCommit c id off v => execGetPieceCommit c id off v s
  | .taskRetire c => execTaskRetire c s
  | .launchEnd inst node => execLaunchEnd inst node s
  | .walkerHeldPush => execWalkerHeldPush s
  | .readyAging => execReadyAging s
  | .instanceWindowFill inst => execInstanceWindowFill inst s
  | .sealComplete => execSealComplete s
  | .phaseBind leases => execPhaseBind leases s
  | .shepherdTake die n => execShepherdTake die n s
  | .shepherdReturn die inst node pack => execShepherdReturn die inst node pack s
  | .recordWrite r slot ws => execRecordWrite r slot ws s
  | .recordWithdraw r slot pos => execRecordWithdraw r slot pos s
  | .tlbPreload c => execTlbPreload c s
  | .packRelease g => execPackRelease g s
  | .regionGateBegin r => execRegionGateBegin r s
  | .gatingComplete r => execGatingComplete r s
  | .wakeRequest r => execWakeRequest r s
  | .gateHoldOverride r time => execGateHoldOverride r time s
  | .rampStart r => execRampStart r s
  | .rampEnd r => execRampEnd r s
  | .preempt victim claimant => execPreempt victim claimant s
  | .restore inst => execRestore inst s
  | .placeBallast c => execPlaceBallast c s
  | .shepherdCancel level inst node => execShepherdCancel level inst node s
  | .shepherdTlbWrite c idx second w0 w1 => execShepherdTlbWrite c idx second w0 w1 s
  | .shepherdTlbInvalidate cs all va len => execShepherdTlbInvalidate cs all va len s
  | .energyInterval charges => execEnergyInterval charges s
  | .freezeNoticeArrive g => execFreezeNoticeArrive g s
  | .memberStop c => execMemberStop c s
  | .kennelDispatch g => execKennelDispatch g s
  | .handlerBudgetExpire c serial => execHandlerBudgetExpire c serial s
  | .packResumeRelease g epoch => execPackResumeRelease g epoch s
  | .cubeCommandStart c id => execCubeCommandStart c id s
  | .cubeStreamStep c id => execCubeStreamStep c id s
  | .cubeResultCommit c id => execCubeResultCommit c id s
  | .drainPieceCommit c id => execDrainPieceCommit c id s
  | .rescaleRowCommit c id => execRescaleRowCommit c id s
  | .scorePLineCommit c id => execScorePLineCommit c id s
  | .scoreSideCommit c id => execScoreSideCommit c id s
  | .weightLatchReplace c id => execWeightLatchReplace c id s
  | .layerFailure c layer => execLayerFailure c layer s
  | .governorEvaluation amps watts calm => execGovernorEvaluation amps watts calm s
  | .stepApply => execStepApply s
  | .sensorSample temps => execSensorSample temps s
  | .whistleSend => execWhistleSend s
  | .whistleReceive job w => execWhistleReceive job w s
  | .whistleTimeout => execWhistleTimeout s
  | .emergencyEnd => execEmergencyEnd s
  | .thermalTrip sensor => execThermalTrip sensor s
  | .currentTrip amps => execCurrentTrip amps s
  | .jstart v => execJstart v s
  | .jcancel v => execJcancel v s
  | .hwbaseWrite v => execHwbaseWrite v s
  | .jcauseClear v => execJcauseClear v s
  | .clkstatClear r v => execClkstatClear r v s
  | .registerWrite off v => execRegisterWrite off v s
  | .hostMemoryRead off n => execHostMemoryRead off n s
  | .hostMemoryWrite off data => execHostMemoryWrite off data s
  | .heartbeat => execHeartbeat s
  | .readErrorLog tag sel => execReadErrorLog tag sel s
  | .readClocks tag => execReadClocks tag s
  | .setPcap tag watts => execSetPcap tag watts s
  | .readEnergy tag => execReadEnergy tag s
  | .readAvailabilityMap tag hs => execReadAvailabilityMap tag hs s
  | .setPkgid tag id => execSetPkgid tag id s
  | .readKeys tag => execReadKeys tag s
  | .attest tag nonce => execAttest tag nonce s
  | .readTrace tag sel stop => execReadTrace tag sel stop s
  | .installFirmware tag kind image => execInstallFirmware tag kind image s
  | .readPhaseFailure tag => execReadPhaseFailure tag s
  | .boot => execBoot s
  | .shepherdKill g => execShepherdKill g s
  | .ballastStepDownEnd c => execBallastStepDownEnd c s
  | .takeServe => serveTakes s
  | .hostReadPiece id off n => furtherPiece id off n s
  | .hostWritePiece off data => .next (writeOn off data s)
  | .windowRefill => .next (refill s)

/-- The state after a step made within a tick; such a step neither faults nor is refused. -/
def within (e : Ev) (s : State) : State :=
  match runEv e s with
  | .next t => t
  | _ => s

/-! ### Pending items -/

/-- The step that a pending item of a core makes; a look at poison has none of its own (R446). -/
def itemEv (c : Nat) (hd : Bool) (p : Pending) : Option Ev :=
  let write (e : Ev) : Option Ev := some (if p.waits then .heldWriteCommit c p.id else e)
  match p.act with
  | .result _ _ => some (.resultCommit c hd p.id)
  | .store _ _ _ => write (.localStoreCommit c hd p.id)
  | .xperf _ => write (.xAccessPerform c p.id)
  | .xret rp _ _ _ g => some (if g || (atomDest rp.instr).isSome then .atomicReturn c hd p.id else .xLoadReturn c hd p.id)
  | .probe _ _ _ _ _ _ _ _ => none
  | .link _ _ => some (.linkEntryArrive c p.id)
  | .copyStart _ => some (.copyCommandStart c p.id)
  | .copyRead _ _ _ => some (.copyBeatRead c p.id)
  | .copyBeat _ _ _ _ _ _ _ _ _ => write (.copyBeatCommit c p.id)
  | .fillBeat _ _ => some (.fillBeatCommit c p.id)
  | .putRead _ _ => some (.copyBeatRead c p.id)
  | .deliver _ _ _ _ _ => some (.readDeliveryCommit c p.id)
  | .visible _ _ _ => some (.writeBurstVisible c p.id)
  | .memop _ _ _ _ => some (.inMemoryOpComplete c p.id)
  | .mcmp _ _ => some (.mcmpResultCommit c p.id)
  | .lfence _ => some (.lfenceSatisfied c p.id)
  | .cubeStart _ => some (.cubeCommandStart c p.id)
  | .cubeRead _ _ _ => some (.cubeStreamStep c p.id)
  | .cubeRes _ _ _ => some (.cubeResultCommit c p.id)
  | .zeroRow _ _ => some (.cubeResultCommit c p.id)
  | .drain _ _ => some (.drainPieceCommit c p.id)
  | .resc _ _ _ => some (.rescaleRowCommit c p.id)
  | .pline _ _ => some (.scorePLineCommit c p.id)
  | .side _ _ => some (.scoreSideCommit c p.id)
  | .latch _ => some (.weightLatchReplace c p.id)
  | .markAdd m => some (.markComplete c m)
  | .invAdd _ => none

/-- The translation markers of an invalidation that still stand, with their cores (R47). -/
def standingMarkers (s : State) (inv : Nat) : List (Nat × Marker) :=
  s.cores.flatMap fun d => (d.2.markers.filter fun m => m.inv = some inv).map fun m => (d.1, m)

/-- The state after the step of a pending item; the completion of an invalidation retires every marker of it that stands, and counts it (R470). -/
def runItem (c : Nat) (hd : Bool) (s : State) (p : Pending) : State :=
  match p.act with
  | .invAdd n => addCompletion ((standingMarkers s n).foldl (fun s x => within (.translationMarkerRetire x.1 x.2.id) s) s) n
  | _ =>
    match itemEv c hd p with
    | some e => within e s
    | none => s

/-- Whether an item acts on the HBM at the start of its tick, before anything of the tick reads it (R112, R124, R126); whether it is a
cube's, whose fault comes before a copy's (R520); whether it is a look at poison. -/
def isEffect (p : Pending) : Bool :=
  match p.act with
  | .visible _ _ _ => true
  | .memop _ _ _ _ => true
  | .lfence _ => true
  | _ => false
@[inherit_doc isEffect] def isCubeItem (p : Pending) : Bool :=
  match p.act with
  | .cubeStart _ => true
  | .cubeRead _ _ _ => true
  | _ => false
@[inherit_doc isEffect] def isProbe (p : Pending) : Bool :=
  match p.act with
  | .probe _ _ _ _ _ _ _ _ => true
  | _ => false

/-- The items of a thread that are due at a tick in a phase of it. -/
def dueItems (th : Thread) (t phase : Nat) : List Pending := th.agenda.filter fun p => p.phase = phase && p.tick ≤ t

/-- Whether the task of a core has stopped. -/
def stoppedCore (s : State) (c : Nat) : Bool := (s.core c).frozen.isSome

/-- The state after some items of a task, as far as its core has not stopped. -/
def runItems (c : Nat) (ps : List Pending) (s : State) : State := ps.foldl (fun s p => if stoppedCore s c then s else runItem c false s p) s

/-- The state after the reads at the start of a tick of a task that are the cube's, or those that are not; a start may bring reads of the same tick. -/
def runReadsOf (cube : Bool) (c t : Nat) : Nat → Nat → State → State
  | 0, _, s => s
  | k + 1, lo, s =>
    let th := (s.core c).task
    let ps := (dueItems th t 0).filter fun p => lo ≤ p.id && !isEffect p && !isProbe p && isCubeItem p = cube
    if ps.isEmpty || stoppedCore s c then s
    else runReadsOf cube c t k th.nid (runItems c ps s)

/-- The state after the reads at the start of a tick of a task (R59, R520): every step of the cube first. -/
def runReads (c t : Nat) (s : State) : State := runReadsOf false c t 4 0 (runReadsOf true c t 4 0 s)

/-! ### Waits and faults at the start of a tick -/

/-- The state after the wait of a thread has been looked at (R190, R206, R445 to R464); an arrival at a barrier comes at the end of the tick (R451). -/
def lookWait (c : Nat) (hd : Bool) (s : State) : State :=
  match (s.thread c hd).wait with
  | none => s
  | some (.fence _ _ _ _ _) => within (.fenceEnd c hd) s
  | some (.acq _) => within (.fenceEnd c hd) s
  | some (.flag _ _ _ _) => within (.flagwaitSatisfied c hd) s
  | some (.bar _ _ _) => within (.barwaitEnd c) s
  | some (.arrive _ _ _) => s
  | some (.cc _ _ _) => within (.waitcSatisfied c) s
  | some (.inst _ _ _) => within (.gwaitEnd c) s
  | some (.intake _ _ _ _ _ _) => within (.walkerIntakeFree c) s

/-- Whether the bundle of a thread is due at its tick. -/
def dueBundle (s : State) (c : Nat) (hd : Bool) : Bool :=
  let th := s.thread c hd
  th.wait.isNone && bundleDue th (nextBundle s c hd).1.npk (s.tick c hd)

/-- Whether a HEEL keeps the task of a core from issuing at its present tick: from its target to the tick before its exit (R148). -/
def heelHolds (s : State) (c : Nat) : Bool :=
  ((s.core c).heel.map fun h => decide (h.target ≤ s.tick c false ∧ s.tick c false < h.target + 24)).getD false

/-- The state with the stage predicates written of an iteration whose first bundle issues at the present tick (R353). -/
def writeStages (c : Nat) (hd : Bool) (s : State) : State :=
  match (s.thread c hd).loop with
  | some l => if !l.staged && dueBundle s c hd && (hd || !heelHolds s c) then s.modThread c hd (·.staged l) else s
  | none => s

/-- Whether a return of a task waits for a read that a stopped member of its pack has not made (R251 rule 3). -/
def awaitsStopped (s : State) (c t : Nat) : Bool :=
  (dueItems (s.core c).task t 1).any fun p =>
    match p.act, p.acc with
    | .xret _ none false _ _, some a => s.cores.any fun d => d.2.frozen.isSome && s.samePack c d.1 &&
        d.2.task.agenda.any fun q => match q.act with
          | .xperf x => x.org.core = c && !x.org.hd && x.acc = a
          | _ => false
    | _, _ => false

/-- The results of a task that would commit at the end of a tick and trap, in their order (R320, R520). -/
def trapItems (s : State) (c t : Nat) : List Pending :=
  sortBy (fun a b => match replayKey a, replayKey b with
      | some x, some y => x.1 < y.1 || (x.1 = y.1 && x.2 ≤ y.2)
      | _, _ => true) <|
    (dueItems (s.core c).task t 1).filter fun p => match p.act with
      | .result _ res => (trapCause (s.core c).trapen res.flags).isSome
      | _ => false

/-- Whether a return that is due has met poison. -/
def poisonedReturn (p : Pending) : Bool :=
  match p.act with
  | .xret _ _ bad _ _ => bad
  | _ => false

/-- The state after the returns of a thread that have met poison, and the looks at poison of its atomics, that are due (R446, R520). -/
def poisonFaults (c : Nat) (hd : Bool) (t : Nat) (s : State) : State :=
  let th := s.thread c hd
  let gone (s : State) : Bool := if hd then (s.core c).handler.isNone else stoppedCore s c
  let s := ((dueItems th t 1).filter poisonedReturn).foldl (fun s p => if gone s then s else runItem c hd s p) s
  ((dueItems th t 0).filter isProbe).foldl (fun s p => if gone s then s else probeAtomic s c hd p) s

/-- The state after the faults of results at the end of a tick of a task (R520 order 1). -/
def resultFaults (c t : Nat) (s : State) : State :=
  match trapItems s c t with
  | p :: _ => runItem c false s p
  | [] => poisonFaults c false t s

/-! ### The start of a tick of a task -/

/-- The state after what a tick of a task begins with: waits, ENGFMT, effects on the HBM, the exit of a HEEL. -/
def openTick (c t : Nat) (s : State) : State :=
  let s := lookWait c false (lookWait c false s)
  let s := if (s.core c).fmtq.isEmpty then s else within (.engfmtApply c) s
  let s := runItems c ((dueItems (s.core c).task t 0).filter isEffect) s
  writeStages c false (within (.heelExit c) s)

/-- Whether the task of a core issues its next bundle at its tick. -/
def issuesNow (s : State) (c : Nat) : Bool :=
  let k := s.core c
  k.stage = .running && dueBundle s c false && (k.heel.map fun h => decide (s.tick c false < h.target)) ≠ some false

/-- Whether a task arrives at its HEEL target at its tick. -/
def arrivesNow (s : State) (c : Nat) : Bool :=
  ((s.core c).heel.map fun h => !h.holds && h.target = s.tick c false) = some true

/-- The tick at which a command is presented next. -/
def TlCmd.due (x : TlCmd) : Nat :=
  match x.bursts with
  | b :: _ => b.tick
  | [] => x.tick

/-- Whether a freeze of the pack holds a command (R253). DESIGN CHOICE (log 123): a command of several bursts is held burst by burst. -/
def heldCommand (s : State) (c : Nat) (x : TlCmd) : Bool :=
  match (s.pack (s.core c).group).bind (·.freeze) with
  | some z => z.phi ≤ (BitVec.ofNat 64 x.due - (s.core c).tbase).toNat
  | none => false

/-- The state in which the LFENCEs that are satisfied at their stamp, the present tick, count as performed (R126, R430). -/
def fencesDone (s : State) (c t : Nat) : State :=
  ((s.core c).tlq.filter fun x => x.op = 12 && x.tick = t && !heldCommand s c x && (s.hbm x.hs).lock && fenceTick s c x = t).foldl
    (fun s x => s.performed c false x.acc t) s

/-! ### The timeline of a core -/

/-- The command of a core that is presented next, at or before a tick: of one stamp an LFENCE, which takes no bus slot, before the others (R125); a rejected head
keeps the later ones back (R104). -/
def nextCommand (s : State) (c t : Nat) : Option TlCmd :=
  let k := s.core c
  if k.tlq.any (·.rejected) then none
  else
    (k.tlq.filter fun x => x.due ≤ t && !heldCommand s c x).foldl (fun best x =>
      match best with
      | some b =>
        if x.due < b.due || (x.due = b.due && ((x.op = 12 && b.op ≠ 12) || ((x.op = 12 || b.op ≠ 12) && x.seq < b.seq))) then some x else best
      | none => some x) none

/-- The state after the commands of a core that are due at a tick have been presented. -/
def presentDue (c t : Nat) : Nat → State → State
  | 0, s => s
  | n + 1, s =>
    if stoppedCore s c then s
    else
      match nextCommand s c t with
      | none => s
      | some x => presentDue c t n (within (.timelineCommandPerform c x.id) s)

/-- The PCs of a core's lease. -/
def leasePcs (s : State) (c : Nat) : List (Nat × Nat) := ((leaseBanks c (s.core c).lease.entry).map fun b => (b.1, b.2.1)).eraseDups

/-- The steps of a frame of a PC at a relative tick (R113, R114, R116, R117). -/
def frameSteps (hs pc : Nat) (rel : Int) : List Ev :=
  let f := rel.toNat / 4096
  let at_ := rel.toNat % 4096
  if rel < 0 then []
  else
    (if rel = 0 then [.lentSpanStart hs pc 0] else [])
      ++ (if at_ = 4032 then [.holeMaintenance hs pc f, .lentSpanStart hs pc (f + 1)] else [])
      ++ (if (4032 < at_ && at_ < 4048 && at_ % 2 = 0) || at_ = 4048 || at_ = 4064 then [.holeMaintenance hs pc f] else [])
      ++ (if at_ = 4095 then [.lentSpanEnd hs pc f] else [])

/-- The state after the hole before a core's new TBASE, in which every PC of its pack may swap a lane (R113, R117, R129). -/
def rebaseSwaps (c : Nat) (s : State) : State :=
  let g := (s.core c).group
  if !(-64 ≤ (s.rel c).toInt && (s.rel c).toInt < 0) then s
  else
    let pcs := s.hbms.flatMap fun h => (h.2.pcs.filter fun q => q.2.mode = 1 && q.2.group = g && q.2.swap).map fun q => (h.1, q.1)
    pcs.foldl (fun s q => within (.holeMaintenance q.1 q.2 0) s) s

/-- The compiled PCs of a pack of which every holder has retired (R203). -/
def heirless (s : State) (g : Nat) : List (Nat × Nat) :=
  s.hbms.flatMap fun h => (h.2.pcs.filter fun q => q.2.mode = 1 && q.2.group = g && (holders s g h.1 q.1).isEmpty).map fun q => (h.1, q.1)

/-- The state after the steps of the frames that a core leads (R115). -/
def runFrames (c : Nat) (s : State) : State :=
  let s := rebaseSwaps c s
  let rel := (s.rel c).toInt
  if (frameSteps 0 0 rel).isEmpty then s
  else
    let mine := (leasePcs s c ++ heirless s (s.core c).group).filter fun q => frameLead s (s.core c).group q.1 q.2 = some c
    (mine.flatMap fun q => frameSteps q.1 q.2 rel).foldl (fun s e => within e s) s

/-- The refresh window of a step (R118). -/
def windowOf (step : Nat) : Nat := if step = 1 then 6144 else if step = 2 then 3072 else 1536

/-- The bank of a core's lease whose refresh window ends at a relative tick (R118, R209). A bank inside its own lent span, where the controller refreshes it and no
command of the task may reach it, ends no window (log 90). -/
def missedBank (s : State) (c : Nat) (rel : Int) : Option (Nat × Nat × Nat) :=
  let k := s.core c
  if careNow s c then none
  else
    (leaseBanks c k.lease.entry).find? fun b =>
      let h := s.hbm b.1
      let n := h.phys b.2.1 b.2.2
      let lent (f : Int) : Bool := 0 ≤ f && (lentBanks f.toNat).any fun l => h.phys b.2.1 l = n
      (h.bank b.2.1 n).ref + windowOf k.lease.step ≤ rel && !lent (rel + behind s b.1 b.2.1 n) && !h.rescue.contains (b.2.1, n)

/-- The timeline of a core at a tick (R103, R104, R118): the steps of its frames, a missed refresh, its commands. A core that absorbs its lead
after a freeze presents as far as the pack has come (R136, R269). -/
def timelineTick (c : Nat) (s : State) : State :=
  let k := s.core c
  if k.frozen.isSome || !k.live then s
  else
    let t := s.tick c false - k.absorb
    let s := if k.absorb = 0 then runFrames c s else s
    let s := match missedBank s c ((s.rel c).toInt - k.absorb) with
      | some b => within (.refreshWindowExpire c b.1 b.2.1 ((s.hbm b.1).phys b.2.1 b.2.2)) s
      | none => s
    presentDue c t (17 * k.tlq.length) s

/-! ### The end of a tick -/

/-- A core without what a tick past has made useless. -/
def Core.tidy (k : Core) (t : Nat) : Core :=
  let cubes := k.cubes.filter fun x => t ≤ x.last
  { k with
    pendw := k.pendw.filter fun p => t ≤ p.commit
    cubes := cubes
    xrun := k.xrun.filter fun r => cubes.any fun x => x.id = r.1
    task := k.task.prune t }

/-- The adds of a core's MARKs that are due at a tick, in their place of the order of R60 (R430). -/
def markAdds (s : State) (c t : Nat) : List Pending :=
  ((s.core c).markers.filter fun m => m.inv.isNone && m.due (s.core c) t).map fun m =>
    { id := m.id, tick := t, rank := 6, src := c, ord := resOrd m.org, act := .markAdd m.id }

/-- The completions of a handler's invalidations whose completion word stands in the C face of a core and whose last markers retire at the present tick, in
their place of the order of R60 (R470). -/
def invAdds (s : State) (c t : Nat) : List Pending :=
  (s.invals.filter fun v => v.2.off.isSome && v.2.core = c && (standingMarkers s v.1).all fun x => x.2.due (s.core x.1) (s.tick x.1 false)).map fun v =>
    { id := 0, tick := t, rank := 6, src := c, act := .invAdd v.1 }

/-- The items of a core that absorbs its lead which fall due as the pack comes to their tick (R254, R269): accesses of other cores below its held tick. -/
def absorbed (k : Core) (t phase : Nat) : List Pending :=
  (dueItems k.task (t - k.absorb) phase).filter fun p => match p.act with
    | .xperf _ => true
    | .copyBeat _ _ _ _ _ _ _ _ _ => true
    | .copyRead _ _ _ => true
    | _ => false

/-- The state after the commits of a core at the end of a tick (R59, R60, R78, R169, R430): those of its tick, what has arrived by its region's count and what
performs in a tick that is not defined, the completions of a handler's invalidations, in one order; then the markers, an arrival at a barrier (R68, R451), a REBASE
(R455) and the end of the task (R197). -/
def commitTask (c : Nat) (s : State) : State :=
  let k := s.core c
  let t := s.tick c false
  let stalled : Bool := k.frozen.isSome || k.absorb > 0
  let absorbs : Bool := k.frozen.isNone && k.absorb > 0
  let s := if absorbs then (sortBy commitLe (absorbed k t 0)).foldl (runItem c false) s else s
  let own := if absorbs then absorbed (s.core c) t 1 else if stalled then [] else dueItems k.task t 1 ++ markAdds s c t
  let come := (k.arriving.filter fun p => !p.net && p.phase = 1 && p.tick ≤ (s.region (regionOf c)).hw.toNat) ++ dueWrites s c ++ invAdds s c t
  let s := (sortBy commitLe (own ++ come)).foldl (fun s p =>
    if !stalled && stoppedCore s c && own.contains p then s else runItem c false s p) s
  let s := k.markers.foldl (fun s m =>
    match m.inv with
    | some _ => within (.translationMarkerRetire c m.id) s
    | none => if stalled || stoppedCore s c then s else within (.markComplete c m.id) s) s
  if stalled || stoppedCore s c then s
  else
    let s := match (s.core c).task.wait with
      | some (.arrive _ _ _) => within (.barrierArrival c) s
      | _ => s
    within (.taskRetire c) ((endRebase s c).modCore c (·.tidy t))

/-- The state after the commits of the handler on a core. -/
def commitHandler (c : Nat) (s : State) : State :=
  match (s.core c).handler with
  | none => s
  | some h =>
    let t := s.tick c true
    let s := (sortBy commitLe (dueItems h t 1)).foldl (runItem c true) s
    s.modThread c true (·.prune t)

/-! ### The pace of a task -/

/-- How a task stands at an edge of its region: it works at its tick, its TICK is held for a HEEL, it absorbs its lead after a freeze, or it does not
move (R143, R148, R249, R269). -/
inductive Pace where
  | works
  | holds
  | absorbs
  | still
deriving DecidableEq, Repr

/-- A core at an edge of its region, with the pace of its task; where TICK does not advance, AB does (R143). -/
def Core.atEdge (k : Core) (now : Nat) : Core × Pace :=
  let held : Core := { k with task := { k.task with ab := k.task.ab + 1 } }
  match k.stage with
  | .free => (k, .still)
  | .bound => (k, .still)
  | _ =>
    if k.frozen.isSome then (held, .still)
    else if k.absorb > 1 then ({ held with absorb := k.absorb - 1 }, .absorbs)
    else if k.absorb = 1 then ({ held with absorb := 0 }, .works)
    else
      match k.heel with
      | some h => if h.holds && (h.released.map fun p => decide (p < now)) ≠ some true then (held, .holds) else (k, .works)
      | none => (k, .works)

/-! ### What the schedule of one core will do (R79, R158, R251) -/

/-- The pace of a task at its present tick. -/
def paceNow (s : State) (c : Nat) : Pace := if (s.core c).absorb > 0 then .absorbs else ((s.core c).atEdge s.now).2

/-- A core whose empty queues have an entry each: those that its schedule takes will have come by then. -/
def stocked (s : State) (c : Nat) : State :=
  s.modCore c fun k => { k with fifo := (List.range 8).foldl (fun f q => if (smGet [] f q).isEmpty then smSet f q [0] else f) k.fifo }

/-- The start of the present tick of a core's task in a trial: the state before its bundle and the state after it; none where the core stops. A send of its own has
space, and a queue that it finds empty holds an entry, unless its pack is freezing. -/
def soloTick (c : Nat) (s : State) : Option (State × State) :=
  let s := writeStages c false s
  if stoppedCore s c || stopsNow s c then none
  else
    let s := openTick c (s.tick c false) s
    if arrivesNow s c then some (s, within (.heelArrive c) s)
    else if !issuesNow s c then some (s, s)
    else
      let issue (s : State) : Option (State × State) :=
        match issueBundle { s with cur := { plan := { pops := (List.range 4).map fun l => (l, 16) } } } c false with
        | (.next s2, false) => some (s, s2)
        | _ => none
      match issue s with
      | some r => some r
      | none => if ((s.pack (s.core c).group).bind (·.freeze)).isSome then none else issue (stocked s c)

/-- The sum of what `f` counts in the ticks of a core from the present one through those at some instants, in a trial in which its task alone goes on; nothing more once
it stops. -/
def solo (c : Nat) (f : State → State → Nat) : List Nat → Pace → State → Nat
  | es, p, s =>
    match if p = .works then soloTick c s else some (s, s) with
    | none => 0
    | some (a, b) =>
      f a b + match es with
        | [] => 0
        | e :: es =>
          let b := commitTask c (if p = .works || p = .absorbs then timelineTick c b else b)
          let b := { b with now := e }.modRegion (regionOf c) fun r => { r with hw := r.hw + 1 }
          let (k, p) := (b.core c).atEdge e
          solo c f es p (b.setCore c k)

/-- The instants of the next `n` ticks of a core's region. -/
def tickInstants (s : State) (c n : Nat) : List Nat := ((s.region (regionOf c)).edges (16 * n + 16)).take n

/-- The pops of a queue that the schedule of a core makes from its present tick through the ticks at some instants (R77, R79). -/
def popsAhead (s : State) (d q : Nat) (es : List Nat) : Nat :=
  solo d (fun a b => (smGet [] (a.core d).fifo q).length - (smGet [] (b.core d).fifo q).length) es (paceNow s d) s

/-- The state in which the freeze of a core's pack has not come, and the core goes on from its held tick. -/
def unfrozen (s : State) (c : Nat) : State :=
  (s.modPack (s.core c).group fun p => { p with freeze := none }).modCore c fun k => { k with frozen := none }

/-- The instants of the ticks of a core's region that begin before an entry sent to it now enters its FIFO (R78, R155). -/
def entryInstants (s : State) (c d : Nat) : List Nat :=
  if regionOf c = regionOf d then tickInstants s d 1
  else ((s.region (regionOf d)).edges 144).filter fun e => decide (e < s.now + crossing s c)

/-- What an outgoing link of a core has before it (R79, R158, R251 rule 4): the receiver's pops, and whether a send that finds no space waits for a stopped member: one
that would find it had the receiver not stopped. Nothing is to be asked while there is space. -/
def sendPlan (s : State) (c l : Nat) : Option (Nat × Bool) :=
  match neighbour c l with
  | none => none
  | some d =>
    let q := farQueue l
    if linkUsed s d q < 16 then none
    else
      let pops := popsAhead s d q (entryInstants s c d)
      let freezing : Bool := ((s.pack (s.core c).group).bind (·.freeze)).isSome && s.samePack c d && !lateMember s c
      some (pops, freezing && linkUsed s d q ≥ 16 + pops &&
        ((s.core d).frozen.isSome || linkUsed s d q < 16 + popsAhead (unfrozen s d) d q (entryInstants s c d)))

/-- Whether the schedule of a stopped neighbour sends an entry into queue `q` of a core at or after its held tick and in time for the core's present tick (R251 rule 2); an
entry on its way comes before it. -/
def fedByStopped (s : State) (c q : Nat) : Bool :=
  let coming (s : State) : Bool := (s.core c).arriving.any fun p => match p.act with
    | .link r _ => r = q
    | _ => false
  match neighbour c q with
  | none => false
  | some n =>
    match (s.core n).frozen with
    | none => false
    | some f =>
      let ticks := (s.rel c).toInt - (if regionOf n = regionOf c then 2 else 8) - relOf s n f.held
      s.samePack c n && 0 ≤ ticks && !coming s && (
        let u := unfrozen s n
        0 < solo n (fun _ b => b2n (coming b)) (tickInstants u n ticks.toNat) .works u)

/-- What the links of a core have before them at the issue of its next bundle. -/
def linkPlan (s : State) (c : Nat) : LinkPlan :=
  let sends : Bool := (nextBundle s c false).1.words.any fun w => pipeOf w = 2 && fld w 27 21 = 75
  let freezing : Bool := ((s.pack (s.core c).group).bind (·.freeze)).isSome && !lateMember s c
  let plans := if sends then (List.range 4).filterMap fun l => (sendPlan s c l).map fun p => (l, p) else []
  { pops := plans.map fun p => (p.1, p.2.1), halts := (plans.filter (·.2.2)).map (·.1), feeds := if freezing then (List.range 4).filter (fedByStopped s c) else [] }

/-- The state before the issue of a core's next bundle. -/
def State.planned (s : State) (c : Nat) : State := { s with cur := { plan := linkPlan s c } }

/-! ### A beat that finds its stream queue full (R79) -/

/-- Whether the entries of a beat that commits at tick `t` of its issuer will find their queue full (R79): what stands there and what other beats bring before it,
less what the receiver's schedule pops by then. -/
def beatFull (s : State) (i t : Nat) (x : CopyCmd) (j : Nat) (d : CopyDst) : Bool :=
  let k := s.core d.core
  let brings (p : Pending) : Nat := match p.act with
    | .copyBeat _ _ _ _ face _ data _ _ => if face = d.face then ceilDiv data.length 128 else 0
    | _ => 0
  k.task.agenda.any fun p => match p.act with
    | .copyBeat c cmd n b _ _ data _ _ => c = i && cmd = x.id && n = j && x.commitTick d b = t &&
        (let used := (smGet [] k.fifo d.face).length + ceilDiv data.length 128
          + ((k.task.agenda.filter fun q => q.tick < p.tick || (q.tick = p.tick && q.id ≠ p.id && commitLe q p)).map brings).foldl (· + ·) 0
         used > 16 && used > 16 + popsAhead s d.core d.face (tickInstants s d.core (min 144 (p.tick - s.tick d.core false))))
    | _ => false

/-- The copy command of a core that faults FULL at its tick `t`, with the receiver: a beat of it will find its queue full, or has found it so. -/
def fullCopy (s : State) (i t : Nat) : Option (CopyCmd × Nat) :=
  (s.core i).copies.findSome? fun x =>
    if (x.full.map fun u => decide (u ≤ t)).getD false then some (x, (((x.dsts.find? fun d => d.face ≥ 4).map (·.core)).getD i))
    else ((List.range x.dsts.length).zip x.dsts).findSome? fun e =>
      if e.2.face ≥ 4 && x.sknown && e.2.known && beatFull s i t x e.1 e.2 then some (x, e.2.core) else none

/-! ### The issue of a task -/

/-- A core with the engine commands marked that have faulted in a trial of its tick. -/
def Core.marked (k trial : Core) : Core :=
  { k with
    cubes := k.cubes.map fun x => { x with faulted := x.faulted || trial.cubes.any fun y => y.id = x.id && y.faulted }
    copies := k.copies.map fun x => { x with faulted := x.faulted || trial.copies.any fun y => y.id = x.id && y.faulted } }

/-- The fault of a write burst that is presented at a tick (R426), with its command. -/
def burstFault (s : State) (c t : Nat) : Option (TlCmd × Flt) :=
  (s.core c).tlq.findSome? fun x =>
    match x.bursts with
    | b :: _ => if b.tick = t && !heldCommand s c x then (burstOperand s c x).map fun f => (x, f) else none
    | [] => none

/-- The state at the place of a core's atomics and MARK adds among the commits of its present tick: those of the lower ranks have been made (R60). -/
def belowAtomics (s : State) (c t : Nat) : State :=
  let k := s.core c
  let come := (k.arriving.filter fun p => !p.net && p.phase = 1 && p.tick ≤ (s.region (regionOf c)).hw.toNat) ++ dueWrites s c
  (sortBy commitLe ((dueItems k.task t 1 ++ come).filter fun p => 1 ≤ p.rank && p.rank < 6)).foldl (runItem c false) s

/-- The MARK of a core that is due at its present tick and whose target word stands in a poisoned line at the place of its add (R60, R430), found by a trial of the commits
before it. -/
def markFault (s : State) (c t : Nat) : Option (Marker × Flt) :=
  let s := fencesDone s c t
  if (s.core c).markers.any fun m => m.inv.isNone && m.due (s.core c) t then poisonedMark (belowAtomics s c t) c t else none

/-- The fault of the engine steps of a tick that come behind its cube and copy reads (R520), on the state after these: a beat that finds its stream queue full, a
write burst, a MARK; with the state that marks its command. -/
def engineCheck (s1 base : State) (c t : Nat) : Option State :=
  match fullCopy base c t with
  | some (x, d) =>
    let f := fullFlt s1 c d
    some (takeFault (s1.modCore c fun k => { k with copies := k.copies.map fun y => if y.id = x.id then { y with faulted := true } else y })
      c false t (faultOf x.org 6 f.code f.cause f.addr f.aux))
  | none =>
    match burstFault base c t with
    | some (x, f) => some (rejectCommand s1 c x f)
    | none => (markFault base c t).map fun x => takeFault s1 c false t (faultOf x.1.org 6 x.2.code x.2.cause x.2.addr x.2.aux)

/-- The state after the start of a tick, of which `s1` is the opening, `s2` the issue and `bad` says that this has faulted: a fault of an engine
step comes before one of the issue (R520), and a stop discards the tick. -/
def closeTick (c t : Nat) (s1 s2 : State) (bad : Bool) : State :=
  let base := if bad then s1 else s2
  let s3 := runReads c t base
  match (s3.core c).frozen with
  | some f => takeFault (s1.modCore c fun k => k.marked (s3.core c)) c false t (f.fault.getD {})
  | none => (engineCheck s1 base c t).getD (if bad then s2 else s3)

/-- The state after the issue of a bundle with the reads of the tick, behind its opening (R59, R148). -/
def issueTick (c : Nat) (s : State) : Host.Outcome State Fault Refusal :=
  let t := s.tick c false
  if arrivesNow s c then
    let s2 := within (.heelArrive c) s
    .next (closeTick c t s s2 (stoppedCore s2 c))
  else if issuesNow s c then
    match issueBundle (s.planned c) c false with
    | (.next s2, bad) => .next (closeTick c t s s2 bad)
    | (o, _) => o
  else .next (closeTick c t s s false)

/-- Whether the bundle that a member of a freezing pack is to issue next waits for a stopped one (R251 rules 2 and 4): nothing of the tick is detected in it then
(R256). -/
def stopsAtIssue (s : State) (c : Nat) : Bool :=
  ((s.pack (s.core c).group).bind (·.freeze)).isSome && !lateMember s c && waitsOnStopped (s.planned c) c

/-- The start of a tick of a task (R59, R144, R251, R520): the stop of a member, the faults of results, the waits, then the issue of a bundle with the
reads of the tick. Where a fault at a stamp of the tick is to come (`hold`), the issue is only tried, for the faults that come before that one. -/
def startTask (c : Nat) (hold : Bool) (s : State) : Host.Outcome State Fault Refusal :=
  let t := s.tick c false
  let s := writeStages c false s
  if stopsNow s c then runEv (.memberStop c) s
  else if !lateMember s c && (awaitsStopped s c t || (let s1 := openTick c t s; issuesNow s1 c && stopsAtIssue s1 c)) then
    .next (stopMember s c t none false false)
  else
    let s := resultFaults c t (s.modCore c fun k => { k with trapen := wfld k.echk 20 16 })
    if stoppedCore s c then .next s
    else
      let s1 := openTick c t s
      match issueTick c s1 with
      | .next s2 => .next (if hold && !stoppedCore s2 c then s1 else s2)
      | o => o

/-- The start of a tick of a handler (R263). -/
def startHandlerTick (c : Nat) (s : State) : Host.Outcome State Fault Refusal :=
  if (s.core c).handler.isNone then .next s
  else
    let s := lookWait c true (poisonFaults c true (s.tick c true) s)
    let s := writeStages c true s
    if (s.core c).handler.isSome && dueBundle s c true then (issueBundle s c true).1 else .next s

/-! ### The edge of a region -/

/-- Whether a region has no supply, or is losing or gaining it (R236 to R239). -/
def Region.dark (r : Region) : Bool :=
  match r.power with
  | .awake => false
  | .idle _ => false
  | _ => true

/-- The state in which gates of instances have opened whose creator's earlier accesses have performed (R463); a creator is a task (R263). -/
def openGates (r : Nat) (s : State) : State :=
  s.walker.insts.foldl (fun s i =>
    match i.2.gate with
    | none => s
    | some (c, upTo) =>
      let t := s.tick c false
      if regionOf c = r && (s.core c).task.outst.all (fun o => upTo ≤ o.id || ((o.done.map fun d => decide (d < t)).getD false)) then
        readyNodes (s.modInst i.1 fun i => { i with gate := none }) i.1
      else s) s

/-- The state in which the idleness of a region has been looked at (R236): an idle one begins its hold. -/
def lookIdle (r : Nat) (s : State) : State :=
  let k := s.region r
  match k.power with
  | .awake => if regionIdle s r then (s.modRegion r fun k => { k with power := .idle s.now }).later k.holdFor (.regionGateBegin r) else s
  | .idle _ => if regionIdle s r then s else s.modRegion r fun k => { k with power := .awake }
  | _ => s

/-- The place of a start among those of its tick (R48): behind the others the handlers that write a TLB entry, in ascending index. -/
def tlbPlace (s : State) : Work → Nat
  | .start c true _ =>
    (((nextBundle s c true).1.words.findSome? fun w => match decodeWord w with
      | .ok (.tlbw _ _ a _) => some (1 + wfld ((s.thread c true).reg a.toNat) 8 0)
      | _ => none)).getD 0
  | _ => 0

/-- The work that an edge gives a core of the region at the pace of its task; `held` are the cores that are to fault at a stamp of the tick. -/
def edgeStarts (held : List Nat) (k : Core) (c : Nat) (p : Pace) : List Work :=
  (match p with
    | .works => [.start c false (held.contains c)]
    | .holds => [.event (.memberStop c)]
    | _ => []) ++ if k.handler.isSome then [.start c true false] else []
@[inherit_doc edgeStarts] def edgeTimeline (c : Nat) (p : Pace) : List Work :=
  if p = .works || p = .absorbs then [.timeline c] else []
@[inherit_doc edgeStarts] def edgeCommits (s : State) (k : Core) (c : Nat) : List Work :=
  if k.stage = .free && k.handler.isNone && k.arriving.isEmpty && k.markers.isEmpty && !s.invals.any fun v => v.2.core = c then []
  else [.commits c false] ++ if k.handler.isSome then [.commits c true] else []

/-- The cores whose tasks are to fault at a stamp of the present tick (R104, R118, R250), found by a trial of the timelines; those that are to present nothing are
passed over. -/
def stampFaults (ps : List (Nat × Pace)) (s : State) : List Nat :=
  let busy (x : Nat × Pace) : Bool := (x.2 = .works || x.2 = .absorbs) && (s.core x.1).live &&
    (!(s.core x.1).tlq.isEmpty || (missedBank s x.1 (s.rel x.1).toInt).isSome)
  let t := (ps.filter busy).foldl (fun s x => timelineTick x.1 s) s
  ((ps.filter busy).map (·.1)).filter fun c => stoppedCore t c

/-- The stacks at which a grouped atomic stands. -/
def groupedStacks (s : State) : List Nat := (s.hbms.filter fun h => h.2.units.any fun a => a.grouped.isSome).map (·.1)

/-- The occupied core-ticks of the instances in a region, with those of one more tick: a core's task, and the handler on it, occupy it (R245). -/
def occupied (s : State) (r : Nat) (occ : SMap Nat) : SMap Nat :=
  (regionCores r).foldl (fun m c =>
    let k := s.core c
    let inst := if k.live then some k.inst else if k.handler.isSome then (s.pack k.hpack).map (·.inst) else none
    match inst with
    | some i => smSet m i (smGet 0 m i + 1)
    | none => m) occ

/-- The state after a delivered edge of a region: HW counts (R139, R143), reads with no defined tick perform (R169), and the work of the tick is due, the starts of
every core before the commits of any (R59). -/
def tickRegion (r : Nat) (s : State) : State :=
  let s := lookIdle r (openGates r (s.modRegion r fun k => { k with hw := k.hw + 1, ticks := k.ticks + 1, occ := occupied s r k.occ }))
  let paced := ((regionCores r).filter fun c => (smFind s.cores c).isSome).map fun c => (c, (s.core c).atEdge s.now)
  let s := paced.foldl (fun s x => s.setCore x.1 x.2.1) s
  let s := paced.foldl (fun s x => netReads s x.1) s
  let held := stampFaults (paced.map fun x => (x.1, x.2.2)) s
  { s with work :=
      sortBy (fun a b => tlbPlace s a ≤ tlbPlace s b) (paced.flatMap fun x => edgeStarts held x.2.1 x.1 x.2.2) ++ paced.flatMap (fun x => edgeTimeline x.1 x.2.2) ++ held.map .late
        ++ paced.flatMap (fun x => edgeCommits s x.2.1 x.1) ++ (groupedStacks s).map (fun h => .event (.gAtomicPerform h)) ++ s.work }

/-- An edge of a region's generator (R139, R141, R160): the next one is a period later, or a free time more while the generator runs without the
reference. The first of a group of 16 periods shows what MUZZLE reads in the group (R481). -/
def edgeRegion (r : Nat) (s : State) : State :=
  let k := s.region r
  let (free, s) := if k.lock then (0, s) else s.drawAny
  let s := s.modRegion r fun k => { k with
    phase := (k.phase + 1) % 16, edge := k.edge + k.period + free
    gov := if k.phase = 0 then { k.gov with wshow := k.gov.wstep, yshow := k.gov.why } else k.gov }
  if delivered k.step k.phase && !k.dark then tickRegion r s else s

/-! ### Instants -/

/-- The state after one piece of work. -/
def runWork (w : Work) (s : State) : Host.Outcome State Fault Refusal :=
  match w with
  | .event e => runEv e s
  | .issue c false => (issueBundle (s.planned c) c false).1
  | .issue c true => (issueBundle s c true).1
  | .start c false hold => if stoppedCore s c then .next s else startTask c hold s
  | .start c true _ => startHandlerTick c s
  | .late c => if stoppedCore s c then .next s else issueTick c s
  | .timeline c => .next (timelineTick c s)
  | .commits c false => .next (commitTask c s)
  | .commits c true => .next (commitHandler c s)
  | .edge r => .next (edgeRegion r s)

/-- The instant of the first edge of a region's generator, once the package has booted. -/
def nextEdge (s : State) : Option Nat := if s.psc.booted then ((List.range 16).map fun r => (s.region r).edge).min? else none

/-- The state in which the first-level TLBs of the regions whose tick begins at an instant stand as the writes and invalidations of the tick before leave them
(R44, R46, R48, R470). -/
def State.settleTlbs (s : State) (t : Nat) : State :=
  let due (c : Nat) (k : Core) : Bool := k.tlbNext.isSome && (s.region (regionOf c)).edge = t
  if s.cores.any fun c => due c.1 c.2 then { s with cores := smMap (fun c (k : Core) => if due c k then k.settle else k) s.cores } else s

/-- The state at the next instant at which anything is due: a timer, or the edges of the regions whose edges fall there; a timer comes
before the edges of its instant. -/
def advance (s : State) : State :=
  let edges (t : Nat) : State := { s.settleTlbs t with now := t, work := ((List.range 16).filter fun r => (s.region r).edge = t).map .edge }
  match s.timers, nextEdge s with
  | [], none => s
  | [], some t => edges t
  | x :: xs, none => { s with now := x.1, timers := xs, work := [.event x.2] }
  | x :: xs, some t => if x.1 ≤ t then { s with now := x.1, timers := xs, work := [.event x.2] } else edges t

end Sys2Proof.Machine
end

