-- ==== Sys2Proof/Machine/Step.lean ====
section
/-!
DEFINITION. One step of the machine (log 1), and the placing of an instruction where the next step fetches it (log 2).
-/
namespace Sys2Proof.Machine

/-- One step: the first piece of work of the present instant, or the move to the next instant at which anything is due. -/
def step (s : State) : Host.Outcome State Fault Refusal :=
  match s.work with
  | [] => .next (advance s)
  | w :: ws => runWork w { s with work := ws }

/-- The state in which the task of core 0 issues next the instruction word `w`, of 32 bits: the word stands at the packet of the task in
the instruction buffer, and the issue of that bundle is the next piece of work. An entry of the table that is no word has no bits to
place. -/
def State.withFetchWord (s : State) (nbits w : Nat) : State :=
  if nbits = 32 then
    let k := s.core 0
    let s := commitFace s 0 3 (12 * k.task.pc) (leBytes 4 w) false
    { s.setCore 0 { k with stage := .running, skip := 0, task := { k.task with loop := none, wait := none } } with work := [.issue 0 false] }
  else s

end Sys2Proof.Machine
end

