-- ==== Sys2Proof/Safety.lean ====
section
/-!
DEFINITION. What claims are stated in: the canonical form of the state, a run that does not stop, the conditions under which one word
issues, and the state in which a word has posted its result.
-/
namespace Sys2Proof.Machine

/-- The sparse maps of the state that stand for memories are in canonical form, so that equal contents are equal data: the locations of
memory rise strictly and none holds zero, and the stored errors of bursts rise strictly. -/
def State.Canonical (s : State) : Prop := s.mem.wf = true ∧ smSorted s.burstErr = true

/-- The number of every item that a thread has pending is below the number that its next item gets, so that a number names one item (R59, R303). -/
def State.IdsBelow (s : State) : Prop := ∀ c hd, ∀ p ∈ (s.thread c hd).agenda, p.id < (s.thread c hd).nid

/-- A run of `n` steps from a state is safe: it meets no fault and no refusal. -/
def State.Safe (n : Nat) (s : State) : Prop := ∃ t, Sys2Proof.core.run n s = .next t

/-- A word issues with its effect (R280, R285, R302): its thread is there, its bundle has not faulted, its encoding is legal where it
stands, its guard is true, and its thread may issue it. -/
def issues (s : State) (i : Instr) (p : Perm) : Bool :=
  (!s.cur.hd || s.ccore.handler.isSome) && s.cur.raised.isNone && (illegalCause s.cur i.toWord).isNone && guardTrue s i.toWord
    && !p.refuses s.cur.hd

/-- A word completes by posting one result of latency `lat` from its captured operand slots, and changes nothing else. -/
def gives (s : State) (i : Instr) (lat : Nat) (imm : Option Word) (slots : List Vec) (vec : Bool) (r : Res) : Prop :=
  exec i s = .next (postResult s lat (mkReplay s i imm slots vec) r)

/-- The scalar registers of the thread being issued as operand slots. -/
def regSlots (s : State) (rs : List Nat) : List Vec := rs.map fun r => slotOf (rdReg s r)

/-- The matrix operands of the core being issued as operand slots. -/
def matSlots (s : State) (ms : List Nat) : List Vec := ms.map (readMat s.ccore.mrf)

/-- A word posts the value `v` for scalar register `d`. -/
def givesReg (s : State) (i : Instr) (lat : Nat) (imm : Option Word) (rs : List Nat) (d : Nat) (v : Word) : Prop :=
  gives s i lat imm (regSlots s rs) false { writes := [(.sreg d, slotOf v)] }

/-- A word posts a truth value for predicate `e`, and flags. -/
def givesPred (s : State) (i : Instr) (lat : Nat) (imm : Option Word) (slots : List Vec) (e : Nat) (v : Bool) (flags : Nat) : Prop :=
  gives s i lat imm slots false { writes := [(.pred e, BitVec.ofNat 1024 (b2n v))], flags := flags }

/-- A word posts a floating-point code for scalar register `d`, and flags. -/
def givesFp (s : State) (i : Instr) (lat : Nat) (rs : List Nat) (d : Nat) (x : Nat × Nat) : Prop :=
  gives s i lat none (regSlots s rs) false { writes := [(.sreg d, BitVec.ofNat 1024 x.1)], flags := x.2 }

/-- A word posts a matrix vector of lanes of `b` bits, and the flags of all lanes. -/
def givesMat (s : State) (i : Instr) (lat : Nat) (ms : List Nat) (m b : Nat) (xs : List (Nat × Nat)) : Prop :=
  gives s i lat none (matSlots s ms) true
    { writes := [(.mat m, vpack b (xs.map (·.1)))], flags := xs.foldl (fun f x => Nat.lor f x.2) 0 }

/-- What one state keeps of another: every byte of memory reads as before. -/
def sameMem (s t : State) : Prop := ∀ a, readByte t.mem a = readByte s.mem a

/-- The bytes from a location on read as given, and every other byte of memory as before. -/
def putsBytes (s t : State) (loc : Nat) (data : List Byte) : Prop :=
  ∀ a, readByte t.mem a = if loc ≤ a ∧ a < loc + data.length then data.getD (a - loc) 0 else readByte s.mem a

/-- Every scalar register, predicate, matrix register and the scale bypass of every task is as before. -/
def sameRegs (s t : State) : Prop :=
  ∀ c, (t.core c).task.regs = (s.core c).task.regs ∧ (t.core c).task.preds = (s.core c).task.preds ∧ (t.core c).mrf = (s.core c).mrf
    ∧ (t.core c).bypass = (s.core c).bypass

/-- A word completes with no byte of memory and no register changed, and what else holds of the state after it. -/
def completes (s : State) (i : Instr) (q : State → Prop) : Prop := ∃ t, exec i s = .next t ∧ sameMem s t ∧ sameRegs s t ∧ q t

/-- A stamp for a timeline word: the offset that its T field gives is `st`, even, at least 16 ticks from now, and the queue has a place (R101,
R293, R422 orders 8 and 11). -/
def stampFits (s : State) (t st : Nat) : Prop :=
  offsetOf s t = some st ∧ st % 2 = 0 ∧ s.ctick + 16 ≤ s.fromBase st ∧ s.ccore.tlUsed s.ctick < 256

/-- A location of the HBM is open at stamp `x` to a command `op` of the core being issued: it lies on the stack of the core, in a PC not in
atomic mode, in a bank and under a bus lane of the lease, in a row in service, behind the last posting to its PC, outside every hole and
the care of the banks, and in no lent bank (R96, R98, R100, R102, R113, R114, R209, R422 orders 7 to 10). -/
def openAt (s : State) (op loc x : Nat) : Prop :=
  let c := s.cur.core
  let l := s.ccore.lease
  locHs loc / 4 = stackOf c ∧ ((s.hbm (locHs loc)).pc (locPc loc)).mode ≠ 2 ∧ leaseKey c loc ∈ l.entry.slots ∧
    bit (laneMask (if isCol op then l.entry.cols else l.entry.rows) c loc) (x / 2 % 8) = true ∧
    (l.cls = 2 → op = 0 ∨ isCol op = true ∨ isMem op = true → locRow loc < 8192) ∧
    (∀ p, smFind (if isCol op then s.ccore.lastCol else s.ccore.lastRow) (pcKey loc) = some p → p < s.fromBase x) ∧
    inHole x = false ∧ rebaseHole s (s.fromBase x) = false ∧ inCare s.ccore (s.fromBase x) = false ∧
    (op ≠ 2 → op ≠ 8 → lentAt s loc x = false)

/-- A timeline word completes: one command of its opcode, stamp, bursts and rows stands at the end of the queue (R101, R424). -/
def postsCommand (s : State) (i : Instr) (op st : Nat) (bursts : List Burst) (rows : List Nat) : Prop :=
  completes s i fun u => ∃ x, (u.core s.cur.core).tlq = s.ccore.tlq ++ [x] ∧ x.op = op ∧ x.stamp = st ∧ x.tick = s.fromBase st ∧
    x.bursts = bursts ∧ x.rows = rows

/-- An engine address names `n` bytes of a face, or a stream queue (R25 to R27, R83, R433): the place is in its unit and may play its role. -/
def namesPlace (v : Word) (n : Nat) (role : EngRole) : Prop :=
  let a := wfld v 30 0
  (wfld v 34 32 < 4 → a + n ≤ faceSize (wfld v 34 32) ∧ (wfld v 34 32 = 3 → role = .dest)) ∧
    (wfld v 34 32 = 4 → role ≠ .fill ∧ fld a 30 23 < 192 ∧ fld a 20 0 + n ≤ faceSize (fld a 22 21) ∧ (fld a 22 21 = 3 → role = .dest)) ∧
    (wfld v 34 32 = 5 → role = .dest ∧ fld a 30 23 < 192 ∧ n % 128 = 0) ∧ wfld v 34 32 < 6

/-- The core, the face (4 to 7 for a stream queue) and the offset that an engine address names for a core (R432, R433). -/
def placeNamed (c : Nat) (v : Word) : Nat × Nat × Nat :=
  let a := wfld v 30 0
  if wfld v 34 32 = 5 then (coreOfX (clusterOf c) (fld a 30 23), 4 + fld a 1 0, 0)
  else if wfld v 34 32 = 4 then (coreOfX (clusterOf c) (fld a 30 23), fld a 22 21, fld a 20 0)
  else (c, wfld v 34 32, a)

/-- The copy engine can take a command at a start tick: the start is to come, a place is free, and the engine is free from it on (R87, R437). -/
def engineTakes (s : State) (start : Nat) : Prop :=
  s.ctick < start ∧ s.ccore.copyUsed s.ctick < 16 ∧ s.ccore.copyEnd ≤ start ∧ s.ccore.copyLast ≤ start

/-- A copy-engine word completes: one command of its start, length, source and destinations is queued, and the engine is taken for one tick
a beat (R84, R86, R87). -/
def queuesCopy (s : State) (i : Instr) (start len z : Nat) (fill : Option HWord) (src : Nat × Nat × Nat) (dsts : List (Nat × Nat × Nat)) :
    Prop :=
  completes s i fun u => (u.core s.cur.core).copyEnd = start + (len + z - 1) / z ∧
    ∃ x, (u.core s.cur.core).copies = s.ccore.copies ++ [x] ∧ x.start = start ∧ x.len = len ∧ x.fill = fill ∧
      (x.score, x.sface, x.soff) = src ∧ x.dsts.map (fun d => (d.core, d.face, d.off)) = dsts

/-- A thread of a core without its bookkeeping of pending items and accesses: what a word that only posts leaves alone. -/
def Thread.bare (t : Thread) : Thread := { t with agenda := [], outst := [], nid := 0 }

/-- The words that a task alone may issue (R263): the V and X words, the matrix loads and stores, timeline, copy and fabric words, the
waits on completion counters and barriers, launches, seals and END. -/
def taskOnly : Instr → Bool
  | .vmov .. | .vfadd .. | .vfsub .. | .vfmul .. | .vfma .. | .vfmin .. | .vfmax .. | .vadd .. | .vsub .. | .vmul .. | .vmin ..
  | .vmax .. | .vminu .. | .vmaxu .. | .vand .. | .vor .. | .vxor .. | .vshl .. | .vshr .. | .vsar .. | .vfcmpeq .. | .vfcmplt ..
  | .vcmpeq .. | .vcmplt .. | .vsel .. | .vexp2 .. | .vrcp .. | .vrsq .. | .vfrsum .. | .vfrmax .. | .vbcast .. | .vperm ..
  | .vcvt .. | .vbmax .. | .vqcvt .. | .vdeq .. | .vsetfmt .. | .vqmov .. | .vqmovSend .. | .cubeMm .. | .cubeMma .. | .cubeMmw ..
  | .cubeMmwa .. | .cubePl .. | .cubePla .. | .cubeWl .. | .cubeFmt .. | .cubeZero .. | .cubeDrain .. | .cubeScore ..
  | .cubeResc .. | .cubeSide .. | .mlda .. | .msta .. | .mldw .. | .mstw .. | .mldc .. | .mstc .. | .mldx .. | .mstx .. | .act ..
  | .pre .. | .prea .. | .rd .. | .wr .. | .rdt .. | .wrt .. | .refpb .. | .refab .. | .mzero .. | .mcopy .. | .mcmp ..
  | .lfence .. | .mark .. | .copy .. | .mcast .. | .fill .. | .put .. | .get .. | .ratom .. | .waitc .. | .launch .. | .ginst ..
  | .seal .. | .unseal .. | .bararr .. | .barwait .. | .endTask .. => true
  | _ => false

/-- The words that a handler alone may issue (R469, R472). -/
def handlerOnly : Instr → Bool
  | .tlbw .. | .tlbp .. | .tlbinv .. | .linsp .. | .lpatch .. | .lrq .. | .lreinj .. | .resume .. | .kill .. | .hret ..
  | .ldeleg .. => true
  | _ => false

end Sys2Proof.Machine
end

