-- ==== Sys2Proof/Certificates/Slice0/Obligations.lean ====
section
/-!
DEFINITION. The statements for the provers (OBLIGATIONS.json): what each family of instructions does in every state in which it issues, what each
step of the hardware, the firmware and the host does, and what every step of the machine keeps.
-/

open Sys2Proof Sys2Proof.Machine

/-- Fourteen words written out from the encoding tables (R297 to R301) decode to the instructions they stand for: one or more of each pipe,
and the three control words. The words come from the examples of spec/09, spec/18 and spec/22. (R284, R297, R298, R299, R300, R301) -/
def Obligations.DecodedWords : Prop :=
  decodeWord 0x80C030E0 = .ok (.addi ⟨true, false, 0⟩ 3 3 32) ∧
    decodeWord 0x7400061A = .ok (.ext false 0 0x61A) ∧
    decodeWord 0x0E412154 = .ok (.cvt ⟨false, false, 0⟩ 1 4 5 10) ∧
    decodeWord 0x1E804254 = .ok (.fdiv ⟨false, 0⟩ 0 8 9 10) ∧
    decodeWord 0x0E8FFFFA = .ok (.b ⟨false, 3⟩ 0x3FFFA) ∧
    decodeWord 0x204102A6 = .ok (.vfadd false 0 4 5 0x26) ∧
    decodeWord 0x2960C100 = .ok (.vqmovSend false 3 2) ∧
    decodeWord 0xB1813E40 = .ok (.mldw ⟨true, 0⟩ 0x27 50) ∧
    decodeWord 0xC240038F = .ok (.cubeDrain ⟨true, 0⟩ 0 14 15) ∧
    decodeWord 0xD1400A6A = .ok (.rdt ⟨true, 0⟩ 0 41 42) ∧
    decodeWord 0x3740212A = .ok (.acasD ⟨false, 0⟩ 0 0 8 9 10) ∧
    decodeWord 0x5AC04A29 = .ok (.lpatch ⟨false, 0⟩ 1 0 40 41) ∧
    decodeWord 0x56018000 = .ok (.fence ⟨false, 0⟩ 3) ∧
    decodeWord 0x70080000 = .ok (.bcw false 2 0 0 0)

/-- For every instruction word i, with every operand at every value, decodeWord (toWord i) = ok i, and the word has 32 bits. (R284, R297,
R298, R299, R300, R301) -/
def Obligations.DecodeOfEncode : Prop :=
  ∀ i : Instr, i.isWord = true → i.toWord < 2 ^ 32 ∧ decodeWord i.toWord = .ok i

/-- For every 32-bit number w that the decoder accepts, the encoding of its instruction is w, so no two words have one meaning and no bit of
a word is dropped. (R284, R297, R298, R299, R300, R301, R302) -/
def Obligations.EncodeOfDecode : Prop :=
  ∀ (w : Nat) (i : Instr), w < 2 ^ 32 → decodeWord w = .ok i → i.isWord = true ∧ i.toWord = w

/-- The immediate of the forms RRI and PRI is I6 sign-extended, or with an EXT the 31-bit number EXT:I6 sign-extended; that of RI is I12, or
the 37-bit EXT:I12; the offset of MLS and MMX is 0, or the 25-bit EXT value sign-extended. (R288, R291) -/
def Obligations.ImmediateForms : Prop :=
  ∀ (cur : Cur) (n6 : BitVec 6) (n12 : BitVec 12),
    (cur.ext = none → imm6 cur n6.toNat = n6.signExtend 64 ∧ imm12 cur n12.toNat = n12.signExtend 64 ∧ immOff cur = 0) ∧
    ∀ e : Nat, cur.ext = some e →
      imm6 cur n6.toNat = (BitVec.ofNat 25 e ++ n6).signExtend 64 ∧
      imm12 cur n12.toNat = (BitVec.ofNat 25 e ++ n12).signExtend 64 ∧
      immOff cur = (BitVec.ofNat 25 e).signExtend 64

/-- Where the bundle has not faulted and a word is legal where it stands, a false guard makes exec answer the state unchanged, for every
instruction word. (R285) -/
def Obligations.FalseGuardNoEffect : Prop :=
  ∀ (i : Instr) (s : State), i.isWord = true → s.cur.raised = none → illegalCause s.cur i.toWord = none →
    guardTrue s i.toWord = false → exec i s = .next s

/-- A word whose encoding is illegal where it stands (a reserved value, a register of the wrong cluster, a predicate of the stages written
in a loop body) faults ILLEGAL with its cause, or with a lower cause that a value of its registers gives, whatever its guard says and whoever issues it. A legal word
with a true guard that is of the task alone (V and X words, matrix loads and stores, timeline, copy and fabric words, launches and seals, BARARR, BARWAIT, END) issued
by a handler, or of the handler alone issued by a task, faults PRIV and has none of its effect, or, where a value of its registers is illegal, faults ILLEGAL; a word of
whose registers no value is illegal faults PRIV. That an illegal value of a register comes before PRIV and before a higher cause is the model's reading (log 52).
(R263, R280, R285, R302, R469, R472) -/
def Obligations.IllegalAndPriv : Prop :=
  ∀ (i : Instr) (s : State) (cause : Nat), i.isWord = true → s.cur.raised = none →
    (illegalCause s.cur i.toWord = some cause →
      (noIllegal i = true → exec i s = .next (raise s (srcOf i.toWord) 1 cause)) ∧
      ∃ t r, exec i s = .next t ∧ t.cur.raised = some r ∧ r.code = 1 ∧ r.cause ≤ cause) ∧
    (illegalCause s.cur i.toWord = none → guardTrue s i.toWord = true →
      ((taskOnly i = true ∧ s.cur.hd = true) ∨ (handlerOnly i = true ∧ s.cur.hd = false)) →
      (noIllegal i = true → exec i s = .next (raise s (srcOf i.toWord) 13 0)) ∧
      (exec i s = .next (raise s (srcOf i.toWord) 13 0) ∨ ∃ t r, exec i s = .next t ∧ t.cur.raised = some r ∧ r.code = 1))

/-- For every instruction word but LAUNCH and GINST (which write the instance), CANCEL, KILL and HRET (which end launches) and TLBINV (whose
completion count may change at once), a next state of exec has every byte of memory as before: a store commits later, by a step of its
own. (R81, R415, R416, R424) -/
def Obligations.IssueKeepsMemory : Prop :=
  ∀ (i : Instr) (s t : State), i.isWord = true →
    (match i with
      | .launch .. => False
      | .ginst .. => False
      | .cancel .. => False
      | .kill .. => False
      | .hret .. => False
      | .tlbinv .. => False
      | _ => True) →
    exec i s = .next t → sameMem s t

/-- For every instruction word but LPATCH (which patches a frozen member), CANCEL, KILL and HRET (which may end packs), a next state of exec
has every scalar register, predicate and matrix register and the scale bypass of every task as before: results commit later (R303).
(R59, R303) -/
def Obligations.IssueKeepsRegisters : Prop :=
  ∀ (i : Instr) (s t : State), i.isWord = true →
    (match i with
      | .lpatch .. => False
      | .cancel .. => False
      | .kill .. => False
      | .hret .. => False
      | _ => True) →
    exec i s = .next t → sameRegs s t

/-- ADD, SUB, MUL, MULHS, MULHU, AND, OR, XOR, SHL, SHR, SAR, MIN, MAX, MINU and MAXU, in every state in which the word issues, answer the
next state in which the value of R334 is posted for D with the latency of R303, and nothing else has changed; each has the opcode and
the fields D, A and B of its table. (R334) -/
def Obligations.RegisterArithmetic : Prop :=
  ∀ (s : State) (h : SHead) (d a b : BitVec 6),
    let x := rdReg s a.toNat
    let y := rdReg s b.toNat
    let R (i : Instr) (op lat : Nat) (v : Word) : Prop :=
      (fld i.toWord 27 22 = op ∧ fld i.toWord 17 12 = d.toNat ∧ fld i.toWord 11 6 = a.toNat ∧ fld i.toWord 5 0 = b.toNat) ∧
      (issues s i .both = true → givesReg s i lat none [a.toNat, b.toNat] d.toNat v)
    R (.add h d a b) 0x01 1 (BitVec.ofNat 64 (x.toNat + y.toNat)) ∧
    R (.sub h d a b) 0x02 1 (BitVec.ofInt 64 ((x.toNat : Int) - y.toNat)) ∧
    R (.mul h d a b) 0x04 3 (BitVec.ofNat 64 (x.toNat * y.toNat)) ∧
    R (.mulhs h d a b) 0x05 3 (BitVec.ofInt 64 (x.toInt * y.toInt / 2 ^ 64)) ∧
    R (.mulhu h d a b) 0x06 3 (BitVec.ofNat 64 (x.toNat * y.toNat / 2 ^ 64)) ∧
    R (.and h d a b) 0x07 1 (x &&& y) ∧
    R (.or h d a b) 0x08 1 (x ||| y) ∧
    R (.xor h d a b) 0x09 1 (x ^^^ y) ∧
    R (.shl h d a b) 0x0D 1 (BitVec.ofNat 64 (x.toNat * 2 ^ (y.toNat % 64))) ∧
    R (.shr h d a b) 0x0E 1 (BitVec.ofNat 64 (x.toNat / 2 ^ (y.toNat % 64))) ∧
    R (.sar h d a b) 0x0F 1 (BitVec.ofInt 64 (x.toInt / 2 ^ (y.toNat % 64))) ∧
    R (.min h d a b) 0x13 1 (if x.toInt ≤ y.toInt then x else y) ∧
    R (.max h d a b) 0x14 1 (if x.toInt ≤ y.toInt then y else x) ∧
    R (.minu h d a b) 0x15 1 (if x.toNat ≤ y.toNat then x else y) ∧
    R (.maxu h d a b) 0x16 1 (if x.toNat ≤ y.toNat then y else x)

/-- ADDI, ANDI, ORI, XORI, SHLI, SHRI, SARI and LI, in every state in which the word issues, post the value of R335 for D with latency 1 and
change nothing else; the immediate is that of R288. (R335, R288, R303) -/
def Obligations.ImmediateArithmetic : Prop :=
  ∀ (s : State) (h : SHead) (d a n : BitVec 6) (m : BitVec 12),
    let x := rdReg s a.toNat
    let R (i : Instr) (imm : Word) (v : Word) : Prop := issues s i .both = true → givesReg s i 1 (some imm) [a.toNat] d.toNat v
    R (.addi h d a n) (imm6 s.cur n.toNat) (BitVec.ofNat 64 (x.toNat + (imm6 s.cur n.toNat).toNat)) ∧
    R (.andi h d a n) (imm6 s.cur n.toNat) (x &&& imm6 s.cur n.toNat) ∧
    R (.ori h d a n) (imm6 s.cur n.toNat) (x ||| imm6 s.cur n.toNat) ∧
    R (.xori h d a n) (imm6 s.cur n.toNat) (x ^^^ imm6 s.cur n.toNat) ∧
    R (.shli h d a n) (BitVec.ofNat 64 n.toNat) (BitVec.ofNat 64 (x.toNat * 2 ^ n.toNat)) ∧
    R (.shri h d a n) (BitVec.ofNat 64 n.toNat) (BitVec.ofNat 64 (x.toNat / 2 ^ n.toNat)) ∧
    R (.sari h d a n) (BitVec.ofNat 64 n.toNat) (BitVec.ofInt 64 (x.toInt / 2 ^ n.toNat)) ∧
    (issues s (.li h d m) .both = true → givesReg s (.li h d m) 1 (some (imm12 s.cur m.toNat)) [] d.toNat (imm12 s.cur m.toNat))

/-- The eight integer compares, and PAND, POR, PXOR and PANDN, in every state in which the word issues, post the truth value of R337 and
R338 for the predicate PD with latency 1 and change nothing else. (R337, R338, R303) -/
def Obligations.PredicateResults : Prop :=
  ∀ (s : State) (h : SHead) (e pa pb : BitVec 4) (a b n : BitVec 6),
    let x := rdReg s a.toNat
    let y := rdReg s b.toNat
    let p := s.cthread.pred pa.toNat
    let q := s.cthread.pred pb.toNat
    let R (i : Instr) (v : Bool) : Prop := issues s i .both = true → givesPred s i 1 none (regSlots s [a.toNat, b.toNat]) e.toNat v 0
    let I (i : Instr) (v : Bool) : Prop :=
      issues s i .both = true → givesPred s i 1 (some (imm6 s.cur n.toNat)) (regSlots s [a.toNat]) e.toNat v 0
    let P (i : Instr) (v : Bool) : Prop :=
      issues s i .both = true → givesPred s i 1 none [predSlot s pa.toNat, predSlot s pb.toNat] e.toNat v 0
    R (.cmpeq h e a b) (decide (x = y)) ∧
    R (.cmpne h e a b) (decide (x ≠ y)) ∧
    R (.cmplt h e a b) (decide (x.toInt < y.toInt)) ∧
    R (.cmple h e a b) (decide (x.toInt ≤ y.toInt)) ∧
    R (.cmpltu h e a b) (decide (x.toNat < y.toNat)) ∧
    R (.cmpleu h e a b) (decide (x.toNat ≤ y.toNat)) ∧
    I (.cmpeqi h e a n) (decide (x = imm6 s.cur n.toNat)) ∧
    I (.cmplti h e a n) (decide (x.toInt < (imm6 s.cur n.toNat).toInt)) ∧
    P (.pand h e pa pb) (p && q) ∧
    P (.por h e pa pb) (p || q) ∧
    P (.pxor h e pa pb) (p != q) ∧
    P (.pandn h e pa pb) (p && !q)

/-- SEL posts a or b by the predicate its guard field names (and issues whatever that predicate is), XMOV posts a with latency 2, QRD posts
words 1:0 of a latch that holds an entry, RDTICK posts TICK - TBASE, each changing nothing else. NOP is the word of opcode 0x00 of pipes S0 and
S1 whose bits 17:0 are zero: with any guard and any predicates it leaves the state as it is, and a word of its opcode with another bit among
17:0 decodes to no instruction. That a handler's QRD reads a latch of its core, as a task's does, is the model's choice (log 15). (R336, R339,
R340, R341, R456) -/
def Obligations.MoveResults : Prop :=
  ∀ (s : State) (h : SHead) (g : Head) (d a b : BitVec 6) (q : BitVec 3) (v : Vec),
    let x := rdReg s a.toNat
    let y := rdReg s b.toNat
    (issues s (.sel h d a b) .both = true →
      gives s (.sel h d a b) 1 none [slotOf x, slotOf y, predSlot s h.guard.toNat] false
        { writes := [(.sreg d.toNat, slotOf (if s.cthread.pred h.guard.toNat then x else y))] }) ∧
    (issues s (.xmov h d a) .both = true → givesReg s (.xmov h d a) 2 none [a.toNat] d.toNat x) ∧
    (issues s (.qrd h d q) .both = true → latchOf s.ccore q.toNat = some v →
      gives s (.qrd h d q) 1 none [BitVec.ofNat 1024 (v.toNat % 2 ^ 64)] false
        { writes := [(.sreg d.toNat, slotOf (BitVec.ofNat 64 v.toNat))] }) ∧
    (issues s (.rdtick g d) .both = true →
      gives s (.rdtick g d) 1 none [slotOf (BitVec.ofNat 64 (s.tick s.cur.core false) - s.ccore.tbase)] false
        { writes := [(.sreg d.toNat, slotOf (BitVec.ofNat 64 (s.tick s.cur.core false) - s.ccore.tbase))] }) ∧
    exec (.nop h) s = (if s.cur.raised = none then
      (match illegalCause s.cur (Instr.nop h).toWord with
        | some k => .next (raise s (srcOf (Instr.nop h).toWord) 1 k)
        | none => .next s) else .next s) ∧
    (s.cur.raised = none → exec (.nop h) s = .next s) ∧
    (fld (Instr.nop h).toWord 27 22 = 0 ∧ fld (Instr.nop h).toWord 17 0 = 0 ∧ ∀ cur : Cur, illegalCause cur (Instr.nop h).toWord = none) ∧
    (∀ w : Nat, w < 2 ^ 32 → pipeOf w < 2 → fld w 27 22 = 0 → fld w 17 0 ≠ 0 → decodeWord w = .error .reserved)

/-- The FP32 and FP64 arithmetic words, the fused multiply-adds with D as addend, the minimum and maximum words, the six compares and CVT,
in every state in which the word issues, post for D (counted from the cluster of the pipe) or PD the value and the flags of the helper
that R343 to R346 name, with the latency of R303, and change nothing else. FP32 operands are bits 31:0 of their registers. (R287, R303,
R342, R343, R344, R345, R346) -/
def Obligations.ScalarFloatResults : Prop :=
  ∀ (s : State) (h : SHead) (r : BitVec 2) (d a b c : BitVec 5) (e : BitVec 4) (m n : BitVec 6),
    let k := if h.s1 then 32 else 0
    let x := rdReg s (k + a.toNat)
    let y := rdReg s (k + b.toNat)
    let z := rdReg s (k + d.toNat)
    let u := rdReg s m.toNat
    let v := rdReg s n.toNat
    let R (i : Instr) (lat : Nat) (w : Nat × Nat) : Prop :=
      issues s i .both = true → givesFp s i lat [k + a.toNat, k + b.toNat] (k + d.toNat) w
    let A (i : Instr) (lat : Nat) (w : Nat × Nat) : Prop :=
      issues s i .both = true → givesFp s i lat [k + a.toNat, k + b.toNat, k + d.toNat] (k + d.toNat) w
    let C (i : Instr) (w : Bool × Nat) : Prop :=
      issues s i .both = true → givesPred s i 2 none (regSlots s [m.toNat, n.toNat]) e.toNat w.1 w.2
    R (.fadd h r d a b) 4 (fAdd FP32 (lo32 x) (lo32 y) r.toNat) ∧
    R (.fsub h r d a b) 4 (fSub FP32 (lo32 x) (lo32 y) r.toNat) ∧
    R (.fmul h r d a b) 4 (fMul FP32 (lo32 x) (lo32 y) r.toNat) ∧
    R (.dadd h r d a b) 5 (fAdd FP64 x.toNat y.toNat r.toNat) ∧
    R (.dsub h r d a b) 5 (fSub FP64 x.toNat y.toNat r.toNat) ∧
    R (.dmul h r d a b) 5 (fMul FP64 x.toNat y.toNat r.toNat) ∧
    R (.fmin h d a b) 2 (fMin FP32 (lo32 x) (lo32 y)) ∧
    R (.fmax h d a b) 2 (fMax FP32 (lo32 x) (lo32 y)) ∧
    R (.dmin h d a b) 2 (fMin FP64 x.toNat y.toNat) ∧
    R (.dmax h d a b) 2 (fMax FP64 x.toNat y.toNat) ∧
    A (.ffma h r d a b) 5 (fFma FP32 (lo32 x) (lo32 y) (lo32 z) r.toNat) ∧
    A (.dfma h r d a b) 6 (fFma FP64 x.toNat y.toNat z.toNat r.toNat) ∧
    C (.fcmpeq h e m n) (fCmp FP32 0 (lo32 u) (lo32 v)) ∧
    C (.fcmplt h e m n) (fCmp FP32 1 (lo32 u) (lo32 v)) ∧
    C (.fcmple h e m n) (fCmp FP32 2 (lo32 u) (lo32 v)) ∧
    C (.dcmpeq h e m n) (fCmp FP64 0 u.toNat v.toNat) ∧
    C (.dcmplt h e m n) (fCmp FP64 1 u.toNat v.toNat) ∧
    C (.dcmple h e m n) (fCmp FP64 2 u.toNat v.toNat) ∧
    (issues s (.cvt h r d a c) .both = true → givesFp s (.cvt h r d a c) 4 [k + a.toNat] (k + d.toNat) (cvtVal c.toNat r.toNat x))

/-- FDIV, FSQRT, DDIV and DSQRT issued to the free unit post the value of R347 with latency 14 or 24 and take the unit until issue + L;
issued while the unit is busy they fault STRUCT, cause DIVIDER, and post nothing. (R303, R347) -/
def Obligations.DivideResults : Prop :=
  ∀ (s : State) (h : Head) (r : BitVec 2) (d a b : BitVec 5),
    let x := rdReg s (32 + a.toNat)
    let y := rdReg s (32 + b.toNat)
    let taken (lat : Nat) : State := s.modThread s.cur.core s.cur.hd fun t => { t with divFree := s.ctick + lat }
    let R (i : Instr) (lat : Nat) (rs : List Nat) (w : Nat × Nat) : Prop := issues s i .both = true →
      (s.cthread.divFree ≤ s.ctick → exec i s = .next (postResult (taken lat) lat (mkReplay s i none (regSlots s rs) false)
        { writes := [(.sreg (32 + d.toNat), BitVec.ofNat 1024 w.1)], flags := w.2 })) ∧
      (s.ctick < s.cthread.divFree → exec i s = .next (raise s 1 12 0))
    R (.fdiv h r d a b) 14 [32 + a.toNat, 32 + b.toNat] (fDiv FP32 (lo32 x) (lo32 y) r.toNat) ∧
    R (.fsqrt h r d a) 14 [32 + a.toNat] (fSqrt FP32 (lo32 x) r.toNat) ∧
    R (.ddiv h r d a b) 24 [32 + a.toNat, 32 + b.toNat] (fDiv FP64 x.toNat y.toNat r.toNat) ∧
    R (.dsqrt h r d a) 24 [32 + a.toNat] (fSqrt FP64 x.toNat r.toNat)

/-- B, CALL and JR with a target of 0 to 21,844 record the target, two delay bundles still to issue and the link register of a CALL, and
change nothing else; with a target outside the instruction buffer they fault ALIGN, cause EXTENT, with the target as the address. LOOP
takes its trip count from bits 31:0 of A, its stages from N, at least one iteration (T + S - 1 otherwise) and the pending rings, whose
table it empties; END puts the task into Ending. Neither changes anything else. That the address of that ALIGN fault is the target as a number of 64 bits (log 26) and that
the link of a CALL is kept with the pending branch (log 34) are the model's choices. (R283, R348, R349, R350, R352, R353, R357) -/
def Obligations.BranchesLoopEnd : Prop :=
  ∀ (s : State) (h : Head) (i : BitVec 18) (d a : BitVec 6) (n : BitVec 12) (m : BitVec 2),
    let trip := (rdReg s a.toNat).toNat % 2 ^ 32
    let T (w : Instr) (target : Int) (link : Option Nat) : Prop := issues s w .both = true →
      (0 ≤ target ∧ target ≤ 21844 → exec w s = .next (s.modThread s.cur.core s.cur.hd fun t =>
        { t with delay := some { target := target.toNat, left := 2, link := link, org := origin s 0 } })) ∧
      (target < 0 ∨ 21844 < target → exec w s = .next (raise s 0 9 1 (BitVec.ofInt 64 target) 0))
    T (.b h i) ((s.cur.pc : Int) + i.toInt) none ∧
    T (.call h d n) ((s.cur.pc : Int) + (imm12 s.cur n.toNat).toInt) (some d.toNat) ∧
    T (.jr h a) (rdReg s a.toNat).toNat none ∧
    (issues s (.loop h a m) .both = true → exec (.loop h a m) s = .next (s.modThread s.cur.core s.cur.hd fun t =>
      { t with loop := some { trip := trip, stages := m.toNat + 1, iters := max 1 (trip + m.toNat), rings := t.rings }, rings := [] })) ∧
    (issues s (.endTask h) .task = true → exec (.endTask h) s = .next (s.modCore s.cur.core fun k => { k with stage := .ending }))

/-- A BCW outside a loop with no pop changes nothing; with one full latch named by its pop mask a task's drops the head of that latch alone, and a handler's nothing (R257);
at a loop end it moves its thread by the rule of R354. An EXT after a word of its kind changes nothing. A legal RING writes its entry of the
pending table. That a handler may issue a BCW with a pop mask at all is the model's choice (log 15). (R77, R257, R291, R292, R294, R354) -/
def Obligations.ControlWords : Prop :=
  ∀ (s : State) (ch : Bool) (v x : BitVec 4) (q : Fin 8) (k : BitVec 1) (e : BitVec 25) (r : BitVec 3) (b l : BitVec 6),
    (issues s (.bcw ch 0 v 0 0) .both = true → exec (.bcw ch 0 v 0 0) s = .next s) ∧
    (issues s (.bcw ch (BitVec.ofNat 8 (2 ^ q.val)) v 0 0) .both = true → (latchOf s.ccore q.val).isSome = true →
      (s.cur.hd = false → exec (.bcw ch (BitVec.ofNat 8 (2 ^ q.val)) v 0 0) s = .next (s.modCore s.cur.core fun c =>
        { c with fifo := smSet c.fifo q.val ((smGet [] c.fifo q.val).drop 1) })) ∧
      (s.cur.hd = true → exec (.bcw ch (BitVec.ofNat 8 (2 ^ q.val)) v 0 0) s = .next s)) ∧
    (issues s (.bcw ch 0 v 1 x) .both = true → s.cur.inLoop = true →
      exec (.bcw ch 0 v 1 x) s = .next (s.modThread s.cur.core s.cur.hd fun t => t.loopEnd s.ctick x.toNat (s.cur.pc + s.cur.npk))) ∧
    (issues s (.ext ch k e) .both = true → s.cur.prev.bind extKind = some k.toNat → exec (.ext ch k e) s = .next s) ∧
    (issues s (.ring ch k r b l) .both = true → ringCause s.cur s.cthread.rings r.toNat ⟨k = 1, b.toNat, l.toNat⟩ = none →
      ∃ t, exec (.ring ch k r b l) s = .next t ∧ t.mem = s.mem ∧
        t.cores = (s.modThread s.cur.core s.cur.hd fun u => { u with rings := smSet u.rings r.toNat ⟨k = 1, b.toNat, l.toNat⟩ }).cores ∧
        t.cur = { s.cur with rset := Nat.lor s.cur.rset (2 ^ r.toNat) })

/-- The V words that work lane by lane on two matrix operands (VFADD to VCMPLT of R362 to R366), in every state in which the word issues,
post for the matrix operand D the lanes that the operation gives on each pair of lanes and the OR of the flags of all lanes, with the
latency of R303, and change nothing else. Lanes are FP32 or 32 bits wide with W = 0, BF16 or 16 bits with W = 1; the rounding mode is
that of ENGFMT. (R358, R359, R362, R363, R365, R366, R303) -/
def Obligations.VectorLanePairs : Prop :=
  ∀ (s : State) (ch : Bool) (w : BitVec 1) (d a b : BitVec 7),
    let n := if w = 0 then 32 else 16
    let F := if w = 0 then FP32 else BF16
    let rm := wfld s.ccore.engfmt 15 14
    let la := lanes n (readMat s.ccore.mrf a.toNat)
    let lb := lanes n (readMat s.ccore.mrf b.toNat)
    let R (i : Instr) (lat : Nat) (f : Nat → Nat → Nat × Nat) : Prop := issues s i .task = true →
      givesMat s i lat [a.toNat, b.toNat] d.toNat n (List.zipWith f la lb)
    R (.vfadd ch w d a b) 5 (fun x y => fAdd F x y rm) ∧
    R (.vfsub ch w d a b) 5 (fun x y => fSub F x y rm) ∧
    R (.vfmul ch w d a b) 5 (fun x y => fMul F x y rm) ∧
    R (.vfmin ch w d a b) 2 (fun x y => fMin F x y) ∧
    R (.vfmax ch w d a b) 2 (fun x y => fMax F x y) ∧
    R (.vadd ch w d a b) 2 (fun x y => (x + y, 0)) ∧
    R (.vsub ch w d a b) 2 (fun x y => (x + 2 ^ n - y, 0)) ∧
    R (.vmul ch w d a b) 3 (fun x y => (x * y, 0)) ∧
    R (.vmin ch w d a b) 2 (fun x y => (if sint n x ≤ sint n y then x else y, 0)) ∧
    R (.vmax ch w d a b) 2 (fun x y => (if sint n x ≤ sint n y then y else x, 0)) ∧
    R (.vminu ch w d a b) 2 (fun x y => (if x ≤ y then x else y, 0)) ∧
    R (.vmaxu ch w d a b) 2 (fun x y => (if x ≤ y then y else x, 0)) ∧
    R (.vshl ch w d a b) 2 (fun x y => (x * 2 ^ (y % n), 0)) ∧
    R (.vshr ch w d a b) 2 (fun x y => (x / 2 ^ (y % n), 0)) ∧
    R (.vsar ch w d a b) 2 (fun x y => (bitsOf n (sint n x / 2 ^ (y % n)), 0)) ∧
    R (.vfcmpeq ch w d a b) 2 (fun x y => (if (fCmp F 0 x y).1 then 2 ^ n - 1 else 0, (fCmp F 0 x y).2)) ∧
    R (.vfcmplt ch w d a b) 2 (fun x y => (if (fCmp F 1 x y).1 then 2 ^ n - 1 else 0, (fCmp F 1 x y).2)) ∧
    R (.vcmpeq ch w d a b) 2 (fun x y => (if x = y then 2 ^ n - 1 else 0, 0)) ∧
    R (.vcmplt ch w d a b) 2 (fun x y => (if sint n x < sint n y then 2 ^ n - 1 else 0, 0))

/-- VMOV, VAND, VOR and VXOR post the copy or the bitwise result of whole vectors; VFMA posts the fused multiply-add with D as addend; VSEL
posts for each lane A or B by the top bit of the lane of D; VEXP2, VRCP and VRSQ post their function of each lane. Each changes nothing
else. (R362, R364, R366, R367, R368) -/
def Obligations.VectorOtherLanes : Prop :=
  ∀ (s : State) (ch : Bool) (w : BitVec 1) (d a b : BitVec 7),
    let n := if w = 0 then 32 else 16
    let F := if w = 0 then FP32 else BF16
    let rm := wfld s.ccore.engfmt 15 14
    let A := readMat s.ccore.mrf a.toNat
    let B := readMat s.ccore.mrf b.toNat
    let D := readMat s.ccore.mrf d.toNat
    let V (i : Instr) (ms : List Nat) (v : Vec) : Prop := issues s i .task = true →
      gives s i 2 none (matSlots s ms) true { writes := [(.mat d.toNat, v)] }
    let T (i : Instr) (lat : Nat) (f : Nat → Nat → Nat → Nat × Nat) : Prop := issues s i .task = true →
      givesMat s i lat [a.toNat, b.toNat, d.toNat] d.toNat n
        (List.zipWith (fun x p => f x p.1 p.2) (lanes n A) (List.zip (lanes n B) (lanes n D)))
    let U (i : Instr) (f : Nat → Nat × Nat) : Prop := issues s i .task = true → givesMat s i 8 [a.toNat] d.toNat n ((lanes n A).map f)
    V (.vmov ch d a) [a.toNat] A ∧ V (.vand ch d a b) [a.toNat, b.toNat] (A &&& B) ∧ V (.vor ch d a b) [a.toNat, b.toNat] (A ||| B) ∧
    V (.vxor ch d a b) [a.toNat, b.toNat] (A ^^^ B) ∧
    T (.vfma ch w d a b) 5 (fun x y z => fFma F x y z rm) ∧
    T (.vsel ch w d a b) 2 (fun x y z => (if z / 2 ^ (n - 1) = 1 then x else y, 0)) ∧
    U (.vexp2 ch w d a) (vexp2Lane w rm) ∧ U (.vrcp ch w d a) (fun x => fRcp F x rm) ∧ U (.vrsq ch w d a) (fun x => fRsq F x rm)

/-- VFRSUM and VFRMAX post for scalar register D the pairwise tree over the lanes widened to FP32; VCVT posts the elements of its conversion
code; VBMAX posts its row of scales and the scale bypass; VQCVT with a bypass of its own width posts the block words, and with another
one faults TIMING EARLY cause 0; VDEQ posts the dequantised lanes. Each changes nothing else. (R369, R370, R375, R376, R378, R379, R380,
R381, R383) -/
def Obligations.VectorReductionsAndBlocks : Prop :=
  ∀ (s : State) (ch : Bool) (w : BitVec 1) (d a b : BitVec 7) (g : BitVec 6) (x : BitVec 5),
    let n := if w = 0 then 32 else 16
    let rm := wfld s.ccore.engfmt 15 14
    let A := readMat s.ccore.mrf a.toNat
    let B := readMat s.ccore.mrf b.toNat
    let D := readMat s.ccore.mrf d.toNat
    let img := readBypass s.ccore.bypass
    let G (i : Instr) (op : Nat → Nat → Nat × Nat) : Prop := issues s i .task = true →
      (let r := tree op (if w = 0 then 5 else 6) ((lanes n A).map fun v => (if w = 0 then v else v * 2 ^ 16, 0))
       gives s i 6 none (matSlots s [a.toNat]) true { writes := [(.sreg g.toNat, BitVec.ofNat 1024 r.1)], flags := r.2 })
    let M (i : Instr) (lat : Nat) (slots : List Vec) (m : Nat) (xs : List (Nat × Nat)) : Prop :=
      gives s i lat none slots true { writes := [(.mat d.toNat, vpack m (xs.map (·.1)))], flags := xs.foldl (fun f v => Nat.lor f v.2) 0 }
    G (.vfrsum ch w g a) (fun u v => fAdd FP32 u v rm) ∧
    G (.vfrmax ch w g a) (fMax FP32) ∧
    (issues s (.vcvt ch d a x) .task = true →
      (narrowing x.toNat = true → M (.vcvt ch d a x) 3 [A, 0, D] (vcvt s.ccore.engfmt x.toNat A D).1 (vcvt s.ccore.engfmt x.toNat A D).2) ∧
      (narrowing x.toNat = false → M (.vcvt ch d a x) 3 [A] (vcvt s.ccore.engfmt x.toNat A 0).1 (vcvt s.ccore.engfmt x.toNat A 0).2)) ∧
    (issues s (.vbmax ch w d a) .task = true → gives s (.vbmax ch w d a) 6 none [A, D] true
      { writes := [(.mat d.toNat, (vbmax w A D).1), (.bypass, (vbmax w A D).2)] }) ∧
    (issues s (.vqcvt ch w d a) .task = true →
      (fld (vword img 30).toNat 17 16 = 2 + w.toNat → M (.vqcvt ch w d a) 5 [A, img] 32 (vqcvt w A img)) ∧
      (fld (vword img 30).toNat 17 16 ≠ 2 + w.toNat → exec (.vqcvt ch w d a) s = .next (raise s 2 3 0))) ∧
    (issues s (.vdeq ch w d a b) .task = true → M (.vdeq ch w d a b) 5 [A, B] n (vdeq w rm A B))

/-- VSETFMT of a value with no reserved bit queues it for the bundle issued third after its own; VQMOV posts the head entry of a latch for D
and leaves the latch; the send form to a neighbour of its own region with room in its queue puts the vector on its way, to be in the
latch two hardware ticks after the send; a send over an edge of the grid faults ALIGN, cause TARGET. (R75, R78, R79, R322, R373, R374,
R384) -/
def Obligations.FormatsAndLinks : Prop :=
  ∀ (s : State) (ch : Bool) (g : BitVec 6) (d : BitVec 7) (q : BitVec 3) (l : BitVec 2) (v : Vec) (e : Nat),
    let f := rdReg s g.toNat
    (issues s (.vsetfmt ch g) .task = true →
      wfld f 63 16 = 0 → wfld f 13 12 = 0 → wfld f 6 1 = 0 → wfld f 11 10 ≠ 3 → wfld f 8 7 ≠ 3 →
      exec (.vsetfmt ch g) s = .next (s.modCore s.cur.core fun k => { k with fmtq := k.fmtq ++ [(k.bundles + 3, f)] })) ∧
    (issues s (.vqmov ch d q) .task = true → latchOf s.ccore q.toNat = some v →
      gives s (.vqmov ch d q) 2 none [v] true { writes := [(.mat d.toNat, v)] }) ∧
    (issues s (.vqmovSend ch d l) .task = true → neighbour s.cur.core l.toNat = some e → regionOf e = regionOf s.cur.core →
      gatedCore s e = false →
      (smGet [] (s.core e).fifo ((l.toNat + 2) % 4)).length + linkFlight (s.core e) ((l.toNat + 2) % 4) < 16 →
      exec (.vqmovSend ch d l) s = .next (s.arrive e
        { id := 0, tick := (s.region (regionOf e)).hw.toNat + 1, src := s.cur.core, act := .link ((l.toNat + 2) % 4) (readMat s.ccore.mrf d.toNat) }).1) ∧
    (issues s (.vqmovSend ch d l) .task = true → neighbour s.cur.core l.toNat = none →
      exec (.vqmovSend ch d l) s = .next (raise s 2 9 2))

/-- LDA, LDW, LDC and their matrix forms, at an aligned address inside the face, of bytes that are neither poisoned nor awaited, read the
bytes at their issue tick and post the value for D (zero- or sign-extended to 64 bits, or the whole vector) with latency 6, recording
the access; nothing else changes. At a misaligned address they fault ALIGN cause 0, at an address beyond the face ALIGN cause 1, with
the address. That slot 0 of the replay entry holds the bytes read is the model's reading (log 11). (R17, R303, R413, R414, R415, R416) -/
def Obligations.LocalLoads : Prop :=
  ∀ (s : State) (h : Head) (d a : BitVec 6) (z : BitVec 2) (x : BitVec 1) (m : BitVec 7),
    let ea := rdReg s a.toNat + immOff s.cur
    let val (face n : Nat) : Nat := leNat (readBytes s.mem (faceLoc s.cur.core face ea.toNat) n)
    let sc (d : BitVec 6) (v : Nat) : Dest × Vec := (.sreg d.toNat, slotOf (if x = 1 then sext (8 * 2 ^ z.toNat) v else BitVec.ofNat 64 v))
    let mv (m : BitVec 7) (v : Nat) : Dest × Vec := (.mat m.toNat, BitVec.ofNat 1024 v)
    let L (i : Instr) (p : Perm) (face n : Nat) (vec : Bool) (w : Nat → Dest × Vec) : Prop := issues s i p = true →
      (ea.toNat % n = 0 → ea.toNat < faceSize face → isEarly s face ea.toNat n = false →
        poisonIn s (faceLoc s.cur.core face ea.toNat) n = none →
        exec i s = .next (postResult (s.access s.cur.core s.cur.hd { id := 0, done := some (s.ctick + 5), mdone := some (s.ctick + 5) }) 6
          (mkReplay s i none [BitVec.ofNat 1024 (val face n)] vec) { writes := [w (val face n)] })) ∧
      (ea.toNat % n ≠ 0 → exec i s = .next (raise s 3 9 0 ea)) ∧
      (ea.toNat % n = 0 → faceSize face ≤ ea.toNat → exec i s = .next (raise s 3 9 1 ea))
    L (.lda h d a z x) .both 0 (2 ^ z.toNat) false (sc d) ∧
    L (.mlda h m a) .task 0 128 true (mv m) ∧
    L (.ldw h d a z x) .both 1 (2 ^ z.toNat) false (sc d) ∧
    L (.mldw h m a) .task 1 128 true (mv m) ∧
    L (.ldc h d a z x) .both 2 (2 ^ z.toNat) false (sc d) ∧
    L (.mldc h m a) .task 2 128 true (mv m)

/-- STA, STW, STC and their matrix forms of a task, at an aligned address inside the face, record the access and post the commit of the low
bytes of the register for the end of t + 1, at the effective address of that face; a handler posts it on the real time of the core;
nothing else changes, and no byte of memory before the commit. Misaligned or outside the face they fault ALIGN. (R17, R81, R414, R415,
R416, R419) -/
def Obligations.LocalStores : Prop :=
  ∀ (s : State) (h : Head) (d a : BitVec 6) (z : BitVec 2) (m : BitVec 7),
    let ea := rdReg s a.toNat + immOff s.cur
    let c := s.cur.core
    let S (i : Instr) (p : Perm) (face n data : Nat) : Prop := issues s i p = true →
      (ea.toNat % n = 0 → ea.toNat < faceSize face →
        let u := s.access c s.cur.hd { id := 0, done := some (s.ctick + 1), mdone := some (s.ctick + 1) }
        exec i s = .next (if s.cur.hd then
            (u.arrive c { id := 0, tick := (s.region (regionOf c)).hw.toNat + 1, rank := 5, src := c, ord := s.ctick * 8 + 3,
                          act := .store face ea.toNat (leBytes n data) }).1
          else u.post c false { id := 0, tick := s.ctick + 1, rank := 5, src := c, ord := s.ctick * 8 + 3,
                                act := .store face ea.toNat (leBytes n data) })) ∧
      (ea.toNat % n ≠ 0 → exec i s = .next (raise s 3 9 0 ea)) ∧
      (ea.toNat % n = 0 → faceSize face ≤ ea.toNat → exec i s = .next (raise s 3 9 1 ea))
    S (.sta h d a z) .both 0 (2 ^ z.toNat) (rdReg s d.toNat).toNat ∧
    S (.msta h m a) .task 0 128 (readMat s.ccore.mrf m.toNat).toNat ∧
    S (.stw h d a z) .both 1 (2 ^ z.toNat) (rdReg s d.toNat).toNat ∧
    S (.mstw h m a) .task 1 128 (readMat s.ccore.mrf m.toNat).toNat ∧
    S (.stc h d a z) .both 2 (2 ^ z.toNat) (rdReg s d.toNat).toNat ∧
    S (.mstc h m a) .task 2 128 (readMat s.ccore.mrf m.toNat).toNat

/-- LDX, STX, MLDX and MSTX, at an X address that names a face of an ungated core of the cluster, put the access on
its way to that core: a load has a pending return for tick t + L - 1 with L = 30 + 2h + 12c of R81; where the perform
tick is defined, the access stands at the target for the tick t + 15 + h + 6c (the target tick of the same relative
tick). No byte of memory and no register changes at issue. Where no perform tick is defined the time is free (log 6).
(R25, R26, R81, R165, R414, R415, R416) -/
def Obligations.XSpaceAccesses : Prop :=
  ∀ (s : State) (h : Head) (d a : BitVec 6) (z : BitVec 2) (x : BitVec 1) (m : BitVec 7) (e face off : Nat),
    let ea := rdReg s a.toNat + immOff s.cur
    let c := s.cur.core
    let far := hops c e + 6 * cross c e
    let O (i : Instr) (p : Perm) (n : Nat) (op : XOp) (rank : Nat) (load : Bool) : Prop :=
      issues s i p = true → xTarget s ea n = .ok (e, face, off) →
      ∃ t, exec i s = .next t ∧ sameMem s t ∧ sameRegs s t ∧
        (load = true → ∃ q ∈ (t.thread c s.cur.hd).agenda, q.tick = s.ctick + (30 + 2 * far) - 1 ∧
          ∃ rp, rp.instr = i ∧ q.act = .xret rp none false ea false) ∧
        (exactTick s c s.cur.hd e = true → ∃ q ∈ (t.thread e false).agenda, q.tick = mapTick s c e (s.ctick + (15 + far)) ∧
          q.rank = rank ∧ ∃ y : XAcc, q.act = .xperf y ∧ y.core = e ∧ y.face = face ∧ y.off = off ∧ y.op = op)
    O (.ldx h d a z x) .both (2 ^ z.toNat) (.load (2 ^ z.toNat) false) 0 true ∧
    O (.mldx h m a) .task 128 (.load 128 false) 0 true ∧
    O (.stx h d a z) .both (2 ^ z.toNat) (.store (leBytes (2 ^ z.toNat) (rdReg s d.toNat).toNat)) 5 false ∧
    O (.mstx h m a) .task 128 (.store (leBytes 128 (readMat s.ccore.mrf m.toNat).toNat)) 5 false

/-- Every atomic at an aligned address: in X space, whose target is a face of an ungated core, it is put on its way to
that core, with the operation, its bytes, the operand of register B (and the compare value of D for a compare and
swap), and, for a returning form, a pending return of D at t + L - 1; in G space, in a shared bank of the core, with a
free atomic slot, it takes a slot and stands at the atomic unit of its stack. With .ACQ issue is held until t + L;
with .REL the thread first waits in a fence, at .cluster for X space and .package for G space, that the same operation
follows. No byte of memory and no register changes at issue. A misaligned address faults ALIGN cause 0; a no-return
form other than the compare and swap with .ACQ alone faults ILLEGAL. Where no perform tick is defined the time is free
(logs 6 and 7). (R441, R442, R443, R444, R445) -/
def Obligations.AtomicsSent : Prop :=
  ∀ (s : State) (h : Head) (sp : BitVec 1) (o : BitVec 2) (d a b : BitVec 5) (e face off cell : Nat) (grp : Option Nat),
    let ea := rdReg s (32 + a.toNat)
    let bv := rdReg s (32 + b.toNat)
    let c := s.cur.core
    let X (i : Instr) (op n : Nat) (cmp : Option (BitVec 5)) (ret : Bool) : Prop := issues s i .both = true →
      let legal : Prop := o.toNat ≠ 1 ∨ ret = true ∨ cmp.isSome = true
      let cv : Word := (cmp.map fun r => rdReg s (32 + r.toNat)).getD 0
      (¬ legal → exec i s = .next (raise s 3 1 1)) ∧
      (ea.toNat % n ≠ 0 → legal → exec i s = .next (raise s 3 9 0 ea)) ∧
      (ea.toNat % n = 0 → 2 ≤ o.toNat →
        (sp = 0 → xTarget s ea n = .ok (e, face, off) →
          ∃ t, exec i s = .next t ∧ sameMem s t ∧ sameRegs s t ∧ ∃ unb rp y, (t.thread c s.cur.hd).wait =
            some (.fence 3 s.cthread.nid s.ctick unb (.atomic y rp none (o.toNat == 3) ea)) ∧ rp.instr = i ∧ y.core = e ∧
            y.face = face ∧ y.off = off ∧ y.op = .atomic op n bv cv) ∧
        (sp = 1 → atomG s ea n o.toNat = .ok (cell, grp) →
          ∃ t, exec i s = .next t ∧ sameMem s t ∧ sameRegs s t ∧ ∃ unb rp u, (t.thread c s.cur.hd).wait =
            some (.fence 4 s.cthread.nid s.ctick unb (.atomic {} rp (some u) (o.toNat == 3) ea)) ∧ rp.instr = i ∧ u.cell = cell ∧
            u.op = op ∧ u.n = n ∧ u.b = bv ∧ u.c = cv ∧ u.grouped = grp)) ∧
      (ea.toNat % n = 0 → legal → o.toNat < 2 →
        (sp = 0 → xTarget s ea n = .ok (e, face, off) →
          ∃ t, exec i s = .next t ∧ sameMem s t ∧ sameRegs s t ∧
            (o.toNat = 1 → (t.thread c s.cur.hd).wait = some (.acq (s.ctick + (30 + 2 * hops c e + 12 * cross c e)))) ∧
            (ret = true → ∃ q ∈ (t.thread c s.cur.hd).agenda, q.tick = s.ctick + (30 + 2 * hops c e + 12 * cross c e) - 1 ∧
              ∃ rp, rp.instr = i ∧ q.act = .xret rp none false ea false) ∧
            (exactTick s c s.cur.hd e = true → ∃ q ∈ (t.thread e false).agenda,
              q.tick = mapTick s c e (s.ctick + (15 + (hops c e + 6 * cross c e))) ∧ ∃ y : XAcc, q.act = .xperf y ∧ y.core = e ∧
              y.face = face ∧ y.off = off ∧ y.op = .atomic op n bv cv)) ∧
        (sp = 1 → atomG s ea n o.toNat = .ok (cell, grp) →
          ∃ t, exec i s = .next t ∧ sameMem s t ∧ sameRegs s t ∧ (t.core c).atoms = s.ccore.atoms + 1 ∧
            (o.toNat = 1 → (t.thread c s.cur.hd).wait = some (.acq (s.ctick + gLat c (locHs cell)))) ∧
            ∃ u ∈ (t.hbm (locHs cell)).units, u.cell = cell ∧ u.op = op ∧ u.n = n ∧ u.b = bv ∧ u.c = cv ∧ u.grouped = grp))
    let A (i : Instr) (op n : Nat) (cmp : Option (BitVec 5)) : Prop := X i op n cmp true
    let N (i : Instr) (op n : Nat) (cmp : Option (BitVec 5)) : Prop := X i op n cmp false
    A (.aaddW h sp o d a b) 0 4 none ∧
    A (.aaddD h sp o d a b) 0 8 none ∧
    A (.asmaxW h sp o d a b) 1 4 none ∧
    A (.asmaxD h sp o d a b) 1 8 none ∧
    A (.asminW h sp o d a b) 2 4 none ∧
    A (.asminD h sp o d a b) 2 8 none ∧
    A (.aumaxW h sp o d a b) 3 4 none ∧
    A (.aumaxD h sp o d a b) 3 8 none ∧
    A (.auminW h sp o d a b) 4 4 none ∧
    A (.auminD h sp o d a b) 4 8 none ∧
    A (.axchgW h sp o d a b) 5 4 none ∧
    A (.axchgD h sp o d a b) 5 8 none ∧
    A (.acasW h sp o d a b) 6 4 (some d) ∧
    A (.acasD h sp o d a b) 6 8 (some d) ∧
    A (.afadd h sp o d a b) 7 4 none ∧
    A (.afmax h sp o d a b) 8 4 none ∧
    A (.afmin h sp o d a b) 9 4 none ∧
    N (.redaddW h sp o a b) 0 4 none ∧
    N (.redaddD h sp o a b) 0 8 none ∧
    N (.redsmaxW h sp o a b) 1 4 none ∧
    N (.redsmaxD h sp o a b) 1 8 none ∧
    N (.redsminW h sp o a b) 2 4 none ∧
    N (.redsminD h sp o a b) 2 8 none ∧
    N (.redumaxW h sp o a b) 3 4 none ∧
    N (.redumaxD h sp o a b) 3 8 none ∧
    N (.reduminW h sp o a b) 4 4 none ∧
    N (.reduminD h sp o a b) 4 8 none ∧
    N (.redxchgW h sp o a b) 5 4 none ∧
    N (.redxchgD h sp o a b) 5 8 none ∧
    N (.redcasW h sp o d a b) 6 4 (some d) ∧
    N (.redcasD h sp o d a b) 6 8 (some d) ∧
    N (.redfadd h sp o a b) 7 4 none ∧
    N (.redfmax h sp o a b) 8 4 none ∧
    N (.redfmin h sp o a b) 9 4 none

/-- HEEL of the own group with a target later than its tick and no HEEL pending records the target (TBASE + offset, or t + 1), and changes
nothing else; a target at or before the tick faults TIMING LATE, a pending HEEL STRUCT, another group ILLEGAL cause GROUP, and a handler PRIV. REBASE
with a constant of 64 to 2^20 and no HEEL pending lets TBASE be TICK + c from the end of its issue tick on (endRebase); with a HEEL pending it faults STRUCT, with another constant
ILLEGAL cause RESERVED, and in a handler PRIV. Every K register reads as the table of R54 says, an address with none as zero. KRD of a K register that its thread may read posts
the value of the register for D with latency 4; KWR of ECHK (0x38) writes the bits of ECHK that exist and nothing else, and one of an address with no register changes
nothing; KWR of another register, HMASK and FAULTINFO among them, and KRD of a handler register by a task, fault PRIV with the address, a misaligned address ALIGN cause 0 and one
from 0x10000 on ALIGN cause 1; TRAP faults PRIV with bit 63 and its code as the address. That a handler's HEEL of another group is ILLEGAL, not PRIV, is the model's reading (log 52).
(R53, R54, R148, R293, R454, R455, R468, R471) -/
def Obligations.HeelRebaseAndControlRegisters : Prop :=
  ∀ (s : State) (h : Head) (t d a n : BitVec 6) (y : BitVec 9) (i : BitVec 12),
    let target := startTick s t.toNat
    let ka := rdReg s a.toNat + imm6 s.cur n.toNat
    let c := (extVal s.cur).getD 0 * 4096 + i.toNat
    (issues s (.heel h t y) .task = true → y.toNat = s.ccore.group →
      (s.ctick < target → s.ccore.heel = none → exec (.heel h t y) s = .next (s.modCore s.cur.core fun k =>
        { k with heel := some { target := target, fpc := s.cur.pc + s.cur.pos / 3, fword := s.cur.pos % 3 } })) ∧
      (target ≤ s.ctick → exec (.heel h t y) s = .next (raise s 5 3 2)) ∧
      (s.ctick < target → s.ccore.heel ≠ none → exec (.heel h t y) s = .next (raise s 5 12 2))) ∧
    (issues s (.heel h t y) .both = true →
      (y.toNat ≠ s.ccore.group → exec (.heel h t y) s = .next (raise s 5 1 5)) ∧
      (y.toNat = s.ccore.group → s.cur.hd = true → exec (.heel h t y) s = .next (raise s 5 13 0))) ∧
    (issues s (.rebase h i) .both = true →
      (c < 64 ∨ 2 ^ 20 < c → exec (.rebase h i) s = .next (raise s 5 1 1)) ∧
      (64 ≤ c → c ≤ 2 ^ 20 → s.cur.hd = true → exec (.rebase h i) s = .next (raise s 5 13 0)) ∧
      (64 ≤ c → c ≤ 2 ^ 20 → s.cur.hd = false → s.ccore.heel ≠ none → exec (.rebase h i) s = .next (raise s 5 12 2))) ∧
    (∀ m : Nat, let k := s.core m
      kRead s m 0x00 = BitVec.ofNat 64 (s.tick m false) ∧ kRead s m 0x08 = k.tbase ∧ kRead s m 0x10 = BitVec.ofNat 64 m ∧
      kRead s m 0x18 = BitVec.ofNat 64 (regionOf m) ∧ kRead s m 0x20 = k.taskid ∧ kRead s m 0x28 = k.packid ∧ kRead s m 0x30 = k.engfmt ∧
      kRead s m 0x38 = k.echk ∧ kRead s m 0x40 = muzzleWord s m ∧ kRead s m 0x48 = leaseWord k.lease ∧ kRead s m 0x50 = k.kennel ∧
      kRead s m 0x58 = smGet 0 k.leash 0 ∧ (∀ p, p < 4 → kRead s m (0x80 + 8 * p) = (s.hbm (stackOf m * 4 + p)).hmask) ∧
      (∀ p, p < 8 → kRead s m (0x100 + 8 * p) = smGet 0 k.fi p) ∧ ∀ x, kAssigned x = false → kRead s m x = 0) ∧
    (issues s (.rebase h i) .task = true → 64 ≤ c → c ≤ 2 ^ 20 → s.ccore.heel = none →
      ∃ u, exec (.rebase h i) s = .next u ∧ sameMem s u ∧ sameRegs s u ∧ (u.core s.cur.core).tbase = s.ccore.tbase ∧
        ((endRebase u s.cur.core).core s.cur.core).tbase = BitVec.ofNat 64 (s.ctick + c)) ∧
    (issues s (.krd h d a n) .both = true →
      (ka.toNat % 8 = 0 → ka.toNat < 0x10000 → (kHandlerOnly ka.toNat = true → s.cur.hd = true) → exec (.krd h d a n) s = .next (postResult
        (s.access s.cur.core s.cur.hd { id := 0, cls := 9, done := some (s.ctick + 3), mdone := some (s.ctick + 3) }) 4
        (mkReplay s (.krd h d a n) none [slotOf (kRead s s.cur.core ka.toNat)] false)
        { writes := [(.sreg d.toNat, slotOf (kRead s s.cur.core ka.toNat))] })) ∧
      (s.cur.hd = false → (ka = 0x58 ∨ (0x100 ≤ ka.toNat ∧ ka.toNat ≤ 0x138 ∧ ka.toNat % 8 = 0)) →
        exec (.krd h d a n) s = .next (raise s 5 13 0 ka))) ∧
    (issues s (.kwr h d a n) .both = true →
      (ka = 0x38 → exec (.kwr h d a n) s = .next (s.modCore s.cur.core fun k => { k with echk := rdReg s d.toNat &&& 0x1F7F01 })) ∧
      (ka.toNat % 8 = 0 → kAssigned ka.toNat = true → ka ≠ 0x38 → exec (.kwr h d a n) s = .next (raise s 5 13 0 ka)) ∧
      (ka.toNat % 8 = 0 → ka.toNat < 0x10000 → kAssigned ka.toNat = false → exec (.kwr h d a n) s = .next s) ∧
      (ka.toNat % 8 ≠ 0 → exec (.kwr h d a n) s = .next (raise s 5 9 0 ka)) ∧
      (ka.toNat % 8 = 0 → 0x10000 ≤ ka.toNat → exec (.kwr h d a n) s = .next (raise s 5 9 1 ka))) ∧
    (issues s (.trap h i) .both = true → exec (.trap h i) s = .next (raise s 5 13 0 (BitVec.ofNat 64 (2 ^ 63 + i.toNat))))

/-- FENCE waits for the accesses its thread has issued before it, to its scope; FLAGSET of a legal descriptor first fences to its scope,
with the release store of B to follow; FLAGWAIT, BARWAIT, WAITC and GWAIT begin an unbounded wait on the flag word, the barrier
generation, the completion counter or the instance that their registers name; BARARR fences at .cluster, with the arrival to follow. No
byte of memory and no register changes. (R190, R447, R448, R449, R451, R452, R461, R464) -/
def Obligations.WaitsBegin : Prop :=
  ∀ (s : State) (h : Head) (d a b : BitVec 6) (sp : BitVec 3) (cond scope e face off : Nat),
    let av := rdReg s a.toNat
    let bv := rdReg s b.toNat
    let c := s.cur.core
    let W (i : Instr) (p : Perm) (ok : Prop) (w : Wait → Prop) : Prop := issues s i p = true → ok →
      ∃ t, exec i s = .next t ∧ sameMem s t ∧ sameRegs s t ∧ ∃ v, (t.thread c s.cur.hd).wait = some v ∧ w v
    W (.fence h sp) .both True
      (fun v => ∃ unb, v = .fence sp.toNat s.cthread.nid s.ctick unb .nothing) ∧
    let named (set : Bool) : Prop := wfld av 63 38 = 0 ∧ wfld av 31 31 = 0 ∧ wfld av 34 32 = scope ∧ scope < 6 ∧ wfld av 37 35 = cond ∧
      (if set then cond = 0 else cond < 4) ∧ xTarget s (BitVec.ofNat 64 (wfld av 30 0)) 8 = .ok (e, face, off)
    W (.flagset h a b) .both (wfld bv 63 56 ≠ 0xE0 ∧ named true)
      (fun v => ∃ unb, v = .fence scope s.cthread.nid s.ctick unb (.flagStore
        { org := origin s 5, core := e, face := face, off := off, op := .store (leBytes 8 bv.toNat), acc := s.cthread.nid })) ∧
    W (.flagwait h d a b) .both (named false)
      (fun v => v = .flag d.toNat (faceLoc e face off) cond bv) ∧
    W (.bararr h d a) .task (wfld av 63 16 = 0 ∧ wfld av 7 4 = 0 ∧ 1 ≤ wfld av 15 8 ∧ wfld av 15 8 ≤ 192)
      (fun v => ∃ unb, v = .fence 3 s.cthread.nid s.ctick unb (.arrive (wfld av 3 0) (wfld av 15 8) d.toNat)) ∧
    W (.barwait h d a b) .task True (fun v => v = .bar d.toNat (clusterOf c * 16 + wfld av 3 0) (wfld bv 31 0)) ∧
    W (.waitc h d a b) .task (wfld av 63 3 = 0) (fun v => v = .cc d.toNat (wfld av 2 0) (wfld bv 31 0)) ∧
    W (.gwait h d a b) .both True (fun v => v = .inst d.toNat av (wfld bv 0 0 = 1))

/-- With a leash that has the right, TLBW of a valid entry of a good format and colour, of an index below 384, that
overlaps no other entry of the TLB as this tick leaves it, writes it to the first-level TLB of the member that its selector names, in force from the end of the tick on (an entry
with V = 0 clears the index; any fill that R44 does not refuse is made, and a refused one faults with its code and cause), TLBP posts what the probe of R470 finds in the first-level
TLB in force (latency 4) or in that of the region (latency 12), and TLBINV, with room for its markers, drops the entries it names at the end of the tick and begins their invalidation.
The move to the next instant is where the entries of a tick come into force. A selector with a reserved bit faults ILLEGAL, cause RESERVED; a word with none, issued by a task, PRIV.
An entry written in the same tick survives (R48, log 97); which page of B is the first one is log 32. (R43, R44, R46, R47, R48, R469, R470) -/
def Obligations.TlbWords : Prop :=
  ∀ (s : State) (h : Head) (d a b : BitVec 6) (p : Pack) (c : Nat) (k : Core),
    let av := rdReg s a.toNat
    let bv := rdReg s b.toNat
    let dv := rdReg s d.toNat
    let me := s.cur.core
    (issues s (.tlbw h d a b) .handler = true → selBad av = false → leashWith s me (wfld av 29 28) 33 = some p →
      memberCore s p (wfld av 23 16) = some c →
      let n := wfld av 8 0
      let e : Tlb := ⟨bv, dv⟩
      (n < 384 → e.valid = true → e.badFormat = false → e.badColour = false →
        (∀ x ∈ (s.core c).tlbDue, x.1 ≠ n → x.2.overlaps e = false) → completes s (.tlbw h d a b) fun t =>
          (t.core c).tlb = (s.core c).tlb ∧ (t.core c).settle.tlb = smSet (s.core c).tlbDue n (sealedEntry s e)) ∧
      (n < 384 → e.valid = false → completes s (.tlbw h d a b) fun t =>
        (t.core c).tlb = (s.core c).tlb ∧ (t.core c).settle.tlb = smErase (s.core c).tlbDue n) ∧
      (∀ f, (s.core c).fillTlb s n e = .error f → exec (.tlbw h d a b) s = .next (raise s 5 f.1 f.2)) ∧
      ((s.core c).fillTlb s n e = .ok k → exec (.tlbw h d a b) s = .next (s.setCore c k))) ∧
    (∀ x ∈ s.cores, x.2.settle = if x.2.tlbNext = none then x.2 else { x.2 with tlb := x.2.tlbDue, tlbNext := none, tlbNew := [] }) ∧
    (s.work = [] → ∀ t, step s = .next t → ∀ m, (t.core m).tlb = (s.core m).tlbDue) ∧
    (issues s (.tlbp h d a b) .handler = true → selBad av = false → leashWith s me (wfld av 29 28) 32 = some p →
      memberCore s p (wfld av 23 16) = some c →
      let v := tlbProbe (if wfld av 31 31 = 1 then (s.region (regionOf c)).l2 else (s.core c).tlb) bv.toNat
      gives s (.tlbp h d a b) (if wfld av 31 31 = 1 then 12 else 4) none [slotOf v] false { writes := [(.sreg d.toNat, slotOf v)] }) ∧
    (issues s (.tlbinv h d a b) .handler = true → selBad av = false → wfld dv 63 40 = 0 → wfld dv 2 0 = 0 →
      leashWith s me (wfld av 29 28) 33 = some p → wfld av 24 24 = 0 → memberCore s p (wfld av 23 16) = some c →
      let va := bv.toNat / 2 ^ 13 * 2 ^ 13
      let len := wfld dv 39 20 * 2 ^ 13
      markersIn (s.core c) 1 < 16 → markersIn (s.core c) 2 < 16 → completes s (.tlbinv h d a b) fun u =>
        (u.core c).tlb = (s.core c).tlb ∧ ∀ x, x ∈ (u.core c).settle.tlb ↔
          x ∈ (s.core c).tlbDue ∧ ((s.core c).tlbNew.contains x.1 = true ∨
            wfld av 25 25 = 0 ∧ (len = 0 ∨ va + len ≤ x.2.vbase ∨ x.2.vbase + x.2.pageSize ≤ va))) ∧
    (s.cur.hd = false → s.cur.raised = none → selBad av = false →
      (illegalCause s.cur (Instr.tlbw h d a b).toWord = none → guardTrue s (Instr.tlbw h d a b).toWord = true →
        exec (.tlbw h d a b) s = .next (raise s (srcOf (Instr.tlbw h d a b).toWord) 13 0)) ∧
      (illegalCause s.cur (Instr.tlbp h d a b).toWord = none → guardTrue s (Instr.tlbp h d a b).toWord = true →
        exec (.tlbp h d a b) s = .next (raise s (srcOf (Instr.tlbp h d a b).toWord) 13 0)) ∧
      (wfld dv 63 40 = 0 → illegalCause s.cur (Instr.tlbinv h d a b).toWord = none → guardTrue s (Instr.tlbinv h d a b).toWord = true →
        exec (.tlbinv h d a b) s = .next (raise s (srcOf (Instr.tlbinv h d a b).toWord) 13 0))) ∧
    (issues s (.tlbw h d a b) .handler = true → selBad av = true → exec (.tlbw h d a b) s = .next (raise s 5 1 1)) ∧
    (issues s (.tlbp h d a b) .handler = true → selBad av = true → exec (.tlbp h d a b) s = .next (raise s 5 1 1)) ∧
    (issues s (.tlbinv h d a b) .handler = true → selBad av = true → exec (.tlbinv h d a b) s = .next (raise s 5 1 1))

/-- ACT, PRE, PREA, RD, WR, RDT, WRT, REFPB, REFAB, MZERO, MCOPY, MCMP and LFENCE complete: with no reserved bit, with an
even stamp 16 or more ticks ahead and a place in the queue, each location open to the core at its stamp (every burst
of a train at its own), and for a memory address a translation with the right and no sealed object written, one
command of the opcode of the word stands at the end of the timeline queue, with its stamp, the tick TBASE + stamp and
the bursts 8 ticks apart (16 in class HALF) or the rows it names; no byte of memory and no register changes. The same
holds wherever every check of R422 passes. A reserved bit in the descriptor faults ILLEGAL, cause RESERVED, first. The
order of checks within an order number of R422 is the model's (log 46). (R101, R420, R421, R422, R423, R424, R427, R428, R429) -/
def Obligations.TimelinePosted : Prop :=
  ∀ (s : State) (h : Head) (t a b : BitVec 6) (st pos pc bank : Nat) (pa : Nat → Nat) (se : Nat → Bool) (locs : List Nat),
    let av := rdReg s a.toNat
    let bv := rdReg s b.toNat
    let c := s.cur.core
    let k := s.ccore
    let S (i : Instr) (op : Nat) : Prop := issues s i .task = true → stampFits s t.toNat st →
      let loc := mkLoc (stackOf c * 4 + pos) (wfld av 29 16) bank 0 pc
      wfld av 63 30 = 0 → wfld av 15 9 = 0 → (op = 0 ∨ wfld av 29 16 = 0) → k.lease.entry.slots[wfld av 8 0]? = some (pos, pc, bank) →
      (op = 2 ∨ op = 8 → (k.lease.entry.slots.filter fun x => x.1 = (leaseKey c loc).1 && x.2.1 = (leaseKey c loc).2.1).length = 64) →
      openAt s op loc st → postsCommand s i op st [] [loc]
    let B (i : Instr) (op : Nat) : Prop := issues s i .task = true → stampFits s t.toNat st →
      let n := wfld bv 26 23 + 1
      let face := wfld bv 22 21
      let foff := wfld bv 20 0
      let gap := burstGap (k.lease.cls = 1)
      wfld bv 63 27 = 0 → face < 3 → (op = 3 ∨ op = 4 → n = 1) → addrCol av + n ≤ 16 → av.toNat % 64 = 0 → foff % 64 = 0 →
      foff + 64 * n ≤ faceSize face → (isRd op = true ↔ face ≠ 2) →
      (∀ j, j < n → translate k.tlb (withCol av (addrCol av + j)) (if isRd op then 512 else 256) = .ok (pa j) (se j) ∧
        (isRd op = false → sealedBurst s (s.loc (pa j)) = false) ∧ openAt s op (s.loc (pa j)) (st + gap * j)) →
      postsCommand s i op st ((List.range n).map fun j => ⟨s.fromBase (st + gap * j), s.loc (pa j), foff + 64 * j⟩) []
    let rows2 (i : Instr) (op : Nat) : Prop :=
      (s.hbm (locHs (s.loc (pa 0)))).phys (locPc (s.loc (pa 0))) (locBank (s.loc (pa 0))) ≠
        (s.hbm (locHs (s.loc (pa 0)))).phys (locPc (s.loc (pa 0))) (locBank (s.loc (pa 1))) →
      locHs (s.loc (pa 0)) = locHs (s.loc (pa 1)) → locPc (s.loc (pa 0)) = locPc (s.loc (pa 1)) →
      openAt s op (s.loc (pa 0)) st → openAt s op (s.loc (pa 1)) st → postsCommand s i op st [] [s.loc (pa 0), s.loc (pa 1)]
    let P (i : Instr) (op : Nat) (q : TlAsk) : Prop := issues s i .task = true →
      (q.bad = false → firstFlt q.early = none → askLocs s q = .ok locs → offsetOf s t.toNat = some st →
        lateChecks s q (some st) st (stamped q (s.ccore.lease.cls = 1) st locs) = none →
        completes s i fun u =>
          ∃ x, (u.core c).tlq = k.tlq ++ [x] ∧ x.op = op ∧ x.stamp = st ∧ x.tick = s.fromBase st ∧
            (isCol op = true → x.bursts.map (·.cell) = (locs.zip q.foffs).map (·.1)) ∧ (isCol op = false → x.rows = locs)) ∧
      (q.bad = true → exec i s = .next (raise s 5 1 1))
    P (.act h t a) 0 (slotAsk 0 a s) ∧
    P (.pre h t a) 1 (slotAsk 1 a s) ∧
    P (.prea h t a) 2 (slotAsk 2 a s) ∧
    P (.rd h t a b) 3 (burstAsk 3 a b s) ∧
    P (.wr h t a b) 4 (burstAsk 4 a b s) ∧
    P (.rdt h t a b) 5 (burstAsk 5 a b s) ∧
    P (.wrt h t a b) 6 (burstAsk 6 a b s) ∧
    P (.refpb h t a) 7 (slotAsk 7 a s) ∧
    P (.refab h t a) 8 (slotAsk 8 a s) ∧
    P (.mzero h t a) 9 ({ op := 9, addrs := [(av, 256)] }) ∧
    P (.mcopy h t a b) 10 ({ op := 10, addrs := [(av, 512), (bv, 256)] }) ∧
    P (.mcmp h t a b) 11 ({ op := 11, addrs := [(av, 512), (BitVec.ofNat 64 (wfld bv 47 0), 512)], ridx := wfld bv 63 48 }) ∧
    P (.lfence h t a) 12 ({ op := 12, bad := wfld av 63 2 ≠ 0, pos := wfld av 1 0 }) ∧
    S (.act h t a) 0 ∧ S (.pre h t a) 1 ∧ S (.prea h t a) 2 ∧ S (.refpb h t a) 7 ∧ S (.refab h t a) 8 ∧
    B (.rd h t a b) 3 ∧ B (.wr h t a b) 4 ∧ B (.rdt h t a b) 5 ∧ B (.wrt h t a b) 6 ∧
    (issues s (.mzero h t a) .task = true → stampFits s t.toNat st → translate k.tlb av 256 = .ok (pa 0) (se 0) →
      sealedRow s (s.loc (pa 0)) = false → openAt s 9 (s.loc (pa 0)) st → postsCommand s (.mzero h t a) 9 st [] [s.loc (pa 0)]) ∧
    (issues s (.mcopy h t a b) .task = true → stampFits s t.toNat st → translate k.tlb av 512 = .ok (pa 0) (se 0) →
      translate k.tlb bv 256 = .ok (pa 1) (se 1) → sealedRow s (s.loc (pa 1)) = false → rows2 (.mcopy h t a b) 10) ∧
    (issues s (.mcmp h t a b) .task = true → stampFits s t.toNat st → translate k.tlb av 512 = .ok (pa 0) (se 0) →
      translate k.tlb (BitVec.ofNat 64 (wfld bv 47 0)) 512 = .ok (pa 1) (se 1) → rows2 (.mcmp h t a b) 11) ∧
    (issues s (.lfence h t a) .task = true → stampFits s t.toNat st → wfld av 63 2 = 0 → postsCommand s (.lfence h t a) 12 st [] [])

/-- A MARK that passes its checks places one marker behind every access that stands in the queues it selects, with the C-face word and the
value it adds on completion; no byte of memory and no register changes. (R430, R431) -/
def Obligations.MarkPlaced : Prop :=
  ∀ (s : State) (h : Head) (t a b : BitVec 6),
    let v := rdReg s a.toNat
    let k := s.ccore
    issues s (.mark h t a b) .task = true → wfld v 61 20 = 0 → wfld v 63 62 ≠ 0 → wfld v 19 0 % 8 = 0 →
    s.ctick < startTick s t.toNat → (wfld v 63 62 ≠ 2 → k.tlUsed s.ctick < 256) → (wfld v 63 62 ≠ 1 → k.copyUsed s.ctick < 16) →
    ∃ u, exec (.mark h t a b) s = .next u ∧ sameMem s u ∧ sameRegs s u ∧
      ∃ m, (u.core s.cur.core).markers = k.markers ++ [m] ∧ m.qsel = wfld v 63 62 ∧ m.r0 = startTick s t.toNat ∧
        m.off = wfld v 19 0 ∧ m.val = rdReg s b.toNat ∧ m.inv = none ∧
        m.ahead = (if wfld v 63 62 ≠ 2 then queued k 1 else []) ++ (if wfld v 63 62 ≠ 1 then queued k 2 else [])

/-- COPY, MCAST and FILL complete: with no reserved bit, a source and destinations that lie in their faces, in stream queues or in X space
and may play their roles, every core named ungated and open to the exchange, a start to come, a place in the queue and the engine free
from that start on, one command is queued that starts at the tick of R293, with its length, source and destinations; the copy engine is
taken for one tick a beat from that start; no byte of memory and no register changes at issue. The same holds wherever every check of
R437 passes. A reserved bit in an engine address faults ILLEGAL first. (R84, R86, R87, R432, R433, R434, R435, R436, R437) -/
def Obligations.CopiesQueued : Prop :=
  ∀ (s : State) (h : Head) (t a b : BitVec 6) (src : Nat × Nat × Nat) (dsts : List (Nat × Nat × Nat)),
    let av := rdReg s a.toNat
    let bv := rdReg s b.toNat
    let c := s.cur.core
    let start := startTick s t.toNat
    let loc := faceLoc c 2 (wfld bv 20 0)
    let n := wfld bv 29 24 + 1
    let list := (List.range n).map fun k => BitVec.ofNat 64 (leNat (readBytes s.mem (loc + 8 * k) 8))
    let Q (i : Instr) (q : CopyAsk) (z : Nat) : Prop := issues s i .task = true →
      (q.bad = false → firstFlt (q.list ++ engAlign q) = none → engSource s q = .ok src →
        engWheres s q.len (if q.fill.isSome then .fill else .dest) q.dsts = .ok dsts →
        (∀ x ∈ src :: dsts, gatedCore s x.1 = false ∧ staleExchange s c x.1 = false) →
        engineTakes s start → queuesCopy s i start q.len z q.fill src dsts) ∧
      (q.bad = true → exec i s = .next (raise s 5 1 1))
    let len := wfld av 57 36
    let reach (v : Word) : Prop := gatedCore s (placeNamed c v).1 = false ∧ staleExchange s c (placeNamed c v).1 = false
    let whole (v : Word) : Prop := wfld v 63 58 = 0 ∧ wfld v 35 35 = 0 ∧ wfld v 31 31 = 0 ∧ (wfld v 34 32 = 5 → wfld v 22 2 = 0)
    (issues s (.copy h t a b) .task = true → whole av → whole bv → 0 < len → len ≤ 2 ^ 21 → wfld bv 57 36 = 0 →
      namesPlace av len .source → namesPlace bv len .dest → reach av → reach bv → engineTakes s start →
      queuesCopy s (.copy h t a b) start len 256 none (placeNamed c av) [placeNamed c bv]) ∧
    (issues s (.mcast h t a b) .task = true → whole av → 0 < len → len ≤ 2 ^ 21 → wfld bv 63 30 = 0 → wfld bv 23 21 = 0 →
      wfld bv 20 0 % 8 = 0 → wfld bv 20 0 + 8 * n ≤ 2 ^ 20 → poisonIn s loc (8 * n) = none → namesPlace av len .source → reach av →
      (∀ v ∈ list, whole v ∧ wfld v 57 36 = 0 ∧ namesPlace v len .dest ∧ reach v) → engineTakes s start →
      queuesCopy s (.mcast h t a b) start len 256 none (placeNamed c av) (list.map (placeNamed c))) ∧
    (issues s (.fill h t a b) .task = true → whole av → 0 < len → len ≤ 2 ^ 21 → wfld bv 63 32 = 0 → len % 4 = 0 → wfld av 30 0 % 4 = 0 →
      namesPlace av len .fill → reach av → engineTakes s start →
      queuesCopy s (.fill h t a b) start len 512 (some (BitVec.ofNat 32 (wfld bv 31 0))) (c, 0, 0) [placeNamed c av]) ∧
    Q (.copy h t a b) { len := wfld av 57 36, bad := engReserved av true || engReserved bv false, src := some av, dsts := [bv] } 256 ∧
    Q (.mcast h t a b)
      { len := wfld av 57 36, bad := engReserved av true || wfld bv 63 30 ≠ 0 || wfld bv 23 21 ≠ 0,
        list := [chk (wfld bv 20 0 % 8 ≠ 0) ⟨9, 0, BitVec.ofNat 64 (wfld bv 20 0), 0⟩,
               chk (wfld bv 20 0 + 8 * n > 2 ^ 20) ⟨9, 1, BitVec.ofNat 64 (wfld bv 20 0), 0⟩,
               chk (poisonIn s loc (8 * n)).isSome ⟨8, 0, BitVec.ofNat 64 (wfld bv 20 0), 0⟩,
               chk (list.any fun d => engReserved d false) ⟨1, 1, 0, 0⟩],
        src := some av, dsts := list } 256 ∧
    Q (.fill h t a b)
      { len := wfld av 57 36, bad := engReserved av true || wfld bv 63 32 ≠ 0, src := none, dsts := [av], fill := some (BitVec.ofNat 32 (wfld bv 31 0)) } 512

/-- Every X word that names descriptors, with its own checks passed, a start later than its tick, fewer than 16 commands queued and a place
beside those queued and running (R390), queues one command of its kind, with the fields that its descriptors give, that starts at the tick of R293 and takes the cube for its
occupancy; no byte of memory and no register changes at issue. CUBE.SIDE posts the side register of the row and kind that its registers
name, with latency 2. (R387, R388, R389, R390, R394, R401, R402, R403, R405, R407, R409) -/
def Obligations.CubeQueued : Prop :=
  ∀ (s : State) (h : Head) (t d a b : BitVec 6),
    let av := rdReg s a.toNat
    let bv := rdReg s b.toNat
    let c := s.cur.core
    let start := startTick s t.toNat
    let org := origin s 4
    let fmt := s.ccore.engfmt
    let Q (i : Instr) (x : XCmd) (checks : List (Option Flt)) : Prop := issues s i .task = true → firstFlt checks = none →
      (s.ctick < start → (s.ccore.cubes.filter fun y => y.start > s.ctick).length < 16 → s.ccore.cubeEnd ≤ start →
        cubeFits s.ccore.cubes x = true →
        ∃ u, exec i s = .next u ∧ sameMem s u ∧ sameRegs s u ∧ (u.core c).cubeEnd = start + x.occ ∧
          (u.core c).cubes = s.ccore.cubes ++ [{ x with id := s.cthread.nid, acc := s.cthread.nid }]) ∧
      (start ≤ s.ctick → exec i s = .next (raise s 4 3 2))
    let M (i : Instr) (kind : Nat) (d1 : Word) : Prop :=
      Q i (mainCmd kind org start fmt av d1) (chk (mainReserved s.ccore.lmask (mainCmd kind org start fmt av d1) av d1) ⟨1, 1, 0, 0⟩ ::
        mainChecks (cfmtAhead s.ccore) (mainCmd kind org start fmt av d1))
    (∀ kind d1, let x := mainCmd kind org start fmt av d1;
      x.kind = kind ∧ x.org = org ∧ x.start = start ∧ x.fmt = fmt ∧ x.lmask = wfld av 63 56 ∧ x.m = wfld av 55 50 + 1 ∧ x.n = wfld av 49 44 + 1 ∧
        x.k = wfld av 43 32 + 1 ∧ x.afmt = wfld av 31 28 ∧ x.bfmt = wfld av 27 24 ∧ (x.side = true ↔ wfld av 23 23 = 1) ∧
        (x.keepc = true ↔ wfld av 22 22 = 1) ∧ x.daddr = wfld av 20 0 ∧ x.cstr = wfld d1 47 36 ∧ x.woff = wfld d1 35 18 ∧ x.aoff = wfld d1 17 0 ∧
        x.occ = (if kind = 8 ∨ kind = 11 then 1 else if kind = 6 then x.tau + 1 else x.tau)) ∧
    (let x := drainCmd org start fmt av bv;
      x.kind = 9 ∧ x.start = start ∧ x.occ = 1 ∧ x.fmt = fmt ∧ x.bs = wfld av 63 48 ∧ x.m = wfld av 47 42 + 1 ∧ x.n = wfld av 41 36 + 1 ∧
        x.ofmt = wfld av 35 32 ∧ x.rm = wfld av 31 30 ∧ (x.ct = true ↔ wfld av 29 29 = 1) ∧ (x.tr = true ↔ wfld av 28 28 = 1) ∧
        x.dspc = wfld av 22 21 ∧ x.daddr = wfld av 20 0 ∧ x.caddr = wfld bv 19 0) ∧
    ((fmtCmd org start av).kind = 7 ∧ (fmtCmd org start av).start = start ∧ (fmtCmd org start av).occ = 1 ∧ (fmtCmd org start av).fmt = av) ∧
    M (.cubeMm h t a b) 0 bv ∧
    M (.cubeMma h t a b) 1 bv ∧
    M (.cubeMmw h t a b) 2 bv ∧
    M (.cubeMmwa h t a b) 3 bv ∧
    M (.cubePl h t a b) 4 bv ∧
    M (.cubePla h t a b) 5 bv ∧
    M (.cubeWl h t a b) 6 bv ∧
    M (.cubeScore h t a b) 10 bv ∧
    M (.cubeZero h t a) 8 0 ∧
    M (.cubeResc h t a) 11 0 ∧
    Q (.cubeFmt h t a) (fmtCmd org start av) (fmtChecks av) ∧
    Q (.cubeDrain h t a b) (drainCmd org start fmt av bv) (drainChecks (drainCmd org start fmt av bv) av bv) ∧
    (issues s (.cubeSide h d a b) .task = true →
      let v := (sideReg s.ccore (wfld av 5 0) (wfld bv 1 0)).setWidth 64
      gives s (.cubeSide h d a b) 2 none [slotOf v] false { writes := [(.sreg d.toNat, slotOf v)] })

/-- PUT, GET and RATOM complete: with no reserved bit, an aligned window offset and face range inside its face, a window whose entry is
valid, gives the right and covers the access, and fewer than 64 operations outstanding, they add one operation to those of the core, with its
completion counter, window, offset, face and length; a PUT reads its first beat at t + 1. No byte of memory and no
register changes at issue. A reserved bit in the control word faults ILLEGAL first. Delays and answers are free (log
54). (R457, R458, R459, R460) -/
def Obligations.FabricSent : Prop :=
  ∀ (s : State) (h : Head) (d a b : BitVec 6),
    let av := rdReg s a.toNat
    let bv := rdReg s b.toNat
    let dv := rdReg s d.toNat
    let c := s.cur.core
    let e := smGet {} s.fwtab (wfld av 47 40)
    let F (i : Instr) (kind : Nat) : Prop := issues s i .task = true →
      let n := if kind = 2 then (if wfld dv 8 8 = 1 then 8 else 4) else wfld bv 57 36
      let right := if kind = 0 then 33 else if kind = 1 then 32 else 34
      (fabReserved kind dv = false → wfld av 39 0 % (if kind = 2 then n else 8) = 0 →
        (kind ≠ 2 → wfld bv 63 58 = 0 ∧ wfld bv 35 35 = 0 ∧ wfld bv 31 31 = 0 ∧ wfld bv 34 32 ≤ 2 ∧ 0 < n ∧ n ≤ 2 ^ 21 ∧ n % 8 = 0 ∧
          wfld bv 30 0 % 8 = 0 ∧ wfld bv 30 0 + n ≤ faceSize (wfld bv 34 32)) →
        (kind = 2 → wfld dv 9 9 = 1 → wfld dv 39 20 % 8 = 0) →
        wfld av 63 48 = 0 → wfld e.w0 63 63 = 1 → wfld e.w0 right right = 1 → wfld av 39 0 + n ≤ wfld e.w1 39 0 →
        s.ccore.fabs.length < 64 →
        completes s i fun u => ∃ x, (u.core c).fabs = s.ccore.fabs ++ [x] ∧ x.kind = kind ∧ x.cc = wfld dv 2 0 ∧ x.fwin = wfld av 47 40 ∧ x.foff = wfld av 39 0 ∧
            (kind ≠ 2 → x.len = n ∧ x.face = wfld bv 34 32 ∧ x.off = wfld bv 30 0) ∧
            (kind = 2 → x.op = wfld dv 7 4 ∧ x.b = bv ∧ x.off = wfld dv 39 20) ∧
            (kind = 0 → ∃ p ∈ (u.core c).task.agenda, p.tick = s.ctick + 1 ∧ p.act = .putRead x.id 0)) ∧
      (fabReserved kind dv = true → exec i s = .next (raise s 5 1 1))
    F (.put h d a b) 0 ∧ F (.get h d a b) 1 ∧ F (.ratom h d a b) 2

/-- LAUNCH and GINST that pass their checks, with a place in the walker intake, post a handle for D with latency 8,
the one that the creation gives; with a full intake they begin an unbounded wait, with the object and the list as they are. CRD posts the record word with
latency 40. CANCEL of the own instance (level 2) cancels it. SEAL and UNSEAL of an aligned, translated object enter
the walker. What the creation gives rests on logs 49, 50 and 62 where the spec leaves it open. (R462, R463, R465,
R466, R467) -/
def Obligations.LaunchWords : Prop :=
  ∀ (s : State) (h : Head) (d a b : BitVec 6) (pa : Nat) (se : Bool),
    let av := rdReg s a.toNat
    let bv := rdReg s b.toNat
    let c := s.cur.core
    let C (i : Instr) (g : Bool) : Prop := issues s i .task = true → translate s.ccore.tlb av 512 = .ok pa se →
      wfld bv 63 (if g then 26 else 21) = 0 → (g = true → wfld bv 25 20 ≤ 32) → av.toNat % 32 = 0 →
      (patchLen g bv = 0 ∨ wfld bv 19 0 % 8 = 0 ∧ wfld bv 19 0 + patchLen g bv ≤ 2 ^ 20 ∧
        poisonIn s (faceLoc c 2 (wfld bv 19 0)) (patchLen g bv) = none) →
      (intakeUsed s < 64 →
        let r := createInst s c g pa av (patchOf s c g bv) s.cthread.nid
        exec i s = .next (postResult r.1 8 (mkReplay r.1 i none [slotOf r.2] false) { writes := [(.sreg d.toNat, slotOf r.2)] })) ∧
      (64 ≤ intakeUsed s → exec i s = .next (setWait (beginUnbounded s) (.intake d.toNat g pa av (patchOf s c g bv) s.cthread.nid)))
    let S (i : Instr) (undo : Bool) : Prop := issues s i .task = true → bv.toNat % 8 = 0 → bv.toNat < 2 ^ 20 → av.toNat % 32 = 0 →
      translate s.ccore.tlb av 512 = .ok pa se →
      ∃ u, exec i s = .next u ∧ sameMem s u ∧ sameRegs s u ∧
        ∃ o, u.walker.seals = s.walker.seals ++ [o] ∧ o.undo = undo ∧ o.base = pa ∧ o.off = bv.toNat
    C (.launch h d a b) false ∧ C (.ginst h d a b) true ∧ S (.seal h a b) false ∧ S (.unseal h a b) true ∧
    (issues s (.crd h d a b) .both = true →
      gives s (.crd h d a b) 40 none [slotOf (crdWord s c av bv)] false { writes := [(.sreg d.toNat, slotOf (crdWord s c av bv))] }) ∧
    (issues s (.cancel h a b) .task = true → wfld bv 1 0 = 2 → av = 0 →
      exec (.cancel h a b) s = .next (cancelInst 257 s s.ccore.inst))

/-- With a leash that has the right: LINSP posts the state its selector names for X and true for PD (latency 4),
LPATCH patches it and posts true (latency 2), LRQ posts a part of a replay entry, LREINJ writes one, RESUME begins its
fence, KILL kills the pack and ends the handler, LDELEG writes a narrowed leash into the lowest free slot of another
context. Without a right each posts false for PD and changes nothing else. HRET ends the handler. The latency 1 of a
RESUME or KILL that fails is the model's (log 58), as is what an empty latch answers (log 59). (R266, R267, R268,
R269, R271, R472, R473, R474) -/
def Obligations.LeashWords : Prop :=
  ∀ (s s' : State) (h : Head) (pd : BitVec 4) (l : BitVec 2) (x y : BitVec 6) (p : Pack) (c kind ix : Nat) (v : Word) (it : Pending) (rp : Replay),
    let me := s.cur.core
    let xv := rdReg s x.toNat
    let yv := rdReg s y.toNat
    let w := smGet 0 s.ccore.leash l.toNat
    let no (i : Instr) (lat : Nat) : Prop :=
      gives s i lat none [] false { writes := [(.pred pd.toNat, slotOf (BitVec.ofNat 64 0))] }
    let yes (i : Instr) (t : State) (lat : Nat) : Prop := exec i s = .next (postResult t lat (mkReplay s i none [] false)
      { writes := [(.pred pd.toNat, slotOf (BitVec.ofNat 64 1))] })
    let val (i : Instr) (lat : Nat) (z : Word) : Prop := gives s i lat none [] false
      { writes := [(.sreg x.toNat, slotOf z), (.pred pd.toNat, slotOf (BitVec.ofNat 64 1))] }
    (issues s (.linsp h pd l x y) .handler = true →
      (leashWith s me l.toNat 32 = some p → selector s p yv = some (c, kind, ix) →
        (leashRead s c kind ix = some v → val (.linsp h pd l x y) 4 v) ∧ (leashRead s c kind ix = none → no (.linsp h pd l x y) 4)) ∧
      (leashWith s me l.toNat 32 = some p → selector s p yv = none → no (.linsp h pd l x y) 4) ∧
      (leashWith s me l.toNat 32 = some p → wfld yv 63 56 = 0 → wfld yv 43 16 = 0 → memberCore s p (wfld yv 55 48) = some c →
        wfld yv 47 44 = 0 → wfld yv 15 0 < 64 → val (.linsp h pd l x y) 4 ((s.core c).task.reg (wfld yv 15 0))) ∧
      (leashWith s me l.toNat 32 = none → no (.linsp h pd l x y) 4)) ∧
    (issues s (.lpatch h pd l x y) .handler = true →
      (leashWith s me l.toNat 33 = some p → selector s p xv = some (c, kind, ix) →
        (leashWrite s c kind ix yv = some s' → yes (.lpatch h pd l x y) s' 2) ∧
        (leashWrite s c kind ix yv = none → no (.lpatch h pd l x y) 2)) ∧
      (leashWith s me l.toNat 33 = some p → selector s p xv = none → no (.lpatch h pd l x y) 2) ∧
      (leashWith s me l.toNat 33 = some p → wfld xv 63 56 = 0 → wfld xv 43 16 = 0 → memberCore s p (wfld xv 55 48) = some c →
        wfld xv 47 44 = 0 → 1 ≤ wfld xv 15 0 → wfld xv 15 0 < 64 → yes (.lpatch h pd l x y)
          (s.modCore c fun k => { k with task := k.task.setReg (wfld xv 15 0) yv }) 2) ∧
      (leashWith s me l.toNat 33 = none → no (.lpatch h pd l x y) 2)) ∧
    (issues s (.lrq h pd l x y) .handler = true →
      (leashWith s me l.toNat 32 = some p → memberCore s p (wfld yv 55 48) = some c → (replays (s.core c).task)[wfld yv 4 0]? = some it →
        it.replay = some rp → wfld yv 9 8 ≤ rp.slots.length →
        val (.lrq h pd l x y) 4 (entryRead (((s.core c).frozen.map (·.held)).getD 0) it rp yv)) ∧
      (leashWith s me l.toNat 32 = none → no (.lrq h pd l x y) 4)) ∧
    (issues s (.lreinj h pd l x y) .handler = true →
      (leashWith s me l.toNat 33 = some p → memberCore s p (wfld xv 55 48) = some c → (replays (s.core c).task)[wfld xv 4 0]? = some it →
        it.replay = some rp → wfld xv 9 8 ≤ rp.slots.length →
        yes (.lreinj h pd l x y) (s.modThread c false fun t =>
          { t with agenda := t.agenda.map fun q => if q.id = it.id then it.withReplay (entryWrite rp xv yv) else q }) 2) ∧
      (leashWith s me l.toNat 33 = none → no (.lreinj h pd l x y) 2)) ∧
    (issues s (.resume h pd l) .handler = true →
      (leashWith s me l.toNat 34 = some p → exec (.resume h pd l) s = .next (startFence s 1 s.cthread.nid (.resume l.toNat pd.toNat))) ∧
      (leashWith s me l.toNat 34 = none → no (.resume h pd l) 1)) ∧
    (issues s (.kill h pd l) .handler = true →
      (leashWith s me l.toNat 35 = some p → exec (.kill h pd l) s = .next (endHandler (killPack s (wfld w 8 0)) me)) ∧
      (leashWith s me l.toNat 35 = none → no (.kill h pd l) 1)) ∧
    (issues s (.hret h) .handler = true → ∃ u, exec (.hret h) s = .next u ∧ (u.core me).handler = none) ∧
    (issues s (.ldeleg h pd l x y) .handler = true →
      leashPack s w = some p → smFind (s.region (clusterOf me * 8 + wfld xv 5 0 / 8)).ctxs (wfld xv 5 0 % 8) = some c → c ≠ me →
      freeLeash s c = some ix →
      yes (.ldeleg h pd l x y) (s.modCore c fun k =>
        { k with leash := smSet k.leash ix (BitVec.ofNat 64 (setField w.toNat 32 4 (Nat.land (wfld w 35 32) (wfld yv 3 0)))) }) 2)

/-- RESULT_COMMIT of an item that holds a result, with no enabled trap among its flags, leaves memory and every other task as before, and in
its own core: a scalar destination d takes the value (s0 stays zero) and every other scalar register, the predicates and the matrix
registers are as before; a predicate destination takes the truth value (p0 stays true); a matrix destination is written whole; the flags
are ORed into ECHK from bit 8; the item is gone. Of a result with several destinations (VBMAX, LINSP, LRQ), each is written, in their order, and nothing else. The
result of a handler is written to the handler's own registers and predicates, and the task, its flags and every other core are as before. While a loop body executes,
a result for p12 to p15 writes nothing there (log 94). (R65, R67, R69, R70, R303, R319) -/
def Obligations.ResultCommits : Prop :=
  ∀ (s : State) (c id : Nat) (p : Pending) (rp : Replay) (w : Dest × Vec) (ws : List (Dest × Vec)) (flags : Nat) (th : Thread),
    let onReg (n : Nat) (r : Word) (w : Dest × Vec) : Word := if w.1 = .sreg n ∧ n ≠ 0 then ofSlot w.2 else r
    let onPred (body : Option LoopSt) (n : Nat) (r : Bool) (w : Dest × Vec) : Bool :=
      if w.1 = .pred n ∧ n ≠ 0 ∧ (n < 12 ∨ body = none) then w.2.getLsbD 0 else r
    let onMat (r : SMap HWord) (w : Dest × Vec) : SMap HWord := match w.1 with
      | .mat m => writeMat r m w.2
      | _ => r
    (s.findItem c false id = some p → p.id = id → p.act = .result rp { writes := [w], flags := flags } →
      trapCause (s.core c).trapen flags = none →
      ∃ t, exec (.resultCommit c false id) s = .next t ∧ sameMem s t ∧ (∀ d, d ≠ c → t.core d = s.core d) ∧
        (t.core c).echk = (s.core c).echk ||| BitVec.ofNat 64 (flags % 128 * 256) ∧ (t.core c).task.item id = none ∧
        (∀ n, (t.core c).task.reg n = if w.1 = .sreg n ∧ n ≠ 0 then ofSlot w.2 else (s.core c).task.reg n) ∧
        (∀ n, n < 16 → (t.core c).task.pred n =
          if w.1 = .pred n ∧ n ≠ 0 ∧ (n < 12 ∨ (s.core c).task.loop = none) then w.2.getLsbD 0 else (s.core c).task.pred n) ∧
        (t.core c).mrf = (match w.1 with
          | .mat m => writeMat (s.core c).mrf m w.2
          | _ => (s.core c).mrf)) ∧
    (s.findItem c false id = some p → p.id = id → p.act = .result rp { writes := ws, flags := flags } →
      trapCause (s.core c).trapen flags = none →
      ∃ t, exec (.resultCommit c false id) s = .next t ∧ sameMem s t ∧ (∀ d, d ≠ c → t.core d = s.core d) ∧
        (t.core c).echk = (s.core c).echk ||| BitVec.ofNat 64 (flags % 128 * 256) ∧ (t.core c).task.item id = none ∧
        (∀ n, (t.core c).task.reg n = ws.foldl (onReg n) ((s.core c).task.reg n)) ∧
        (∀ n, n < 16 → (t.core c).task.pred n = ws.foldl (onPred (s.core c).task.loop n) ((s.core c).task.pred n)) ∧
        (t.core c).mrf = ws.foldl onMat (s.core c).mrf ∧
        ((∀ x ∈ ws, x.1 ≠ .bypass) → (t.core c).bypass = (s.core c).bypass) ∧
        ∀ v, ws.getLast? = some (.bypass, v) → (t.core c).bypass = writeBypass v) ∧
    (s.findItem c true id = some p → p.id = id → (s.core c).handler = some th → p.act = .result rp { writes := ws, flags := flags } →
      (∀ x ∈ ws, (∀ m, x.1 ≠ .mat m) ∧ x.1 ≠ .bypass) →
      ∃ t u, exec (.resultCommit c true id) s = .next t ∧ sameMem s t ∧ (∀ d, d ≠ c → t.core d = s.core d) ∧
        (t.core c).task = (s.core c).task ∧ (t.core c).mrf = (s.core c).mrf ∧ (t.core c).echk = (s.core c).echk ∧
        (t.core c).handler = some u ∧ u.item id = none ∧ (∀ n, u.reg n = ws.foldl (onReg n) (th.reg n)) ∧
        ∀ n, n < 16 → u.pred n = ws.foldl (onPred th.loop n) (th.pred n))

/-- For every word that posts a value v for scalar register d of a task (as RegisterArithmetic and its fellows state), the RESULT_COMMIT of
the item it posted leaves d holding v and every other scalar register of that task as before the word issued; the numbers of the items
pending must be below the next number of the thread, which every item gets from it. (R59, R65, R303) -/
def Obligations.ResultReachesRegister : Prop :=
  ∀ (s t : State) (i : Instr) (lat : Nat) (imm : Option Word) (rs : List Nat) (d : Nat) (v : Word),
    s.cur.hd = false → (∀ p ∈ s.cthread.agenda, p.id < s.cthread.nid) → givesReg s i lat imm rs d v → exec i s = .next t →
    ∃ u, exec (.resultCommit s.cur.core false s.cthread.nid) t = .next u ∧ sameMem s u ∧
      ∀ n, (u.core s.cur.core).task.reg n = if n = d ∧ n ≠ 0 then v else s.cthread.reg n

/-- LOCAL_STORE_COMMIT writes exactly its bytes at its face offset. X_ACCESS_PERFORM, behind the earlier traffic of its core where no tick is
defined for it, writes exactly the bytes of a store, or the value of R441 of an atomic on an unpoisoned line, at its target. X_LOAD_RETURN
writes the returned value into D, extended as the word says, or whole into the matrix register of an MLDX, and ATOMIC_RETURN the old value into the register of cluster B that
each returning atomic names, a G atomic giving its slot back. The new value of an atomic is that of the table of R441. LINK_ENTRY_ARRIVE of the first entry of its
link appends it to the latch queue if that has room; into a full queue it does not go: that it stays pending there is the model's reading (log 86). ENGFMT_APPLY makes the newest format due the one in
force. No other byte of memory changes. (R78, R79, R81, R171, R322, R415, R441, R443, R444) -/
def Obligations.AccessCommits : Prop :=
  ∀ (s : State) (c id face off : Nat) (p : Pending) (data : List Byte) (x : XAcc) (rp : Replay) (v : Vec) (ad : Word) (g : Head)
    (d a : BitVec 6) (m : BitVec 7) (z o : BitVec 2) (e sp : BitVec 1) (da aa ba : BitVec 5) (op n q : Nat) (b cv : Word),
    (s.findItem c false id = some p → p.act = .store face off data →
      ∃ t, exec (.localStoreCommit c false id) s = .next t ∧ sameRegs s t ∧ putsBytes s t (faceLoc c face off) data) ∧
    (s.findItem c false id = some p → p.act = .xperf x → p.behind s c = false → (p.net = true → netAhead s c p = []) → x.op = .store data →
      ∃ t, exec (.xAccessPerform c id) s = .next t ∧ sameRegs s t ∧ putsBytes s t (faceLoc x.core x.face x.off) data) ∧
    (s.findItem c false id = some p → p.act = .xperf x → p.behind s c = false → (p.net = true → netAhead s c p = []) → x.op = .atomic op n b cv → poisonIn s (faceLoc x.core x.face x.off) n = none →
      let old := leNat (readBytes s.mem (faceLoc x.core x.face x.off) n)
      ∃ t, exec (.xAccessPerform c id) s = .next t ∧ sameRegs s t ∧ putsBytes s t (faceLoc x.core x.face x.off) (leBytes n (atomVal op n old b.toNat cv.toNat))) ∧
    (s.findItem c false id = some p → p.act = .xret rp (some v) false ad false → rp.instr = .ldx g d a z e →
      ∃ t, exec (.xLoadReturn c false id) s = .next t ∧ sameMem s t ∧ ∀ k, (t.core c).task.reg k = if k = d.toNat ∧ k ≠ 0 then
        (if e = 1 then sext (8 * 2 ^ z.toNat) (ofSlot v).toNat else ofSlot v) else (s.core c).task.reg k) ∧
    (s.findItem c false id = some p → p.act = .xret rp (some v) false ad false → rp.instr = .aaddW g sp o da aa ba →
      ∃ t, exec (.atomicReturn c false id) s = .next t ∧ sameMem s t ∧
        ∀ k, (t.core c).task.reg k = if k = 32 + da.toNat then ofSlot v else (s.core c).task.reg k) ∧
    (s.findItem c false id = some p → p.act = .xret rp (some v) false ad false → rp.instr = .mldx g m a →
      ∃ t, exec (.xLoadReturn c false id) s = .next t ∧ sameMem s t ∧ (t.core c).task.regs = (s.core c).task.regs ∧
        (t.core c).mrf = writeMat (s.core c).mrf m.toNat v) ∧
    (∀ (r : Nat) (gslot : Bool), s.findItem c false id = some p → p.act = .xret rp (some v) false ad gslot → atomDest rp.instr = some r → r ≠ 0 →
      ∃ t, exec (.atomicReturn c false id) s = .next t ∧ sameMem s t ∧ (t.core c).atoms = (s.core c).atoms - (if gslot then 1 else 0) ∧
        ∀ k, (t.core c).task.reg k = if k = r then ofSlot v else (s.core c).task.reg k) ∧
    (∀ i ∈ [Instr.aaddW g sp o da aa ba, Instr.aaddD g sp o da aa ba, Instr.asmaxW g sp o da aa ba, Instr.asmaxD g sp o da aa ba, Instr.asminW g sp o da aa ba, Instr.asminD g sp o da aa ba, Instr.aumaxW g sp o da aa ba, Instr.aumaxD g sp o da aa ba, Instr.auminW g sp o da aa ba, Instr.auminD g sp o da aa ba, Instr.axchgW g sp o da aa ba, Instr.axchgD g sp o da aa ba,
        Instr.acasW g sp o da aa ba, Instr.acasD g sp o da aa ba, Instr.afadd g sp o da aa ba, Instr.afmax g sp o da aa ba, Instr.afmin g sp o da aa ba],
      atomDest i = some (32 + da.toNat)) ∧
    (∀ old y z : Nat, n = 4 ∨ n = 8 → old < 2 ^ (8 * n) →
      let M := 2 ^ (8 * n)
      let sg (w : Nat) : Int := (BitVec.ofNat (8 * n) w).toInt
      atomVal 0 n old y z = (old + y) % M ∧
      atomVal 1 n old y z = (if sg old < sg y then y % M else old) ∧ atomVal 2 n old y z = (if sg y < sg old then y % M else old) ∧
      atomVal 3 n old y z = max old (y % M) ∧ atomVal 4 n old y z = min old (y % M) ∧ atomVal 5 n old y z = y % M ∧
      atomVal 6 n old y z = (if old = z % M then y % M else old) ∧ atomVal 7 n old y z = (fAdd FP32 old (y % M) 0).1 ∧
      atomVal 8 n old y z = (fMax FP32 old (y % M)).1 ∧ atomVal 9 n old y z = (fMin FP32 old (y % M)).1) ∧
    (s.findItem c false id = some p → p.act = .link q v → linkBehind (s.core c) q id = false →
      ((smGet [] (s.core c).fifo q).length < 16 → ∃ t, exec (.linkEntryArrive c id) s = .next t ∧ sameMem s t ∧ sameRegs s t ∧
        smGet [] (t.core c).fifo q = smGet [] (s.core c).fifo q ++ [v]) ∧
      (16 ≤ (smGet [] (s.core c).fifo q).length → ∃ t, exec (.linkEntryArrive c id) s = .next t ∧ sameMem s t ∧ sameRegs s t ∧
        (t.core c).fifo = (s.core c).fifo ∧ t.findItem c false id = some p)) ∧
    (∀ f, (s.core c).fmtq = [((s.core c).bundles, f)] →
      ∃ t, exec (.engfmtApply c) s = .next t ∧ sameMem s t ∧ sameRegs s t ∧ (t.core c).engfmt = f ∧ (t.core c).fmtq = [])

/-- G_ATOMIC_PERFORM of a stack whose unit holds one operation that is due, for a core of the package, empties the unit
and writes the value of R441 at its cell, within the 64-byte line that passes its stack's cipher; where the burst has an
uncorrectable error, or its read transfer fails a fourth time (a free value, log 5), the line keeps its value; with
nothing due it changes no memory. TASK_RETIRE of an Ending task that is not frozen and whose accesses have all performed, but for fabric operations that have been sent,
retires it behind the writes still held back for it, and of any other task, a frozen one or one with another access outstanding, changes nothing. The order of open atomics is
free (log 7); how the tick of a retirement is read, and that a sent fabric operation is not waited for, is log 31; that a line of G space is poisoned where its burst is
uncorrectable is log 64. (R128, R174, R197, R254, R441, R444) -/
def Obligations.AtomicUnitAndRetire : Prop :=
  ∀ (s : State) (hs c : Nat) (a : GAtom),
    ((s.hbm hs).units = [a] → a.isDue s = true → a.org.core < 384 →
      let line := a.cell / 64 * 64
      let data := readLine s line
      let old := leNat ((data.drop (a.cell % 64)).take a.n)
      let new := data.take (a.cell % 64) ++ leBytes a.n (atomVal a.op a.n old a.b.toNat a.c.toNat) ++ data.drop (a.cell % 64 + a.n)
      ∃ t, exec (.gAtomicPerform hs) s = .next t ∧ (t.hbm hs).units = [] ∧ sameRegs s t ∧
        t.mem = if s.badBurst line = true ∨ Config.freeNat s.fresh % 5 = 4 then s.mem else (writeLine s line new).mem) ∧
    ((∀ u ∈ (s.hbm hs).units, u.isDue s = false) → ∃ t, exec (.gAtomicPerform hs) s = .next t ∧ sameMem s t ∧
      (t.hbm hs).units = (s.hbm hs).units) ∧
    let sent (o : Outst) : Prop := ∃ x ∈ (s.core c).fabs, x.acc = o.id ∧ x.isSent = true
    ((s.core c).stage = .ending → (s.core c).frozen = none → (∀ o ∈ (s.core c).task.outst, o.over (s.tick c false) = true ∨ sent o) →
      exec (.taskRetire c) s = .next (retireTask ((heldWrites s c).foldl (commitHeld c) s) c)) ∧
    ((s.core c).frozen ≠ none → exec (.taskRetire c) s = .next s) ∧
    (∀ o ∈ (s.core c).task.outst, o.over (s.tick c false) = false → ¬ sent o → exec (.taskRetire c) s = .next s) ∧
    ((s.core c).stage ≠ .ending → exec (.taskRetire c) s = .next s)

/-- A fence ends at the first tick at which every covered access has performed; a flag wait ends when the flag word
meets its condition or reads 0xE0, D taking the word; a barrier arrival registers, D taking the generation; a barrier
wait, a completion-counter wait and an instance wait end with the value of their rule; a creation waiting for the
intake is made when there is room. The next bundle then issues at that tick. While the condition fails nothing
changes, nor does the instance wait of a stopped task end, but that of the handler on its core does. The tick of the first look is the model's reading (log 56), as is how a generation in error
answers (log 57) and what the intake holds (log 62). (R190, R257, R449, R450, R451, R452, R461, R463, R464)
-/
def Obligations.WaitsEnd : Prop :=
  ∀ (s : State) (c dest loc cond scope upTo since bar g ix b count : Nat) (hd unb y gi : Bool) (w h va : Word) (pa : Nat)
    (patch : List (Word × Word)),
    let k := s.core c
    let u := s.tick c hd
    let v : Word := BitVec.ofNat 64 (leNat (readBytes s.mem loc 8))
    let done (i : Instr) (hd : Bool) (d : Nat) (z : Word) : Prop :=
      exec i s = .next ((endWait s c hd (s.tick c hd)).modThread c hd (·.setReg d z))
    ((s.thread c hd).wait = some (.fence scope upTo since unb .nothing) →
      (fenceOver s c hd scope upTo since u = true → exec (.fenceEnd c hd) s = .next (endWait s c hd u)) ∧
      (fenceOver s c hd scope upTo since u = false → exec (.fenceEnd c hd) s = .next s)) ∧
    ((s.thread c hd).wait = some (.flag dest loc cond w) →
      (flagCond cond v w = true ∨ wfld v 63 56 = 0xE0 → done (.flagwaitSatisfied c hd) hd dest v) ∧
      (flagCond cond v w = false → wfld v 63 56 ≠ 0xE0 → exec (.flagwaitSatisfied c hd) s = .next s)) ∧
    (k.task.wait = some (.arrive bar count dest) → ∃ t, exec (.barrierArrival c) s = .next t ∧ sameMem s t ∧ (t.core c).task.wait = none ∧
      (dest ≠ 0 → (t.core c).task.reg dest = BitVec.ofNat 64
        ((if (smGet {} s.barriers (clusterOf c * 16 + bar)).err then 0xE0 * 2 ^ 56 else 0) + (smGet {} s.barriers (clusterOf c * 16 + bar)).gen))) ∧
    (k.task.wait = some (.bar dest bar g) →
      (∀ z, barrierEnd (smGet {} s.barriers bar) g = some z → done (.barwaitEnd c) false dest z) ∧
      (barrierEnd (smGet {} s.barriers bar) g = none → exec (.barwaitEnd c) s = .next s)) ∧
    (k.task.wait = some (.cc dest ix b) →
      ((wfld (smGet 0 k.cc ix) 31 0 + 2 ^ 32 - b) % 2 ^ 32 < 2 ^ 31 → done (.waitcSatisfied c) false dest (smGet 0 k.cc ix)) ∧
      (2 ^ 31 ≤ (wfld (smGet 0 k.cc ix) 31 0 + 2 ^ 32 - b) % 2 ^ 32 → exec (.waitcSatisfied c) s = .next s)) ∧
    (∀ th : Thread, k.frozen.isSome = true → k.handler = some th → th.wait = some (.inst dest h y) →
      (∀ z, gwaitValue s h = some z → done (.gwaitEnd c) true dest z) ∧ (gwaitValue s h = none → exec (.gwaitEnd c) s = .next s)) ∧
    (k.frozen.isSome = true → k.handler = none → exec (.gwaitEnd c) s = .next s) ∧
    (k.task.wait = some (.inst dest h y) → k.handler = none → k.frozen = none → k.absorb = 0 →
      (∀ z, gwaitValue s h = some z → done (.gwaitEnd c) false dest z) ∧ (gwaitValue s h = none → exec (.gwaitEnd c) s = .next s)) ∧
    (k.task.wait = some (.intake dest gi pa va patch g) →
      (intakeUsed s < 64 → exec (.walkerIntakeFree c) s =
        .next ((endWait (createInst s c gi pa va patch g).1 c false ((createInst s c gi pa va patch g).1.tick c false)).modThread c false
            (·.setReg dest (createInst s c gi pa va patch g).2))) ∧
      (64 ≤ intakeUsed s → exec (.walkerIntakeFree c) s = .next s))

/-- COPY_COMMAND_START posts the first beat of a fill for start + 2, or the read of the first beat of a copy whose source has a known tick
in its own region for start + 4 + 2d. COPY_BEAT_READ of a beat with no awaited byte posts, for a destination with a known tick in the
region, the bytes it read and their poison for the tick of that beat in the destination's count; whether the beat fails on its way is free (log 87).
FILL_BEAT_COMMIT, COPY_BEAT_COMMIT into a face behind the earlier traffic of its core, and HELD_WRITE_COMMIT of a store, an X-space store or a beat write exactly the bytes of
their beat; a beat that has failed or carries poison leaves every line that it touches poisoned, and one that does neither leaves no line poisoned that it writes whole. That one
poison flag stands for all bytes of a beat is the model's reading (log 37), as is the failure of a beat at one destination alone (log 41). (R84, R86, R87, R131, R165, R171, R182,
R254, R434, R436) -/
def Obligations.CopySteps : Prop :=
  ∀ (s : State) (c id cmd i j b face off : Nat) (p : Pending) (x : CopyCmd) (d : CopyDst) (y : XAcc) (data : List Byte)
    (poison failed : Bool),
    let beatLands (e : Instr) : Prop := ∃ t, exec e s = .next t ∧ sameRegs s t ∧ putsBytes s t (faceLoc c face off) data ∧
      (poison = true ∨ failed = true → ∀ l ∈ linesOf (faceLoc c face off) data.length, poisoned t l = true) ∧
      (poison = false → failed = false → ∀ l, faceLoc c face off ≤ l * 64 → l * 64 + 64 ≤ faceLoc c face off + data.length → poisoned t l = false)
    (s.findItem c false id = some p → p.act = .copyStart cmd → (s.core c).copy cmd = some x →
      (x.fill.isSome = true → ∃ t, exec (.copyCommandStart c id) s = .next t ∧ sameMem s t ∧ sameRegs s t ∧
        ∃ q ∈ (t.core c).task.agenda, q.tick = x.start + 2 ∧ q.act = .fillBeat cmd 0) ∧
      (x.id = cmd → x.fill = none → x.sknown = true → regionOf c = regionOf x.score → ∃ t, exec (.copyCommandStart c id) s = .next t ∧
        sameMem s t ∧ sameRegs s t ∧ ∃ q ∈ (t.core c).task.agenda, q.tick = x.start + 4 + 2 * leg x.org.core x.score ∧ q.phase = 0 ∧
          q.act = .copyRead c cmd 0)) ∧
    (s.findItem c false id = some p → p.act = .copyRead c cmd b → (s.core c).copy cmd = some x → copyOperand s c x b = none →
      x.dsts = [d] → x.sknown = true → d.known = true → d.face < 4 → regionOf d.core = regionOf c → regionOf c = regionOf x.score →
      ∃ t, exec (.copyBeatRead c id) s = .next t ∧ sameMem s t ∧ sameRegs s t ∧
        ∃ q ∈ (t.core d.core).task.agenda, q.tick = mapTick s c d.core (x.start + x.delay d + b) ∧ ∃ failed,
          q.act = .copyBeat c x.id 0 b d.face (d.off + (x.beat b).1)
            (readBytes s.mem (faceLoc x.score x.sface (x.soff + (x.beat b).1)) (x.beat b).2)
            (poisonIn s (faceLoc x.score x.sface (x.soff + (x.beat b).1)) (x.beat b).2).isSome failed) ∧
    (s.findItem c false id = some p → p.act = .fillBeat cmd b → (s.core c).copy cmd = some x → x.dsts = [d] →
      let bytes := fillBytes (x.fill.getD 0) (x.beat b).1 (x.beat b).2
      ∃ t, exec (.fillBeatCommit c id) s = .next t ∧ sameRegs s t ∧ putsBytes s t (faceLoc c d.face (d.off + (x.beat b).1)) bytes) ∧
    (s.findItem c false id = some p → p.act = .copyBeat i cmd j b face off data poison failed → face < 4 →
      (p.behind s c = false → (p.net = true → netAhead s c p = []) → beatLands (.copyBeatCommit c id)) ∧ beatLands (.heldWriteCommit c id)) ∧
    (s.findItem c false id = some p → p.act = .xperf y → y.op = .store data →
      ∃ t, exec (.heldWriteCommit c id) s = .next t ∧ sameRegs s t ∧ putsBytes s t (faceLoc y.core y.face y.off) data) ∧
    (s.findItem c false id = some p → p.act = .store face off data →
      ∃ t, exec (.heldWriteCommit c id) s = .next t ∧ sameRegs s t ∧ putsBytes s t (faceLoc c face off) data)

/-- FABRIC_REQUEST_IN performs a request of at most eight bytes, a GET and a RATOM in this package at once; of a longer write it performs
the first piece, and the rest stands as a request of its own at a later instant (R173). A request whose window the table does not export
or gives no such right, changes nothing; otherwise a PUT of at most eight bytes writes them, and a RATOM its new value, at the address to which the window leads. FABRIC_COMPLETION of the oldest operation of its window to another package removes the operation and
raises its completion counter by one, recording a first error; of a window that leads to this package a PUT of at most eight bytes and a RATOM perform then, and the
old value of a RATOM with RET is written to its place in the C face. GET_PIECE_COMMIT of such a GET writes exactly eight
bytes at its face offset, those that the window names where it leads to this package. The model's choices: a RATOM whose line comes uncorrectable leaves it, and a GET piece that
comes so is committed as poison (log 38, DESIGN CHOICE; an uncorrectable burst is what R446 calls a poisoned line, log 64, DEDUCED), both errors of the launch (log 111, DEDUCED); answers
of other packages are free (log 54); the order of pieces is the model's (log 55).
(R52, R127, R173, R192, R441, R446, R458, R459, R461) -/
def Obligations.FabricSteps : Prop :=
  ∀ (s : State) (q : FabricReq) (c id code cause off pa : Nat) (old v : Word) (x : FabOp),
    (q.kind ≠ 0 ∨ q.data.length ≤ 8 → exec (.fabricRequestIn q) s = .next (performFabric s q).1) ∧
    (∀ ps, q.kind = 0 → 8 < q.data.length → exportedWrite s q.win q.off (ceilDiv q.data.length 8) = .ok ps →
      ∃ t w, exec (.fabricRequestIn q) s = .next t ∧ t.mem = (performFabric s { q with data := q.data.take 8 }).1.mem ∧
        (s.now + w, Ev.fabricRequestIn { q with off := q.off + 8, data := q.data.drop 8 }) ∈ t.timers) ∧
    (let e := smGet {} s.exptab q.win
      let n := if q.kind ≤ 1 then 8 else if q.wide then 4 + 4 else 4
      let right := if q.kind = 0 then 1 else if q.kind = 1 then 0 else 2;
      wfld e.w0 63 63 = 0 ∨ wfld e.w0 (48 + right) (48 + right) = 0 ∨ wfld e.w1 39 0 < q.off + n →
        (2 ≤ q.kind ∨ q.len ≠ 0 ∧ q.kind = 1 ∨ q.data ≠ [] ∧ q.kind = 0) → exec (.fabricRequestIn q) s = .next s) ∧
    (q.kind = 0 → q.data ≠ [] → q.data.length ≤ 8 → exported s q.win q.off 8 1 = .ok pa →
      ∃ t, exec (.fabricRequestIn q) s = .next t ∧ sameRegs s t ∧ t.mem = (writePhys s pa q.data).mem) ∧
    (q.kind = 1 → ∃ t, exec (.fabricRequestIn q) s = .next t ∧ sameRegs s t ∧ sameMem s t) ∧
    (let n := if q.wide then 8 else 4;
      q.kind = 2 → exported s q.win q.off n 2 = .ok pa → ∃ t, exec (.fabricRequestIn q) s = .next t ∧ sameRegs s t ∧
        t.mem = if (readLines s pa n).1 = true then s.mem
          else (writePhys (readLines s pa n).2 pa (leBytes n (atomVal (ratomOp q.op) n (leNat (readPhys s pa n)) q.b.toNat 0))).mem) ∧
    ((s.core c).fab id = some x → olderFab (s.core c) x = false → ownWindow s x.fwin = true → x.org.core < 384 →
      let win := wfld (smGet {} s.fwtab x.fwin).w0 7 0
      (x.kind = 2 → x.ret = false → ∃ t, exec (.fabricCompletion c id code cause old) s = .next t ∧ sameRegs s t ∧
        t.mem = (performFabric s { kind := 2, win := win, off := x.foff, len := x.len, data := x.data, op := x.op, wide := x.wide, b := x.b }).1.mem ∧
        (t.core c).fabs = (s.core c).fabs.filter (fun y => y.id ≠ x.id)) ∧
      (let u := performFabric s { kind := 2, win := win, off := x.foff, len := x.len, data := x.data, op := x.op, wide := x.wide, b := x.b };
        x.kind = 2 → x.ret = true → ∃ t, exec (.fabricCompletion c id code cause old) s = .next t ∧ sameRegs s t ∧
        (u.2.code = 0 → putsBytes u.1 t (faceLoc c 2 x.off) (leBytes 8 (if x.wide then u.2.old.toNat else wfld u.2.old 31 0))) ∧
        (u.2.code ≠ 0 → t.mem = u.1.mem) ∧ (t.core c).fabs = (s.core c).fabs.filter (fun y => y.id ≠ x.id)) ∧
      (x.kind = 0 → x.data ≠ [] → x.data.length ≤ 8 → exported s win x.foff 8 1 = .ok pa →
        ∃ t, exec (.fabricCompletion c id code cause old) s = .next t ∧ sameRegs s t ∧ t.mem = (writePhys s pa x.data).mem ∧
        (t.core c).fabs = (s.core c).fabs.filter (fun y => y.id ≠ x.id)) ∧
      (x.kind = 1 → exported s win (x.foff + off) 8 0 = .ok pa → ∃ t, exec (.getPieceCommit c id off v) s = .next t ∧ sameRegs s t ∧
        putsBytes s t (faceLoc c x.face (x.off + off)) (readPhys s pa 8) ∧
        ((readLines s pa 8).1 = true → ∀ l ∈ linesOf (faceLoc c x.face (x.off + off)) 8, poisoned t l = true))) ∧
    ((s.core c).fab id = some x → olderFab (s.core c) x = false → ownWindow s x.fwin = false → x.org.core < 384 →
      (x.kind ≠ 2 ∨ x.ret = false → ∃ t, exec (.fabricCompletion c id code cause old) s = .next t ∧ sameMem s t ∧ sameRegs s t ∧
        (t.core c).fabs = (s.core c).fabs.filter (fun y => y.id ≠ x.id) ∧
        smGet 0 (t.core c).cc x.cc = countCompletion (smGet 0 (s.core c).cc x.cc) code cause) ∧
      (x.kind = 1 → ∃ t, exec (.getPieceCommit c id off v) s = .next t ∧ sameRegs s t ∧ putsBytes s t (faceLoc c x.face (x.off + off)) (leBytes 8 v.toNat)))

/-- CUBE_COMMAND_START of a CUBE.FMT sets CFMT and ends the command; CUBE_STREAM_STEP of a multiply with no fault keeps what it reads and posts its next
step, that of a row of a CUBE.RESC posts, for t0 + i + 4, each word times ALPHA of its row; CUBE_RESULT_COMMIT of a diagonal writes exactly its words, the values of R330:
the sums of the slots, each over its share of K in ascending order, added in ascending slot, and to the old word where the form accumulates; of a row of CUBE.ZERO it writes zeros over exactly that row; RESCALE_ROW_COMMIT writes exactly its
bytes; SCORE_P_LINE_COMMIT writes exactly the P words of its line; SCORE_SIDE_COMMIT of kind 2 gives every row the values of CUBE.ZERO;
WEIGHT_LATCH_REPLACE gives every layer of the command a latch of its shape with the rows and scales read; DRAIN_PIECE_COMMIT of a piece of one part writes exactly its
bytes; LAYER_FAILURE clears the bit of LAVAIL. (R330, R331, R388, R392, R396, R397, R400, R401, R404, R405, R408, R412) -/
def Obligations.CubeSteps : Prop :=
  ∀ (s : State) (c id cmd i j u off layer lo n : Nat) (p : Pending) (x : XCmd) (data : List Byte),
    let k := s.core c
    (s.findItem c false id = some p → p.id = id → p.act = .cubeStart cmd → k.cube cmd = some x → x.id = cmd → x.kind = 7 →
      ∃ t, exec (.cubeCommandStart c id) s = .next t ∧ sameMem s t ∧ sameRegs s t ∧ (t.core c).cfmt = x.fmt ∧
        (t.core c).cubes = k.cubes.filter (fun y => y.id ≠ cmd)) ∧
    (s.findItem c false id = some p → p.id = id → p.act = .cubeRead cmd 3 u → k.cube cmd = some x → cubeFault s c p = none →
      ∃ t, exec (.cubeStreamStep c id) s = .next t ∧ sameMem s t ∧ sameRegs s t ∧
        ∃ q ∈ (t.core c).task.agenda, q.tick = x.start + u + 4 ∧ q.act = .resc x.id (x.daddr + 256 * u) ((List.range x.n).flatMap fun j =>
          leBytes 4 (fMul FP32 (leNat (readBytes s.mem (faceLoc c 2 (x.daddr + 256 * u + 4 * j)) 4) % 2 ^ 32) (smGet {} k.sides u).al.toNat 0).1)) ∧
    (s.findItem c false id = some p → p.id = id → p.act = .cubeRead cmd 0 u → k.cube cmd = some x → x.id = cmd → cubeFault s c p = none →
      ∃ t, exec (.cubeStreamStep c id) s = .next t ∧ sameMem s t ∧ sameRegs s t ∧ (t.core c).run cmd = streamRun s c x u (k.run cmd) ∧
        (u + 1 < x.tau → ∃ q ∈ (t.core c).task.agenda, q.tick = x.start + u + 1 ∧ q.act = .cubeRead cmd 0 (u + 1))) ∧
    (∀ r q, x.layers = [layer] → x.fp4 = false → q ∈ x.stepsAt 0 u → let w := streamRun s c x u r;
      (x.readsA = true → smGet 0 w.a q = leNat (readBytes s.mem (faceLoc c 0 (layer * 2 ^ 18 + x.aoff + 8 * fmtBits x.afmt * q)) (8 * fmtBits x.afmt))) ∧
      (x.readsW = true → smGet 0 w.b q = leNat (readBytes s.mem (faceLoc c 1 (layer * 2 ^ 18 + x.woff + 8 * fmtBits x.bfmt * q)) (8 * fmtBits x.bfmt)))) ∧
    (s.findItem c false id = some p → p.act = .cubeRes cmd i j → k.cube cmd = some x → x.n ≤ 64 →
      ∃ t, exec (.cubeResultCommit c id) s = .next t ∧ sameRegs s t ∧
        (∀ e ∈ diagonal x.m x.n j, leNat (readBytes t.mem (faceLoc c 2 (x.wordAt i e.1 e.2)) 4) = cubeElem x (k.run cmd) i e.1 e.2 % 2 ^ 32) ∧
        ∀ a, (∀ e ∈ diagonal x.m x.n j, a < faceLoc c 2 (x.wordAt i e.1 e.2) ∨ faceLoc c 2 (x.wordAt i e.1 e.2) + 4 ≤ a) →
          readByte t.mem a = readByte s.mem a) ∧
    (∀ r, x.kind ≤ 1 → x.fp4 = false → x.layers ≠ [] →
      let ks := ceilDiv x.k x.layers.length
      let av (m q : Nat) : Nat := smGet 0 r.a (4096 * m + q) / 2 ^ (fmtBits x.afmt * i) % 2 ^ fmtBits x.afmt
      let bv (m q : Nat) : Nat := smGet 0 r.b (4096 * m + q) / 2 ^ (fmtBits x.bfmt * j) % 2 ^ fmtBits x.bfmt
      let share (m : Nat) : List Nat := List.range (min x.k ((m + 1) * ks) - min x.k (m * ks))
      let old := (smGet 0 r.old (64 * i + j)).toNat
      (isIntFmt x.afmt = false →
        let part (m : Nat) : Nat := (share m).foldl (fun p q => cubeStep p (elemFl x.afmt (av m q)) (elemFl x.bfmt (bv m q))) 0
        let acc := (List.range (x.layers.length - 1)).foldl (fun z m => cubeAdd z (part (m + 1))) (part 0)
        cubeElem x r 0 i j = if x.kind = 1 then cubeAdd old acc else acc) ∧
      (isIntFmt x.afmt = true →
        let int (v : Nat) : Int := intDecode v (fmtBits x.afmt) (iunsOf x.fmt) (isubOf x.fmt)
        x.bfmt = x.afmt → let part (m : Nat) : Nat := (share m).foldl (fun p q => intStep p (int (av m q)) (int (bv m q))) 0
        let acc := (List.range (x.layers.length - 1)).foldl (fun z m => (z + part (m + 1)) % 2 ^ 32) (part 0)
        cubeElem x r 0 i j = if x.kind = 1 then (old + acc) % 2 ^ 32 else acc)) ∧
    (s.findItem c false id = some p → p.act = .zeroRow cmd i → k.cube cmd = some x →
      ∃ t, exec (.cubeResultCommit c id) s = .next t ∧ sameRegs s t ∧ putsBytes s t (faceLoc c 2 (x.daddr + 256 * i)) (List.replicate (4 * x.n) (0 : Byte))) ∧
    (s.findItem c false id = some p → p.act = .resc cmd off data →
      ∃ t, exec (.rescaleRowCommit c id) s = .next t ∧ sameRegs s t ∧ putsBytes s t (faceLoc c 2 off) data) ∧
    (s.findItem c false id = some p → p.act = .pline cmd j → k.cube cmd = some x →
      let line := (List.range x.m).flatMap fun i => leBytes 2 (smGet 0 (k.run cmd).old (64 * i + j)).toNat
      ∃ t, exec (.scorePLineCommit c id) s = .next t ∧ sameRegs s t ∧ putsBytes s t (faceLoc c 0 (x.lineAt j)) line) ∧
    (s.findItem c false id = some p → p.act = .side cmd 2 → k.cube cmd = some x →
      ∃ t, exec (.scoreSideCommit c id) s = .next t ∧ sameMem s t ∧ sameRegs s t ∧ ∀ r, smGet {} (t.core c).sides r =
        if r < x.m then { mx := 0xFF800000, sm := 0, al := 0x3F800000 } else smGet {} k.sides r) ∧
    (s.findItem c false id = some p → p.act = .latch cmd → k.cube cmd = some x →
      ∃ t, exec (.weightLatchReplace c id) s = .next t ∧ sameMem s t ∧ sameRegs s t ∧
        (∀ m l, x.layers[m]? = some l →
          let rows := (List.range x.k).map fun q => (q, smGet 0 (k.run cmd).b (4096 * m + q))
          let scales := if x.fp4 then (List.range (x.k / 8)).map (fun q => (q, smGet 0 (k.run cmd).sb (512 * m + q))) else []
          smFind (t.core c).latches l = some { fmt := x.bfmt, k := x.k, n := x.n, rows := rows, scales := scales }) ∧
        ∀ l, l ∉ x.layers → smFind (t.core c).latches l = smFind k.latches l) ∧
    (s.findItem c false id = some p → p.act = .drain cmd u → k.cube cmd = some x → x.pieces.getD u [] = [(lo, n)] →
      let bytes := (List.range n).map fun o => drainByte x (k.run cmd) (lo + o)
      ∃ t, exec (.drainPieceCommit c id) s = .next t ∧ sameRegs s t ∧ putsBytes s t (faceLoc c x.dspc lo) bytes) ∧
    (c < 384 → layer < 8 → bit k.lavail layer = true → ∃ t, exec (.layerFailure c layer) s = .next t ∧ sameMem s t ∧ sameRegs s t ∧
      (t.core c).lavail = k.lavail - 2 ^ layer)

/-- TIMELINE_COMMAND_PERFORM presents the command of its number, an LFENCE among them: one that passes every check performs (an ACT opens the row that it names, a PRE closes its bank, a REFPB
refreshes it, a read burst posts the delivery of its line, a write burst its data), and one that breaks the rule of the bus (R107), of the state of its
bank (R106) or of R105 against the one command before it faults DRAMRULE with the cause of that rule. The least distances are those of the table of R105. TSV_RESEND records the failed transfers of a command; READ_DELIVERY_COMMIT
and MCMP_RESULT_COMMIT write exactly their bytes into the face, a poisoned delivery poisoning every line that it touches; WRITE_BURST_VISIBLE writes its line;
IN_MEMORY_OP_COMPLETE writes the sixteen columns of its row (in a sealed range through the cipher, the model's reading, log 91); LFENCE_SATISFIED clears the W and M marks of a bank of the lease; MARK_COMPLETE adds its value to its target word and
goes; TRANSLATION_MARKER_RETIRE removes the marker from its queue. (R47, R104, R105, R106, R107, R108, R112, R124, R126, R131, R428, R430) -/
def Obligations.TimelineSteps : Prop :=
  ∀ (s : State) (c id face off cell kind src dst stamp hs fails lane : Nat) (p : Pending) (org : Origin) (data : List Byte) (poison : Bool)
    (val : Word) (x : TlCmd) (m : Marker) (inv : Nat) (sl : Nat × Nat × Nat) (v : Show) (pr : Pres) (bu : Burst) (bus : List Burst) (b : Nat),
    let k := s.core c
    (k.tlq.find? (fun y => y.id = id) = some x → exec (.timelineCommandPerform c id) s = .next (presentCommand s c x)) ∧
    (k.tlq.find? (fun y => y.id = id) = some x → x.op ≠ 12 → x.show s c = v →
      let at_ (n : Nat) : Bank := (s.hbm v.hs).bank v.pc n
      (presentFault s c x v = none → burstOperand s c x = none → ∃ t, exec (.timelineCommandPerform c id) s = .next t ∧ sameMem s t ∧ sameRegs s t ∧
        (x.op = 0 → x.bursts = [] → ((t.hbm v.hs).bank v.pc (v.banks.headD 0)).row = some (v.rows.headD 0)) ∧
        (x.op = 1 → x.bursts = [] → v.banks = [b] → ((t.hbm v.hs).bank v.pc b).row = none) ∧
        (x.op = 7 → x.bursts = [] → ((t.hbm v.hs).bank v.pc (v.banks.headD 0)).ref = v.rel) ∧
        (isRd x.op = true → x.bursts = bu :: bus → ∃ q ∈ (t.core c).task.agenda, q.tick = bu.tick + (if x.half then 191 else 175) ∧
          ∃ bad, q.act = .deliver x.org x.face bu.foff (readLine s bu.cell) bad) ∧
        (isWr x.op = true → x.bursts = bu :: bus → ∃ q ∈ (t.core c).task.agenda, q.tick = bu.tick + (if x.half then 32 else 24) ∧
          ∃ bad, q.act = .visible bu.cell (readBytes s.mem (faceLoc c 2 bu.foff) 64) bad)) ∧
      ((s.hbm v.hs).lock = true → ((s.hbm v.hs).pc v.pc).hold ≤ ceilDiv s.now 10 * 10 →
        let rejects (cause : Nat) (earlier : Int) : Prop :=
          exec (.timelineCommandPerform c id) s = .next (rejectCommand s c x ⟨4, cause, 0, dramAux (earlier % 2 ^ 32).toNat v.stamp⟩)
        (busTaken s c x v = true → rejects 2 v.rel) ∧
        (busTaken s c x v = false → seen s c v.hs v.pc = [pr] → pr.stamp = v.rel → pr.core ≠ c → isCol pr.op = isCol x.op → rejects 2 pr.stamp) ∧
        (busTaken s c x v = false → seen s c v.hs v.pc = [] → fencing k v.hs = false →
          (isCol x.op = true → (at_ (v.banks.headD 0)).row ≠ some (v.rows.headD 0) → rejects 1 0) ∧
          (x.op = 0 ∨ 7 ≤ x.op → b ∈ v.banks → (at_ b).row.isSome = true → rejects 1 0)) ∧
        (busTaken s c x v = false → seen s c v.hs v.pc = [pr] → pr.core = c → fencing k v.hs = false → v.banks = [b] →
          (isCol x.op = true ∧ (at_ b).row = some (v.rows.headD 0) ∨ (x.op = 0 ∨ x.op = 7) ∧ (at_ b).row = none ∨ x.op = 1 ∧ (at_ b).row.isSome = true) →
          (at_ b).wmark = false → (at_ b).mmark = false → (at_ b).busy ≤ v.rel →
          v.rel < pr.stamp + minGap ((s.hbm v.hs).pc v.pc).half pr x.op b → rejects 0 pr.stamp))) ∧
    (∀ i j, i < 64 → j < 64 →
      let gap (a b k l : Nat) : Nat := minGap false { stamp := 0, op := a, bank := k, core := c } b l
      (gap 0 3 i i = 48 ∧ gap 0 4 i i = 48 ∧ gap 1 0 i i = 48 ∧ gap 1 7 i i = 48 ∧ gap 1 9 i i = 48 ∧ gap 0 1 i i = 104 ∧ gap 0 0 i i = 152 ∧
        gap 4 1 i i = 76 ∧ gap 3 1 i i = 12 ∧ gap 7 0 i i = 576 ∧ gap 7 7 i i = 576 ∧ gap 7 9 i i = 576 ∧ gap 3 4 i j = 48 ∧
        gap 8 0 64 j = 1120 ∧ gap 8 1 64 j = 1120 ∧ gap 8 7 64 j = 1120) ∧
      (i / 4 = j / 4 → gap 3 3 i j = 8 ∧ gap 4 4 i j = 8 ∧ gap 4 3 i j = 40 ∧ (i ≠ j → gap 0 0 i j = 12 ∧ gap 0 7 i j = 12 ∧ gap 7 0 i j = 12)) ∧
      (i / 4 ≠ j / 4 → gap 3 3 i j = 4 ∧ gap 4 4 i j = 4 ∧ gap 4 3 i j = 28 ∧ gap 0 0 i j = 8 ∧ gap 0 7 i j = 8 ∧ gap 7 0 i j = 8)) ∧
    (∀ (ps : List Pres) (st : Int), (∀ q ∈ ps, q.stamp + minGap false q 0 b ≤ st) →
      4 ≤ (ps.filter fun q => actClass q.op && decide (st < q.stamp + 64)).length → (spacing false ps 0 [b] st []).isSome = true) ∧
    (∃ t, exec (.tsvResend c id fails lane) s = .next t ∧ sameMem s t ∧ sameRegs s t ∧
      ∀ y ∈ (t.core c).tlq, y.id = id → y.fails = fails ∧ y.lane = lane) ∧
    (s.findItem c false id = some p → p.act = .deliver org face off data poison →
      ∃ t, exec (.readDeliveryCommit c id) s = .next t ∧ sameRegs s t ∧ putsBytes s t (faceLoc c face off) data ∧
        (poison = true → ∀ l ∈ linesOf (faceLoc c face off) data.length, poisoned t l = true) ∧
        (poison = false → ∀ l, faceLoc c face off ≤ l * 64 → l * 64 + 64 ≤ faceLoc c face off + data.length → poisoned t l = false)) ∧
    (s.findItem c false id = some p → p.act = .mcmp off val →
      ∃ t, exec (.mcmpResultCommit c id) s = .next t ∧ sameRegs s t ∧ putsBytes s t (faceLoc c 2 off) (leBytes 8 val.toNat)) ∧
    (s.findItem c false id = some p → p.act = .visible cell data poison →
      ∃ t, exec (.writeBurstVisible c id) s = .next t ∧ sameRegs s t ∧ t.mem = (writeLine s cell data).mem) ∧
    (s.findItem c false id = some p → p.act = .memop kind src dst stamp →
      ∃ t, exec (.inMemoryOpComplete c id) s = .next t ∧ sameRegs s t ∧ t.mem = ((List.range 16).foldl (memopColumn kind src dst) s).mem) ∧
    (s.findItem c false id = some p → p.act = .lfence hs → k.lease.entry.slots = [sl] → 4 * stackOf c + sl.1 = hs →
      ∃ t, exec (.lfenceSatisfied c id) s = .next t ∧ sameMem s t ∧ sameRegs s t ∧
        ((t.hbm hs).bank sl.2.1 ((s.hbm hs).phys sl.2.1 sl.2.2)).wmark = false ∧
        ((t.hbm hs).bank sl.2.1 ((s.hbm hs).phys sl.2.1 sl.2.2)).mmark = false) ∧
    (k.markers = [m] → m.id = id → m.inv = none → m.due k (s.tick c false) = true → poisonIn s (faceLoc c 2 m.off) 8 = none →
      let sum := leBytes 8 (leNat (readBytes s.mem (faceLoc c 2 m.off) 8) + m.val.toNat)
      ∃ t, exec (.markComplete c id) s = .next t ∧ sameRegs s t ∧ (t.core c).markers = [] ∧ putsBytes s t (faceLoc c 2 m.off) sum) ∧
    (k.markers = [m] → m.id = id → m.inv = some inv → m.due k (s.tick c false) = true → exec (.translationMarkerRetire c id) s =
      .next (retireMarker (s.modCore c fun k => { k with markers := [] }) inv))

/-- LENT_SPAN_START precharges the bank that the frame lends, LENT_SPAN_END leaves it precharged, satisfied and
refreshed at the last tick of the span, by the count of its holder; HOLE_MAINTENANCE, where the rules before the hole allow its command, opens the
next row to be scrubbed at stamp + 16 of the bank whose span begins, or makes the rescue refresh that the bank awaits,
and behind the last columns, at + 14 of the next hole, advances the patrol scrub of that bank by one row, the columns being spread over the stamps of the hole (log 112); in the hole before a REBASE
it makes a pending lane swap; REFRESH_WINDOW_EXPIRE queues the rescue of the bank and faults the task DRAMRULE, cause
REFMISS, whose packet and word it records as 0 (log 115); SAFETY_REFRESH refreshes its bank and holds the PC for 288 mt; IDLE_PC_REFRESH refreshes a PC that is not in
compiled mode; RCNT_WINDOW_CLEAR clears every retry counter of its stack; HBM_TEMPERATURE_READ raises the band at
once. No byte of memory changes. The 288 mt of a SAFETY_REFRESH are the model's choice (log 83), and that it renews the
stamp of R118 (log 92). (R114, R117, R118,
R119, R122, R123, R129, R485) -/
def Obligations.ControllerSteps : Prop :=
  ∀ (s : State) (hs pc f bank c temp : Nat),
    let h := s.hbm hs
    let b := h.phys pc (f % 64)
    (∃ t, exec (.lentSpanStart hs pc f) s = .next t ∧ sameMem s t ∧ sameRegs s t ∧ ((t.hbm hs).bank pc b).row = none ∧
      (∀ q, q ≠ hs → t.hbm q = s.hbm q)) ∧
    (∃ t, exec (.lentSpanEnd hs pc f) s = .next t ∧ sameMem s t ∧ sameRegs s t ∧ ((t.hbm hs).bank pc b).row = none ∧
      ((t.hbm hs).bank pc b).busy ≤ ((t.hbm hs).bank pc b).ref ∧
      ((t.hbm hs).bank pc b).ref = ((4096 * f + 4095 : Nat) : Int) - behind s hs pc b ∧ (pc, b) ∉ (t.hbm hs).rescue) ∧
    let into := h.phys pc ((f + 1) % 64)
    let hole (q : State → Prop) : Prop := ∃ t, exec (.holeMaintenance hs pc f) s = .next t ∧ sameMem s t ∧ sameRegs s t ∧ q t
    (frameTick s hs pc = ((4096 * f + 4046 : Nat) : Int) → (h.bank pc b).row = some (smGet 0 h.scrub (bankIx pc b)) →
      ctlClear s hs pc 3 b ((4096 * f + 4046 : Nat) : Int) [] = true →
      hole fun t => smGet 0 (t.hbm hs).scrub (bankIx pc b) = (smGet 0 h.scrub (bankIx pc b) + 1) % 16384) ∧
    (frameTick s hs pc = ((4096 * f + 4048 : Nat) : Int) → ctlClear s hs pc 8 64 ((4096 * f + 4048 : Nat) : Int) [] = true →
      ctlClear s hs pc 7 into ((4096 * f + 4048 : Nat) : Int) [] = true → (h.bank pc into).row = none → h.drfm = [] →
      (h.rescue = [] → h.backlog = [] → hole fun t => ((t.hbm hs).bank pc into).row = some (smGet 0 h.scrub (bankIx pc into))) ∧
      ((pc, into) ∈ h.rescue → hole fun t => (pc, into) ∉ (t.hbm hs).rescue ∧
        ((t.hbm hs).bank pc into).ref = ((4096 * f + 4048 : Nat) : Int) - behind s hs pc into)) ∧
    (frameTick s hs pc < 0 → (h.pc pc).swap = true → hole fun t => ((t.hbm hs).pc pc).swap = false) ∧
    (∃ u t, exec (.refreshWindowExpire c hs pc bank) s = .next t ∧ sameMem s t ∧ sameRegs s t ∧ (pc, bank) ∈ (t.hbm hs).rescue ∧ u.cores = s.cores ∧
      t = takeFault u c false (s.tick c false) (faultOf { core := c } 7 4 5 0 (dramAux ((h.bank pc bank).ref % 2 ^ 32).toNat (s.rel c).toNat)) ∧
      (∀ g p, (s.core c).frozen = none → (s.core c).group = g → s.pack g = some p → c ∈ p.members → p.freeze = none →
        ∃ z r, (t.core c).frozen = some z ∧ z.held = s.tick c false ∧ z.fault = some r ∧ r.code = 4 ∧ r.cause = 5 ∧
          wfld (smGet 0 (t.core c).fi 0) 7 0 = 4 ∧ wfld (smGet 0 (t.core c).fi 0) 15 8 = 5)) ∧
    (∃ t, exec (.safetyRefresh hs pc bank) s = .next t ∧ sameMem s t ∧ sameRegs s t ∧ ((t.hbm hs).pc pc).hold = s.now + 2880 ∧
      ((t.hbm hs).bank pc bank).ref = frameTick s hs pc - behind s hs pc bank) ∧
    ((h.pc pc).mode ≠ 1 → ∃ t, exec (.idlePcRefresh hs pc) s = .next t ∧ sameMem s t ∧ sameRegs s t ∧
      ((t.hbm hs).pc pc).refreshed = s.now) ∧
    (∃ t, exec (.rcntWindowClear hs) s = .next t ∧ sameMem s t ∧ sameRegs s t ∧ ∀ q, ((t.hbm hs).pc q).rcnt = 0) ∧
    (∃ t, exec (.hbmTemperatureRead hs temp) s = .next t ∧ sameMem s t ∧ sameRegs s t ∧
      (h.band < bandOf temp → (t.hbm hs).band = bandOf temp) ∧ bandOf temp ≤ (t.hbm hs).band)

/-- DROOP_STRETCH lengthens the present period of its region by one period and counts it modulo 2^16. REFERENCE_LOST and HBM_REFERENCE_LOST
clear LOCK and set FREERUN, REFERENCE_RELOCK sets LOCK and leaves FREERUN. SNAPSHOT_PUBLISH shows every core at its relative tick and
comes again 64 network periods later. HEEL_ARRIVE at the target in a locked region, with no loss of the reference and no breach of R140
since the last alignment event, holds the core; in an unlocked region it faults NOREF. HEEL_RELEASE of a pack whose last live member holds
at the target shown releases it; HEEL_EXIT 24 ticks behind the target clears the HEEL, and that of the first HEEL behind an unbounded
wait ends the guard and the care of the wait, and leaves those of a later wait that has begun meanwhile. When a fault no longer stands at a retry is the model's choice (log 93). (R140, R147, R148, R149, R160,
R161, R162, R208, R209) -/
def Obligations.AlignmentSteps : Prop :=
  ∀ (s : State) (r hs c g : Nat) (h : Heel) (p : Pack) (k : Core),
    (r < 16 → ∃ t, exec (.droopStretch r) s = .next t ∧ sameMem s t ∧ sameRegs s t ∧
      (t.region r).edge = (s.region r).edge + (s.region r).period ∧ (t.region r).nstretch = ((s.region r).nstretch + 1) % 2 ^ 16 ∧
      (t.region r).lastStr = some (s.region r).hw.toNat) ∧
    (r < 16 → ∃ t, exec (.referenceLost r) s = .next t ∧ sameMem s t ∧ sameRegs s t ∧ (t.region r).lock = false ∧
      (t.region r).freerun = true) ∧
    (hs < 16 → ∃ t, exec (.hbmReferenceLost hs) s = .next t ∧ sameMem s t ∧ sameRegs s t ∧ (t.hbm hs).lock = false ∧
      (t.hbm hs).freerun = true) ∧
    (r < 16 → ∃ t, exec (.referenceRelock r) s = .next t ∧ sameMem s t ∧ sameRegs s t ∧ (t.region r).lock = true ∧
      (t.region r).freerun = (s.region r).freerun) ∧
    (∃ t, exec .snapshotPublish s = .next t ∧ sameMem s t ∧ (s.now + 320, Ev.snapshotPublish) ∈ t.timers ∧
      (smFind s.cores c = some k → (t.core c).snapRel = (s.rel c).toNat ∧ (t.core c).snapHold = holdsAt s c ∧
        (t.core c).task = k.task ∧ (t.core c).mrf = k.mrf)) ∧
    ((s.core c).heel = some h → h.holds = false → s.tick c false = h.target →
      let rg := s.region (regionOf c)
      (rg.lock = true → (∀ t, rg.lost = some t → t < (s.core c).aligned ∨ (h.tried = true ∧ rg.freerun = false)) →
        (∀ t, rg.breach = some t → t < (s.core c).aligned ∨ (h.tried = true ∧ rg.droopovr = false)) →
        exec (.heelArrive c) s = .next (s.modCore c fun k => { k with heel := some { h with holds := true } })) ∧
      (rg.lock = false → exec (.heelArrive c) s =
        .next (takeFault (s.modCore c fun k => { k with heel := some { h with tried := true } }) c false h.target (heelRec h 6)))) ∧
    (s.pack g = some p → p.freeze = none → s.liveMembers p = [c] → (s.core c).heel = some h → (s.core c).snapHold.isSome = true →
      holdsAt s c = (s.core c).snapHold → ∃ t, exec (.heelRelease g) s = .next t ∧ sameMem s t ∧ sameRegs s t ∧
        (t.core c).heel = some { h with released := some s.now }) ∧
    ((s.core c).heel = some h → h.released.isSome = true → h.target + 24 ≤ s.tick c false →
      ∃ t, exec (.heelExit c) s = .next t ∧ sameMem s t ∧ sameRegs s t ∧ (t.core c).heel = none ∧ (t.core c).lastExit = h.target + 24 ∧
        (h.fresh = true → (t.core c).careFrom = (s.core c).careNext ∧ (t.core c).waited = (s.core c).careNext.isSome))

/-- FREEZE_NOTICE_ARRIVE marks the freeze as noticed. MEMBER_STOP stops a member that R251 to R253 stop, at its tick,
and leaves any other alone. KENNEL_DISPATCH of a frozen pack whose members have all stopped starts its handler on the
primary core in the lowest free context, at the packet that KENNEL names, with the member number in s1 and a leash
with all rights in slot 0. HANDLER_BUDGET_EXPIRE ends the handler of its serial; SHEPHERD_KILL kills a frozen pack;
PACK_RESUME_RELEASE ends the freeze of a pack that is resuming and lets its member absorb its lead. How R251 to R253
are followed step by step is the model's reading (log 9). (R251, R252, R253, R262, R265, R266, R269, R272) -/
def Obligations.FreezeSteps : Prop :=
  ∀ (s : State) (g c n serial epoch : Nat) (p : Pack) (z : Freeze) (f : Frozen),
    (s.pack g = some p → ∃ t, exec (.freezeNoticeArrive g) s = .next t ∧ sameMem s t ∧ sameRegs s t ∧
      t.pack g = some { p with freeze := p.freeze.map fun z => { z with noticed := true } }) ∧
    (stopsNow s c = true → exec (.memberStop c) s = .next (stopMember s c (s.tick c false) none false (lateMember s c))) ∧
    (stopsNow s c = false → exec (.memberStop c) s = .next s) ∧
    (s.pack g = some p → p.freeze = some z → z.served = false → z.resuming = false →
      (∀ m ∈ s.liveMembers p, (s.core m).frozen.isSome = true) → wfld (s.core z.primary).kennel 47 32 ≠ 0 →
      (s.region (regionOf z.primary)).waiters = [] → freeCtx s (regionOf z.primary) = some n →
      ∃ t th, exec (.kennelDispatch g) s = .next t ∧ sameMem s t ∧ sameRegs s t ∧ (t.core z.primary).handler = some th ∧
        th.pc = wfld (s.core z.primary).kennel 14 0 ∧ th.reg 1 = BitVec.ofNat 64 (wfld (s.core z.primary).packid 7 0) ∧
        smGet 0 (t.core z.primary).leash 0 = BitVec.ofNat 64 (15 * 2 ^ 32 + p.epoch % 2 ^ 16 * 2 ^ 16 + g) ∧
        smFind (t.region (regionOf z.primary)).ctxs n = some z.primary) ∧
    ((s.core c).handler.isSome = true → (s.core c).hserial = serial →
      ∃ t, exec (.handlerBudgetExpire c serial) s = .next t ∧ sameMem s t ∧ sameRegs s t ∧ (t.core c).handler = none) ∧
    ((s.core c).hserial ≠ serial → exec (.handlerBudgetExpire c serial) s = .next s) ∧
    (s.pack g = some p → p.freeze = some z → exec (.shepherdKill g) s = .next (killPack s g)) ∧
    (s.pack g = some p → p.freeze = some z → z.resuming = true → p.epoch = epoch → s.liveMembers p = [c] → (s.core c).frozen = some f →
      ∃ t, exec (.packResumeRelease g epoch) s = .next t ∧ sameMem s t ∧ sameRegs s t ∧ (t.core c).frozen = none ∧
        (t.core c).absorb = f.held - f.phi + 1 ∧ t.pack g = some { p with freeze := none })

/-- GOVERNOR_EVALUATION sets the power request of R479, leaves every step in force and comes again in 10 µs.
STEP_APPLY puts the next step of a region in force. SENSOR_SAMPLE gives each region its eleven readings and comes
again in 1 µs. THERMAL_TRIP of a sensor and CURRENT_TRIP above 21,000 A trip a package that has not tripped: no pack
is left and every face reads zero. WHISTLE_SEND in an emergency goes to every target; WHISTLE_RECEIVE for the running
job sets the step to come, and any other is counted; WHISTLE_TIMEOUT after 300 µs returns every step to 16;
EMERGENCY_END after 1 ms of calm ends the emergency. What a trip clears is the model's reading (log 71), as are the floor at which the power request is clamped (log 109) and the time of a whistle, to this package none (log 70); readings are
operands (log 66). (R141, R477, R479, R480, R482, R483, R484) -/
def Obligations.PowerSteps : Prop :=
  ∀ (s : State) (amps watts sensor r job w m : Nat) (calm : Bool) (temps : List Nat) (k : Region),
    (∃ t, exec (.governorEvaluation amps watts calm) s = .next t ∧ sameMem s t ∧ sameRegs s t ∧ t.psc.preq = powerRequest s amps watts calm ∧
      (∃ a b d, (s.now + 180000, Ev.governorEvaluation a b d) ∈ t.timers) ∧ (t.region r).step = (s.region r).step) ∧
    (r < 16 → (s.region r).nextStep = some m → ∃ t, exec .stepApply s = .next t ∧ sameMem s t ∧ sameRegs s t ∧ (t.region r).step = m ∧
      (t.region r).nextStep = none) ∧
    (r < 16 → ∃ t, exec (.sensorSample temps) s = .next t ∧ sameMem s t ∧ sameRegs s t ∧ (t.region r).temps = (temps.drop (11 * r)).take 11 ∧
      ∃ l, (s.now + 18000, Ev.sensorSample l) ∈ t.timers) ∧
    (sensor < 176 → s.psc.tripped = false → ∃ t, exec (.thermalTrip sensor) s = .next t ∧ t.psc.tripped = true ∧ t.packs = [] ∧
      ∀ a, faceLoc 0 0 0 ≤ a → a < faceLoc 384 0 0 → readByte t.mem a = 0) ∧
    (21000 < amps → s.psc.tripped = false → ∃ t, exec (.currentTrip amps) s = .next t ∧ t.psc.tripped = true ∧ t.packs = [] ∧
      ∀ a, faceLoc 0 0 0 ≤ a → a < faceLoc 384 0 0 → readByte t.mem a = 0) ∧
    (s.psc.emergency = true → ∃ t, exec .whistleSend s = .next t ∧ sameMem s t ∧ sameRegs s t ∧ t.psc.whistled = whistleTargets s ∧
      (s.now + 1800000, Ev.whistleSend) ∈ t.timers) ∧
    (s.jobRuns = true → job = s.psc.jserial → s.psc.whistleNext = none → ∃ t, exec (.whistleReceive job w) s = .next t ∧ sameMem s t ∧ sameRegs s t ∧
      t.psc.whistleNext = some (min 16 (max 8 w)) ∧ t.psc.whistleCnt = s.psc.whistleCnt) ∧
    (job ≠ s.psc.jserial → exec (.whistleReceive job w) s = .next { s with psc := { s.psc with whistleCnt := s.psc.whistleCnt + 1 } }) ∧
    (s.psc.whistleAt + 5400000 ≤ s.now → smFind s.regions r = some k → ∃ t, exec .whistleTimeout s = .next t ∧ sameMem s t ∧ sameRegs s t ∧
      (t.region r).gov.wstep = 16 ∧ t.psc.whistleNext = none) ∧
    (s.psc.emergency = true → s.psc.emCalm + 18000000 ≤ s.now → ∃ t, exec .emergencyEnd s = .next t ∧ sameMem s t ∧ sameRegs s t ∧
      t.psc.emergency = false)

/-- JSTART with GO on a booted package without a running job takes the next job serial and the phase of the word as the next to bind, and
every face and instruction buffer reads zero; while a job runs it only records ERR 1; without GO it changes nothing.
PHASE_BIND of a running job with a well-formed phase entry whose windows and leases pass binds the root object; a
malformed entry fails the bind at step 0, and one that fails at step 6 does so with the code of step 5 loaded. BOOT whose steps all pass leaves the package booted with PKGID 1,023 and
every core there, the images that run named; one that fails at a step holds it in STATE 4 with ERR 9. BOOT of a booted package stands for a reset, which keeps the fuses, the signature index and
the installed images, and a boot behind it (log 108), but for one that a trip has cut off, whose power it restores once
every sensor reads below 60 °C (R484, log 108). The stop mode of a trace outlives the start of a job. Step 0 of a malformed entry is the model's choice (log 85), the
lease table is what the image holds at LEASETAB in a layout left open, and the operand names it (log 19), boot takes no time (log 73), nor does a bind (log 76); all windows of the root object are placed together (log 101); a failed phase cancels the job's work (log 12); reserved
bits of JSTART are ignored and the stop mode stays (log 110). (R222, R484, R489, R490, R491, R495, R496) -/
def Obligations.JobSteps : Prop :=
  ∀ (s : State) (v : Word) (ls : List LeaseEntry) (im : Image) (ws : List (List Tlb × List Nat)) (u : State) (e : BindFail) (c : Nat),
    (wfld v 63 63 = 1 → s.psc.booted = true → s.jobRuns = false →
      ∃ t, exec (.jstart v) s = .next t ∧ t.psc.jserial = (s.psc.jserial + 1) % 2 ^ 16 ∧ t.psc.nextPhase = wfld v 47 40 ∧
        t.psc.jphase = s.psc.jphase ∧ (∀ x ∈ t.timers, ∀ off d, x.2 ≠ Ev.hostWritePiece off d) ∧
        t.traces = smMap (fun _ (x : Trace) => { stop := x.stop }) s.traces ∧
        ∀ a, faceLoc 0 0 0 ≤ a → a < faceLoc 384 0 0 → readByte t.mem a = 0) ∧
    (wfld v 63 63 = 1 → s.psc.booted = true → s.jobRuns = true →
      exec (.jstart v) s = .next { s with psc := { s.psc with jerr := 1 } }) ∧
    (wfld v 63 63 = 0 → exec (.jstart v) s = .next s) ∧
    (s.psc.image = some im → s.jobRuns = true → s.psc.phaseOpen = false → s.packs = [] →
      (ls = leaseTable s im → exec (.phaseBind ls) s = .next (bindPhase ls im s)) ∧
      (ls ≠ leaseTable s im → exec (.phaseBind ls) s = .next s) ∧
      (badPhase s im = true → bindPhase ls im s = failPhase s 0 0 0 0 0) ∧
      (badPhase s im = false →
        let base := (phaseWord s im 2).toNat
        let f := bindFront s im
        (fillRoot f base (min 4096 (nNode f base)) = .error e → bindPhase ls im s = bindFailed f e) ∧
        (fillRoot f base (min 4096 (nNode f base)) = .ok (u, ws) →
          exportsSealed im (readTable u (phaseWord u im 9).toNat) (allEntries ws) = none →
          let v := loadCode u (phaseWord u im 0).toNat (phaseWord u im 1).toNat
          (stepSix v ls (wfld (phaseWord v im 6) 3 0) (leaseRefs v base ws) = none →
            bindPhase ls im s = bindRoot (bindTables v im ls (allEntries ws)) base ws) ∧
          (stepSix v ls (wfld (phaseWord v im 6) 3 0) (leaseRefs v base ws) = some e → bindPhase ls im s = bindFailed v e)))) ∧
    (s.psc.booted = false → c < 384 → ∃ t, exec .boot s = .next t ∧
      ((∀ k, 1 ≤ k → k ≤ 5 → bootStep s k = true) → t.psc.booted = true ∧ t.psc.pkgid = 1023 ∧ t.psc.bootFail = 0 ∧
        (s.psc.bootFail ≠ 0 → t.psc.jstate = 0 ∧ t.psc.jerr = 0) ∧
        t.core c = { lavail := bootLavail (c / 96) } ∧ (t.region (c % 16)).lock = true ∧
        t.psc.fwrun = (List.range 3).map fun k => (k, (smFind s.psc.fwnew k).getD (Config.shake256 512 (Config.firmware k)))) ∧
      ((∃ k, 1 ≤ k ∧ k ≤ 5 ∧ bootStep s k = false) → (s.psc.bootFail = 0 → s.psc.jstate ≠ 4) → t.psc.booted = false ∧ t.psc.jstate = 4 ∧
        t.psc.jerr = 9 ∧ bootStep s t.psc.bootFail = false)) ∧
    (s.psc.booted = true → s.psc.tripped = false → ∃ t, exec .boot s = .next t ∧ t.mem = [] ∧
      (powerOn s).psc = { fwver := s.psc.fwver, fwnew := s.psc.fwnew, sigidx := s.psc.sigidx } ∧
      ((∀ k, 1 ≤ k → k ≤ 5 → bootStep s k = true) → t.psc = { (powerOn s).psc with booted := true, pkgid := 1023, clkFab := 1, fwrun := t.psc.fwrun }) ∧
      ((∃ k, 1 ≤ k ∧ k ≤ 5 ∧ bootStep s k = false) → t.psc.booted = false ∧ t.psc.jstate = 4 ∧ t.psc.jerr = 9)) ∧
    (s.psc.booted = true → s.psc.tripped = true →
      ((∃ r, r < 16 ∧ 240 ≤ (s.region r).hot) → exec .boot s = .next s) ∧
      ((∀ r, r < 16 → (s.region r).hot < 240) → ∃ t, exec .boot s = .next t ∧ sameMem s t ∧ sameRegs s t ∧ t.psc.tripped = false ∧
        ∀ r, r < 16 → (t.region r).lock = true ∧ (t.region r).power = .awake))

/-- JCANCEL with bit 0 cancels the job. HWBASE_WRITE outside a job sets the base to bits 39:36 and is ignored in one. JCAUSE_CLEAR clears
each bit written 1. CLKSTAT_CLEAR clears FREERUN and DROOPOVR where 1 is written. REGISTER_WRITE makes the step of its register due,
stores the words of the mailbox and of the MSI-X table, and ignores offsets not listed and read-only ones; a write to the request area is discarded while a request
is being served (of a word other than the first the model's choice, log 22); one of the first word is answered with status 2 where the request is malformed, and else makes the step of its command due. HOST_MEMORY_READ returns the bytes of its first aligned piece of
at most eight, 0xFF for each sealed one, and changes no memory; the pieces behind it follow at free times (log 5), each under the HWBASE of its time (log 113). HOST_MEMORY_WRITE of a
byte in no sealed place writes it, of one in a sealed range or object it writes nothing. SACNT counts each piece that meets a sealed
place once (the model's choice, log 104). HEARTBEAT counts and comes again after 100 ms. (R56, R57, R163, R173, R216, R488, R492, R493, R509)
-/
def Obligations.HostRegisterSteps : Prop :=
  ∀ (s : State) (v : Word) (r off n : Nat) (b : Byte) (data : List Byte),
    (v.getLsbD 0 = true → exec (.jcancel v) s = .next (cancelJob s)) ∧
    (v.getLsbD 0 = false → exec (.jcancel v) s = .next s) ∧
    (s.jobRuns = false → exec (.hwbaseWrite v) s = .next { s with psc := { s.psc with hwbase := v &&& 0xF000000000 } }) ∧
    (s.jobRuns = true → exec (.hwbaseWrite v) s = .next s) ∧
    (∃ t, exec (.jcauseClear v) s = .next t ∧ sameMem s t ∧ sameRegs s t ∧
      ∀ k, k < 64 → t.psc.jcause.testBit k = (s.psc.jcause.testBit k && !v.getLsbD k)) ∧
    (r < 16 → ∃ t, exec (.clkstatClear r v) s = .next t ∧ sameMem s t ∧ sameRegs s t ∧
      (t.region r).freerun = ((s.region r).freerun && !v.getLsbD 1) ∧ (t.region r).droopovr = ((s.region r).droopovr && !v.getLsbD 2) ∧
      (t.region r).lock = (s.region r).lock) ∧
    (exec (.registerWrite 0 v) s = .next (s.later 0 (.jstart v)) ∧ exec (.registerWrite 0x10 v) s = .next (s.later 0 (.jcancel v)) ∧
      exec (.registerWrite 0x18 v) s = .next (s.later 0 (.hwbaseWrite v)) ∧
      exec (.registerWrite 0x28 v) s = .next (s.later 0 (.jcauseClear v)) ∧
      (0x1000 ≤ off → off < 0x2200 → off % 8 = 0 → off ≠ 0x1800 → (off < 0x1800 → s.psc.serving = none) → ∃ t, exec (.registerWrite off v) s = .next t ∧ sameMem s t ∧ sameRegs s t ∧
        hostRegister t off = v) ∧
      (∃ t, exec (.registerWrite 0x1800 v) s = .next t ∧ sameMem s t ∧ sameRegs s t ∧ hostRegister t 0x1800 = v) ∧
      (off % 8 ≠ 0 ∨ off < 0x1000 ∧ off ≠ 0 ∧ off ≠ 0x10 ∧ off ≠ 0x18 ∧ off ≠ 0x28 ∨ 0x2200 ≤ off → exec (.registerWrite off v) s = .next s) ∧
      (let kept := { s with psc := { s.psc with msix := smSet s.psc.msix 0x1000 v } }
       let want := requestStep kept.psc (wfld v 15 0) (wfld v 63 32) (wfld v 31 16);
        (s.psc.serving.isSome = true → 0x1000 ≤ off → off < 0x1800 → exec (.registerWrite off v) s = .next s) ∧
        (s.psc.serving = none → want = none → exec (.registerWrite 0x1000 v) s = .next (respond kept (wfld v 63 32) 2)) ∧
        (∀ e, s.psc.serving = none → want = some e → ∃ t w, exec (.registerWrite 0x1000 v) s = .next t ∧ t.psc.serving = some (wfld v 63 32) ∧
          (s.now + w, e) ∈ t.timers))) ∧
    (off + n ≤ 2 ^ 36 →
      let pa := s.psc.hwbase.toNat + off
      let k := min n (8 - off % 8)
      ∃ t, exec (.hostMemoryRead off n) s = .next t ∧ sameMem s t ∧ sameRegs s t ∧
        t.psc.hostData = ((List.range k).map fun i => if inSealedRange s (pa + i) then 0xFF else (readPhys s (pa + i) 1).headD 0) ∧
        t.psc.sacnt = (if (List.range k).any fun i => inSealedRange s (pa + i) then (s.psc.sacnt + 1) % 2 ^ 64 else s.psc.sacnt) ∧
        (k < n → ∃ w, (s.now + w, Ev.hostReadPiece (s.psc.hostId + 1) (off + k) (n - k)) ∈ t.timers)) ∧
    (off + 1 ≤ 2 ^ 36 →
      let pa := s.psc.hwbase.toNat + off
      (inSealedRange s pa = false → inSealedGraph s pa 1 = false → ∃ t, exec (.hostMemoryWrite off [b]) s = .next t ∧ sameRegs s t ∧
        t.mem = (writePhysByte s pa b).mem ∧ t.psc.sacnt = s.psc.sacnt) ∧
      (inSealedRange s pa = true ∨ inSealedGraph s pa 1 = true → ∃ t, exec (.hostMemoryWrite off [b]) s = .next t ∧ sameMem s t ∧
        sameRegs s t ∧ t.psc.sacnt = (s.psc.sacnt + 1) % 2 ^ 64)) ∧
    (off + data.length ≤ 2 ^ 36 → 8 - off % 8 < data.length → ∃ t w, exec (.hostMemoryWrite off data) s = .next t ∧
      (s.now + w, Ev.hostWritePiece (off + (8 - off % 8)) (data.drop (8 - off % 8))) ∈ t.timers) ∧
    (∃ t, exec .heartbeat s = .next t ∧ sameMem s t ∧ sameRegs s t ∧ t.psc.hbeat = (s.psc.hbeat + 1) % 2 ^ 32 ∧
      (s.now + 1800000000, Ev.heartbeat) ∈ t.timers)

/-- Every command answers with a response word of its tag and status and raises JCAUSE bit 4: the reading commands
(error log and trace from a given entry on, clocks and power from a given word on, energy, availability map with the layer classes, keys from
the fused seed, phase failure) with status 0 and their data; SET_PCAP
within 2,000 to 10,000 W in steps of 50 W and SET_PKGID up to 1,023 without a job set their value; ATTEST with a nonce
of 32 bytes below 2^20 signatures raises the signature index and returns the signed report; INSTALL_FIRMWARE of an image that passes
both checks installs its digest and raises the fuse counter to its version. SET_PKGID and INSTALL_FIRMWARE while a job runs answer status 1.
Values outside the ranges, and an image that fails a check, answer status 2 and change nothing else. One whose tag is not the one being
served has no effect. No byte of memory changes. The layout of responses
is the model's choice (log 22). (R133, R134, R163, R245, R411, R476, R493, R495, R498, R499, R503, R507) -/
def Obligations.MailboxSteps : Prop :=
  ∀ (s : State) (tag hs sel watts id kind : Nat) (stop : Bool) (nonce image : List Byte),
    let ok (i : Instr) (st : Nat) (q : State → Prop) : Prop :=
      (s.psc.serving = none ∨ s.psc.serving = some tag → ∃ t d, exec i s = .next t ∧ sameMem s t ∧ sameRegs s t ∧
        t.psc.resp = BitVec.ofNat 64 (tag % 2 ^ 32 * 2 ^ 32 + st) :: d ∧ t.psc.jcause.testBit 4 = true ∧ t.psc.serving = none ∧ q t) ∧
      (∀ k, s.psc.serving = some k → k ≠ tag → exec i s = .next s)
    (sel / 16 < 1024 → ok (.readErrorLog tag sel) 0 fun t => t.psc.resp.tail = ((s.hbm (sel % 16)).log.drop (sel / 16)).flatten) ∧
    (1024 ≤ sel / 16 → ok (.readErrorLog tag sel) 2 fun t => t.psc.resp.tail = []) ∧
    (ok (.readClocks tag) 0 fun t => t.psc.resp.tail = ((List.range 33).map (clkstat s) ++ powerWords s).drop (pageFrom s.psc)) ∧
    (2000 ≤ watts → watts ≤ 10000 → watts % 50 = 0 → ok (.setPcap tag watts) 0 fun t => t.psc.pcap = watts) ∧
    ((watts < 2000 ∨ 10000 < watts ∨ watts % 50 ≠ 0) → ok (.setPcap tag watts) 2 fun t => t.psc.pcap = s.psc.pcap) ∧
    (ok (.readEnergy tag) 0 fun t => t.psc.resp.tail = ([BitVec.ofNat 64 s.psc.energyJob, BitVec.ofNat 64 s.psc.energyMaint] ++
      s.walker.insts.flatMap fun i => [i.2.handle, BitVec.ofNat 64 i.2.energy]).drop (pageFrom s.psc)) ∧
    (hs < 16 → ok (.readAvailabilityMap tag hs) 0 fun t => t.psc.resp.tail = (List.range 64).flatMap (availability s hs) ++ layerWords s hs) ∧
    (16 ≤ hs → ok (.readAvailabilityMap tag hs) 2 fun t => t.psc.resp.tail = []) ∧
    (s.jobRuns = false → id ≤ 1023 → ok (.setPkgid tag id) 0 fun t => t.psc.pkgid = id) ∧
    (s.jobRuns = true → ok (.setPkgid tag id) 1 fun t => t.psc.pkgid = s.psc.pkgid) ∧
    (s.jobRuns = false → 1023 < id → ok (.setPkgid tag id) 2 fun t => t.psc.pkgid = s.psc.pkgid) ∧
    (let ik := Config.shake256 256 (Config.fusedSeed ++ Config.identityLabel)
      let kk := Config.shake256 256 (Config.fusedSeed ++ Config.kemLabel)
      ok (.readKeys tag) 0 fun t => t.psc.resp.tail = wordsOf (Config.xmssPublic ik ++ Config.certificate (Config.xmssPublic ik)
        ++ Config.kemPublic kk ++ Config.kemSignature ik (Config.kemPublic kk))) ∧
    (nonce.length ≠ 32 → ok (.attest tag nonce) 2 fun t => t.psc.sigidx = s.psc.sigidx) ∧
    (nonce.length = 32 → s.psc.sigidx < 2 ^ 20 → ok (.attest tag nonce) 0 fun t => t.psc.sigidx = s.psc.sigidx + 1 ∧
      t.psc.resp.tail = wordsOf (report s nonce ++ Config.xmssSign identityKey s.psc.sigidx (report s nonce))) ∧
    (nonce.length = 32 → 2 ^ 20 ≤ s.psc.sigidx → ok (.attest tag nonce) 3 fun t => t.psc.sigidx = s.psc.sigidx) ∧
    (2 ^ 21 ≤ sel / 4 → ok (.readTrace tag sel stop) 2 fun t => t.traces = s.traces ∧ t.psc.resp.tail = []) ∧
    (sel / 4 < 2 ^ 21 → ok (.readTrace tag sel stop) 0 fun t => (smGet {} t.traces (sel % 4)).stop = stop ∧
      (s.jobRuns = false → t.psc.resp.tail =
        BitVec.ofNat 64 (smGet {} s.traces (sel % 4)).dropped :: ((smGet {} s.traces (sel % 4)).recs.drop (sel / 4)).flatten) ∧
      (s.jobRuns = true → s.psc.image.map (·.sealed) = some true → t.psc.resp.tail = [])) ∧
    (s.jobRuns = true → ok (.installFirmware tag kind image) 1 fun t => t.psc.fwver = s.psc.fwver) ∧
    (s.jobRuns = false → kind < 3 → Config.xmssVerify kind image = true → smGet 0 s.psc.fwver kind ≤ Config.imageVersion kind image →
      ok (.installFirmware tag kind image) 0 fun t => t.psc.fwver = smSet s.psc.fwver kind (Config.imageVersion kind image) ∧
        t.psc.fwnew = smSet s.psc.fwnew kind (Config.shake256 512 image)) ∧
    (s.jobRuns = false → 3 ≤ kind ∨ Config.xmssVerify kind image = false ∨ Config.imageVersion kind image < smGet 0 s.psc.fwver kind →
      ok (.installFirmware tag kind image) 2 fun t => t.psc.fwver = s.psc.fwver ∧ t.psc.fwnew = s.psc.fwnew) ∧
    (ok (.readPhaseFailure tag) 0 fun t => t.psc.resp.tail = (if s.psc.pfail = [] then [0, 0, 0, 0, 0, 0] else s.psc.pfail).map (BitVec.ofNat 64))

/-- LAUNCH_END of a launch that is over, the one node of its instance, ends the instance with success or failure; of
any other it changes nothing. WALKER_HELD_PUSH pushes a held node while its queue has space; READY_AGING moves an
entry that has waited 1 ms from queue 2 to queue 3. SHEPHERD_TAKE is kept until the end of its period of the
reference, in ascending stack index; served then, it claims packs of the head entry, which leaves its queue with its
last pack; of a node that no region is a candidate for it claims none (log 99). SHEPHERD_RETURN puts a claimed pack back and its entry at the head of a queue, or with full queues has the
walker hold its node.
INSTANCE_WINDOW_FILL of an instance with one node whose list passes enters its windows once; SEAL_COMPLETE writes its
result word of R467 and nothing else. How a window list is addressed is the model's choice (log 16), as are the answer to a die from 4 (log 78) and what a second SEAL reports (log 53).
A pack that is returned to full queues is held (log 116). (R41, R210, R214,
R225, R226, R235, R467) -/
def Obligations.WalkerSteps : Prop :=
  ∀ (s : State) (inst node die n q : Nat) (i : Inst) (x : Node) (e : Ready) (es : List Tlb) (y : SealOp),
    (launchOver s inst node = false → exec (.launchEnd inst node) s = .next s) ∧
    (launchOver s inst node = true → s.instance? inst = some i → i.nodes = [(node, x)] → i.edges = [] → x.cancelled = false →
      ∃ t, exec (.launchEnd inst node) s = .next t ∧ sameMem s t ∧ sameRegs s t ∧ smFind t.walker.insts inst = none ∧
        (smFind t.walker.ended inst).map (·.2) = some (if i.cancelled then 2 else if x.comp.errcnt = 0 then 0 else 1)) ∧
    (s.walker.held = [(inst, node)] → s.node? inst node = some x → (smGet [] s.walker.queues x.prio).length < 4096 →
      ∃ t, exec .walkerHeldPush s = .next t ∧ sameMem s t ∧ sameRegs s t ∧ t.walker.held = [] ∧ smGet [] t.walker.queues x.prio =
        enqueue { inst := inst, node := node, since := x.since, raised := x.since + x.frz } (smGet [] s.walker.queues x.prio)) ∧
    (smGet [] s.walker.queues 3 = [] → smGet [] s.walker.queues 2 = [e] → smGet [] s.walker.queues 1 = [] →
      smGet [] s.walker.queues 0 = [] → e.raised + 18000000 ≤ s.now → nodeHeld s e.inst e.node = false →
      ∃ t, exec .readyAging s = .next t ∧ sameMem s t ∧ sameRegs s t ∧ smGet [] t.walker.queues 2 = [] ∧
        smGet [] t.walker.queues 3 = [{ e with raised := e.raised + 18000000 }]) ∧
    (die < 4 → 1 ≤ n → n ≤ 32 → ∃ t, exec (.shepherdTake die n) s = .next t ∧ sameMem s t ∧ sameRegs s t ∧
      t.walker.queues = s.walker.queues ∧ t.walker.takes = insertBy (fun a b => a.1 < b.1) (die, n) s.walker.takes ∧
      (s.walker.takes = [] → ((refPeriod s.now + 1) * 180, Ev.takeServe) ∈ t.timers)) ∧
    (die < 4 → n = 0 ∨ 32 < n → exec (.shepherdTake die n) s = .next s) ∧
    (s.walker.takes = [(die, n)] → headEntry s = some (q, e) → s.node? e.inst e.node = some x → 1 ≤ n → x.back = [] → (x.wins = none ∨ x.cands ≠ []) →
      ∃ t, serveTakes s = .next t ∧ sameMem s t ∧ sameRegs s t ∧ t.walker.takes = [] ∧
        (n < x.unclaimed → (t.node? e.inst e.node).map (fun z => (z.claimed, z.eff)) = some (x.claimed + n, q) ∧ t.walker.queues = s.walker.queues) ∧
        (0 < x.unclaimed → x.unclaimed ≤ n → (t.node? e.inst e.node).map (fun z => (z.claimed, z.st)) = some (x.packs, .claimed) ∧
          smGet [] t.walker.queues q = (smGet [] s.walker.queues q).filter (· ≠ e))) ∧
    (s.walker.takes = [(die, n)] → headEntry s = some (q, e) → s.node? e.inst e.node = some x → x.wins = some es → x.cands = [] →
      ∃ t, serveTakes s = .next t ∧ t.walker.takes = [] ∧ t.walker.queues = s.walker.queues ∧ t.walker.insts = s.walker.insts) ∧
    (4 ≤ die → exec (.shepherdTake die n) s = .fault (.noSuchUnit die)) ∧
    (die < 4 → s.node? inst node = some x →
      (x.placeable n = true → x.prio ≤ 3 → (∀ k, k ≤ 3 → (smGet [] s.walker.queues k).length < 4096) →
        ∃ t, exec (.shepherdReturn die inst node n) s = .next t ∧ sameMem s t ∧ sameRegs s t ∧
          (t.node? inst node).map (fun z => (z.back, z.st)) = some (insertLine n x.back, .ready) ∧
          ∃ k, k ≤ 3 ∧ ((smGet [] t.walker.queues k).head?).map (fun z => (z.inst, z.node)) = some (inst, node)) ∧
      (x.placeable n = true → x.prio ≤ 3 → (∀ k, k ≤ 3 → 4096 ≤ (smGet [] s.walker.queues k).length ∧
          ∀ z ∈ smGet [] s.walker.queues k, ¬(z.inst = inst ∧ z.node = node)) →
        ∃ t, exec (.shepherdReturn die inst node n) s = .next t ∧ sameMem s t ∧ sameRegs s t ∧
          (t.node? inst node).map (fun z => (z.back, z.st)) = some (insertLine n x.back, .held) ∧ t.walker.queues = s.walker.queues) ∧
      (x.placeable n = false → exec (.shepherdReturn die inst node n) s = .next s)) ∧
    (s.instance? inst = some i →
      (i.windows = true → exec (.instanceWindowFill inst) s = .next s) ∧
      (i.windows = false → i.nodes = [(node, x)] → x.st = .waiting → windowList s (regionOf i.ccore) x.winlist.1 x.winlist.2 = .ok es →
        ∃ t, exec (.instanceWindowFill inst) s = .next t ∧ sameMem s t ∧ sameRegs s t ∧
          (t.instance? inst).map (fun z => (z.windows, z.entries)) = some (true, i.entries ++ es.filter fun z => !i.entries.contains z) ∧
          (t.node? inst node).bind (·.wins) = some es)) ∧
    (s.walker.seals = [y] → sealDue s y = true → y.undo = false →
      let u := { s with walker := { s.walker with seals := [] } }
      let r := (sealObject u y.base).2
      ∃ t, exec .sealComplete s = .next t ∧ sameRegs s t ∧ t.walker.seals = [] ∧
        t.mem = writeBytes s.mem (faceLoc y.org.core 2 y.off) (leBytes 8 (2 ^ 32 + r.1 * 2 ^ 16 + r.2)))

/-- RECORD_WRITE of a record that passes every check of R231 puts it at the end of its slot, and one that it refuses only
sets the status register to the code; that its region is a candidate for its node is no check of the write (log 99); RECORD_WITHDRAW takes a record out, or answers code 8 behind a preload. TLB_PRELOAD fills
the first-level TLB of a free core from the second-level one with the windows of the record at the head of its slot
and binds it, or stops the bind. PACK_RELEASE
starts the member of a ready pack of one: running, TBASE and the tick of its next edge at START, its packet, registers
and PACKID from the record, or kills a pack that a cancel has doomed. PREEMPT holds a victim for a claimant of higher priority and RESTORE lifts the hold;
SHEPHERD_CANCEL cancels its level; SHEPHERD_TLB_WRITE and SHEPHERD_TLB_INVALIDATE change the TLBs or report a refusal;
ENERGY_INTERVAL charges an instance, the job or maintenance and comes again in 1 µs; PLACE_BALLAST and BALLAST_STEP_DOWN_END put ballast on a free
core and take it off. The owner of a record (log 17), the save area (log 65), the encoding of the status register (log
68) and the code of an unclaimed task (log 72) are the model's choices. (R39, R40, R43, R46, R48, R143, R198, R211, R231,
R232, R234, R242, R245, R246) -/
def Obligations.RecordSteps : Prop :=
  ∀ (s : State) (r slot k c g id inst claimant node ix v va len q : Nat) (ws : List Word) (es : List Tlb) (f : Nat × Nat) (i : Inst)
    (w0 w1 : Word) (all : Bool),
    (r < 16 → slot < 24 →
      let at_ := slotCore r slot
      let before := smGet [] (s.region r).slots slot
      let layers := wfld (rWord ws 6) 7 0
      (before.length < 4 → recBad s slot ws = false → (recordOwner s ws).isSome = true →
        badLease s at_ (recGroup ws) (recLease s ws) (wfld (rWord ws 4) 15 12) = false → (s.core at_).lavail ≠ 0 →
        Nat.land layers (s.core at_).lavail = layers → badPack s at_ ws = false → badOrder s at_ (recGroup ws) before = false →
        ∃ t, exec (.recordWrite r slot ws) s = .next t ∧ sameMem s t ∧ sameRegs s t ∧
          smGet [] (t.region r).slots slot = before ++ [ws] ∧ (t.region r).status = 0) ∧
      (recordCode s r slot ws ≠ 0 → exec (.recordWrite r slot ws) s = .next (setStatus s r (recordCode s r slot ws)))) ∧
    (r < 16 → slot < 24 → k < (smGet [] (s.region r).slots slot).length →
      (k = 0 → (smFind (s.region r).preload slot).isSome = true → exec (.recordWithdraw r slot k) s = .next (setStatus s r 8)) ∧
      (k ≠ 0 ∨ smFind (s.region r).preload slot = none → ∃ t, exec (.recordWithdraw r slot k) s = .next t ∧ sameMem s t ∧ sameRegs s t ∧
        smGet [] (t.region r).slots slot = (smGet [] (s.region r).slots slot).eraseIdx k ∧ (t.region r).status = 0)) ∧
    ((smGet [] (s.region (regionOf c)).slots (slotOfCore c)).head? = some ws → (s.core c).stage = .free → (s.core c).handler = none →
      smFind (s.region (regionOf c)).preload (slotOfCore c) = none →
      (∀ e, preloadList s (regionOf c) ws = .error e → exec (.tlbPreload c) s = .next (stopBind (preloadReads s (regionOf c) ws) c ws e)) ∧
      (preloadList s (regionOf c) ws = .ok es → ∃ t, exec (.tlbPreload c) s = .next t ∧ sameMem s t ∧ sameRegs s t ∧ (t.core c).tlb = (List.range es.length).zip es ∧
        (t.core c).tlbNext = none ∧ (t.core c).stage = .bound ∧
        smFind (t.region (regionOf c)).preload (slotOfCore c) = some ((s.region (regionOf c)).hw.toNat + ceilDiv es.length 4))) ∧
    (∀ d, (smFind s.releases g).isSome = true → s.walker.doomed = [d] → d.group = g →
      exec (.packRelease g) s = .next (killDoomed { s with releases := smErase s.releases g } d)) ∧
    ((smFind s.releases g).isSome = true → headRecords s g = [(c, ws)] → recordOwner s ws = some id → recRestore ws = false →
      (∀ d ∈ s.walker.doomed, d.group ≠ g) →
      ∃ t, exec (.packRelease g) s = .next t ∧ sameMem s t ∧ (t.core c).stage = .running ∧ (t.core c).tbase = rWord ws 3 ∧
        (t.region (regionOf c)).hw + 1 - (t.core c).task.ab = rWord ws 3 ∧ (t.core c).task.pc = wfld (rWord ws 0) 35 21 ∧
        (t.core c).packid = rWord ws 2 ∧ (t.core c).task.reg 33 = BitVec.ofNat 64 (recLtile ws) ∧ (t.core c).engfmt = 0 ∧
        t.pack g = some { members := [c], inst := id, node := recNode ws, epoch := smGet 0 s.epochs g }) ∧
    (s.instance? inst = some i → (readyPrios s claimant).getLast? = some q →
      (inst = claimant ∨ i.hold = true ∨ (∃ p ∈ readyPrios s inst ++ runningPrios i, q ≤ p) → exec (.preempt inst claimant) s = .next s) ∧
      (inst ≠ claimant → i.hold = false → (∀ p ∈ readyPrios s inst ++ runningPrios i, p < q) → i.nodes = [] → i.creator = none →
        ∃ t, exec (.preempt inst claimant) s = .next t ∧ sameRegs s t ∧ (s.psc.saveArea = none → sameMem s t) ∧
          (t.instance? inst).map (fun z => (z.hold, z.heldAt, z.claimant)) = some (true, s.now, some claimant))) ∧
    (s.instance? inst = some i → i.hold = true → ∃ t, exec (.restore inst) s = .next t ∧ sameMem s t ∧ sameRegs s t ∧
      (t.instance? inst).map (·.hold) = some false) ∧
    (s.instance? inst = some i → i.hold = false → exec (.restore inst) s = .next s) ∧
    (exec (.shepherdCancel 0 inst node) s = .next (cancelNode s inst node) ∧ exec (.shepherdCancel 1 inst node) s = .next (cancelInst 257 s inst) ∧
      exec (.shepherdCancel 3 inst node) s = .next (cancelJob s) ∧
      (s.walker.insts = [] → exec (.shepherdCancel 2 inst node) s = .next s)) ∧
    (c < 384 →
      let e : Tlb := ⟨w0, w1⟩
      let l2 := (s.region (regionOf c)).l2
      (e.valid = true → e.badFormat = false → e.badColour = false →
        (ix < 384 → (∀ x ∈ (s.core c).tlbDue, x.1 ≠ ix → x.2.overlaps e = false) → ∃ t, exec (.shepherdTlbWrite c ix false w0 w1) s = .next t ∧
          sameMem s t ∧ sameRegs s t ∧ (t.core c).settle.tlb = smSet (s.core c).tlbDue ix (sealedEntry s e) ∧ (t.region (regionOf c)).status = 0) ∧
        (ix < 8192 → (∀ x ∈ l2, x.1 ≠ ix → x.2.overlaps e = false) → ∃ t, exec (.shepherdTlbWrite c ix true w0 w1) s = .next t ∧
          sameMem s t ∧ sameRegs s t ∧ (t.region (regionOf c)).l2 = smSet l2 ix (sealedEntry s e) ∧ (t.region (regionOf c)).status = 0)) ∧
      ((s.core c).fillTlb s ix e = .error f →
        exec (.shepherdTlbWrite c ix false w0 w1) s = .next (setStatus s (regionOf c) (f.1 * 256 + f.2))) ∧
      (tlbFill s l2 8192 ix e = .error f →
        exec (.shepherdTlbWrite c ix true w0 w1) s = .next (setStatus s (regionOf c) (f.1 * 256 + f.2)))) ∧
    (c < 384 →
      (markersIn (s.core c) 1 < 16 → markersIn (s.core c) 2 < 16 →
        ∃ t, exec (.shepherdTlbInvalidate [c] all va len) s = .next t ∧ sameMem s t ∧ sameRegs s t ∧
          (t.core c).tlb = (s.core c).tlb ∧ (∀ x, x ∈ (t.core c).settle.tlb ↔ x ∈ (s.core c).tlbDue ∧ ((s.core c).tlbNew.contains x.1 = true ∨
            all = false ∧ (len = 0 ∨ va + len ≤ x.2.vbase ∨ x.2.vbase + x.2.pageSize ≤ va))) ∧ (t.region (regionOf c)).status = 0 ∧
          (t.region (regionOf c)).l2 = tlbDrop (s.region (regionOf c)).l2 all va len) ∧
      (16 ≤ markersIn (s.core c) 1 ∨ 16 ≤ markersIn (s.core c) 2 →
        exec (.shepherdTlbInvalidate [c] all va len) s = .next (setStatus s (regionOf c) (12 * 256 + 3)))) ∧
    (∃ t, exec (.energyInterval [(1, 0, v)]) s = .next t ∧ sameMem s t ∧ sameRegs s t ∧ s.psc.energyJob + v ≤ t.psc.energyJob ∧
      t.psc.energyMaint = s.psc.energyMaint ∧ ∃ l, (s.now + 18000, Ev.energyInterval l) ∈ t.timers) ∧
    (∃ t, exec (.energyInterval [(2, 0, v)]) s = .next t ∧ t.psc.energyMaint = s.psc.energyMaint + v) ∧
    (s.instance? inst = some i → ∃ t j, exec (.energyInterval [(0, inst, v)]) s = .next t ∧ t.instance? inst = some j ∧ i.energy + v ≤ j.energy) ∧
    (c < 384 → smGet [] (s.region (regionOf c)).slots (slotOfCore c) = [] → (s.core c).stage = .free → (s.core c).handler = none →
      gatedCore s c = false → ∃ t, exec (.placeBallast c) s = .next t ∧ sameMem s t ∧ sameRegs s t ∧
        (s.walker.insts.map (·.1) = [inst] → inst ∈ t.walker.owing) ∧
        (t.region (regionOf c)).ballast = insertLine c (s.region (regionOf c)).ballast ∧
        (s.now + 144000, Ev.ballastStepDownEnd c) ∈ t.timers) ∧
    (∃ t, exec (.ballastStepDownEnd c) s = .next t ∧ sameMem s t ∧ sameRegs s t ∧
      (t.region (regionOf c)).ballast = (s.region (regionOf c)).ballast.filter (· ≠ c))

/-- REGION_GATE_BEGIN of a core region idle for its hold, or of an HBM region idle for 50 µs, begins to gate it; GATING_COMPLETE
of a core region gates it, and the A, W and C faces of its cores and their matrix registers then read zero, its
instruction buffers unchanged. WAKE_REQUEST ends a hold, also one that has ended in the same period of the reference,
and sends a gated region, or one that still gates, to the end of the queue of the in-rush arbiter; RAMP_START grants the head of that queue a ramp of 12 µs while fewer than two
ramp; RAMP_END wakes its region. GATE_HOLD_OVERRIDE only lengthens a hold. The 50 µs of an HBM
region are the model's reading (log 84). (R228, R235, R236, R237, R238) -/
def Obligations.GatingSteps : Prop :=
  ∀ (s : State) (r since time : Nat),
    (r < 16 → (s.region r).power = .idle since → since + (s.region r).holdFor ≤ s.now → regionIdle s r = true →
      ∃ t, exec (.regionGateBegin r) s = .next t ∧ sameMem s t ∧ sameRegs s t ∧ powerOf t r = .gating s.now ∧
        (s.now + 18000, Ev.gatingComplete r) ∈ t.timers) ∧
    (16 ≤ r → r < 32 → powerOf s r = .idle since → since + 900000 ≤ s.now → hbmIdle s (r - 16) = true →
      ∃ t, exec (.regionGateBegin r) s = .next t ∧ sameMem s t ∧ sameRegs s t ∧ powerOf t r = .gating s.now ∧
        (s.now + 18000, Ev.gatingComplete r) ∈ t.timers) ∧
    (r < 32 → powerOf s r = .awake → exec (.regionGateBegin r) s = .next s) ∧
    (r < 16 → powerOf s r = .gating since → ∃ t, exec (.gatingComplete r) s = .next t ∧
      powerOf t r = (if s.ramps.contains r then .queued else .gated) ∧
      ∀ c, c < 384 → (t.core c).task.regs = (s.core c).task.regs ∧
        (regionOf c = r → (t.core c).mrf = [] ∧ ∀ a, faceLoc c 0 0 ≤ a → a < faceLoc c 3 0 → readByte t.mem a = 0) ∧
        (∀ a, faceLoc c 3 0 ≤ a → a < faceLoc (c + 1) 0 0 → readByte t.mem a = readByte s.mem a)) ∧
    (r < 32 →
      (powerOf s r = .idle since ∨ powerOf s r = .gating since ∧ refPeriod since = refPeriod s.now →
        exec (.wakeRequest r) s = .next (awaken s r)) ∧
      (powerOf s r = .gating since → refPeriod since ≠ refPeriod s.now →
        (s.psc.tripped = false → r ∉ s.ramps → exec (.wakeRequest r) s = .next { s with ramps := s.ramps ++ [r] }) ∧
        (s.psc.tripped = true ∨ r ∈ s.ramps → exec (.wakeRequest r) s = .next s)) ∧
      (powerOf s r = .gated → s.psc.tripped = false → ∃ t, exec (.wakeRequest r) s = .next t ∧ sameMem s t ∧ sameRegs s t ∧
        powerOf t r = .queued ∧ t.ramps = s.ramps ++ [r]) ∧
      (powerOf s r = .gated → s.psc.tripped = true → exec (.wakeRequest r) s = .next s)) ∧
    (r < 16 → ∃ t, exec (.gateHoldOverride r time) s = .next t ∧ sameMem s t ∧ sameRegs s t ∧
      (t.region r).holdFor = max (s.region r).holdFor (time * 18000)) ∧
    (r < 32 → s.ramps.head? = some r → powerOf s r = .queued → ramping s < 2 → ∃ t, exec (.rampStart r) s = .next t ∧ sameMem s t ∧ sameRegs s t ∧
      powerOf t r = .ramping ∧ t.ramps = s.ramps.drop 1 ∧ (s.now + 216000, Ev.rampEnd r) ∈ t.timers) ∧
    (r < 32 → s.ramps.head? ≠ some r ∨ 2 ≤ ramping s → exec (.rampStart r) s = .next s) ∧
    (r < 32 → powerOf s r = .ramping → ∃ t, exec (.rampEnd r) s = .next t ∧ sameMem s t ∧ sameRegs s t ∧
      (powerOf t r = .awake ∨ 16 ≤ r ∧ powerOf t r = .idle s.now))

/-- A fault of a running task of a pack with no freeze stops its core at the tick of the fault, begins the freeze of
the pack with this core as primary and raises EPOCH, records the fault in FAULTINFO0 and FAULTINFO4, and sends the
notice 20 units (four network periods) later where another member is live; of a later fault of another member the one
with the lesser relative tick, then of the lower core, is the primary one and the other is recorded as SECOND, and the
freeze tick of every member stopped moves with it. No byte of memory and no register changes. A result whose flags meet an enabled trap takes the fault ARITH,
code 10, with the least such cause in place of its write. A fault of a handler ends the handler. How the freeze goes on is the model's reading (log 9).
(R248, R251, R256, R260, R272, R320) -/
def Obligations.FaultEntry : Prop :=
  ∀ (s : State) (c g t id cause : Nat) (r : FaultRec) (p : Pack) (z : Freeze) (q : Pending) (rp : Replay) (res : Res),
    ((s.core c).frozen = none → (s.core c).group = g → s.pack g = some p → c ∈ p.members → p.freeze = none →
      let u := takeFault s c false t r
      sameMem s u ∧ sameRegs s u ∧ (∃ f, (u.core c).frozen = some f ∧ f.held = t ∧ f.fault = some r ∧ f.second = false) ∧
        (∃ y, (u.pack g).bind (·.freeze) = some y ∧ y.primary = c ∧ y.phi = (BitVec.ofNat 64 t - (s.core c).tbase).toNat) ∧
        (u.pack g).map (·.epoch) = some (p.epoch + 1) ∧ smGet 0 (u.core c).fi 4 = r.addr ∧
        (r.code < 256 → wfld (smGet 0 (u.core c).fi 0) 7 0 = r.code) ∧ (r.cause < 256 → r.code < 256 → wfld (smGet 0 (u.core c).fi 0) 15 8 = r.cause) ∧
        (1 < (s.liveMembers p).length → (s.now + 20, Ev.freezeNoticeArrive g) ∈ u.timers)) ∧
    ((s.core c).frozen = none → (s.core c).group = g → s.pack g = some p → p.freeze = some z →
      let u := takeFault s c false t r
      let rel := (BitVec.ofNat 64 t - (s.core c).tbase).toNat
      sameMem s u ∧ sameRegs s u ∧ (∃ f, (u.core c).frozen = some f ∧ f.held = t ∧ f.fault = some r ∧
          f.second = !(decide (rel < z.phi) || decide (rel = z.phi) && decide (c < z.primary))) ∧
        (∀ m f, m ≠ c → m ∈ p.members → (s.core m).frozen = some f → (u.core m).frozen =
          some (if rel < z.phi ∨ rel = z.phi ∧ c < z.primary then { f with phi := ownTick s m rel, second := f.second || f.fault.isSome } else f)) ∧
        (∃ y, (u.pack g).bind (·.freeze) = some y ∧
          y.primary = (if rel < z.phi ∨ rel = z.phi ∧ c < z.primary then c else z.primary) ∧ y.phi = min rel z.phi)) ∧
    ((s.core c).handler.isSome = true → ((takeFault s c true t r).core c).handler = none) ∧
    (s.findItem c false id = some q → q.act = .result rp res → trapCause (s.core c).trapen res.flags = some cause →
      let v := s.setItem c false q.id (·.withReplay { rp with faulted := true })
      let u := takeFault v c false (s.tick c false) (faultOf rp.org rp.org.pipe 10 cause 0 (BitVec.ofNat 64 (res.flags % 32)))
      exec (.resultCommit c false id) s = .next u ∧ sameMem s u ∧ sameRegs s u ∧
        ((s.core c).frozen = none → (s.core c).group = g → s.pack g = some p → c ∈ p.members → p.freeze = none →
          (∃ f k, (u.core c).frozen = some f ∧ f.held = s.tick c false ∧ f.fault = some k ∧ k.code = 10 ∧ k.cause = cause) ∧
            wfld (smGet 0 (u.core c).fi 0) 7 0 = 10 ∧ wfld (smGet 0 (u.core c).fi 0) 15 8 = cause))

/-- Writing bytes from a location on makes exactly those locations read as the bytes written; a number of n bytes written in the byte order
of R10 reads back as the number; clearing a range makes exactly it read zero. (R10, R173, R185) -/
def Obligations.MemoryReadAfterWrite : Prop :=
  ∀ (m : Memory) (loc n v lo hi : Nat) (data : List Byte),
    (∀ a, readByte (writeBytes m loc data) a = if loc ≤ a ∧ a < loc + data.length then data.getD (a - loc) 0 else readByte m a) ∧
    readBytes (writeBytes m loc data) loc data.length = data ∧
    (leNat (readBytes (writeBytes m loc (leBytes n v)) loc n) = v % 2 ^ (8 * n)) ∧
    (∀ a, readByte (clearRange m lo hi) a = if lo ≤ a ∧ a < hi then 0 else readByte m a)

/-- For every state in canonical form (the locations of memory rise strictly, no byte listed is zero, the stored
errors rise strictly), if a step answers a next state, that state is in canonical form: equal memories stay equal data
whatever runs, on every state and not only on a run from reset. That an unlisted byte reads zero is the model's choice
(log 4). (R14, R127, R165) -/
def Obligations.CanonicalKept : Prop :=
  ∀ s t : State, s.Canonical → step s = .next t → t.Canonical

/-- The state after reset is canonical and holds the reset values the spec gives: TBASE, TASKID, PACKID, ENGFMT, ECHK, LEASE, KENNEL, CFMT
and HMASK zero, TH 1,024, every region at step 16, JSTAT 0, the power cap 10,000 W and PKGID 1,023; and the first step is the boot.
No item is pending, so that every number pending is below the next. That the boot is the first piece of work is the model's order of work
(log 1), and that it stands for all five steps is log 2. That memory reads zero and that a register without a stated value is zero are choices of the model
(logs 3 and 4), and are not claimed here. (R54, R92, R120, R144, R321, R476, R481, R496) -/
def Obligations.ResetState : Prop :=
  State.reset.Canonical ∧ State.reset.IdsBelow ∧
    (∀ c, (State.reset.core c).tbase = 0 ∧ (State.reset.core c).taskid = 0 ∧ (State.reset.core c).packid = 0 ∧
      (State.reset.core c).engfmt = 0 ∧ (State.reset.core c).echk = 0 ∧ (State.reset.core c).kennel = 0 ∧ (State.reset.core c).cfmt = 0 ∧
      (State.reset.core c).lease = {}) ∧
    (∀ h, (State.reset.hbm h).hmask = 0 ∧ (State.reset.hbm h).th = 1024) ∧ (∀ r, (State.reset.region r).step = 16) ∧
    State.reset.psc.jstate = 0 ∧ State.reset.psc.pcap = 10000 ∧ State.reset.psc.pkgid = 1023 ∧
    step State.reset = exec .boot { State.reset with work := [] }

/-- Where the next piece of work is the issue of a bundle of one word, which the decoder reads at the packet of the
task in the instruction buffer as an instruction of a pipe, a step is exec of that instruction in the state that names
it as the word being issued; then, with no fault raised, the task moves to the next packet and tick and the bundle is
counted, and with a fault that fault is taken (or, with code 0, the member stops, R251) and the word has no other
effect. At the start of a tick of a task that issues then, the step issues the bundle and makes the reads of the tick,
or only tries them where a fault at a stamp of the tick is to come before the issue, which then follows as work of its
own. A word that decodes to nothing faults ILLEGAL. The order of work within an instant is the model's choice (log 1). (R59, R277, R278, R280, R281, R302) -/
def Obligations.StepRunsWord : Prop :=
  ∀ (s u : State) (c w : Nat) (hold bad : Bool) (i : Instr) (rest : List Work),
    let th := s.thread c false
    let s0 : State := { s with work := rest, cur := { core := c, pc := th.pc, plan := linkPlan { s with work := rest } c } }
    let s1 := s0.modCore c fun k => { k with skip := 0 }
    (s.work = .issue c false :: rest → fetchWords s c th.pc 7 0 = [w] → bit w 31 = false → pipeOf w < 6 → th.loop = none → th.delay = none →
      (s.core c).skip = 0 → poisonIn s (faceLoc c 3 (12 * th.pc)) 12 = none →
      (decodeWord w = .ok i → exec i s0 = .next u →
        (u.cur.raised = none → step s =
          .next (bundleDone (u.modThread c false fun t => t.past (s.tick c false) ⟨th.pc, [w], 1⟩ false) c false none (th.pc + 1))) ∧
        (∀ r, u.cur.raised = some r → step s = .next (if r.code = 0 then stopMember s1 c (s.tick c false) none false false
          else takeFault s1 c false (s.tick c false) r).idleCur)) ∧
      (∀ d, decodeWord w = .error d → step s = .next (raise s1 (if d = .pipe then 0 else srcOf w) 1 (match d with
        | .pipe => 2
        | .opcode => 0
        | .reserved => 1)).idleCur)) ∧
    (s.work = .late c :: rest → stoppedCore s c = false → arrivesNow { s with work := rest } c = false →
      issuesNow { s with work := rest } c = true → issueBundle (State.planned { s with work := rest } c) c false = (.next u, bad) →
      step s = .next (closeTick c (s.tick c false) { s with work := rest } u bad)) ∧
    (s.work = .start c false hold :: rest → stoppedCore s c = false →
      let t := s.tick c false
      let a := writeStages c false { s with work := rest }
      let b := resultFaults c t (a.modCore c fun k => { k with trapen := wfld k.echk 20 16 })
      let d := openTick c t b
      stopsNow a c = false → awaitsStopped a c t = false → stopsAtIssue (openTick c t a) c = false → stoppedCore b c = false → arrivesNow d c = false → issuesNow d c = true →
      issueBundle (d.planned c) c false = (.next u, bad) →
      let e := closeTick c (d.tick c false) d u bad
      step s = .next (if hold && !stoppedCore e c then d else e))

/-- For every state in which each thread's pending items bear numbers below the thread's next number, every step that answers a next state
keeps this, whatever runs: an item never gets the number of another that its thread has pending, so that the result of a word is committed
once and to the register of that word. (R59, R303, R320) -/
def Obligations.PendingNumbersBelowNext : Prop :=
  ∀ s t : State, s.IdsBelow → step s = .next t → t.IdsBelow

/-- VBCAST posts the low lane of a scalar register of cluster A in every lane of the destination with latency 2, and faults ILLEGAL, cause
CLUSTER, with a register of cluster B; VPERM posts for each lane the lane of A that the lane of B names, or zero, with latency 3, both
operands read whole at issue. Each changes nothing else. (R371, R372) -/
def Obligations.BroadcastAndPermute : Prop :=
  ∀ (s : State) (ch : Bool) (w : BitVec 1) (d a b : BitVec 7) (g : BitVec 6),
    let n := if w = 0 then 32 else 16
    let A := readMat s.ccore.mrf a.toNat
    let B := readMat s.ccore.mrf b.toNat
    (fld (Instr.vbcast ch w d g).toWord 27 22 = 0x1E ∧ fld (Instr.vperm ch w d a b).toWord 27 22 = 0x1F) ∧
    (issues s (.vbcast ch w d g) .task = true → gives s (.vbcast ch w d g) 2 none (regSlots s [g.toNat]) false
      { writes := [(.mat d.toNat, vpack n ((List.range (1024 / n)).map fun _ => (rdReg s g.toNat).toNat % 2 ^ n))] }) ∧
    (32 ≤ g.toNat → illegalCause s.cur (Instr.vbcast ch w d g).toWord = some 3 ∧
      (s.cur.raised = none → exec (.vbcast ch w d g) s = .next (raise s 2 1 3))) ∧
    (issues s (.vperm ch w d a b) .task = true → givesMat s (.vperm ch w d a b) 3 [a.toNat, b.toNat] d.toNat n
      ((lanes n B).map fun k => (if k / 2 ^ (n - 1) = 1 then 0 else velem A n (k % (1024 / n)), 0)))
end

