-- ==== Sys2Proof/Laws/State.lean ====
section
/-!
SUPPORT. What the updates of the state leave alone and what they set: one lemma for each field and update, so that no proof unfolds a record
update; and the sparse maps of cores, regions and stacks read after a change.
-/
namespace Sys2Proof.Machine

/-! ### Sparse maps -/

@[simp] theorem smFind_nil {α : Type} (a : Nat) : smFind ([] : SMap α) a = none := rfl

/-- A key set reads as its value. -/
@[simp] theorem smFind_smSet_self {α : Type} (m : SMap α) (a : Nat) (v : α) : smFind (smSet m a v) a = some v := by
  induction m with
  | nil => simp [smSet, smFind]
  | cons p m ih =>
    obtain ⟨k, w⟩ := p
    simp only [smSet]
    split
    · simp [smFind]
    · split
      · simp [smFind]
      · rename_i h
        simp [smFind, Ne.symm h, ih]

/-- Another key reads as before. -/
theorem smFind_smSet_ne {α : Type} (m : SMap α) {a b : Nat} (v : α) (h : b ≠ a) : smFind (smSet m a v) b = smFind m b := by
  induction m with
  | nil => simp [smSet, smFind, Ne.symm h]
  | cons p m ih =>
    obtain ⟨k, w⟩ := p
    simp only [smSet]
    split
    · simp [smFind, Ne.symm h]
    · split
      · rename_i e
        subst e
        simp [smFind, Ne.symm h]
      · simp [smFind, ih]

/-- Any key after one has been set. -/
theorem smFind_smSet {α : Type} (m : SMap α) (a b : Nat) (v : α) : smFind (smSet m a v) b = if b = a then some v else smFind m b := by
  split
  · rename_i h; rw [h]; exact smFind_smSet_self m a v
  · rename_i h; exact smFind_smSet_ne m v h

@[simp] theorem smGet_smSet_self {α : Type} (d : α) (m : SMap α) (a : Nat) (v : α) : smGet d (smSet m a v) a = v := by simp [smGet]

theorem smGet_smSet_ne {α : Type} (d : α) (m : SMap α) {a b : Nat} (v : α) (h : b ≠ a) : smGet d (smSet m a v) b = smGet d m b := by
  simp [smGet, smFind_smSet_ne m v h]

theorem smGet_smSet {α : Type} (d : α) (m : SMap α) (a b : Nat) (v : α) :
    smGet d (smSet m a v) b = if b = a then v else smGet d m b := by
  simp only [smGet, smFind_smSet]; split <;> rfl

/-- A key erased is not listed; another key reads as before. -/
theorem smFind_smErase {α : Type} (m : SMap α) (a b : Nat) : smFind (smErase m a) b = if b = a then none else smFind m b := by
  induction m with
  | nil => simp [smErase]
  | cons p m ih =>
    obtain ⟨k, w⟩ := p
    simp only [smErase] at ih ⊢
    by_cases hk : k = a
    · subst hk
      simp only [List.filter_cons, bne_self_eq_false, Bool.false_eq_true, if_false, ih, smFind]
      split
      · rfl
      · rename_i h
        rw [if_neg (fun e => h e.symm)]
    · simp only [List.filter_cons, bne_iff_ne, ne_eq, hk, not_false_eq_true, if_true, smFind, ih]
      by_cases hb : k = b
      · subst hb; simp [hk]
      · simp [hb]

@[simp] theorem smFind_smErase_self {α : Type} (m : SMap α) (a : Nat) : smFind (smErase m a) a = none := by simp [smFind_smErase]

/-- A map changed value by value reads as the change of what it held. -/
theorem smFind_smMap {α β : Type} (f : Nat → α → β) (m : SMap α) (a : Nat) : smFind (smMap f m) a = (smFind m a).map (f a) := by
  induction m with
  | nil => rfl
  | cons p m ih =>
    obtain ⟨k, w⟩ := p
    simp only [smMap, List.map_cons, smFind] at ih ⊢
    split
    · rename_i h; subst h; rfl
    · exact ih

/-! ### Cores, regions and stacks -/

@[simp] theorem core_setCore_self (s : State) (c : Nat) (k : Core) : (s.setCore c k).core c = k := by simp [State.core, State.setCore]
theorem core_setCore_ne (s : State) {c d : Nat} (k : Core) (h : d ≠ c) : (s.setCore c k).core d = s.core d := by
  simp [State.core, State.setCore, smGet_smSet_ne _ _ _ h]
@[simp] theorem core_modCore_self (s : State) (c : Nat) (f : Core → Core) : (s.modCore c f).core c = f (s.core c) := by simp [State.modCore]
theorem core_modCore_ne (s : State) {c d : Nat} (f : Core → Core) (h : d ≠ c) : (s.modCore c f).core d = s.core d := by
  simp [State.modCore, core_setCore_ne _ _ h]
theorem core_modCore (s : State) (c d : Nat) (f : Core → Core) : (s.modCore c f).core d = if d = c then f (s.core c) else s.core d := by
  split
  · rename_i h; rw [h, core_modCore_self]
  · rename_i h; exact core_modCore_ne s f h
@[simp] theorem region_setRegion_self (s : State) (c : Nat) (k : Region) : (s.setRegion c k).region c = k := by simp [State.region, State.setRegion]
theorem region_setRegion_ne (s : State) {c d : Nat} (k : Region) (h : d ≠ c) : (s.setRegion c k).region d = s.region d := by
  simp [State.region, State.setRegion, smGet_smSet_ne _ _ _ h]
@[simp] theorem region_modRegion_self (s : State) (c : Nat) (f : Region → Region) : (s.modRegion c f).region c = f (s.region c) := by simp [State.modRegion]
theorem region_modRegion_ne (s : State) {c d : Nat} (f : Region → Region) (h : d ≠ c) : (s.modRegion c f).region d = s.region d := by
  simp [State.modRegion, region_setRegion_ne _ _ h]
theorem region_modRegion (s : State) (c d : Nat) (f : Region → Region) : (s.modRegion c f).region d = if d = c then f (s.region c) else s.region d := by
  split
  · rename_i h; rw [h, region_modRegion_self]
  · rename_i h; exact region_modRegion_ne s f h
@[simp] theorem hbm_setHbm_self (s : State) (c : Nat) (k : Hbm) : (s.setHbm c k).hbm c = k := by simp [State.hbm, State.setHbm]
theorem hbm_setHbm_ne (s : State) {c d : Nat} (k : Hbm) (h : d ≠ c) : (s.setHbm c k).hbm d = s.hbm d := by
  simp [State.hbm, State.setHbm, smGet_smSet_ne _ _ _ h]
@[simp] theorem hbm_modHbm_self (s : State) (c : Nat) (f : Hbm → Hbm) : (s.modHbm c f).hbm c = f (s.hbm c) := by simp [State.modHbm]
theorem hbm_modHbm_ne (s : State) {c d : Nat} (f : Hbm → Hbm) (h : d ≠ c) : (s.modHbm c f).hbm d = s.hbm d := by
  simp [State.modHbm, hbm_setHbm_ne _ _ h]
theorem hbm_modHbm (s : State) (c d : Nat) (f : Hbm → Hbm) : (s.modHbm c f).hbm d = if d = c then f (s.hbm c) else s.hbm d := by
  split
  · rename_i h; rw [h, hbm_modHbm_self]
  · rename_i h; exact hbm_modHbm_ne s f h

/-! ### What an update of cores, regions or stacks leaves alone -/

@[simp] theorem State.setCore_mem (s : State) (c : Nat) (k : Core) : (s.setCore c k).mem = s.mem := rfl
@[simp] theorem State.setCore_poison (s : State) (c : Nat) (k : Core) : (s.setCore c k).poison = s.poison := rfl
@[simp] theorem State.setCore_burstErr (s : State) (c : Nat) (k : Core) : (s.setCore c k).burstErr = s.burstErr := rfl
@[simp] theorem State.setCore_regions (s : State) (c : Nat) (k : Core) : (s.setCore c k).regions = s.regions := rfl
@[simp] theorem State.setCore_hbms (s : State) (c : Nat) (k : Core) : (s.setCore c k).hbms = s.hbms := rfl
@[simp] theorem State.setCore_packs (s : State) (c : Nat) (k : Core) : (s.setCore c k).packs = s.packs := rfl
@[simp] theorem State.setCore_barriers (s : State) (c : Nat) (k : Core) : (s.setCore c k).barriers = s.barriers := rfl
@[simp] theorem State.setCore_walker (s : State) (c : Nat) (k : Core) : (s.setCore c k).walker = s.walker := rfl
@[simp] theorem State.setCore_psc (s : State) (c : Nat) (k : Core) : (s.setCore c k).psc = s.psc := rfl
@[simp] theorem State.setCore_fwtab (s : State) (c : Nat) (k : Core) : (s.setCore c k).fwtab = s.fwtab := rfl
@[simp] theorem State.setCore_exptab (s : State) (c : Nat) (k : Core) : (s.setCore c k).exptab = s.exptab := rfl
@[simp] theorem State.setCore_ftlb (s : State) (c : Nat) (k : Core) : (s.setCore c k).ftlb = s.ftlb := rfl
@[simp] theorem State.setCore_leases (s : State) (c : Nat) (k : Core) : (s.setCore c k).leases = s.leases := rfl
@[simp] theorem State.setCore_traces (s : State) (c : Nat) (k : Core) : (s.setCore c k).traces = s.traces := rfl
@[simp] theorem State.setCore_ramps (s : State) (c : Nat) (k : Core) : (s.setCore c k).ramps = s.ramps := rfl
@[simp] theorem State.setCore_releases (s : State) (c : Nat) (k : Core) : (s.setCore c k).releases = s.releases := rfl
@[simp] theorem State.setCore_epochs (s : State) (c : Nat) (k : Core) : (s.setCore c k).epochs = s.epochs := rfl
@[simp] theorem State.setCore_invals (s : State) (c : Nat) (k : Core) : (s.setCore c k).invals = s.invals := rfl
@[simp] theorem State.setCore_now (s : State) (c : Nat) (k : Core) : (s.setCore c k).now = s.now := rfl
@[simp] theorem State.setCore_work (s : State) (c : Nat) (k : Core) : (s.setCore c k).work = s.work := rfl
@[simp] theorem State.setCore_timers (s : State) (c : Nat) (k : Core) : (s.setCore c k).timers = s.timers := rfl
@[simp] theorem State.setCore_cur (s : State) (c : Nat) (k : Core) : (s.setCore c k).cur = s.cur := rfl
@[simp] theorem State.setCore_fresh (s : State) (c : Nat) (k : Core) : (s.setCore c k).fresh = s.fresh := rfl
@[simp] theorem State.setCore_region (s : State) (c : Nat) (k : Core) (d : Nat) : (s.setCore c k).region d = s.region d := rfl
@[simp] theorem State.setCore_hbm (s : State) (c : Nat) (k : Core) (d : Nat) : (s.setCore c k).hbm d = s.hbm d := rfl

@[simp] theorem State.modCore_mem (s : State) (c : Nat) (f : Core → Core) : (s.modCore c f).mem = s.mem := rfl
@[simp] theorem State.modCore_poison (s : State) (c : Nat) (f : Core → Core) : (s.modCore c f).poison = s.poison := rfl
@[simp] theorem State.modCore_burstErr (s : State) (c : Nat) (f : Core → Core) : (s.modCore c f).burstErr = s.burstErr := rfl
@[simp] theorem State.modCore_regions (s : State) (c : Nat) (f : Core → Core) : (s.modCore c f).regions = s.regions := rfl
@[simp] theorem State.modCore_hbms (s : State) (c : Nat) (f : Core → Core) : (s.modCore c f).hbms = s.hbms := rfl
@[simp] theorem State.modCore_packs (s : State) (c : Nat) (f : Core → Core) : (s.modCore c f).packs = s.packs := rfl
@[simp] theorem State.modCore_barriers (s : State) (c : Nat) (f : Core → Core) : (s.modCore c f).barriers = s.barriers := rfl
@[simp] theorem State.modCore_walker (s : State) (c : Nat) (f : Core → Core) : (s.modCore c f).walker = s.walker := rfl
@[simp] theorem State.modCore_psc (s : State) (c : Nat) (f : Core → Core) : (s.modCore c f).psc = s.psc := rfl
@[simp] theorem State.modCore_fwtab (s : State) (c : Nat) (f : Core → Core) : (s.modCore c f).fwtab = s.fwtab := rfl
@[simp] theorem State.modCore_exptab (s : State) (c : Nat) (f : Core → Core) : (s.modCore c f).exptab = s.exptab := rfl
@[simp] theorem State.modCore_ftlb (s : State) (c : Nat) (f : Core → Core) : (s.modCore c f).ftlb = s.ftlb := rfl
@[simp] theorem State.modCore_leases (s : State) (c : Nat) (f : Core → Core) : (s.modCore c f).leases = s.leases := rfl
@[simp] theorem State.modCore_traces (s : State) (c : Nat) (f : Core → Core) : (s.modCore c f).traces = s.traces := rfl
@[simp] theorem State.modCore_ramps (s : State) (c : Nat) (f : Core → Core) : (s.modCore c f).ramps = s.ramps := rfl
@[simp] theorem State.modCore_releases (s : State) (c : Nat) (f : Core → Core) : (s.modCore c f).releases = s.releases := rfl
@[simp] theorem State.modCore_epochs (s : State) (c : Nat) (f : Core → Core) : (s.modCore c f).epochs = s.epochs := rfl
@[simp] theorem State.modCore_invals (s : State) (c : Nat) (f : Core → Core) : (s.modCore c f).invals = s.invals := rfl
@[simp] theorem State.modCore_now (s : State) (c : Nat) (f : Core → Core) : (s.modCore c f).now = s.now := rfl
@[simp] theorem State.modCore_work (s : State) (c : Nat) (f : Core → Core) : (s.modCore c f).work = s.work := rfl
@[simp] theorem State.modCore_timers (s : State) (c : Nat) (f : Core → Core) : (s.modCore c f).timers = s.timers := rfl
@[simp] theorem State.modCore_cur (s : State) (c : Nat) (f : Core → Core) : (s.modCore c f).cur = s.cur := rfl
@[simp] theorem State.modCore_fresh (s : State) (c : Nat) (f : Core → Core) : (s.modCore c f).fresh = s.fresh := rfl
@[simp] theorem State.modCore_region (s : State) (c : Nat) (f : Core → Core) (d : Nat) : (s.modCore c f).region d = s.region d := rfl
@[simp] theorem State.modCore_hbm (s : State) (c : Nat) (f : Core → Core) (d : Nat) : (s.modCore c f).hbm d = s.hbm d := rfl

@[simp] theorem State.modThread_mem (s : State) (c : Nat) (h : Bool) (f : Thread → Thread) : (s.modThread c h f).mem = s.mem := rfl
@[simp] theorem State.modThread_poison (s : State) (c : Nat) (h : Bool) (f : Thread → Thread) : (s.modThread c h f).poison = s.poison := rfl
@[simp] theorem State.modThread_burstErr (s : State) (c : Nat) (h : Bool) (f : Thread → Thread) : (s.modThread c h f).burstErr = s.burstErr := rfl
@[simp] theorem State.modThread_regions (s : State) (c : Nat) (h : Bool) (f : Thread → Thread) : (s.modThread c h f).regions = s.regions := rfl
@[simp] theorem State.modThread_hbms (s : State) (c : Nat) (h : Bool) (f : Thread → Thread) : (s.modThread c h f).hbms = s.hbms := rfl
@[simp] theorem State.modThread_packs (s : State) (c : Nat) (h : Bool) (f : Thread → Thread) : (s.modThread c h f).packs = s.packs := rfl
@[simp] theorem State.modThread_barriers (s : State) (c : Nat) (h : Bool) (f : Thread → Thread) : (s.modThread c h f).barriers = s.barriers := rfl
@[simp] theorem State.modThread_walker (s : State) (c : Nat) (h : Bool) (f : Thread → Thread) : (s.modThread c h f).walker = s.walker := rfl
@[simp] theorem State.modThread_psc (s : State) (c : Nat) (h : Bool) (f : Thread → Thread) : (s.modThread c h f).psc = s.psc := rfl
@[simp] theorem State.modThread_fwtab (s : State) (c : Nat) (h : Bool) (f : Thread → Thread) : (s.modThread c h f).fwtab = s.fwtab := rfl
@[simp] theorem State.modThread_exptab (s : State) (c : Nat) (h : Bool) (f : Thread → Thread) : (s.modThread c h f).exptab = s.exptab := rfl
@[simp] theorem State.modThread_ftlb (s : State) (c : Nat) (h : Bool) (f : Thread → Thread) : (s.modThread c h f).ftlb = s.ftlb := rfl
@[simp] theorem State.modThread_leases (s : State) (c : Nat) (h : Bool) (f : Thread → Thread) : (s.modThread c h f).leases = s.leases := rfl
@[simp] theorem State.modThread_traces (s : State) (c : Nat) (h : Bool) (f : Thread → Thread) : (s.modThread c h f).traces = s.traces := rfl
@[simp] theorem State.modThread_ramps (s : State) (c : Nat) (h : Bool) (f : Thread → Thread) : (s.modThread c h f).ramps = s.ramps := rfl
@[simp] theorem State.modThread_releases (s : State) (c : Nat) (h : Bool) (f : Thread → Thread) : (s.modThread c h f).releases = s.releases := rfl
@[simp] theorem State.modThread_epochs (s : State) (c : Nat) (h : Bool) (f : Thread → Thread) : (s.modThread c h f).epochs = s.epochs := rfl
@[simp] theorem State.modThread_invals (s : State) (c : Nat) (h : Bool) (f : Thread → Thread) : (s.modThread c h f).invals = s.invals := rfl
@[simp] theorem State.modThread_now (s : State) (c : Nat) (h : Bool) (f : Thread → Thread) : (s.modThread c h f).now = s.now := rfl
@[simp] theorem State.modThread_work (s : State) (c : Nat) (h : Bool) (f : Thread → Thread) : (s.modThread c h f).work = s.work := rfl
@[simp] theorem State.modThread_timers (s : State) (c : Nat) (h : Bool) (f : Thread → Thread) : (s.modThread c h f).timers = s.timers := rfl
@[simp] theorem State.modThread_cur (s : State) (c : Nat) (h : Bool) (f : Thread → Thread) : (s.modThread c h f).cur = s.cur := rfl
@[simp] theorem State.modThread_fresh (s : State) (c : Nat) (h : Bool) (f : Thread → Thread) : (s.modThread c h f).fresh = s.fresh := rfl
@[simp] theorem State.modThread_region (s : State) (c : Nat) (h : Bool) (f : Thread → Thread) (d : Nat) : (s.modThread c h f).region d = s.region d := rfl
@[simp] theorem State.modThread_hbm (s : State) (c : Nat) (h : Bool) (f : Thread → Thread) (d : Nat) : (s.modThread c h f).hbm d = s.hbm d := rfl

@[simp] theorem State.modRegion_mem (s : State) (r : Nat) (f : Region → Region) : (s.modRegion r f).mem = s.mem := rfl
@[simp] theorem State.modRegion_poison (s : State) (r : Nat) (f : Region → Region) : (s.modRegion r f).poison = s.poison := rfl
@[simp] theorem State.modRegion_burstErr (s : State) (r : Nat) (f : Region → Region) : (s.modRegion r f).burstErr = s.burstErr := rfl
@[simp] theorem State.modRegion_cores (s : State) (r : Nat) (f : Region → Region) : (s.modRegion r f).cores = s.cores := rfl
@[simp] theorem State.modRegion_hbms (s : State) (r : Nat) (f : Region → Region) : (s.modRegion r f).hbms = s.hbms := rfl
@[simp] theorem State.modRegion_packs (s : State) (r : Nat) (f : Region → Region) : (s.modRegion r f).packs = s.packs := rfl
@[simp] theorem State.modRegion_barriers (s : State) (r : Nat) (f : Region → Region) : (s.modRegion r f).barriers = s.barriers := rfl
@[simp] theorem State.modRegion_walker (s : State) (r : Nat) (f : Region → Region) : (s.modRegion r f).walker = s.walker := rfl
@[simp] theorem State.modRegion_psc (s : State) (r : Nat) (f : Region → Region) : (s.modRegion r f).psc = s.psc := rfl
@[simp] theorem State.modRegion_fwtab (s : State) (r : Nat) (f : Region → Region) : (s.modRegion r f).fwtab = s.fwtab := rfl
@[simp] theorem State.modRegion_exptab (s : State) (r : Nat) (f : Region → Region) : (s.modRegion r f).exptab = s.exptab := rfl
@[simp] theorem State.modRegion_ftlb (s : State) (r : Nat) (f : Region → Region) : (s.modRegion r f).ftlb = s.ftlb := rfl
@[simp] theorem State.modRegion_leases (s : State) (r : Nat) (f : Region → Region) : (s.modRegion r f).leases = s.leases := rfl
@[simp] theorem State.modRegion_traces (s : State) (r : Nat) (f : Region → Region) : (s.modRegion r f).traces = s.traces := rfl
@[simp] theorem State.modRegion_ramps (s : State) (r : Nat) (f : Region → Region) : (s.modRegion r f).ramps = s.ramps := rfl
@[simp] theorem State.modRegion_releases (s : State) (r : Nat) (f : Region → Region) : (s.modRegion r f).releases = s.releases := rfl
@[simp] theorem State.modRegion_epochs (s : State) (r : Nat) (f : Region → Region) : (s.modRegion r f).epochs = s.epochs := rfl
@[simp] theorem State.modRegion_invals (s : State) (r : Nat) (f : Region → Region) : (s.modRegion r f).invals = s.invals := rfl
@[simp] theorem State.modRegion_now (s : State) (r : Nat) (f : Region → Region) : (s.modRegion r f).now = s.now := rfl
@[simp] theorem State.modRegion_work (s : State) (r : Nat) (f : Region → Region) : (s.modRegion r f).work = s.work := rfl
@[simp] theorem State.modRegion_timers (s : State) (r : Nat) (f : Region → Region) : (s.modRegion r f).timers = s.timers := rfl
@[simp] theorem State.modRegion_cur (s : State) (r : Nat) (f : Region → Region) : (s.modRegion r f).cur = s.cur := rfl
@[simp] theorem State.modRegion_fresh (s : State) (r : Nat) (f : Region → Region) : (s.modRegion r f).fresh = s.fresh := rfl
@[simp] theorem State.modRegion_core (s : State) (r : Nat) (f : Region → Region) (d : Nat) : (s.modRegion r f).core d = s.core d := rfl
@[simp] theorem State.modRegion_hbm (s : State) (r : Nat) (f : Region → Region) (d : Nat) : (s.modRegion r f).hbm d = s.hbm d := rfl

@[simp] theorem State.setRegion_mem (s : State) (r : Nat) (k : Region) : (s.setRegion r k).mem = s.mem := rfl
@[simp] theorem State.setRegion_poison (s : State) (r : Nat) (k : Region) : (s.setRegion r k).poison = s.poison := rfl
@[simp] theorem State.setRegion_burstErr (s : State) (r : Nat) (k : Region) : (s.setRegion r k).burstErr = s.burstErr := rfl
@[simp] theorem State.setRegion_cores (s : State) (r : Nat) (k : Region) : (s.setRegion r k).cores = s.cores := rfl
@[simp] theorem State.setRegion_hbms (s : State) (r : Nat) (k : Region) : (s.setRegion r k).hbms = s.hbms := rfl
@[simp] theorem State.setRegion_packs (s : State) (r : Nat) (k : Region) : (s.setRegion r k).packs = s.packs := rfl
@[simp] theorem State.setRegion_barriers (s : State) (r : Nat) (k : Region) : (s.setRegion r k).barriers = s.barriers := rfl
@[simp] theorem State.setRegion_walker (s : State) (r : Nat) (k : Region) : (s.setRegion r k).walker = s.walker := rfl
@[simp] theorem State.setRegion_psc (s : State) (r : Nat) (k : Region) : (s.setRegion r k).psc = s.psc := rfl
@[simp] theorem State.setRegion_fwtab (s : State) (r : Nat) (k : Region) : (s.setRegion r k).fwtab = s.fwtab := rfl
@[simp] theorem State.setRegion_exptab (s : State) (r : Nat) (k : Region) : (s.setRegion r k).exptab = s.exptab := rfl
@[simp] theorem State.setRegion_ftlb (s : State) (r : Nat) (k : Region) : (s.setRegion r k).ftlb = s.ftlb := rfl
@[simp] theorem State.setRegion_leases (s : State) (r : Nat) (k : Region) : (s.setRegion r k).leases = s.leases := rfl
@[simp] theorem State.setRegion_traces (s : State) (r : Nat) (k : Region) : (s.setRegion r k).traces = s.traces := rfl
@[simp] theorem State.setRegion_ramps (s : State) (r : Nat) (k : Region) : (s.setRegion r k).ramps = s.ramps := rfl
@[simp] theorem State.setRegion_releases (s : State) (r : Nat) (k : Region) : (s.setRegion r k).releases = s.releases := rfl
@[simp] theorem State.setRegion_epochs (s : State) (r : Nat) (k : Region) : (s.setRegion r k).epochs = s.epochs := rfl
@[simp] theorem State.setRegion_invals (s : State) (r : Nat) (k : Region) : (s.setRegion r k).invals = s.invals := rfl
@[simp] theorem State.setRegion_now (s : State) (r : Nat) (k : Region) : (s.setRegion r k).now = s.now := rfl
@[simp] theorem State.setRegion_work (s : State) (r : Nat) (k : Region) : (s.setRegion r k).work = s.work := rfl
@[simp] theorem State.setRegion_timers (s : State) (r : Nat) (k : Region) : (s.setRegion r k).timers = s.timers := rfl
@[simp] theorem State.setRegion_cur (s : State) (r : Nat) (k : Region) : (s.setRegion r k).cur = s.cur := rfl
@[simp] theorem State.setRegion_fresh (s : State) (r : Nat) (k : Region) : (s.setRegion r k).fresh = s.fresh := rfl
@[simp] theorem State.setRegion_core (s : State) (r : Nat) (k : Region) (d : Nat) : (s.setRegion r k).core d = s.core d := rfl
@[simp] theorem State.setRegion_hbm (s : State) (r : Nat) (k : Region) (d : Nat) : (s.setRegion r k).hbm d = s.hbm d := rfl

@[simp] theorem State.modHbm_mem (s : State) (r : Nat) (f : Hbm → Hbm) : (s.modHbm r f).mem = s.mem := rfl
@[simp] theorem State.modHbm_poison (s : State) (r : Nat) (f : Hbm → Hbm) : (s.modHbm r f).poison = s.poison := rfl
@[simp] theorem State.modHbm_burstErr (s : State) (r : Nat) (f : Hbm → Hbm) : (s.modHbm r f).burstErr = s.burstErr := rfl
@[simp] theorem State.modHbm_cores (s : State) (r : Nat) (f : Hbm → Hbm) : (s.modHbm r f).cores = s.cores := rfl
@[simp] theorem State.modHbm_regions (s : State) (r : Nat) (f : Hbm → Hbm) : (s.modHbm r f).regions = s.regions := rfl
@[simp] theorem State.modHbm_packs (s : State) (r : Nat) (f : Hbm → Hbm) : (s.modHbm r f).packs = s.packs := rfl
@[simp] theorem State.modHbm_barriers (s : State) (r : Nat) (f : Hbm → Hbm) : (s.modHbm r f).barriers = s.barriers := rfl
@[simp] theorem State.modHbm_walker (s : State) (r : Nat) (f : Hbm → Hbm) : (s.modHbm r f).walker = s.walker := rfl
@[simp] theorem State.modHbm_psc (s : State) (r : Nat) (f : Hbm → Hbm) : (s.modHbm r f).psc = s.psc := rfl
@[simp] theorem State.modHbm_fwtab (s : State) (r : Nat) (f : Hbm → Hbm) : (s.modHbm r f).fwtab = s.fwtab := rfl
@[simp] theorem State.modHbm_exptab (s : State) (r : Nat) (f : Hbm → Hbm) : (s.modHbm r f).exptab = s.exptab := rfl
@[simp] theorem State.modHbm_ftlb (s : State) (r : Nat) (f : Hbm → Hbm) : (s.modHbm r f).ftlb = s.ftlb := rfl
@[simp] theorem State.modHbm_leases (s : State) (r : Nat) (f : Hbm → Hbm) : (s.modHbm r f).leases = s.leases := rfl
@[simp] theorem State.modHbm_traces (s : State) (r : Nat) (f : Hbm → Hbm) : (s.modHbm r f).traces = s.traces := rfl
@[simp] theorem State.modHbm_ramps (s : State) (r : Nat) (f : Hbm → Hbm) : (s.modHbm r f).ramps = s.ramps := rfl
@[simp] theorem State.modHbm_releases (s : State) (r : Nat) (f : Hbm → Hbm) : (s.modHbm r f).releases = s.releases := rfl
@[simp] theorem State.modHbm_epochs (s : State) (r : Nat) (f : Hbm → Hbm) : (s.modHbm r f).epochs = s.epochs := rfl
@[simp] theorem State.modHbm_invals (s : State) (r : Nat) (f : Hbm → Hbm) : (s.modHbm r f).invals = s.invals := rfl
@[simp] theorem State.modHbm_now (s : State) (r : Nat) (f : Hbm → Hbm) : (s.modHbm r f).now = s.now := rfl
@[simp] theorem State.modHbm_work (s : State) (r : Nat) (f : Hbm → Hbm) : (s.modHbm r f).work = s.work := rfl
@[simp] theorem State.modHbm_timers (s : State) (r : Nat) (f : Hbm → Hbm) : (s.modHbm r f).timers = s.timers := rfl
@[simp] theorem State.modHbm_cur (s : State) (r : Nat) (f : Hbm → Hbm) : (s.modHbm r f).cur = s.cur := rfl
@[simp] theorem State.modHbm_fresh (s : State) (r : Nat) (f : Hbm → Hbm) : (s.modHbm r f).fresh = s.fresh := rfl
@[simp] theorem State.modHbm_core (s : State) (r : Nat) (f : Hbm → Hbm) (d : Nat) : (s.modHbm r f).core d = s.core d := rfl
@[simp] theorem State.modHbm_region (s : State) (r : Nat) (f : Hbm → Hbm) (d : Nat) : (s.modHbm r f).region d = s.region d := rfl

@[simp] theorem State.setHbm_mem (s : State) (r : Nat) (k : Hbm) : (s.setHbm r k).mem = s.mem := rfl
@[simp] theorem State.setHbm_poison (s : State) (r : Nat) (k : Hbm) : (s.setHbm r k).poison = s.poison := rfl
@[simp] theorem State.setHbm_burstErr (s : State) (r : Nat) (k : Hbm) : (s.setHbm r k).burstErr = s.burstErr := rfl
@[simp] theorem State.setHbm_cores (s : State) (r : Nat) (k : Hbm) : (s.setHbm r k).cores = s.cores := rfl
@[simp] theorem State.setHbm_regions (s : State) (r : Nat) (k : Hbm) : (s.setHbm r k).regions = s.regions := rfl
@[simp] theorem State.setHbm_packs (s : State) (r : Nat) (k : Hbm) : (s.setHbm r k).packs = s.packs := rfl
@[simp] theorem State.setHbm_barriers (s : State) (r : Nat) (k : Hbm) : (s.setHbm r k).barriers = s.barriers := rfl
@[simp] theorem State.setHbm_walker (s : State) (r : Nat) (k : Hbm) : (s.setHbm r k).walker = s.walker := rfl
@[simp] theorem State.setHbm_psc (s : State) (r : Nat) (k : Hbm) : (s.setHbm r k).psc = s.psc := rfl
@[simp] theorem State.setHbm_fwtab (s : State) (r : Nat) (k : Hbm) : (s.setHbm r k).fwtab = s.fwtab := rfl
@[simp] theorem State.setHbm_exptab (s : State) (r : Nat) (k : Hbm) : (s.setHbm r k).exptab = s.exptab := rfl
@[simp] theorem State.setHbm_ftlb (s : State) (r : Nat) (k : Hbm) : (s.setHbm r k).ftlb = s.ftlb := rfl
@[simp] theorem State.setHbm_leases (s : State) (r : Nat) (k : Hbm) : (s.setHbm r k).leases = s.leases := rfl
@[simp] theorem State.setHbm_traces (s : State) (r : Nat) (k : Hbm) : (s.setHbm r k).traces = s.traces := rfl
@[simp] theorem State.setHbm_ramps (s : State) (r : Nat) (k : Hbm) : (s.setHbm r k).ramps = s.ramps := rfl
@[simp] theorem State.setHbm_releases (s : State) (r : Nat) (k : Hbm) : (s.setHbm r k).releases = s.releases := rfl
@[simp] theorem State.setHbm_epochs (s : State) (r : Nat) (k : Hbm) : (s.setHbm r k).epochs = s.epochs := rfl
@[simp] theorem State.setHbm_invals (s : State) (r : Nat) (k : Hbm) : (s.setHbm r k).invals = s.invals := rfl
@[simp] theorem State.setHbm_now (s : State) (r : Nat) (k : Hbm) : (s.setHbm r k).now = s.now := rfl
@[simp] theorem State.setHbm_work (s : State) (r : Nat) (k : Hbm) : (s.setHbm r k).work = s.work := rfl
@[simp] theorem State.setHbm_timers (s : State) (r : Nat) (k : Hbm) : (s.setHbm r k).timers = s.timers := rfl
@[simp] theorem State.setHbm_cur (s : State) (r : Nat) (k : Hbm) : (s.setHbm r k).cur = s.cur := rfl
@[simp] theorem State.setHbm_fresh (s : State) (r : Nat) (k : Hbm) : (s.setHbm r k).fresh = s.fresh := rfl
@[simp] theorem State.setHbm_core (s : State) (r : Nat) (k : Hbm) (d : Nat) : (s.setHbm r k).core d = s.core d := rfl
@[simp] theorem State.setHbm_region (s : State) (r : Nat) (k : Hbm) (d : Nat) : (s.setHbm r k).region d = s.region d := rfl

@[simp] theorem State.later_mem (s : State) (n : Nat) (e : Ev) : (s.later n e).mem = s.mem := rfl
@[simp] theorem State.later_poison (s : State) (n : Nat) (e : Ev) : (s.later n e).poison = s.poison := rfl
@[simp] theorem State.later_burstErr (s : State) (n : Nat) (e : Ev) : (s.later n e).burstErr = s.burstErr := rfl
@[simp] theorem State.later_cores (s : State) (n : Nat) (e : Ev) : (s.later n e).cores = s.cores := rfl
@[simp] theorem State.later_regions (s : State) (n : Nat) (e : Ev) : (s.later n e).regions = s.regions := rfl
@[simp] theorem State.later_hbms (s : State) (n : Nat) (e : Ev) : (s.later n e).hbms = s.hbms := rfl
@[simp] theorem State.later_packs (s : State) (n : Nat) (e : Ev) : (s.later n e).packs = s.packs := rfl
@[simp] theorem State.later_barriers (s : State) (n : Nat) (e : Ev) : (s.later n e).barriers = s.barriers := rfl
@[simp] theorem State.later_walker (s : State) (n : Nat) (e : Ev) : (s.later n e).walker = s.walker := rfl
@[simp] theorem State.later_psc (s : State) (n : Nat) (e : Ev) : (s.later n e).psc = s.psc := rfl
@[simp] theorem State.later_fwtab (s : State) (n : Nat) (e : Ev) : (s.later n e).fwtab = s.fwtab := rfl
@[simp] theorem State.later_exptab (s : State) (n : Nat) (e : Ev) : (s.later n e).exptab = s.exptab := rfl
@[simp] theorem State.later_ftlb (s : State) (n : Nat) (e : Ev) : (s.later n e).ftlb = s.ftlb := rfl
@[simp] theorem State.later_leases (s : State) (n : Nat) (e : Ev) : (s.later n e).leases = s.leases := rfl
@[simp] theorem State.later_traces (s : State) (n : Nat) (e : Ev) : (s.later n e).traces = s.traces := rfl
@[simp] theorem State.later_ramps (s : State) (n : Nat) (e : Ev) : (s.later n e).ramps = s.ramps := rfl
@[simp] theorem State.later_releases (s : State) (n : Nat) (e : Ev) : (s.later n e).releases = s.releases := rfl
@[simp] theorem State.later_epochs (s : State) (n : Nat) (e : Ev) : (s.later n e).epochs = s.epochs := rfl
@[simp] theorem State.later_invals (s : State) (n : Nat) (e : Ev) : (s.later n e).invals = s.invals := rfl
@[simp] theorem State.later_now (s : State) (n : Nat) (e : Ev) : (s.later n e).now = s.now := rfl
@[simp] theorem State.later_work (s : State) (n : Nat) (e : Ev) : (s.later n e).work = s.work := rfl
@[simp] theorem State.later_cur (s : State) (n : Nat) (e : Ev) : (s.later n e).cur = s.cur := rfl
@[simp] theorem State.later_fresh (s : State) (n : Nat) (e : Ev) : (s.later n e).fresh = s.fresh := rfl
@[simp] theorem State.later_core (s : State) (n : Nat) (e : Ev) (d : Nat) : (s.later n e).core d = s.core d := rfl
@[simp] theorem State.later_region (s : State) (n : Nat) (e : Ev) (d : Nat) : (s.later n e).region d = s.region d := rfl
@[simp] theorem State.later_hbm (s : State) (n : Nat) (e : Ev) (d : Nat) : (s.later n e).hbm d = s.hbm d := rfl

@[simp] theorem State.post_mem (s : State) (c : Nat) (h : Bool) (p : Pending) : (s.post c h p).mem = s.mem := rfl
@[simp] theorem State.post_poison (s : State) (c : Nat) (h : Bool) (p : Pending) : (s.post c h p).poison = s.poison := rfl
@[simp] theorem State.post_burstErr (s : State) (c : Nat) (h : Bool) (p : Pending) : (s.post c h p).burstErr = s.burstErr := rfl
@[simp] theorem State.post_regions (s : State) (c : Nat) (h : Bool) (p : Pending) : (s.post c h p).regions = s.regions := rfl
@[simp] theorem State.post_hbms (s : State) (c : Nat) (h : Bool) (p : Pending) : (s.post c h p).hbms = s.hbms := rfl
@[simp] theorem State.post_packs (s : State) (c : Nat) (h : Bool) (p : Pending) : (s.post c h p).packs = s.packs := rfl
@[simp] theorem State.post_barriers (s : State) (c : Nat) (h : Bool) (p : Pending) : (s.post c h p).barriers = s.barriers := rfl
@[simp] theorem State.post_walker (s : State) (c : Nat) (h : Bool) (p : Pending) : (s.post c h p).walker = s.walker := rfl
@[simp] theorem State.post_psc (s : State) (c : Nat) (h : Bool) (p : Pending) : (s.post c h p).psc = s.psc := rfl
@[simp] theorem State.post_fwtab (s : State) (c : Nat) (h : Bool) (p : Pending) : (s.post c h p).fwtab = s.fwtab := rfl
@[simp] theorem State.post_exptab (s : State) (c : Nat) (h : Bool) (p : Pending) : (s.post c h p).exptab = s.exptab := rfl
@[simp] theorem State.post_ftlb (s : State) (c : Nat) (h : Bool) (p : Pending) : (s.post c h p).ftlb = s.ftlb := rfl
@[simp] theorem State.post_leases (s : State) (c : Nat) (h : Bool) (p : Pending) : (s.post c h p).leases = s.leases := rfl
@[simp] theorem State.post_traces (s : State) (c : Nat) (h : Bool) (p : Pending) : (s.post c h p).traces = s.traces := rfl
@[simp] theorem State.post_ramps (s : State) (c : Nat) (h : Bool) (p : Pending) : (s.post c h p).ramps = s.ramps := rfl
@[simp] theorem State.post_releases (s : State) (c : Nat) (h : Bool) (p : Pending) : (s.post c h p).releases = s.releases := rfl
@[simp] theorem State.post_epochs (s : State) (c : Nat) (h : Bool) (p : Pending) : (s.post c h p).epochs = s.epochs := rfl
@[simp] theorem State.post_invals (s : State) (c : Nat) (h : Bool) (p : Pending) : (s.post c h p).invals = s.invals := rfl
@[simp] theorem State.post_now (s : State) (c : Nat) (h : Bool) (p : Pending) : (s.post c h p).now = s.now := rfl
@[simp] theorem State.post_work (s : State) (c : Nat) (h : Bool) (p : Pending) : (s.post c h p).work = s.work := rfl
@[simp] theorem State.post_timers (s : State) (c : Nat) (h : Bool) (p : Pending) : (s.post c h p).timers = s.timers := rfl
@[simp] theorem State.post_cur (s : State) (c : Nat) (h : Bool) (p : Pending) : (s.post c h p).cur = s.cur := rfl
@[simp] theorem State.post_fresh (s : State) (c : Nat) (h : Bool) (p : Pending) : (s.post c h p).fresh = s.fresh := rfl
@[simp] theorem State.post_region (s : State) (c : Nat) (h : Bool) (p : Pending) (d : Nat) : (s.post c h p).region d = s.region d := rfl
@[simp] theorem State.post_hbm (s : State) (c : Nat) (h : Bool) (p : Pending) (d : Nat) : (s.post c h p).hbm d = s.hbm d := rfl

@[simp] theorem State.access_mem (s : State) (c : Nat) (h : Bool) (o : Outst) : (s.access c h o).mem = s.mem := rfl
@[simp] theorem State.access_poison (s : State) (c : Nat) (h : Bool) (o : Outst) : (s.access c h o).poison = s.poison := rfl
@[simp] theorem State.access_burstErr (s : State) (c : Nat) (h : Bool) (o : Outst) : (s.access c h o).burstErr = s.burstErr := rfl
@[simp] theorem State.access_regions (s : State) (c : Nat) (h : Bool) (o : Outst) : (s.access c h o).regions = s.regions := rfl
@[simp] theorem State.access_hbms (s : State) (c : Nat) (h : Bool) (o : Outst) : (s.access c h o).hbms = s.hbms := rfl
@[simp] theorem State.access_packs (s : State) (c : Nat) (h : Bool) (o : Outst) : (s.access c h o).packs = s.packs := rfl
@[simp] theorem State.access_barriers (s : State) (c : Nat) (h : Bool) (o : Outst) : (s.access c h o).barriers = s.barriers := rfl
@[simp] theorem State.access_walker (s : State) (c : Nat) (h : Bool) (o : Outst) : (s.access c h o).walker = s.walker := rfl
@[simp] theorem State.access_psc (s : State) (c : Nat) (h : Bool) (o : Outst) : (s.access c h o).psc = s.psc := rfl
@[simp] theorem State.access_fwtab (s : State) (c : Nat) (h : Bool) (o : Outst) : (s.access c h o).fwtab = s.fwtab := rfl
@[simp] theorem State.access_exptab (s : State) (c : Nat) (h : Bool) (o : Outst) : (s.access c h o).exptab = s.exptab := rfl
@[simp] theorem State.access_ftlb (s : State) (c : Nat) (h : Bool) (o : Outst) : (s.access c h o).ftlb = s.ftlb := rfl
@[simp] theorem State.access_leases (s : State) (c : Nat) (h : Bool) (o : Outst) : (s.access c h o).leases = s.leases := rfl
@[simp] theorem State.access_traces (s : State) (c : Nat) (h : Bool) (o : Outst) : (s.access c h o).traces = s.traces := rfl
@[simp] theorem State.access_ramps (s : State) (c : Nat) (h : Bool) (o : Outst) : (s.access c h o).ramps = s.ramps := rfl
@[simp] theorem State.access_releases (s : State) (c : Nat) (h : Bool) (o : Outst) : (s.access c h o).releases = s.releases := rfl
@[simp] theorem State.access_epochs (s : State) (c : Nat) (h : Bool) (o : Outst) : (s.access c h o).epochs = s.epochs := rfl
@[simp] theorem State.access_invals (s : State) (c : Nat) (h : Bool) (o : Outst) : (s.access c h o).invals = s.invals := rfl
@[simp] theorem State.access_now (s : State) (c : Nat) (h : Bool) (o : Outst) : (s.access c h o).now = s.now := rfl
@[simp] theorem State.access_work (s : State) (c : Nat) (h : Bool) (o : Outst) : (s.access c h o).work = s.work := rfl
@[simp] theorem State.access_timers (s : State) (c : Nat) (h : Bool) (o : Outst) : (s.access c h o).timers = s.timers := rfl
@[simp] theorem State.access_cur (s : State) (c : Nat) (h : Bool) (o : Outst) : (s.access c h o).cur = s.cur := rfl
@[simp] theorem State.access_fresh (s : State) (c : Nat) (h : Bool) (o : Outst) : (s.access c h o).fresh = s.fresh := rfl
@[simp] theorem State.access_region (s : State) (c : Nat) (h : Bool) (o : Outst) (d : Nat) : (s.access c h o).region d = s.region d := rfl
@[simp] theorem State.access_hbm (s : State) (c : Nat) (h : Bool) (o : Outst) (d : Nat) : (s.access c h o).hbm d = s.hbm d := rfl

@[simp] theorem State.performed_mem (s : State) (c : Nat) (h : Bool) (a n : Nat) : (s.performed c h a n).mem = s.mem := rfl
@[simp] theorem State.performed_poison (s : State) (c : Nat) (h : Bool) (a n : Nat) : (s.performed c h a n).poison = s.poison := rfl
@[simp] theorem State.performed_burstErr (s : State) (c : Nat) (h : Bool) (a n : Nat) : (s.performed c h a n).burstErr = s.burstErr := rfl
@[simp] theorem State.performed_regions (s : State) (c : Nat) (h : Bool) (a n : Nat) : (s.performed c h a n).regions = s.regions := rfl
@[simp] theorem State.performed_hbms (s : State) (c : Nat) (h : Bool) (a n : Nat) : (s.performed c h a n).hbms = s.hbms := rfl
@[simp] theorem State.performed_packs (s : State) (c : Nat) (h : Bool) (a n : Nat) : (s.performed c h a n).packs = s.packs := rfl
@[simp] theorem State.performed_barriers (s : State) (c : Nat) (h : Bool) (a n : Nat) : (s.performed c h a n).barriers = s.barriers := rfl
@[simp] theorem State.performed_walker (s : State) (c : Nat) (h : Bool) (a n : Nat) : (s.performed c h a n).walker = s.walker := rfl
@[simp] theorem State.performed_psc (s : State) (c : Nat) (h : Bool) (a n : Nat) : (s.performed c h a n).psc = s.psc := rfl
@[simp] theorem State.performed_fwtab (s : State) (c : Nat) (h : Bool) (a n : Nat) : (s.performed c h a n).fwtab = s.fwtab := rfl
@[simp] theorem State.performed_exptab (s : State) (c : Nat) (h : Bool) (a n : Nat) : (s.performed c h a n).exptab = s.exptab := rfl
@[simp] theorem State.performed_ftlb (s : State) (c : Nat) (h : Bool) (a n : Nat) : (s.performed c h a n).ftlb = s.ftlb := rfl
@[simp] theorem State.performed_leases (s : State) (c : Nat) (h : Bool) (a n : Nat) : (s.performed c h a n).leases = s.leases := rfl
@[simp] theorem State.performed_traces (s : State) (c : Nat) (h : Bool) (a n : Nat) : (s.performed c h a n).traces = s.traces := rfl
@[simp] theorem State.performed_ramps (s : State) (c : Nat) (h : Bool) (a n : Nat) : (s.performed c h a n).ramps = s.ramps := rfl
@[simp] theorem State.performed_releases (s : State) (c : Nat) (h : Bool) (a n : Nat) : (s.performed c h a n).releases = s.releases := rfl
@[simp] theorem State.performed_epochs (s : State) (c : Nat) (h : Bool) (a n : Nat) : (s.performed c h a n).epochs = s.epochs := rfl
@[simp] theorem State.performed_invals (s : State) (c : Nat) (h : Bool) (a n : Nat) : (s.performed c h a n).invals = s.invals := rfl
@[simp] theorem State.performed_now (s : State) (c : Nat) (h : Bool) (a n : Nat) : (s.performed c h a n).now = s.now := rfl
@[simp] theorem State.performed_work (s : State) (c : Nat) (h : Bool) (a n : Nat) : (s.performed c h a n).work = s.work := rfl
@[simp] theorem State.performed_timers (s : State) (c : Nat) (h : Bool) (a n : Nat) : (s.performed c h a n).timers = s.timers := rfl
@[simp] theorem State.performed_cur (s : State) (c : Nat) (h : Bool) (a n : Nat) : (s.performed c h a n).cur = s.cur := rfl
@[simp] theorem State.performed_fresh (s : State) (c : Nat) (h : Bool) (a n : Nat) : (s.performed c h a n).fresh = s.fresh := rfl
@[simp] theorem State.performed_region (s : State) (c : Nat) (h : Bool) (a n : Nat) (d : Nat) : (s.performed c h a n).region d = s.region d := rfl
@[simp] theorem State.performed_hbm (s : State) (c : Nat) (h : Bool) (a n : Nat) (d : Nat) : (s.performed c h a n).hbm d = s.hbm d := rfl

@[simp] theorem State.cause_mem (s : State) (b : Nat) : (s.cause b).mem = s.mem := rfl
@[simp] theorem State.cause_poison (s : State) (b : Nat) : (s.cause b).poison = s.poison := rfl
@[simp] theorem State.cause_burstErr (s : State) (b : Nat) : (s.cause b).burstErr = s.burstErr := rfl
@[simp] theorem State.cause_cores (s : State) (b : Nat) : (s.cause b).cores = s.cores := rfl
@[simp] theorem State.cause_regions (s : State) (b : Nat) : (s.cause b).regions = s.regions := rfl
@[simp] theorem State.cause_hbms (s : State) (b : Nat) : (s.cause b).hbms = s.hbms := rfl
@[simp] theorem State.cause_packs (s : State) (b : Nat) : (s.cause b).packs = s.packs := rfl
@[simp] theorem State.cause_barriers (s : State) (b : Nat) : (s.cause b).barriers = s.barriers := rfl
@[simp] theorem State.cause_walker (s : State) (b : Nat) : (s.cause b).walker = s.walker := rfl
@[simp] theorem State.cause_fwtab (s : State) (b : Nat) : (s.cause b).fwtab = s.fwtab := rfl
@[simp] theorem State.cause_exptab (s : State) (b : Nat) : (s.cause b).exptab = s.exptab := rfl
@[simp] theorem State.cause_ftlb (s : State) (b : Nat) : (s.cause b).ftlb = s.ftlb := rfl
@[simp] theorem State.cause_leases (s : State) (b : Nat) : (s.cause b).leases = s.leases := rfl
@[simp] theorem State.cause_traces (s : State) (b : Nat) : (s.cause b).traces = s.traces := rfl
@[simp] theorem State.cause_ramps (s : State) (b : Nat) : (s.cause b).ramps = s.ramps := rfl
@[simp] theorem State.cause_releases (s : State) (b : Nat) : (s.cause b).releases = s.releases := rfl
@[simp] theorem State.cause_epochs (s : State) (b : Nat) : (s.cause b).epochs = s.epochs := rfl
@[simp] theorem State.cause_invals (s : State) (b : Nat) : (s.cause b).invals = s.invals := rfl
@[simp] theorem State.cause_now (s : State) (b : Nat) : (s.cause b).now = s.now := rfl
@[simp] theorem State.cause_work (s : State) (b : Nat) : (s.cause b).work = s.work := rfl
@[simp] theorem State.cause_timers (s : State) (b : Nat) : (s.cause b).timers = s.timers := rfl
@[simp] theorem State.cause_cur (s : State) (b : Nat) : (s.cause b).cur = s.cur := rfl
@[simp] theorem State.cause_fresh (s : State) (b : Nat) : (s.cause b).fresh = s.fresh := rfl
@[simp] theorem State.cause_core (s : State) (b : Nat) (d : Nat) : (s.cause b).core d = s.core d := rfl
@[simp] theorem State.cause_region (s : State) (b : Nat) (d : Nat) : (s.cause b).region d = s.region d := rfl
@[simp] theorem State.cause_hbm (s : State) (b : Nat) (d : Nat) : (s.cause b).hbm d = s.hbm d := rfl

/-! ### Updates that a look-up guards -/

@[simp] theorem State.modPack_mem (s : State) (g : Nat) (f : Pack → Pack) : (s.modPack g f).mem = s.mem := by unfold State.modPack; split <;> rfl
@[simp] theorem State.modPack_poison (s : State) (g : Nat) (f : Pack → Pack) : (s.modPack g f).poison = s.poison := by unfold State.modPack; split <;> rfl
@[simp] theorem State.modPack_burstErr (s : State) (g : Nat) (f : Pack → Pack) : (s.modPack g f).burstErr = s.burstErr := by unfold State.modPack; split <;> rfl
@[simp] theorem State.modPack_cores (s : State) (g : Nat) (f : Pack → Pack) : (s.modPack g f).cores = s.cores := by unfold State.modPack; split <;> rfl
@[simp] theorem State.modPack_regions (s : State) (g : Nat) (f : Pack → Pack) : (s.modPack g f).regions = s.regions := by unfold State.modPack; split <;> rfl
@[simp] theorem State.modPack_hbms (s : State) (g : Nat) (f : Pack → Pack) : (s.modPack g f).hbms = s.hbms := by unfold State.modPack; split <;> rfl
@[simp] theorem State.modPack_barriers (s : State) (g : Nat) (f : Pack → Pack) : (s.modPack g f).barriers = s.barriers := by unfold State.modPack; split <;> rfl
@[simp] theorem State.modPack_walker (s : State) (g : Nat) (f : Pack → Pack) : (s.modPack g f).walker = s.walker := by unfold State.modPack; split <;> rfl
@[simp] theorem State.modPack_psc (s : State) (g : Nat) (f : Pack → Pack) : (s.modPack g f).psc = s.psc := by unfold State.modPack; split <;> rfl
@[simp] theorem State.modPack_fwtab (s : State) (g : Nat) (f : Pack → Pack) : (s.modPack g f).fwtab = s.fwtab := by unfold State.modPack; split <;> rfl
@[simp] theorem State.modPack_exptab (s : State) (g : Nat) (f : Pack → Pack) : (s.modPack g f).exptab = s.exptab := by unfold State.modPack; split <;> rfl
@[simp] theorem State.modPack_ftlb (s : State) (g : Nat) (f : Pack → Pack) : (s.modPack g f).ftlb = s.ftlb := by unfold State.modPack; split <;> rfl
@[simp] theorem State.modPack_leases (s : State) (g : Nat) (f : Pack → Pack) : (s.modPack g f).leases = s.leases := by unfold State.modPack; split <;> rfl
@[simp] theorem State.modPack_traces (s : State) (g : Nat) (f : Pack → Pack) : (s.modPack g f).traces = s.traces := by unfold State.modPack; split <;> rfl
@[simp] theorem State.modPack_ramps (s : State) (g : Nat) (f : Pack → Pack) : (s.modPack g f).ramps = s.ramps := by unfold State.modPack; split <;> rfl
@[simp] theorem State.modPack_releases (s : State) (g : Nat) (f : Pack → Pack) : (s.modPack g f).releases = s.releases := by unfold State.modPack; split <;> rfl
@[simp] theorem State.modPack_epochs (s : State) (g : Nat) (f : Pack → Pack) : (s.modPack g f).epochs = s.epochs := by unfold State.modPack; split <;> rfl
@[simp] theorem State.modPack_invals (s : State) (g : Nat) (f : Pack → Pack) : (s.modPack g f).invals = s.invals := by unfold State.modPack; split <;> rfl
@[simp] theorem State.modPack_now (s : State) (g : Nat) (f : Pack → Pack) : (s.modPack g f).now = s.now := by unfold State.modPack; split <;> rfl
@[simp] theorem State.modPack_work (s : State) (g : Nat) (f : Pack → Pack) : (s.modPack g f).work = s.work := by unfold State.modPack; split <;> rfl
@[simp] theorem State.modPack_timers (s : State) (g : Nat) (f : Pack → Pack) : (s.modPack g f).timers = s.timers := by unfold State.modPack; split <;> rfl
@[simp] theorem State.modPack_cur (s : State) (g : Nat) (f : Pack → Pack) : (s.modPack g f).cur = s.cur := by unfold State.modPack; split <;> rfl
@[simp] theorem State.modPack_fresh (s : State) (g : Nat) (f : Pack → Pack) : (s.modPack g f).fresh = s.fresh := by unfold State.modPack; split <;> rfl
@[simp] theorem State.modPack_core (s : State) (g : Nat) (f : Pack → Pack) (d : Nat) : (s.modPack g f).core d = s.core d := by unfold State.modPack; split <;> rfl
@[simp] theorem State.modPack_region (s : State) (g : Nat) (f : Pack → Pack) (d : Nat) : (s.modPack g f).region d = s.region d := by unfold State.modPack; split <;> rfl
@[simp] theorem State.modPack_hbm (s : State) (g : Nat) (f : Pack → Pack) (d : Nat) : (s.modPack g f).hbm d = s.hbm d := by unfold State.modPack; split <;> rfl

@[simp] theorem State.modNode_mem (s : State) (i n : Nat) (f : Node → Node) : (s.modNode i n f).mem = s.mem := by unfold State.modNode; split <;> (try split) <;> rfl
@[simp] theorem State.modNode_poison (s : State) (i n : Nat) (f : Node → Node) : (s.modNode i n f).poison = s.poison := by unfold State.modNode; split <;> (try split) <;> rfl
@[simp] theorem State.modNode_burstErr (s : State) (i n : Nat) (f : Node → Node) : (s.modNode i n f).burstErr = s.burstErr := by unfold State.modNode; split <;> (try split) <;> rfl
@[simp] theorem State.modNode_cores (s : State) (i n : Nat) (f : Node → Node) : (s.modNode i n f).cores = s.cores := by unfold State.modNode; split <;> (try split) <;> rfl
@[simp] theorem State.modNode_regions (s : State) (i n : Nat) (f : Node → Node) : (s.modNode i n f).regions = s.regions := by unfold State.modNode; split <;> (try split) <;> rfl
@[simp] theorem State.modNode_hbms (s : State) (i n : Nat) (f : Node → Node) : (s.modNode i n f).hbms = s.hbms := by unfold State.modNode; split <;> (try split) <;> rfl
@[simp] theorem State.modNode_packs (s : State) (i n : Nat) (f : Node → Node) : (s.modNode i n f).packs = s.packs := by unfold State.modNode; split <;> (try split) <;> rfl
@[simp] theorem State.modNode_barriers (s : State) (i n : Nat) (f : Node → Node) : (s.modNode i n f).barriers = s.barriers := by unfold State.modNode; split <;> (try split) <;> rfl
@[simp] theorem State.modNode_psc (s : State) (i n : Nat) (f : Node → Node) : (s.modNode i n f).psc = s.psc := by unfold State.modNode; split <;> (try split) <;> rfl
@[simp] theorem State.modNode_fwtab (s : State) (i n : Nat) (f : Node → Node) : (s.modNode i n f).fwtab = s.fwtab := by unfold State.modNode; split <;> (try split) <;> rfl
@[simp] theorem State.modNode_exptab (s : State) (i n : Nat) (f : Node → Node) : (s.modNode i n f).exptab = s.exptab := by unfold State.modNode; split <;> (try split) <;> rfl
@[simp] theorem State.modNode_ftlb (s : State) (i n : Nat) (f : Node → Node) : (s.modNode i n f).ftlb = s.ftlb := by unfold State.modNode; split <;> (try split) <;> rfl
@[simp] theorem State.modNode_leases (s : State) (i n : Nat) (f : Node → Node) : (s.modNode i n f).leases = s.leases := by unfold State.modNode; split <;> (try split) <;> rfl
@[simp] theorem State.modNode_traces (s : State) (i n : Nat) (f : Node → Node) : (s.modNode i n f).traces = s.traces := by unfold State.modNode; split <;> (try split) <;> rfl
@[simp] theorem State.modNode_ramps (s : State) (i n : Nat) (f : Node → Node) : (s.modNode i n f).ramps = s.ramps := by unfold State.modNode; split <;> (try split) <;> rfl
@[simp] theorem State.modNode_releases (s : State) (i n : Nat) (f : Node → Node) : (s.modNode i n f).releases = s.releases := by unfold State.modNode; split <;> (try split) <;> rfl
@[simp] theorem State.modNode_epochs (s : State) (i n : Nat) (f : Node → Node) : (s.modNode i n f).epochs = s.epochs := by unfold State.modNode; split <;> (try split) <;> rfl
@[simp] theorem State.modNode_invals (s : State) (i n : Nat) (f : Node → Node) : (s.modNode i n f).invals = s.invals := by unfold State.modNode; split <;> (try split) <;> rfl
@[simp] theorem State.modNode_now (s : State) (i n : Nat) (f : Node → Node) : (s.modNode i n f).now = s.now := by unfold State.modNode; split <;> (try split) <;> rfl
@[simp] theorem State.modNode_work (s : State) (i n : Nat) (f : Node → Node) : (s.modNode i n f).work = s.work := by unfold State.modNode; split <;> (try split) <;> rfl
@[simp] theorem State.modNode_timers (s : State) (i n : Nat) (f : Node → Node) : (s.modNode i n f).timers = s.timers := by unfold State.modNode; split <;> (try split) <;> rfl
@[simp] theorem State.modNode_cur (s : State) (i n : Nat) (f : Node → Node) : (s.modNode i n f).cur = s.cur := by unfold State.modNode; split <;> (try split) <;> rfl
@[simp] theorem State.modNode_fresh (s : State) (i n : Nat) (f : Node → Node) : (s.modNode i n f).fresh = s.fresh := by unfold State.modNode; split <;> (try split) <;> rfl
@[simp] theorem State.modNode_core (s : State) (i n : Nat) (f : Node → Node) (d : Nat) : (s.modNode i n f).core d = s.core d := by unfold State.modNode; split <;> (try split) <;> rfl
@[simp] theorem State.modNode_region (s : State) (i n : Nat) (f : Node → Node) (d : Nat) : (s.modNode i n f).region d = s.region d := by unfold State.modNode; split <;> (try split) <;> rfl
@[simp] theorem State.modNode_hbm (s : State) (i n : Nat) (f : Node → Node) (d : Nat) : (s.modNode i n f).hbm d = s.hbm d := by unfold State.modNode; split <;> (try split) <;> rfl

@[simp] theorem State.modInst_mem (s : State) (i : Nat) (f : Inst → Inst) : (s.modInst i f).mem = s.mem := by unfold State.modInst; split <;> rfl
@[simp] theorem State.modInst_poison (s : State) (i : Nat) (f : Inst → Inst) : (s.modInst i f).poison = s.poison := by unfold State.modInst; split <;> rfl
@[simp] theorem State.modInst_burstErr (s : State) (i : Nat) (f : Inst → Inst) : (s.modInst i f).burstErr = s.burstErr := by unfold State.modInst; split <;> rfl
@[simp] theorem State.modInst_cores (s : State) (i : Nat) (f : Inst → Inst) : (s.modInst i f).cores = s.cores := by unfold State.modInst; split <;> rfl
@[simp] theorem State.modInst_regions (s : State) (i : Nat) (f : Inst → Inst) : (s.modInst i f).regions = s.regions := by unfold State.modInst; split <;> rfl
@[simp] theorem State.modInst_hbms (s : State) (i : Nat) (f : Inst → Inst) : (s.modInst i f).hbms = s.hbms := by unfold State.modInst; split <;> rfl
@[simp] theorem State.modInst_packs (s : State) (i : Nat) (f : Inst → Inst) : (s.modInst i f).packs = s.packs := by unfold State.modInst; split <;> rfl
@[simp] theorem State.modInst_barriers (s : State) (i : Nat) (f : Inst → Inst) : (s.modInst i f).barriers = s.barriers := by unfold State.modInst; split <;> rfl
@[simp] theorem State.modInst_psc (s : State) (i : Nat) (f : Inst → Inst) : (s.modInst i f).psc = s.psc := by unfold State.modInst; split <;> rfl
@[simp] theorem State.modInst_fwtab (s : State) (i : Nat) (f : Inst → Inst) : (s.modInst i f).fwtab = s.fwtab := by unfold State.modInst; split <;> rfl
@[simp] theorem State.modInst_exptab (s : State) (i : Nat) (f : Inst → Inst) : (s.modInst i f).exptab = s.exptab := by unfold State.modInst; split <;> rfl
@[simp] theorem State.modInst_ftlb (s : State) (i : Nat) (f : Inst → Inst) : (s.modInst i f).ftlb = s.ftlb := by unfold State.modInst; split <;> rfl
@[simp] theorem State.modInst_leases (s : State) (i : Nat) (f : Inst → Inst) : (s.modInst i f).leases = s.leases := by unfold State.modInst; split <;> rfl
@[simp] theorem State.modInst_traces (s : State) (i : Nat) (f : Inst → Inst) : (s.modInst i f).traces = s.traces := by unfold State.modInst; split <;> rfl
@[simp] theorem State.modInst_ramps (s : State) (i : Nat) (f : Inst → Inst) : (s.modInst i f).ramps = s.ramps := by unfold State.modInst; split <;> rfl
@[simp] theorem State.modInst_releases (s : State) (i : Nat) (f : Inst → Inst) : (s.modInst i f).releases = s.releases := by unfold State.modInst; split <;> rfl
@[simp] theorem State.modInst_epochs (s : State) (i : Nat) (f : Inst → Inst) : (s.modInst i f).epochs = s.epochs := by unfold State.modInst; split <;> rfl
@[simp] theorem State.modInst_invals (s : State) (i : Nat) (f : Inst → Inst) : (s.modInst i f).invals = s.invals := by unfold State.modInst; split <;> rfl
@[simp] theorem State.modInst_now (s : State) (i : Nat) (f : Inst → Inst) : (s.modInst i f).now = s.now := by unfold State.modInst; split <;> rfl
@[simp] theorem State.modInst_work (s : State) (i : Nat) (f : Inst → Inst) : (s.modInst i f).work = s.work := by unfold State.modInst; split <;> rfl
@[simp] theorem State.modInst_timers (s : State) (i : Nat) (f : Inst → Inst) : (s.modInst i f).timers = s.timers := by unfold State.modInst; split <;> rfl
@[simp] theorem State.modInst_cur (s : State) (i : Nat) (f : Inst → Inst) : (s.modInst i f).cur = s.cur := by unfold State.modInst; split <;> rfl
@[simp] theorem State.modInst_fresh (s : State) (i : Nat) (f : Inst → Inst) : (s.modInst i f).fresh = s.fresh := by unfold State.modInst; split <;> rfl
@[simp] theorem State.modInst_core (s : State) (i : Nat) (f : Inst → Inst) (d : Nat) : (s.modInst i f).core d = s.core d := by unfold State.modInst; split <;> rfl
@[simp] theorem State.modInst_region (s : State) (i : Nat) (f : Inst → Inst) (d : Nat) : (s.modInst i f).region d = s.region d := by unfold State.modInst; split <;> rfl
@[simp] theorem State.modInst_hbm (s : State) (i : Nat) (f : Inst → Inst) (d : Nat) : (s.modInst i f).hbm d = s.hbm d := by unfold State.modInst; split <;> rfl

@[simp] theorem State.launchError_mem (s : State) (c n m : Nat) : (s.launchError c n m).mem = s.mem := by simp [State.launchError]
@[simp] theorem State.launchError_poison (s : State) (c n m : Nat) : (s.launchError c n m).poison = s.poison := by simp [State.launchError]
@[simp] theorem State.launchError_burstErr (s : State) (c n m : Nat) : (s.launchError c n m).burstErr = s.burstErr := by simp [State.launchError]
@[simp] theorem State.launchError_cores (s : State) (c n m : Nat) : (s.launchError c n m).cores = s.cores := by simp [State.launchError]
@[simp] theorem State.launchError_regions (s : State) (c n m : Nat) : (s.launchError c n m).regions = s.regions := by simp [State.launchError]
@[simp] theorem State.launchError_hbms (s : State) (c n m : Nat) : (s.launchError c n m).hbms = s.hbms := by simp [State.launchError]
@[simp] theorem State.launchError_packs (s : State) (c n m : Nat) : (s.launchError c n m).packs = s.packs := by simp [State.launchError]
@[simp] theorem State.launchError_barriers (s : State) (c n m : Nat) : (s.launchError c n m).barriers = s.barriers := by simp [State.launchError]
@[simp] theorem State.launchError_psc (s : State) (c n m : Nat) : (s.launchError c n m).psc = s.psc := by simp [State.launchError]
@[simp] theorem State.launchError_fwtab (s : State) (c n m : Nat) : (s.launchError c n m).fwtab = s.fwtab := by simp [State.launchError]
@[simp] theorem State.launchError_exptab (s : State) (c n m : Nat) : (s.launchError c n m).exptab = s.exptab := by simp [State.launchError]
@[simp] theorem State.launchError_ftlb (s : State) (c n m : Nat) : (s.launchError c n m).ftlb = s.ftlb := by simp [State.launchError]
@[simp] theorem State.launchError_leases (s : State) (c n m : Nat) : (s.launchError c n m).leases = s.leases := by simp [State.launchError]
@[simp] theorem State.launchError_traces (s : State) (c n m : Nat) : (s.launchError c n m).traces = s.traces := by simp [State.launchError]
@[simp] theorem State.launchError_ramps (s : State) (c n m : Nat) : (s.launchError c n m).ramps = s.ramps := by simp [State.launchError]
@[simp] theorem State.launchError_releases (s : State) (c n m : Nat) : (s.launchError c n m).releases = s.releases := by simp [State.launchError]
@[simp] theorem State.launchError_epochs (s : State) (c n m : Nat) : (s.launchError c n m).epochs = s.epochs := by simp [State.launchError]
@[simp] theorem State.launchError_invals (s : State) (c n m : Nat) : (s.launchError c n m).invals = s.invals := by simp [State.launchError]
@[simp] theorem State.launchError_now (s : State) (c n m : Nat) : (s.launchError c n m).now = s.now := by simp [State.launchError]
@[simp] theorem State.launchError_work (s : State) (c n m : Nat) : (s.launchError c n m).work = s.work := by simp [State.launchError]
@[simp] theorem State.launchError_timers (s : State) (c n m : Nat) : (s.launchError c n m).timers = s.timers := by simp [State.launchError]
@[simp] theorem State.launchError_cur (s : State) (c n m : Nat) : (s.launchError c n m).cur = s.cur := by simp [State.launchError]
@[simp] theorem State.launchError_fresh (s : State) (c n m : Nat) : (s.launchError c n m).fresh = s.fresh := by simp [State.launchError]
@[simp] theorem State.launchError_core (s : State) (c n m : Nat) (d : Nat) : (s.launchError c n m).core d = s.core d := by simp [State.launchError]
@[simp] theorem State.launchError_region (s : State) (c n m : Nat) (d : Nat) : (s.launchError c n m).region d = s.region d := by simp [State.launchError]
@[simp] theorem State.launchError_hbm (s : State) (c n m : Nat) (d : Nat) : (s.launchError c n m).hbm d = s.hbm d := by simp [State.launchError]

/-! ### The energy that an instance owes (R245) -/

@[simp] theorem State.owes_mem (s : State) (i : Nat) : (s.owes i).mem = s.mem := rfl
@[simp] theorem State.owes_poison (s : State) (i : Nat) : (s.owes i).poison = s.poison := rfl
@[simp] theorem State.owes_burstErr (s : State) (i : Nat) : (s.owes i).burstErr = s.burstErr := rfl
@[simp] theorem State.owes_cores (s : State) (i : Nat) : (s.owes i).cores = s.cores := rfl
@[simp] theorem State.owes_regions (s : State) (i : Nat) : (s.owes i).regions = s.regions := rfl
@[simp] theorem State.owes_hbms (s : State) (i : Nat) : (s.owes i).hbms = s.hbms := rfl
@[simp] theorem State.owes_packs (s : State) (i : Nat) : (s.owes i).packs = s.packs := rfl
@[simp] theorem State.owes_barriers (s : State) (i : Nat) : (s.owes i).barriers = s.barriers := rfl
@[simp] theorem State.owes_psc (s : State) (i : Nat) : (s.owes i).psc = s.psc := rfl
@[simp] theorem State.owes_fwtab (s : State) (i : Nat) : (s.owes i).fwtab = s.fwtab := rfl
@[simp] theorem State.owes_exptab (s : State) (i : Nat) : (s.owes i).exptab = s.exptab := rfl
@[simp] theorem State.owes_ftlb (s : State) (i : Nat) : (s.owes i).ftlb = s.ftlb := rfl
@[simp] theorem State.owes_leases (s : State) (i : Nat) : (s.owes i).leases = s.leases := rfl
@[simp] theorem State.owes_traces (s : State) (i : Nat) : (s.owes i).traces = s.traces := rfl
@[simp] theorem State.owes_ramps (s : State) (i : Nat) : (s.owes i).ramps = s.ramps := rfl
@[simp] theorem State.owes_releases (s : State) (i : Nat) : (s.owes i).releases = s.releases := rfl
@[simp] theorem State.owes_epochs (s : State) (i : Nat) : (s.owes i).epochs = s.epochs := rfl
@[simp] theorem State.owes_invals (s : State) (i : Nat) : (s.owes i).invals = s.invals := rfl
@[simp] theorem State.owes_now (s : State) (i : Nat) : (s.owes i).now = s.now := rfl
@[simp] theorem State.owes_work (s : State) (i : Nat) : (s.owes i).work = s.work := rfl
@[simp] theorem State.owes_timers (s : State) (i : Nat) : (s.owes i).timers = s.timers := rfl
@[simp] theorem State.owes_cur (s : State) (i : Nat) : (s.owes i).cur = s.cur := rfl
@[simp] theorem State.owes_fresh (s : State) (i : Nat) : (s.owes i).fresh = s.fresh := rfl
@[simp] theorem State.owes_owing (s : State) (i : Nat) : (s.owes i).walker.owing = insertLine i s.walker.owing := rfl
@[simp] theorem State.owes_insts (s : State) (i : Nat) : (s.owes i).walker.insts = s.walker.insts := rfl
@[simp] theorem State.owes_core (s : State) (i c : Nat) : (s.owes i).core c = s.core c := rfl
@[simp] theorem State.owes_thread (s : State) (i c : Nat) (h : Bool) : (s.owes i).thread c h = s.thread c h := rfl

/-- A trace ring replaced, and the interrupt of one that is nearly full. -/
theorem trace_tail (s : State) (n : Nat) (x : Trace) (q : Prop) [Decidable q] : ∃ p t,
    (if q then State.cause { s with traces := smSet s.traces n x } 3 else { s with traces := smSet s.traces n x }) =
      { s with psc := p, traces := t } := by
  split <;> exact ⟨_, _, rfl⟩

/-- A trace record changes the trace rings and the host's interrupt registers alone (R507). -/
theorem trace_eq (s : State) (k ty c : Nat) (r a : Word) : ∃ p t, s.trace k ty c r a = { s with psc := p, traces := t } := by
  unfold State.trace
  split
  · split
    · exact trace_tail s k _ _
    · exact ⟨_, _, rfl⟩
  · exact ⟨_, _, rfl⟩

@[simp] theorem State.trace_mem (s : State) (k ty c : Nat) (r a : Word) : (s.trace k ty c r a).mem = s.mem := by obtain ⟨p, t, h⟩ := trace_eq s k ty c r a; rw [h]
@[simp] theorem State.trace_poison (s : State) (k ty c : Nat) (r a : Word) : (s.trace k ty c r a).poison = s.poison := by obtain ⟨p, t, h⟩ := trace_eq s k ty c r a; rw [h]
@[simp] theorem State.trace_burstErr (s : State) (k ty c : Nat) (r a : Word) : (s.trace k ty c r a).burstErr = s.burstErr := by obtain ⟨p, t, h⟩ := trace_eq s k ty c r a; rw [h]
@[simp] theorem State.trace_cores (s : State) (k ty c : Nat) (r a : Word) : (s.trace k ty c r a).cores = s.cores := by obtain ⟨p, t, h⟩ := trace_eq s k ty c r a; rw [h]
@[simp] theorem State.trace_regions (s : State) (k ty c : Nat) (r a : Word) : (s.trace k ty c r a).regions = s.regions := by obtain ⟨p, t, h⟩ := trace_eq s k ty c r a; rw [h]
@[simp] theorem State.trace_hbms (s : State) (k ty c : Nat) (r a : Word) : (s.trace k ty c r a).hbms = s.hbms := by obtain ⟨p, t, h⟩ := trace_eq s k ty c r a; rw [h]
@[simp] theorem State.trace_packs (s : State) (k ty c : Nat) (r a : Word) : (s.trace k ty c r a).packs = s.packs := by obtain ⟨p, t, h⟩ := trace_eq s k ty c r a; rw [h]
@[simp] theorem State.trace_barriers (s : State) (k ty c : Nat) (r a : Word) : (s.trace k ty c r a).barriers = s.barriers := by obtain ⟨p, t, h⟩ := trace_eq s k ty c r a; rw [h]
@[simp] theorem State.trace_walker (s : State) (k ty c : Nat) (r a : Word) : (s.trace k ty c r a).walker = s.walker := by obtain ⟨p, t, h⟩ := trace_eq s k ty c r a; rw [h]
@[simp] theorem State.trace_fwtab (s : State) (k ty c : Nat) (r a : Word) : (s.trace k ty c r a).fwtab = s.fwtab := by obtain ⟨p, t, h⟩ := trace_eq s k ty c r a; rw [h]
@[simp] theorem State.trace_exptab (s : State) (k ty c : Nat) (r a : Word) : (s.trace k ty c r a).exptab = s.exptab := by obtain ⟨p, t, h⟩ := trace_eq s k ty c r a; rw [h]
@[simp] theorem State.trace_ftlb (s : State) (k ty c : Nat) (r a : Word) : (s.trace k ty c r a).ftlb = s.ftlb := by obtain ⟨p, t, h⟩ := trace_eq s k ty c r a; rw [h]
@[simp] theorem State.trace_leases (s : State) (k ty c : Nat) (r a : Word) : (s.trace k ty c r a).leases = s.leases := by obtain ⟨p, t, h⟩ := trace_eq s k ty c r a; rw [h]
@[simp] theorem State.trace_ramps (s : State) (k ty c : Nat) (r a : Word) : (s.trace k ty c r a).ramps = s.ramps := by obtain ⟨p, t, h⟩ := trace_eq s k ty c r a; rw [h]
@[simp] theorem State.trace_releases (s : State) (k ty c : Nat) (r a : Word) : (s.trace k ty c r a).releases = s.releases := by obtain ⟨p, t, h⟩ := trace_eq s k ty c r a; rw [h]
@[simp] theorem State.trace_epochs (s : State) (k ty c : Nat) (r a : Word) : (s.trace k ty c r a).epochs = s.epochs := by obtain ⟨p, t, h⟩ := trace_eq s k ty c r a; rw [h]
@[simp] theorem State.trace_invals (s : State) (k ty c : Nat) (r a : Word) : (s.trace k ty c r a).invals = s.invals := by obtain ⟨p, t, h⟩ := trace_eq s k ty c r a; rw [h]
@[simp] theorem State.trace_now (s : State) (k ty c : Nat) (r a : Word) : (s.trace k ty c r a).now = s.now := by obtain ⟨p, t, h⟩ := trace_eq s k ty c r a; rw [h]
@[simp] theorem State.trace_work (s : State) (k ty c : Nat) (r a : Word) : (s.trace k ty c r a).work = s.work := by obtain ⟨p, t, h⟩ := trace_eq s k ty c r a; rw [h]
@[simp] theorem State.trace_timers (s : State) (k ty c : Nat) (r a : Word) : (s.trace k ty c r a).timers = s.timers := by obtain ⟨p, t, h⟩ := trace_eq s k ty c r a; rw [h]
@[simp] theorem State.trace_cur (s : State) (k ty c : Nat) (r a : Word) : (s.trace k ty c r a).cur = s.cur := by obtain ⟨p, t, h⟩ := trace_eq s k ty c r a; rw [h]
@[simp] theorem State.trace_fresh (s : State) (k ty c : Nat) (r a : Word) : (s.trace k ty c r a).fresh = s.fresh := by obtain ⟨p, t, h⟩ := trace_eq s k ty c r a; rw [h]

@[simp] theorem State.trace_core (s : State) (k ty c : Nat) (r a : Word) (d : Nat) : (s.trace k ty c r a).core d = s.core d := by simp [State.core]
@[simp] theorem State.trace_region (s : State) (k ty c : Nat) (r a : Word) (d : Nat) : (s.trace k ty c r a).region d = s.region d := by
  simp [State.region]
@[simp] theorem State.trace_hbm (s : State) (k ty c : Nat) (r a : Word) (d : Nat) : (s.trace k ty c r a).hbm d = s.hbm d := by simp [State.hbm]
/-! ### Threads of a core -/

@[simp] theorem Core.modThread_stage (k : Core) (h : Bool) (f : Thread → Thread) : (k.modThread h f).stage = k.stage := by cases h <;> rfl
@[simp] theorem Core.modThread_tbase (k : Core) (h : Bool) (f : Thread → Thread) : (k.modThread h f).tbase = k.tbase := by cases h <;> rfl
@[simp] theorem Core.modThread_taskid (k : Core) (h : Bool) (f : Thread → Thread) : (k.modThread h f).taskid = k.taskid := by cases h <;> rfl
@[simp] theorem Core.modThread_packid (k : Core) (h : Bool) (f : Thread → Thread) : (k.modThread h f).packid = k.packid := by cases h <;> rfl
@[simp] theorem Core.modThread_engfmt (k : Core) (h : Bool) (f : Thread → Thread) : (k.modThread h f).engfmt = k.engfmt := by cases h <;> rfl
@[simp] theorem Core.modThread_fmtq (k : Core) (h : Bool) (f : Thread → Thread) : (k.modThread h f).fmtq = k.fmtq := by cases h <;> rfl
@[simp] theorem Core.modThread_bundles (k : Core) (h : Bool) (f : Thread → Thread) : (k.modThread h f).bundles = k.bundles := by cases h <;> rfl
@[simp] theorem Core.modThread_echk (k : Core) (h : Bool) (f : Thread → Thread) : (k.modThread h f).echk = k.echk := by cases h <;> rfl
@[simp] theorem Core.modThread_trapen (k : Core) (h : Bool) (f : Thread → Thread) : (k.modThread h f).trapen = k.trapen := by cases h <;> rfl
@[simp] theorem Core.modThread_lease (k : Core) (h : Bool) (f : Thread → Thread) : (k.modThread h f).lease = k.lease := by cases h <;> rfl
@[simp] theorem Core.modThread_kennel (k : Core) (h : Bool) (f : Thread → Thread) : (k.modThread h f).kennel = k.kennel := by cases h <;> rfl
@[simp] theorem Core.modThread_fi (k : Core) (h : Bool) (f : Thread → Thread) : (k.modThread h f).fi = k.fi := by cases h <;> rfl
@[simp] theorem Core.modThread_leash (k : Core) (h : Bool) (f : Thread → Thread) : (k.modThread h f).leash = k.leash := by cases h <;> rfl
@[simp] theorem Core.modThread_hserial (k : Core) (h : Bool) (f : Thread → Thread) : (k.modThread h f).hserial = k.hserial := by cases h <;> rfl
@[simp] theorem Core.modThread_hpack (k : Core) (h : Bool) (f : Thread → Thread) : (k.modThread h f).hpack = k.hpack := by cases h <;> rfl
@[simp] theorem Core.modThread_mrf (k : Core) (h : Bool) (f : Thread → Thread) : (k.modThread h f).mrf = k.mrf := by cases h <;> rfl
@[simp] theorem Core.modThread_fifo (k : Core) (h : Bool) (f : Thread → Thread) : (k.modThread h f).fifo = k.fifo := by cases h <;> rfl
@[simp] theorem Core.modThread_bypass (k : Core) (h : Bool) (f : Thread → Thread) : (k.modThread h f).bypass = k.bypass := by cases h <;> rfl
@[simp] theorem Core.modThread_heel (k : Core) (h : Bool) (f : Thread → Thread) : (k.modThread h f).heel = k.heel := by cases h <;> rfl
@[simp] theorem Core.modThread_lastExit (k : Core) (h : Bool) (f : Thread → Thread) : (k.modThread h f).lastExit = k.lastExit := by cases h <;> rfl
@[simp] theorem Core.modThread_waited (k : Core) (h : Bool) (f : Thread → Thread) : (k.modThread h f).waited = k.waited := by cases h <;> rfl
@[simp] theorem Core.modThread_careFrom (k : Core) (h : Bool) (f : Thread → Thread) : (k.modThread h f).careFrom = k.careFrom := by cases h <;> rfl
@[simp] theorem Core.modThread_careNext (k : Core) (h : Bool) (f : Thread → Thread) : (k.modThread h f).careNext = k.careNext := by cases h <;> rfl
@[simp] theorem Core.modThread_careReb (k : Core) (h : Bool) (f : Thread → Thread) : (k.modThread h f).careReb = k.careReb := by cases h <;> rfl
@[simp] theorem Core.modThread_rebased (k : Core) (h : Bool) (f : Thread → Thread) : (k.modThread h f).rebased = k.rebased := by cases h <;> rfl
@[simp] theorem Core.modThread_newBase (k : Core) (h : Bool) (f : Thread → Thread) : (k.modThread h f).newBase = k.newBase := by cases h <;> rfl
@[simp] theorem Core.modThread_tlb (k : Core) (h : Bool) (f : Thread → Thread) : (k.modThread h f).tlb = k.tlb := by cases h <;> rfl
@[simp] theorem Core.modThread_tlbNew (k : Core) (h : Bool) (f : Thread → Thread) : (k.modThread h f).tlbNew = k.tlbNew := by cases h <;> rfl
@[simp] theorem Core.modThread_tlq (k : Core) (h : Bool) (f : Thread → Thread) : (k.modThread h f).tlq = k.tlq := by cases h <;> rfl
@[simp] theorem Core.modThread_lastRow (k : Core) (h : Bool) (f : Thread → Thread) : (k.modThread h f).lastRow = k.lastRow := by cases h <;> rfl
@[simp] theorem Core.modThread_lastCol (k : Core) (h : Bool) (f : Thread → Thread) : (k.modThread h f).lastCol = k.lastCol := by cases h <;> rfl
@[simp] theorem Core.modThread_tlseq (k : Core) (h : Bool) (f : Thread → Thread) : (k.modThread h f).tlseq = k.tlseq := by cases h <;> rfl
@[simp] theorem Core.modThread_copies (k : Core) (h : Bool) (f : Thread → Thread) : (k.modThread h f).copies = k.copies := by cases h <;> rfl
@[simp] theorem Core.modThread_copyEnd (k : Core) (h : Bool) (f : Thread → Thread) : (k.modThread h f).copyEnd = k.copyEnd := by cases h <;> rfl
@[simp] theorem Core.modThread_copyLast (k : Core) (h : Bool) (f : Thread → Thread) : (k.modThread h f).copyLast = k.copyLast := by cases h <;> rfl
@[simp] theorem Core.modThread_markers (k : Core) (h : Bool) (f : Thread → Thread) : (k.modThread h f).markers = k.markers := by cases h <;> rfl
@[simp] theorem Core.modThread_cubes (k : Core) (h : Bool) (f : Thread → Thread) : (k.modThread h f).cubes = k.cubes := by cases h <;> rfl
@[simp] theorem Core.modThread_xrun (k : Core) (h : Bool) (f : Thread → Thread) : (k.modThread h f).xrun = k.xrun := by cases h <;> rfl
@[simp] theorem Core.modThread_cubeEnd (k : Core) (h : Bool) (f : Thread → Thread) : (k.modThread h f).cubeEnd = k.cubeEnd := by cases h <;> rfl
@[simp] theorem Core.modThread_cubeLast (k : Core) (h : Bool) (f : Thread → Thread) : (k.modThread h f).cubeLast = k.cubeLast := by cases h <;> rfl
@[simp] theorem Core.modThread_latches (k : Core) (h : Bool) (f : Thread → Thread) : (k.modThread h f).latches = k.latches := by cases h <;> rfl
@[simp] theorem Core.modThread_cfmt (k : Core) (h : Bool) (f : Thread → Thread) : (k.modThread h f).cfmt = k.cfmt := by cases h <;> rfl
@[simp] theorem Core.modThread_sides (k : Core) (h : Bool) (f : Thread → Thread) : (k.modThread h f).sides = k.sides := by cases h <;> rfl
@[simp] theorem Core.modThread_pendw (k : Core) (h : Bool) (f : Thread → Thread) : (k.modThread h f).pendw = k.pendw := by cases h <;> rfl
@[simp] theorem Core.modThread_atoms (k : Core) (h : Bool) (f : Thread → Thread) : (k.modThread h f).atoms = k.atoms := by cases h <;> rfl
@[simp] theorem Core.modThread_cc (k : Core) (h : Bool) (f : Thread → Thread) : (k.modThread h f).cc = k.cc := by cases h <;> rfl
@[simp] theorem Core.modThread_fabs (k : Core) (h : Bool) (f : Thread → Thread) : (k.modThread h f).fabs = k.fabs := by cases h <;> rfl
@[simp] theorem Core.modThread_arriving (k : Core) (h : Bool) (f : Thread → Thread) : (k.modThread h f).arriving = k.arriving := by cases h <;> rfl
@[simp] theorem Core.modThread_frozen (k : Core) (h : Bool) (f : Thread → Thread) : (k.modThread h f).frozen = k.frozen := by cases h <;> rfl
@[simp] theorem Core.modThread_skip (k : Core) (h : Bool) (f : Thread → Thread) : (k.modThread h f).skip = k.skip := by cases h <;> rfl
@[simp] theorem Core.modThread_absorb (k : Core) (h : Bool) (f : Thread → Thread) : (k.modThread h f).absorb = k.absorb := by cases h <;> rfl
@[simp] theorem Core.modThread_lavail (k : Core) (h : Bool) (f : Thread → Thread) : (k.modThread h f).lavail = k.lavail := by cases h <;> rfl
@[simp] theorem Core.modThread_lmask (k : Core) (h : Bool) (f : Thread → Thread) : (k.modThread h f).lmask = k.lmask := by cases h <;> rfl
@[simp] theorem Core.modThread_snapRel (k : Core) (h : Bool) (f : Thread → Thread) : (k.modThread h f).snapRel = k.snapRel := by cases h <;> rfl
@[simp] theorem Core.modThread_snapHold (k : Core) (h : Bool) (f : Thread → Thread) : (k.modThread h f).snapHold = k.snapHold := by cases h <;> rfl
@[simp] theorem Core.modThread_inst (k : Core) (h : Bool) (f : Thread → Thread) : (k.modThread h f).inst = k.inst := by cases h <;> rfl
@[simp] theorem Core.modThread_node (k : Core) (h : Bool) (f : Thread → Thread) : (k.modThread h f).node = k.node := by cases h <;> rfl
@[simp] theorem Core.modThread_ltile (k : Core) (h : Bool) (f : Thread → Thread) : (k.modThread h f).ltile = k.ltile := by cases h <;> rfl
@[simp] theorem Core.modThread_bindNchg (k : Core) (h : Bool) (f : Thread → Thread) : (k.modThread h f).bindNchg = k.bindNchg := by cases h <;> rfl
@[simp] theorem Core.modThread_aligned (k : Core) (h : Bool) (f : Thread → Thread) : (k.modThread h f).aligned = k.aligned := by cases h <;> rfl
@[simp] theorem Core.modThread_links (k : Core) (h : Bool) (f : Thread → Thread) : (k.modThread h f).links = k.links := by cases h <;> rfl
@[simp] theorem Core.modThread_task (k : Core) (f : Thread → Thread) : (k.modThread false f).task = f k.task := rfl
@[simp] theorem Core.modThread_handler (k : Core) (f : Thread → Thread) : (k.modThread true f).handler = k.handler.map f := rfl
@[simp] theorem Core.modThread_task_handler (k : Core) (f : Thread → Thread) : (k.modThread true f).task = k.task := rfl
@[simp] theorem Core.modThread_handler_task (k : Core) (f : Thread → Thread) : (k.modThread false f).handler = k.handler := rfl

/-- The core whose thread is changed. -/
@[simp] theorem core_modThread_self (s : State) (c : Nat) (h : Bool) (f : Thread → Thread) :
    (s.modThread c h f).core c = (s.core c).modThread h f := by simp [State.modThread]
/-- Another core. -/
theorem core_modThread_ne (s : State) {c d : Nat} (h : Bool) (f : Thread → Thread) (hd : d ≠ c) : (s.modThread c h f).core d = s.core d := by
  simp [State.modThread, core_modCore_ne _ _ hd]

/-- The task of a core after its own change. -/
@[simp] theorem thread_modThread_task (s : State) (c : Nat) (f : Thread → Thread) :
    (s.modThread c false f).thread c false = f (s.thread c false) := by simp [State.thread]

/-! ### Registers and predicates of a thread (R65, R69) -/

@[simp] theorem Thread.setReg_preds (t : Thread) (n : Nat) (v : Word) : (t.setReg n v).preds = t.preds := by unfold Thread.setReg; split <;> rfl
@[simp] theorem Thread.setReg_pc (t : Thread) (n : Nat) (v : Word) : (t.setReg n v).pc = t.pc := by unfold Thread.setReg; split <;> rfl
@[simp] theorem Thread.setReg_ab (t : Thread) (n : Nat) (v : Word) : (t.setReg n v).ab = t.ab := by unfold Thread.setReg; split <;> rfl
@[simp] theorem Thread.setReg_next (t : Thread) (n : Nat) (v : Word) : (t.setReg n v).next = t.next := by unfold Thread.setReg; split <;> rfl
@[simp] theorem Thread.setReg_seq (t : Thread) (n : Nat) (v : Word) : (t.setReg n v).seq = t.seq := by unfold Thread.setReg; split <;> rfl
@[simp] theorem Thread.setReg_delay (t : Thread) (n : Nat) (v : Word) : (t.setReg n v).delay = t.delay := by unfold Thread.setReg; split <;> rfl
@[simp] theorem Thread.setReg_loop (t : Thread) (n : Nat) (v : Word) : (t.setReg n v).loop = t.loop := by unfold Thread.setReg; split <;> rfl
@[simp] theorem Thread.setReg_rings (t : Thread) (n : Nat) (v : Word) : (t.setReg n v).rings = t.rings := by unfold Thread.setReg; split <;> rfl
@[simp] theorem Thread.setReg_wait (t : Thread) (n : Nat) (v : Word) : (t.setReg n v).wait = t.wait := by unfold Thread.setReg; split <;> rfl
@[simp] theorem Thread.setReg_divFree (t : Thread) (n : Nat) (v : Word) : (t.setReg n v).divFree = t.divFree := by unfold Thread.setReg; split <;> rfl
@[simp] theorem Thread.setReg_agenda (t : Thread) (n : Nat) (v : Word) : (t.setReg n v).agenda = t.agenda := by unfold Thread.setReg; split <;> rfl
@[simp] theorem Thread.setReg_outst (t : Thread) (n : Nat) (v : Word) : (t.setReg n v).outst = t.outst := by unfold Thread.setReg; split <;> rfl
@[simp] theorem Thread.setReg_nid (t : Thread) (n : Nat) (v : Word) : (t.setReg n v).nid = t.nid := by unfold Thread.setReg; split <;> rfl
@[simp] theorem Thread.setPred_regs (t : Thread) (n : Nat) (v : Bool) : (t.setPred n v).regs = t.regs := by unfold Thread.setPred; split <;> rfl
@[simp] theorem Thread.setPred_pc (t : Thread) (n : Nat) (v : Bool) : (t.setPred n v).pc = t.pc := by unfold Thread.setPred; split <;> rfl
@[simp] theorem Thread.setPred_ab (t : Thread) (n : Nat) (v : Bool) : (t.setPred n v).ab = t.ab := by unfold Thread.setPred; split <;> rfl
@[simp] theorem Thread.setPred_next (t : Thread) (n : Nat) (v : Bool) : (t.setPred n v).next = t.next := by unfold Thread.setPred; split <;> rfl
@[simp] theorem Thread.setPred_seq (t : Thread) (n : Nat) (v : Bool) : (t.setPred n v).seq = t.seq := by unfold Thread.setPred; split <;> rfl
@[simp] theorem Thread.setPred_delay (t : Thread) (n : Nat) (v : Bool) : (t.setPred n v).delay = t.delay := by unfold Thread.setPred; split <;> rfl
@[simp] theorem Thread.setPred_loop (t : Thread) (n : Nat) (v : Bool) : (t.setPred n v).loop = t.loop := by unfold Thread.setPred; split <;> rfl
@[simp] theorem Thread.setPred_rings (t : Thread) (n : Nat) (v : Bool) : (t.setPred n v).rings = t.rings := by unfold Thread.setPred; split <;> rfl
@[simp] theorem Thread.setPred_wait (t : Thread) (n : Nat) (v : Bool) : (t.setPred n v).wait = t.wait := by unfold Thread.setPred; split <;> rfl
@[simp] theorem Thread.setPred_divFree (t : Thread) (n : Nat) (v : Bool) : (t.setPred n v).divFree = t.divFree := by unfold Thread.setPred; split <;> rfl
@[simp] theorem Thread.setPred_agenda (t : Thread) (n : Nat) (v : Bool) : (t.setPred n v).agenda = t.agenda := by unfold Thread.setPred; split <;> rfl
@[simp] theorem Thread.setPred_outst (t : Thread) (n : Nat) (v : Bool) : (t.setPred n v).outst = t.outst := by unfold Thread.setPred; split <;> rfl
@[simp] theorem Thread.setPred_nid (t : Thread) (n : Nat) (v : Bool) : (t.setPred n v).nid = t.nid := by unfold Thread.setPred; split <;> rfl

@[simp] theorem Thread.reg_zero (t : Thread) : t.reg 0 = 0 := rfl
@[simp] theorem Thread.pred_zero (t : Thread) : t.pred 0 = true := rfl

/-- A register after one has been written; a write to s0 is discarded. -/
theorem Thread.reg_setReg (t : Thread) (n m : Nat) (v : Word) : (t.setReg n v).reg m = if m = n ∧ n ≠ 0 then v else t.reg m := by
  unfold Thread.setReg Thread.reg
  by_cases hn : n = 0
  · simp [hn]
  · by_cases hm : m = 0
    · subst hm; simp [Ne.symm hn]
    · by_cases h : m = n
      · subst h; simp [hn]
      · simp [hn, hm, h, smGet_smSet_ne _ _ _ h]

/-- A predicate after one of the sixteen has been written; a write to p0 is discarded. -/
theorem Thread.pred_setPred (t : Thread) (n m : Nat) (v : Bool) (hm : m < 16) :
    (t.setPred n v).pred m = if m = n ∧ n ≠ 0 then v else t.pred m := by
  unfold Thread.setPred Thread.pred
  by_cases hn : n = 0
  · simp [hn]
  · by_cases h0 : m = 0
    · subst h0; simp [Ne.symm hn]
    · by_cases h : m = n
      · subst h
        cases v <;> simp [hn, hm]
      · have : ¬(¬ m < n ∧ m - n = 0) := by omega
        cases v <;> simp [hn, hm, h0, h] <;> (intros; omega)

@[simp] theorem Thread.reg_setPred (t : Thread) (n m : Nat) (v : Bool) : (t.setPred n v).reg m = t.reg m := by
  simp [Thread.reg]
@[simp] theorem Thread.pred_setReg (t : Thread) (n m : Nat) (v : Word) : (t.setReg n v).pred m = t.pred m := by
  simp [Thread.pred]

end Sys2Proof.Machine
end

