-- ==== Sys2Proof/Laws/Bind.lean ====
section
/-!
SUPPORT. What a phase boundary keeps: however the banks retire, what the physical address space holds reads as before where no block migrates.
-/
namespace Sys2Proof.Machine

/-- The physical address space of one state reads as that of another: the same bytes under the same hash masks and image. -/
def ReadsAs (s t : State) : Prop :=
  t.mem = s.mem ∧ t.psc.image = s.psc.image ∧ t.psc.nextPhase = s.psc.nextPhase ∧ ∀ h, (t.hbm h).hmask = (s.hbm h).hmask

theorem readsAs_refl (s : State) : ReadsAs s s := ⟨rfl, rfl, rfl, fun _ => rfl⟩

theorem readsAs_trans {s t u : State} (a : ReadsAs s t) (b : ReadsAs t u) : ReadsAs s u :=
  ⟨b.1.trans a.1, b.2.1.trans a.2.1, b.2.2.1.trans a.2.2.1, fun h => (b.2.2.2 h).trans (a.2.2.2 h)⟩

theorem readsAs_foldl {α : Type} {f : State → α → State} (hf : ∀ s x, ReadsAs s (f s x)) (l : List α) (s : State) :
    ReadsAs s (l.foldl f s) := by
  induction l generalizing s with
  | nil => exact readsAs_refl s
  | cons x l ih => exact readsAs_trans (hf s x) (ih (f s x))

theorem readsAs_modHbm (s : State) (h : Nat) (f : Hbm → Hbm) (hf : (f (s.hbm h)).hmask = (s.hbm h).hmask) : ReadsAs s (s.modHbm h f) := by
  refine ⟨rfl, rfl, rfl, fun d => ?_⟩
  rw [hbm_modHbm]
  split
  · next e => rw [hf, e]
  · rfl

theorem readsAs_modBank (s : State) (hs pc b : Nat) (f : Bank → Bank) : ReadsAs s (s.modBank hs pc b f) := readsAs_modHbm s hs _ rfl

theorem readsAs_modPc (s : State) (hs pc : Nat) (f : Pc → Pc) : ReadsAs s (s.modHbm hs fun h => h.modPc pc f) := readsAs_modHbm s hs _ rfl

theorem readsAs_modRegion (s : State) (r : Nat) (f : Region → Region) : ReadsAs s (s.modRegion r f) := ⟨rfl, rfl, rfl, fun _ => rfl⟩

theorem readsAs_hbmLog (s : State) (hs pc type : Nat) (p : LogPos) : ReadsAs s (hbmLog s hs pc type p) :=
  readsAs_modHbm s hs (fun h => { h with
    log := (if h.log.length ≥ 1024 then h.log.drop 1 else h.log) ++ _ }) rfl

theorem readsAs_swapLane (s : State) (hs pc stamp : Nat) : ReadsAs s (swapLane s hs pc stamp) := by
  have k (t : State) (h : ReadsAs s t) (f : Pc → Pc) : ReadsAs s (t.modHbm hs fun h => h.modPc pc f) := readsAs_trans h (readsAs_modPc t hs pc f)
  have l (t : State) (h : ReadsAs s t) (n : Nat) (p : LogPos) : ReadsAs s (hbmLog t hs pc n p) := readsAs_trans h (readsAs_hbmLog t hs pc n p)
  have d : ReadsAs s { s with fresh := s.fresh + 1 } := ⟨rfl, rfl, rfl, fun _ => rfl⟩
  have r := readsAs_refl s
  unfold swapLane State.draw
  dsimp only
  cases worstLane ((s.hbm hs).pc pc).window with
  | some m =>
    dsimp only
    split
    · exact l _ (k _ (k _ r _) _) _ _
    · exact l _ (k _ (k _ r _) _) _ _
  | none =>
    dsimp only
    by_cases c : Config.freeNat s.fresh % (38 + 1) < 38
    · simp only [c, if_true]
      split
      · exact l _ (k _ (k _ d _) _) _ _
      · exact l _ (k _ (k _ d _) _) _ _
    · simp only [c, if_false]
      exact l _ (k _ d _) _ _

theorem readsAs_draw (s : State) : ReadsAs s { s with fresh := s.fresh + 1 } := ⟨rfl, rfl, rfl, fun _ => rfl⟩

/-- A transfer that needed resends leaves what memory reads as. -/
theorem readsAs_resent (s : State) (cell type : Nat) (p : LogPos) : ReadsAs s (resent s cell type p) := by
  unfold resent
  dsimp only
  generalize hu : s.modHbm _ _ = u
  have a : ReadsAs s u := hu ▸ readsAs_modHbm s _ _ rfl
  have b := readsAs_trans a (readsAs_hbmLog u (locHs cell) (locPc cell) type p)
  split
  · exact readsAs_trans b (readsAs_swapLane _ _ _ _)
  · exact b

theorem readsAs_logArray (s : State) (cell : Nat) (p : LogPos) : ReadsAs s (logArray s cell p) := by
  unfold logArray
  dsimp only
  split
  · exact readsAs_refl s
  · split <;> exact readsAs_hbmLog _ _ _ _ _

/-- Transfers of bursts change the stacks' logs and counts, and the bursts that a write has stored as poison, and nothing of what memory reads as. -/
theorem readsAs_readCells (s : State) (cells : List Nat) : ReadsAs s (s.readCells cells) := by
  have h : ReadsAs s (cells.foldl (fun s l =>
      let (f, lane, s) := freeFails s 4
      (readBurst s l 511 0 f lane).2.2) s) := by
    refine readsAs_foldl (fun s l => ?_) cells s
    have d := readsAs_trans (readsAs_draw s) (readsAs_draw { s with fresh := s.fresh + 1 })
    unfold readBurst
    dsimp only [freeFails, State.draw]
    split
    · exact readsAs_trans d (readsAs_logArray _ _ _)
    · exact readsAs_trans (readsAs_trans d (readsAs_logArray _ _ _)) (readsAs_resent _ _ _ _)
  unfold State.readCells
  dsimp only
  generalize cells.foldl _ s = t at h ⊢
  exact ⟨rfl, rfl, rfl, h.2.2.2⟩

@[inherit_doc readsAs_readCells] theorem readsAs_writeCells (s : State) (cells : List Nat) : ReadsAs s (s.writeCells cells) := by
  have h : ReadsAs s (cells.foldl (fun s l =>
      let (f, lane, s) := freeFails s 3
      let (lost, s) := writeTransfer s l 511 0 f lane
      if lost then s.rewritten l true else s) s) := by
    refine readsAs_foldl (fun s l => ?_) cells s
    have d := readsAs_trans (readsAs_draw s) (readsAs_draw { s with fresh := s.fresh + 1 })
    have w (u : State) (hu : ReadsAs s u) (b : Bool) : ReadsAs s (if b = true then u.rewritten l true else u) := by
      split
      · exact readsAs_trans hu ⟨rfl, rfl, rfl, fun _ => rfl⟩
      · exact hu
    unfold writeTransfer
    dsimp only [freeFails, State.draw]
    refine w _ ?_ _
    split
    · exact d
    · exact readsAs_trans d (readsAs_resent _ _ _ _)
  unfold State.writeCells
  dsimp only
  generalize cells.foldl _ s = t at h ⊢
  exact ⟨rfl, rfl, rfl, h.2.2.2⟩

theorem readsAs_noteReads (s : State) (ps : List (Nat × Nat)) : ReadsAs s (s.noteReads ps) := readsAs_readCells s _

theorem readsAs_noteWrites (s : State) (ps : List (Nat × Nat)) : ReadsAs s (s.noteWrites ps) := readsAs_writeCells s _

theorem readsAs_later (s : State) (n : Nat) (e : Ev) : ReadsAs s (s.later n e) := ⟨rfl, rfl, rfl, fun _ => rfl⟩

theorem readsAs_copyRows (s : State) (hs pc b : Nat) : ReadsAs s (copyRows s hs pc b) :=
  readsAs_trans (readsAs_readCells s _) (readsAs_writeCells _ _)

theorem readsAs_retireBanks (s : State) (hs pc : Nat) : ReadsAs s (retireBanks s hs pc) := by
  unfold retireBanks
  dsimp only
  refine readsAs_trans (t := { s with fresh := s.fresh + 1 }) ⟨rfl, rfl, rfl, fun _ => rfl⟩ (readsAs_foldl (fun s b => ?_) _ _)
  split
  · exact readsAs_modBank _ _ _ _ _
  · exact readsAs_refl s

theorem readsAs_poisonRows (s : State) (hs pc b : Nat) : ReadsAs s (poisonRows s hs pc b) := by
  unfold poisonRows
  dsimp only
  generalize (List.flatMap _ _) = cells
  exact readsAs_trans (t := { s with fresh := s.fresh + 1 }) ⟨rfl, rfl, rfl, fun _ => rfl⟩
    (readsAs_foldl (f := fun s l => s.rewritten l true) (fun _ _ => ⟨rfl, rfl, rfl, fun _ => rfl⟩) cells _)

theorem readsAs_foldPc (s : State) (hs pc : Nat) : ReadsAs s (foldPc s hs pc) := by
  unfold foldPc
  refine readsAs_foldl (fun s b => ?_) _ _
  dsimp only
  split
  · exact readsAs_refl s
  · split
    · exact readsAs_refl s
    · generalize hu : copyRows (poisonRows s hs pc b) hs pc b = u
      have a : ReadsAs s u := hu ▸ readsAs_trans (readsAs_poisonRows _ _ _ _) (readsAs_copyRows _ _ _ _)
      exact readsAs_trans (readsAs_trans (readsAs_trans a (readsAs_modBank _ _ _ _ _)) (readsAs_modBank _ _ _ _ _)) (readsAs_hbmLog _ _ _ _ _)

theorem readsAs_boundaryStack (s : State) (hs : Nat) : ReadsAs s (boundaryStack s hs) := by
  unfold boundaryStack pendingSwaps
  dsimp only
  refine readsAs_trans ?_ (readsAs_foldl (fun s pc => readsAs_foldPc s hs pc) _ _)
  refine readsAs_trans ?_ (readsAs_foldl (fun s pc => readsAs_retireBanks s hs pc) _ _)
  have a := readsAs_foldl (f := fun (s : State) (q : Nat × Pc) => swapLane s hs q.1 0) (fun s q => readsAs_swapLane s hs q.1 0)
    ((s.hbm hs).pcs.filter fun q => q.2.swap) s
  generalize List.foldl _ s (List.filter _ _) = u at a ⊢
  refine readsAs_trans a (readsAs_modHbm u hs _ ?_)
  rfl

/-- A word of the physical address space depends on what `ReadsAs` keeps alone. -/
theorem readPhys64_readsAs {s t : State} (h : ReadsAs s t) (a : Nat) : readPhys64 t a = readPhys64 s a := by
  have l (x : Nat) : t.loc x = s.loc x := by rw [State.loc, State.loc, h.2.2.2]
  have e (x : Nat) : inSealedRange t x = inSealedRange s x := by simp only [inSealedRange, h.2.1]
  simp only [readPhys64, readLine, l, e, h.1, h.2.1]

theorem phaseWord_readsAs {s t : State} (h : ReadsAs s t) (im : Image) (k : Nat) : phaseWord t im k = phaseWord s im k := by
  rw [phaseWord, phaseWord, readPhys64_readsAs h, h.2.2.1]

/-- A change of the hash that lists no block and keeps every mask leaves the physical address space reading as before (R94). -/
theorem readsAs_changeHash (s t : State) (im : Image) (r : ReadsAs s t) (hb : wfld (phaseWord s im 5) 63 48 = 0)
    (hm : ∀ hs, hs < 16 → readPhys64 s ((phaseWord s im 4).toNat + 8 * hs) = (s.hbm hs).hmask) : ReadsAs s (changeHash t im) := by
  unfold changeHash
  dsimp only
  have b : wfld (phaseWord t im 5) 63 48 = 0 := by rw [phaseWord_readsAs r, hb]
  have w : ∀ hs, hs < 16 → readPhys64 t ((phaseWord t im 4).toNat + 8 * hs) = (t.hbm hs).hmask := fun hs h => by
    rw [readPhys64_readsAs r, phaseWord_readsAs r, hm hs h, r.2.2.2]
  rw [b, List.range_zero, List.map_nil, List.foldl_nil]
  generalize hn : List.map (fun hs => (readPhys64 t ((phaseWord t im 4).toNat + 8 * hs)).toNat) (List.range 16) = news
  have m : ∀ hs, hs < 16 → BitVec.ofNat 64 (news.getD hs 0) = (s.hbm hs).hmask := fun hs h => by
    rw [← hn, List.getD_eq_getElem?_getD, List.getElem?_map, List.getElem?_range h]
    simp [w hs h, r.2.2.2]
  refine readsAs_trans ?_ (readsAs_noteWrites _ _)
  generalize hq : t.noteReads _ = q
  have rq : ReadsAs s q := hq ▸ readsAs_trans r (readsAs_noteReads t _)
  have step (l : List Nat) (hl : ∀ x ∈ l, x < 16) (u : State) (hu : ReadsAs s u) :
      ReadsAs s (l.foldl (fun s hs => s.modHbm hs fun h => { h with hmask := BitVec.ofNat 64 (news.getD hs 0) }) u) := by
    induction l generalizing u with
    | nil => exact hu
    | cons x l ih =>
      refine ih (fun y hy => hl y (List.mem_cons_of_mem x hy)) _ (readsAs_trans hu (readsAs_modHbm u x _ ?_))
      show BitVec.ofNat 64 (news.getD x 0) = _
      rw [m x (hl x List.mem_cons_self), hu.2.2.2]
  exact step _ (fun x hx => List.mem_range.mp hx) q rq

/-- A phase bind that lists no block and keeps every hash mask leaves the physical address space reading as before (R94, R135). -/
theorem readsAs_bindFront (s : State) (im : Image) (hb : wfld (phaseWord s im 5) 63 48 = 0)
    (hm : ∀ hs, hs < 16 → readPhys64 s ((phaseWord s im 4).toNat + 8 * hs) = (s.hbm hs).hmask) : ReadsAs s (bindFront s im) := by
  have c := readsAs_changeHash s _ im (readsAs_foldl readsAs_boundaryStack (List.range 16) s) hb hm
  unfold bindFront
  dsimp only
  generalize changeHash ((List.range 16).foldl boundaryStack s) im = u at c ⊢
  have d := readsAs_trans c (readsAs_foldl (f := fun (v : State) r => v.modRegion r fun k => k.bound
      (wfld (phaseWord s im 6) (4 + r / 8) (4 + r / 8) = 1)) (fun _ _ => readsAs_modRegion _ _ _) (List.range 16) u)
  generalize List.foldl _ u (List.range 16) = v at d ⊢
  have k (b : Bool) : ReadsAs s (if b = true then v.later (nextPublication v.now - v.now) .stepApply else v) := by
    split
    · exact readsAs_trans d (readsAs_later v _ _)
    · exact d
  exact readsAs_trans (k _) (readsAs_noteReads _ _)

end Sys2Proof.Machine
end

