-- ==== Sys2Proof/Laws/Memory.lean ====
section
/-!
SUPPORT. Memory: what a byte reads as after a write, and that every operation on memory keeps the canonical form (log 4).
-/
namespace Sys2Proof.Machine

/-! ### Read after write -/

/-- A byte after one has been written. -/
theorem readByte_writeByte (m : Memory) (a b : Nat) (v : Byte) : readByte (writeByte m a v) b = if b = a then v else readByte m b := by
  unfold readByte writeByte
  split
  · rename_i h
    simp only [smGet, smFind_smErase]
    split <;> simp [h]
  · exact smGet_smSet 0 m a b v

/-- A byte after consecutive bytes have been written. -/
theorem readByte_writeBytes (m : Memory) (loc : Nat) (data : List Byte) (a : Nat) :
    readByte (writeBytes m loc data) a = if loc ≤ a ∧ a < loc + data.length then data.getD (a - loc) 0 else readByte m a := by
  induction data generalizing m loc with
  | nil => simp [writeBytes, show ¬(loc ≤ a ∧ a < loc) by omega]
  | cons b bs ih =>
    simp only [writeBytes, ih, readByte_writeByte, List.length_cons]
    by_cases h0 : a = loc
    · subst h0
      simp
    · by_cases h1 : loc + 1 ≤ a ∧ a < loc + 1 + bs.length
      · obtain ⟨k, rfl⟩ : ∃ k, a = loc + 1 + k := ⟨a - (loc + 1), by omega⟩
        simp [show k < bs.length by omega, show loc + 1 + k - loc = k + 1 by omega, show loc ≤ loc + 1 + k by omega,
          show loc + 1 + k < loc + (bs.length + 1) by omega]
      · rw [if_neg h1, if_neg h0, if_neg (by omega)]

/-- A byte outside a write reads as before. -/
theorem readByte_writeBytes_out (m : Memory) (loc : Nat) (data : List Byte) {a : Nat} (h : ¬(loc ≤ a ∧ a < loc + data.length)) :
    readByte (writeBytes m loc data) a = readByte m a := by rw [readByte_writeBytes, if_neg h]

theorem length_leBytes (n v : Nat) : (leBytes n v).length = n := by
  induction n generalizing v with
  | zero => rfl
  | succ n ih => simp [leBytes, ih]

/-- A number written in the byte order of R10 reads back modulo its width. -/
theorem leNat_leBytes (n v : Nat) : leNat (leBytes n v) = v % 2 ^ (8 * n) := by
  induction n generalizing v with
  | zero => simp [leBytes, leNat, Nat.mod_one]
  | succ n ih =>
    simp only [leBytes, leNat, ih, BitVec.toNat_ofNat]
    rw [show 2 ^ (8 * (n + 1)) = 256 * 2 ^ (8 * n) by rw [show 8 * (n + 1) = 8 * n + 8 by omega, Nat.pow_add]; omega, Nat.mod_mul]

/-- Bytes of a memory, as a list of single reads. -/
theorem readBytes_eq_map (m : Memory) (a n : Nat) : readBytes m a n = (List.range n).map fun i => readByte m (a + i) := by
  induction n generalizing a with
  | zero => rfl
  | succ n ih =>
    simp only [readBytes, ih, List.range_succ_eq_map, List.map_cons, List.map_map, Nat.add_zero, List.cons.injEq, true_and]
    refine List.map_congr_left fun i _ => ?_
    simp [Nat.add_comm, Nat.add_left_comm]

/-- The bytes written are the bytes read. -/
theorem readBytes_writeBytes (m : Memory) (loc : Nat) (data : List Byte) : readBytes (writeBytes m loc data) loc data.length = data := by
  rw [readBytes_eq_map]
  apply List.ext_getElem
  · simp
  · intro i h1 h2
    simp only [List.getElem_map, List.getElem_range, readByte_writeBytes]
    simp [h2]

/-- A byte of a map without some of its entries. -/
theorem smFind_filter {α : Type} (m : SMap α) (p : Nat → Bool) (a : Nat) :
    smFind (m.filter fun x => p x.1) a = if p a then smFind m a else none := by
  induction m with
  | nil => simp
  | cons x m ih =>
    obtain ⟨k, v⟩ := x
    simp only [List.filter_cons]
    by_cases hk : k = a
    · subst hk
      cases h : p k
      · simp [h, ih]
      · simp [smFind]
    · cases h : p k
      · simp only [Bool.false_eq_true, if_false, ih, smFind, if_neg hk]
      · simp only [if_true, smFind, if_neg hk, ih]

theorem readByte_clearRange (m : Memory) (lo hi a : Nat) :
    readByte (clearRange m lo hi) a = if lo ≤ a ∧ a < hi then 0 else readByte m a := by
  unfold readByte clearRange smGet
  rw [smFind_filter m fun k => !(lo ≤ k && k < hi)]
  by_cases h : lo ≤ a ∧ a < hi
  · simp [h]
  · rw [if_pos, if_neg h]
    simp only [Bool.not_eq_true', Bool.and_eq_false_iff, decide_eq_false_iff_not]
    omega

/-! ### The canonical form -/

/-- Every key of a map lies above a bound. -/
def above {α : Type} (k : Nat) (m : SMap α) : Prop := ∀ p ∈ m, k < p.1

theorem smSorted_cons {α : Type} (p : Nat × α) (m : SMap α) : smSorted (p :: m) = true ↔ above p.1 m ∧ smSorted m = true := by
  induction m generalizing p with
  | nil => simp [smSorted, above]
  | cons q m ih =>
    simp only [smSorted, Bool.and_eq_true, decide_eq_true_eq]
    constructor
    · rintro ⟨h, hs⟩
      refine ⟨?_, hs⟩
      intro r hr
      rcases List.mem_cons.mp hr with rfl | hr
      · exact h
      · exact Nat.lt_trans h (((ih q).mp hs).1 r hr)
    · rintro ⟨h, hs⟩
      exact ⟨h q (List.mem_cons_self ..), hs⟩

/-- Leaving entries out keeps the order. -/
theorem smSorted_filter {α : Type} (m : SMap α) (p : Nat × α → Bool) (h : smSorted m = true) : smSorted (m.filter p) = true := by
  induction m with
  | nil => rfl
  | cons x m ih =>
    obtain ⟨ha, hs⟩ := (smSorted_cons x m).mp h
    rw [List.filter_cons]
    split
    · exact (smSorted_cons _ _).mpr ⟨fun q hq => ha q (List.mem_filter.mp hq).1, ih hs⟩
    · exact ih hs

theorem smSorted_smErase {α : Type} (m : SMap α) (a : Nat) (h : smSorted m = true) : smSorted (smErase m a) = true :=
  smSorted_filter m _ h

/-- The entries of a map with one key set: the new one, or old ones. -/
theorem mem_smSet {α : Type} (m : SMap α) (a : Nat) (v : α) {q : Nat × α} (h : q ∈ smSet m a v) : q = (a, v) ∨ q ∈ m := by
  induction m with
  | nil => simpa [smSet] using h
  | cons p m ih =>
    obtain ⟨k, w⟩ := p
    simp only [smSet] at h
    split at h
    · simpa [or_assoc] using h
    · split at h
      · rcases List.mem_cons.mp h with h | h
        · exact .inl h
        · exact .inr (List.mem_cons_of_mem _ h)
      · rcases List.mem_cons.mp h with h | h
        · exact .inr (h ▸ List.mem_cons_self ..)
        · exact (ih h).imp id (List.mem_cons_of_mem _)

/-- Setting a key keeps the order. -/
theorem smSorted_smSet {α : Type} (m : SMap α) (a : Nat) (v : α) (h : smSorted m = true) : smSorted (smSet m a v) = true := by
  induction m with
  | nil => rfl
  | cons p m ih =>
    obtain ⟨k, w⟩ := p
    obtain ⟨ha, hs⟩ := (smSorted_cons _ m).mp h
    simp only [smSet]
    split
    · rename_i hlt
      refine (smSorted_cons _ _).mpr ⟨?_, h⟩
      intro q hq
      rcases List.mem_cons.mp hq with rfl | hq
      · exact hlt
      · exact Nat.lt_trans hlt (ha q hq)
    · split
      · rename_i he
        exact (smSorted_cons _ _).mpr ⟨he ▸ ha, hs⟩
      · rename_i h1 h2
        refine (smSorted_cons _ _).mpr ⟨?_, ih hs⟩
        intro q hq
        rcases mem_smSet m a v hq with rfl | hq
        · show k < a
          omega
        · exact ha q hq

theorem Memory.wf_iff (m : Memory) : Memory.wf m = true ↔ smSorted m = true ∧ ∀ p ∈ m, p.2 ≠ 0 := by
  simp [Memory.wf]

theorem Memory.wf_nil : Memory.wf [] = true := rfl

/-- Leaving bytes out keeps the canonical form. -/
theorem Memory.wf_filter (m : Memory) (p : Host.Cell → Bool) (h : Memory.wf m = true) : Memory.wf (m.filter p) = true := by
  obtain ⟨hs, hz⟩ := (Memory.wf_iff m).mp h
  exact (Memory.wf_iff _).mpr ⟨smSorted_filter m p hs, fun q hq => hz q (List.mem_filter.mp hq).1⟩

theorem Memory.wf_clearRange (m : Memory) (lo hi : Nat) (h : Memory.wf m = true) : Memory.wf (clearRange m lo hi) = true :=
  Memory.wf_filter m _ h

/-- Writing a byte keeps the canonical form. -/
theorem Memory.wf_writeByte (m : Memory) (a : Nat) (b : Byte) (h : Memory.wf m = true) : Memory.wf (writeByte m a b) = true := by
  obtain ⟨hs, hz⟩ := (Memory.wf_iff m).mp h
  unfold writeByte
  split
  · exact Memory.wf_filter m _ h
  · rename_i hb
    refine (Memory.wf_iff _).mpr ⟨smSorted_smSet m a b hs, fun q hq => ?_⟩
    rcases mem_smSet m a b hq with rfl | hq
    · exact hb
    · exact hz q hq

theorem Memory.wf_writeBytes (m : Memory) (loc : Nat) (data : List Byte) (h : Memory.wf m = true) :
    Memory.wf (writeBytes m loc data) = true := by
  induction data generalizing m loc with
  | nil => exact h
  | cons b bs ih => exact ih _ _ (Memory.wf_writeByte m loc b h)

/-- Moving the bytes of a block keeps the canonical form (R94). -/
theorem smSorted_moveKeys {α : Type} (unit blk : Nat) (f : Nat → Nat) (m : SMap α) (h : smSorted m = true) :
    smSorted (moveKeys unit blk f m) = true := by
  have key : ∀ (xs ys : SMap α), smSorted ys = true → smSorted (xs.foldl (fun n x => smSet n (f (x.1 * unit) / unit) x.2) ys) = true := by
    intro xs
    induction xs with
    | nil => intro ys h; exact h
    | cons x xs ih => intro ys h; exact ih _ (smSorted_smSet ys _ _ h)
  exact key _ _ (smSorted_filter m _ h)

theorem Memory.wf_moveKeys (blk : Nat) (f : Nat → Nat) (m : Memory) (h : Memory.wf m = true) : Memory.wf (moveKeys 1 blk f m) = true := by
  obtain ⟨hs, hz⟩ := (Memory.wf_iff m).mp h
  refine (Memory.wf_iff _).mpr ⟨smSorted_moveKeys 1 blk f m hs, ?_⟩
  unfold moveKeys
  have key : ∀ (xs ys : Memory), (∀ p ∈ xs, p.2 ≠ 0) → (∀ p ∈ ys, p.2 ≠ 0) →
      ∀ p ∈ xs.foldl (fun n x => smSet n (f (x.1 * 1) / 1) x.2) ys, p.2 ≠ 0 := by
    intro xs
    induction xs with
    | nil => intro ys _ hy; exact hy
    | cons x xs ih =>
      intro ys hx hy
      refine ih _ (fun p hp => hx p (List.mem_cons_of_mem _ hp)) fun p hp => ?_
      rcases mem_smSet ys _ _ hp with rfl | hp
      · exact hx x (List.mem_cons_self ..)
      · exact hy p hp
  exact key _ _ (fun p hp => hz p (List.mem_filter.mp hp).1) (fun p hp => hz p (List.mem_filter.mp hp).1)

/-! ### The operations on the memory of a state -/

/-- A commit to a face changes memory by its bytes alone. -/
@[simp] theorem commitFace_mem (s : State) (c face off : Nat) (data : List Byte) (bad : Bool) :
    (commitFace s c face off data bad).mem = writeBytes s.mem (faceLoc c face off) data := by unfold commitFace; cases bad <;> rfl
@[simp] theorem commitFace_cores (s : State) (c face off : Nat) (data : List Byte) (bad : Bool) :
    (commitFace s c face off data bad).cores = s.cores := by unfold commitFace; cases bad <;> rfl
@[simp] theorem commitFace_core (s : State) (c face off : Nat) (data : List Byte) (bad : Bool) (d : Nat) :
    (commitFace s c face off data bad).core d = s.core d := by simp [State.core]
@[simp] theorem commitFace_regions (s : State) (c face off : Nat) (data : List Byte) (bad : Bool) :
    (commitFace s c face off data bad).regions = s.regions := by unfold commitFace; cases bad <;> rfl
@[simp] theorem commitFace_burstErr (s : State) (c face off : Nat) (data : List Byte) (bad : Bool) :
    (commitFace s c face off data bad).burstErr = s.burstErr := by unfold commitFace; cases bad <;> rfl

/-- A face commit keeps the canonical form. -/
theorem Canonical.commitFace {s : State} (h : s.Canonical) (c face off : Nat) (data : List Byte) (bad : Bool) :
    (Machine.commitFace s c face off data bad).Canonical := by
  refine ⟨?_, ?_⟩
  · rw [commitFace_mem]; exact Memory.wf_writeBytes _ _ _ h.1
  · rw [commitFace_burstErr]; exact h.2

/-- A line written through the pipeline of its stack keeps the canonical form. -/
theorem Canonical.writeLine {s : State} (h : s.Canonical) (loc : Nat) (data : List Byte) : (Machine.writeLine s loc data).Canonical :=
  ⟨Memory.wf_writeBytes _ _ _ h.1, h.2⟩

theorem Canonical.writePhysByte {s : State} (h : s.Canonical) (pa : Nat) (b : Byte) : (Machine.writePhysByte s pa b).Canonical :=
  Canonical.writeLine h _ _

theorem Canonical.writePhys {s : State} (h : s.Canonical) (pa : Nat) (bs : List Byte) : (Machine.writePhys s pa bs).Canonical := by
  induction bs generalizing s pa with
  | nil => exact h
  | cons b bs ih => exact ih (Canonical.writePhysByte h pa b) _

/-- A burst stored afresh keeps the canonical form. -/
theorem Canonical.rewritten {s : State} (h : s.Canonical) (cell : Nat) (bad : Bool) : (s.rewritten cell bad).Canonical := by
  refine ⟨h.1, ?_⟩
  unfold State.rewritten
  cases bad
  · exact smSorted_smErase _ _ h.2
  · exact smSorted_smSet _ _ _ h.2

/-- The move of a block keeps the canonical form. -/
theorem Canonical.moveBlock {s : State} (h : s.Canonical) (news : List Nat) (blk : Nat) : (Machine.moveBlock news s blk).Canonical :=
  ⟨Memory.wf_moveKeys _ _ _ h.1, smSorted_moveKeys _ _ _ _ h.2⟩

/-- The faces of a core cleared keep the canonical form. -/
theorem Canonical.clearFaces {s : State} (h : s.Canonical) (c : Nat) : (Machine.clearFaces s c).Canonical :=
  ⟨Memory.wf_clearRange _ _ _ h.1, h.2⟩

/-- The memory of the state after reset has the canonical form. -/
theorem wf_reset : Memory.wf State.reset.mem = true := rfl

end Sys2Proof.Machine
end

