-- ==== Sys2Proof/Laws/Issue.lean ====
section
/-!
SUPPORT. The issue of one word: what issueWord answers in each of its cases, and the shared operations of words that post a result.
-/
namespace Sys2Proof.Machine

/-- A word that issues has its effect (R280, R285). -/
theorem issueWord_of_issues {s : State} {i : Instr} {p : Perm} (h : issues s i p = true) (eff : State → State) :
    issueWord s i p eff = .next (eff s) := by
  simp only [issues, Bool.and_eq_true, Option.isNone_iff_eq_none, Bool.not_eq_true'] at h
  obtain ⟨⟨⟨⟨_, hr⟩, hc⟩, hg⟩, hp⟩ := h
  cases he : effectIllegal s i eff <;> simp [issueWord, hr, hc, hg, hp, he]

/-- The effect of a word of whose registers no value is ILLEGAL raises no ILLEGAL fault. -/
theorem effectIllegal_of_noIllegal {i : Instr} (h : noIllegal i = true) (s : State) (eff : State → State) : effectIllegal s i eff = none := by
  simp [effectIllegal, h]

/-- Where the effect of a word raises an ILLEGAL fault, it has faulted so. -/
theorem effectIllegal_some {s : State} {i : Instr} {eff : State → State} {e : Nat} (h : effectIllegal s i eff = some e) :
    ∃ r, (eff s).cur.raised = some r ∧ r.code = 1 ∧ r.cause = e := by
  simp only [effectIllegal] at h
  split at h
  · cases h
  · split at h
    · rename_i r hr
      split at h
      · exact ⟨r, hr, ‹_›, by simpa using h⟩
      · cases h
    · cases h

/-- A word of a bundle that has faulted has no effect. -/
theorem issueWord_raised {s : State} (i : Instr) (p : Perm) (eff : State → State) {r : FaultRec} (h : s.cur.raised = some r) :
    issueWord s i p eff = .next s := by simp [issueWord, h]

/-- A word illegal where it stands faults ILLEGAL (R302). -/
theorem issueWord_illegal {s : State} {i : Instr} (p : Perm) (eff : State → State) {c : Nat} (hr : s.cur.raised = none)
    (h : illegalCause s.cur i.toWord = some c) (he : ∀ e, effectIllegal s i eff = some e → c ≤ e) :
    issueWord s i p eff = .next (raise s (srcOf i.toWord) 1 c) := by
  cases hs : effectIllegal s i eff with
  | none => simp [issueWord, hr, h, hs]
  | some e => simp [issueWord, hr, h, hs, Nat.not_lt.mpr (he e hs)]

/-- A word with a false guard has no effect (R285). -/
theorem issueWord_guard {s : State} {i : Instr} (p : Perm) (eff : State → State) (hr : s.cur.raised = none)
    (hc : illegalCause s.cur i.toWord = none) (h : guardTrue s i.toWord = false) : issueWord s i p eff = .next s := by
  simp [issueWord, hr, hc, h, effectIllegal]

/-- A word that its thread may not issue faults PRIV (R263). -/
theorem issueWord_refused {s : State} {i : Instr} {p : Perm} (eff : State → State) (hr : s.cur.raised = none)
    (hc : illegalCause s.cur i.toWord = none) (hg : guardTrue s i.toWord = true) (h : p.refuses s.cur.hd = true)
    (he : effectIllegal s i eff = none) : issueWord s i p eff = .next (raise s (srcOf i.toWord) 13 0) := by
  simp [issueWord, hr, hc, hg, h, he]

/-- All that the issue of a word can do: nothing, a fault, its effect on the state it stands in, or an effect that raises an ILLEGAL fault. -/
theorem issueWord_cases {s : State} {i : Instr} {p : Perm} {eff : State → State} {t : State} (h : issueWord s i p eff = .next t) :
    t = s ∨ (∃ pipe code cause, t = raise s pipe code cause) ∨ (issues s i p = true ∧ t = eff s) ∨
      (s.cur.hd = true ∧ s.ccore.handler = none ∧ t = eff s) ∨ ((∃ e, effectIllegal s i eff = some e) ∧ t = eff s) := by
  simp only [issueWord, Host.Outcome.next.injEq] at h
  split at h
  · exact .inl h.symm
  · rename_i hr
    split at h
    · rename_i he
      split at h
      · exact .inr (.inr (.inr (.inr ⟨⟨_, he⟩, h.symm⟩)))
      · exact .inr (.inl ⟨_, _, _, h.symm⟩)
    · exact .inr (.inl ⟨_, _, _, h.symm⟩)
    · rename_i he
      exact .inr (.inr (.inr (.inr ⟨⟨_, he⟩, h.symm⟩)))
    · rename_i hc _
      split at h
      · exact .inl h.symm
      · rename_i hg
        split at h
        · exact .inr (.inl ⟨_, _, _, h.symm⟩)
        · rename_i hp
          cases hd : s.cur.hd with
          | false => exact .inr (.inr (.inl ⟨by simp_all [issues], h.symm⟩))
          | true =>
            cases hh : s.ccore.handler with
            | none => exact .inr (.inr (.inr (.inl ⟨rfl, rfl, h.symm⟩)))
            | some t => exact .inr (.inr (.inl ⟨by simp_all [issues], h.symm⟩))

/-- A word that writes a result and issues posts it, and does nothing else. -/
theorem issueResult_of_issues {s : State} {i : Instr} {p : Perm} (h : issues s i p = true) (lat : Nat) (vec : Bool) (imm : Option Word)
    (slots : State → List Vec) (f : Replay → Res) :
    issueResult s i p lat vec imm slots f = .next (postResult s lat (mkReplay s i imm (slots s) vec) (f (mkReplay s i imm (slots s) vec))) :=
  issueWord_of_issues h _

/-- A register value read back from its operand slot. -/
@[simp] theorem ofSlot_slotOf (v : Word) : ofSlot (slotOf v) = v := by
  simp only [ofSlot, slotOf, BitVec.toNat_ofNat]
  rw [Nat.mod_eq_of_lt (Nat.lt_of_lt_of_le v.isLt (Nat.pow_le_pow_right (by decide) (by decide))), BitVec.ofNat_toNat, BitVec.setWidth_eq]

/-- The number in an operand slot of a register value. -/
@[simp] theorem toNat_slotOf (v : Word) : (slotOf v).toNat = v.toNat := by
  simp only [slotOf, BitVec.toNat_ofNat]
  exact Nat.mod_eq_of_lt (Nat.lt_of_lt_of_le v.isLt (Nat.pow_le_pow_right (by decide) (by decide)))

/-- A posted result leaves every byte of memory as it is. -/
@[simp] theorem postResult_mem (s : State) (lat : Nat) (rp : Replay) (res : Res) : (postResult s lat rp res).mem = s.mem := rfl

end Sys2Proof.Machine
end

