-- ==== Sys2Proof/Laws/Dispatch.lean ====
section
/-!
SUPPORT. What exec calls for each instruction, and for each instruction word the one operation by which it issues, with who may issue it.
-/
namespace Sys2Proof.Machine

/-- Who may issue a word (R263, R469, R472). -/
def permOf (i : Instr) : Perm := if taskOnly i then .task else if handlerOnly i then .handler else .both

/-! ### The meaning that exec calls -/

theorem exec_nop (h : SHead) (s : State) : exec (.nop h) s = execNop h s := rfl
theorem exec_add (h : SHead) (d a b : BitVec 6) (s : State) : exec (.add h d a b) s = execAdd h d a b s := rfl
theorem exec_sub (h : SHead) (d a b : BitVec 6) (s : State) : exec (.sub h d a b) s = execSub h d a b s := rfl
theorem exec_addi (h : SHead) (d a im : BitVec 6) (s : State) : exec (.addi h d a im) s = execAddi h d a im s := rfl
theorem exec_mul (h : SHead) (d a b : BitVec 6) (s : State) : exec (.mul h d a b) s = execMul h d a b s := rfl
theorem exec_mulhs (h : SHead) (d a b : BitVec 6) (s : State) : exec (.mulhs h d a b) s = execMulhs h d a b s := rfl
theorem exec_mulhu (h : SHead) (d a b : BitVec 6) (s : State) : exec (.mulhu h d a b) s = execMulhu h d a b s := rfl
theorem exec_and (h : SHead) (d a b : BitVec 6) (s : State) : exec (.and h d a b) s = execAnd h d a b s := rfl
theorem exec_or (h : SHead) (d a b : BitVec 6) (s : State) : exec (.or h d a b) s = execOr h d a b s := rfl
theorem exec_xor (h : SHead) (d a b : BitVec 6) (s : State) : exec (.xor h d a b) s = execXor h d a b s := rfl
theorem exec_andi (h : SHead) (d a im : BitVec 6) (s : State) : exec (.andi h d a im) s = execAndi h d a im s := rfl
theorem exec_ori (h : SHead) (d a im : BitVec 6) (s : State) : exec (.ori h d a im) s = execOri h d a im s := rfl
theorem exec_xori (h : SHead) (d a im : BitVec 6) (s : State) : exec (.xori h d a im) s = execXori h d a im s := rfl
theorem exec_shl (h : SHead) (d a b : BitVec 6) (s : State) : exec (.shl h d a b) s = execShl h d a b s := rfl
theorem exec_shr (h : SHead) (d a b : BitVec 6) (s : State) : exec (.shr h d a b) s = execShr h d a b s := rfl
theorem exec_sar (h : SHead) (d a b : BitVec 6) (s : State) : exec (.sar h d a b) s = execSar h d a b s := rfl
theorem exec_shli (h : SHead) (d a im : BitVec 6) (s : State) : exec (.shli h d a im) s = execShli h d a im s := rfl
theorem exec_shri (h : SHead) (d a im : BitVec 6) (s : State) : exec (.shri h d a im) s = execShri h d a im s := rfl
theorem exec_sari (h : SHead) (d a im : BitVec 6) (s : State) : exec (.sari h d a im) s = execSari h d a im s := rfl
theorem exec_min (h : SHead) (d a b : BitVec 6) (s : State) : exec (.min h d a b) s = execMin h d a b s := rfl
theorem exec_max (h : SHead) (d a b : BitVec 6) (s : State) : exec (.max h d a b) s = execMax h d a b s := rfl
theorem exec_minu (h : SHead) (d a b : BitVec 6) (s : State) : exec (.minu h d a b) s = execMinu h d a b s := rfl
theorem exec_maxu (h : SHead) (d a b : BitVec 6) (s : State) : exec (.maxu h d a b) s = execMaxu h d a b s := rfl
theorem exec_li (h : SHead) (d : BitVec 6) (im : BitVec 12) (s : State) : exec (.li h d im) s = execLi h d im s := rfl
theorem exec_sel (h : SHead) (d a b : BitVec 6) (s : State) : exec (.sel h d a b) s = execSel h d a b s := rfl
theorem exec_cmpeq (h : SHead) (e : BitVec 4) (a b : BitVec 6) (s : State) : exec (.cmpeq h e a b) s = execCmpeq h e a b s := rfl
theorem exec_cmpne (h : SHead) (e : BitVec 4) (a b : BitVec 6) (s : State) : exec (.cmpne h e a b) s = execCmpne h e a b s := rfl
theorem exec_cmplt (h : SHead) (e : BitVec 4) (a b : BitVec 6) (s : State) : exec (.cmplt h e a b) s = execCmplt h e a b s := rfl
theorem exec_cmple (h : SHead) (e : BitVec 4) (a b : BitVec 6) (s : State) : exec (.cmple h e a b) s = execCmple h e a b s := rfl
theorem exec_cmpltu (h : SHead) (e : BitVec 4) (a b : BitVec 6) (s : State) : exec (.cmpltu h e a b) s = execCmpltu h e a b s := rfl
theorem exec_cmpleu (h : SHead) (e : BitVec 4) (a b : BitVec 6) (s : State) : exec (.cmpleu h e a b) s = execCmpleu h e a b s := rfl
theorem exec_cmpeqi (h : SHead) (e : BitVec 4) (a im : BitVec 6) (s : State) : exec (.cmpeqi h e a im) s = execCmpeqi h e a im s := rfl
theorem exec_cmplti (h : SHead) (e : BitVec 4) (a im : BitVec 6) (s : State) : exec (.cmplti h e a im) s = execCmplti h e a im s := rfl
theorem exec_pand (h : SHead) (pd pa pb : BitVec 4) (s : State) : exec (.pand h pd pa pb) s = execPand h pd pa pb s := rfl
theorem exec_por (h : SHead) (pd pa pb : BitVec 4) (s : State) : exec (.por h pd pa pb) s = execPor h pd pa pb s := rfl
theorem exec_pxor (h : SHead) (pd pa pb : BitVec 4) (s : State) : exec (.pxor h pd pa pb) s = execPxor h pd pa pb s := rfl
theorem exec_pandn (h : SHead) (pd pa pb : BitVec 4) (s : State) : exec (.pandn h pd pa pb) s = execPandn h pd pa pb s := rfl
theorem exec_xmov (h : SHead) (d a : BitVec 6) (s : State) : exec (.xmov h d a) s = execXmov h d a s := rfl
theorem exec_qrd (h : SHead) (d : BitVec 6) (q : BitVec 3) (s : State) : exec (.qrd h d q) s = execQrd h d q s := rfl
theorem exec_fadd (h : SHead) (r : BitVec 2) (d a b : BitVec 5) (s : State) : exec (.fadd h r d a b) s = execFadd h r d a b s := rfl
theorem exec_fsub (h : SHead) (r : BitVec 2) (d a b : BitVec 5) (s : State) : exec (.fsub h r d a b) s = execFsub h r d a b s := rfl
theorem exec_fmul (h : SHead) (r : BitVec 2) (d a b : BitVec 5) (s : State) : exec (.fmul h r d a b) s = execFmul h r d a b s := rfl
theorem exec_ffma (h : SHead) (r : BitVec 2) (d a b : BitVec 5) (s : State) : exec (.ffma h r d a b) s = execFfma h r d a b s := rfl
theorem exec_fmin (h : SHead) (d a b : BitVec 5) (s : State) : exec (.fmin h d a b) s = execFmin h d a b s := rfl
theorem exec_fmax (h : SHead) (d a b : BitVec 5) (s : State) : exec (.fmax h d a b) s = execFmax h d a b s := rfl
theorem exec_dadd (h : SHead) (r : BitVec 2) (d a b : BitVec 5) (s : State) : exec (.dadd h r d a b) s = execDadd h r d a b s := rfl
theorem exec_dsub (h : SHead) (r : BitVec 2) (d a b : BitVec 5) (s : State) : exec (.dsub h r d a b) s = execDsub h r d a b s := rfl
theorem exec_dmul (h : SHead) (r : BitVec 2) (d a b : BitVec 5) (s : State) : exec (.dmul h r d a b) s = execDmul h r d a b s := rfl
theorem exec_dfma (h : SHead) (r : BitVec 2) (d a b : BitVec 5) (s : State) : exec (.dfma h r d a b) s = execDfma h r d a b s := rfl
theorem exec_dmin (h : SHead) (d a b : BitVec 5) (s : State) : exec (.dmin h d a b) s = execDmin h d a b s := rfl
theorem exec_dmax (h : SHead) (d a b : BitVec 5) (s : State) : exec (.dmax h d a b) s = execDmax h d a b s := rfl
theorem exec_fcmpeq (h : SHead) (e : BitVec 4) (a b : BitVec 6) (s : State) : exec (.fcmpeq h e a b) s = execFcmpeq h e a b s := rfl
theorem exec_fcmplt (h : SHead) (e : BitVec 4) (a b : BitVec 6) (s : State) : exec (.fcmplt h e a b) s = execFcmplt h e a b s := rfl
theorem exec_fcmple (h : SHead) (e : BitVec 4) (a b : BitVec 6) (s : State) : exec (.fcmple h e a b) s = execFcmple h e a b s := rfl
theorem exec_dcmpeq (h : SHead) (e : BitVec 4) (a b : BitVec 6) (s : State) : exec (.dcmpeq h e a b) s = execDcmpeq h e a b s := rfl
theorem exec_dcmplt (h : SHead) (e : BitVec 4) (a b : BitVec 6) (s : State) : exec (.dcmplt h e a b) s = execDcmplt h e a b s := rfl
theorem exec_dcmple (h : SHead) (e : BitVec 4) (a b : BitVec 6) (s : State) : exec (.dcmple h e a b) s = execDcmple h e a b s := rfl
theorem exec_cvt (h : SHead) (r : BitVec 2) (d a x : BitVec 5) (s : State) : exec (.cvt h r d a x) s = execCvt h r d a x s := rfl
theorem exec_b (h : Head) (im : BitVec 18) (s : State) : exec (.b h im) s = execB h im s := rfl
theorem exec_call (h : Head) (d : BitVec 6) (im : BitVec 12) (s : State) : exec (.call h d im) s = execCall h d im s := rfl
theorem exec_jr (h : Head) (a : BitVec 6) (s : State) : exec (.jr h a) s = execJr h a s := rfl
theorem exec_loop (h : Head) (a : BitVec 6) (n : BitVec 2) (s : State) : exec (.loop h a n) s = execLoop h a n s := rfl
theorem exec_endTask (h : Head) (s : State) : exec (.endTask h) s = execEndTask h s := rfl
theorem exec_fdiv (h : Head) (r : BitVec 2) (d a b : BitVec 5) (s : State) : exec (.fdiv h r d a b) s = execFdiv h r d a b s := rfl
theorem exec_fsqrt (h : Head) (r : BitVec 2) (d a : BitVec 5) (s : State) : exec (.fsqrt h r d a) s = execFsqrt h r d a s := rfl
theorem exec_ddiv (h : Head) (r : BitVec 2) (d a b : BitVec 5) (s : State) : exec (.ddiv h r d a b) s = execDdiv h r d a b s := rfl
theorem exec_dsqrt (h : Head) (r : BitVec 2) (d a : BitVec 5) (s : State) : exec (.dsqrt h r d a) s = execDsqrt h r d a s := rfl
theorem exec_vmov (ch : Bool) (d a : BitVec 7) (s : State) : exec (.vmov ch d a) s = execVmov ch d a s := rfl
theorem exec_vfadd (ch : Bool) (w : BitVec 1) (d a b : BitVec 7) (s : State) : exec (.vfadd ch w d a b) s = execVfadd ch w d a b s := rfl
theorem exec_vfsub (ch : Bool) (w : BitVec 1) (d a b : BitVec 7) (s : State) : exec (.vfsub ch w d a b) s = execVfsub ch w d a b s := rfl
theorem exec_vfmul (ch : Bool) (w : BitVec 1) (d a b : BitVec 7) (s : State) : exec (.vfmul ch w d a b) s = execVfmul ch w d a b s := rfl
theorem exec_vfma (ch : Bool) (w : BitVec 1) (d a b : BitVec 7) (s : State) : exec (.vfma ch w d a b) s = execVfma ch w d a b s := rfl
theorem exec_vfmin (ch : Bool) (w : BitVec 1) (d a b : BitVec 7) (s : State) : exec (.vfmin ch w d a b) s = execVfmin ch w d a b s := rfl
theorem exec_vfmax (ch : Bool) (w : BitVec 1) (d a b : BitVec 7) (s : State) : exec (.vfmax ch w d a b) s = execVfmax ch w d a b s := rfl
theorem exec_vadd (ch : Bool) (w : BitVec 1) (d a b : BitVec 7) (s : State) : exec (.vadd ch w d a b) s = execVadd ch w d a b s := rfl
theorem exec_vsub (ch : Bool) (w : BitVec 1) (d a b : BitVec 7) (s : State) : exec (.vsub ch w d a b) s = execVsub ch w d a b s := rfl
theorem exec_vmul (ch : Bool) (w : BitVec 1) (d a b : BitVec 7) (s : State) : exec (.vmul ch w d a b) s = execVmul ch w d a b s := rfl
theorem exec_vmin (ch : Bool) (w : BitVec 1) (d a b : BitVec 7) (s : State) : exec (.vmin ch w d a b) s = execVmin ch w d a b s := rfl
theorem exec_vmax (ch : Bool) (w : BitVec 1) (d a b : BitVec 7) (s : State) : exec (.vmax ch w d a b) s = execVmax ch w d a b s := rfl
theorem exec_vminu (ch : Bool) (w : BitVec 1) (d a b : BitVec 7) (s : State) : exec (.vminu ch w d a b) s = execVminu ch w d a b s := rfl
theorem exec_vmaxu (ch : Bool) (w : BitVec 1) (d a b : BitVec 7) (s : State) : exec (.vmaxu ch w d a b) s = execVmaxu ch w d a b s := rfl
theorem exec_vand (ch : Bool) (d a b : BitVec 7) (s : State) : exec (.vand ch d a b) s = execVand ch d a b s := rfl
theorem exec_vor (ch : Bool) (d a b : BitVec 7) (s : State) : exec (.vor ch d a b) s = execVor ch d a b s := rfl
theorem exec_vxor (ch : Bool) (d a b : BitVec 7) (s : State) : exec (.vxor ch d a b) s = execVxor ch d a b s := rfl
theorem exec_vshl (ch : Bool) (w : BitVec 1) (d a b : BitVec 7) (s : State) : exec (.vshl ch w d a b) s = execVshl ch w d a b s := rfl
theorem exec_vshr (ch : Bool) (w : BitVec 1) (d a b : BitVec 7) (s : State) : exec (.vshr ch w d a b) s = execVshr ch w d a b s := rfl
theorem exec_vsar (ch : Bool) (w : BitVec 1) (d a b : BitVec 7) (s : State) : exec (.vsar ch w d a b) s = execVsar ch w d a b s := rfl
theorem exec_vfcmpeq (ch : Bool) (w : BitVec 1) (d a b : BitVec 7) (s : State) : exec (.vfcmpeq ch w d a b) s = execVfcmpeq ch w d a b s := rfl
theorem exec_vfcmplt (ch : Bool) (w : BitVec 1) (d a b : BitVec 7) (s : State) : exec (.vfcmplt ch w d a b) s = execVfcmplt ch w d a b s := rfl
theorem exec_vcmpeq (ch : Bool) (w : BitVec 1) (d a b : BitVec 7) (s : State) : exec (.vcmpeq ch w d a b) s = execVcmpeq ch w d a b s := rfl
theorem exec_vcmplt (ch : Bool) (w : BitVec 1) (d a b : BitVec 7) (s : State) : exec (.vcmplt ch w d a b) s = execVcmplt ch w d a b s := rfl
theorem exec_vsel (ch : Bool) (w : BitVec 1) (d a b : BitVec 7) (s : State) : exec (.vsel ch w d a b) s = execVsel ch w d a b s := rfl
theorem exec_vexp2 (ch : Bool) (w : BitVec 1) (d a : BitVec 7) (s : State) : exec (.vexp2 ch w d a) s = execVexp2 ch w d a s := rfl
theorem exec_vrcp (ch : Bool) (w : BitVec 1) (d a : BitVec 7) (s : State) : exec (.vrcp ch w d a) s = execVrcp ch w d a s := rfl
theorem exec_vrsq (ch : Bool) (w : BitVec 1) (d a : BitVec 7) (s : State) : exec (.vrsq ch w d a) s = execVrsq ch w d a s := rfl
theorem exec_vfrsum (ch : Bool) (w : BitVec 1) (d : BitVec 6) (a : BitVec 7) (s : State) : exec (.vfrsum ch w d a) s = execVfrsum ch w d a s := rfl
theorem exec_vfrmax (ch : Bool) (w : BitVec 1) (d : BitVec 6) (a : BitVec 7) (s : State) : exec (.vfrmax ch w d a) s = execVfrmax ch w d a s := rfl
theorem exec_vbcast (ch : Bool) (w : BitVec 1) (d : BitVec 7) (a : BitVec 6) (s : State) : exec (.vbcast ch w d a) s = execVbcast ch w d a s := rfl
theorem exec_vperm (ch : Bool) (w : BitVec 1) (d a b : BitVec 7) (s : State) : exec (.vperm ch w d a b) s = execVperm ch w d a b s := rfl
theorem exec_vcvt (ch : Bool) (d a : BitVec 7) (x : BitVec 5) (s : State) : exec (.vcvt ch d a x) s = execVcvt ch d a x s := rfl
theorem exec_vbmax (ch : Bool) (w : BitVec 1) (d a : BitVec 7) (s : State) : exec (.vbmax ch w d a) s = execVbmax ch w d a s := rfl
theorem exec_vqcvt (ch : Bool) (w : BitVec 1) (d a : BitVec 7) (s : State) : exec (.vqcvt ch w d a) s = execVqcvt ch w d a s := rfl
theorem exec_vdeq (ch : Bool) (w : BitVec 1) (d a b : BitVec 7) (s : State) : exec (.vdeq ch w d a b) s = execVdeq ch w d a b s := rfl
theorem exec_vsetfmt (ch : Bool) (a : BitVec 6) (s : State) : exec (.vsetfmt ch a) s = execVsetfmt ch a s := rfl
theorem exec_vqmov (ch : Bool) (d : BitVec 7) (q : BitVec 3) (s : State) : exec (.vqmov ch d q) s = execVqmov ch d q s := rfl
theorem exec_vqmovSend (ch : Bool) (d : BitVec 7) (l : BitVec 2) (s : State) : exec (.vqmovSend ch d l) s = execVqmovSend ch d l s := rfl
theorem exec_cubeMm (h : Head) (t a b : BitVec 6) (s : State) : exec (.cubeMm h t a b) s = execCubeMm h t a b s := rfl
theorem exec_cubeMma (h : Head) (t a b : BitVec 6) (s : State) : exec (.cubeMma h t a b) s = execCubeMma h t a b s := rfl
theorem exec_cubeMmw (h : Head) (t a b : BitVec 6) (s : State) : exec (.cubeMmw h t a b) s = execCubeMmw h t a b s := rfl
theorem exec_cubeMmwa (h : Head) (t a b : BitVec 6) (s : State) : exec (.cubeMmwa h t a b) s = execCubeMmwa h t a b s := rfl
theorem exec_cubePl (h : Head) (t a b : BitVec 6) (s : State) : exec (.cubePl h t a b) s = execCubePl h t a b s := rfl
theorem exec_cubePla (h : Head) (t a b : BitVec 6) (s : State) : exec (.cubePla h t a b) s = execCubePla h t a b s := rfl
theorem exec_cubeWl (h : Head) (t a b : BitVec 6) (s : State) : exec (.cubeWl h t a b) s = execCubeWl h t a b s := rfl
theorem exec_cubeFmt (h : Head) (t a : BitVec 6) (s : State) : exec (.cubeFmt h t a) s = execCubeFmt h t a s := rfl
theorem exec_cubeZero (h : Head) (t a : BitVec 6) (s : State) : exec (.cubeZero h t a) s = execCubeZero h t a s := rfl
theorem exec_cubeDrain (h : Head) (t a b : BitVec 6) (s : State) : exec (.cubeDrain h t a b) s = execCubeDrain h t a b s := rfl
theorem exec_cubeScore (h : Head) (t a b : BitVec 6) (s : State) : exec (.cubeScore h t a b) s = execCubeScore h t a b s := rfl
theorem exec_cubeResc (h : Head) (t a : BitVec 6) (s : State) : exec (.cubeResc h t a) s = execCubeResc h t a s := rfl
theorem exec_cubeSide (h : Head) (d a b : BitVec 6) (s : State) : exec (.cubeSide h d a b) s = execCubeSide h d a b s := rfl
theorem exec_lda (h : Head) (d a : BitVec 6) (z : BitVec 2) (x : BitVec 1) (s : State) : exec (.lda h d a z x) s = execLda h d a z x s := rfl
theorem exec_sta (h : Head) (d a : BitVec 6) (z : BitVec 2) (s : State) : exec (.sta h d a z) s = execSta h d a z s := rfl
theorem exec_mlda (h : Head) (m : BitVec 7) (a : BitVec 6) (s : State) : exec (.mlda h m a) s = execMlda h m a s := rfl
theorem exec_msta (h : Head) (m : BitVec 7) (a : BitVec 6) (s : State) : exec (.msta h m a) s = execMsta h m a s := rfl
theorem exec_ldw (h : Head) (d a : BitVec 6) (z : BitVec 2) (x : BitVec 1) (s : State) : exec (.ldw h d a z x) s = execLdw h d a z x s := rfl
theorem exec_stw (h : Head) (d a : BitVec 6) (z : BitVec 2) (s : State) : exec (.stw h d a z) s = execStw h d a z s := rfl
theorem exec_mldw (h : Head) (m : BitVec 7) (a : BitVec 6) (s : State) : exec (.mldw h m a) s = execMldw h m a s := rfl
theorem exec_mstw (h : Head) (m : BitVec 7) (a : BitVec 6) (s : State) : exec (.mstw h m a) s = execMstw h m a s := rfl
theorem exec_ldc (h : Head) (d a : BitVec 6) (z : BitVec 2) (x : BitVec 1) (s : State) : exec (.ldc h d a z x) s = execLdc h d a z x s := rfl
theorem exec_stc (h : Head) (d a : BitVec 6) (z : BitVec 2) (s : State) : exec (.stc h d a z) s = execStc h d a z s := rfl
theorem exec_mldc (h : Head) (m : BitVec 7) (a : BitVec 6) (s : State) : exec (.mldc h m a) s = execMldc h m a s := rfl
theorem exec_mstc (h : Head) (m : BitVec 7) (a : BitVec 6) (s : State) : exec (.mstc h m a) s = execMstc h m a s := rfl
theorem exec_ldx (h : Head) (d a : BitVec 6) (z : BitVec 2) (x : BitVec 1) (s : State) : exec (.ldx h d a z x) s = execLdx h d a z x s := rfl
theorem exec_stx (h : Head) (d a : BitVec 6) (z : BitVec 2) (s : State) : exec (.stx h d a z) s = execStx h d a z s := rfl
theorem exec_mldx (h : Head) (m : BitVec 7) (a : BitVec 6) (s : State) : exec (.mldx h m a) s = execMldx h m a s := rfl
theorem exec_mstx (h : Head) (m : BitVec 7) (a : BitVec 6) (s : State) : exec (.mstx h m a) s = execMstx h m a s := rfl
theorem exec_aaddW (h : Head) (sp : BitVec 1) (o : BitVec 2) (d a b : BitVec 5) (s : State) : exec (.aaddW h sp o d a b) s = execAaddW h sp o d a b s := rfl
theorem exec_aaddD (h : Head) (sp : BitVec 1) (o : BitVec 2) (d a b : BitVec 5) (s : State) : exec (.aaddD h sp o d a b) s = execAaddD h sp o d a b s := rfl
theorem exec_asmaxW (h : Head) (sp : BitVec 1) (o : BitVec 2) (d a b : BitVec 5) (s : State) : exec (.asmaxW h sp o d a b) s = execAsmaxW h sp o d a b s := rfl
theorem exec_asmaxD (h : Head) (sp : BitVec 1) (o : BitVec 2) (d a b : BitVec 5) (s : State) : exec (.asmaxD h sp o d a b) s = execAsmaxD h sp o d a b s := rfl
theorem exec_asminW (h : Head) (sp : BitVec 1) (o : BitVec 2) (d a b : BitVec 5) (s : State) : exec (.asminW h sp o d a b) s = execAsminW h sp o d a b s := rfl
theorem exec_asminD (h : Head) (sp : BitVec 1) (o : BitVec 2) (d a b : BitVec 5) (s : State) : exec (.asminD h sp o d a b) s = execAsminD h sp o d a b s := rfl
theorem exec_aumaxW (h : Head) (sp : BitVec 1) (o : BitVec 2) (d a b : BitVec 5) (s : State) : exec (.aumaxW h sp o d a b) s = execAumaxW h sp o d a b s := rfl
theorem exec_aumaxD (h : Head) (sp : BitVec 1) (o : BitVec 2) (d a b : BitVec 5) (s : State) : exec (.aumaxD h sp o d a b) s = execAumaxD h sp o d a b s := rfl
theorem exec_auminW (h : Head) (sp : BitVec 1) (o : BitVec 2) (d a b : BitVec 5) (s : State) : exec (.auminW h sp o d a b) s = execAuminW h sp o d a b s := rfl
theorem exec_auminD (h : Head) (sp : BitVec 1) (o : BitVec 2) (d a b : BitVec 5) (s : State) : exec (.auminD h sp o d a b) s = execAuminD h sp o d a b s := rfl
theorem exec_axchgW (h : Head) (sp : BitVec 1) (o : BitVec 2) (d a b : BitVec 5) (s : State) : exec (.axchgW h sp o d a b) s = execAxchgW h sp o d a b s := rfl
theorem exec_axchgD (h : Head) (sp : BitVec 1) (o : BitVec 2) (d a b : BitVec 5) (s : State) : exec (.axchgD h sp o d a b) s = execAxchgD h sp o d a b s := rfl
theorem exec_acasW (h : Head) (sp : BitVec 1) (o : BitVec 2) (d a b : BitVec 5) (s : State) : exec (.acasW h sp o d a b) s = execAcasW h sp o d a b s := rfl
theorem exec_acasD (h : Head) (sp : BitVec 1) (o : BitVec 2) (d a b : BitVec 5) (s : State) : exec (.acasD h sp o d a b) s = execAcasD h sp o d a b s := rfl
theorem exec_afadd (h : Head) (sp : BitVec 1) (o : BitVec 2) (d a b : BitVec 5) (s : State) : exec (.afadd h sp o d a b) s = execAfadd h sp o d a b s := rfl
theorem exec_afmax (h : Head) (sp : BitVec 1) (o : BitVec 2) (d a b : BitVec 5) (s : State) : exec (.afmax h sp o d a b) s = execAfmax h sp o d a b s := rfl
theorem exec_afmin (h : Head) (sp : BitVec 1) (o : BitVec 2) (d a b : BitVec 5) (s : State) : exec (.afmin h sp o d a b) s = execAfmin h sp o d a b s := rfl
theorem exec_redaddW (h : Head) (sp : BitVec 1) (o : BitVec 2) (a b : BitVec 5) (s : State) : exec (.redaddW h sp o a b) s = execRedaddW h sp o a b s := rfl
theorem exec_redaddD (h : Head) (sp : BitVec 1) (o : BitVec 2) (a b : BitVec 5) (s : State) : exec (.redaddD h sp o a b) s = execRedaddD h sp o a b s := rfl
theorem exec_redsmaxW (h : Head) (sp : BitVec 1) (o : BitVec 2) (a b : BitVec 5) (s : State) : exec (.redsmaxW h sp o a b) s = execRedsmaxW h sp o a b s := rfl
theorem exec_redsmaxD (h : Head) (sp : BitVec 1) (o : BitVec 2) (a b : BitVec 5) (s : State) : exec (.redsmaxD h sp o a b) s = execRedsmaxD h sp o a b s := rfl
theorem exec_redsminW (h : Head) (sp : BitVec 1) (o : BitVec 2) (a b : BitVec 5) (s : State) : exec (.redsminW h sp o a b) s = execRedsminW h sp o a b s := rfl
theorem exec_redsminD (h : Head) (sp : BitVec 1) (o : BitVec 2) (a b : BitVec 5) (s : State) : exec (.redsminD h sp o a b) s = execRedsminD h sp o a b s := rfl
theorem exec_redumaxW (h : Head) (sp : BitVec 1) (o : BitVec 2) (a b : BitVec 5) (s : State) : exec (.redumaxW h sp o a b) s = execRedumaxW h sp o a b s := rfl
theorem exec_redumaxD (h : Head) (sp : BitVec 1) (o : BitVec 2) (a b : BitVec 5) (s : State) : exec (.redumaxD h sp o a b) s = execRedumaxD h sp o a b s := rfl
theorem exec_reduminW (h : Head) (sp : BitVec 1) (o : BitVec 2) (a b : BitVec 5) (s : State) : exec (.reduminW h sp o a b) s = execReduminW h sp o a b s := rfl
theorem exec_reduminD (h : Head) (sp : BitVec 1) (o : BitVec 2) (a b : BitVec 5) (s : State) : exec (.reduminD h sp o a b) s = execReduminD h sp o a b s := rfl
theorem exec_redxchgW (h : Head) (sp : BitVec 1) (o : BitVec 2) (a b : BitVec 5) (s : State) : exec (.redxchgW h sp o a b) s = execRedxchgW h sp o a b s := rfl
theorem exec_redxchgD (h : Head) (sp : BitVec 1) (o : BitVec 2) (a b : BitVec 5) (s : State) : exec (.redxchgD h sp o a b) s = execRedxchgD h sp o a b s := rfl
theorem exec_redcasW (h : Head) (sp : BitVec 1) (o : BitVec 2) (d a b : BitVec 5) (s : State) : exec (.redcasW h sp o d a b) s = execRedcasW h sp o d a b s := rfl
theorem exec_redcasD (h : Head) (sp : BitVec 1) (o : BitVec 2) (d a b : BitVec 5) (s : State) : exec (.redcasD h sp o d a b) s = execRedcasD h sp o d a b s := rfl
theorem exec_redfadd (h : Head) (sp : BitVec 1) (o : BitVec 2) (a b : BitVec 5) (s : State) : exec (.redfadd h sp o a b) s = execRedfadd h sp o a b s := rfl
theorem exec_redfmax (h : Head) (sp : BitVec 1) (o : BitVec 2) (a b : BitVec 5) (s : State) : exec (.redfmax h sp o a b) s = execRedfmax h sp o a b s := rfl
theorem exec_redfmin (h : Head) (sp : BitVec 1) (o : BitVec 2) (a b : BitVec 5) (s : State) : exec (.redfmin h sp o a b) s = execRedfmin h sp o a b s := rfl
theorem exec_act (h : Head) (t a : BitVec 6) (s : State) : exec (.act h t a) s = execAct h t a s := rfl
theorem exec_pre (h : Head) (t a : BitVec 6) (s : State) : exec (.pre h t a) s = execPre h t a s := rfl
theorem exec_prea (h : Head) (t a : BitVec 6) (s : State) : exec (.prea h t a) s = execPrea h t a s := rfl
theorem exec_rd (h : Head) (t a b : BitVec 6) (s : State) : exec (.rd h t a b) s = execRd h t a b s := rfl
theorem exec_wr (h : Head) (t a b : BitVec 6) (s : State) : exec (.wr h t a b) s = execWr h t a b s := rfl
theorem exec_rdt (h : Head) (t a b : BitVec 6) (s : State) : exec (.rdt h t a b) s = execRdt h t a b s := rfl
theorem exec_wrt (h : Head) (t a b : BitVec 6) (s : State) : exec (.wrt h t a b) s = execWrt h t a b s := rfl
theorem exec_refpb (h : Head) (t a : BitVec 6) (s : State) : exec (.refpb h t a) s = execRefpb h t a s := rfl
theorem exec_refab (h : Head) (t a : BitVec 6) (s : State) : exec (.refab h t a) s = execRefab h t a s := rfl
theorem exec_mzero (h : Head) (t a : BitVec 6) (s : State) : exec (.mzero h t a) s = execMzero h t a s := rfl
theorem exec_mcopy (h : Head) (t a b : BitVec 6) (s : State) : exec (.mcopy h t a b) s = execMcopy h t a b s := rfl
theorem exec_mcmp (h : Head) (t a b : BitVec 6) (s : State) : exec (.mcmp h t a b) s = execMcmp h t a b s := rfl
theorem exec_lfence (h : Head) (t a : BitVec 6) (s : State) : exec (.lfence h t a) s = execLfence h t a s := rfl
theorem exec_mark (h : Head) (t a b : BitVec 6) (s : State) : exec (.mark h t a b) s = execMark h t a b s := rfl
theorem exec_copy (h : Head) (t a b : BitVec 6) (s : State) : exec (.copy h t a b) s = execCopy h t a b s := rfl
theorem exec_mcast (h : Head) (t a b : BitVec 6) (s : State) : exec (.mcast h t a b) s = execMcast h t a b s := rfl
theorem exec_fill (h : Head) (t a b : BitVec 6) (s : State) : exec (.fill h t a b) s = execFill h t a b s := rfl
theorem exec_heel (h : Head) (t : BitVec 6) (y : BitVec 9) (s : State) : exec (.heel h t y) s = execHeel h t y s := rfl
theorem exec_rebase (h : Head) (im : BitVec 12) (s : State) : exec (.rebase h im) s = execRebase h im s := rfl
theorem exec_rdtick (h : Head) (d : BitVec 6) (s : State) : exec (.rdtick h d) s = execRdtick h d s := rfl
theorem exec_flagset (h : Head) (a b : BitVec 6) (s : State) : exec (.flagset h a b) s = execFlagset h a b s := rfl
theorem exec_flagwait (h : Head) (d a b : BitVec 6) (s : State) : exec (.flagwait h d a b) s = execFlagwait h d a b s := rfl
theorem exec_bararr (h : Head) (d a : BitVec 6) (s : State) : exec (.bararr h d a) s = execBararr h d a s := rfl
theorem exec_barwait (h : Head) (d a b : BitVec 6) (s : State) : exec (.barwait h d a b) s = execBarwait h d a b s := rfl
theorem exec_fence (h : Head) (sp : BitVec 3) (s : State) : exec (.fence h sp) s = execFence h sp s := rfl
theorem exec_put (h : Head) (d a b : BitVec 6) (s : State) : exec (.put h d a b) s = execPut h d a b s := rfl
theorem exec_get (h : Head) (d a b : BitVec 6) (s : State) : exec (.get h d a b) s = execGet h d a b s := rfl
theorem exec_ratom (h : Head) (d a b : BitVec 6) (s : State) : exec (.ratom h d a b) s = execRatom h d a b s := rfl
theorem exec_waitc (h : Head) (d a b : BitVec 6) (s : State) : exec (.waitc h d a b) s = execWaitc h d a b s := rfl
theorem exec_launch (h : Head) (d a b : BitVec 6) (s : State) : exec (.launch h d a b) s = execLaunch h d a b s := rfl
theorem exec_ginst (h : Head) (d a b : BitVec 6) (s : State) : exec (.ginst h d a b) s = execGinst h d a b s := rfl
theorem exec_gwait (h : Head) (d a b : BitVec 6) (s : State) : exec (.gwait h d a b) s = execGwait h d a b s := rfl
theorem exec_cancel (h : Head) (a b : BitVec 6) (s : State) : exec (.cancel h a b) s = execCancel h a b s := rfl
theorem exec_crd (h : Head) (d a b : BitVec 6) (s : State) : exec (.crd h d a b) s = execCrd h d a b s := rfl
theorem exec_seal (h : Head) (a b : BitVec 6) (s : State) : exec (.seal h a b) s = execSeal h a b s := rfl
theorem exec_unseal (h : Head) (a b : BitVec 6) (s : State) : exec (.unseal h a b) s = execUnseal h a b s := rfl
theorem exec_krd (h : Head) (d a im : BitVec 6) (s : State) : exec (.krd h d a im) s = execKrd h d a im s := rfl
theorem exec_kwr (h : Head) (d a im : BitVec 6) (s : State) : exec (.kwr h d a im) s = execKwr h d a im s := rfl
theorem exec_tlbw (h : Head) (d a b : BitVec 6) (s : State) : exec (.tlbw h d a b) s = execTlbw h d a b s := rfl
theorem exec_tlbp (h : Head) (d a b : BitVec 6) (s : State) : exec (.tlbp h d a b) s = execTlbp h d a b s := rfl
theorem exec_tlbinv (h : Head) (d a b : BitVec 6) (s : State) : exec (.tlbinv h d a b) s = execTlbinv h d a b s := rfl
theorem exec_trap (h : Head) (im : BitVec 12) (s : State) : exec (.trap h im) s = execTrap h im s := rfl
theorem exec_linsp (h : Head) (e : BitVec 4) (l : BitVec 2) (x y : BitVec 6) (s : State) : exec (.linsp h e l x y) s = execLinsp h e l x y s := rfl
theorem exec_lpatch (h : Head) (e : BitVec 4) (l : BitVec 2) (x y : BitVec 6) (s : State) : exec (.lpatch h e l x y) s = execLpatch h e l x y s := rfl
theorem exec_lrq (h : Head) (e : BitVec 4) (l : BitVec 2) (x y : BitVec 6) (s : State) : exec (.lrq h e l x y) s = execLrq h e l x y s := rfl
theorem exec_lreinj (h : Head) (e : BitVec 4) (l : BitVec 2) (x y : BitVec 6) (s : State) : exec (.lreinj h e l x y) s = execLreinj h e l x y s := rfl
theorem exec_resume (h : Head) (e : BitVec 4) (l : BitVec 2) (s : State) : exec (.resume h e l) s = execResume h e l s := rfl
theorem exec_kill (h : Head) (e : BitVec 4) (l : BitVec 2) (s : State) : exec (.kill h e l) s = execKill h e l s := rfl
theorem exec_hret (h : Head) (s : State) : exec (.hret h) s = execHret h s := rfl
theorem exec_ldeleg (h : Head) (e : BitVec 4) (l : BitVec 2) (x y : BitVec 6) (s : State) : exec (.ldeleg h e l x y) s = execLdeleg h e l x y s := rfl
theorem exec_bcw (ch : Bool) (p : BitVec 8) (v : BitVec 4) (l : BitVec 1) (x : BitVec 4) (s : State) : exec (.bcw ch p v l x) s = execBcw ch p v l x s := rfl
theorem exec_ext (ch : Bool) (k : BitVec 1) (v : BitVec 25) (s : State) : exec (.ext ch k v) s = execExt ch k v s := rfl
theorem exec_ring (ch : Bool) (k : BitVec 1) (r : BitVec 3) (b l : BitVec 6) (s : State) : exec (.ring ch k r b l) s = execRing ch k r b l s := rfl
theorem exec_resultCommit (c : Nat) (hd : Bool) (id : Nat) (s : State) : exec (.resultCommit c hd id) s = execResultCommit c hd id s := rfl
theorem exec_engfmtApply (c : Nat) (s : State) : exec (.engfmtApply c) s = execEngfmtApply c s := rfl
theorem exec_localStoreCommit (c : Nat) (hd : Bool) (id : Nat) (s : State) : exec (.localStoreCommit c hd id) s = execLocalStoreCommit c hd id s := rfl
theorem exec_xAccessPerform (c id : Nat) (s : State) : exec (.xAccessPerform c id) s = execXAccessPerform c id s := rfl
theorem exec_xLoadReturn (c : Nat) (hd : Bool) (id : Nat) (s : State) : exec (.xLoadReturn c hd id) s = execXLoadReturn c hd id s := rfl
theorem exec_linkEntryArrive (c id : Nat) (s : State) : exec (.linkEntryArrive c id) s = execLinkEntryArrive c id s := rfl
theorem exec_copyCommandStart (c id : Nat) (s : State) : exec (.copyCommandStart c id) s = execCopyCommandStart c id s := rfl
theorem exec_copyBeatRead (c id : Nat) (s : State) : exec (.copyBeatRead c id) s = execCopyBeatRead c id s := rfl
theorem exec_copyBeatCommit (c id : Nat) (s : State) : exec (.copyBeatCommit c id) s = execCopyBeatCommit c id s := rfl
theorem exec_fillBeatCommit (c id : Nat) (s : State) : exec (.fillBeatCommit c id) s = execFillBeatCommit c id s := rfl
theorem exec_heldWriteCommit (c id : Nat) (s : State) : exec (.heldWriteCommit c id) s = execHeldWriteCommit c id s := rfl
theorem exec_timelineCommandPerform (c id : Nat) (s : State) : exec (.timelineCommandPerform c id) s = execTimelineCommandPerform c id s := rfl
theorem exec_tsvResend (c id fails lane : Nat) (s : State) : exec (.tsvResend c id fails lane) s = execTsvResend c id fails lane s := rfl
theorem exec_readDeliveryCommit (c id : Nat) (s : State) : exec (.readDeliveryCommit c id) s = execReadDeliveryCommit c id s := rfl
theorem exec_writeBurstVisible (c id : Nat) (s : State) : exec (.writeBurstVisible c id) s = execWriteBurstVisible c id s := rfl
theorem exec_inMemoryOpComplete (c id : Nat) (s : State) : exec (.inMemoryOpComplete c id) s = execInMemoryOpComplete c id s := rfl
theorem exec_mcmpResultCommit (c id : Nat) (s : State) : exec (.mcmpResultCommit c id) s = execMcmpResultCommit c id s := rfl
theorem exec_lfenceSatisfied (c id : Nat) (s : State) : exec (.lfenceSatisfied c id) s = execLfenceSatisfied c id s := rfl
theorem exec_markComplete (c id : Nat) (s : State) : exec (.markComplete c id) s = execMarkComplete c id s := rfl
theorem exec_translationMarkerRetire (c id : Nat) (s : State) : exec (.translationMarkerRetire c id) s = execTranslationMarkerRetire c id s := rfl
theorem exec_lentSpanStart (hs pc f : Nat) (s : State) : exec (.lentSpanStart hs pc f) s = execLentSpanStart hs pc f s := rfl
theorem exec_lentSpanEnd (hs pc f : Nat) (s : State) : exec (.lentSpanEnd hs pc f) s = execLentSpanEnd hs pc f s := rfl
theorem exec_holeMaintenance (hs pc f : Nat) (s : State) : exec (.holeMaintenance hs pc f) s = execHoleMaintenance hs pc f s := rfl
theorem exec_refreshWindowExpire (c hs pc bank : Nat) (s : State) : exec (.refreshWindowExpire c hs pc bank) s = execRefreshWindowExpire c hs pc bank s := rfl
theorem exec_safetyRefresh (hs pc bank : Nat) (s : State) : exec (.safetyRefresh hs pc bank) s = execSafetyRefresh hs pc bank s := rfl
theorem exec_idlePcRefresh (hs pc : Nat) (s : State) : exec (.idlePcRefresh hs pc) s = execIdlePcRefresh hs pc s := rfl
theorem exec_rcntWindowClear (hs : Nat) (s : State) : exec (.rcntWindowClear hs) s = execRcntWindowClear hs s := rfl
theorem exec_hbmTemperatureRead (hs temp : Nat) (s : State) : exec (.hbmTemperatureRead hs temp) s = execHbmTemperatureRead hs temp s := rfl
theorem exec_droopStretch (r : Nat) (s : State) : exec (.droopStretch r) s = execDroopStretch r s := rfl
theorem exec_referenceLost (r : Nat) (s : State) : exec (.referenceLost r) s = execReferenceLost r s := rfl
theorem exec_hbmReferenceLost (hs : Nat) (s : State) : exec (.hbmReferenceLost hs) s = execHbmReferenceLost hs s := rfl
theorem exec_referenceRelock (r : Nat) (s : State) : exec (.referenceRelock r) s = execReferenceRelock r s := rfl
theorem exec_snapshotPublish (s : State) : exec (.snapshotPublish) s = execSnapshotPublish s := rfl
theorem exec_heelArrive (c : Nat) (s : State) : exec (.heelArrive c) s = execHeelArrive c s := rfl
theorem exec_heelRelease (g : Nat) (s : State) : exec (.heelRelease g) s = execHeelRelease g s := rfl
theorem exec_heelExit (c : Nat) (s : State) : exec (.heelExit c) s = execHeelExit c s := rfl
theorem exec_fenceEnd (c : Nat) (hd : Bool) (s : State) : exec (.fenceEnd c hd) s = execFenceEnd c hd s := rfl
theorem exec_flagwaitSatisfied (c : Nat) (hd : Bool) (s : State) : exec (.flagwaitSatisfied c hd) s = execFlagwaitSatisfied c hd s := rfl
theorem exec_barrierArrival (c : Nat) (s : State) : exec (.barrierArrival c) s = execBarrierArrival c s := rfl
theorem exec_barwaitEnd (c : Nat) (s : State) : exec (.barwaitEnd c) s = execBarwaitEnd c s := rfl
theorem exec_waitcSatisfied (c : Nat) (s : State) : exec (.waitcSatisfied c) s = execWaitcSatisfied c s := rfl
theorem exec_gwaitEnd (c : Nat) (s : State) : exec (.gwaitEnd c) s = execGwaitEnd c s := rfl
theorem exec_walkerIntakeFree (c : Nat) (s : State) : exec (.walkerIntakeFree c) s = execWalkerIntakeFree c s := rfl
theorem exec_gAtomicPerform (hs : Nat) (s : State) : exec (.gAtomicPerform hs) s = execGAtomicPerform hs s := rfl
theorem exec_atomicReturn (c : Nat) (hd : Bool) (id : Nat) (s : State) : exec (.atomicReturn c hd id) s = execAtomicReturn c hd id s := rfl
theorem exec_fabricRequestIn (q : FabricReq) (s : State) : exec (.fabricRequestIn q) s = execFabricRequestIn q s := rfl
theorem exec_fabricCompletion (c id code cause : Nat) (old : Word) (s : State) : exec (.fabricCompletion c id code cause old) s = execFabricCompletion c id code cause old s := rfl
theorem exec_getPieceCommit (c id off : Nat) (v : Word) (s : State) : exec (.getPieceCommit c id off v) s = execGetPieceCommit c id off v s := rfl
theorem exec_taskRetire (c : Nat) (s : State) : exec (.taskRetire c) s = execTaskRetire c s := rfl
theorem exec_launchEnd (inst node : Nat) (s : State) : exec (.launchEnd inst node) s = execLaunchEnd inst node s := rfl
theorem exec_walkerHeldPush (s : State) : exec (.walkerHeldPush) s = execWalkerHeldPush s := rfl
theorem exec_readyAging (s : State) : exec (.readyAging) s = execReadyAging s := rfl
theorem exec_instanceWindowFill (inst : Nat) (s : State) : exec (.instanceWindowFill inst) s = execInstanceWindowFill inst s := rfl
theorem exec_sealComplete (s : State) : exec (.sealComplete) s = execSealComplete s := rfl
theorem exec_phaseBind (leases : List LeaseEntry) (s : State) : exec (.phaseBind leases) s = execPhaseBind leases s := rfl
theorem exec_shepherdTake (die n : Nat) (s : State) : exec (.shepherdTake die n) s = execShepherdTake die n s := rfl
theorem exec_shepherdReturn (die inst node pack : Nat) (s : State) : exec (.shepherdReturn die inst node pack) s = execShepherdReturn die inst node pack s := rfl
theorem exec_recordWrite (r slot : Nat) (ws : List Word) (s : State) : exec (.recordWrite r slot ws) s = execRecordWrite r slot ws s := rfl
theorem exec_recordWithdraw (r slot pos : Nat) (s : State) : exec (.recordWithdraw r slot pos) s = execRecordWithdraw r slot pos s := rfl
theorem exec_tlbPreload (c : Nat) (s : State) : exec (.tlbPreload c) s = execTlbPreload c s := rfl
theorem exec_packRelease (g : Nat) (s : State) : exec (.packRelease g) s = execPackRelease g s := rfl
theorem exec_regionGateBegin (r : Nat) (s : State) : exec (.regionGateBegin r) s = execRegionGateBegin r s := rfl
theorem exec_gatingComplete (r : Nat) (s : State) : exec (.gatingComplete r) s = execGatingComplete r s := rfl
theorem exec_wakeRequest (r : Nat) (s : State) : exec (.wakeRequest r) s = execWakeRequest r s := rfl
theorem exec_gateHoldOverride (r time : Nat) (s : State) : exec (.gateHoldOverride r time) s = execGateHoldOverride r time s := rfl
theorem exec_rampStart (r : Nat) (s : State) : exec (.rampStart r) s = execRampStart r s := rfl
theorem exec_rampEnd (r : Nat) (s : State) : exec (.rampEnd r) s = execRampEnd r s := rfl
theorem exec_preempt (victim claimant : Nat) (s : State) : exec (.preempt victim claimant) s = execPreempt victim claimant s := rfl
theorem exec_restore (inst : Nat) (s : State) : exec (.restore inst) s = execRestore inst s := rfl
theorem exec_placeBallast (c : Nat) (s : State) : exec (.placeBallast c) s = execPlaceBallast c s := rfl
theorem exec_shepherdCancel (level inst node : Nat) (s : State) : exec (.shepherdCancel level inst node) s = execShepherdCancel level inst node s := rfl
theorem exec_shepherdTlbWrite (c idx : Nat) (second : Bool) (w0 w1 : Word) (s : State) : exec (.shepherdTlbWrite c idx second w0 w1) s = execShepherdTlbWrite c idx second w0 w1 s := rfl
theorem exec_shepherdTlbInvalidate (cs : List Nat) (all : Bool) (va len : Nat) (s : State) : exec (.shepherdTlbInvalidate cs all va len) s = execShepherdTlbInvalidate cs all va len s := rfl
theorem exec_energyInterval (charges : List (Nat × Nat × Nat)) (s : State) : exec (.energyInterval charges) s = execEnergyInterval charges s := rfl
theorem exec_freezeNoticeArrive (g : Nat) (s : State) : exec (.freezeNoticeArrive g) s = execFreezeNoticeArrive g s := rfl
theorem exec_memberStop (c : Nat) (s : State) : exec (.memberStop c) s = execMemberStop c s := rfl
theorem exec_kennelDispatch (g : Nat) (s : State) : exec (.kennelDispatch g) s = execKennelDispatch g s := rfl
theorem exec_handlerBudgetExpire (c serial : Nat) (s : State) : exec (.handlerBudgetExpire c serial) s = execHandlerBudgetExpire c serial s := rfl
theorem exec_packResumeRelease (g epoch : Nat) (s : State) : exec (.packResumeRelease g epoch) s = execPackResumeRelease g epoch s := rfl
theorem exec_cubeCommandStart (c id : Nat) (s : State) : exec (.cubeCommandStart c id) s = execCubeCommandStart c id s := rfl
theorem exec_cubeStreamStep (c id : Nat) (s : State) : exec (.cubeStreamStep c id) s = execCubeStreamStep c id s := rfl
theorem exec_cubeResultCommit (c id : Nat) (s : State) : exec (.cubeResultCommit c id) s = execCubeResultCommit c id s := rfl
theorem exec_drainPieceCommit (c id : Nat) (s : State) : exec (.drainPieceCommit c id) s = execDrainPieceCommit c id s := rfl
theorem exec_rescaleRowCommit (c id : Nat) (s : State) : exec (.rescaleRowCommit c id) s = execRescaleRowCommit c id s := rfl
theorem exec_scorePLineCommit (c id : Nat) (s : State) : exec (.scorePLineCommit c id) s = execScorePLineCommit c id s := rfl
theorem exec_scoreSideCommit (c id : Nat) (s : State) : exec (.scoreSideCommit c id) s = execScoreSideCommit c id s := rfl
theorem exec_weightLatchReplace (c id : Nat) (s : State) : exec (.weightLatchReplace c id) s = execWeightLatchReplace c id s := rfl
theorem exec_layerFailure (c layer : Nat) (s : State) : exec (.layerFailure c layer) s = execLayerFailure c layer s := rfl
theorem exec_governorEvaluation (amps watts : Nat) (calm : Bool) (s : State) : exec (.governorEvaluation amps watts calm) s = execGovernorEvaluation amps watts calm s := rfl
theorem exec_stepApply (s : State) : exec (.stepApply) s = execStepApply s := rfl
theorem exec_sensorSample (temps : List Nat) (s : State) : exec (.sensorSample temps) s = execSensorSample temps s := rfl
theorem exec_whistleSend (s : State) : exec (.whistleSend) s = execWhistleSend s := rfl
theorem exec_whistleReceive (job w : Nat) (s : State) : exec (.whistleReceive job w) s = execWhistleReceive job w s := rfl
theorem exec_whistleTimeout (s : State) : exec (.whistleTimeout) s = execWhistleTimeout s := rfl
theorem exec_emergencyEnd (s : State) : exec (.emergencyEnd) s = execEmergencyEnd s := rfl
theorem exec_thermalTrip (sensor : Nat) (s : State) : exec (.thermalTrip sensor) s = execThermalTrip sensor s := rfl
theorem exec_currentTrip (amps : Nat) (s : State) : exec (.currentTrip amps) s = execCurrentTrip amps s := rfl
theorem exec_jstart (v : Word) (s : State) : exec (.jstart v) s = execJstart v s := rfl
theorem exec_jcancel (v : Word) (s : State) : exec (.jcancel v) s = execJcancel v s := rfl
theorem exec_hwbaseWrite (v : Word) (s : State) : exec (.hwbaseWrite v) s = execHwbaseWrite v s := rfl
theorem exec_jcauseClear (v : Word) (s : State) : exec (.jcauseClear v) s = execJcauseClear v s := rfl
theorem exec_clkstatClear (r : Nat) (v : Word) (s : State) : exec (.clkstatClear r v) s = execClkstatClear r v s := rfl
theorem exec_registerWrite (off : Nat) (v : Word) (s : State) : exec (.registerWrite off v) s = execRegisterWrite off v s := rfl
theorem exec_hostMemoryRead (off n : Nat) (s : State) : exec (.hostMemoryRead off n) s = execHostMemoryRead off n s := rfl
theorem exec_hostMemoryWrite (off : Nat) (data : List Byte) (s : State) : exec (.hostMemoryWrite off data) s = execHostMemoryWrite off data s := rfl
theorem exec_heartbeat (s : State) : exec (.heartbeat) s = execHeartbeat s := rfl
theorem exec_readErrorLog (tag hs : Nat) (s : State) : exec (.readErrorLog tag hs) s = execReadErrorLog tag hs s := rfl
theorem exec_readClocks (tag : Nat) (s : State) : exec (.readClocks tag) s = execReadClocks tag s := rfl
theorem exec_setPcap (tag watts : Nat) (s : State) : exec (.setPcap tag watts) s = execSetPcap tag watts s := rfl
theorem exec_readEnergy (tag : Nat) (s : State) : exec (.readEnergy tag) s = execReadEnergy tag s := rfl
theorem exec_readAvailabilityMap (tag hs : Nat) (s : State) : exec (.readAvailabilityMap tag hs) s = execReadAvailabilityMap tag hs s := rfl
theorem exec_setPkgid (tag id : Nat) (s : State) : exec (.setPkgid tag id) s = execSetPkgid tag id s := rfl
theorem exec_readKeys (tag : Nat) (s : State) : exec (.readKeys tag) s = execReadKeys tag s := rfl
theorem exec_attest (tag : Nat) (nonce : List Byte) (s : State) : exec (.attest tag nonce) s = execAttest tag nonce s := rfl
theorem exec_readTrace (tag die : Nat) (stop : Bool) (s : State) : exec (.readTrace tag die stop) s = execReadTrace tag die stop s := rfl
theorem exec_installFirmware (tag kind : Nat) (image : List Byte) (s : State) : exec (.installFirmware tag kind image) s = execInstallFirmware tag kind image s := rfl
theorem exec_readPhaseFailure (tag : Nat) (s : State) : exec (.readPhaseFailure tag) s = execReadPhaseFailure tag s := rfl
theorem exec_boot (s : State) : exec (.boot) s = execBoot s := rfl
theorem exec_shepherdKill (g : Nat) (s : State) : exec (.shepherdKill g) s = execShepherdKill g s := rfl
theorem exec_ballastStepDownEnd (c : Nat) (s : State) : exec (.ballastStepDownEnd c) s = execBallastStepDownEnd c s := rfl

/-! ### Words issue by issueWord -/

theorem issuedRegs (s : State) (i : Instr) (lat : Nat) (imm : Option Word) (rs : List Nat) : ∃ eff, issueRegs s i lat imm rs = issueWord s i .both eff := by
  unfold issueRegs issueResult; exact ⟨_, rfl⟩
theorem issuedResult (s : State) (i : Instr) (p : Perm) (lat : Nat) (vec : Bool) (imm : Option Word) (slots : State → List Vec) (f : Replay → Res) : ∃ eff, issueResult s i p lat vec imm slots f = issueWord s i p eff := by
  unfold issueResult; exact ⟨_, rfl⟩
theorem issuedDivide (s : State) (i : Instr) (lat : Nat) (rs : List Nat) : ∃ eff, issueDivide s i lat rs = issueWord s i .both eff := by
  unfold issueDivide; exact ⟨_, rfl⟩
theorem issuedMats (s : State) (i : Instr) (lat : Nat) (vec : Bool) (ms : List Nat) : ∃ eff, issueMats s i lat vec ms = issueWord s i .task eff := by
  unfold issueMats issueResult; exact ⟨_, rfl⟩
theorem issuedLoad (s : State) (i : Instr) (p : Perm) (face n : Nat) (vec : Bool) (a : BitVec 6) : ∃ eff, issueLoad s i p face n vec a = issueWord s i p eff := by
  unfold issueLoad; exact ⟨_, rfl⟩
theorem issuedLoadX (s : State) (i : Instr) (p : Perm) (n : Nat) (a : BitVec 6) : ∃ eff, issueLoadX s i p n a = issueWord s i p eff := by
  unfold issueLoadX; exact ⟨_, rfl⟩
theorem issuedTimeline (s : State) (i : Instr) (t : BitVec 6) (ask : State → TlAsk) : ∃ eff, issueTimeline s i t ask = issueWord s i .task eff := by
  unfold issueTimeline; exact ⟨_, rfl⟩
theorem issuedCopy (s : State) (i : Instr) (t : BitVec 6) (ask : State → CopyAsk) : ∃ eff, issueCopy s i t ask = issueWord s i .task eff := by
  unfold issueCopy; exact ⟨_, rfl⟩
theorem issuedCube (s : State) (i : Instr) (cmd : State → XCmd × List (Option Flt)) : ∃ eff, issueCube s i cmd = issueWord s i .task eff := by
  unfold issueCube; exact ⟨_, rfl⟩
theorem issuedFabric (s : State) (i : Instr) (kind : Nat) (d a b : BitVec 6) : ∃ eff, issueFabric s i kind d a b = issueWord s i .task eff := by
  unfold issueFabric; exact ⟨_, rfl⟩
theorem issuedCreate (s : State) (i : Instr) (g : Bool) (d a b : BitVec 6) : ∃ eff, issueCreate s i g d a b = issueWord s i .task eff := by
  unfold issueCreate; exact ⟨_, rfl⟩
theorem issuedSeal (s : State) (i : Instr) (undo : Bool) (a b : BitVec 6) : ∃ eff, issueSeal s i undo a b = issueWord s i .task eff := by
  unfold issueSeal; exact ⟨_, rfl⟩
theorem issuedStore (s : State) (i : Instr) (p : Perm) (face n : Nat) (a : BitVec 6) (data : State → Nat) :
    ∃ eff, issueStore s i p face n a data = issueWord s i p eff := by
  unfold issueStore; exact ⟨_, rfl⟩
theorem issuedStoreX (s : State) (i : Instr) (p : Perm) (n : Nat) (a : BitVec 6) (data : State → Nat) :
    ∃ eff, issueStoreX s i p n a data = issueWord s i p eff := by
  unfold issueStoreX; exact ⟨_, rfl⟩
theorem issuedAtomic (s : State) (i : Instr) (op n : Nat) (sp : BitVec 1) (o : BitVec 2) (a b : BitVec 5) (cmp : Option (BitVec 5)) :
    ∃ eff, issueAtomic s i op n sp o a b cmp = issueWord s i .both eff := by
  unfold issueAtomic; exact ⟨_, rfl⟩
theorem issuedLeash (s : State) (i : Instr) (lat : Nat) (pd : BitVec 4) (act : State → Option (State × Option (Nat × Word))) :
    ∃ eff, issueLeash s i lat pd act = issueWord s i .handler eff := by
  unfold issueLeash; exact ⟨_, rfl⟩

theorem issue_nop (h : SHead) (s : State) : ∃ eff, exec (.nop h) s = issueWord s (.nop h) .both eff := by
  rw [exec_nop]; unfold execNop; exact ⟨_, rfl⟩
theorem issue_add (h : SHead) (d a b : BitVec 6) (s : State) : ∃ eff, exec (.add h d a b) s = issueWord s (.add h d a b) .both eff := by
  rw [exec_add]; unfold execAdd; exact issuedRegs ..
theorem issue_sub (h : SHead) (d a b : BitVec 6) (s : State) : ∃ eff, exec (.sub h d a b) s = issueWord s (.sub h d a b) .both eff := by
  rw [exec_sub]; unfold execSub; exact issuedRegs ..
theorem issue_addi (h : SHead) (d a im : BitVec 6) (s : State) : ∃ eff, exec (.addi h d a im) s = issueWord s (.addi h d a im) .both eff := by
  rw [exec_addi]; unfold execAddi; exact issuedRegs ..
theorem issue_mul (h : SHead) (d a b : BitVec 6) (s : State) : ∃ eff, exec (.mul h d a b) s = issueWord s (.mul h d a b) .both eff := by
  rw [exec_mul]; unfold execMul; exact issuedRegs ..
theorem issue_mulhs (h : SHead) (d a b : BitVec 6) (s : State) : ∃ eff, exec (.mulhs h d a b) s = issueWord s (.mulhs h d a b) .both eff := by
  rw [exec_mulhs]; unfold execMulhs; exact issuedRegs ..
theorem issue_mulhu (h : SHead) (d a b : BitVec 6) (s : State) : ∃ eff, exec (.mulhu h d a b) s = issueWord s (.mulhu h d a b) .both eff := by
  rw [exec_mulhu]; unfold execMulhu; exact issuedRegs ..
theorem issue_and (h : SHead) (d a b : BitVec 6) (s : State) : ∃ eff, exec (.and h d a b) s = issueWord s (.and h d a b) .both eff := by
  rw [exec_and]; unfold execAnd; exact issuedRegs ..
theorem issue_or (h : SHead) (d a b : BitVec 6) (s : State) : ∃ eff, exec (.or h d a b) s = issueWord s (.or h d a b) .both eff := by
  rw [exec_or]; unfold execOr; exact issuedRegs ..
theorem issue_xor (h : SHead) (d a b : BitVec 6) (s : State) : ∃ eff, exec (.xor h d a b) s = issueWord s (.xor h d a b) .both eff := by
  rw [exec_xor]; unfold execXor; exact issuedRegs ..
theorem issue_andi (h : SHead) (d a im : BitVec 6) (s : State) : ∃ eff, exec (.andi h d a im) s = issueWord s (.andi h d a im) .both eff := by
  rw [exec_andi]; unfold execAndi; exact issuedRegs ..
theorem issue_ori (h : SHead) (d a im : BitVec 6) (s : State) : ∃ eff, exec (.ori h d a im) s = issueWord s (.ori h d a im) .both eff := by
  rw [exec_ori]; unfold execOri; exact issuedRegs ..
theorem issue_xori (h : SHead) (d a im : BitVec 6) (s : State) : ∃ eff, exec (.xori h d a im) s = issueWord s (.xori h d a im) .both eff := by
  rw [exec_xori]; unfold execXori; exact issuedRegs ..
theorem issue_shl (h : SHead) (d a b : BitVec 6) (s : State) : ∃ eff, exec (.shl h d a b) s = issueWord s (.shl h d a b) .both eff := by
  rw [exec_shl]; unfold execShl; exact issuedRegs ..
theorem issue_shr (h : SHead) (d a b : BitVec 6) (s : State) : ∃ eff, exec (.shr h d a b) s = issueWord s (.shr h d a b) .both eff := by
  rw [exec_shr]; unfold execShr; exact issuedRegs ..
theorem issue_sar (h : SHead) (d a b : BitVec 6) (s : State) : ∃ eff, exec (.sar h d a b) s = issueWord s (.sar h d a b) .both eff := by
  rw [exec_sar]; unfold execSar; exact issuedRegs ..
theorem issue_shli (h : SHead) (d a im : BitVec 6) (s : State) : ∃ eff, exec (.shli h d a im) s = issueWord s (.shli h d a im) .both eff := by
  rw [exec_shli]; unfold execShli; exact issuedRegs ..
theorem issue_shri (h : SHead) (d a im : BitVec 6) (s : State) : ∃ eff, exec (.shri h d a im) s = issueWord s (.shri h d a im) .both eff := by
  rw [exec_shri]; unfold execShri; exact issuedRegs ..
theorem issue_sari (h : SHead) (d a im : BitVec 6) (s : State) : ∃ eff, exec (.sari h d a im) s = issueWord s (.sari h d a im) .both eff := by
  rw [exec_sari]; unfold execSari; exact issuedRegs ..
theorem issue_min (h : SHead) (d a b : BitVec 6) (s : State) : ∃ eff, exec (.min h d a b) s = issueWord s (.min h d a b) .both eff := by
  rw [exec_min]; unfold execMin; exact issuedRegs ..
theorem issue_max (h : SHead) (d a b : BitVec 6) (s : State) : ∃ eff, exec (.max h d a b) s = issueWord s (.max h d a b) .both eff := by
  rw [exec_max]; unfold execMax; exact issuedRegs ..
theorem issue_minu (h : SHead) (d a b : BitVec 6) (s : State) : ∃ eff, exec (.minu h d a b) s = issueWord s (.minu h d a b) .both eff := by
  rw [exec_minu]; unfold execMinu; exact issuedRegs ..
theorem issue_maxu (h : SHead) (d a b : BitVec 6) (s : State) : ∃ eff, exec (.maxu h d a b) s = issueWord s (.maxu h d a b) .both eff := by
  rw [exec_maxu]; unfold execMaxu; exact issuedRegs ..
theorem issue_li (h : SHead) (d : BitVec 6) (im : BitVec 12) (s : State) : ∃ eff, exec (.li h d im) s = issueWord s (.li h d im) .both eff := by
  rw [exec_li]; unfold execLi; exact issuedRegs ..
theorem issue_sel (h : SHead) (d a b : BitVec 6) (s : State) : ∃ eff, exec (.sel h d a b) s = issueWord s (.sel h d a b) .both eff := by
  rw [exec_sel]; unfold execSel; exact issuedResult ..
theorem issue_cmpeq (h : SHead) (e : BitVec 4) (a b : BitVec 6) (s : State) : ∃ eff, exec (.cmpeq h e a b) s = issueWord s (.cmpeq h e a b) .both eff := by
  rw [exec_cmpeq]; unfold execCmpeq; exact issuedRegs ..
theorem issue_cmpne (h : SHead) (e : BitVec 4) (a b : BitVec 6) (s : State) : ∃ eff, exec (.cmpne h e a b) s = issueWord s (.cmpne h e a b) .both eff := by
  rw [exec_cmpne]; unfold execCmpne; exact issuedRegs ..
theorem issue_cmplt (h : SHead) (e : BitVec 4) (a b : BitVec 6) (s : State) : ∃ eff, exec (.cmplt h e a b) s = issueWord s (.cmplt h e a b) .both eff := by
  rw [exec_cmplt]; unfold execCmplt; exact issuedRegs ..
theorem issue_cmple (h : SHead) (e : BitVec 4) (a b : BitVec 6) (s : State) : ∃ eff, exec (.cmple h e a b) s = issueWord s (.cmple h e a b) .both eff := by
  rw [exec_cmple]; unfold execCmple; exact issuedRegs ..
theorem issue_cmpltu (h : SHead) (e : BitVec 4) (a b : BitVec 6) (s : State) : ∃ eff, exec (.cmpltu h e a b) s = issueWord s (.cmpltu h e a b) .both eff := by
  rw [exec_cmpltu]; unfold execCmpltu; exact issuedRegs ..
theorem issue_cmpleu (h : SHead) (e : BitVec 4) (a b : BitVec 6) (s : State) : ∃ eff, exec (.cmpleu h e a b) s = issueWord s (.cmpleu h e a b) .both eff := by
  rw [exec_cmpleu]; unfold execCmpleu; exact issuedRegs ..
theorem issue_cmpeqi (h : SHead) (e : BitVec 4) (a im : BitVec 6) (s : State) : ∃ eff, exec (.cmpeqi h e a im) s = issueWord s (.cmpeqi h e a im) .both eff := by
  rw [exec_cmpeqi]; unfold execCmpeqi; exact issuedRegs ..
theorem issue_cmplti (h : SHead) (e : BitVec 4) (a im : BitVec 6) (s : State) : ∃ eff, exec (.cmplti h e a im) s = issueWord s (.cmplti h e a im) .both eff := by
  rw [exec_cmplti]; unfold execCmplti; exact issuedRegs ..
theorem issue_pand (h : SHead) (pd pa pb : BitVec 4) (s : State) : ∃ eff, exec (.pand h pd pa pb) s = issueWord s (.pand h pd pa pb) .both eff := by
  rw [exec_pand]; unfold execPand; exact issuedResult ..
theorem issue_por (h : SHead) (pd pa pb : BitVec 4) (s : State) : ∃ eff, exec (.por h pd pa pb) s = issueWord s (.por h pd pa pb) .both eff := by
  rw [exec_por]; unfold execPor; exact issuedResult ..
theorem issue_pxor (h : SHead) (pd pa pb : BitVec 4) (s : State) : ∃ eff, exec (.pxor h pd pa pb) s = issueWord s (.pxor h pd pa pb) .both eff := by
  rw [exec_pxor]; unfold execPxor; exact issuedResult ..
theorem issue_pandn (h : SHead) (pd pa pb : BitVec 4) (s : State) : ∃ eff, exec (.pandn h pd pa pb) s = issueWord s (.pandn h pd pa pb) .both eff := by
  rw [exec_pandn]; unfold execPandn; exact issuedResult ..
theorem issue_xmov (h : SHead) (d a : BitVec 6) (s : State) : ∃ eff, exec (.xmov h d a) s = issueWord s (.xmov h d a) .both eff := by
  rw [exec_xmov]; unfold execXmov; exact issuedRegs ..
theorem issue_qrd (h : SHead) (d : BitVec 6) (q : BitVec 3) (s : State) : ∃ eff, exec (.qrd h d q) s = issueWord s (.qrd h d q) .both eff := by
  rw [exec_qrd]; unfold execQrd; exact ⟨_, rfl⟩
theorem issue_fadd (h : SHead) (r : BitVec 2) (d a b : BitVec 5) (s : State) : ∃ eff, exec (.fadd h r d a b) s = issueWord s (.fadd h r d a b) .both eff := by
  rw [exec_fadd]; unfold execFadd; exact issuedRegs ..
theorem issue_fsub (h : SHead) (r : BitVec 2) (d a b : BitVec 5) (s : State) : ∃ eff, exec (.fsub h r d a b) s = issueWord s (.fsub h r d a b) .both eff := by
  rw [exec_fsub]; unfold execFsub; exact issuedRegs ..
theorem issue_fmul (h : SHead) (r : BitVec 2) (d a b : BitVec 5) (s : State) : ∃ eff, exec (.fmul h r d a b) s = issueWord s (.fmul h r d a b) .both eff := by
  rw [exec_fmul]; unfold execFmul; exact issuedRegs ..
theorem issue_ffma (h : SHead) (r : BitVec 2) (d a b : BitVec 5) (s : State) : ∃ eff, exec (.ffma h r d a b) s = issueWord s (.ffma h r d a b) .both eff := by
  rw [exec_ffma]; unfold execFfma; exact issuedRegs ..
theorem issue_fmin (h : SHead) (d a b : BitVec 5) (s : State) : ∃ eff, exec (.fmin h d a b) s = issueWord s (.fmin h d a b) .both eff := by
  rw [exec_fmin]; unfold execFmin; exact issuedRegs ..
theorem issue_fmax (h : SHead) (d a b : BitVec 5) (s : State) : ∃ eff, exec (.fmax h d a b) s = issueWord s (.fmax h d a b) .both eff := by
  rw [exec_fmax]; unfold execFmax; exact issuedRegs ..
theorem issue_dadd (h : SHead) (r : BitVec 2) (d a b : BitVec 5) (s : State) : ∃ eff, exec (.dadd h r d a b) s = issueWord s (.dadd h r d a b) .both eff := by
  rw [exec_dadd]; unfold execDadd; exact issuedRegs ..
theorem issue_dsub (h : SHead) (r : BitVec 2) (d a b : BitVec 5) (s : State) : ∃ eff, exec (.dsub h r d a b) s = issueWord s (.dsub h r d a b) .both eff := by
  rw [exec_dsub]; unfold execDsub; exact issuedRegs ..
theorem issue_dmul (h : SHead) (r : BitVec 2) (d a b : BitVec 5) (s : State) : ∃ eff, exec (.dmul h r d a b) s = issueWord s (.dmul h r d a b) .both eff := by
  rw [exec_dmul]; unfold execDmul; exact issuedRegs ..
theorem issue_dfma (h : SHead) (r : BitVec 2) (d a b : BitVec 5) (s : State) : ∃ eff, exec (.dfma h r d a b) s = issueWord s (.dfma h r d a b) .both eff := by
  rw [exec_dfma]; unfold execDfma; exact issuedRegs ..
theorem issue_dmin (h : SHead) (d a b : BitVec 5) (s : State) : ∃ eff, exec (.dmin h d a b) s = issueWord s (.dmin h d a b) .both eff := by
  rw [exec_dmin]; unfold execDmin; exact issuedRegs ..
theorem issue_dmax (h : SHead) (d a b : BitVec 5) (s : State) : ∃ eff, exec (.dmax h d a b) s = issueWord s (.dmax h d a b) .both eff := by
  rw [exec_dmax]; unfold execDmax; exact issuedRegs ..
theorem issue_fcmpeq (h : SHead) (e : BitVec 4) (a b : BitVec 6) (s : State) : ∃ eff, exec (.fcmpeq h e a b) s = issueWord s (.fcmpeq h e a b) .both eff := by
  rw [exec_fcmpeq]; unfold execFcmpeq; exact issuedRegs ..
theorem issue_fcmplt (h : SHead) (e : BitVec 4) (a b : BitVec 6) (s : State) : ∃ eff, exec (.fcmplt h e a b) s = issueWord s (.fcmplt h e a b) .both eff := by
  rw [exec_fcmplt]; unfold execFcmplt; exact issuedRegs ..
theorem issue_fcmple (h : SHead) (e : BitVec 4) (a b : BitVec 6) (s : State) : ∃ eff, exec (.fcmple h e a b) s = issueWord s (.fcmple h e a b) .both eff := by
  rw [exec_fcmple]; unfold execFcmple; exact issuedRegs ..
theorem issue_dcmpeq (h : SHead) (e : BitVec 4) (a b : BitVec 6) (s : State) : ∃ eff, exec (.dcmpeq h e a b) s = issueWord s (.dcmpeq h e a b) .both eff := by
  rw [exec_dcmpeq]; unfold execDcmpeq; exact issuedRegs ..
theorem issue_dcmplt (h : SHead) (e : BitVec 4) (a b : BitVec 6) (s : State) : ∃ eff, exec (.dcmplt h e a b) s = issueWord s (.dcmplt h e a b) .both eff := by
  rw [exec_dcmplt]; unfold execDcmplt; exact issuedRegs ..
theorem issue_dcmple (h : SHead) (e : BitVec 4) (a b : BitVec 6) (s : State) : ∃ eff, exec (.dcmple h e a b) s = issueWord s (.dcmple h e a b) .both eff := by
  rw [exec_dcmple]; unfold execDcmple; exact issuedRegs ..
theorem issue_cvt (h : SHead) (r : BitVec 2) (d a x : BitVec 5) (s : State) : ∃ eff, exec (.cvt h r d a x) s = issueWord s (.cvt h r d a x) .both eff := by
  rw [exec_cvt]; unfold execCvt; exact issuedRegs ..
theorem issue_b (h : Head) (im : BitVec 18) (s : State) : ∃ eff, exec (.b h im) s = issueWord s (.b h im) .both eff := by
  rw [exec_b]; unfold execB; exact ⟨_, rfl⟩
theorem issue_call (h : Head) (d : BitVec 6) (im : BitVec 12) (s : State) : ∃ eff, exec (.call h d im) s = issueWord s (.call h d im) .both eff := by
  rw [exec_call]; unfold execCall; exact ⟨_, rfl⟩
theorem issue_jr (h : Head) (a : BitVec 6) (s : State) : ∃ eff, exec (.jr h a) s = issueWord s (.jr h a) .both eff := by
  rw [exec_jr]; unfold execJr; exact ⟨_, rfl⟩
theorem issue_loop (h : Head) (a : BitVec 6) (n : BitVec 2) (s : State) : ∃ eff, exec (.loop h a n) s = issueWord s (.loop h a n) .both eff := by
  rw [exec_loop]; unfold execLoop; exact ⟨_, rfl⟩
theorem issue_endTask (h : Head) (s : State) : ∃ eff, exec (.endTask h) s = issueWord s (.endTask h) .task eff := by
  rw [exec_endTask]; unfold execEndTask; exact ⟨_, rfl⟩
theorem issue_fdiv (h : Head) (r : BitVec 2) (d a b : BitVec 5) (s : State) : ∃ eff, exec (.fdiv h r d a b) s = issueWord s (.fdiv h r d a b) .both eff := by
  rw [exec_fdiv]; unfold execFdiv; exact issuedDivide ..
theorem issue_fsqrt (h : Head) (r : BitVec 2) (d a : BitVec 5) (s : State) : ∃ eff, exec (.fsqrt h r d a) s = issueWord s (.fsqrt h r d a) .both eff := by
  rw [exec_fsqrt]; unfold execFsqrt; exact issuedDivide ..
theorem issue_ddiv (h : Head) (r : BitVec 2) (d a b : BitVec 5) (s : State) : ∃ eff, exec (.ddiv h r d a b) s = issueWord s (.ddiv h r d a b) .both eff := by
  rw [exec_ddiv]; unfold execDdiv; exact issuedDivide ..
theorem issue_dsqrt (h : Head) (r : BitVec 2) (d a : BitVec 5) (s : State) : ∃ eff, exec (.dsqrt h r d a) s = issueWord s (.dsqrt h r d a) .both eff := by
  rw [exec_dsqrt]; unfold execDsqrt; exact issuedDivide ..
theorem issue_vmov (ch : Bool) (d a : BitVec 7) (s : State) : ∃ eff, exec (.vmov ch d a) s = issueWord s (.vmov ch d a) .task eff := by
  rw [exec_vmov]; unfold execVmov; exact issuedMats ..
theorem issue_vfadd (ch : Bool) (w : BitVec 1) (d a b : BitVec 7) (s : State) : ∃ eff, exec (.vfadd ch w d a b) s = issueWord s (.vfadd ch w d a b) .task eff := by
  rw [exec_vfadd]; unfold execVfadd; exact issuedMats ..
theorem issue_vfsub (ch : Bool) (w : BitVec 1) (d a b : BitVec 7) (s : State) : ∃ eff, exec (.vfsub ch w d a b) s = issueWord s (.vfsub ch w d a b) .task eff := by
  rw [exec_vfsub]; unfold execVfsub; exact issuedMats ..
theorem issue_vfmul (ch : Bool) (w : BitVec 1) (d a b : BitVec 7) (s : State) : ∃ eff, exec (.vfmul ch w d a b) s = issueWord s (.vfmul ch w d a b) .task eff := by
  rw [exec_vfmul]; unfold execVfmul; exact issuedMats ..
theorem issue_vfma (ch : Bool) (w : BitVec 1) (d a b : BitVec 7) (s : State) : ∃ eff, exec (.vfma ch w d a b) s = issueWord s (.vfma ch w d a b) .task eff := by
  rw [exec_vfma]; unfold execVfma; exact issuedMats ..
theorem issue_vfmin (ch : Bool) (w : BitVec 1) (d a b : BitVec 7) (s : State) : ∃ eff, exec (.vfmin ch w d a b) s = issueWord s (.vfmin ch w d a b) .task eff := by
  rw [exec_vfmin]; unfold execVfmin; exact issuedMats ..
theorem issue_vfmax (ch : Bool) (w : BitVec 1) (d a b : BitVec 7) (s : State) : ∃ eff, exec (.vfmax ch w d a b) s = issueWord s (.vfmax ch w d a b) .task eff := by
  rw [exec_vfmax]; unfold execVfmax; exact issuedMats ..
theorem issue_vadd (ch : Bool) (w : BitVec 1) (d a b : BitVec 7) (s : State) : ∃ eff, exec (.vadd ch w d a b) s = issueWord s (.vadd ch w d a b) .task eff := by
  rw [exec_vadd]; unfold execVadd; exact issuedMats ..
theorem issue_vsub (ch : Bool) (w : BitVec 1) (d a b : BitVec 7) (s : State) : ∃ eff, exec (.vsub ch w d a b) s = issueWord s (.vsub ch w d a b) .task eff := by
  rw [exec_vsub]; unfold execVsub; exact issuedMats ..
theorem issue_vmul (ch : Bool) (w : BitVec 1) (d a b : BitVec 7) (s : State) : ∃ eff, exec (.vmul ch w d a b) s = issueWord s (.vmul ch w d a b) .task eff := by
  rw [exec_vmul]; unfold execVmul; exact issuedMats ..
theorem issue_vmin (ch : Bool) (w : BitVec 1) (d a b : BitVec 7) (s : State) : ∃ eff, exec (.vmin ch w d a b) s = issueWord s (.vmin ch w d a b) .task eff := by
  rw [exec_vmin]; unfold execVmin; exact issuedMats ..
theorem issue_vmax (ch : Bool) (w : BitVec 1) (d a b : BitVec 7) (s : State) : ∃ eff, exec (.vmax ch w d a b) s = issueWord s (.vmax ch w d a b) .task eff := by
  rw [exec_vmax]; unfold execVmax; exact issuedMats ..
theorem issue_vminu (ch : Bool) (w : BitVec 1) (d a b : BitVec 7) (s : State) : ∃ eff, exec (.vminu ch w d a b) s = issueWord s (.vminu ch w d a b) .task eff := by
  rw [exec_vminu]; unfold execVminu; exact issuedMats ..
theorem issue_vmaxu (ch : Bool) (w : BitVec 1) (d a b : BitVec 7) (s : State) : ∃ eff, exec (.vmaxu ch w d a b) s = issueWord s (.vmaxu ch w d a b) .task eff := by
  rw [exec_vmaxu]; unfold execVmaxu; exact issuedMats ..
theorem issue_vand (ch : Bool) (d a b : BitVec 7) (s : State) : ∃ eff, exec (.vand ch d a b) s = issueWord s (.vand ch d a b) .task eff := by
  rw [exec_vand]; unfold execVand; exact issuedMats ..
theorem issue_vor (ch : Bool) (d a b : BitVec 7) (s : State) : ∃ eff, exec (.vor ch d a b) s = issueWord s (.vor ch d a b) .task eff := by
  rw [exec_vor]; unfold execVor; exact issuedMats ..
theorem issue_vxor (ch : Bool) (d a b : BitVec 7) (s : State) : ∃ eff, exec (.vxor ch d a b) s = issueWord s (.vxor ch d a b) .task eff := by
  rw [exec_vxor]; unfold execVxor; exact issuedMats ..
theorem issue_vshl (ch : Bool) (w : BitVec 1) (d a b : BitVec 7) (s : State) : ∃ eff, exec (.vshl ch w d a b) s = issueWord s (.vshl ch w d a b) .task eff := by
  rw [exec_vshl]; unfold execVshl; exact issuedMats ..
theorem issue_vshr (ch : Bool) (w : BitVec 1) (d a b : BitVec 7) (s : State) : ∃ eff, exec (.vshr ch w d a b) s = issueWord s (.vshr ch w d a b) .task eff := by
  rw [exec_vshr]; unfold execVshr; exact issuedMats ..
theorem issue_vsar (ch : Bool) (w : BitVec 1) (d a b : BitVec 7) (s : State) : ∃ eff, exec (.vsar ch w d a b) s = issueWord s (.vsar ch w d a b) .task eff := by
  rw [exec_vsar]; unfold execVsar; exact issuedMats ..
theorem issue_vfcmpeq (ch : Bool) (w : BitVec 1) (d a b : BitVec 7) (s : State) : ∃ eff, exec (.vfcmpeq ch w d a b) s = issueWord s (.vfcmpeq ch w d a b) .task eff := by
  rw [exec_vfcmpeq]; unfold execVfcmpeq; exact issuedMats ..
theorem issue_vfcmplt (ch : Bool) (w : BitVec 1) (d a b : BitVec 7) (s : State) : ∃ eff, exec (.vfcmplt ch w d a b) s = issueWord s (.vfcmplt ch w d a b) .task eff := by
  rw [exec_vfcmplt]; unfold execVfcmplt; exact issuedMats ..
theorem issue_vcmpeq (ch : Bool) (w : BitVec 1) (d a b : BitVec 7) (s : State) : ∃ eff, exec (.vcmpeq ch w d a b) s = issueWord s (.vcmpeq ch w d a b) .task eff := by
  rw [exec_vcmpeq]; unfold execVcmpeq; exact issuedMats ..
theorem issue_vcmplt (ch : Bool) (w : BitVec 1) (d a b : BitVec 7) (s : State) : ∃ eff, exec (.vcmplt ch w d a b) s = issueWord s (.vcmplt ch w d a b) .task eff := by
  rw [exec_vcmplt]; unfold execVcmplt; exact issuedMats ..
theorem issue_vsel (ch : Bool) (w : BitVec 1) (d a b : BitVec 7) (s : State) : ∃ eff, exec (.vsel ch w d a b) s = issueWord s (.vsel ch w d a b) .task eff := by
  rw [exec_vsel]; unfold execVsel; exact issuedMats ..
theorem issue_vexp2 (ch : Bool) (w : BitVec 1) (d a : BitVec 7) (s : State) : ∃ eff, exec (.vexp2 ch w d a) s = issueWord s (.vexp2 ch w d a) .task eff := by
  rw [exec_vexp2]; unfold execVexp2; exact issuedMats ..
theorem issue_vrcp (ch : Bool) (w : BitVec 1) (d a : BitVec 7) (s : State) : ∃ eff, exec (.vrcp ch w d a) s = issueWord s (.vrcp ch w d a) .task eff := by
  rw [exec_vrcp]; unfold execVrcp; exact issuedMats ..
theorem issue_vrsq (ch : Bool) (w : BitVec 1) (d a : BitVec 7) (s : State) : ∃ eff, exec (.vrsq ch w d a) s = issueWord s (.vrsq ch w d a) .task eff := by
  rw [exec_vrsq]; unfold execVrsq; exact issuedMats ..
theorem issue_vfrsum (ch : Bool) (w : BitVec 1) (d : BitVec 6) (a : BitVec 7) (s : State) : ∃ eff, exec (.vfrsum ch w d a) s = issueWord s (.vfrsum ch w d a) .task eff := by
  rw [exec_vfrsum]; unfold execVfrsum; exact issuedMats ..
theorem issue_vfrmax (ch : Bool) (w : BitVec 1) (d : BitVec 6) (a : BitVec 7) (s : State) : ∃ eff, exec (.vfrmax ch w d a) s = issueWord s (.vfrmax ch w d a) .task eff := by
  rw [exec_vfrmax]; unfold execVfrmax; exact issuedMats ..
theorem issue_vbcast (ch : Bool) (w : BitVec 1) (d : BitVec 7) (a : BitVec 6) (s : State) : ∃ eff, exec (.vbcast ch w d a) s = issueWord s (.vbcast ch w d a) .task eff := by
  rw [exec_vbcast]; unfold execVbcast; exact issuedResult ..
theorem issue_vperm (ch : Bool) (w : BitVec 1) (d a b : BitVec 7) (s : State) : ∃ eff, exec (.vperm ch w d a b) s = issueWord s (.vperm ch w d a b) .task eff := by
  rw [exec_vperm]; unfold execVperm; exact issuedMats ..
theorem issue_vcvt (ch : Bool) (d a : BitVec 7) (x : BitVec 5) (s : State) : ∃ eff, exec (.vcvt ch d a x) s = issueWord s (.vcvt ch d a x) .task eff := by
  rw [exec_vcvt]; unfold execVcvt; exact issuedResult ..
theorem issue_vbmax (ch : Bool) (w : BitVec 1) (d a : BitVec 7) (s : State) : ∃ eff, exec (.vbmax ch w d a) s = issueWord s (.vbmax ch w d a) .task eff := by
  rw [exec_vbmax]; unfold execVbmax; exact issuedMats ..
theorem issue_vqcvt (ch : Bool) (w : BitVec 1) (d a : BitVec 7) (s : State) : ∃ eff, exec (.vqcvt ch w d a) s = issueWord s (.vqcvt ch w d a) .task eff := by
  rw [exec_vqcvt]; unfold execVqcvt; exact ⟨_, rfl⟩
theorem issue_vdeq (ch : Bool) (w : BitVec 1) (d a b : BitVec 7) (s : State) : ∃ eff, exec (.vdeq ch w d a b) s = issueWord s (.vdeq ch w d a b) .task eff := by
  rw [exec_vdeq]; unfold execVdeq; exact issuedMats ..
theorem issue_vsetfmt (ch : Bool) (a : BitVec 6) (s : State) : ∃ eff, exec (.vsetfmt ch a) s = issueWord s (.vsetfmt ch a) .task eff := by
  rw [exec_vsetfmt]; unfold execVsetfmt; exact ⟨_, rfl⟩
theorem issue_vqmov (ch : Bool) (d : BitVec 7) (q : BitVec 3) (s : State) : ∃ eff, exec (.vqmov ch d q) s = issueWord s (.vqmov ch d q) .task eff := by
  rw [exec_vqmov]; unfold execVqmov; exact ⟨_, rfl⟩
theorem issue_vqmovSend (ch : Bool) (d : BitVec 7) (l : BitVec 2) (s : State) : ∃ eff, exec (.vqmovSend ch d l) s = issueWord s (.vqmovSend ch d l) .task eff := by
  rw [exec_vqmovSend]; unfold execVqmovSend; exact ⟨_, rfl⟩
theorem issue_cubeMm (h : Head) (t a b : BitVec 6) (s : State) : ∃ eff, exec (.cubeMm h t a b) s = issueWord s (.cubeMm h t a b) .task eff := by
  rw [exec_cubeMm]; unfold execCubeMm; exact issuedCube ..
theorem issue_cubeMma (h : Head) (t a b : BitVec 6) (s : State) : ∃ eff, exec (.cubeMma h t a b) s = issueWord s (.cubeMma h t a b) .task eff := by
  rw [exec_cubeMma]; unfold execCubeMma; exact issuedCube ..
theorem issue_cubeMmw (h : Head) (t a b : BitVec 6) (s : State) : ∃ eff, exec (.cubeMmw h t a b) s = issueWord s (.cubeMmw h t a b) .task eff := by
  rw [exec_cubeMmw]; unfold execCubeMmw; exact issuedCube ..
theorem issue_cubeMmwa (h : Head) (t a b : BitVec 6) (s : State) : ∃ eff, exec (.cubeMmwa h t a b) s = issueWord s (.cubeMmwa h t a b) .task eff := by
  rw [exec_cubeMmwa]; unfold execCubeMmwa; exact issuedCube ..
theorem issue_cubePl (h : Head) (t a b : BitVec 6) (s : State) : ∃ eff, exec (.cubePl h t a b) s = issueWord s (.cubePl h t a b) .task eff := by
  rw [exec_cubePl]; unfold execCubePl; exact issuedCube ..
theorem issue_cubePla (h : Head) (t a b : BitVec 6) (s : State) : ∃ eff, exec (.cubePla h t a b) s = issueWord s (.cubePla h t a b) .task eff := by
  rw [exec_cubePla]; unfold execCubePla; exact issuedCube ..
theorem issue_cubeWl (h : Head) (t a b : BitVec 6) (s : State) : ∃ eff, exec (.cubeWl h t a b) s = issueWord s (.cubeWl h t a b) .task eff := by
  rw [exec_cubeWl]; unfold execCubeWl; exact issuedCube ..
theorem issue_cubeFmt (h : Head) (t a : BitVec 6) (s : State) : ∃ eff, exec (.cubeFmt h t a) s = issueWord s (.cubeFmt h t a) .task eff := by
  rw [exec_cubeFmt]; unfold execCubeFmt; exact issuedCube ..
theorem issue_cubeZero (h : Head) (t a : BitVec 6) (s : State) : ∃ eff, exec (.cubeZero h t a) s = issueWord s (.cubeZero h t a) .task eff := by
  rw [exec_cubeZero]; unfold execCubeZero; exact issuedCube ..
theorem issue_cubeDrain (h : Head) (t a b : BitVec 6) (s : State) : ∃ eff, exec (.cubeDrain h t a b) s = issueWord s (.cubeDrain h t a b) .task eff := by
  rw [exec_cubeDrain]; unfold execCubeDrain; exact issuedCube ..
theorem issue_cubeScore (h : Head) (t a b : BitVec 6) (s : State) : ∃ eff, exec (.cubeScore h t a b) s = issueWord s (.cubeScore h t a b) .task eff := by
  rw [exec_cubeScore]; unfold execCubeScore; exact issuedCube ..
theorem issue_cubeResc (h : Head) (t a : BitVec 6) (s : State) : ∃ eff, exec (.cubeResc h t a) s = issueWord s (.cubeResc h t a) .task eff := by
  rw [exec_cubeResc]; unfold execCubeResc; exact issuedCube ..
theorem issue_cubeSide (h : Head) (d a b : BitVec 6) (s : State) : ∃ eff, exec (.cubeSide h d a b) s = issueWord s (.cubeSide h d a b) .task eff := by
  rw [exec_cubeSide]; unfold execCubeSide; exact ⟨_, rfl⟩
theorem issue_lda (h : Head) (d a : BitVec 6) (z : BitVec 2) (x : BitVec 1) (s : State) : ∃ eff, exec (.lda h d a z x) s = issueWord s (.lda h d a z x) .both eff := by
  rw [exec_lda]; unfold execLda; exact issuedLoad ..
theorem issue_sta (h : Head) (d a : BitVec 6) (z : BitVec 2) (s : State) : ∃ eff, exec (.sta h d a z) s = issueWord s (.sta h d a z) .both eff := by
  rw [exec_sta]; unfold execSta; exact issuedStore ..
theorem issue_mlda (h : Head) (m : BitVec 7) (a : BitVec 6) (s : State) : ∃ eff, exec (.mlda h m a) s = issueWord s (.mlda h m a) .task eff := by
  rw [exec_mlda]; unfold execMlda; exact issuedLoad ..
theorem issue_msta (h : Head) (m : BitVec 7) (a : BitVec 6) (s : State) : ∃ eff, exec (.msta h m a) s = issueWord s (.msta h m a) .task eff := by
  rw [exec_msta]; unfold execMsta; exact issuedStore ..
theorem issue_ldw (h : Head) (d a : BitVec 6) (z : BitVec 2) (x : BitVec 1) (s : State) : ∃ eff, exec (.ldw h d a z x) s = issueWord s (.ldw h d a z x) .both eff := by
  rw [exec_ldw]; unfold execLdw; exact issuedLoad ..
theorem issue_stw (h : Head) (d a : BitVec 6) (z : BitVec 2) (s : State) : ∃ eff, exec (.stw h d a z) s = issueWord s (.stw h d a z) .both eff := by
  rw [exec_stw]; unfold execStw; exact issuedStore ..
theorem issue_mldw (h : Head) (m : BitVec 7) (a : BitVec 6) (s : State) : ∃ eff, exec (.mldw h m a) s = issueWord s (.mldw h m a) .task eff := by
  rw [exec_mldw]; unfold execMldw; exact issuedLoad ..
theorem issue_mstw (h : Head) (m : BitVec 7) (a : BitVec 6) (s : State) : ∃ eff, exec (.mstw h m a) s = issueWord s (.mstw h m a) .task eff := by
  rw [exec_mstw]; unfold execMstw; exact issuedStore ..
theorem issue_ldc (h : Head) (d a : BitVec 6) (z : BitVec 2) (x : BitVec 1) (s : State) : ∃ eff, exec (.ldc h d a z x) s = issueWord s (.ldc h d a z x) .both eff := by
  rw [exec_ldc]; unfold execLdc; exact issuedLoad ..
theorem issue_stc (h : Head) (d a : BitVec 6) (z : BitVec 2) (s : State) : ∃ eff, exec (.stc h d a z) s = issueWord s (.stc h d a z) .both eff := by
  rw [exec_stc]; unfold execStc; exact issuedStore ..
theorem issue_mldc (h : Head) (m : BitVec 7) (a : BitVec 6) (s : State) : ∃ eff, exec (.mldc h m a) s = issueWord s (.mldc h m a) .task eff := by
  rw [exec_mldc]; unfold execMldc; exact issuedLoad ..
theorem issue_mstc (h : Head) (m : BitVec 7) (a : BitVec 6) (s : State) : ∃ eff, exec (.mstc h m a) s = issueWord s (.mstc h m a) .task eff := by
  rw [exec_mstc]; unfold execMstc; exact issuedStore ..
theorem issue_ldx (h : Head) (d a : BitVec 6) (z : BitVec 2) (x : BitVec 1) (s : State) : ∃ eff, exec (.ldx h d a z x) s = issueWord s (.ldx h d a z x) .both eff := by
  rw [exec_ldx]; unfold execLdx; exact issuedLoadX ..
theorem issue_stx (h : Head) (d a : BitVec 6) (z : BitVec 2) (s : State) : ∃ eff, exec (.stx h d a z) s = issueWord s (.stx h d a z) .both eff := by
  rw [exec_stx]; unfold execStx; exact issuedStoreX ..
theorem issue_mldx (h : Head) (m : BitVec 7) (a : BitVec 6) (s : State) : ∃ eff, exec (.mldx h m a) s = issueWord s (.mldx h m a) .task eff := by
  rw [exec_mldx]; unfold execMldx; exact issuedLoadX ..
theorem issue_mstx (h : Head) (m : BitVec 7) (a : BitVec 6) (s : State) : ∃ eff, exec (.mstx h m a) s = issueWord s (.mstx h m a) .task eff := by
  rw [exec_mstx]; unfold execMstx; exact issuedStoreX ..
theorem issue_aaddW (h : Head) (sp : BitVec 1) (o : BitVec 2) (d a b : BitVec 5) (s : State) : ∃ eff, exec (.aaddW h sp o d a b) s = issueWord s (.aaddW h sp o d a b) .both eff := by
  rw [exec_aaddW]; unfold execAaddW; exact issuedAtomic ..
theorem issue_aaddD (h : Head) (sp : BitVec 1) (o : BitVec 2) (d a b : BitVec 5) (s : State) : ∃ eff, exec (.aaddD h sp o d a b) s = issueWord s (.aaddD h sp o d a b) .both eff := by
  rw [exec_aaddD]; unfold execAaddD; exact issuedAtomic ..
theorem issue_asmaxW (h : Head) (sp : BitVec 1) (o : BitVec 2) (d a b : BitVec 5) (s : State) : ∃ eff, exec (.asmaxW h sp o d a b) s = issueWord s (.asmaxW h sp o d a b) .both eff := by
  rw [exec_asmaxW]; unfold execAsmaxW; exact issuedAtomic ..
theorem issue_asmaxD (h : Head) (sp : BitVec 1) (o : BitVec 2) (d a b : BitVec 5) (s : State) : ∃ eff, exec (.asmaxD h sp o d a b) s = issueWord s (.asmaxD h sp o d a b) .both eff := by
  rw [exec_asmaxD]; unfold execAsmaxD; exact issuedAtomic ..
theorem issue_asminW (h : Head) (sp : BitVec 1) (o : BitVec 2) (d a b : BitVec 5) (s : State) : ∃ eff, exec (.asminW h sp o d a b) s = issueWord s (.asminW h sp o d a b) .both eff := by
  rw [exec_asminW]; unfold execAsminW; exact issuedAtomic ..
theorem issue_asminD (h : Head) (sp : BitVec 1) (o : BitVec 2) (d a b : BitVec 5) (s : State) : ∃ eff, exec (.asminD h sp o d a b) s = issueWord s (.asminD h sp o d a b) .both eff := by
  rw [exec_asminD]; unfold execAsminD; exact issuedAtomic ..
theorem issue_aumaxW (h : Head) (sp : BitVec 1) (o : BitVec 2) (d a b : BitVec 5) (s : State) : ∃ eff, exec (.aumaxW h sp o d a b) s = issueWord s (.aumaxW h sp o d a b) .both eff := by
  rw [exec_aumaxW]; unfold execAumaxW; exact issuedAtomic ..
theorem issue_aumaxD (h : Head) (sp : BitVec 1) (o : BitVec 2) (d a b : BitVec 5) (s : State) : ∃ eff, exec (.aumaxD h sp o d a b) s = issueWord s (.aumaxD h sp o d a b) .both eff := by
  rw [exec_aumaxD]; unfold execAumaxD; exact issuedAtomic ..
theorem issue_auminW (h : Head) (sp : BitVec 1) (o : BitVec 2) (d a b : BitVec 5) (s : State) : ∃ eff, exec (.auminW h sp o d a b) s = issueWord s (.auminW h sp o d a b) .both eff := by
  rw [exec_auminW]; unfold execAuminW; exact issuedAtomic ..
theorem issue_auminD (h : Head) (sp : BitVec 1) (o : BitVec 2) (d a b : BitVec 5) (s : State) : ∃ eff, exec (.auminD h sp o d a b) s = issueWord s (.auminD h sp o d a b) .both eff := by
  rw [exec_auminD]; unfold execAuminD; exact issuedAtomic ..
theorem issue_axchgW (h : Head) (sp : BitVec 1) (o : BitVec 2) (d a b : BitVec 5) (s : State) : ∃ eff, exec (.axchgW h sp o d a b) s = issueWord s (.axchgW h sp o d a b) .both eff := by
  rw [exec_axchgW]; unfold execAxchgW; exact issuedAtomic ..
theorem issue_axchgD (h : Head) (sp : BitVec 1) (o : BitVec 2) (d a b : BitVec 5) (s : State) : ∃ eff, exec (.axchgD h sp o d a b) s = issueWord s (.axchgD h sp o d a b) .both eff := by
  rw [exec_axchgD]; unfold execAxchgD; exact issuedAtomic ..
theorem issue_acasW (h : Head) (sp : BitVec 1) (o : BitVec 2) (d a b : BitVec 5) (s : State) : ∃ eff, exec (.acasW h sp o d a b) s = issueWord s (.acasW h sp o d a b) .both eff := by
  rw [exec_acasW]; unfold execAcasW; exact issuedAtomic ..
theorem issue_acasD (h : Head) (sp : BitVec 1) (o : BitVec 2) (d a b : BitVec 5) (s : State) : ∃ eff, exec (.acasD h sp o d a b) s = issueWord s (.acasD h sp o d a b) .both eff := by
  rw [exec_acasD]; unfold execAcasD; exact issuedAtomic ..
theorem issue_afadd (h : Head) (sp : BitVec 1) (o : BitVec 2) (d a b : BitVec 5) (s : State) : ∃ eff, exec (.afadd h sp o d a b) s = issueWord s (.afadd h sp o d a b) .both eff := by
  rw [exec_afadd]; unfold execAfadd; exact issuedAtomic ..
theorem issue_afmax (h : Head) (sp : BitVec 1) (o : BitVec 2) (d a b : BitVec 5) (s : State) : ∃ eff, exec (.afmax h sp o d a b) s = issueWord s (.afmax h sp o d a b) .both eff := by
  rw [exec_afmax]; unfold execAfmax; exact issuedAtomic ..
theorem issue_afmin (h : Head) (sp : BitVec 1) (o : BitVec 2) (d a b : BitVec 5) (s : State) : ∃ eff, exec (.afmin h sp o d a b) s = issueWord s (.afmin h sp o d a b) .both eff := by
  rw [exec_afmin]; unfold execAfmin; exact issuedAtomic ..
theorem issue_redaddW (h : Head) (sp : BitVec 1) (o : BitVec 2) (a b : BitVec 5) (s : State) : ∃ eff, exec (.redaddW h sp o a b) s = issueWord s (.redaddW h sp o a b) .both eff := by
  rw [exec_redaddW]; unfold execRedaddW; exact issuedAtomic ..
theorem issue_redaddD (h : Head) (sp : BitVec 1) (o : BitVec 2) (a b : BitVec 5) (s : State) : ∃ eff, exec (.redaddD h sp o a b) s = issueWord s (.redaddD h sp o a b) .both eff := by
  rw [exec_redaddD]; unfold execRedaddD; exact issuedAtomic ..
theorem issue_redsmaxW (h : Head) (sp : BitVec 1) (o : BitVec 2) (a b : BitVec 5) (s : State) : ∃ eff, exec (.redsmaxW h sp o a b) s = issueWord s (.redsmaxW h sp o a b) .both eff := by
  rw [exec_redsmaxW]; unfold execRedsmaxW; exact issuedAtomic ..
theorem issue_redsmaxD (h : Head) (sp : BitVec 1) (o : BitVec 2) (a b : BitVec 5) (s : State) : ∃ eff, exec (.redsmaxD h sp o a b) s = issueWord s (.redsmaxD h sp o a b) .both eff := by
  rw [exec_redsmaxD]; unfold execRedsmaxD; exact issuedAtomic ..
theorem issue_redsminW (h : Head) (sp : BitVec 1) (o : BitVec 2) (a b : BitVec 5) (s : State) : ∃ eff, exec (.redsminW h sp o a b) s = issueWord s (.redsminW h sp o a b) .both eff := by
  rw [exec_redsminW]; unfold execRedsminW; exact issuedAtomic ..
theorem issue_redsminD (h : Head) (sp : BitVec 1) (o : BitVec 2) (a b : BitVec 5) (s : State) : ∃ eff, exec (.redsminD h sp o a b) s = issueWord s (.redsminD h sp o a b) .both eff := by
  rw [exec_redsminD]; unfold execRedsminD; exact issuedAtomic ..
theorem issue_redumaxW (h : Head) (sp : BitVec 1) (o : BitVec 2) (a b : BitVec 5) (s : State) : ∃ eff, exec (.redumaxW h sp o a b) s = issueWord s (.redumaxW h sp o a b) .both eff := by
  rw [exec_redumaxW]; unfold execRedumaxW; exact issuedAtomic ..
theorem issue_redumaxD (h : Head) (sp : BitVec 1) (o : BitVec 2) (a b : BitVec 5) (s : State) : ∃ eff, exec (.redumaxD h sp o a b) s = issueWord s (.redumaxD h sp o a b) .both eff := by
  rw [exec_redumaxD]; unfold execRedumaxD; exact issuedAtomic ..
theorem issue_reduminW (h : Head) (sp : BitVec 1) (o : BitVec 2) (a b : BitVec 5) (s : State) : ∃ eff, exec (.reduminW h sp o a b) s = issueWord s (.reduminW h sp o a b) .both eff := by
  rw [exec_reduminW]; unfold execReduminW; exact issuedAtomic ..
theorem issue_reduminD (h : Head) (sp : BitVec 1) (o : BitVec 2) (a b : BitVec 5) (s : State) : ∃ eff, exec (.reduminD h sp o a b) s = issueWord s (.reduminD h sp o a b) .both eff := by
  rw [exec_reduminD]; unfold execReduminD; exact issuedAtomic ..
theorem issue_redxchgW (h : Head) (sp : BitVec 1) (o : BitVec 2) (a b : BitVec 5) (s : State) : ∃ eff, exec (.redxchgW h sp o a b) s = issueWord s (.redxchgW h sp o a b) .both eff := by
  rw [exec_redxchgW]; unfold execRedxchgW; exact issuedAtomic ..
theorem issue_redxchgD (h : Head) (sp : BitVec 1) (o : BitVec 2) (a b : BitVec 5) (s : State) : ∃ eff, exec (.redxchgD h sp o a b) s = issueWord s (.redxchgD h sp o a b) .both eff := by
  rw [exec_redxchgD]; unfold execRedxchgD; exact issuedAtomic ..
theorem issue_redcasW (h : Head) (sp : BitVec 1) (o : BitVec 2) (d a b : BitVec 5) (s : State) : ∃ eff, exec (.redcasW h sp o d a b) s = issueWord s (.redcasW h sp o d a b) .both eff := by
  rw [exec_redcasW]; unfold execRedcasW; exact issuedAtomic ..
theorem issue_redcasD (h : Head) (sp : BitVec 1) (o : BitVec 2) (d a b : BitVec 5) (s : State) : ∃ eff, exec (.redcasD h sp o d a b) s = issueWord s (.redcasD h sp o d a b) .both eff := by
  rw [exec_redcasD]; unfold execRedcasD; exact issuedAtomic ..
theorem issue_redfadd (h : Head) (sp : BitVec 1) (o : BitVec 2) (a b : BitVec 5) (s : State) : ∃ eff, exec (.redfadd h sp o a b) s = issueWord s (.redfadd h sp o a b) .both eff := by
  rw [exec_redfadd]; unfold execRedfadd; exact issuedAtomic ..
theorem issue_redfmax (h : Head) (sp : BitVec 1) (o : BitVec 2) (a b : BitVec 5) (s : State) : ∃ eff, exec (.redfmax h sp o a b) s = issueWord s (.redfmax h sp o a b) .both eff := by
  rw [exec_redfmax]; unfold execRedfmax; exact issuedAtomic ..
theorem issue_redfmin (h : Head) (sp : BitVec 1) (o : BitVec 2) (a b : BitVec 5) (s : State) : ∃ eff, exec (.redfmin h sp o a b) s = issueWord s (.redfmin h sp o a b) .both eff := by
  rw [exec_redfmin]; unfold execRedfmin; exact issuedAtomic ..
theorem issue_act (h : Head) (t a : BitVec 6) (s : State) : ∃ eff, exec (.act h t a) s = issueWord s (.act h t a) .task eff := by
  rw [exec_act]; unfold execAct; exact issuedTimeline ..
theorem issue_pre (h : Head) (t a : BitVec 6) (s : State) : ∃ eff, exec (.pre h t a) s = issueWord s (.pre h t a) .task eff := by
  rw [exec_pre]; unfold execPre; exact issuedTimeline ..
theorem issue_prea (h : Head) (t a : BitVec 6) (s : State) : ∃ eff, exec (.prea h t a) s = issueWord s (.prea h t a) .task eff := by
  rw [exec_prea]; unfold execPrea; exact issuedTimeline ..
theorem issue_rd (h : Head) (t a b : BitVec 6) (s : State) : ∃ eff, exec (.rd h t a b) s = issueWord s (.rd h t a b) .task eff := by
  rw [exec_rd]; unfold execRd; exact issuedTimeline ..
theorem issue_wr (h : Head) (t a b : BitVec 6) (s : State) : ∃ eff, exec (.wr h t a b) s = issueWord s (.wr h t a b) .task eff := by
  rw [exec_wr]; unfold execWr; exact issuedTimeline ..
theorem issue_rdt (h : Head) (t a b : BitVec 6) (s : State) : ∃ eff, exec (.rdt h t a b) s = issueWord s (.rdt h t a b) .task eff := by
  rw [exec_rdt]; unfold execRdt; exact issuedTimeline ..
theorem issue_wrt (h : Head) (t a b : BitVec 6) (s : State) : ∃ eff, exec (.wrt h t a b) s = issueWord s (.wrt h t a b) .task eff := by
  rw [exec_wrt]; unfold execWrt; exact issuedTimeline ..
theorem issue_refpb (h : Head) (t a : BitVec 6) (s : State) : ∃ eff, exec (.refpb h t a) s = issueWord s (.refpb h t a) .task eff := by
  rw [exec_refpb]; unfold execRefpb; exact issuedTimeline ..
theorem issue_refab (h : Head) (t a : BitVec 6) (s : State) : ∃ eff, exec (.refab h t a) s = issueWord s (.refab h t a) .task eff := by
  rw [exec_refab]; unfold execRefab; exact issuedTimeline ..
theorem issue_mzero (h : Head) (t a : BitVec 6) (s : State) : ∃ eff, exec (.mzero h t a) s = issueWord s (.mzero h t a) .task eff := by
  rw [exec_mzero]; unfold execMzero; exact issuedTimeline ..
theorem issue_mcopy (h : Head) (t a b : BitVec 6) (s : State) : ∃ eff, exec (.mcopy h t a b) s = issueWord s (.mcopy h t a b) .task eff := by
  rw [exec_mcopy]; unfold execMcopy; exact issuedTimeline ..
theorem issue_mcmp (h : Head) (t a b : BitVec 6) (s : State) : ∃ eff, exec (.mcmp h t a b) s = issueWord s (.mcmp h t a b) .task eff := by
  rw [exec_mcmp]; unfold execMcmp; exact issuedTimeline ..
theorem issue_lfence (h : Head) (t a : BitVec 6) (s : State) : ∃ eff, exec (.lfence h t a) s = issueWord s (.lfence h t a) .task eff := by
  rw [exec_lfence]; unfold execLfence; exact issuedTimeline ..
theorem issue_mark (h : Head) (t a b : BitVec 6) (s : State) : ∃ eff, exec (.mark h t a b) s = issueWord s (.mark h t a b) .task eff := by
  rw [exec_mark]; unfold execMark; exact ⟨_, rfl⟩
theorem issue_copy (h : Head) (t a b : BitVec 6) (s : State) : ∃ eff, exec (.copy h t a b) s = issueWord s (.copy h t a b) .task eff := by
  rw [exec_copy]; unfold execCopy; exact issuedCopy ..
theorem issue_mcast (h : Head) (t a b : BitVec 6) (s : State) : ∃ eff, exec (.mcast h t a b) s = issueWord s (.mcast h t a b) .task eff := by
  rw [exec_mcast]; unfold execMcast; exact issuedCopy ..
theorem issue_fill (h : Head) (t a b : BitVec 6) (s : State) : ∃ eff, exec (.fill h t a b) s = issueWord s (.fill h t a b) .task eff := by
  rw [exec_fill]; unfold execFill; exact issuedCopy ..
theorem issue_heel (h : Head) (t : BitVec 6) (y : BitVec 9) (s : State) : ∃ eff, exec (.heel h t y) s = issueWord s (.heel h t y) .both eff := by
  rw [exec_heel]; unfold execHeel; exact ⟨_, rfl⟩
theorem issue_rebase (h : Head) (im : BitVec 12) (s : State) : ∃ eff, exec (.rebase h im) s = issueWord s (.rebase h im) .both eff := by
  rw [exec_rebase]; unfold execRebase; exact ⟨_, rfl⟩
theorem issue_rdtick (h : Head) (d : BitVec 6) (s : State) : ∃ eff, exec (.rdtick h d) s = issueWord s (.rdtick h d) .both eff := by
  rw [exec_rdtick]; unfold execRdtick; exact ⟨_, rfl⟩
theorem issue_flagset (h : Head) (a b : BitVec 6) (s : State) : ∃ eff, exec (.flagset h a b) s = issueWord s (.flagset h a b) .both eff := by
  rw [exec_flagset]; unfold execFlagset; exact ⟨_, rfl⟩
theorem issue_flagwait (h : Head) (d a b : BitVec 6) (s : State) : ∃ eff, exec (.flagwait h d a b) s = issueWord s (.flagwait h d a b) .both eff := by
  rw [exec_flagwait]; unfold execFlagwait; exact ⟨_, rfl⟩
theorem issue_bararr (h : Head) (d a : BitVec 6) (s : State) : ∃ eff, exec (.bararr h d a) s = issueWord s (.bararr h d a) .task eff := by
  rw [exec_bararr]; unfold execBararr; exact ⟨_, rfl⟩
theorem issue_barwait (h : Head) (d a b : BitVec 6) (s : State) : ∃ eff, exec (.barwait h d a b) s = issueWord s (.barwait h d a b) .task eff := by
  rw [exec_barwait]; unfold execBarwait; exact ⟨_, rfl⟩
theorem issue_fence (h : Head) (sp : BitVec 3) (s : State) : ∃ eff, exec (.fence h sp) s = issueWord s (.fence h sp) .both eff := by
  rw [exec_fence]; unfold execFence; exact ⟨_, rfl⟩
theorem issue_put (h : Head) (d a b : BitVec 6) (s : State) : ∃ eff, exec (.put h d a b) s = issueWord s (.put h d a b) .task eff := by
  rw [exec_put]; unfold execPut; exact issuedFabric ..
theorem issue_get (h : Head) (d a b : BitVec 6) (s : State) : ∃ eff, exec (.get h d a b) s = issueWord s (.get h d a b) .task eff := by
  rw [exec_get]; unfold execGet; exact issuedFabric ..
theorem issue_ratom (h : Head) (d a b : BitVec 6) (s : State) : ∃ eff, exec (.ratom h d a b) s = issueWord s (.ratom h d a b) .task eff := by
  rw [exec_ratom]; unfold execRatom; exact issuedFabric ..
theorem issue_waitc (h : Head) (d a b : BitVec 6) (s : State) : ∃ eff, exec (.waitc h d a b) s = issueWord s (.waitc h d a b) .task eff := by
  rw [exec_waitc]; unfold execWaitc; exact ⟨_, rfl⟩
theorem issue_launch (h : Head) (d a b : BitVec 6) (s : State) : ∃ eff, exec (.launch h d a b) s = issueWord s (.launch h d a b) .task eff := by
  rw [exec_launch]; unfold execLaunch; exact issuedCreate ..
theorem issue_ginst (h : Head) (d a b : BitVec 6) (s : State) : ∃ eff, exec (.ginst h d a b) s = issueWord s (.ginst h d a b) .task eff := by
  rw [exec_ginst]; unfold execGinst; exact issuedCreate ..
theorem issue_gwait (h : Head) (d a b : BitVec 6) (s : State) : ∃ eff, exec (.gwait h d a b) s = issueWord s (.gwait h d a b) .both eff := by
  rw [exec_gwait]; unfold execGwait; exact ⟨_, rfl⟩
theorem issue_cancel (h : Head) (a b : BitVec 6) (s : State) : ∃ eff, exec (.cancel h a b) s = issueWord s (.cancel h a b) .both eff := by
  rw [exec_cancel]; unfold execCancel; exact ⟨_, rfl⟩
theorem issue_crd (h : Head) (d a b : BitVec 6) (s : State) : ∃ eff, exec (.crd h d a b) s = issueWord s (.crd h d a b) .both eff := by
  rw [exec_crd]; unfold execCrd; exact ⟨_, rfl⟩
theorem issue_seal (h : Head) (a b : BitVec 6) (s : State) : ∃ eff, exec (.seal h a b) s = issueWord s (.seal h a b) .task eff := by
  rw [exec_seal]; unfold execSeal; exact ⟨_, rfl⟩
theorem issue_unseal (h : Head) (a b : BitVec 6) (s : State) : ∃ eff, exec (.unseal h a b) s = issueWord s (.unseal h a b) .task eff := by
  rw [exec_unseal]; unfold execUnseal; exact ⟨_, rfl⟩
theorem issue_krd (h : Head) (d a im : BitVec 6) (s : State) : ∃ eff, exec (.krd h d a im) s = issueWord s (.krd h d a im) .both eff := by
  rw [exec_krd]; unfold execKrd; exact ⟨_, rfl⟩
theorem issue_kwr (h : Head) (d a im : BitVec 6) (s : State) : ∃ eff, exec (.kwr h d a im) s = issueWord s (.kwr h d a im) .both eff := by
  rw [exec_kwr]; unfold execKwr; exact ⟨_, rfl⟩
theorem issue_tlbw (h : Head) (d a b : BitVec 6) (s : State) : ∃ eff, exec (.tlbw h d a b) s = issueWord s (.tlbw h d a b) .handler eff := by
  rw [exec_tlbw]; unfold execTlbw; exact ⟨_, rfl⟩
theorem issue_tlbp (h : Head) (d a b : BitVec 6) (s : State) : ∃ eff, exec (.tlbp h d a b) s = issueWord s (.tlbp h d a b) .handler eff := by
  rw [exec_tlbp]; unfold execTlbp; exact ⟨_, rfl⟩
theorem issue_tlbinv (h : Head) (d a b : BitVec 6) (s : State) : ∃ eff, exec (.tlbinv h d a b) s = issueWord s (.tlbinv h d a b) .handler eff := by
  rw [exec_tlbinv]; unfold execTlbinv; exact ⟨_, rfl⟩
theorem issue_trap (h : Head) (im : BitVec 12) (s : State) : ∃ eff, exec (.trap h im) s = issueWord s (.trap h im) .both eff := by
  rw [exec_trap]; unfold execTrap; exact ⟨_, rfl⟩
theorem issue_linsp (h : Head) (e : BitVec 4) (l : BitVec 2) (x y : BitVec 6) (s : State) : ∃ eff, exec (.linsp h e l x y) s = issueWord s (.linsp h e l x y) .handler eff := by
  rw [exec_linsp]; unfold execLinsp; exact issuedLeash ..
theorem issue_lpatch (h : Head) (e : BitVec 4) (l : BitVec 2) (x y : BitVec 6) (s : State) : ∃ eff, exec (.lpatch h e l x y) s = issueWord s (.lpatch h e l x y) .handler eff := by
  rw [exec_lpatch]; unfold execLpatch; exact issuedLeash ..
theorem issue_lrq (h : Head) (e : BitVec 4) (l : BitVec 2) (x y : BitVec 6) (s : State) : ∃ eff, exec (.lrq h e l x y) s = issueWord s (.lrq h e l x y) .handler eff := by
  rw [exec_lrq]; unfold execLrq; exact issuedLeash ..
theorem issue_lreinj (h : Head) (e : BitVec 4) (l : BitVec 2) (x y : BitVec 6) (s : State) : ∃ eff, exec (.lreinj h e l x y) s = issueWord s (.lreinj h e l x y) .handler eff := by
  rw [exec_lreinj]; unfold execLreinj; exact issuedLeash ..
theorem issue_resume (h : Head) (e : BitVec 4) (l : BitVec 2) (s : State) : ∃ eff, exec (.resume h e l) s = issueWord s (.resume h e l) .handler eff := by
  rw [exec_resume]; unfold execResume; exact ⟨_, rfl⟩
theorem issue_kill (h : Head) (e : BitVec 4) (l : BitVec 2) (s : State) : ∃ eff, exec (.kill h e l) s = issueWord s (.kill h e l) .handler eff := by
  rw [exec_kill]; unfold execKill; exact ⟨_, rfl⟩
theorem issue_hret (h : Head) (s : State) : ∃ eff, exec (.hret h) s = issueWord s (.hret h) .handler eff := by
  rw [exec_hret]; unfold execHret; exact ⟨_, rfl⟩
theorem issue_ldeleg (h : Head) (e : BitVec 4) (l : BitVec 2) (x y : BitVec 6) (s : State) : ∃ eff, exec (.ldeleg h e l x y) s = issueWord s (.ldeleg h e l x y) .handler eff := by
  rw [exec_ldeleg]; unfold execLdeleg; exact issuedLeash ..
theorem issue_bcw (ch : Bool) (p : BitVec 8) (v : BitVec 4) (l : BitVec 1) (x : BitVec 4) (s : State) : ∃ eff, exec (.bcw ch p v l x) s = issueWord s (.bcw ch p v l x) .both eff := by
  rw [exec_bcw]; unfold execBcw; exact ⟨_, rfl⟩
theorem issue_ext (ch : Bool) (k : BitVec 1) (v : BitVec 25) (s : State) : ∃ eff, exec (.ext ch k v) s = issueWord s (.ext ch k v) .both eff := by
  rw [exec_ext]; unfold execExt; exact ⟨_, rfl⟩
theorem issue_ring (ch : Bool) (k : BitVec 1) (r : BitVec 3) (b l : BitVec 6) (s : State) : ∃ eff, exec (.ring ch k r b l) s = issueWord s (.ring ch k r b l) .both eff := by
  rw [exec_ring]; unfold execRing; exact ⟨_, rfl⟩

/-- Every instruction word issues by issueWord, with the right that permOf names. -/
theorem issue_all (i : Instr) (s : State) (h : i.isWord = true) : ∃ eff, exec i s = issueWord s i (permOf i) eff := by
  cases i
  · exact issue_nop _ s
  · exact issue_add _ _ _ _ s
  · exact issue_sub _ _ _ _ s
  · exact issue_addi _ _ _ _ s
  · exact issue_mul _ _ _ _ s
  · exact issue_mulhs _ _ _ _ s
  · exact issue_mulhu _ _ _ _ s
  · exact issue_and _ _ _ _ s
  · exact issue_or _ _ _ _ s
  · exact issue_xor _ _ _ _ s
  · exact issue_andi _ _ _ _ s
  · exact issue_ori _ _ _ _ s
  · exact issue_xori _ _ _ _ s
  · exact issue_shl _ _ _ _ s
  · exact issue_shr _ _ _ _ s
  · exact issue_sar _ _ _ _ s
  · exact issue_shli _ _ _ _ s
  · exact issue_shri _ _ _ _ s
  · exact issue_sari _ _ _ _ s
  · exact issue_min _ _ _ _ s
  · exact issue_max _ _ _ _ s
  · exact issue_minu _ _ _ _ s
  · exact issue_maxu _ _ _ _ s
  · exact issue_li _ _ _ s
  · exact issue_sel _ _ _ _ s
  · exact issue_cmpeq _ _ _ _ s
  · exact issue_cmpne _ _ _ _ s
  · exact issue_cmplt _ _ _ _ s
  · exact issue_cmple _ _ _ _ s
  · exact issue_cmpltu _ _ _ _ s
  · exact issue_cmpleu _ _ _ _ s
  · exact issue_cmpeqi _ _ _ _ s
  · exact issue_cmplti _ _ _ _ s
  · exact issue_pand _ _ _ _ s
  · exact issue_por _ _ _ _ s
  · exact issue_pxor _ _ _ _ s
  · exact issue_pandn _ _ _ _ s
  · exact issue_xmov _ _ _ s
  · exact issue_qrd _ _ _ s
  · exact issue_fadd _ _ _ _ _ s
  · exact issue_fsub _ _ _ _ _ s
  · exact issue_fmul _ _ _ _ _ s
  · exact issue_ffma _ _ _ _ _ s
  · exact issue_fmin _ _ _ _ s
  · exact issue_fmax _ _ _ _ s
  · exact issue_dadd _ _ _ _ _ s
  · exact issue_dsub _ _ _ _ _ s
  · exact issue_dmul _ _ _ _ _ s
  · exact issue_dfma _ _ _ _ _ s
  · exact issue_dmin _ _ _ _ s
  · exact issue_dmax _ _ _ _ s
  · exact issue_fcmpeq _ _ _ _ s
  · exact issue_fcmplt _ _ _ _ s
  · exact issue_fcmple _ _ _ _ s
  · exact issue_dcmpeq _ _ _ _ s
  · exact issue_dcmplt _ _ _ _ s
  · exact issue_dcmple _ _ _ _ s
  · exact issue_cvt _ _ _ _ _ s
  · exact issue_b _ _ s
  · exact issue_call _ _ _ s
  · exact issue_jr _ _ s
  · exact issue_loop _ _ _ s
  · exact issue_endTask _ s
  · exact issue_fdiv _ _ _ _ _ s
  · exact issue_fsqrt _ _ _ _ s
  · exact issue_ddiv _ _ _ _ _ s
  · exact issue_dsqrt _ _ _ _ s
  · exact issue_vmov _ _ _ s
  · exact issue_vfadd _ _ _ _ _ s
  · exact issue_vfsub _ _ _ _ _ s
  · exact issue_vfmul _ _ _ _ _ s
  · exact issue_vfma _ _ _ _ _ s
  · exact issue_vfmin _ _ _ _ _ s
  · exact issue_vfmax _ _ _ _ _ s
  · exact issue_vadd _ _ _ _ _ s
  · exact issue_vsub _ _ _ _ _ s
  · exact issue_vmul _ _ _ _ _ s
  · exact issue_vmin _ _ _ _ _ s
  · exact issue_vmax _ _ _ _ _ s
  · exact issue_vminu _ _ _ _ _ s
  · exact issue_vmaxu _ _ _ _ _ s
  · exact issue_vand _ _ _ _ s
  · exact issue_vor _ _ _ _ s
  · exact issue_vxor _ _ _ _ s
  · exact issue_vshl _ _ _ _ _ s
  · exact issue_vshr _ _ _ _ _ s
  · exact issue_vsar _ _ _ _ _ s
  · exact issue_vfcmpeq _ _ _ _ _ s
  · exact issue_vfcmplt _ _ _ _ _ s
  · exact issue_vcmpeq _ _ _ _ _ s
  · exact issue_vcmplt _ _ _ _ _ s
  · exact issue_vsel _ _ _ _ _ s
  · exact issue_vexp2 _ _ _ _ s
  · exact issue_vrcp _ _ _ _ s
  · exact issue_vrsq _ _ _ _ s
  · exact issue_vfrsum _ _ _ _ s
  · exact issue_vfrmax _ _ _ _ s
  · exact issue_vbcast _ _ _ _ s
  · exact issue_vperm _ _ _ _ _ s
  · exact issue_vcvt _ _ _ _ s
  · exact issue_vbmax _ _ _ _ s
  · exact issue_vqcvt _ _ _ _ s
  · exact issue_vdeq _ _ _ _ _ s
  · exact issue_vsetfmt _ _ s
  · exact issue_vqmov _ _ _ s
  · exact issue_vqmovSend _ _ _ s
  · exact issue_cubeMm _ _ _ _ s
  · exact issue_cubeMma _ _ _ _ s
  · exact issue_cubeMmw _ _ _ _ s
  · exact issue_cubeMmwa _ _ _ _ s
  · exact issue_cubePl _ _ _ _ s
  · exact issue_cubePla _ _ _ _ s
  · exact issue_cubeWl _ _ _ _ s
  · exact issue_cubeFmt _ _ _ s
  · exact issue_cubeZero _ _ _ s
  · exact issue_cubeDrain _ _ _ _ s
  · exact issue_cubeScore _ _ _ _ s
  · exact issue_cubeResc _ _ _ s
  · exact issue_cubeSide _ _ _ _ s
  · exact issue_lda _ _ _ _ _ s
  · exact issue_sta _ _ _ _ s
  · exact issue_mlda _ _ _ s
  · exact issue_msta _ _ _ s
  · exact issue_ldw _ _ _ _ _ s
  · exact issue_stw _ _ _ _ s
  · exact issue_mldw _ _ _ s
  · exact issue_mstw _ _ _ s
  · exact issue_ldc _ _ _ _ _ s
  · exact issue_stc _ _ _ _ s
  · exact issue_mldc _ _ _ s
  · exact issue_mstc _ _ _ s
  · exact issue_ldx _ _ _ _ _ s
  · exact issue_stx _ _ _ _ s
  · exact issue_mldx _ _ _ s
  · exact issue_mstx _ _ _ s
  · exact issue_aaddW _ _ _ _ _ _ s
  · exact issue_aaddD _ _ _ _ _ _ s
  · exact issue_asmaxW _ _ _ _ _ _ s
  · exact issue_asmaxD _ _ _ _ _ _ s
  · exact issue_asminW _ _ _ _ _ _ s
  · exact issue_asminD _ _ _ _ _ _ s
  · exact issue_aumaxW _ _ _ _ _ _ s
  · exact issue_aumaxD _ _ _ _ _ _ s
  · exact issue_auminW _ _ _ _ _ _ s
  · exact issue_auminD _ _ _ _ _ _ s
  · exact issue_axchgW _ _ _ _ _ _ s
  · exact issue_axchgD _ _ _ _ _ _ s
  · exact issue_acasW _ _ _ _ _ _ s
  · exact issue_acasD _ _ _ _ _ _ s
  · exact issue_afadd _ _ _ _ _ _ s
  · exact issue_afmax _ _ _ _ _ _ s
  · exact issue_afmin _ _ _ _ _ _ s
  · exact issue_redaddW _ _ _ _ _ s
  · exact issue_redaddD _ _ _ _ _ s
  · exact issue_redsmaxW _ _ _ _ _ s
  · exact issue_redsmaxD _ _ _ _ _ s
  · exact issue_redsminW _ _ _ _ _ s
  · exact issue_redsminD _ _ _ _ _ s
  · exact issue_redumaxW _ _ _ _ _ s
  · exact issue_redumaxD _ _ _ _ _ s
  · exact issue_reduminW _ _ _ _ _ s
  · exact issue_reduminD _ _ _ _ _ s
  · exact issue_redxchgW _ _ _ _ _ s
  · exact issue_redxchgD _ _ _ _ _ s
  · exact issue_redcasW _ _ _ _ _ _ s
  · exact issue_redcasD _ _ _ _ _ _ s
  · exact issue_redfadd _ _ _ _ _ s
  · exact issue_redfmax _ _ _ _ _ s
  · exact issue_redfmin _ _ _ _ _ s
  · exact issue_act _ _ _ s
  · exact issue_pre _ _ _ s
  · exact issue_prea _ _ _ s
  · exact issue_rd _ _ _ _ s
  · exact issue_wr _ _ _ _ s
  · exact issue_rdt _ _ _ _ s
  · exact issue_wrt _ _ _ _ s
  · exact issue_refpb _ _ _ s
  · exact issue_refab _ _ _ s
  · exact issue_mzero _ _ _ s
  · exact issue_mcopy _ _ _ _ s
  · exact issue_mcmp _ _ _ _ s
  · exact issue_lfence _ _ _ s
  · exact issue_mark _ _ _ _ s
  · exact issue_copy _ _ _ _ s
  · exact issue_mcast _ _ _ _ s
  · exact issue_fill _ _ _ _ s
  · exact issue_heel _ _ _ s
  · exact issue_rebase _ _ s
  · exact issue_rdtick _ _ s
  · exact issue_flagset _ _ _ s
  · exact issue_flagwait _ _ _ _ s
  · exact issue_bararr _ _ _ s
  · exact issue_barwait _ _ _ _ s
  · exact issue_fence _ _ s
  · exact issue_put _ _ _ _ s
  · exact issue_get _ _ _ _ s
  · exact issue_ratom _ _ _ _ s
  · exact issue_waitc _ _ _ _ s
  · exact issue_launch _ _ _ _ s
  · exact issue_ginst _ _ _ _ s
  · exact issue_gwait _ _ _ _ s
  · exact issue_cancel _ _ _ s
  · exact issue_crd _ _ _ _ s
  · exact issue_seal _ _ _ s
  · exact issue_unseal _ _ _ s
  · exact issue_krd _ _ _ _ s
  · exact issue_kwr _ _ _ _ s
  · exact issue_tlbw _ _ _ _ s
  · exact issue_tlbp _ _ _ _ s
  · exact issue_tlbinv _ _ _ _ s
  · exact issue_trap _ _ s
  · exact issue_linsp _ _ _ _ _ s
  · exact issue_lpatch _ _ _ _ _ s
  · exact issue_lrq _ _ _ _ _ s
  · exact issue_lreinj _ _ _ _ _ s
  · exact issue_resume _ _ _ s
  · exact issue_kill _ _ _ s
  · exact issue_hret _ s
  · exact issue_ldeleg _ _ _ _ _ s
  · exact issue_bcw _ _ _ _ _ s
  · exact issue_ext _ _ _ s
  · exact issue_ring _ _ _ _ _ s
  all_goals cases h

end Sys2Proof.Machine
end

