-- ==== Sys2Proof/Laws/Frame.lean ====
section
/-!
SUPPORT. What the shared operations leave alone: memory and the registers of every task, once for each operation.
-/
namespace Sys2Proof.Machine

theorem sameMem.refl (s : State) : sameMem s s := fun _ => rfl
theorem sameMem.trans {s t u : State} (h : sameMem s t) (g : sameMem t u) : sameMem s u := fun a => (g a).trans (h a)
theorem sameMem_of_mem {s t : State} (h : t.mem = s.mem) : sameMem s t := fun a => by rw [h]

theorem sameRegs.refl (s : State) : sameRegs s s := fun _ => ⟨rfl, rfl, rfl, rfl⟩
theorem sameRegs.trans {s t u : State} (h : sameRegs s t) (g : sameRegs t u) : sameRegs s u := fun c =>
  ⟨(g c).1.trans (h c).1, (g c).2.1.trans (h c).2.1, (g c).2.2.1.trans (h c).2.2.1, (g c).2.2.2.trans (h c).2.2.2⟩
theorem sameRegs_of_cores {s t : State} (h : t.cores = s.cores) : sameRegs s t := fun c => by
  have : t.core c = s.core c := by simp only [State.core, h]
  simp [this]

/-- A change of one core that keeps its task's registers and its matrix registers. -/
theorem sameRegs_modCore (s : State) (c : Nat) (f : Core → Core)
    (hf : ∀ k, (f k).task.regs = k.task.regs ∧ (f k).task.preds = k.task.preds ∧ (f k).mrf = k.mrf ∧ (f k).bypass = k.bypass) :
    sameRegs s (s.modCore c f) := fun d => by
  rw [core_modCore]
  split
  · next h => subst h; exact hf _
  · exact ⟨rfl, rfl, rfl, rfl⟩

/-- A change of one thread that keeps its registers and predicates. -/
theorem sameRegs_modThread (s : State) (c : Nat) (hd : Bool) (f : Thread → Thread) (hf : ∀ t, (f t).regs = t.regs ∧ (f t).preds = t.preds) :
    sameRegs s (s.modThread c hd f) := by
  refine sameRegs_modCore s c _ fun k => ?_
  cases hd
  · exact ⟨(hf _).1, (hf _).2, rfl, rfl⟩
  · exact ⟨rfl, rfl, rfl, rfl⟩

@[simp] theorem post_mem (s : State) (c : Nat) (hd : Bool) (p : Pending) : (s.post c hd p).mem = s.mem := rfl
theorem post_sameRegs (s : State) (c : Nat) (hd : Bool) (p : Pending) : sameRegs s (s.post c hd p) :=
  sameRegs_modThread s c hd _ fun _ => ⟨rfl, rfl⟩

@[simp] theorem access_mem (s : State) (c : Nat) (hd : Bool) (o : Outst) : (s.access c hd o).mem = s.mem := rfl
theorem access_sameRegs (s : State) (c : Nat) (hd : Bool) (o : Outst) : sameRegs s (s.access c hd o) :=
  sameRegs_modThread s c hd _ fun _ => ⟨rfl, rfl⟩

theorem postResult_sameRegs (s : State) (lat : Nat) (rp : Replay) (res : Res) : sameRegs s (postResult s lat rp res) :=
  post_sameRegs s _ _ _

@[simp] theorem setWait_mem (s : State) (w : Wait) : (setWait s w).mem = s.mem := rfl
theorem setWait_sameRegs (s : State) (w : Wait) : sameRegs s (setWait s w) := sameRegs_modThread s _ _ _ fun _ => ⟨rfl, rfl⟩

@[simp] theorem beginUnbounded_mem (s : State) : (beginUnbounded s).mem = s.mem := by
  unfold beginUnbounded; split <;> rfl
theorem beginUnbounded_sameRegs (s : State) : sameRegs s (beginUnbounded s) := by
  unfold beginUnbounded
  split
  · exact .refl s
  · exact sameRegs_of_cores rfl

@[simp] theorem startFence_mem (s : State) (scope upTo : Nat) (after : After) : (startFence s scope upTo after).mem = s.mem := by
  unfold startFence; dsimp only; split <;> simp
theorem startFence_sameRegs (s : State) (scope upTo : Nat) (after : After) : sameRegs s (startFence s scope upTo after) := by
  unfold startFence
  dsimp only
  split
  · exact (beginUnbounded_sameRegs s).trans (setWait_sameRegs _ _)
  · exact setWait_sameRegs s _

@[simp] theorem arrive_mem (s : State) (d : Nat) (p : Pending) : (s.arrive d p).1.mem = s.mem := rfl
theorem arrive_sameRegs (s : State) (d : Nat) (p : Pending) : sameRegs s (s.arrive d p).1 :=
  sameRegs_modCore s d _ fun _ => ⟨rfl, rfl, rfl, rfl⟩

@[simp] theorem later_mem (s : State) (d : Nat) (e : Ev) : (s.later d e).mem = s.mem := rfl
@[simp] theorem later_cores (s : State) (d : Nat) (e : Ev) : (s.later d e).cores = s.cores := rfl

/-- A scalar register written, read back: s0 stays zero (R65). -/
theorem reg_setReg (t : Thread) (n m : Nat) (v : Word) : (t.setReg n v).reg m = if m = n ∧ m ≠ 0 then v else t.reg m := by
  unfold Thread.setReg Thread.reg
  by_cases hn : n = 0 <;> by_cases hm : m = 0 <;> simp [hn, hm, smGet_smSet]

/-- Every byte a commit to a face writes, and no other (R14, R415). -/
theorem readByte_commitFace (s : State) (c face off : Nat) (data : List Byte) (bad : Bool) (a : Nat) :
    readByte (commitFace s c face off data bad).mem a =
      if faceLoc c face off ≤ a ∧ a < faceLoc c face off + data.length then data.getD (a - faceLoc c face off) 0 else readByte s.mem a := by
  rw [commitFace_mem, readByte_writeBytes]

end Sys2Proof.Machine
end

