-- ==== Sys2Proof/Laws/PerInstr.lean ====
section
/-!
SUPPORT. One lemma per constructor: every word is a word of 32 bits (R284).
-/
namespace Sys2Proof.Laws.Encoding

/-- The encoding of an instruction fits one 32-bit word (R284). -/
def Statement (i : Instr) : Prop := i.toWord < 2 ^ 32

theorem b2n_le (b : Bool) : b2n b ≤ 1 := by cases b <;> decide

theorem shape0 (base : Nat) (hb : base ≤ 0x00000000) (h : SHead) :
    encS base h [] < 2 ^ 32 := by
  have h1 := b2n_le h.chain
  have h2 := b2n_le h.s1
  simp only [encS, SHead.bits, fields]; omega

theorem shape1 (base : Nat) (hb : base ≤ 0x06000000) (h : SHead) (x0 : BitVec 6) (x1 : BitVec 6) (x2 : BitVec 6) :
    encS base h [(x0.toNat, 12), (x1.toNat, 6), (x2.toNat, 0)] < 2 ^ 32 := by
  have h1 := b2n_le h.chain
  have h2 := b2n_le h.s1
  simp only [encS, SHead.bits, fields]; omega

theorem shape2 (base : Nat) (hb : base ≤ 0x05c00000) (h : SHead) (x0 : BitVec 6) (x1 : BitVec 12) :
    encS base h [(x0.toNat, 12), (x1.toNat, 0)] < 2 ^ 32 := by
  have h1 := b2n_le h.chain
  have h2 := b2n_le h.s1
  simp only [encS, SHead.bits, fields]; omega

theorem shape3 (base : Nat) (hb : base ≤ 0x0e000000) (h : SHead) (x0 : BitVec 4) (x1 : BitVec 6) (x2 : BitVec 6) :
    encS base h [(x0.toNat, 14), (x1.toNat, 6), (x2.toNat, 0)] < 2 ^ 32 := by
  have h1 := b2n_le h.chain
  have h2 := b2n_le h.s1
  simp only [encS, SHead.bits, fields]; omega

theorem shape4 (base : Nat) (hb : base ≤ 0x09000000) (h : SHead) (x0 : BitVec 4) (x1 : BitVec 4) (x2 : BitVec 4) :
    encS base h [(x0.toNat, 14), (x1.toNat, 10), (x2.toNat, 6)] < 2 ^ 32 := by
  have h1 := b2n_le h.chain
  have h2 := b2n_le h.s1
  simp only [encS, SHead.bits, fields]; omega

theorem shape5 (base : Nat) (hb : base ≤ 0x09400000) (h : SHead) (x0 : BitVec 6) (x1 : BitVec 6) :
    encS base h [(x0.toNat, 12), (x1.toNat, 6)] < 2 ^ 32 := by
  have h1 := b2n_le h.chain
  have h2 := b2n_le h.s1
  simp only [encS, SHead.bits, fields]; omega

theorem shape6 (base : Nat) (hb : base ≤ 0x09800000) (h : SHead) (x0 : BitVec 6) (x1 : BitVec 3) :
    encS base h [(x0.toNat, 12), (x1.toNat, 0)] < 2 ^ 32 := by
  have h1 := b2n_le h.chain
  have h2 := b2n_le h.s1
  simp only [encS, SHead.bits, fields]; omega

theorem shape7 (base : Nat) (hb : base ≤ 0x0e400000) (h : SHead) (x0 : BitVec 2) (x1 : BitVec 5) (x2 : BitVec 5) (x3 : BitVec 5) :
    encS base h [(x0.toNat, 16), (x1.toNat, 11), (x2.toNat, 6), (x3.toNat, 1)] < 2 ^ 32 := by
  have h1 := b2n_le h.chain
  have h2 := b2n_le h.s1
  simp only [encS, SHead.bits, fields]; omega

theorem shape8 (base : Nat) (hb : base ≤ 0x0c800000) (h : SHead) (x0 : BitVec 5) (x1 : BitVec 5) (x2 : BitVec 5) :
    encS base h [(x0.toNat, 11), (x1.toNat, 6), (x2.toNat, 1)] < 2 ^ 32 := by
  have h1 := b2n_le h.chain
  have h2 := b2n_le h.s1
  simp only [encS, SHead.bits, fields]; omega

theorem shape9 (base : Nat) (hb : base ≤ 0x0e800000) (h : Head) (x0 : BitVec 18) :
    encG base h [(x0.toNat, 0)] < 2 ^ 32 := by
  have h1 := b2n_le h.chain
  simp only [encG, Head.bits, fields]; omega

theorem shape10 (base : Nat) (hb : base ≤ 0x0ec00000) (h : Head) (x0 : BitVec 6) (x1 : BitVec 12) :
    encG base h [(x0.toNat, 12), (x1.toNat, 0)] < 2 ^ 32 := by
  have h1 := b2n_le h.chain
  simp only [encG, Head.bits, fields]; omega

theorem shape11 (base : Nat) (hb : base ≤ 0x0f000000) (h : Head) (x0 : BitVec 6) :
    encG base h [(x0.toNat, 6)] < 2 ^ 32 := by
  have h1 := b2n_le h.chain
  simp only [encG, Head.bits, fields]; omega

theorem shape12 (base : Nat) (hb : base ≤ 0x0f400000) (h : Head) (x0 : BitVec 6) (x1 : BitVec 2) :
    encG base h [(x0.toNat, 12), (x1.toNat, 10)] < 2 ^ 32 := by
  have h1 := b2n_le h.chain
  simp only [encG, Head.bits, fields]; omega

theorem shape13 (base : Nat) (hb : base ≤ 0x5c000000) (h : Head) :
    encG base h [] < 2 ^ 32 := by
  have h1 := b2n_le h.chain
  simp only [encG, Head.bits, fields]; omega

theorem shape14 (base : Nat) (hb : base ≤ 0x1f000000) (h : Head) (x0 : BitVec 2) (x1 : BitVec 5) (x2 : BitVec 5) (x3 : BitVec 5) :
    encG base h [(x0.toNat, 16), (x1.toNat, 11), (x2.toNat, 6), (x3.toNat, 1)] < 2 ^ 32 := by
  have h1 := b2n_le h.chain
  simp only [encG, Head.bits, fields]; omega

theorem shape15 (base : Nat) (hb : base ≤ 0x1f400000) (h : Head) (x0 : BitVec 2) (x1 : BitVec 5) (x2 : BitVec 5) :
    encG base h [(x0.toNat, 16), (x1.toNat, 11), (x2.toNat, 6)] < 2 ^ 32 := by
  have h1 := b2n_le h.chain
  simp only [encG, Head.bits, fields]; omega

theorem shape16 (base : Nat) (hb : base ≤ 0x20000000) (h : Bool) (x0 : BitVec 7) (x1 : BitVec 7) :
    encC base h [(x0.toNat, 14), (x1.toNat, 7)] < 2 ^ 32 := by
  have h1 := b2n_le h
  simp only [encC, fields]; omega

theorem shape17 (base : Nat) (hb : base ≤ 0x28c00000) (h : Bool) (x0 : BitVec 1) (x1 : BitVec 7) (x2 : BitVec 7) (x3 : BitVec 7) :
    encC base h [(x0.toNat, 21), (x1.toNat, 14), (x2.toNat, 7), (x3.toNat, 0)] < 2 ^ 32 := by
  have h1 := b2n_le h
  simp only [encC, fields]; omega

theorem shape18 (base : Nat) (hb : base ≤ 0x24000000) (h : Bool) (x0 : BitVec 7) (x1 : BitVec 7) (x2 : BitVec 7) :
    encC base h [(x0.toNat, 14), (x1.toNat, 7), (x2.toNat, 0)] < 2 ^ 32 := by
  have h1 := b2n_le h
  simp only [encC, fields]; omega

theorem shape19 (base : Nat) (hb : base ≤ 0x28800000) (h : Bool) (x0 : BitVec 1) (x1 : BitVec 7) (x2 : BitVec 7) :
    encC base h [(x0.toNat, 21), (x1.toNat, 14), (x2.toNat, 7)] < 2 ^ 32 := by
  have h1 := b2n_le h
  simp only [encC, fields]; omega

theorem shape20 (base : Nat) (hb : base ≤ 0x27400000) (h : Bool) (x0 : BitVec 1) (x1 : BitVec 6) (x2 : BitVec 7) :
    encC base h [(x0.toNat, 21), (x1.toNat, 14), (x2.toNat, 7)] < 2 ^ 32 := by
  have h1 := b2n_le h
  simp only [encC, fields]; omega

theorem shape21 (base : Nat) (hb : base ≤ 0x27800000) (h : Bool) (x0 : BitVec 1) (x1 : BitVec 7) (x2 : BitVec 6) :
    encC base h [(x0.toNat, 21), (x1.toNat, 14), (x2.toNat, 7)] < 2 ^ 32 := by
  have h1 := b2n_le h
  simp only [encC, fields]; omega

theorem shape22 (base : Nat) (hb : base ≤ 0x28000000) (h : Bool) (x0 : BitVec 7) (x1 : BitVec 7) (x2 : BitVec 5) :
    encC base h [(x0.toNat, 14), (x1.toNat, 7), (x2.toNat, 0)] < 2 ^ 32 := by
  have h1 := b2n_le h
  simp only [encC, fields]; omega

theorem shape23 (base : Nat) (hb : base ≤ 0x29000000) (h : Bool) (x0 : BitVec 6) :
    encC base h [(x0.toNat, 7)] < 2 ^ 32 := by
  have h1 := b2n_le h
  simp only [encC, fields]; omega

theorem shape24 (base : Nat) (hb : base ≤ 0x29400000) (h : Bool) (x0 : BitVec 7) (x1 : BitVec 3) :
    encC base h [(x0.toNat, 14), (x1.toNat, 7)] < 2 ^ 32 := by
  have h1 := b2n_le h
  simp only [encC, fields]; omega

theorem shape25 (base : Nat) (hb : base ≤ 0x29600000) (h : Bool) (x0 : BitVec 7) (x1 : BitVec 2) :
    encC base h [(x0.toNat, 14), (x1.toNat, 7)] < 2 ^ 32 := by
  have h1 := b2n_le h
  simp only [encC, fields]; omega

theorem shape26 (base : Nat) (hb : base ≤ 0x5a000000) (h : Head) (x0 : BitVec 6) (x1 : BitVec 6) (x2 : BitVec 6) :
    encG base h [(x0.toNat, 12), (x1.toNat, 6), (x2.toNat, 0)] < 2 ^ 32 := by
  have h1 := b2n_le h.chain
  simp only [encG, Head.bits, fields]; omega

theorem shape27 (base : Nat) (hb : base ≤ 0x55800000) (h : Head) (x0 : BitVec 6) (x1 : BitVec 6) :
    encG base h [(x0.toNat, 12), (x1.toNat, 6)] < 2 ^ 32 := by
  have h1 := b2n_le h.chain
  simp only [encG, Head.bits, fields]; omega

theorem shape28 (base : Nat) (hb : base ≤ 0x33000000) (h : Head) (x0 : BitVec 6) (x1 : BitVec 6) (x2 : BitVec 2) (x3 : BitVec 1) :
    encG base h [(x0.toNat, 12), (x1.toNat, 6), (x2.toNat, 4), (x3.toNat, 3)] < 2 ^ 32 := by
  have h1 := b2n_le h.chain
  simp only [encG, Head.bits, fields]; omega

theorem shape29 (base : Nat) (hb : base ≤ 0x33400000) (h : Head) (x0 : BitVec 6) (x1 : BitVec 6) (x2 : BitVec 2) :
    encG base h [(x0.toNat, 12), (x1.toNat, 6), (x2.toNat, 4)] < 2 ^ 32 := by
  have h1 := b2n_le h.chain
  simp only [encG, Head.bits, fields]; omega

theorem shape30 (base : Nat) (hb : base ≤ 0x33c00000) (h : Head) (x0 : BitVec 7) (x1 : BitVec 6) :
    encG base h [(x0.toNat, 11), (x1.toNat, 5)] < 2 ^ 32 := by
  have h1 := b2n_le h.chain
  simp only [encG, Head.bits, fields]; omega

theorem shape31 (base : Nat) (hb : base ≤ 0x3b800000) (h : Head) (x0 : BitVec 1) (x1 : BitVec 2) (x2 : BitVec 5) (x3 : BitVec 5) (x4 : BitVec 5) :
    encG base h [(x0.toNat, 17), (x1.toNat, 15), (x2.toNat, 10), (x3.toNat, 5), (x4.toNat, 0)] < 2 ^ 32 := by
  have h1 := b2n_le h.chain
  simp only [encG, Head.bits, fields]; omega

theorem shape32 (base : Nat) (hb : base ≤ 0x3c400000) (h : Head) (x0 : BitVec 1) (x1 : BitVec 2) (x2 : BitVec 5) (x3 : BitVec 5) :
    encG base h [(x0.toNat, 17), (x1.toNat, 15), (x2.toNat, 5), (x3.toNat, 0)] < 2 ^ 32 := by
  have h1 := b2n_le h.chain
  simp only [encG, Head.bits, fields]; omega

theorem shape33 (base : Nat) (hb : base ≤ 0x54400000) (h : Head) (x0 : BitVec 6) (x1 : BitVec 9) :
    encG base h [(x0.toNat, 12), (x1.toNat, 3)] < 2 ^ 32 := by
  have h1 := b2n_le h.chain
  simp only [encG, Head.bits, fields]; omega

theorem shape34 (base : Nat) (hb : base ≤ 0x5a400000) (h : Head) (x0 : BitVec 12) :
    encG base h [(x0.toNat, 0)] < 2 ^ 32 := by
  have h1 := b2n_le h.chain
  simp only [encG, Head.bits, fields]; omega

theorem shape35 (base : Nat) (hb : base ≤ 0x54c00000) (h : Head) (x0 : BitVec 6) :
    encG base h [(x0.toNat, 12)] < 2 ^ 32 := by
  have h1 := b2n_le h.chain
  simp only [encG, Head.bits, fields]; omega

theorem shape36 (base : Nat) (hb : base ≤ 0x58c00000) (h : Head) (x0 : BitVec 6) (x1 : BitVec 6) :
    encG base h [(x0.toNat, 6), (x1.toNat, 0)] < 2 ^ 32 := by
  have h1 := b2n_le h.chain
  simp only [encG, Head.bits, fields]; omega

theorem shape37 (base : Nat) (hb : base ≤ 0x56000000) (h : Head) (x0 : BitVec 3) :
    encG base h [(x0.toNat, 15)] < 2 ^ 32 := by
  have h1 := b2n_le h.chain
  simp only [encG, Head.bits, fields]; omega

theorem shape38 (base : Nat) (hb : base ≤ 0x5c400000) (h : Head) (x0 : BitVec 4) (x1 : BitVec 2) (x2 : BitVec 6) (x3 : BitVec 6) :
    encG base h [(x0.toNat, 14), (x1.toNat, 12), (x2.toNat, 6), (x3.toNat, 0)] < 2 ^ 32 := by
  have h1 := b2n_le h.chain
  simp only [encG, Head.bits, fields]; omega

theorem shape39 (base : Nat) (hb : base ≤ 0x5bc00000) (h : Head) (x0 : BitVec 4) (x1 : BitVec 2) :
    encG base h [(x0.toNat, 14), (x1.toNat, 12)] < 2 ^ 32 := by
  have h1 := b2n_le h.chain
  simp only [encG, Head.bits, fields]; omega

theorem shape40 (base : Nat) (hb : base ≤ 0x70000000) (h : Bool) (x0 : BitVec 8) (x1 : BitVec 4) (x2 : BitVec 1) (x3 : BitVec 4) :
    encC base h [(x0.toNat, 18), (x1.toNat, 14), (x2.toNat, 13), (x3.toNat, 9)] < 2 ^ 32 := by
  have h1 := b2n_le h
  simp only [encC, fields]; omega

theorem shape41 (base : Nat) (hb : base ≤ 0x74000000) (h : Bool) (x0 : BitVec 1) (x1 : BitVec 25) :
    encC base h [(x0.toNat, 25), (x1.toNat, 0)] < 2 ^ 32 := by
  have h1 := b2n_le h
  simp only [encC, fields]; omega

theorem shape42 (base : Nat) (hb : base ≤ 0x78000000) (h : Bool) (x0 : BitVec 1) (x1 : BitVec 3) (x2 : BitVec 6) (x3 : BitVec 6) :
    encC base h [(x0.toNat, 25), (x1.toNat, 22), (x2.toNat, 16), (x3.toNat, 10)] < 2 ^ 32 := by
  have h1 := b2n_le h
  simp only [encC, fields]; omega

end Sys2Proof.Laws.Encoding

open Sys2Proof Sys2Proof.Laws.Encoding

theorem Sys2Proof.Laws.Encoding.nop x0 : Statement (.nop x0) := shape0 _ (by decide) x0
theorem Sys2Proof.Laws.Encoding.add x0 x1 x2 x3 : Statement (.add x0 x1 x2 x3) := shape1 _ (by decide) x0 x1 x2 x3
theorem Sys2Proof.Laws.Encoding.sub x0 x1 x2 x3 : Statement (.sub x0 x1 x2 x3) := shape1 _ (by decide) x0 x1 x2 x3
theorem Sys2Proof.Laws.Encoding.addi x0 x1 x2 x3 : Statement (.addi x0 x1 x2 x3) := shape1 _ (by decide) x0 x1 x2 x3
theorem Sys2Proof.Laws.Encoding.mul x0 x1 x2 x3 : Statement (.mul x0 x1 x2 x3) := shape1 _ (by decide) x0 x1 x2 x3
theorem Sys2Proof.Laws.Encoding.mulhs x0 x1 x2 x3 : Statement (.mulhs x0 x1 x2 x3) := shape1 _ (by decide) x0 x1 x2 x3
theorem Sys2Proof.Laws.Encoding.mulhu x0 x1 x2 x3 : Statement (.mulhu x0 x1 x2 x3) := shape1 _ (by decide) x0 x1 x2 x3
theorem Sys2Proof.Laws.Encoding.and x0 x1 x2 x3 : Statement (.and x0 x1 x2 x3) := shape1 _ (by decide) x0 x1 x2 x3
theorem Sys2Proof.Laws.Encoding.or x0 x1 x2 x3 : Statement (.or x0 x1 x2 x3) := shape1 _ (by decide) x0 x1 x2 x3
theorem Sys2Proof.Laws.Encoding.xor x0 x1 x2 x3 : Statement (.xor x0 x1 x2 x3) := shape1 _ (by decide) x0 x1 x2 x3
theorem Sys2Proof.Laws.Encoding.andi x0 x1 x2 x3 : Statement (.andi x0 x1 x2 x3) := shape1 _ (by decide) x0 x1 x2 x3
theorem Sys2Proof.Laws.Encoding.ori x0 x1 x2 x3 : Statement (.ori x0 x1 x2 x3) := shape1 _ (by decide) x0 x1 x2 x3
theorem Sys2Proof.Laws.Encoding.xori x0 x1 x2 x3 : Statement (.xori x0 x1 x2 x3) := shape1 _ (by decide) x0 x1 x2 x3
theorem Sys2Proof.Laws.Encoding.shl x0 x1 x2 x3 : Statement (.shl x0 x1 x2 x3) := shape1 _ (by decide) x0 x1 x2 x3
theorem Sys2Proof.Laws.Encoding.shr x0 x1 x2 x3 : Statement (.shr x0 x1 x2 x3) := shape1 _ (by decide) x0 x1 x2 x3
theorem Sys2Proof.Laws.Encoding.sar x0 x1 x2 x3 : Statement (.sar x0 x1 x2 x3) := shape1 _ (by decide) x0 x1 x2 x3
theorem Sys2Proof.Laws.Encoding.shli x0 x1 x2 x3 : Statement (.shli x0 x1 x2 x3) := shape1 _ (by decide) x0 x1 x2 x3
theorem Sys2Proof.Laws.Encoding.shri x0 x1 x2 x3 : Statement (.shri x0 x1 x2 x3) := shape1 _ (by decide) x0 x1 x2 x3
theorem Sys2Proof.Laws.Encoding.sari x0 x1 x2 x3 : Statement (.sari x0 x1 x2 x3) := shape1 _ (by decide) x0 x1 x2 x3
theorem Sys2Proof.Laws.Encoding.min x0 x1 x2 x3 : Statement (.min x0 x1 x2 x3) := shape1 _ (by decide) x0 x1 x2 x3
theorem Sys2Proof.Laws.Encoding.max x0 x1 x2 x3 : Statement (.max x0 x1 x2 x3) := shape1 _ (by decide) x0 x1 x2 x3
theorem Sys2Proof.Laws.Encoding.minu x0 x1 x2 x3 : Statement (.minu x0 x1 x2 x3) := shape1 _ (by decide) x0 x1 x2 x3
theorem Sys2Proof.Laws.Encoding.maxu x0 x1 x2 x3 : Statement (.maxu x0 x1 x2 x3) := shape1 _ (by decide) x0 x1 x2 x3
theorem Sys2Proof.Laws.Encoding.li x0 x1 x2 : Statement (.li x0 x1 x2) := shape2 _ (by decide) x0 x1 x2
theorem Sys2Proof.Laws.Encoding.sel x0 x1 x2 x3 : Statement (.sel x0 x1 x2 x3) := shape1 _ (by decide) x0 x1 x2 x3
theorem Sys2Proof.Laws.Encoding.cmpeq x0 x1 x2 x3 : Statement (.cmpeq x0 x1 x2 x3) := shape3 _ (by decide) x0 x1 x2 x3
theorem Sys2Proof.Laws.Encoding.cmpne x0 x1 x2 x3 : Statement (.cmpne x0 x1 x2 x3) := shape3 _ (by decide) x0 x1 x2 x3
theorem Sys2Proof.Laws.Encoding.cmplt x0 x1 x2 x3 : Statement (.cmplt x0 x1 x2 x3) := shape3 _ (by decide) x0 x1 x2 x3
theorem Sys2Proof.Laws.Encoding.cmple x0 x1 x2 x3 : Statement (.cmple x0 x1 x2 x3) := shape3 _ (by decide) x0 x1 x2 x3
theorem Sys2Proof.Laws.Encoding.cmpltu x0 x1 x2 x3 : Statement (.cmpltu x0 x1 x2 x3) := shape3 _ (by decide) x0 x1 x2 x3
theorem Sys2Proof.Laws.Encoding.cmpleu x0 x1 x2 x3 : Statement (.cmpleu x0 x1 x2 x3) := shape3 _ (by decide) x0 x1 x2 x3
theorem Sys2Proof.Laws.Encoding.cmpeqi x0 x1 x2 x3 : Statement (.cmpeqi x0 x1 x2 x3) := shape3 _ (by decide) x0 x1 x2 x3
theorem Sys2Proof.Laws.Encoding.cmplti x0 x1 x2 x3 : Statement (.cmplti x0 x1 x2 x3) := shape3 _ (by decide) x0 x1 x2 x3
theorem Sys2Proof.Laws.Encoding.pand x0 x1 x2 x3 : Statement (.pand x0 x1 x2 x3) := shape4 _ (by decide) x0 x1 x2 x3
theorem Sys2Proof.Laws.Encoding.por x0 x1 x2 x3 : Statement (.por x0 x1 x2 x3) := shape4 _ (by decide) x0 x1 x2 x3
theorem Sys2Proof.Laws.Encoding.pxor x0 x1 x2 x3 : Statement (.pxor x0 x1 x2 x3) := shape4 _ (by decide) x0 x1 x2 x3
theorem Sys2Proof.Laws.Encoding.pandn x0 x1 x2 x3 : Statement (.pandn x0 x1 x2 x3) := shape4 _ (by decide) x0 x1 x2 x3
theorem Sys2Proof.Laws.Encoding.xmov x0 x1 x2 : Statement (.xmov x0 x1 x2) := shape5 _ (by decide) x0 x1 x2
theorem Sys2Proof.Laws.Encoding.qrd x0 x1 x2 : Statement (.qrd x0 x1 x2) := shape6 _ (by decide) x0 x1 x2
theorem Sys2Proof.Laws.Encoding.fadd x0 x1 x2 x3 x4 : Statement (.fadd x0 x1 x2 x3 x4) := shape7 _ (by decide) x0 x1 x2 x3 x4
theorem Sys2Proof.Laws.Encoding.fsub x0 x1 x2 x3 x4 : Statement (.fsub x0 x1 x2 x3 x4) := shape7 _ (by decide) x0 x1 x2 x3 x4
theorem Sys2Proof.Laws.Encoding.fmul x0 x1 x2 x3 x4 : Statement (.fmul x0 x1 x2 x3 x4) := shape7 _ (by decide) x0 x1 x2 x3 x4
theorem Sys2Proof.Laws.Encoding.ffma x0 x1 x2 x3 x4 : Statement (.ffma x0 x1 x2 x3 x4) := shape7 _ (by decide) x0 x1 x2 x3 x4
theorem Sys2Proof.Laws.Encoding.fmin x0 x1 x2 x3 : Statement (.fmin x0 x1 x2 x3) := shape8 _ (by decide) x0 x1 x2 x3
theorem Sys2Proof.Laws.Encoding.fmax x0 x1 x2 x3 : Statement (.fmax x0 x1 x2 x3) := shape8 _ (by decide) x0 x1 x2 x3
theorem Sys2Proof.Laws.Encoding.dadd x0 x1 x2 x3 x4 : Statement (.dadd x0 x1 x2 x3 x4) := shape7 _ (by decide) x0 x1 x2 x3 x4
theorem Sys2Proof.Laws.Encoding.dsub x0 x1 x2 x3 x4 : Statement (.dsub x0 x1 x2 x3 x4) := shape7 _ (by decide) x0 x1 x2 x3 x4
theorem Sys2Proof.Laws.Encoding.dmul x0 x1 x2 x3 x4 : Statement (.dmul x0 x1 x2 x3 x4) := shape7 _ (by decide) x0 x1 x2 x3 x4
theorem Sys2Proof.Laws.Encoding.dfma x0 x1 x2 x3 x4 : Statement (.dfma x0 x1 x2 x3 x4) := shape7 _ (by decide) x0 x1 x2 x3 x4
theorem Sys2Proof.Laws.Encoding.dmin x0 x1 x2 x3 : Statement (.dmin x0 x1 x2 x3) := shape8 _ (by decide) x0 x1 x2 x3
theorem Sys2Proof.Laws.Encoding.dmax x0 x1 x2 x3 : Statement (.dmax x0 x1 x2 x3) := shape8 _ (by decide) x0 x1 x2 x3
theorem Sys2Proof.Laws.Encoding.fcmpeq x0 x1 x2 x3 : Statement (.fcmpeq x0 x1 x2 x3) := shape3 _ (by decide) x0 x1 x2 x3
theorem Sys2Proof.Laws.Encoding.fcmplt x0 x1 x2 x3 : Statement (.fcmplt x0 x1 x2 x3) := shape3 _ (by decide) x0 x1 x2 x3
theorem Sys2Proof.Laws.Encoding.fcmple x0 x1 x2 x3 : Statement (.fcmple x0 x1 x2 x3) := shape3 _ (by decide) x0 x1 x2 x3
theorem Sys2Proof.Laws.Encoding.dcmpeq x0 x1 x2 x3 : Statement (.dcmpeq x0 x1 x2 x3) := shape3 _ (by decide) x0 x1 x2 x3
theorem Sys2Proof.Laws.Encoding.dcmplt x0 x1 x2 x3 : Statement (.dcmplt x0 x1 x2 x3) := shape3 _ (by decide) x0 x1 x2 x3
theorem Sys2Proof.Laws.Encoding.dcmple x0 x1 x2 x3 : Statement (.dcmple x0 x1 x2 x3) := shape3 _ (by decide) x0 x1 x2 x3
theorem Sys2Proof.Laws.Encoding.cvt x0 x1 x2 x3 x4 : Statement (.cvt x0 x1 x2 x3 x4) := shape7 _ (by decide) x0 x1 x2 x3 x4
theorem Sys2Proof.Laws.Encoding.b x0 x1 : Statement (.b x0 x1) := shape9 _ (by decide) x0 x1
theorem Sys2Proof.Laws.Encoding.call x0 x1 x2 : Statement (.call x0 x1 x2) := shape10 _ (by decide) x0 x1 x2
theorem Sys2Proof.Laws.Encoding.jr x0 x1 : Statement (.jr x0 x1) := shape11 _ (by decide) x0 x1
theorem Sys2Proof.Laws.Encoding.loop x0 x1 x2 : Statement (.loop x0 x1 x2) := shape12 _ (by decide) x0 x1 x2
theorem Sys2Proof.Laws.Encoding.endTask x0 : Statement (.endTask x0) := shape13 _ (by decide) x0
theorem Sys2Proof.Laws.Encoding.fdiv x0 x1 x2 x3 x4 : Statement (.fdiv x0 x1 x2 x3 x4) := shape14 _ (by decide) x0 x1 x2 x3 x4
theorem Sys2Proof.Laws.Encoding.fsqrt x0 x1 x2 x3 : Statement (.fsqrt x0 x1 x2 x3) := shape15 _ (by decide) x0 x1 x2 x3
theorem Sys2Proof.Laws.Encoding.ddiv x0 x1 x2 x3 x4 : Statement (.ddiv x0 x1 x2 x3 x4) := shape14 _ (by decide) x0 x1 x2 x3 x4
theorem Sys2Proof.Laws.Encoding.dsqrt x0 x1 x2 x3 : Statement (.dsqrt x0 x1 x2 x3) := shape15 _ (by decide) x0 x1 x2 x3
theorem Sys2Proof.Laws.Encoding.vmov x0 x1 x2 : Statement (.vmov x0 x1 x2) := shape16 _ (by decide) x0 x1 x2
theorem Sys2Proof.Laws.Encoding.vfadd x0 x1 x2 x3 x4 : Statement (.vfadd x0 x1 x2 x3 x4) := shape17 _ (by decide) x0 x1 x2 x3 x4
theorem Sys2Proof.Laws.Encoding.vfsub x0 x1 x2 x3 x4 : Statement (.vfsub x0 x1 x2 x3 x4) := shape17 _ (by decide) x0 x1 x2 x3 x4
theorem Sys2Proof.Laws.Encoding.vfmul x0 x1 x2 x3 x4 : Statement (.vfmul x0 x1 x2 x3 x4) := shape17 _ (by decide) x0 x1 x2 x3 x4
theorem Sys2Proof.Laws.Encoding.vfma x0 x1 x2 x3 x4 : Statement (.vfma x0 x1 x2 x3 x4) := shape17 _ (by decide) x0 x1 x2 x3 x4
theorem Sys2Proof.Laws.Encoding.vfmin x0 x1 x2 x3 x4 : Statement (.vfmin x0 x1 x2 x3 x4) := shape17 _ (by decide) x0 x1 x2 x3 x4
theorem Sys2Proof.Laws.Encoding.vfmax x0 x1 x2 x3 x4 : Statement (.vfmax x0 x1 x2 x3 x4) := shape17 _ (by decide) x0 x1 x2 x3 x4
theorem Sys2Proof.Laws.Encoding.vadd x0 x1 x2 x3 x4 : Statement (.vadd x0 x1 x2 x3 x4) := shape17 _ (by decide) x0 x1 x2 x3 x4
theorem Sys2Proof.Laws.Encoding.vsub x0 x1 x2 x3 x4 : Statement (.vsub x0 x1 x2 x3 x4) := shape17 _ (by decide) x0 x1 x2 x3 x4
theorem Sys2Proof.Laws.Encoding.vmul x0 x1 x2 x3 x4 : Statement (.vmul x0 x1 x2 x3 x4) := shape17 _ (by decide) x0 x1 x2 x3 x4
theorem Sys2Proof.Laws.Encoding.vmin x0 x1 x2 x3 x4 : Statement (.vmin x0 x1 x2 x3 x4) := shape17 _ (by decide) x0 x1 x2 x3 x4
theorem Sys2Proof.Laws.Encoding.vmax x0 x1 x2 x3 x4 : Statement (.vmax x0 x1 x2 x3 x4) := shape17 _ (by decide) x0 x1 x2 x3 x4
theorem Sys2Proof.Laws.Encoding.vminu x0 x1 x2 x3 x4 : Statement (.vminu x0 x1 x2 x3 x4) := shape17 _ (by decide) x0 x1 x2 x3 x4
theorem Sys2Proof.Laws.Encoding.vmaxu x0 x1 x2 x3 x4 : Statement (.vmaxu x0 x1 x2 x3 x4) := shape17 _ (by decide) x0 x1 x2 x3 x4
theorem Sys2Proof.Laws.Encoding.vand x0 x1 x2 x3 : Statement (.vand x0 x1 x2 x3) := shape18 _ (by decide) x0 x1 x2 x3
theorem Sys2Proof.Laws.Encoding.vor x0 x1 x2 x3 : Statement (.vor x0 x1 x2 x3) := shape18 _ (by decide) x0 x1 x2 x3
theorem Sys2Proof.Laws.Encoding.vxor x0 x1 x2 x3 : Statement (.vxor x0 x1 x2 x3) := shape18 _ (by decide) x0 x1 x2 x3
theorem Sys2Proof.Laws.Encoding.vshl x0 x1 x2 x3 x4 : Statement (.vshl x0 x1 x2 x3 x4) := shape17 _ (by decide) x0 x1 x2 x3 x4
theorem Sys2Proof.Laws.Encoding.vshr x0 x1 x2 x3 x4 : Statement (.vshr x0 x1 x2 x3 x4) := shape17 _ (by decide) x0 x1 x2 x3 x4
theorem Sys2Proof.Laws.Encoding.vsar x0 x1 x2 x3 x4 : Statement (.vsar x0 x1 x2 x3 x4) := shape17 _ (by decide) x0 x1 x2 x3 x4
theorem Sys2Proof.Laws.Encoding.vfcmpeq x0 x1 x2 x3 x4 : Statement (.vfcmpeq x0 x1 x2 x3 x4) := shape17 _ (by decide) x0 x1 x2 x3 x4
theorem Sys2Proof.Laws.Encoding.vfcmplt x0 x1 x2 x3 x4 : Statement (.vfcmplt x0 x1 x2 x3 x4) := shape17 _ (by decide) x0 x1 x2 x3 x4
theorem Sys2Proof.Laws.Encoding.vcmpeq x0 x1 x2 x3 x4 : Statement (.vcmpeq x0 x1 x2 x3 x4) := shape17 _ (by decide) x0 x1 x2 x3 x4
theorem Sys2Proof.Laws.Encoding.vcmplt x0 x1 x2 x3 x4 : Statement (.vcmplt x0 x1 x2 x3 x4) := shape17 _ (by decide) x0 x1 x2 x3 x4
theorem Sys2Proof.Laws.Encoding.vsel x0 x1 x2 x3 x4 : Statement (.vsel x0 x1 x2 x3 x4) := shape17 _ (by decide) x0 x1 x2 x3 x4
theorem Sys2Proof.Laws.Encoding.vexp2 x0 x1 x2 x3 : Statement (.vexp2 x0 x1 x2 x3) := shape19 _ (by decide) x0 x1 x2 x3
theorem Sys2Proof.Laws.Encoding.vrcp x0 x1 x2 x3 : Statement (.vrcp x0 x1 x2 x3) := shape19 _ (by decide) x0 x1 x2 x3
theorem Sys2Proof.Laws.Encoding.vrsq x0 x1 x2 x3 : Statement (.vrsq x0 x1 x2 x3) := shape19 _ (by decide) x0 x1 x2 x3
theorem Sys2Proof.Laws.Encoding.vfrsum x0 x1 x2 x3 : Statement (.vfrsum x0 x1 x2 x3) := shape20 _ (by decide) x0 x1 x2 x3
theorem Sys2Proof.Laws.Encoding.vfrmax x0 x1 x2 x3 : Statement (.vfrmax x0 x1 x2 x3) := shape20 _ (by decide) x0 x1 x2 x3
theorem Sys2Proof.Laws.Encoding.vbcast x0 x1 x2 x3 : Statement (.vbcast x0 x1 x2 x3) := shape21 _ (by decide) x0 x1 x2 x3
theorem Sys2Proof.Laws.Encoding.vperm x0 x1 x2 x3 x4 : Statement (.vperm x0 x1 x2 x3 x4) := shape17 _ (by decide) x0 x1 x2 x3 x4
theorem Sys2Proof.Laws.Encoding.vcvt x0 x1 x2 x3 : Statement (.vcvt x0 x1 x2 x3) := shape22 _ (by decide) x0 x1 x2 x3
theorem Sys2Proof.Laws.Encoding.vbmax x0 x1 x2 x3 : Statement (.vbmax x0 x1 x2 x3) := shape19 _ (by decide) x0 x1 x2 x3
theorem Sys2Proof.Laws.Encoding.vqcvt x0 x1 x2 x3 : Statement (.vqcvt x0 x1 x2 x3) := shape19 _ (by decide) x0 x1 x2 x3
theorem Sys2Proof.Laws.Encoding.vdeq x0 x1 x2 x3 x4 : Statement (.vdeq x0 x1 x2 x3 x4) := shape17 _ (by decide) x0 x1 x2 x3 x4
theorem Sys2Proof.Laws.Encoding.vsetfmt x0 x1 : Statement (.vsetfmt x0 x1) := shape23 _ (by decide) x0 x1
theorem Sys2Proof.Laws.Encoding.vqmov x0 x1 x2 : Statement (.vqmov x0 x1 x2) := shape24 _ (by decide) x0 x1 x2
theorem Sys2Proof.Laws.Encoding.vqmovSend x0 x1 x2 : Statement (.vqmovSend x0 x1 x2) := shape25 _ (by decide) x0 x1 x2
theorem Sys2Proof.Laws.Encoding.cubeMm x0 x1 x2 x3 : Statement (.cubeMm x0 x1 x2 x3) := shape26 _ (by decide) x0 x1 x2 x3
theorem Sys2Proof.Laws.Encoding.cubeMma x0 x1 x2 x3 : Statement (.cubeMma x0 x1 x2 x3) := shape26 _ (by decide) x0 x1 x2 x3
theorem Sys2Proof.Laws.Encoding.cubeMmw x0 x1 x2 x3 : Statement (.cubeMmw x0 x1 x2 x3) := shape26 _ (by decide) x0 x1 x2 x3
theorem Sys2Proof.Laws.Encoding.cubeMmwa x0 x1 x2 x3 : Statement (.cubeMmwa x0 x1 x2 x3) := shape26 _ (by decide) x0 x1 x2 x3
theorem Sys2Proof.Laws.Encoding.cubePl x0 x1 x2 x3 : Statement (.cubePl x0 x1 x2 x3) := shape26 _ (by decide) x0 x1 x2 x3
theorem Sys2Proof.Laws.Encoding.cubePla x0 x1 x2 x3 : Statement (.cubePla x0 x1 x2 x3) := shape26 _ (by decide) x0 x1 x2 x3
theorem Sys2Proof.Laws.Encoding.cubeWl x0 x1 x2 x3 : Statement (.cubeWl x0 x1 x2 x3) := shape26 _ (by decide) x0 x1 x2 x3
theorem Sys2Proof.Laws.Encoding.cubeFmt x0 x1 x2 : Statement (.cubeFmt x0 x1 x2) := shape27 _ (by decide) x0 x1 x2
theorem Sys2Proof.Laws.Encoding.cubeZero x0 x1 x2 : Statement (.cubeZero x0 x1 x2) := shape27 _ (by decide) x0 x1 x2
theorem Sys2Proof.Laws.Encoding.cubeDrain x0 x1 x2 x3 : Statement (.cubeDrain x0 x1 x2 x3) := shape26 _ (by decide) x0 x1 x2 x3
theorem Sys2Proof.Laws.Encoding.cubeScore x0 x1 x2 x3 : Statement (.cubeScore x0 x1 x2 x3) := shape26 _ (by decide) x0 x1 x2 x3
theorem Sys2Proof.Laws.Encoding.cubeResc x0 x1 x2 : Statement (.cubeResc x0 x1 x2) := shape27 _ (by decide) x0 x1 x2
theorem Sys2Proof.Laws.Encoding.cubeSide x0 x1 x2 x3 : Statement (.cubeSide x0 x1 x2 x3) := shape26 _ (by decide) x0 x1 x2 x3
theorem Sys2Proof.Laws.Encoding.lda x0 x1 x2 x3 x4 : Statement (.lda x0 x1 x2 x3 x4) := shape28 _ (by decide) x0 x1 x2 x3 x4
theorem Sys2Proof.Laws.Encoding.sta x0 x1 x2 x3 : Statement (.sta x0 x1 x2 x3) := shape29 _ (by decide) x0 x1 x2 x3
theorem Sys2Proof.Laws.Encoding.mlda x0 x1 x2 : Statement (.mlda x0 x1 x2) := shape30 _ (by decide) x0 x1 x2
theorem Sys2Proof.Laws.Encoding.msta x0 x1 x2 : Statement (.msta x0 x1 x2) := shape30 _ (by decide) x0 x1 x2
theorem Sys2Proof.Laws.Encoding.ldw x0 x1 x2 x3 x4 : Statement (.ldw x0 x1 x2 x3 x4) := shape28 _ (by decide) x0 x1 x2 x3 x4
theorem Sys2Proof.Laws.Encoding.stw x0 x1 x2 x3 : Statement (.stw x0 x1 x2 x3) := shape29 _ (by decide) x0 x1 x2 x3
theorem Sys2Proof.Laws.Encoding.mldw x0 x1 x2 : Statement (.mldw x0 x1 x2) := shape30 _ (by decide) x0 x1 x2
theorem Sys2Proof.Laws.Encoding.mstw x0 x1 x2 : Statement (.mstw x0 x1 x2) := shape30 _ (by decide) x0 x1 x2
theorem Sys2Proof.Laws.Encoding.ldc x0 x1 x2 x3 x4 : Statement (.ldc x0 x1 x2 x3 x4) := shape28 _ (by decide) x0 x1 x2 x3 x4
theorem Sys2Proof.Laws.Encoding.stc x0 x1 x2 x3 : Statement (.stc x0 x1 x2 x3) := shape29 _ (by decide) x0 x1 x2 x3
theorem Sys2Proof.Laws.Encoding.mldc x0 x1 x2 : Statement (.mldc x0 x1 x2) := shape30 _ (by decide) x0 x1 x2
theorem Sys2Proof.Laws.Encoding.mstc x0 x1 x2 : Statement (.mstc x0 x1 x2) := shape30 _ (by decide) x0 x1 x2
theorem Sys2Proof.Laws.Encoding.ldx x0 x1 x2 x3 x4 : Statement (.ldx x0 x1 x2 x3 x4) := shape28 _ (by decide) x0 x1 x2 x3 x4
theorem Sys2Proof.Laws.Encoding.stx x0 x1 x2 x3 : Statement (.stx x0 x1 x2 x3) := shape29 _ (by decide) x0 x1 x2 x3
theorem Sys2Proof.Laws.Encoding.mldx x0 x1 x2 : Statement (.mldx x0 x1 x2) := shape30 _ (by decide) x0 x1 x2
theorem Sys2Proof.Laws.Encoding.mstx x0 x1 x2 : Statement (.mstx x0 x1 x2) := shape30 _ (by decide) x0 x1 x2
theorem Sys2Proof.Laws.Encoding.aaddW x0 x1 x2 x3 x4 x5 : Statement (.aaddW x0 x1 x2 x3 x4 x5) := shape31 _ (by decide) x0 x1 x2 x3 x4 x5
theorem Sys2Proof.Laws.Encoding.aaddD x0 x1 x2 x3 x4 x5 : Statement (.aaddD x0 x1 x2 x3 x4 x5) := shape31 _ (by decide) x0 x1 x2 x3 x4 x5
theorem Sys2Proof.Laws.Encoding.asmaxW x0 x1 x2 x3 x4 x5 : Statement (.asmaxW x0 x1 x2 x3 x4 x5) := shape31 _ (by decide) x0 x1 x2 x3 x4 x5
theorem Sys2Proof.Laws.Encoding.asmaxD x0 x1 x2 x3 x4 x5 : Statement (.asmaxD x0 x1 x2 x3 x4 x5) := shape31 _ (by decide) x0 x1 x2 x3 x4 x5
theorem Sys2Proof.Laws.Encoding.asminW x0 x1 x2 x3 x4 x5 : Statement (.asminW x0 x1 x2 x3 x4 x5) := shape31 _ (by decide) x0 x1 x2 x3 x4 x5
theorem Sys2Proof.Laws.Encoding.asminD x0 x1 x2 x3 x4 x5 : Statement (.asminD x0 x1 x2 x3 x4 x5) := shape31 _ (by decide) x0 x1 x2 x3 x4 x5
theorem Sys2Proof.Laws.Encoding.aumaxW x0 x1 x2 x3 x4 x5 : Statement (.aumaxW x0 x1 x2 x3 x4 x5) := shape31 _ (by decide) x0 x1 x2 x3 x4 x5
theorem Sys2Proof.Laws.Encoding.aumaxD x0 x1 x2 x3 x4 x5 : Statement (.aumaxD x0 x1 x2 x3 x4 x5) := shape31 _ (by decide) x0 x1 x2 x3 x4 x5
theorem Sys2Proof.Laws.Encoding.auminW x0 x1 x2 x3 x4 x5 : Statement (.auminW x0 x1 x2 x3 x4 x5) := shape31 _ (by decide) x0 x1 x2 x3 x4 x5
theorem Sys2Proof.Laws.Encoding.auminD x0 x1 x2 x3 x4 x5 : Statement (.auminD x0 x1 x2 x3 x4 x5) := shape31 _ (by decide) x0 x1 x2 x3 x4 x5
theorem Sys2Proof.Laws.Encoding.axchgW x0 x1 x2 x3 x4 x5 : Statement (.axchgW x0 x1 x2 x3 x4 x5) := shape31 _ (by decide) x0 x1 x2 x3 x4 x5
theorem Sys2Proof.Laws.Encoding.axchgD x0 x1 x2 x3 x4 x5 : Statement (.axchgD x0 x1 x2 x3 x4 x5) := shape31 _ (by decide) x0 x1 x2 x3 x4 x5
theorem Sys2Proof.Laws.Encoding.acasW x0 x1 x2 x3 x4 x5 : Statement (.acasW x0 x1 x2 x3 x4 x5) := shape31 _ (by decide) x0 x1 x2 x3 x4 x5
theorem Sys2Proof.Laws.Encoding.acasD x0 x1 x2 x3 x4 x5 : Statement (.acasD x0 x1 x2 x3 x4 x5) := shape31 _ (by decide) x0 x1 x2 x3 x4 x5
theorem Sys2Proof.Laws.Encoding.afadd x0 x1 x2 x3 x4 x5 : Statement (.afadd x0 x1 x2 x3 x4 x5) := shape31 _ (by decide) x0 x1 x2 x3 x4 x5
theorem Sys2Proof.Laws.Encoding.afmax x0 x1 x2 x3 x4 x5 : Statement (.afmax x0 x1 x2 x3 x4 x5) := shape31 _ (by decide) x0 x1 x2 x3 x4 x5
theorem Sys2Proof.Laws.Encoding.afmin x0 x1 x2 x3 x4 x5 : Statement (.afmin x0 x1 x2 x3 x4 x5) := shape31 _ (by decide) x0 x1 x2 x3 x4 x5
theorem Sys2Proof.Laws.Encoding.redaddW x0 x1 x2 x3 x4 : Statement (.redaddW x0 x1 x2 x3 x4) := shape32 _ (by decide) x0 x1 x2 x3 x4
theorem Sys2Proof.Laws.Encoding.redaddD x0 x1 x2 x3 x4 : Statement (.redaddD x0 x1 x2 x3 x4) := shape32 _ (by decide) x0 x1 x2 x3 x4
theorem Sys2Proof.Laws.Encoding.redsmaxW x0 x1 x2 x3 x4 : Statement (.redsmaxW x0 x1 x2 x3 x4) := shape32 _ (by decide) x0 x1 x2 x3 x4
theorem Sys2Proof.Laws.Encoding.redsmaxD x0 x1 x2 x3 x4 : Statement (.redsmaxD x0 x1 x2 x3 x4) := shape32 _ (by decide) x0 x1 x2 x3 x4
theorem Sys2Proof.Laws.Encoding.redsminW x0 x1 x2 x3 x4 : Statement (.redsminW x0 x1 x2 x3 x4) := shape32 _ (by decide) x0 x1 x2 x3 x4
theorem Sys2Proof.Laws.Encoding.redsminD x0 x1 x2 x3 x4 : Statement (.redsminD x0 x1 x2 x3 x4) := shape32 _ (by decide) x0 x1 x2 x3 x4
theorem Sys2Proof.Laws.Encoding.redumaxW x0 x1 x2 x3 x4 : Statement (.redumaxW x0 x1 x2 x3 x4) := shape32 _ (by decide) x0 x1 x2 x3 x4
theorem Sys2Proof.Laws.Encoding.redumaxD x0 x1 x2 x3 x4 : Statement (.redumaxD x0 x1 x2 x3 x4) := shape32 _ (by decide) x0 x1 x2 x3 x4
theorem Sys2Proof.Laws.Encoding.reduminW x0 x1 x2 x3 x4 : Statement (.reduminW x0 x1 x2 x3 x4) := shape32 _ (by decide) x0 x1 x2 x3 x4
theorem Sys2Proof.Laws.Encoding.reduminD x0 x1 x2 x3 x4 : Statement (.reduminD x0 x1 x2 x3 x4) := shape32 _ (by decide) x0 x1 x2 x3 x4
theorem Sys2Proof.Laws.Encoding.redxchgW x0 x1 x2 x3 x4 : Statement (.redxchgW x0 x1 x2 x3 x4) := shape32 _ (by decide) x0 x1 x2 x3 x4
theorem Sys2Proof.Laws.Encoding.redxchgD x0 x1 x2 x3 x4 : Statement (.redxchgD x0 x1 x2 x3 x4) := shape32 _ (by decide) x0 x1 x2 x3 x4
theorem Sys2Proof.Laws.Encoding.redcasW x0 x1 x2 x3 x4 x5 : Statement (.redcasW x0 x1 x2 x3 x4 x5) := shape31 _ (by decide) x0 x1 x2 x3 x4 x5
theorem Sys2Proof.Laws.Encoding.redcasD x0 x1 x2 x3 x4 x5 : Statement (.redcasD x0 x1 x2 x3 x4 x5) := shape31 _ (by decide) x0 x1 x2 x3 x4 x5
theorem Sys2Proof.Laws.Encoding.redfadd x0 x1 x2 x3 x4 : Statement (.redfadd x0 x1 x2 x3 x4) := shape32 _ (by decide) x0 x1 x2 x3 x4
theorem Sys2Proof.Laws.Encoding.redfmax x0 x1 x2 x3 x4 : Statement (.redfmax x0 x1 x2 x3 x4) := shape32 _ (by decide) x0 x1 x2 x3 x4
theorem Sys2Proof.Laws.Encoding.redfmin x0 x1 x2 x3 x4 : Statement (.redfmin x0 x1 x2 x3 x4) := shape32 _ (by decide) x0 x1 x2 x3 x4
theorem Sys2Proof.Laws.Encoding.act x0 x1 x2 : Statement (.act x0 x1 x2) := shape27 _ (by decide) x0 x1 x2
theorem Sys2Proof.Laws.Encoding.pre x0 x1 x2 : Statement (.pre x0 x1 x2) := shape27 _ (by decide) x0 x1 x2
theorem Sys2Proof.Laws.Encoding.prea x0 x1 x2 : Statement (.prea x0 x1 x2) := shape27 _ (by decide) x0 x1 x2
theorem Sys2Proof.Laws.Encoding.rd x0 x1 x2 x3 : Statement (.rd x0 x1 x2 x3) := shape26 _ (by decide) x0 x1 x2 x3
theorem Sys2Proof.Laws.Encoding.wr x0 x1 x2 x3 : Statement (.wr x0 x1 x2 x3) := shape26 _ (by decide) x0 x1 x2 x3
theorem Sys2Proof.Laws.Encoding.rdt x0 x1 x2 x3 : Statement (.rdt x0 x1 x2 x3) := shape26 _ (by decide) x0 x1 x2 x3
theorem Sys2Proof.Laws.Encoding.wrt x0 x1 x2 x3 : Statement (.wrt x0 x1 x2 x3) := shape26 _ (by decide) x0 x1 x2 x3
theorem Sys2Proof.Laws.Encoding.refpb x0 x1 x2 : Statement (.refpb x0 x1 x2) := shape27 _ (by decide) x0 x1 x2
theorem Sys2Proof.Laws.Encoding.refab x0 x1 x2 : Statement (.refab x0 x1 x2) := shape27 _ (by decide) x0 x1 x2
theorem Sys2Proof.Laws.Encoding.mzero x0 x1 x2 : Statement (.mzero x0 x1 x2) := shape27 _ (by decide) x0 x1 x2
theorem Sys2Proof.Laws.Encoding.mcopy x0 x1 x2 x3 : Statement (.mcopy x0 x1 x2 x3) := shape26 _ (by decide) x0 x1 x2 x3
theorem Sys2Proof.Laws.Encoding.mcmp x0 x1 x2 x3 : Statement (.mcmp x0 x1 x2 x3) := shape26 _ (by decide) x0 x1 x2 x3
theorem Sys2Proof.Laws.Encoding.lfence x0 x1 x2 : Statement (.lfence x0 x1 x2) := shape27 _ (by decide) x0 x1 x2
theorem Sys2Proof.Laws.Encoding.mark x0 x1 x2 x3 : Statement (.mark x0 x1 x2 x3) := shape26 _ (by decide) x0 x1 x2 x3
theorem Sys2Proof.Laws.Encoding.copy x0 x1 x2 x3 : Statement (.copy x0 x1 x2 x3) := shape26 _ (by decide) x0 x1 x2 x3
theorem Sys2Proof.Laws.Encoding.mcast x0 x1 x2 x3 : Statement (.mcast x0 x1 x2 x3) := shape26 _ (by decide) x0 x1 x2 x3
theorem Sys2Proof.Laws.Encoding.fill x0 x1 x2 x3 : Statement (.fill x0 x1 x2 x3) := shape26 _ (by decide) x0 x1 x2 x3
theorem Sys2Proof.Laws.Encoding.heel x0 x1 x2 : Statement (.heel x0 x1 x2) := shape33 _ (by decide) x0 x1 x2
theorem Sys2Proof.Laws.Encoding.rebase x0 x1 : Statement (.rebase x0 x1) := shape34 _ (by decide) x0 x1
theorem Sys2Proof.Laws.Encoding.rdtick x0 x1 : Statement (.rdtick x0 x1) := shape35 _ (by decide) x0 x1
theorem Sys2Proof.Laws.Encoding.flagset x0 x1 x2 : Statement (.flagset x0 x1 x2) := shape36 _ (by decide) x0 x1 x2
theorem Sys2Proof.Laws.Encoding.flagwait x0 x1 x2 x3 : Statement (.flagwait x0 x1 x2 x3) := shape26 _ (by decide) x0 x1 x2 x3
theorem Sys2Proof.Laws.Encoding.bararr x0 x1 x2 : Statement (.bararr x0 x1 x2) := shape27 _ (by decide) x0 x1 x2
theorem Sys2Proof.Laws.Encoding.barwait x0 x1 x2 x3 : Statement (.barwait x0 x1 x2 x3) := shape26 _ (by decide) x0 x1 x2 x3
theorem Sys2Proof.Laws.Encoding.fence x0 x1 : Statement (.fence x0 x1) := shape37 _ (by decide) x0 x1
theorem Sys2Proof.Laws.Encoding.put x0 x1 x2 x3 : Statement (.put x0 x1 x2 x3) := shape26 _ (by decide) x0 x1 x2 x3
theorem Sys2Proof.Laws.Encoding.get x0 x1 x2 x3 : Statement (.get x0 x1 x2 x3) := shape26 _ (by decide) x0 x1 x2 x3
theorem Sys2Proof.Laws.Encoding.ratom x0 x1 x2 x3 : Statement (.ratom x0 x1 x2 x3) := shape26 _ (by decide) x0 x1 x2 x3
theorem Sys2Proof.Laws.Encoding.waitc x0 x1 x2 x3 : Statement (.waitc x0 x1 x2 x3) := shape26 _ (by decide) x0 x1 x2 x3
theorem Sys2Proof.Laws.Encoding.launch x0 x1 x2 x3 : Statement (.launch x0 x1 x2 x3) := shape26 _ (by decide) x0 x1 x2 x3
theorem Sys2Proof.Laws.Encoding.ginst x0 x1 x2 x3 : Statement (.ginst x0 x1 x2 x3) := shape26 _ (by decide) x0 x1 x2 x3
theorem Sys2Proof.Laws.Encoding.gwait x0 x1 x2 x3 : Statement (.gwait x0 x1 x2 x3) := shape26 _ (by decide) x0 x1 x2 x3
theorem Sys2Proof.Laws.Encoding.cancel x0 x1 x2 : Statement (.cancel x0 x1 x2) := shape36 _ (by decide) x0 x1 x2
theorem Sys2Proof.Laws.Encoding.crd x0 x1 x2 x3 : Statement (.crd x0 x1 x2 x3) := shape26 _ (by decide) x0 x1 x2 x3
theorem Sys2Proof.Laws.Encoding.seal x0 x1 x2 : Statement (.seal x0 x1 x2) := shape36 _ (by decide) x0 x1 x2
theorem Sys2Proof.Laws.Encoding.unseal x0 x1 x2 : Statement (.unseal x0 x1 x2) := shape36 _ (by decide) x0 x1 x2
theorem Sys2Proof.Laws.Encoding.krd x0 x1 x2 x3 : Statement (.krd x0 x1 x2 x3) := shape26 _ (by decide) x0 x1 x2 x3
theorem Sys2Proof.Laws.Encoding.kwr x0 x1 x2 x3 : Statement (.kwr x0 x1 x2 x3) := shape26 _ (by decide) x0 x1 x2 x3
theorem Sys2Proof.Laws.Encoding.tlbw x0 x1 x2 x3 : Statement (.tlbw x0 x1 x2 x3) := shape26 _ (by decide) x0 x1 x2 x3
theorem Sys2Proof.Laws.Encoding.tlbp x0 x1 x2 x3 : Statement (.tlbp x0 x1 x2 x3) := shape26 _ (by decide) x0 x1 x2 x3
theorem Sys2Proof.Laws.Encoding.tlbinv x0 x1 x2 x3 : Statement (.tlbinv x0 x1 x2 x3) := shape26 _ (by decide) x0 x1 x2 x3
theorem Sys2Proof.Laws.Encoding.trap x0 x1 : Statement (.trap x0 x1) := shape34 _ (by decide) x0 x1
theorem Sys2Proof.Laws.Encoding.linsp x0 x1 x2 x3 x4 : Statement (.linsp x0 x1 x2 x3 x4) := shape38 _ (by decide) x0 x1 x2 x3 x4
theorem Sys2Proof.Laws.Encoding.lpatch x0 x1 x2 x3 x4 : Statement (.lpatch x0 x1 x2 x3 x4) := shape38 _ (by decide) x0 x1 x2 x3 x4
theorem Sys2Proof.Laws.Encoding.lrq x0 x1 x2 x3 x4 : Statement (.lrq x0 x1 x2 x3 x4) := shape38 _ (by decide) x0 x1 x2 x3 x4
theorem Sys2Proof.Laws.Encoding.lreinj x0 x1 x2 x3 x4 : Statement (.lreinj x0 x1 x2 x3 x4) := shape38 _ (by decide) x0 x1 x2 x3 x4
theorem Sys2Proof.Laws.Encoding.resume x0 x1 x2 : Statement (.resume x0 x1 x2) := shape39 _ (by decide) x0 x1 x2
theorem Sys2Proof.Laws.Encoding.kill x0 x1 x2 : Statement (.kill x0 x1 x2) := shape39 _ (by decide) x0 x1 x2
theorem Sys2Proof.Laws.Encoding.hret x0 : Statement (.hret x0) := shape13 _ (by decide) x0
theorem Sys2Proof.Laws.Encoding.ldeleg x0 x1 x2 x3 x4 : Statement (.ldeleg x0 x1 x2 x3 x4) := shape38 _ (by decide) x0 x1 x2 x3 x4
theorem Sys2Proof.Laws.Encoding.bcw x0 x1 x2 x3 x4 : Statement (.bcw x0 x1 x2 x3 x4) := shape40 _ (by decide) x0 x1 x2 x3 x4
theorem Sys2Proof.Laws.Encoding.ext x0 x1 x2 : Statement (.ext x0 x1 x2) := shape41 _ (by decide) x0 x1 x2
theorem Sys2Proof.Laws.Encoding.ring x0 x1 x2 x3 x4 : Statement (.ring x0 x1 x2 x3 x4) := shape42 _ (by decide) x0 x1 x2 x3 x4
theorem Sys2Proof.Laws.Encoding.resultCommit x0 x1 x2 : Statement (.resultCommit x0 x1 x2) := (by decide : (0 : Nat) < 2 ^ 32)
theorem Sys2Proof.Laws.Encoding.engfmtApply x0 : Statement (.engfmtApply x0) := (by decide : (0 : Nat) < 2 ^ 32)
theorem Sys2Proof.Laws.Encoding.localStoreCommit x0 x1 x2 : Statement (.localStoreCommit x0 x1 x2) := (by decide : (0 : Nat) < 2 ^ 32)
theorem Sys2Proof.Laws.Encoding.xAccessPerform x0 x1 : Statement (.xAccessPerform x0 x1) := (by decide : (0 : Nat) < 2 ^ 32)
theorem Sys2Proof.Laws.Encoding.xLoadReturn x0 x1 x2 : Statement (.xLoadReturn x0 x1 x2) := (by decide : (0 : Nat) < 2 ^ 32)
theorem Sys2Proof.Laws.Encoding.linkEntryArrive x0 x1 : Statement (.linkEntryArrive x0 x1) := (by decide : (0 : Nat) < 2 ^ 32)
theorem Sys2Proof.Laws.Encoding.copyCommandStart x0 x1 : Statement (.copyCommandStart x0 x1) := (by decide : (0 : Nat) < 2 ^ 32)
theorem Sys2Proof.Laws.Encoding.copyBeatRead x0 x1 : Statement (.copyBeatRead x0 x1) := (by decide : (0 : Nat) < 2 ^ 32)
theorem Sys2Proof.Laws.Encoding.copyBeatCommit x0 x1 : Statement (.copyBeatCommit x0 x1) := (by decide : (0 : Nat) < 2 ^ 32)
theorem Sys2Proof.Laws.Encoding.fillBeatCommit x0 x1 : Statement (.fillBeatCommit x0 x1) := (by decide : (0 : Nat) < 2 ^ 32)
theorem Sys2Proof.Laws.Encoding.heldWriteCommit x0 x1 : Statement (.heldWriteCommit x0 x1) := (by decide : (0 : Nat) < 2 ^ 32)
theorem Sys2Proof.Laws.Encoding.timelineCommandPerform x0 x1 : Statement (.timelineCommandPerform x0 x1) := (by decide : (0 : Nat) < 2 ^ 32)
theorem Sys2Proof.Laws.Encoding.tsvResend x0 x1 x2 x3 : Statement (.tsvResend x0 x1 x2 x3) := (by decide : (0 : Nat) < 2 ^ 32)
theorem Sys2Proof.Laws.Encoding.readDeliveryCommit x0 x1 : Statement (.readDeliveryCommit x0 x1) := (by decide : (0 : Nat) < 2 ^ 32)
theorem Sys2Proof.Laws.Encoding.writeBurstVisible x0 x1 : Statement (.writeBurstVisible x0 x1) := (by decide : (0 : Nat) < 2 ^ 32)
theorem Sys2Proof.Laws.Encoding.inMemoryOpComplete x0 x1 : Statement (.inMemoryOpComplete x0 x1) := (by decide : (0 : Nat) < 2 ^ 32)
theorem Sys2Proof.Laws.Encoding.mcmpResultCommit x0 x1 : Statement (.mcmpResultCommit x0 x1) := (by decide : (0 : Nat) < 2 ^ 32)
theorem Sys2Proof.Laws.Encoding.lfenceSatisfied x0 x1 : Statement (.lfenceSatisfied x0 x1) := (by decide : (0 : Nat) < 2 ^ 32)
theorem Sys2Proof.Laws.Encoding.markComplete x0 x1 : Statement (.markComplete x0 x1) := (by decide : (0 : Nat) < 2 ^ 32)
theorem Sys2Proof.Laws.Encoding.translationMarkerRetire x0 x1 : Statement (.translationMarkerRetire x0 x1) := (by decide : (0 : Nat) < 2 ^ 32)
theorem Sys2Proof.Laws.Encoding.lentSpanStart x0 x1 x2 : Statement (.lentSpanStart x0 x1 x2) := (by decide : (0 : Nat) < 2 ^ 32)
theorem Sys2Proof.Laws.Encoding.lentSpanEnd x0 x1 x2 : Statement (.lentSpanEnd x0 x1 x2) := (by decide : (0 : Nat) < 2 ^ 32)
theorem Sys2Proof.Laws.Encoding.holeMaintenance x0 x1 x2 : Statement (.holeMaintenance x0 x1 x2) := (by decide : (0 : Nat) < 2 ^ 32)
theorem Sys2Proof.Laws.Encoding.refreshWindowExpire x0 x1 x2 x3 : Statement (.refreshWindowExpire x0 x1 x2 x3) := (by decide : (0 : Nat) < 2 ^ 32)
theorem Sys2Proof.Laws.Encoding.safetyRefresh x0 x1 x2 : Statement (.safetyRefresh x0 x1 x2) := (by decide : (0 : Nat) < 2 ^ 32)
theorem Sys2Proof.Laws.Encoding.idlePcRefresh x0 x1 : Statement (.idlePcRefresh x0 x1) := (by decide : (0 : Nat) < 2 ^ 32)
theorem Sys2Proof.Laws.Encoding.rcntWindowClear x0 : Statement (.rcntWindowClear x0) := (by decide : (0 : Nat) < 2 ^ 32)
theorem Sys2Proof.Laws.Encoding.hbmTemperatureRead x0 x1 : Statement (.hbmTemperatureRead x0 x1) := (by decide : (0 : Nat) < 2 ^ 32)
theorem Sys2Proof.Laws.Encoding.droopStretch x0 : Statement (.droopStretch x0) := (by decide : (0 : Nat) < 2 ^ 32)
theorem Sys2Proof.Laws.Encoding.referenceLost x0 : Statement (.referenceLost x0) := (by decide : (0 : Nat) < 2 ^ 32)
theorem Sys2Proof.Laws.Encoding.hbmReferenceLost x0 : Statement (.hbmReferenceLost x0) := (by decide : (0 : Nat) < 2 ^ 32)
theorem Sys2Proof.Laws.Encoding.referenceRelock x0 : Statement (.referenceRelock x0) := (by decide : (0 : Nat) < 2 ^ 32)
theorem Sys2Proof.Laws.Encoding.snapshotPublish : Statement (.snapshotPublish) := (by decide : (0 : Nat) < 2 ^ 32)
theorem Sys2Proof.Laws.Encoding.heelArrive x0 : Statement (.heelArrive x0) := (by decide : (0 : Nat) < 2 ^ 32)
theorem Sys2Proof.Laws.Encoding.heelRelease x0 : Statement (.heelRelease x0) := (by decide : (0 : Nat) < 2 ^ 32)
theorem Sys2Proof.Laws.Encoding.heelExit x0 : Statement (.heelExit x0) := (by decide : (0 : Nat) < 2 ^ 32)
theorem Sys2Proof.Laws.Encoding.fenceEnd x0 x1 : Statement (.fenceEnd x0 x1) := (by decide : (0 : Nat) < 2 ^ 32)
theorem Sys2Proof.Laws.Encoding.flagwaitSatisfied x0 x1 : Statement (.flagwaitSatisfied x0 x1) := (by decide : (0 : Nat) < 2 ^ 32)
theorem Sys2Proof.Laws.Encoding.barrierArrival x0 : Statement (.barrierArrival x0) := (by decide : (0 : Nat) < 2 ^ 32)
theorem Sys2Proof.Laws.Encoding.barwaitEnd x0 : Statement (.barwaitEnd x0) := (by decide : (0 : Nat) < 2 ^ 32)
theorem Sys2Proof.Laws.Encoding.waitcSatisfied x0 : Statement (.waitcSatisfied x0) := (by decide : (0 : Nat) < 2 ^ 32)
theorem Sys2Proof.Laws.Encoding.gwaitEnd x0 : Statement (.gwaitEnd x0) := (by decide : (0 : Nat) < 2 ^ 32)
theorem Sys2Proof.Laws.Encoding.walkerIntakeFree x0 : Statement (.walkerIntakeFree x0) := (by decide : (0 : Nat) < 2 ^ 32)
theorem Sys2Proof.Laws.Encoding.gAtomicPerform x0 : Statement (.gAtomicPerform x0) := (by decide : (0 : Nat) < 2 ^ 32)
theorem Sys2Proof.Laws.Encoding.atomicReturn x0 x1 x2 : Statement (.atomicReturn x0 x1 x2) := (by decide : (0 : Nat) < 2 ^ 32)
theorem Sys2Proof.Laws.Encoding.fabricRequestIn x0 : Statement (.fabricRequestIn x0) := (by decide : (0 : Nat) < 2 ^ 32)
theorem Sys2Proof.Laws.Encoding.fabricCompletion x0 x1 x2 x3 x4 : Statement (.fabricCompletion x0 x1 x2 x3 x4) := (by decide : (0 : Nat) < 2 ^ 32)
theorem Sys2Proof.Laws.Encoding.getPieceCommit x0 x1 x2 x3 : Statement (.getPieceCommit x0 x1 x2 x3) := (by decide : (0 : Nat) < 2 ^ 32)
theorem Sys2Proof.Laws.Encoding.taskRetire x0 : Statement (.taskRetire x0) := (by decide : (0 : Nat) < 2 ^ 32)
theorem Sys2Proof.Laws.Encoding.launchEnd x0 x1 : Statement (.launchEnd x0 x1) := (by decide : (0 : Nat) < 2 ^ 32)
theorem Sys2Proof.Laws.Encoding.walkerHeldPush : Statement (.walkerHeldPush) := (by decide : (0 : Nat) < 2 ^ 32)
theorem Sys2Proof.Laws.Encoding.readyAging : Statement (.readyAging) := (by decide : (0 : Nat) < 2 ^ 32)
theorem Sys2Proof.Laws.Encoding.instanceWindowFill x0 : Statement (.instanceWindowFill x0) := (by decide : (0 : Nat) < 2 ^ 32)
theorem Sys2Proof.Laws.Encoding.sealComplete : Statement (.sealComplete) := (by decide : (0 : Nat) < 2 ^ 32)
theorem Sys2Proof.Laws.Encoding.phaseBind x0 : Statement (.phaseBind x0) := (by decide : (0 : Nat) < 2 ^ 32)
theorem Sys2Proof.Laws.Encoding.shepherdTake x0 x1 : Statement (.shepherdTake x0 x1) := (by decide : (0 : Nat) < 2 ^ 32)
theorem Sys2Proof.Laws.Encoding.shepherdReturn x0 x1 x2 x3 : Statement (.shepherdReturn x0 x1 x2 x3) := (by decide : (0 : Nat) < 2 ^ 32)
theorem Sys2Proof.Laws.Encoding.recordWrite x0 x1 x2 : Statement (.recordWrite x0 x1 x2) := (by decide : (0 : Nat) < 2 ^ 32)
theorem Sys2Proof.Laws.Encoding.recordWithdraw x0 x1 x2 : Statement (.recordWithdraw x0 x1 x2) := (by decide : (0 : Nat) < 2 ^ 32)
theorem Sys2Proof.Laws.Encoding.tlbPreload x0 : Statement (.tlbPreload x0) := (by decide : (0 : Nat) < 2 ^ 32)
theorem Sys2Proof.Laws.Encoding.packRelease x0 : Statement (.packRelease x0) := (by decide : (0 : Nat) < 2 ^ 32)
theorem Sys2Proof.Laws.Encoding.regionGateBegin x0 : Statement (.regionGateBegin x0) := (by decide : (0 : Nat) < 2 ^ 32)
theorem Sys2Proof.Laws.Encoding.gatingComplete x0 : Statement (.gatingComplete x0) := (by decide : (0 : Nat) < 2 ^ 32)
theorem Sys2Proof.Laws.Encoding.wakeRequest x0 : Statement (.wakeRequest x0) := (by decide : (0 : Nat) < 2 ^ 32)
theorem Sys2Proof.Laws.Encoding.gateHoldOverride x0 x1 : Statement (.gateHoldOverride x0 x1) := (by decide : (0 : Nat) < 2 ^ 32)
theorem Sys2Proof.Laws.Encoding.rampStart x0 : Statement (.rampStart x0) := (by decide : (0 : Nat) < 2 ^ 32)
theorem Sys2Proof.Laws.Encoding.rampEnd x0 : Statement (.rampEnd x0) := (by decide : (0 : Nat) < 2 ^ 32)
theorem Sys2Proof.Laws.Encoding.preempt x0 x1 : Statement (.preempt x0 x1) := (by decide : (0 : Nat) < 2 ^ 32)
theorem Sys2Proof.Laws.Encoding.restore x0 : Statement (.restore x0) := (by decide : (0 : Nat) < 2 ^ 32)
theorem Sys2Proof.Laws.Encoding.placeBallast x0 : Statement (.placeBallast x0) := (by decide : (0 : Nat) < 2 ^ 32)
theorem Sys2Proof.Laws.Encoding.shepherdCancel x0 x1 x2 : Statement (.shepherdCancel x0 x1 x2) := (by decide : (0 : Nat) < 2 ^ 32)
theorem Sys2Proof.Laws.Encoding.shepherdTlbWrite x0 x1 x2 x3 x4 : Statement (.shepherdTlbWrite x0 x1 x2 x3 x4) := (by decide : (0 : Nat) < 2 ^ 32)
theorem Sys2Proof.Laws.Encoding.shepherdTlbInvalidate x0 x1 x2 x3 : Statement (.shepherdTlbInvalidate x0 x1 x2 x3) := (by decide : (0 : Nat) < 2 ^ 32)
theorem Sys2Proof.Laws.Encoding.energyInterval x0 : Statement (.energyInterval x0) := (by decide : (0 : Nat) < 2 ^ 32)
theorem Sys2Proof.Laws.Encoding.freezeNoticeArrive x0 : Statement (.freezeNoticeArrive x0) := (by decide : (0 : Nat) < 2 ^ 32)
theorem Sys2Proof.Laws.Encoding.memberStop x0 : Statement (.memberStop x0) := (by decide : (0 : Nat) < 2 ^ 32)
theorem Sys2Proof.Laws.Encoding.kennelDispatch x0 : Statement (.kennelDispatch x0) := (by decide : (0 : Nat) < 2 ^ 32)
theorem Sys2Proof.Laws.Encoding.handlerBudgetExpire x0 x1 : Statement (.handlerBudgetExpire x0 x1) := (by decide : (0 : Nat) < 2 ^ 32)
theorem Sys2Proof.Laws.Encoding.packResumeRelease x0 x1 : Statement (.packResumeRelease x0 x1) := (by decide : (0 : Nat) < 2 ^ 32)
theorem Sys2Proof.Laws.Encoding.cubeCommandStart x0 x1 : Statement (.cubeCommandStart x0 x1) := (by decide : (0 : Nat) < 2 ^ 32)
theorem Sys2Proof.Laws.Encoding.cubeStreamStep x0 x1 : Statement (.cubeStreamStep x0 x1) := (by decide : (0 : Nat) < 2 ^ 32)
theorem Sys2Proof.Laws.Encoding.cubeResultCommit x0 x1 : Statement (.cubeResultCommit x0 x1) := (by decide : (0 : Nat) < 2 ^ 32)
theorem Sys2Proof.Laws.Encoding.drainPieceCommit x0 x1 : Statement (.drainPieceCommit x0 x1) := (by decide : (0 : Nat) < 2 ^ 32)
theorem Sys2Proof.Laws.Encoding.rescaleRowCommit x0 x1 : Statement (.rescaleRowCommit x0 x1) := (by decide : (0 : Nat) < 2 ^ 32)
theorem Sys2Proof.Laws.Encoding.scorePLineCommit x0 x1 : Statement (.scorePLineCommit x0 x1) := (by decide : (0 : Nat) < 2 ^ 32)
theorem Sys2Proof.Laws.Encoding.scoreSideCommit x0 x1 : Statement (.scoreSideCommit x0 x1) := (by decide : (0 : Nat) < 2 ^ 32)
theorem Sys2Proof.Laws.Encoding.weightLatchReplace x0 x1 : Statement (.weightLatchReplace x0 x1) := (by decide : (0 : Nat) < 2 ^ 32)
theorem Sys2Proof.Laws.Encoding.layerFailure x0 x1 : Statement (.layerFailure x0 x1) := (by decide : (0 : Nat) < 2 ^ 32)
theorem Sys2Proof.Laws.Encoding.governorEvaluation x0 x1 x2 : Statement (.governorEvaluation x0 x1 x2) := (by decide : (0 : Nat) < 2 ^ 32)
theorem Sys2Proof.Laws.Encoding.stepApply : Statement (.stepApply) := (by decide : (0 : Nat) < 2 ^ 32)
theorem Sys2Proof.Laws.Encoding.sensorSample x0 : Statement (.sensorSample x0) := (by decide : (0 : Nat) < 2 ^ 32)
theorem Sys2Proof.Laws.Encoding.whistleSend : Statement (.whistleSend) := (by decide : (0 : Nat) < 2 ^ 32)
theorem Sys2Proof.Laws.Encoding.whistleReceive x0 x1 : Statement (.whistleReceive x0 x1) := (by decide : (0 : Nat) < 2 ^ 32)
theorem Sys2Proof.Laws.Encoding.whistleTimeout : Statement (.whistleTimeout) := (by decide : (0 : Nat) < 2 ^ 32)
theorem Sys2Proof.Laws.Encoding.emergencyEnd : Statement (.emergencyEnd) := (by decide : (0 : Nat) < 2 ^ 32)
theorem Sys2Proof.Laws.Encoding.thermalTrip x0 : Statement (.thermalTrip x0) := (by decide : (0 : Nat) < 2 ^ 32)
theorem Sys2Proof.Laws.Encoding.currentTrip x0 : Statement (.currentTrip x0) := (by decide : (0 : Nat) < 2 ^ 32)
theorem Sys2Proof.Laws.Encoding.jstart x0 : Statement (.jstart x0) := (by decide : (0 : Nat) < 2 ^ 32)
theorem Sys2Proof.Laws.Encoding.jcancel x0 : Statement (.jcancel x0) := (by decide : (0 : Nat) < 2 ^ 32)
theorem Sys2Proof.Laws.Encoding.hwbaseWrite x0 : Statement (.hwbaseWrite x0) := (by decide : (0 : Nat) < 2 ^ 32)
theorem Sys2Proof.Laws.Encoding.jcauseClear x0 : Statement (.jcauseClear x0) := (by decide : (0 : Nat) < 2 ^ 32)
theorem Sys2Proof.Laws.Encoding.clkstatClear x0 x1 : Statement (.clkstatClear x0 x1) := (by decide : (0 : Nat) < 2 ^ 32)
theorem Sys2Proof.Laws.Encoding.registerWrite x0 x1 : Statement (.registerWrite x0 x1) := (by decide : (0 : Nat) < 2 ^ 32)
theorem Sys2Proof.Laws.Encoding.hostMemoryRead x0 x1 : Statement (.hostMemoryRead x0 x1) := (by decide : (0 : Nat) < 2 ^ 32)
theorem Sys2Proof.Laws.Encoding.hostMemoryWrite x0 x1 : Statement (.hostMemoryWrite x0 x1) := (by decide : (0 : Nat) < 2 ^ 32)
theorem Sys2Proof.Laws.Encoding.heartbeat : Statement (.heartbeat) := (by decide : (0 : Nat) < 2 ^ 32)
theorem Sys2Proof.Laws.Encoding.readErrorLog x0 x1 : Statement (.readErrorLog x0 x1) := (by decide : (0 : Nat) < 2 ^ 32)
theorem Sys2Proof.Laws.Encoding.readClocks x0 : Statement (.readClocks x0) := (by decide : (0 : Nat) < 2 ^ 32)
theorem Sys2Proof.Laws.Encoding.setPcap x0 x1 : Statement (.setPcap x0 x1) := (by decide : (0 : Nat) < 2 ^ 32)
theorem Sys2Proof.Laws.Encoding.readEnergy x0 : Statement (.readEnergy x0) := (by decide : (0 : Nat) < 2 ^ 32)
theorem Sys2Proof.Laws.Encoding.readAvailabilityMap x0 x1 : Statement (.readAvailabilityMap x0 x1) := (by decide : (0 : Nat) < 2 ^ 32)
theorem Sys2Proof.Laws.Encoding.setPkgid x0 x1 : Statement (.setPkgid x0 x1) := (by decide : (0 : Nat) < 2 ^ 32)
theorem Sys2Proof.Laws.Encoding.readKeys x0 : Statement (.readKeys x0) := (by decide : (0 : Nat) < 2 ^ 32)
theorem Sys2Proof.Laws.Encoding.attest x0 x1 : Statement (.attest x0 x1) := (by decide : (0 : Nat) < 2 ^ 32)
theorem Sys2Proof.Laws.Encoding.readTrace x0 x1 x2 : Statement (.readTrace x0 x1 x2) := (by decide : (0 : Nat) < 2 ^ 32)
theorem Sys2Proof.Laws.Encoding.installFirmware x0 x1 x2 : Statement (.installFirmware x0 x1 x2) := (by decide : (0 : Nat) < 2 ^ 32)
theorem Sys2Proof.Laws.Encoding.readPhaseFailure x0 : Statement (.readPhaseFailure x0) := (by decide : (0 : Nat) < 2 ^ 32)
theorem Sys2Proof.Laws.Encoding.boot : Statement (.boot) := (by decide : (0 : Nat) < 2 ^ 32)
theorem Sys2Proof.Laws.Encoding.shepherdKill x0 : Statement (.shepherdKill x0) := (by decide : (0 : Nat) < 2 ^ 32)
theorem Sys2Proof.Laws.Encoding.ballastStepDownEnd x0 : Statement (.ballastStepDownEnd x0) := (by decide : (0 : Nat) < 2 ^ 32)
end

