-- ==== Sys2Proof/WellFormed.lean ====
section
/-!
DEFINITION. Well-formed instructions: a word whose field values are all assigned and whose registers lie in the clusters its
pipe reads and writes (R65, R286, R302). What depends on the machine's state (the task's own group, a loop body, a delay
bundle) is checked at issue.
-/
namespace Sys2Proof

/-- A well-formed instruction word; every step that has no encoding is well-formed. -/
def Instr.wf (i : Instr) : Bool :=
  !i.isWord || (!valueReserved i.toWord && !(operandFields i.toWord).any (clusterBad i.toWord))

end Sys2Proof
end

