-- ==== Sys2Proof/Tests/Slice0.lean ====
section
/-!
SUPPORT. Tests: every instruction word from the spec's encoding of it, ill-formed terms refused, single words and single steps on small
states with the results of the spec's worked examples or of a calculation by hand, and for every statement with hypotheses a state that
meets them.
-/
set_option Elab.async false

namespace Sys2Proof.Tests

open Sys2Proof Sys2Proof.Machine

/-- Each word decodes to the instruction beside it. -/
def readAs (l : List (Nat × Instr)) : Bool := l.all fun p => match decodeWord p.1 with
  | .ok i => decide (i = p.2)
  | .error _ => false

/-- Each word is rejected for this reason. -/
def rejects (d : Reject) (l : List Nat) : Bool := l.all fun w => match decodeWord w with
  | .ok _ => false
  | .error e => decide (e = d)

/-! ### Decoding: fixed bits and field places of spec/opcode_table.json, field values chosen by hand -/

theorem test_decode_shared_integer : readAs [
    (0x90080000, .nop ⟨true, true, 2⟩),
    (0x00447AE3, .add ⟨false, false, 1⟩ 7 43 35),
    (0x10BC9B65, .sub ⟨false, true, 15⟩ 9 45 37),
    (0x00F4BBE7, .addi ⟨false, false, 13⟩ 11 47 39),
    (0x112CDC69, .mul ⟨false, true, 11⟩ 13 49 41),
    (0x0164FCEB, .mulhs ⟨false, false, 9⟩ 15 51 43),
    (0x119D1D6D, .mulhu ⟨false, true, 7⟩ 17 53 45),
    (0x01D53DEF, .and ⟨false, false, 5⟩ 19 55 47),
    (0x120D5E71, .or ⟨false, true, 3⟩ 21 57 49),
    (0x02457EF3, .xor ⟨false, false, 1⟩ 23 59 51),
    (0x12BD9F75, .andi ⟨false, true, 15⟩ 25 61 53),
    (0x02F5BFF7, .ori ⟨false, false, 13⟩ 27 63 55),
    (0x132DD079, .xori ⟨false, true, 11⟩ 29 1 57),
    (0x0365F0FB, .shl ⟨false, false, 9⟩ 31 3 59),
    (0x139E117D, .shr ⟨false, true, 7⟩ 33 5 61),
    (0x03D631FF, .sar ⟨false, false, 5⟩ 35 7 63),
    (0x140E5241, .shli ⟨false, true, 3⟩ 37 9 1),
    (0x044672C3, .shri ⟨false, false, 1⟩ 39 11 3),
    (0x14BE9345, .sari ⟨false, true, 15⟩ 41 13 5),
    (0x04F6B3C7, .min ⟨false, false, 13⟩ 43 15 7),
    (0x152ED449, .max ⟨false, true, 11⟩ 45 17 9),
    (0x0566F4CB, .minu ⟨false, false, 9⟩ 47 19 11),
    (0x159F154D, .maxu ⟨false, true, 7⟩ 49 21 13),
    (0x05D736F1, .li ⟨false, false, 5⟩ 51 0x6f1),
    (0x963AA386, .sel ⟨true, true, 14⟩ 42 14 6)] = true := by decide +kernel

theorem test_decode_shared_compare : readAs [
    (0x86730408, .cmpeq ⟨true, false, 12⟩ 12 16 8),
    (0x96AB848A, .cmpne ⟨true, true, 10⟩ 14 18 10),
    (0x86E0050C, .cmplt ⟨true, false, 8⟩ 0 20 12),
    (0x9718858E, .cmple ⟨true, true, 6⟩ 2 22 14),
    (0x87510610, .cmpltu ⟨true, false, 4⟩ 4 24 16),
    (0x97898692, .cmpleu ⟨true, true, 2⟩ 6 26 18),
    (0x87C20714, .cmpeqi ⟨true, false, 0⟩ 8 28 20),
    (0x983A8796, .cmplti ⟨true, true, 14⟩ 10 30 22),
    (0x88730200, .pand ⟨true, false, 12⟩ 12 0 8),
    (0x98AB8A80, .por ⟨true, true, 10⟩ 14 2 10),
    (0x88E01300, .pxor ⟨true, false, 8⟩ 0 4 12),
    (0x99189B80, .pandn ⟨true, true, 6⟩ 2 6 14),
    (0x89504A00, .xmov ⟨true, false, 4⟩ 4 40),
    (0x09B7B007, .qrd ⟨false, false, 13⟩ 59 7)] = true := by decide +kernel

theorem test_decode_shared_float : readAs [
    (0x99DAB38E, .fadd ⟨true, true, 6⟩ 2 22 14 7),
    (0x0A271EE8, .fsub ⟨false, false, 9⟩ 3 3 27 20),
    (0x8A708202, .fmul ⟨true, false, 12⟩ 0 16 8 1),
    (0x1ABDED5C, .ffma ⟨false, true, 15⟩ 1 29 21 14),
    (0x9AC83284, .fmin ⟨true, true, 2⟩ 6 10 2),
    (0x8B004308, .fmax ⟨true, false, 0⟩ 8 12 4),
    (0x9B7A71BE, .dadd ⟨true, true, 14⟩ 2 14 6 31),
    (0x0B87DCD8, .dsub ⟨false, false, 1⟩ 3 27 19 12),
    (0x8BD04032, .dmul ⟨true, false, 4⟩ 0 8 0 25),
    (0x1C1DAB4C, .dfma ⟨false, true, 7⟩ 1 21 13 6),
    (0x9C68F0B4, .dmin ⟨true, true, 10⟩ 30 2 26),
    (0x8CA00138, .dmax ⟨true, false, 8⟩ 0 4 28),
    (0x9CD881BE, .fcmpeq ⟨true, true, 6⟩ 2 6 62),
    (0x8D110200, .fcmplt ⟨true, false, 4⟩ 4 8 0),
    (0x9D498282, .fcmple ⟨true, true, 2⟩ 6 10 2),
    (0x8D820304, .dcmpeq ⟨true, false, 0⟩ 8 12 4),
    (0x9DFA8386, .dcmplt ⟨true, true, 14⟩ 10 14 6),
    (0x8E330408, .dcmple ⟨true, false, 12⟩ 12 16 8),
    (0x9E6A9286, .cvt ⟨true, true, 10⟩ 2 18 10 3)] = true := by decide +kernel

theorem test_decode_branch_divide : readAs [
    (0x0EA337F3, .b ⟨false, 8⟩ 0x337f3),
    (0x8EDD1EFF, .call ⟨true, 7⟩ 17 0xeff),
    (0x8F2C0F40, .jr ⟨true, 11⟩ 61),
    (0x0F69E800, .loop ⟨false, 10⟩ 30 2),
    (0x0FB80000, .endTask ⟨false, 14⟩),
    (0x1EA0272A, .fdiv ⟨false, 8⟩ 0 4 28 21),
    (0x1EDA3780, .fsqrt ⟨false, 6⟩ 2 6 30),
    (0x9F3DED5C, .ddiv ⟨true, 15⟩ 1 29 21 14),
    (0x9F77FDC0, .dsqrt ⟨true, 13⟩ 3 31 23)] = true := by decide +kernel

theorem test_decode_vector_lanes : readAs [
    (0x2001F580, .vmov false 7 107),
    (0xA043225D, .vfadd true 0 12 68 93),
    (0x20B0FD94, .vfsub false 1 67 123 20),
    (0xA0DE994B, .vfmul true 0 122 50 75),
    (0x212C7482, .vfma false 1 49 105 2),
    (0xA15A1039, .vfmin true 0 104 32 57),
    (0x21A7EBF0, .vfmax false 1 31 87 112),
    (0xA1D58727, .vadd true 0 86 14 39),
    (0x222362DE, .vsub false 1 13 69 94),
    (0xA2513E15, .vmul true 0 68 124 21),
    (0x22BED9CC, .vmin false 1 123 51 76),
    (0xA2CCB503, .vmax true 0 50 106 3),
    (0x233A50BA, .vminu false 1 105 33 58),
    (0xA3482C71, .vmaxu true 0 32 88 113),
    (0x239CEB8F, .vand false 115 87 15),
    (0x23C7C1BB, .vor false 31 3 59),
    (0x2412D7E7, .vxor false 75 47 103),
    (0x2476C9AC, .vshl false 1 91 19 44),
    (0xA484A563, .vshr true 0 18 74 99),
    (0x24F2409A, .vsar false 1 73 1 26)] = true := by decide +kernel

theorem test_decode_vector_rest : readAs [
    (0xA5001C51, .vfcmpeq true 0 0 56 81),
    (0x256DF788, .vfcmplt false 1 55 111 8),
    (0xA59B933F, .vcmpeq true 0 110 38 63),
    (0x25E96EF6, .vcmplt false 1 37 93 118),
    (0xA6170A2D, .vsel true 0 92 20 45),
    (0x2664E580, .vexp2 false 1 19 75),
    (0x26AFFB80, .vrcp false 1 63 119),
    (0x26FAD180, .vrsq false 1 107 35),
    (0x2725E780, .vfrsum false 1 23 79),
    (0x2760FD80, .vfrmax false 1 3 123),
    (0x27BBD380, .vbcast false 1 111 39),
    (0x27E6E9EC, .vperm false 1 27 83 108),
    (0xA81BA90A, .vcvt true 110 82 10),
    (0xA85F9B00, .vbmax true 0 126 54),
    (0xA88AB100, .vqcvt true 0 42 98),
    (0xA8D58727, .vdeq true 0 86 14 39),
    (0x29001480, .vsetfmt false 41),
    (0x294FC180, .vqmov false 63 3),
    (0xA9780000, .vqmovSend true 96 0)] = true := by decide +kernel

theorem test_decode_loads_stores : readAs [
    (0x300B66A8, .lda ⟨false, 2⟩ 54 26 2 1),
    (0x30438700, .sta ⟨false, 0⟩ 56 28 0),
    (0xB0A57A60, .mlda ⟨true, 9⟩ 47 19),
    (0xB0F6DFE0, .msta ⟨true, 13⟩ 91 63),
    (0xB1047AF0, .ldw ⟨true, 1⟩ 7 43 3 0),
    (0xB17C9B50, .stw ⟨true, 15⟩ 9 45 1),
    (0x31A00480, .mldw ⟨false, 8⟩ 0 36),
    (0x31F16200, .mstw ⟨false, 12⟩ 44 16),
    (0x32018F08, .ldc ⟨false, 0⟩ 24 60 0 1),
    (0x3279AFA0, .stc ⟨false, 14⟩ 26 62 2),
    (0xB29E8EA0, .mldc ⟨true, 7⟩ 81 53),
    (0xB2EFEC20, .mstc ⟨true, 11⟩ 125 33),
    (0xB33E9350, .ldx ⟨true, 15⟩ 41 13 1 0),
    (0xB376B3F0, .stx ⟨true, 13⟩ 43 15 3),
    (0x339910C0, .mldx ⟨false, 6⟩ 34 6),
    (0x33EA7640, .mstx ⟨false, 10⟩ 78 50)] = true := by decide +kernel

theorem test_decode_atomics : readAs [
    (0x343959F4, .aaddW ⟨false, 14⟩ 0 2 22 15 20),
    (0xB4478F81, .aaddD ⟨true, 1⟩ 1 3 3 28 1),
    (0x3490412E, .asmaxW ⟨false, 4⟩ 0 0 16 9 14),
    (0xB4DEF6DB, .asmaxD ⟨true, 7⟩ 1 1 29 22 27),
    (0x35292868, .asminW ⟨false, 10⟩ 0 2 10 3 8),
    (0xB577DE15, .asminD ⟨true, 13⟩ 1 3 23 16 21),
    (0x358013A2, .aumaxW ⟨false, 0⟩ 0 0 4 29 2),
    (0xB5CEC54F, .aumaxD ⟨true, 3⟩ 1 1 17 10 15),
    (0x36197AFC, .auminW ⟨false, 6⟩ 0 2 30 23 28),
    (0xB667AC89, .auminD ⟨true, 9⟩ 1 3 11 4 9),
    (0x36B06236, .axchgW ⟨false, 12⟩ 0 0 24 17 22),
    (0xB6FE97C3, .axchgD ⟨true, 15⟩ 1 1 5 30 3),
    (0x37094970, .acasW ⟨false, 2⟩ 0 2 18 11 16),
    (0xB757FF1D, .acasD ⟨true, 5⟩ 1 3 31 24 29),
    (0x37A030AA, .afadd ⟨false, 8⟩ 0 0 12 5 10),
    (0xB7EEE657, .afmax ⟨true, 11⟩ 1 1 25 18 23),
    (0x38391BE4, .afmin ⟨false, 14⟩ 0 2 6 31 4)] = true := by decide +kernel

theorem test_decode_reductions : readAs [
    (0xB847826C, .redaddW ⟨true, 1⟩ 1 3 19 12),
    (0xB8BE82AE, .redaddD ⟨true, 15⟩ 1 1 21 14),
    (0xB8F782F0, .redsmaxW ⟨true, 13⟩ 1 3 23 16),
    (0xB92E8332, .redsmaxD ⟨true, 11⟩ 1 1 25 18),
    (0xB9678374, .redsminW ⟨true, 9⟩ 1 3 27 20),
    (0xB99E83B6, .redsminD ⟨true, 7⟩ 1 1 29 22),
    (0xB9D783F8, .redumaxW ⟨true, 5⟩ 1 3 31 24),
    (0xBA0E803A, .redumaxD ⟨true, 3⟩ 1 1 1 26),
    (0xBA47807C, .reduminW ⟨true, 1⟩ 1 3 3 28),
    (0xBABE80BE, .reduminD ⟨true, 15⟩ 1 1 5 30),
    (0xBAF780E0, .redxchgW ⟨true, 13⟩ 1 3 7 0),
    (0xBB2E8122, .redxchgD ⟨true, 11⟩ 1 1 9 2),
    (0xBB67AC89, .redcasW ⟨true, 9⟩ 1 3 11 4 9),
    (0x3BB06236, .redcasD ⟨false, 12⟩ 0 0 24 17 22),
    (0xBBFE80BE, .redfadd ⟨true, 15⟩ 1 1 5 30),
    (0xBC3780E0, .redfmax ⟨true, 13⟩ 1 3 7 0),
    (0xBC6E8122, .redfmin ⟨true, 11⟩ 1 1 9 2)] = true := by decide +kernel

theorem test_decode_cube : readAs [
    (0x4030CC28, .cubeMm ⟨false, 12⟩ 12 48 40),
    (0xC05439DF, .cubeMma ⟨true, 5⟩ 3 39 31),
    (0x40BBA796, .cubeMmw ⟨false, 14⟩ 58 30 22),
    (0xC0DF154D, .cubeMmwa ⟨true, 7⟩ 49 21 13),
    (0x41028304, .cubePl ⟨false, 0⟩ 40 12 4),
    (0xC165F0FB, .cubePla ⟨true, 9⟩ 31 3 59),
    (0x41896EB2, .cubeWl ⟨false, 2⟩ 22 58 50),
    (0xC1ECDC40, .cubeFmt ⟨true, 11⟩ 13 49),
    (0xC23F9740, .cubeZero ⟨true, 15⟩ 57 29),
    (0xC24E5241, .cubeDrain ⟨true, 3⟩ 37 9 1),
    (0x42B1C038, .cubeScore ⟨false, 12⟩ 28 0 56),
    (0xC2D53DC0, .cubeResc ⟨true, 5⟩ 19 55),
    (0xC327F8DB, .cubeSide ⟨true, 9⟩ 63 35 27)] = true := by decide +kernel

theorem test_decode_timeline_copy : readAs [
    (0xD024FCC0, .act ⟨true, 9⟩ 15 51),
    (0xD077B7C0, .pre ⟨true, 13⟩ 59 31),
    (0xD08672C0, .prea ⟨true, 1⟩ 39 11),
    (0xD0D53DEF, .rd ⟨true, 5⟩ 19 55 47),
    (0x5138ABA6, .wr ⟨false, 14⟩ 10 46 38),
    (0xD15C195D, .rdt ⟨true, 7⟩ 1 37 29),
    (0x51838714, .wrt ⟨false, 0⟩ 56 28 20),
    (0xD1E6F4C0, .refpb ⟨true, 9⟩ 47 19),
    (0xD235BFC0, .refab ⟨true, 13⟩ 27 63),
    (0xD2447AC0, .mzero ⟨true, 1⟩ 7 43),
    (0xD29735CF, .mcopy ⟨true, 5⟩ 51 23 15),
    (0x52FAA386, .mcmp ⟨false, 14⟩ 42 14 6),
    (0xD31E1140, .lfence ⟨true, 7⟩ 33 5),
    (0xD36CDC69, .mark ⟨true, 11⟩ 13 49 41),
    (0x53904A20, .copy ⟨false, 4⟩ 4 40 32),
    (0xD3F7B7D7, .mcast ⟨true, 13⟩ 59 31 23),
    (0x541B258E, .fill ⟨false, 6⟩ 50 22 14)] = true := by decide +kernel

theorem test_decode_sync_launch : readAs [
    (0xD47E94B8, .heel ⟨true, 15⟩ 41 151),
    (0xD48C05E0, .rebase ⟨true, 3⟩ 0x5e0),
    (0x54CB6000, .rdtick ⟨false, 2⟩ 54),
    (0xD50405FB, .flagset ⟨true, 1⟩ 23 59),
    (0xD55439DF, .flagwait ⟨true, 5⟩ 3 39 31),
    (0x55BBA780, .bararr ⟨false, 14⟩ 58 30),
    (0x55CA6282, .barwait ⟨false, 2⟩ 38 10 2),
    (0xD62E8000, .fence ⟨true, 11⟩ 5),
    (0x566BE89A, .put ⟨false, 10⟩ 62 34 26),
    (0xD68F5651, .get ⟨true, 3⟩ 53 25 17),
    (0x56F2C408, .ratom ⟨false, 12⟩ 44 16 8),
    (0xD71631FF, .waitc ⟨true, 5⟩ 35 7 63),
    (0x5779AFB6, .launch ⟨false, 14⟩ 26 62 54),
    (0xD79D1D6D, .ginst ⟨true, 7⟩ 17 53 45),
    (0x57C08B24, .gwait ⟨false, 0⟩ 8 44 36),
    (0xD8240FE3, .cancel ⟨true, 9⟩ 63 35),
    (0xD876B3C7, .crd ⟨true, 13⟩ 43 15 7),
    (0x58980886, .seal ⟨false, 6⟩ 34 6),
    (0x58E803B2, .unseal ⟨false, 10⟩ 14 50),
    (0x593BA796, .krd ⟨false, 14⟩ 58 30 22)] = true := by decide +kernel

theorem test_decode_handler : readAs [
    (0xD95F154D, .kwr ⟨true, 7⟩ 49 21 13),
    (0x59828304, .tlbw ⟨false, 0⟩ 40 12 4),
    (0xD9E5F0FB, .tlbp ⟨true, 9⟩ 31 3 59),
    (0x5A096EB2, .tlbinv ⟨false, 2⟩ 22 58 50),
    (0xDA6C0D18, .trap ⟨true, 11⟩ 0xd18),
    (0x5AABA2A3, .linsp ⟨false, 10⟩ 14 2 10 35),
    (0x5AE00325, .lpatch ⟨false, 8⟩ 0 0 12 37),
    (0x5B18A3A7, .lrq ⟨false, 6⟩ 2 2 14 39),
    (0x5B510429, .lreinj ⟨false, 4⟩ 4 0 16 41),
    (0x5B89A000, .resume ⟨false, 2⟩ 6 2),
    (0x5BD8A000, .kill ⟨false, 6⟩ 2 2),
    (0x5C280000, .hret ⟨false, 10⟩),
    (0x5C510019, .ldeleg ⟨false, 4⟩ 4 0 0 25)] = true := by decide +kernel

theorem test_decode_control : readAs [
    (0x716FE000, .bcw false 91 15 1 0),
    (0xF578C1A8, .ext true 0 0x178c1a8),
    (0x7BCFA000, .ring false 1 7 15 40)] = true := by decide +kernel

/-- The worked encodings of spec/09, spec/11 to spec/15 and spec/18. -/
theorem test_decode_worked_examples : readAs [
    (0x80C030E0, .addi ⟨true, false, 0⟩ 3 3 0x20), (0x7400061A, .ext false 0 0x61A), (0x19428140, .xmov ⟨false, true, 0⟩ 40 5),
    (0x0E412154, .cvt ⟨false, false, 0⟩ 1 4 5 10), (0x1E804254, .fdiv ⟨false, 0⟩ 0 8 9 10), (0x0E8FFFFA, .b ⟨false, 3⟩ 0x3FFFA),
    (0x0F407C00, .loop ⟨false, 0⟩ 7 3), (0x1E8FFFFA, .fdiv ⟨false, 3⟩ 3 31 31 29), (0x80485187, .add ⟨true, false, 2⟩ 5 6 7),
    (0xB0028A60, .lda ⟨true, 0⟩ 40 41 2 0), (0xF4000040, .ext true 0 64), (0x70080000, .bcw false 2 0 0 0),
    (0x204102A6, .vfadd false 0 4 5 0x26), (0x27808380, .vbcast false 0 2 7), (0x28025081, .vcvt false 9 0x21 1),
    (0x29000480, .vsetfmt false 9), (0x2960C100, .vqmovSend false 3 2), (0xB1813E40, .mldw ⟨true, 0⟩ 0x27 50),
    (0xC000028B, .cubeMm ⟨true, 0⟩ 0 10 11), (0xC240038F, .cubeDrain ⟨true, 0⟩ 0 14 15), (0xD0000A00, .act ⟨true, 0⟩ 0 40),
    (0xD1400A6A, .rdt ⟨true, 0⟩ 0 41 42), (0xD0400AC0, .pre ⟨true, 0⟩ 0 43), (0x53400B2D, .mark ⟨false, 0⟩ 0 44 45),
    (0xD3800B2D, .copy ⟨true, 0⟩ 0 44 45), (0xD4000BAF, .fill ⟨true, 0⟩ 0 46 47), (0x3C02012A, .redfmax ⟨false, 0⟩ 1 0 9 10),
    (0x3740212A, .acasD ⟨false, 0⟩ 0 0 8 9 10), (0xD4400038, .heel ⟨true, 0⟩ 0 7), (0x760026F8, .ext false 1 9976),
    (0x56018000, .fence ⟨false, 0⟩ 3), (0x5AC04A29, .lpatch ⟨false, 0⟩ 1 0 40 41), (0x5B804000, .resume ⟨false, 0⟩ 1 0)]
    = true := by decide +kernel

/-- Pipe code 6; opcodes outside their maps, and END on S1; a field marked zero that is not (R302, spec/11). -/
theorem test_decode_rejects : (rejects .pipe [0x60000000] && rejects .opcode [0x1F800000, 0x0FC00000, 0x2B000000, 0x3C800000, 0x7C000000] &&
    rejects .reserved [0x1E8FFFFB, 0x00000001, 0x70000001, 0x5B800001]) = true := by decide +kernel

/-! ### Well-formedness: an ill-formed term for each check -/

/-- CVT with a code not assigned, and with a rounding mode on an exact code; VCVT code 31; SCOPE 6; GRP 384; bit 6 of a V word's scalar
field cannot be set by a term (R302, R346, R375, R448, R454). -/
theorem test_wf_reserved_values :
    (Instr.wf (.cvt ⟨false, false, 0⟩ 0 4 5 16) || Instr.wf (.cvt ⟨false, false, 0⟩ 1 4 5 15) || Instr.wf (.vcvt false 9 1 31) ||
      Instr.wf (.fence ⟨false, 0⟩ 6) || Instr.wf (.heel ⟨false, 0⟩ 0 384)) = false := by decide +kernel

/-- S0 with a register of cluster B, S1, M and D with one of cluster A, XMOV within one cluster, a start register of cluster B on pipe 4,
VBCAST of cluster B, VFRSUM to cluster B (R65, R287, R299, R360). -/
theorem test_wf_clusters :
    (Instr.wf (.add ⟨false, false, 0⟩ 32 1 2) || Instr.wf (.add ⟨false, true, 0⟩ 33 1 34) || Instr.wf (.lda ⟨false, 0⟩ 40 1 2 0) ||
      Instr.wf (.krd ⟨false, 0⟩ 4 41 2) || Instr.wf (.xmov ⟨false, true, 0⟩ 40 41) ||
      Instr.wf (.cubeMm ⟨false, 0⟩ 40 1 2) || Instr.wf (.vbcast false 0 2 32) || Instr.wf (.vfrsum false 0 32 2)) = false := by
  decide +kernel

/-- The same words with their fields mended are well-formed, and so is a step that has no encoding. -/
theorem test_wf_accepts :
    (Instr.wf (.cvt ⟨false, false, 0⟩ 0 4 5 15) && Instr.wf (.vcvt false 9 1 30) && Instr.wf (.fence ⟨false, 0⟩ 5) &&
      Instr.wf (.heel ⟨false, 0⟩ 0 383) && Instr.wf (.add ⟨false, true, 0⟩ 32 33 34) && Instr.wf (.lda ⟨false, 0⟩ 40 41 2 0) &&
      Instr.wf (.xmov ⟨false, true, 0⟩ 40 5) && Instr.wf (.vbcast false 0 2 31) && Instr.wf (.resultCommit 0 false 0)) = true := by
  decide +kernel

/-! ### Single words -/

/-- A core 0 whose task runs with these registers; every other part of the machine as after reset, with no work due. -/
def onCore (k : Core) : State := { State.reset with work := [], cores := [(0, k)] }
@[inherit_doc onCore] def running (rs : List (Nat × Word)) : State := onCore { stage := .running, task := { regs := rs } }
/-- The same with matrix registers: the vectors of rows 0, 1, … -/
def runningMat (rs : List (Nat × Word)) (ms : List (Nat × Vec)) : State :=
  onCore { stage := .running, task := { regs := rs }, mrf := ms.foldl (fun f m => writeMat f m.1 m.2) [] }

/-- The result that a word has posted. -/
def posted (s : State) (i : Instr) : Option Res :=
  match exec i s with
  | .next t => t.ccore.task.agenda.getLast?.bind fun p => match p.act with
    | .result _ r => some r
    | _ => none
  | _ => none

/-- Each word posts this value for a register or predicate, with these flags. -/
def posts (s : State) (l : List (Instr × Nat × Nat)) : Bool := l.all fun p => match posted s p.1 with
  | some ⟨[(_, v)], f⟩ => decide (v.toNat = p.2.1 ∧ f = p.2.2)
  | _ => false

/-- The fault a word records, as SRC, CODE and CAUSE. -/
def faulted (s : State) (i : Instr) : Option (Nat × Nat × Nat) := match exec i s with
  | .next t => t.cur.raised.map fun r => (r.src, r.code, r.cause)
  | _ => none

def h0 : SHead := ⟨false, false, 0⟩
def h1 : SHead := ⟨false, true, 0⟩
def g0 : Head := ⟨false, 0⟩

/-- s1 = -1, s2 = 2, s3 = 0xF0: sums wrap, the high halves of -1 × 2 are -1 signed and 1 unsigned, shifts take their amount modulo 64,
MIN is signed and MINU not (R334). -/
theorem test_register_arithmetic : posts (running [(1, 0xFFFFFFFFFFFFFFFF), (2, 2), (3, 0xF0), (4, 65)]) [
    (.add h0 5 1 2, 1, 0), (.sub h0 5 2 1, 3, 0), (.mul h0 5 1 2, 0xFFFFFFFFFFFFFFFE, 0), (.mulhs h0 5 1 2, 0xFFFFFFFFFFFFFFFF, 0),
    (.mulhu h0 5 1 2, 1, 0), (.and h0 5 1 3, 0xF0, 0), (.or h0 5 2 3, 0xF2, 0), (.xor h0 5 1 3, 0xFFFFFFFFFFFFFF0F, 0),
    (.shl h0 5 2 4, 4, 0), (.shr h0 5 1 4, 0x7FFFFFFFFFFFFFFF, 0), (.sar h0 5 1 4, 0xFFFFFFFFFFFFFFFF, 0),
    (.min h0 5 1 2, 0xFFFFFFFFFFFFFFFF, 0), (.max h0 5 1 2, 2, 0), (.minu h0 5 1 2, 2, 0), (.maxu h0 5 1 2, 0xFFFFFFFFFFFFFFFF, 0)]
    = true := by decide +kernel

/-- I6 = 0x3F is -1, I12 = 0x800 is -2048, a shift amount of 63 stays 63 (R288, R335). -/
theorem test_immediates : posts (running [(1, 0xFFFFFFFFFFFFFFFF), (2, 2)]) [
    (.addi h0 5 2 0x3F, 1, 0), (.andi h0 5 2 0x3F, 2, 0), (.ori h0 5 2 1, 3, 0), (.xori h0 5 1 0x3F, 0, 0), (.shli h0 5 2 63, 0, 0),
    (.shri h0 5 1 63, 1, 0), (.sari h0 5 1 63, 0xFFFFFFFFFFFFFFFF, 0), (.li h0 5 0x800, 0xFFFFFFFFFFFFF800, 0)] = true := by
  decide +kernel

/-- With p1 true: -1 is below 2 signed and above it unsigned; SEL takes a with a true guard field and b with a false one; the predicate
words (R337 to R341). -/
theorem test_compares_and_moves : posts (onCore { stage := .running, task := { regs := [(1, 0xFFFFFFFFFFFFFFFF), (2, 2)], preds := 2 } }) [
    (.cmpeq h0 3 1 2, 0, 0), (.cmpne h0 3 1 2, 1, 0), (.cmplt h0 3 1 2, 1, 0), (.cmple h0 3 2 2, 1, 0), (.cmpltu h0 3 1 2, 0, 0),
    (.cmpleu h0 3 2 1, 1, 0), (.cmpeqi h0 3 1 0x3F, 1, 0), (.cmplti h0 3 1 0x3F, 0, 0), (.pand h0 3 1 2, 0, 0), (.por h0 3 1 2, 1, 0),
    (.pxor h0 3 1 0, 0, 0), (.pandn h0 3 1 2, 1, 0), (.sel ⟨false, false, 1⟩ 5 1 2, 0xFFFFFFFFFFFFFFFF, 0),
    (.sel ⟨false, false, 2⟩ 5 1 2, 2, 0), (.xmov h1 40 2, 2, 0)] = true := by decide +kernel

/-- 1 + 2 = 3, 2 × -0 = -0, 2 × 3 + 1 = 7, FMin(+0, -0) = -0, a compare with a quiet NaN is false and raises nothing but FCMPLT of it
INVALID (R343 to R345). CVT.SI32.F32.RZ of 0xCF000001 is clamped with INVALID alone, of -7.75 is -7 with INEXACT (R346). -/
theorem test_scalar_float : posts (running [(0, 0), (1, 0x3F800000), (2, 0x40000000), (3, 0x80000000), (4, 0x40400000), (5, 0x7FC00000),
      (6, 0xCF000001), (7, 0xC0F80000), (8, 0x3FF0000000000000), (9, 0x4000000000000000)]) [
    (.fadd h0 0 10 1 2, 0x40400000, 0), (.fsub h0 0 10 1 2, 0xBF800000, 0), (.fmul h0 0 10 2 3, 0x80000000, 0),
    (.ffma h0 0 1 2 4, 0x40E00000, 0), (.fmin h0 10 0 3, 0x80000000, 0), (.fmax h0 10 0 3, 0, 0), (.dadd h0 0 10 8 9, 0x4008000000000000, 0),
    (.dsub h0 0 10 8 9, 0xBFF0000000000000, 0), (.dmul h0 0 10 9 9, 0x4010000000000000, 0), (.dfma h0 0 8 9 9, 0x4014000000000000, 0),
    (.dmin h0 10 8 9, 0x3FF0000000000000, 0), (.dmax h0 10 8 9, 0x4000000000000000, 0), (.fcmpeq h0 3 5 5, 0, 0), (.fcmplt h0 3 1 2, 1, 0),
    (.fcmple h0 3 2 1, 0, 0), (.dcmpeq h0 3 8 8, 1, 0), (.dcmplt h0 3 9 8, 0, 0), (.dcmple h0 3 8 9, 1, 0),
    (.cvt h0 1 10 6 10, 0xFFFFFFFF80000000, 1), (.cvt h0 1 10 7 10, 0xFFFFFFFFFFFFFFF9, 16)] = true := by decide +kernel

/-- 1 / 3 to nearest is 0x3EAAAAAB and inexact, the root of 4 is 2; a busy unit faults STRUCT, cause DIVIDER (R347). -/
theorem test_divide : posts (running [(33, 0x3F800000), (34, 0x40400000), (35, 0x40800000), (36, 0x3FF0000000000000), (37, 0x4010000000000000)]) [
      (.fdiv g0 0 8 1 2, 0x3EAAAAAB, 16), (.fsqrt g0 0 8 3, 0x40000000, 0), (.ddiv g0 0 8 4 5, 0x3FD0000000000000, 0),
      (.dsqrt g0 0 8 5, 0x4000000000000000, 0)] = true ∧
    faulted (onCore { stage := .running, task := { divFree := 1 } }) (.fdiv g0 0 8 1 2) = some (1, 12, 0) := by decide +kernel

/-! ### Vector words -/

/-- A word posts these first lanes of width `b` for a matrix register (or bypass), with zero above them, and these flags. -/
def postsLanes (s : State) (b : Nat) (l : List (Instr × List Nat × Nat)) : Bool := l.all fun p => match posted s p.1 with
  | some ⟨(_, v) :: _, f⟩ => decide (v = vpack b p.2.1 ∧ f = p.2.2)
  | _ => false

def vecs (l : List (List Nat)) : List (Nat × Vec) := (List.range l.length).zip (l.map (vpack 32))

/-- Rows 0 to 3 of the matrix file: (1.0, -0), (2.0, +0), (-1 as int32, 3), (5, 33); the lanes above are zero. -/
def lanePairs : State :=
  runningMat [(7, 0x3F80)] (vecs [[0x3F800000, 0x80000000], [0x40000000, 0], [0xFFFFFFFF, 3], [5, 33]])

/-- FP32 lanes: 1 + 2, -0 + 0; the minimum of -0 and +0 is -0; a compare gives all ones (R362, R363, R366). -/
theorem test_vector_float : postsLanes lanePairs 32 [
    (.vfadd false 0 9 0 1, [0x40400000, 0], 0), (.vfsub false 0 9 0 1, [0xBF800000, 0x80000000], 0),
    (.vfmul false 0 9 0 1, [0x40000000, 0x80000000], 0), (.vfmin false 0 9 0 1, [0x3F800000, 0x80000000], 0),
    (.vfmax false 0 9 0 1, [0x40000000], 0), (.vfma false 0 1 0 0, [0x40400000], 0), (.vfcmplt false 0 9 0 1, [0xFFFFFFFF], 0)] = true := by
  decide +kernel

/-- 32-bit lanes: -1 + 5 wraps to 4, -1 is below 5 signed and above it unsigned, a shift takes its amount modulo 32 (33 is 1) (R364 to
R366); VAND of both. -/
theorem test_vector_integer : postsLanes lanePairs 32 [
    (.vadd false 0 9 2 3, [4, 36], 0), (.vsub false 0 9 3 2, [6, 30], 0), (.vmul false 0 9 2 3, [0xFFFFFFFB, 99], 0),
    (.vmin false 0 9 2 3, [0xFFFFFFFF, 3], 0), (.vmax false 0 9 2 3, [5, 33], 0), (.vminu false 0 9 2 3, [5, 3], 0),
    (.vmaxu false 0 9 2 3, [0xFFFFFFFF, 33], 0), (.vshl false 0 9 2 3, [0xFFFFFFE0, 6], 0), (.vshr false 0 9 2 3, [0x7FFFFFF, 1], 0),
    (.vsar false 0 9 2 3, [0xFFFFFFFF, 1], 0), (.vcmplt false 0 9 2 3, [0xFFFFFFFF, 0xFFFFFFFF], 0), (.vand false 9 2 3, [5, 1], 0),
    (.vor false 9 2 3, [0xFFFFFFFF, 35], 0), (.vxor false 9 2 3, [0xFFFFFFFA, 34], 0)] = true := by decide +kernel

/-- VCMPEQ and VFCMPEQ of a row with itself fill every lane; VSEL takes A where the top bit of D is set, else B (R366, R367). -/
theorem test_vector_select :
    (postsLanes lanePairs 32 [(.vcmpeq false 0 9 2 2, List.replicate 32 0xFFFFFFFF, 0), (.vfcmpeq false 0 9 0 0, List.replicate 32 0xFFFFFFFF, 0),
      (.vsel false 0 2 0 1, [0x3F800000, 0], 0), (.vmov false 9 1, [0x40000000], 0)] &&
    postsLanes lanePairs 16 [(.vbcast false 1 2 7, List.replicate 64 0x3F80, 0)]) = true := by decide +kernel

/-- spec/12: the sum of the lanes 2^24, 0, 1, 1 by the tree is 0x4B800001 with no INEXACT; the largest is 2^24 (R369, R370). -/
theorem test_vector_reductions : posts (runningMat [] (vecs [[0x4B800000, 0, 0x3F800000, 0x3F800000]])) [
    (.vfrsum false 0 5 0, 0x4B800001, 0), (.vfrmax false 0 5 0, 0x4B800000, 0)] = true := by decide +kernel

/-- spec/10: Exp2 of 2.5 is 0x40B504F3 and of -0.5 is 0x3F3504F3, of +0 is 1; 1 / 2.0 and 1 / √4.0, and ∞ with DIVZERO of +0 (R326,
R327, R368). -/
theorem test_vector_functions :
    (postsLanes (runningMat [] (vecs [[0x40200000, 0xBF000000]])) 32 [(.vexp2 false 0 9 0, [0x40B504F3, 0x3F3504F3] ++ List.replicate 30 0x3F800000, 0)] &&
    postsLanes (runningMat [] (vecs [0x40000000 :: 0x40800000 :: List.replicate 30 0x7F800000])) 32 [
      (.vrcp false 0 9 0, [0x3F000000, 0x3E800000], 0)] &&
    postsLanes (runningMat [] (vecs [[0x40800000]])) 32 [(.vrsq false 0 9 0, 0x3F000000 :: List.replicate 31 0x7F800000, 2)]) = true := by
  decide +kernel

/-- spec/12: lane e takes lane e + 1 of A, and zero where bit 31 of the index is set (R372); FP32 to BF16 into half 0 keeps half 1 of D,
and FP16 half 0 widens exactly (R375). -/
theorem test_vector_permute_convert :
    (postsLanes (runningMat [] (vecs [[11, 12, 13], [1, 2, 0x80000000, 0] ++ List.replicate 28 31])) 32 [(.vperm false 0 9 0 1, [12, 13, 0, 11], 0)] &&
    postsLanes (runningMat [] (vecs [[0x3F800000, 0x40490FDB], List.replicate 16 0 ++ [0xABCD1234]])) 32 [
      (.vcvt false 1 0 0, 0x40493F80 :: List.replicate 15 0 ++ [0xABCD1234], 16),
      (.vcvt false 9 0 3, [0], 0)]) = true := by
  decide +kernel

/-- spec/12, spec/10: the block (0.3, -1.2, 2.9, 0.05, -0.7, 1.6, 0, -2.45) with band scale 1: scale code 0x3E and the bypass VALID; the
block word 0xF05B07C1; the dequantised values from 0.2421875 to -2.90625 (R323, R324, R379, R381, R383). -/
def blockState (d : List Nat) : State :=
  runningMat [] (vecs [[0x3E99999A, 0xBF99999A, 0x4039999A, 0x3D4CCCCD, 0xBF333333, 0x3FCCCCCD, 0, 0xC01CCCCD], d, [0xF05B07C1]])

theorem test_vector_blocks :
    (posted (blockState (List.replicate 32 0x3F803F80)) (.vbmax false 0 1 0) =
      some { writes := [(.mat 1, vpack 32 (0x3E :: List.replicate 30 0 ++ [0x3F803F80])),
        (.bypass, vpack 32 (0x3E :: List.replicate 29 0 ++ [0x20000, 0x3F80]))] }) ∧
    postsLanes ((blockState []).modCore 0 fun k => { k with bypass := [(0, 0x3E), (30, 0x20000), (31, 0x3F80)] }) 32 [
      (.vqcvt false 0 9 0, [0xF05B07C1], 0)] = true ∧
    faulted (blockState []) (.vqcvt false 0 9 0) = some (2, 3, 0) ∧
    postsLanes (blockState (0x3E :: List.replicate 30 0 ++ [0x3F803F80])) 32 [
      (.vdeq false 0 9 2 1, [0x3E780000, 0xBF780000, 0x403A0000, 0, 0xBF3A0000, 0x3FBA0000, 0, 0xC03A0000], 0)] = true := by
  decide +kernel

/-! ### Witnesses: states and operands that meet the hypotheses of the statements -/

/-- Every word of the list issues in this state. -/
def allIssue (s : State) (p : Perm) (l : List Instr) : Bool := l.all fun i => issues s i p
/-- Exec answers a next state. -/
def isNext (s : State) (i : Instr) : Bool := match exec i s with
  | .next _ => true
  | _ => false
/-- A function answers a value. -/
def isOk {α β : Type} : Except α β → Bool
  | .ok _ => true
  | .error _ => false

/-- A handler thread of core 0. -/
def handling (k : Core) : State := { onCore { k with handler := some {} } with cur := { core := 0, hd := true } }

theorem witness_DecodeOfEncode_EncodeOfDecode : (Instr.isWord (.nop h0) && Instr.isWord (.ring true 1 7 63 63) && isOk (decodeWord 0x80C030E0)) = true := by
  decide +kernel

theorem witness_ImmediateForms : (({} : Cur).ext = none ∧ ({ ext := some 0x61A } : Cur).ext = some 0x61A) := by decide

/-- p1 is false. -/
theorem witness_FalseGuardNoEffect :
    let s := running []
    let i : Instr := .add ⟨false, false, 1⟩ 3 1 2
    i.isWord = true ∧ s.cur.raised = none ∧ illegalCause s.cur i.toWord = none ∧ guardTrue s i.toWord = false := by decide +kernel

theorem witness_IllegalAndPriv :
    (Instr.isWord (.add h0 33 1 2) = true ∧ (running []).cur.raised = none ∧
      illegalCause (running []).cur (Instr.add h0 33 1 2).toWord = some 3) ∧
    (let s := handling {}
     illegalCause s.cur (Instr.vmov false 1 2).toWord = none ∧ guardTrue s (Instr.vmov false 1 2).toWord = true ∧
       taskOnly (.vmov false 1 2) = true ∧ s.cur.hd = true) ∧
    (let s := running []
     illegalCause s.cur (Instr.resume g0 1 0).toWord = none ∧ guardTrue s (Instr.resume g0 1 0).toWord = true ∧
       handlerOnly (.resume g0 1 0) = true ∧ s.cur.hd = false) := by decide +kernel

theorem witness_IssueKeepsMemory_IssueKeepsRegisters :
    (isNext (running []) (.add h0 3 1 2) && isNext (running [(40, 64)]) (.lda g0 41 40 3 0) && isNext (running [(40, 64)]) (.sta g0 41 40 3)
      && isNext (running []) (.endTask g0) && isNext (running []) (.trap g0 5)) = true := by decide +kernel

/-- Both pipes, the lowest and the highest registers. -/
theorem witness_RegisterArithmetic : (allIssue (running [(1, 5)]) .both [.add h0 0 1 2, .sub h0 31 31 31, .mul h0 5 1 2, .mulhs h0 5 1 2,
    .mulhu h0 5 1 2, .and h0 5 1 2, .or h0 5 1 2, .xor h0 5 1 2, .shl h0 5 1 2, .shr h0 5 1 2, .sar h0 5 1 2, .min h0 5 1 2, .max h0 5 1 2,
    .minu h0 5 1 2, .maxu h1 63 32 63]) = true := by decide +kernel

theorem witness_ImmediateArithmetic : (allIssue (running [(1, 5)]) .both [.addi h0 5 1 63, .andi h0 5 1 0, .ori h0 5 1 32, .xori h0 5 1 31,
    .shli h0 5 1 63, .shri h0 5 1 0, .sari h1 40 41 63, .li h1 63 0xFFF]) = true := by decide +kernel

theorem witness_PredicateResults : (allIssue (running [(1, 5)]) .both [.cmpeq h0 1 1 2, .cmpne h0 15 1 2, .cmplt h0 0 1 2, .cmple h0 1 1 2,
    .cmpltu h0 1 1 2, .cmpleu h1 1 40 41, .cmpeqi h0 1 1 63, .cmplti h0 1 1 32, .pand h0 1 2 3, .por h0 1 15 15, .pxor h1 1 2 3,
    .pandn h1 1 0 0]) = true := by decide +kernel

/-- The SEL has a guard field of a false predicate; the latch of q3 holds an entry. -/
theorem witness_MoveResults :
    (let s := onCore { stage := .running, task := { regs := [(1, 5)] }, fifo := [(3, [7])] }
     allIssue s .both [.sel ⟨false, false, 9⟩ 5 1 2, .xmov h0 1 40, .xmov h1 40 1, .qrd h0 5 3, .rdtick g0 40] &&
       (latchOf s.ccore 3).isSome && s.cur.raised.isNone) = true ∧
    (running []).cur.raised = none ∧ 1 < 2 ^ 32 ∧ pipeOf 1 < 2 ∧ fld 1 27 22 = 0 ∧ fld 1 17 0 ≠ 0 := by decide +kernel

theorem witness_ScalarFloatResults : (allIssue (running []) .both [.fadd h0 0 1 2 3, .fsub h0 3 1 2 3, .fmul h1 0 31 31 31, .ffma h0 0 1 2 3,
    .fmin h0 1 2 3, .fmax h0 1 2 3, .dadd h0 0 1 2 3, .dsub h0 0 1 2 3, .dmul h0 0 1 2 3, .dfma h1 0 1 2 3, .dmin h0 1 2 3, .dmax h0 1 2 3,
    .fcmpeq h0 1 2 3, .fcmplt h0 1 2 3, .fcmple h1 1 40 41, .dcmpeq h0 1 2 3, .dcmplt h0 1 2 3, .dcmple h0 15 31 31, .cvt h0 0 1 2 1,
    .cvt h1 3 1 2 0]) = true := by decide +kernel

/-- A free unit (free from this very tick on) and a busy one. -/
theorem witness_DivideResults :
    let s := running []
    let u := onCore { stage := .running, task := { divFree := 1 } }
    allIssue s .both [.fdiv g0 0 1 2 3, .fsqrt g0 0 1 2, .ddiv g0 0 1 2 3, .dsqrt g0 0 1 2] = true ∧ s.cthread.divFree ≤ s.ctick ∧
      allIssue u .both [.fdiv g0 0 1 2 3, .fsqrt g0 0 1 2, .ddiv g0 0 1 2 3, .dsqrt g0 0 1 2] = true ∧ u.ctick < u.cthread.divFree := by
  decide +kernel

/-- Targets 0 and 21,844, the first and the last packet, and -1 and 21,845. -/
theorem witness_BranchesLoopEnd :
    (let s := running [(1, 21844), (2, 21845)]
     allIssue s .both [.b g0 0, .b g0 21844, .b g0 0x3FFFF, .b g0 21845, .call g0 3 0, .jr g0 1, .jr g0 2, .loop g0 1 3] &&
       allIssue s .task [.endTask g0] && decide ((rdReg s 1).toNat = 21844 ∧ (rdReg s 2).toNat = 21845 ∧ (0x3FFFF : BitVec 18).toInt = -1))
       = true := by decide +kernel

theorem witness_ControlWords :
    let s := onCore { stage := .running, fifo := [(7, [5])] }
    let inLoop : State := { s with cur := { inLoop := true } }
    let after : State := { s with cur := { prev := some (Instr.addi ⟨true, false, 0⟩ 3 3 0x20).toWord } }
    issues s (.bcw false 0 3 0 0) .both = true ∧ issues s (.bcw false (BitVec.ofNat 8 (2 ^ 7)) 0 0 0) .both = true ∧
      (latchOf s.ccore 7).isSome = true ∧ issues inLoop (.bcw false 0 0 1 15) .both = true ∧
      issues after (.ext false 0 0x61A) .both = true ∧ after.cur.prev.bind extKind = some (0 : BitVec 1).toNat ∧
      issues s (.ring false 0 7 8 4) .both = true ∧ ringCause s.cur s.cthread.rings 7 ⟨false, 8, 4⟩ = none := by decide +kernel

theorem witness_Vector : (allIssue (running []) .task [.vfadd false 0 1 2 3, .vfsub false 1 1 2 3, .vfmul false 0 1 2 3, .vfmin false 0 1 2 3,
    .vfmax false 0 1 2 3, .vadd false 1 127 127 127, .vsub false 0 1 2 3, .vmul false 0 1 2 3, .vmin false 0 1 2 3, .vmax false 0 1 2 3,
    .vminu false 0 1 2 3, .vmaxu false 0 1 2 3, .vshl false 0 1 2 3, .vshr false 0 1 2 3, .vsar false 0 1 2 3, .vfcmpeq false 0 1 2 3,
    .vfcmplt false 0 1 2 3, .vcmpeq false 0 1 2 3, .vcmplt false 0 1 2 3, .vmov false 1 2, .vand false 1 2 3, .vor false 1 2 3,
    .vxor false 1 2 3, .vfma false 0 1 2 3, .vsel false 0 1 2 3, .vexp2 false 1 1 2, .vrcp false 0 1 2, .vrsq false 0 1 2,
    .vfrsum false 0 31 2, .vfrmax false 1 0 2, .vcvt false 1 2 0, .vcvt false 1 2 30, .vbmax false 0 1 2, .vqcvt false 0 1 2,
    .vdeq false 0 1 2 3, .vbcast false 0 1 31, .vperm false 0 1 2 3]) = true := by decide +kernel

/-- Codes of both kinds of VCVT; a bypass of width 0 fits VQCVT and that of width 1 does not. -/
theorem witness_VectorReductionsAndBlocks : narrowing 0 = true ∧ narrowing 30 = false ∧
    fld (vword (readBypass [(30, 0x20000)]) 30).toNat 17 16 = 2 + (0 : BitVec 1).toNat ∧
    fld (vword (readBypass [(30, 0x20000)]) 30).toNat 17 16 ≠ 2 + (1 : BitVec 1).toNat := by decide +kernel

theorem witness_BroadcastAndPermute : 32 ≤ (32 : BitVec 6).toNat ∧ (running []).cur.raised = none := by decide

/-- A format with RM 3 and IWID 2; a latch with an entry; link 1 of core 0 and a room of 15 entries; no core north of core 0. -/
theorem witness_FormatsAndLinks :
    let s := onCore { stage := .running, task := { regs := [(7, 0xC800)] }, fifo := [(3, [7])] }
    let f := rdReg s 7
    allIssue s .task [.vsetfmt false 7, .vqmov false 1 3, .vqmovSend false 1 1, .vqmovSend false 1 0] = true ∧
      wfld f 63 16 = 0 ∧ wfld f 13 12 = 0 ∧ wfld f 6 1 = 0 ∧ wfld f 11 10 ≠ 3 ∧ wfld f 8 7 ≠ 3 ∧ (latchOf s.ccore 3).isSome = true ∧
      neighbour s.cur.core 1 = some 1 ∧ regionOf 1 = regionOf s.cur.core ∧ gatedCore s 1 = false ∧
      (smGet [] (s.core 1).fifo 3).length + linkFlight (s.core 1) 3 < 16 ∧ neighbour s.cur.core 0 = none := by decide +kernel

def lOps (d a : BitVec 6) : List Instr := [.lda g0 d a 0 0, .ldw g0 d a 0 1, .ldc g0 d a 0 0]
def lVecs (a : BitVec 6) : List Instr := [.mlda g0 5 a, .mldw g0 5 a, .mldc g0 5 a]

/-- The last byte and the last vector of a face, one misaligned address, the first address beyond each face. -/
theorem witness_LocalLoads_LocalStores :
    let s := running [(40, 0x1FFFFF), (41, 0x1FFF80), (42, 0x200000), (43, 0xFFFFF), (44, 0x100000), (45, 0xFFF80), (46, 0x81)]
    let st : List Instr := [.sta g0 47 40 0, .stw g0 47 42 3, .stc g0 47 43 0, .sta g0 47 46 3]
    let stv : List Instr := [.msta g0 5 41, .mstw g0 5 42, .mstc g0 5 45, .mstc g0 5 46]
    allIssue s .both (lOps 47 40 ++ lOps 47 43 ++ lOps 47 42 ++ [.ldc g0 47 44 3 0, .lda g0 47 46 3 0] ++ st) = true ∧
      allIssue s .task (lVecs 41 ++ lVecs 45 ++ lVecs 42 ++ lVecs 46 ++ stv) = true ∧
      (rdReg s 40 + immOff s.cur).toNat = faceSize 0 - 1 ∧ faceSize 1 = 0x200000 ∧ (rdReg s 45).toNat + 128 = faceSize 2 ∧
      (rdReg s 46).toNat % 8 ≠ 0 ∧ faceSize 2 ≤ (rdReg s 44).toNat ∧ isEarly s 0 0x1FFFFF 1 = false ∧
      poisonIn s (faceLoc s.cur.core 0 0x1FFFFF) 1 = none := by decide +kernel

/-- An LDA.B of a byte 0x80 at A offset 5 gives 0x80, sign-extended 0xFFFFFFFFFFFFFF80 (R415); a 4-byte load is little-endian (R10). -/
theorem test_local_load :
    posts { running [(40, 5), (41, 4)] with mem := [(faceLoc 0 0 4, 0x11), (faceLoc 0 0 5, 0x80), (faceLoc 0 0 7, 0x44)] } [
      (.lda g0 42 40 0 0, 0x80, 0), (.lda g0 42 40 0 1, 0xFFFFFFFFFFFFFF80, 0), (.lda g0 42 41 2 0, 0x44008011, 0)] = true ∧
    faulted (running [(40, 5)]) (.lda g0 42 40 1 0) = some (3, 9, 0) ∧ faulted (running [(40, 0x100000)]) (.ldc g0 42 40 0 0) = some (3, 9, 1) := by
  decide +kernel

/-- A task of core 0 whose lease holds every bank of PC 0 of stack 0 in every slot, and shares PC 1 bank 0; a page of 2 MiB at 0 with every
permission; the fabric window 0 of 1 MiB for all uses. s40 is an offset of 4,112, in the frame that lends bank 1; s42 an address in bank 2,
s43 one in the shared bank, s44 a descriptor of one burst of the A face, s45 of one of the C face, s46 a descriptor with a reserved bit,
s47 zero, s48 the X address of offset 0x40 of the W face of core 1, s49 a MARK of queue 1, s50 a copy of 600 bytes from A offset 0, s51 A
offset 0x1000, s52 a fabric transfer of 64 bytes, s53 to s58 K addresses and constants. -/
def leaseCore : Core :=
    { stage := .running
      task := { regs := [(1, 0x0F1C700F00000000), (2, 0x0000400080001000), (3, 0x3F801C7000008000), (4, 0x800), (5, 1000), (6, 0x80001000),
        (7, 0x1000), (8, 0x0F00700F00000000), (9, 0x80000000), (10, 0x001C700000000000), (40, 4112), (42, 0x20000), (43, 0x80), (44, 0x40), (45, 0x400000), (46, 0x8000000000000000), (48, 0xA00040), (49, 0x4000000000000100), (50, 600 * 2 ^ 36),
        (51, 0x1000), (52, 64 * 2 ^ 36), (53, 0x38), (54, 0x58), (55, 0x138), (56, 0xC000), (57, 0x100), (58, 0x88)] }
      lmask := 255
      tlb := [(0, ⟨0xF80, 0⟩)]
      lease := { entry := { slots := (List.range 64).map fun b => (0, 0, b), rows := [(0, 0, 255)], cols := [(0, 0, 255)], shared := [(0, 1, 0, false)] } } }

/-- The same with core 1 as the other member of its pack. -/
def leaseState : State :=
  { State.reset with
    work := [], cores := [(0, leaseCore), (1, { stage := .running })], packs := [(0, { members := [0, 1], inst := 0, node := 0 })],
    fwtab := [(0, ⟨0x8000000700000000, 0x100000⟩)], mem := [(faceLoc 0 2 1, 0x10)] }

/-- Accesses to the packmate core 1 and to the own core; core 95, of another region and no packmate, has no exact tick. -/
theorem witness_XSpaceAccesses :
    let s := leaseState
    issues s (.ldx g0 41 48 3 0) .both = true ∧ issues s (.stx g0 41 48 3) .both = true ∧ issues s (.mldx g0 5 47) .task = true ∧
      issues s (.mstx g0 5 47) .task = true ∧ isOk (xTarget s (rdReg s 48 + immOff s.cur) 8) = true ∧
      isOk (xTarget s (rdReg s 47 + immOff s.cur) 128) = true ∧ exactTick s 0 false 1 = true ∧ exactTick s 0 false 95 = false := by decide +kernel

def atomWords (sp : BitVec 1) (o : BitVec 2) (a : BitVec 5) : List Instr :=
  [.aaddW g0 sp o 9 a 10, .aaddD g0 sp o 9 a 10, .asmaxW g0 sp o 9 a 10, .asmaxD g0 sp o 9 a 10, .asminW g0 sp o 9 a 10, .asminD g0 sp o 9 a 10,
    .aumaxW g0 sp o 9 a 10, .aumaxD g0 sp o 9 a 10, .auminW g0 sp o 9 a 10, .auminD g0 sp o 9 a 10, .axchgW g0 sp o 9 a 10, .axchgD g0 sp o 9 a 10,
    .acasW g0 sp o 9 a 10, .acasD g0 sp o 9 a 10, .afadd g0 sp o 9 a 10, .afmax g0 sp o 9 a 10, .afmin g0 sp o 9 a 10, .redaddW g0 sp o a 10,
    .redaddD g0 sp o a 10, .redsmaxW g0 sp o a 10, .redsmaxD g0 sp o a 10, .redsminW g0 sp o a 10, .redsminD g0 sp o a 10, .redumaxW g0 sp o a 10,
    .redumaxD g0 sp o a 10, .reduminW g0 sp o a 10, .reduminD g0 sp o a 10, .redxchgW g0 sp o a 10, .redxchgD g0 sp o a 10,
    .redcasW g0 sp o 9 a 10, .redcasD g0 sp o 9 a 10, .redfadd g0 sp o a 10, .redfmax g0 sp o a 10, .redfmin g0 sp o a 10]

/-- Every atomic word of every order, in X space at s48 and in G space at s43; a misaligned address in s57 + 1 is that of s38 = 1. -/
theorem witness_AtomicsSent :
    let s := leaseState
    allIssue s .both (atomWords 0 0 16 ++ atomWords 0 1 16 ++ atomWords 0 2 16 ++ atomWords 1 3 11 ++ atomWords 1 0 11) = true ∧
      (rdReg s (32 + 16)).toNat % 8 = 0 ∧ isOk (xTarget s (rdReg s (32 + 16)) 8) = true ∧ isOk (atomG s (rdReg s (32 + 11)) 8 0) = true ∧
      isOk (atomG s (rdReg s (32 + 11)) 8 3) = true ∧ exactTick s 0 false 1 = true ∧
      allIssue (running [(40, 2)]) .both (atomWords 0 0 8) = true ∧ (rdReg (running [(40, 2)]) (32 + 8)).toNat % 4 ≠ 0 := by decide +kernel

/-- A HEEL whose target is the next tick but 4,111, one at the present tick, one with a HEEL pending, one of group 1; REBASE by 64 and by
2^20 (256 × 4,096 with an EXT); the K registers of tasks and handlers. -/
theorem witness_HeelRebaseAndControlRegisters :
    let s := leaseState
    let p := s.modCore 0 fun k => { k with heel := some { target := 9, fpc := 0, fword := 0 } }
    let e : State := { s with cur := { ext := some 256 } }
    allIssue s .task [.heel g0 40 0, .rebase g0 64] = true ∧ s.ctick < startTick s 40 ∧ s.ccore.heel = none ∧
      startTick ({ s with cur := { ext := some 0 } }) 0 ≤ s.ctick ∧ issues p (.heel g0 40 0) .task = true ∧ p.ccore.heel ≠ none ∧
      issues s (.heel g0 40 383) .both = true ∧ (383 : BitVec 9).toNat ≠ s.ccore.group ∧ (extVal s.cur).getD 0 * 4096 + 64 = 64 ∧
      issues e (.rebase g0 0) .task = true ∧ (extVal e.cur).getD 0 * 4096 + 0 = 2 ^ 20 ∧
      allIssue s .both [.krd g0 41 53 0, .krd g0 41 54 0, .krd g0 41 55 0, .kwr g0 41 53 0, .kwr g0 41 54 0, .trap g0 4095] = true ∧
      kCheck (rdReg s 53 + imm6 s.cur 0) false s.cur.hd = none ∧ rdReg s 54 + imm6 s.cur 0 = 0x58 ∧ rdReg s 55 + imm6 s.cur 0 = 0x138 := by
  decide +kernel

/-- BARARR of one member and of 192; a flag at A offset 0 with no scope. -/
theorem witness_WaitsBegin :
    let s := leaseState
    allIssue s .both [.fence g0 0, .fence g0 5, .flagset g0 47 47, .flagwait g0 41 47 47, .gwait g0 41 47 47] = true ∧
      allIssue s .task [.bararr g0 41 57, .bararr g0 41 56, .barwait g0 41 47 47, .waitc g0 41 47 47] = true ∧
      isOk (xTarget s (BitVec.ofNat 64 (wfld (rdReg s 47) 30 0)) 8) = true ∧ wfld (rdReg s 47) 63 38 = 0 ∧ wfld (rdReg s 47) 37 31 = 0 ∧
      wfld (rdReg s 57) 15 8 = 1 ∧ wfld (rdReg s 56) 15 8 = 192 ∧
      wfld (rdReg s 56) 63 16 = 0 ∧ wfld (rdReg s 56) 7 4 = 0 ∧ wfld (rdReg s 47) 63 56 ≠ 0xE0 ∧ wfld (rdReg s 47) 63 3 = 0 := by decide +kernel

def tlMeets (i : Instr) (q : TlAsk) : Bool :=
  let s := leaseState
  issues s i .task && !q.bad && (firstFlt q.early).isNone && match askLocs s q, offsetOf s 40 with
  | .ok locs, some st => (lateChecks s q (some st) st (stamped q (s.ccore.lease.cls = 1) st locs)).isNone
  | _, _ => false

theorem witness_TimelinePosted_slots :
    (tlMeets (.act g0 40 47) (slotAsk 0 47 leaseState) && tlMeets (.pre g0 40 47) (slotAsk 1 47 leaseState) &&
      tlMeets (.prea g0 40 47) (slotAsk 2 47 leaseState) && tlMeets (.refpb g0 40 47) (slotAsk 7 47 leaseState) &&
      tlMeets (.refab g0 40 47) (slotAsk 8 47 leaseState) && tlMeets (.lfence g0 40 47) { op := 12, bad := wfld (0 : Word) 63 2 ≠ 0 }) = true := by
  decide +kernel

theorem witness_TimelinePosted_bursts :
    (tlMeets (.rd g0 40 47 44) (burstAsk 3 47 44 leaseState) && tlMeets (.wr g0 40 47 45) (burstAsk 4 47 45 leaseState) &&
      tlMeets (.rdt g0 40 47 44) (burstAsk 5 47 44 leaseState) && tlMeets (.wrt g0 40 47 45) (burstAsk 6 47 45 leaseState) &&
      tlMeets (.mzero g0 40 47) { op := 9, addrs := [(0, 256)] } && tlMeets (.mcopy g0 40 47 42) { op := 10, addrs := [(0, 512), (0x20000, 256)] } &&
      tlMeets (.mcmp g0 40 47 42) { op := 11, addrs := [(0, 512), (0x20000, 512)] }) = true := by decide +kernel

theorem witness_TimelinePosted_reserved :
    ((slotAsk 0 46 leaseState).bad && (slotAsk 8 46 leaseState).bad && (burstAsk 3 47 46 leaseState).bad && (burstAsk 6 47 46 leaseState).bad &&
      decide (wfld (rdReg leaseState 46) 63 2 ≠ 0) && allIssue leaseState .task [.act g0 40 46, .refab g0 40 46, .rd g0 40 47 46, .wrt g0 40 47 46,
        .lfence g0 40 46]) = true := by decide +kernel

/-- Whether a location is open to a command at a stamp, where nothing stands posted to its PC. -/
def openMeets (s : State) (op loc x : Nat) : Bool :=
  let c := s.cur.core
  let l := s.ccore.lease
  locHs loc / 4 = stackOf c && ((s.hbm (locHs loc)).pc (locPc loc)).mode ≠ 2 && l.entry.slots.contains (leaseKey c loc) &&
    bit (laneMask (if isCol op then l.entry.cols else l.entry.rows) c loc) (x / 2 % 8) && l.cls ≠ 2 &&
    (smFind (if isCol op then s.ccore.lastCol else s.ccore.lastRow) (pcKey loc)).isNone && !inHole x && !rebaseHole s (s.fromBase x) &&
    !inCare s.ccore (s.fromBase x) && !lentAt s loc x

theorem openAt_of_openMeets {s : State} {op loc x : Nat} (h : openMeets s op loc x = true) : openAt s op loc x := by
  simp only [openMeets, Bool.and_eq_true, decide_eq_true_eq, Bool.not_eq_true', List.contains_iff_mem, Option.isNone_iff_eq_none,
    ne_eq, decide_not, decide_eq_false_iff_not] at h
  obtain ⟨⟨⟨⟨⟨⟨⟨⟨⟨h1, h2⟩, h3⟩, h4⟩, h5⟩, h6⟩, h7⟩, h8⟩, h9⟩, h10⟩ := h
  exact ⟨h1, h2, h3, h4, fun e => absurd e h5, fun p hp => by simp [h6] at hp, h7, h8, h9, fun _ _ => h10⟩

/-- Stamp 4,112 fits; bank 0 in slot 0 of the lease, with the 64 slots of its PC; a burst of the A face for reads, of the C face for writes;
rows in banks 0 and 2 of one PC. -/
theorem witness_TimelinePosted_explicit :
    let s := leaseState
    let l := s.ccore.lease
    let at_ (v : Word) : Xlat := translate s.ccore.tlb v 768
    stampFits s 40 4112 ∧ wfld (rdReg s 47) 63 0 = 0 ∧ l.entry.slots[0]? = some (0, 0, 0) ∧
      (l.entry.slots.filter fun x => x.1 = (leaseKey 0 (mkLoc (stackOf 0 * 4) 0 0 0 0)).1 &&
        x.2.1 = (leaseKey 0 (mkLoc (stackOf 0 * 4) 0 0 0 0)).2.1).length = 64 ∧
      (∀ op ∈ [0, 1, 2, 7, 8, 3, 4, 5, 6, 9, 10, 11], openAt s op (mkLoc (stackOf 0 * 4) 0 0 0 0) 4112) ∧
      wfld (rdReg s 44) 63 27 = 0 ∧ wfld (rdReg s 44) 26 23 = 0 ∧ wfld (rdReg s 44) 22 21 = 0 ∧ wfld (rdReg s 44) 20 0 = 64 ∧
      wfld (rdReg s 45) 63 23 = 0 ∧ wfld (rdReg s 45) 22 21 = 2 ∧ wfld (rdReg s 45) 20 0 = 0 ∧ addrCol (rdReg s 47) = 0 ∧
      at_ (rdReg s 47) = .ok 0 false ∧ at_ (withCol (rdReg s 47) 0) = .ok 0 false ∧ at_ (rdReg s 42) = .ok 0x20000 false ∧
      wfld (rdReg s 42) 63 48 = 0 ∧ s.loc 0 = mkLoc (stackOf 0 * 4) 0 0 0 0 ∧ sealedBurst s (s.loc 0) = false ∧ sealedRow s (s.loc 0) = false ∧
      sealedRow s (s.loc 0x20000) = false ∧ locBank (s.loc 0x20000) = 2 ∧ locHs (s.loc 0) = locHs (s.loc 0x20000) ∧
      locPc (s.loc 0) = locPc (s.loc 0x20000) ∧ (s.hbm 0).phys 0 0 ≠ (s.hbm 0).phys 0 2 ∧
      (∀ op ∈ [10, 11], openAt s op (s.loc 0x20000) 4112) := by
  have o : ∀ op ∈ [0, 1, 2, 7, 8, 3, 4, 5, 6, 9, 10, 11], openAt leaseState op (mkLoc (stackOf 0 * 4) 0 0 0 0) 4112 :=
    fun op h => openAt_of_openMeets ((show ∀ op ∈ [0, 1, 2, 7, 8, 3, 4, 5, 6, 9, 10, 11],
      openMeets leaseState op (mkLoc (stackOf 0 * 4) 0 0 0 0) 4112 = true by decide +kernel) op h)
  have q : ∀ op ∈ [10, 11], openAt leaseState op (leaseState.loc 0x20000) 4112 :=
    fun op h => openAt_of_openMeets ((show ∀ op ∈ [10, 11], openMeets leaseState op (leaseState.loc 0x20000) 4112 = true by decide +kernel) op h)
  refine ⟨?_, by decide +kernel, by decide +kernel, by decide +kernel, o, ?_⟩
  · unfold stampFits
    decide +kernel
  · have r : wfld (rdReg leaseState 44) 63 27 = 0 := by decide +kernel
    refine ⟨r, ?_, ?_, ?_, ?_, ?_, ?_, ?_, ?_, ?_, ?_, ?_, ?_, ?_, ?_, ?_, ?_, ?_, ?_, ?_, q⟩ <;> decide +kernel

theorem witness_MarkPlaced :
    let s := leaseState
    let v := rdReg s 49
    issues s (.mark g0 40 49 47) .task = true ∧ wfld v 61 20 = 0 ∧ wfld v 63 62 ≠ 0 ∧ wfld v 19 0 % 8 = 0 ∧ s.ctick < startTick s 40 ∧
      s.ccore.tlUsed s.ctick < 256 ∧ s.ccore.copyUsed s.ctick < 16 := by decide +kernel

/-- A copy of 600 bytes to A offset 0x1000, a multicast to the one destination that stands in the C face, a fill of 600 bytes. -/
theorem witness_CopiesQueued :
    let s := leaseState
    let q : CopyAsk := { len := 600, bad := false, src := some (rdReg s 50), dsts := [rdReg s 51] }
    let f : CopyAsk := { len := 600, bad := false, src := none, dsts := [rdReg s 50], fill := some 0 }
    allIssue s .task [.copy g0 40 50 51, .mcast g0 40 50 47, .fill g0 40 50 47, .copy g0 40 46 51] = true ∧ wfld (rdReg s 50) 57 36 = 600 ∧
      (engReserved (rdReg s 50) true || engReserved (rdReg s 51) false) = false ∧ engReserved (rdReg s 46) true = true ∧
      leNat (readBytes s.mem (faceLoc 0 2 0) 8) = 0x1000 ∧ poisonIn s (faceLoc 0 2 0) 8 = none ∧
      (firstFlt (q.list ++ engAlign q)).isNone = true ∧ (firstFlt (f.list ++ engAlign f)).isNone = true ∧ isOk (engSource s q) = true ∧
      isOk (engSource s f) = true ∧ isOk (engWheres s 600 .dest q.dsts) = true ∧ isOk (engWheres s 600 .fill f.dsts) = true ∧
      gatedCore s 0 = false ∧ staleExchange s 0 0 = false ∧ s.ctick < startTick s 40 ∧ s.ccore.copyUsed s.ctick < 16 ∧
      s.ccore.copyEnd ≤ startTick s 40 ∧ s.ccore.copyLast ≤ startTick s 40 := by decide +kernel

/-- The same words by the explicit conditions: places in the own faces; a stream queue of core 0 named through X space, into which 1,280 bytes go. -/
theorem witness_CopiesQueued_explicit :
    let s := leaseState
    [rdReg s 50, rdReg s 51].all (fun v => wfld v 63 58 = 0 && wfld v 35 35 = 0 && wfld v 31 31 = 0 && wfld v 34 32 ≠ 5) = true ∧ wfld (rdReg s 50) 57 36 = 600 ∧ wfld (rdReg s 51) 57 36 = 0 ∧ wfld (rdReg s 47) 63 0 = 0 ∧
      namesPlace (rdReg s 50) 600 .source ∧ namesPlace (rdReg s 50) 600 .fill ∧ namesPlace (rdReg s 51) 600 .dest ∧
      namesPlace (0x500000003 : Word) 1280 .dest ∧ placeNamed 0 (0x500000003 : Word) = (0, 7, 0) ∧
      placeNamed 0 (rdReg s 50) = (0, 0, 0) ∧ placeNamed 0 (rdReg s 51) = (0, 0, 0x1000) ∧ gatedCore s 0 = false ∧ staleExchange s 0 0 = false ∧
      wfld (rdReg s 50) 30 0 % 4 = 0 ∧ engineTakes s (startTick s 40) := by
  unfold namesPlace engineTakes
  refine ⟨?_, ?_, ?_, ?_, ?_, ?_, ?_, ?_, ?_, ?_, ?_, ?_, ?_, ?_, ?_⟩ <;> decide +kernel

def cubeMeets (i : Instr) (x : XCmd) (checks : List (Option Flt)) : Bool :=
  let s := leaseState
  issues s i .task && (firstFlt checks).isNone && decide (s.ctick < x.start) && cubeFits s.ccore.cubes x

def cubeMain (kind a : Nat) (d1 : Word) (i : Instr) : Bool :=
  let s := leaseState
  let x := mainCmd kind (origin s 4) (startTick s 5) s.ccore.engfmt (rdReg s a) d1
  cubeMeets i x (chk (mainReserved s.ccore.lmask x (rdReg s a) d1) ⟨1, 1, 0, 0⟩ :: mainChecks (cfmtAhead s.ccore) x)

/-- The descriptors of spec/13 (8 by 8, K 16, BF16, four layers, the drain of 8 by 8), a row stride for the planes, start 1,000 in s5; a
start at the present tick. -/
theorem witness_CubeQueued_main :
    let s := leaseState
    (cubeMain 0 1 (rdReg s 6) (.cubeMm g0 5 1 6) && cubeMain 1 1 (rdReg s 6) (.cubeMma g0 5 1 6) && cubeMain 2 1 (rdReg s 7) (.cubeMmw g0 5 1 7) &&
      cubeMain 3 1 (rdReg s 7) (.cubeMmwa g0 5 1 7) && cubeMain 4 1 (rdReg s 2) (.cubePl g0 5 1 2) &&
      cubeMain 5 1 (rdReg s 2) (.cubePla g0 5 1 2) && cubeMain 6 8 (rdReg s 9) (.cubeWl g0 5 8 9) &&
      cubeMain 10 1 (rdReg s 6) (.cubeScore g0 5 1 6) && cubeMain 8 10 0 (.cubeZero g0 5 10) && cubeMain 11 10 0 (.cubeResc g0 5 10)) = true := by
  decide +kernel

theorem witness_CubeQueued_rest :
    let s := leaseState
    (cubeMeets (.cubeFmt g0 5 0) (fmtCmd (origin s 4) (startTick s 5) 0) (fmtChecks 0) &&
      cubeMeets (.cubeDrain g0 5 3 4) (drainCmd (origin s 4) (startTick s 5) 0 (rdReg s 3) (rdReg s 4))
        (drainChecks (drainCmd (origin s 4) (startTick s 5) 0 (rdReg s 3) (rdReg s 4)) (rdReg s 3) (rdReg s 4)) &&
      issues s (.cubeSide g0 7 0 0) .task) = true ∧
      startTick ({ s with cur := { ext := some 0 } }) 0 ≤ s.ctick ∧ issues ({ s with cur := { ext := some 0 } }) (.cubeFmt g0 0 0) .task = true := by
  decide +kernel

/-! The handler words: a handler of core 0 with a leash of every right on pack 5, whose one member is the frozen core 1; context 1 of its
region is core 2. -/

/-- An add of core 1 that has issued and not committed. -/
def replayed : Replay := { instr := .add h0 5 1 2, slots := [1, 2] }

def frozenPack : SMap Pack := [(5, { members := [1], inst := 0, node := 0, freeze := some { phi := 0, primary := 1, wall := 0, served := true } })]

def leashState : State :=
  { State.reset with
    work := [], packs := frozenPack, regions := [(0, { ctxs := [(1, 2)] })], cur := { core := 0, hd := true },
    cores := [(0, { handler := some { regs := [(33, 0xF00000005), (34, 5), (35, 0x100000000), (36, 0x780), (37, 1), (38, 0x1000000)] }, leash := [(0, 0xF00000005)] }),
      (1, { stage := .running, packid := 0x500000000, frozen := some { held := 3, phi := 0 },
            task := { regs := [(5, 77)], agenda := [{ id := 0, tick := 3, act := .result replayed { writes := [(.sreg 5, 3)] } }] } })] }

theorem witness_TlbWords :
    let s := leashState
    issues s (.tlbw g0 63 63 36) .handler = true ∧ (⟨rdReg s 36, rdReg s 63⟩ : Tlb).valid = true ∧ (⟨rdReg s 36, rdReg s 63⟩ : Tlb).badFormat = false ∧
      (⟨rdReg s 36, rdReg s 63⟩ : Tlb).badColour = false ∧ (s.core 1).tlb = [] ∧ issues s (.tlbw g0 63 63 63) .handler = true ∧
      (⟨rdReg s 63, rdReg s 63⟩ : Tlb).valid = false ∧ isOk ((s.core 1).fillTlb s 383 ⟨rdReg s 36, rdReg s 63⟩) = true ∧
      markersIn (s.core 1) 1 < 16 ∧ markersIn (s.core 1) 2 < 16 ∧ issues s (.tlbp g0 40 63 36) .handler = true ∧ issues s (.tlbinv g0 63 63 36) .handler = true ∧
      issues s (.tlbw g0 36 35 63) .handler = true ∧ selBad (rdReg s 63) = false ∧ selBad (rdReg s 35) = true ∧
      (leashWith s 0 0 33).isSome = true ∧ (leashWith s 0 0 32).isSome = true ∧
      ((leashWith s 0 0 33).bind fun p => memberCore s p 0) = some 1 ∧ wfld (rdReg s 63) 63 40 = 0 ∧ wfld (rdReg s 63) 2 0 = 0 ∧
      wfld (rdReg s 63) 24 24 = 0 := by decide +kernel

/-- Leash 0 has every right, leash 1 none; KIND 0 INDEX 5 is s5; entry 0 is the add; context 1 is core 2, which has a free leash. -/
theorem witness_LeashWords :
    let s := leashState
    allIssue s .handler [.linsp g0 1 0 40 34, .linsp g0 1 1 40 34, .lpatch g0 1 0 34 33, .lpatch g0 1 1 34 33, .lrq g0 1 0 40 63,
      .lrq g0 1 1 40 63, .lreinj g0 1 0 63 33, .lreinj g0 1 1 63 33, .resume g0 1 0, .resume g0 1 1, .kill g0 1 0, .kill g0 1 1, .hret g0,
      .ldeleg g0 1 0 37 33] = true ∧
      [32, 33, 34, 35].all (fun r => (leashWith s 0 0 r).isSome && (leashWith s 0 1 r).isNone) = true ∧
      ((leashWith s 0 0 32).bind fun p => selector s p (rdReg s 34)) = some (1, 0, 5) ∧ leashRead s 1 0 5 = some 77 ∧
      (leashWrite s 1 0 5 9).isSome = true ∧ ((leashWith s 0 0 32).bind fun p => entryOf s p (rdReg s 63)).isSome = true ∧
      (leashPack s (smGet 0 s.ccore.leash 0)).isSome = true ∧ smFind (s.region (clusterOf 0 * 8 + wfld (rdReg s 37) 5 0 / 8)).ctxs 1 = some 2 ∧
      (freeLeash s 2).isSome = true ∧ wfld (rdReg s 34) 63 16 = 0 ∧ wfld (rdReg s 34) 15 0 = 5 ∧ ((leashWith s 0 0 32).bind fun p => selector s p (rdReg s 33)).isNone = true ∧
      ((leashWith s 0 0 33).bind fun p => memberCore s p (wfld (rdReg s 34) 55 48)) = some 1 ∧ wfld (rdReg s 63) 9 8 = 0 ∧
      ((replays (s.core 1).task)[0]?).bind (·.replay) = some replayed := by decide +kernel

/-- A PUT, a GET and an RATOM of window 0; a control word with bit 63. -/
theorem witness_FabricSent :
    let s := leaseState
    allIssue s .task [.put g0 47 47 52, .get g0 47 47 52, .ratom g0 47 47 52, .put g0 46 47 52, .ratom g0 46 47 52] = true ∧
      [0, 1, 2].all (fun k => !fabReserved k (rdReg s 47) && fabReserved k (rdReg s 46)) = true ∧ wfld (rdReg s 47) 63 0 = 0 ∧
      wfld (rdReg s 52) 57 36 = 64 ∧ wfld (rdReg s 52) 63 58 = 0 ∧ wfld (rdReg s 52) 35 0 = 0 ∧
      [63, 32, 33, 34].all (fun b => wfld (smGet {} s.fwtab 0).w0 b b = 1) = true ∧ 64 ≤ wfld (smGet {} s.fwtab 0).w1 39 0 ∧
      s.ccore.fabs.length < 64 := by
  decide +kernel

/-- The intake with nothing in it, and with 64 creations. -/
theorem witness_LaunchWords :
    let s := leaseState
    let full : State := { s with walker := { insts := (List.range 64).map fun n => (n, { obj := 0, objva := 0, slot := 0, serial := n, gate := some (0, 0) }) } }
    let ok (x : Xlat) : Bool := match x with
      | .ok _ _ => true
      | .bad _ => false
    allIssue s .task [.launch g0 41 47 47, .ginst g0 41 47 47, .seal g0 47 47, .unseal g0 47 47, .cancel g0 47 56] = true ∧
      issues s (.crd g0 41 47 47) .both = true ∧ ok (translate s.ccore.tlb (rdReg s 47) 512) = true ∧ patchLen false 0 = 0 ∧ patchLen true 0 = 0 ∧
      intakeUsed s < 64 ∧ 64 ≤ intakeUsed full ∧ issues full (.launch g0 41 47 47) .task = true ∧ wfld (2 : Word) 1 0 = 2 ∧
      issues (running [(40, 2)]) (.cancel g0 47 40) .task = true ∧ wfld (rdReg (running [(40, 2)]) 40) 1 0 = 2 := by decide +kernel

/-! The steps: one pending item of the task of core 0, whose number is 0. -/

/-- Core 0 runs a task with this item pending; core 1 is there too. -/
def pendingState (p : Pending) (f : Core → Core := id) : State :=
  { State.reset with work := [], cores := [(0, f { stage := .running, task := { regs := [(3, 9)], agenda := [p], nid := 1 } }), (1, { stage := .running })] }

def itemOf (a : Act) : Pending := { id := 0, tick := 3, act := a }

/-- Whether the item pending is this one. -/
def stands (p : Pending) (f : Core → Core := id) : Bool := decide ((pendingState p f).findItem 0 false 0 = some p)

/-- A scalar, a predicate and a matrix destination; a discarded write of s0; an enabled trap on INVALID. -/
theorem witness_ResultCommits_FaultEntry :
    [Dest.sreg 5, .sreg 0, .pred 15, .pred 0, .mat 127].all (fun d => stands (itemOf (.result replayed { writes := [(d, 7)], flags := 16 }))) = true ∧
      trapCause (({} : Core).trapen) 16 = none ∧ (trapCause 1 1).isSome = true ∧
      stands (itemOf (.result replayed { writes := [(.sreg 5, 7)], flags := 1 })) (fun k => { k with trapen := 1 }) = true ∧
      stands (itemOf (.result replayed { writes := [(.pred 12, 1)], flags := 16 }))
        (fun k => { k with task := { k.task with loop := some { trip := 1, stages := 1, iters := 1 } } }) = true := by decide +kernel

/-- An ADDI of a task whose items all have lower numbers than its next one. -/
theorem witness_ResultReachesRegister :
    let s := pendingState (itemOf (.link 0 0))
    let i : Instr := .addi h0 5 3 1
    s.cur.hd = false ∧ (∀ p ∈ s.cthread.agenda, p.id < s.cthread.nid) ∧ issues s i .both = true ∧ isNext s i = true := by decide +kernel

/-- After the ADDI above has issued, its result is an item of number 1, and its commit leaves 10 in s5 and 9 in s3 (R303, R335). -/
theorem test_result_commit :
    (match exec (.addi h0 5 3 1) (pendingState (itemOf (.link 0 0))) with
      | .next t => (match exec (.resultCommit 0 false 1) t with
        | .next u => decide (((u.core 0).task.reg 5).toNat = 10 ∧ ((u.core 0).task.reg 3).toNat = 9 ∧ (u.core 0).task.agenda.length = 1)
        | _ => false)
      | _ => false) = true := by decide +kernel

def loadRp : Replay := { instr := .ldx g0 5 40 2 1 }
def atomRp : Replay := { instr := .aaddW g0 0 0 5 8 9 }

theorem witness_AccessCommits :
    [Act.store 0 0x1FFFFF [1], .store 2 0 [1, 2], .xret loadRp (some 7) false 0 false, .xret atomRp (some 7) false 0 false, .link 3 9,
      .xperf { core := 1, face := 1, off := 8, op := .store [5] }, .xperf { core := 1, face := 1, off := 8, op := .atomic 0 4 1 0 }].all
        (fun a => stands (itemOf a)) = true ∧
      poisonIn (pendingState (itemOf (.link 0 0))) (faceLoc 1 1 8) 4 = none ∧
      (let k (n : Nat) := (pendingState (itemOf (.link 3 9)) fun k => { k with fifo := [(3, List.replicate n 7)] }).core 0
       linkBehind (k 15) 3 0 = false ∧ (smGet [] (k 15).fifo 3).length < 16 ∧ linkBehind (k 16) 3 0 = false ∧ 16 ≤ (smGet [] (k 16).fifo 3).length) ∧
      netAhead (pendingState (itemOf (.link 0 0))) 0 { itemOf (.xperf { core := 1, face := 1, off := 8, op := .store [5] }) with net := true } = [] ∧
      (let k := (pendingState (itemOf (.link 0 0)) fun k => { k with fmtq := [(0, 9)] }).core 0
       k.fmtq = [(k.bundles, 9)]) := by decide +kernel

/-- A store of two bytes at C offset 8 writes those two and not the next (R415). -/
theorem test_store_commit :
    (match exec (.localStoreCommit 0 false 0) (pendingState (itemOf (.store 2 8 [0x11, 0x22]))) with
      | .next t => decide (readBytes t.mem (faceLoc 0 2 7) 4 = [0, 0x11, 0x22, 0])
      | _ => false) = true := by decide +kernel

def gAtom : GAtom := { org := {}, cell := 0x80, op := 0, n := 4, b := 5, c := 0, ret := none, acc := 0, grouped := none, relp := 0, due := 0, serial := 0 }

theorem witness_AtomicUnitAndRetire :
    let s : State := { State.reset with work := [], hbms := [(0, { units := [gAtom] })] }
    let e := onCore { stage := .ending }
    (s.hbm 0).units = [gAtom] ∧ gAtom.isDue s = true ∧ s.badBurst gAtom.cell = false ∧ gAtom.org.core < 384 ∧ (State.reset.hbm 0).units = [] ∧
      (e.core 0).stage = .ending ∧ (e.core 0).frozen = none ∧ (e.core 0).task.outst = [] ∧ ((running []).core 0).stage ≠ .ending := by
  decide +kernel

/-- The one waiting thread of core 0, at tick 5. -/
def waiting (w : Wait) (f : Core → Core := id) : State :=
  { onCore (f { stage := .running, task := { wait := some w } }) with regions := [(0, { hw := 5 })] }

/-- A fence with nothing to wait for and one behind an access that has not performed. -/
theorem witness_WaitsEnd_fence :
    let s := waiting (.fence 3 1 0 0 .nothing)
    let u := waiting (.fence 3 1 0 0 .nothing) fun k => { k with task := { k.task with outst := [{ id := 0 }] } }
    fenceOver s 0 false 3 1 0 (s.tick 0 false) = true ∧ fenceOver u 0 false 3 1 0 (u.tick 0 false) = false := by decide +kernel

/-- A flag that equals, one that is not there yet, one that reads 0xE0 in its top byte; a generation that has moved on, one that has not;
a completion counter that has reached its count, and one 2^31 short; an instance unknown; an intake with room. -/
theorem witness_WaitsEnd_rest :
    let flag : Wait := .flag 5 (faceLoc 0 0 0) 0 7
    let v (m : Memory) : Word := BitVec.ofNat 64 (leNat (readBytes m (faceLoc 0 0 0) 8))
    (((waiting flag).thread 0 false).wait = some flag ∧ flagCond 0 (v [(faceLoc 0 0 0, 7)]) 7 = true ∧ flagCond 0 (v []) 7 = false ∧
      wfld (v [(faceLoc 0 0 7, 0xE0)]) 63 56 = 0xE0 ∧ wfld (v []) 63 56 ≠ 0xE0) ∧
    (((waiting (.arrive 0 1 5)).core 0).task.wait = some (.arrive 0 1 5)) ∧
    (barrierEnd { gen := 1 } 0 = some 0 ∧ barrierEnd {} 0 = none ∧ barrierEnd { err := true } 0 = some 0xE0) ∧
    ((wfld (5 : Word) 31 0 + 2 ^ 32 - 5) % 2 ^ 32 < 2 ^ 31 ∧ 2 ^ 31 ≤ (wfld (0 : Word) 31 0 + 2 ^ 32 - 2 ^ 31) % 2 ^ 32) ∧
    (((waiting (.inst 5 9 false)).core 0).handler = none ∧ (gwaitValue (waiting (.inst 5 9 false)) 9).isSome = true) ∧
    (((waiting (.intake 5 false 0 0 [] 0)).core 0).task.wait = some (.intake 5 false 0 0 [] 0) ∧ intakeUsed (waiting (.intake 5 false 0 0 [] 0)) < 64) := by
  decide +kernel

/-! The engines: one command of core 0. -/

def copyOne (fill : Option HWord) : CopyCmd :=
  { id := 7, org := {}, start := 10, len := 600, dsts := [{ core := 0, face := 1, off := 0x100, known := true }], fill := fill }

/-- The start, the last read and the last beat of a copy of 600 bytes, a fill of the same length, a beat to come and a write held. -/
theorem witness_CopySteps :
    let f (x : CopyCmd) (k : Core) : Core := { k with copies := [x] }
    let c := copyOne none
    stands (itemOf (.copyStart 7)) (f c) = true ∧ stands (itemOf (.copyStart 7)) (f (copyOne (some 3))) = true ∧
      stands (itemOf (.copyRead 0 7 2)) (f c) = true ∧ stands (itemOf (.fillBeat 7 1)) (f (copyOne (some 3))) = true ∧
      stands (itemOf (.copyBeat 0 7 0 2 1 0x300 [1, 2] false true)) (f c) = true ∧ stands (itemOf (.store 1 0 [1])) = true ∧
      (let s := pendingState (itemOf (.copyRead 0 7 2)) (f c)
       (s.core 0).copy 7 = some c ∧ copyOperand s 0 c 2 = none ∧ c.sknown = true ∧ c.dsts.all (fun d => d.known && d.face < 4) = true ∧
         netAhead s 0 (itemOf (.copyBeat 0 7 0 2 1 0x300 [1, 2] true false)) = []) := by decide +kernel

def fabOne (kind : Nat) : FabOp := { id := 0, org := {}, kind := kind, cc := 0, fwin := 0, foff := 0, len := 64 }

/-- A request to a window not exported, and one operation of window 0, which names package 0 while this one is 1,023. -/
theorem witness_FabricSteps :
    let s (kind : Nat) := onCore { stage := .running, fabs := [fabOne kind] }
    wfld (smGet {} State.reset.exptab 0).w0 63 63 = 0 ∧
      [0, 1, 2].all (fun k => ((s k).core 0).fab 0 = some (fabOne k) && !olderFab ((s k).core 0) (fabOne k) && !ownWindow (s k) 0) = true ∧
      (fabOne 0).org.core < 384 ∧
      (match exportedWrite { State.reset with exptab := [(0, ⟨0x8002000000000000, 0x1000⟩)], ftlb := [⟨0xF80, 0⟩] } 0 0 2 with
        | .ok ps => decide (ps = [0, 8])
        | .error _ => false) = true := by decide +kernel

def cubeOne (kind : Nat) : XCmd := { id := 7, org := {}, kind := kind, start := 10, occ := 1, lmask := 3, m := 8, n := 8, k := 16, fmt := 64 }
def drainOne : XCmd := { id := 7, org := {}, kind := 9, start := 10, occ := 1, m := 1, n := 8, daddr := 0x40, ofmt := 0, dspc := 2 }

/-- Each item stands for its command; a CUBE.FMT and a row of CUBE.RESC without a fault; the one piece of a drain of one row of 8. -/
theorem witness_CubeSteps :
    let f (x : XCmd) (k : Core) : Core := { k with cubes := [x], lavail := 128 }
    [(7, Act.cubeStart 7), (11, .cubeRead 7 3 7), (8, .zeroRow 7 7), (11, .resc 7 0x100 [1, 2]), (10, .pline 7 7), (10, .side 7 2),
      (6, .latch 7), (9, .drain 7 0)].all (fun p => stands (itemOf p.2) (f (cubeOne p.1)) &&
        decide (((pendingState (itemOf p.2) (f (cubeOne p.1))).core 0).cube 7 = some (cubeOne p.1))) = true ∧
      cubeFault (pendingState (itemOf (.cubeRead 7 3 7)) (f (cubeOne 11))) 0 (itemOf (.cubeRead 7 3 7)) = none ∧
      drainOne.pieces.getD 0 [] = [(0x40, 32)] ∧ bit (f (cubeOne 0) {}).lavail 7 = true ∧ bit (f (cubeOne 0) {}).lavail 0 = false := by
  decide +kernel

def markOne (inv : Option Nat) : Marker := { id := 7, org := {}, qsel := 1, r0 := 0, ahead := [], off := 0x100, val := 5, inv := inv }

/-- A command posted, the items of each step, an LFENCE of a lease of one bank, a MARK that is due, a marker of an invalidation. -/
theorem witness_TimelineSteps :
    let l : Lease := { entry := { slots := [(0, 5, 9)] } }
    let s (p : Pending) := pendingState p fun k => { k with tlq := [{ id := 7, org := {}, op := 0, stamp := 16, tick := 16 }], lease := l }
    let m (i : Option Nat) := onCore { stage := .running, markers := [markOne i] }
    [Act.deliver {} 0 0x1FFFC0 [1] false, .mcmp 0x10 9, .visible 0x80 [1] false, .memop 9 0 0 16, .lfence 0].all
        (fun a => decide ((s (itemOf a)).findItem 0 false 0 = some (itemOf a))) = true ∧
      ((s (itemOf (.lfence 0))).core 0).tlq.any (fun y => y.id = 7) = true ∧ ((s (itemOf (.lfence 0))).core 0).lease.entry.slots = [(0, 5, 9)] ∧
      4 * stackOf 0 + 0 = 0 ∧ (markOne none).due ((m none).core 0) ((m none).tick 0 false) = true ∧
      poisonIn (m none) (faceLoc 0 2 0x100) 8 = none ∧ ((m (some 3)).core 0).markers = [markOne (some 3)] := by decide +kernel

/-- After MARK_COMPLETE the target word holds 5 more (R430). -/
theorem test_mark_complete :
    let s : State := { onCore { stage := .running, markers := [markOne none] } with mem := [(faceLoc 0 2 0x100, 2)] }
    (match exec (.markComplete 0 7) s with
      | .next t => decide (readBytes t.mem (faceLoc 0 2 0x100) 2 = [7, 0])
      | _ => false) = true := by decide +kernel

/-- Core 0 leads PC 0 of stack 0 at tick `hw` of its region, with TBASE `base`. -/
def holeState (hw base : Word) (h : Hbm) : State :=
  { leaseState with cores := [(0, { leaseCore with tbase := base })], regions := [(0, { hw := hw })], hbms := [(0, h)] }

/-- The first stamp of the hole of frame 0 with row 0 of bank 0 open, the place of its first activation with nothing queued and with a
rescue due in bank 1, and the hole before a REBASE with a swap pending. -/
theorem witness_ControllerSteps :
    let o : Hbm := { banks := [(bankIx 0 0, { row := some 0 })] }
    let r : Hbm := { rescue := [(0, 1)] }
    let w : Hbm := { pcs := [(0, { swap := true })] }
    o.phys 0 0 = 0 ∧ o.phys 0 1 = 1 ∧ frameTick (holeState 4032 0 o) 0 0 = 4032 ∧ (o.pc 0).swap = false ∧
      (o.bank 0 0).row = some (smGet 0 o.scrub (bankIx 0 0)) ∧ ctlClear (holeState 4032 0 o) 0 0 3 0 4046 [] = true ∧
      frameTick (holeState 4048 0 {}) 0 0 = 4048 ∧ ctlClear (holeState 4048 0 {}) 0 0 8 64 4048 [] = true ∧
      (({} : Hbm).bank 0 1).row = none ∧ ({} : Hbm).drfm = [] ∧ ({} : Hbm).rescue = [] ∧ ({} : Hbm).backlog = [] ∧
      frameTick (holeState 4048 0 r) 0 0 = 4048 ∧ ctlClear (holeState 4048 0 r) 0 0 8 64 4048 [] = true ∧ (r.bank 0 1).row = none ∧ r.drfm = [] ∧
      r.phys 0 1 = 1 ∧ (0, 1) ∈ r.rescue ∧ frameTick (holeState 0 64 w) 0 0 < 0 ∧ (w.pc 0).swap = true ∧
      ((State.reset.hbm 15).pc 0).mode ≠ 1 ∧ (State.reset.hbm 15).band < bandOf 460 := by decide +kernel

def heelOne (holds : Bool) (rel : Option Nat) : Heel := { target := 5, fpc := 0, fword := 0, holds := holds, released := rel, fresh := false }

/-- Core 0 at tick 5, the target of its HEEL; a pack whose member holds and is shown to hold; 24 ticks behind the target. -/
theorem witness_AlignmentSteps :
    let s (hw : Word) (h : Heel) : State :=
      { onCore { stage := .running, heel := some h, snapHold := some 5 } with
        regions := [(0, { hw := hw, lock := true })], packs := [(0, { members := [0], inst := 0, node := 0 })] }
    let lost (t : Nat) (l : Bool) : State := { s 5 (heelOne false none) with regions := [(0, { hw := 5, lock := l, lost := some t, breach := some t })] }
    (heelOne false none).holds = false ∧ (s 5 (heelOne false none)).tick 0 false = 5 ∧ ((s 5 (heelOne false none)).region 0).lock = true ∧
      ((s 5 (heelOne false none)).region 0).lost = none ∧ ((s 5 (heelOne false none)).region 0).breach = none ∧
      ((lost 4 true).modCore 0 fun k => { k with aligned := 5 }).region 0 = { hw := 5, lock := true, lost := some 4, breach := some 4 } ∧
      ((lost 4 false).region 0).lock = false ∧ (lost 4 false).tick 0 false = 5 ∧
      (let u := s 5 (heelOne true none)
       (u.pack 0).map (fun p => (u.liveMembers p, p.freeze)) = some ([0], none) ∧ holdsAt u 0 = some 5 ∧ (u.core 0).snapHold = some 5 ∧
         (smFind u.cores 0).isSome = true) ∧
      5 + 24 ≤ (s 29 (heelOne true (some 0))).tick 0 false := by decide +kernel

/-- The frozen pack of the handler words; a pack to dispatch whose KENNEL names packet 9; a member that stops 20 ticks behind; a handler. -/
theorem witness_FreezeSteps :
    let z : Freeze := { phi := 0, primary := 1, wall := 0 }
    let s (z : Freeze) (k : Core) (hw : Word) : State :=
      { State.reset with
        work := [], cores := [(1, { k with packid := 0x500000000, stage := .running })], regions := [(0, { hw := hw })],
        packs := [(5, { members := [1], inst := 0, node := 0, freeze := some z })] }
    let held : Frozen := { held := 3, phi := 0 }
    let d := s z { frozen := some held, kennel := 0x2800000009 } 0
    stopsNow (s z {} 20) 1 = true ∧ stopsNow (s z {} 19) 1 = false ∧ ((d.pack 5).map fun p => d.liveMembers p) = some [1] ∧
      (d.core 1).frozen.isSome = true ∧ wfld (d.core 1).kennel 47 32 ≠ 0 ∧ (d.region 0).waiters = [] ∧ freeCtx d 0 = some 0 ∧
      ((handling {}).core 0).handler.isSome = true ∧ ((handling {}).core 0).hserial = 0 ∧ ((handling {}).core 0).hserial ≠ 1 ∧
      (let u := s { z with resuming := true } { frozen := some held } 0
       ((u.pack 5).map fun p => (u.liveMembers p, p.epoch)) = some ([1], 0) ∧ (u.core 1).frozen = some held) := by decide +kernel

/-! The package: power, jobs, the host, the walker, the shepherds. -/

def withPsc (p : Psc) : State := { State.reset with work := [], psc := p }

theorem witness_PowerSteps :
    let s : State := { withPsc { jstate := 2, emergency := true } with now := 18000000, regions := [(3, { nextStep := some 12 })] }
    (s.region 3).nextStep = some 12 ∧ s.psc.tripped = false ∧ 21000 < 21001 ∧ s.psc.emergency = true ∧ s.jobRuns = true ∧
      s.psc.jserial = 0 ∧ s.psc.whistleNext = none ∧ s.psc.whistleAt + 5400000 ≤ s.now ∧ (smFind s.regions 3).isSome = true ∧
      s.psc.emCalm + 18000000 ≤ s.now := by decide +kernel

/-- A phase table at 0x1000 whose entry 0 has its root object at 0x2000 and the refresh step 1; `n` is the first byte of the object. -/
def phaseImage : Image := { phtab := 0x1000, nphase := 1 }
@[inherit_doc phaseImage] def phaseState (n : Byte) : State :=
  { withPsc { booted := true, jstate := 1, image := some phaseImage } with
    mem := [(0x1011, 0x20), (0x1030, 1)] ++ (if n = 0 then [] else [(0x2000, n)]) }

/-- With no refresh step the entry is malformed. -/
theorem witness_JobSteps :
    let s := phaseState 0
    wfld (0x8000000000000000 : Word) 63 63 = 1 ∧ s.psc.booted = true ∧ s.jobRuns = true ∧ (withPsc { booted := true }).jobRuns = false ∧
      s.psc.phaseOpen = false ∧ s.packs = [] ∧ badPhase { s with mem := [] } phaseImage = true ∧ badPhase s phaseImage = false ∧
      (phaseWord s phaseImage 2).toNat = 0x2000 ∧ badPhase (phaseState 1) phaseImage = false ∧
      State.reset.psc.booted = false ∧ State.reset.psc.jstate ≠ 4 := by decide +kernel

/-- A package that a trip has cut off, with region 2 at 60 °C and with every sensor below it. -/
theorem witness_JobSteps_trip :
    let s (hot : Nat) : State := { withPsc { booted := true, tripped := true } with regions := [(2, { temps := [hot] })] }
    (s 240).psc.booted = true ∧ (s 240).psc.tripped = true ∧ 2 < 16 ∧ 240 ≤ ((s 240).region 2).hot ∧
      ∀ r, r < 16 → ((s 239).region r).hot < 240 := by decide +kernel

/-- Whichever banks retire at the boundary, an object of no nodes passes step 4 and the checks of steps 5 and 6, with a lease entry that
names a PC beyond 63 step 6 fails, and an object whose one node has no window fails at step 4. -/
theorem witness_JobSteps_bind :
    let f := bindFront (phaseState 0) phaseImage
    let g := bindFront (phaseState 1) phaseImage
    (∃ u, fillRoot f 0x2000 (min 4096 (nNode f 0x2000)) = .ok (u, []) ∧
      exportsSealed phaseImage (readTable u (phaseWord u phaseImage 9).toNat) (allEntries []) = none ∧
      ∀ v k, stepSix v [] k (leaseRefs v 0x2000 []) = none ∧ ∃ e, stepSix v [{ slots := [(0, 64, 0)] }] k (leaseRefs v 0x2000 []) = some e) ∧
    ∃ e, fillRoot g 0x2000 (min 4096 (nNode g 0x2000)) = .error e := by
  have rf : ReadsAs (phaseState 0) (bindFront (phaseState 0) phaseImage) :=
    readsAs_bindFront _ _ (by decide +kernel) (by decide +kernel)
  have rg : ReadsAs (phaseState 1) (bindFront (phaseState 1) phaseImage) :=
    readsAs_bindFront _ _ (by decide +kernel) (by decide +kernel)
  have nf : nNode (bindFront (phaseState 0) phaseImage) 0x2000 = 0 := by
    rw [nNode, gword, readPhys64_readsAs rf]
    decide +kernel
  have ng : nNode (bindFront (phaseState 1) phaseImage) 0x2000 = 1 := by
    rw [nNode, gword, readPhys64_readsAs rg]
    decide +kernel
  have wg : wfld (nodeWord (bindFront (phaseState 1) phaseImage) 0x2000 0 1) 39 32 = 0 := by
    rw [nodeWord, gword, readPhys64_readsAs rg]
    decide +kernel
  generalize bindFront (phaseState 1) phaseImage = g at ng wg ⊢
  have eg : ∃ e, rootWins g 0x2000 1 = .error e := ⟨_, by simp only [rootWins, windowList, wg]; rfl⟩
  obtain ⟨e, he⟩ := eg
  refine ⟨⟨_, by rw [nf]; rfl, ?_, fun v k => ⟨rfl, _, rfl⟩⟩, e, by rw [ng, fillRoot, show min 4096 1 = 1 from rfl, he]⟩
  simp [exportsSealed, allEntries]

theorem witness_HostRegisterSteps :
    let s := withPsc {}
    (1 : Word).getLsbD 0 = true ∧ s.jobRuns = false ∧ (withPsc { jstate := 2 }).jobRuns = true ∧
      [0, 2 ^ 36 - 1].all (fun a => !inSealedRange s (s.psc.hwbase.toNat + a) && !inSealedGraph s (s.psc.hwbase.toNat + a) 1) = true := by
  decide +kernel

theorem witness_MailboxSteps :
    let s := withPsc {}
    let u := withPsc { jstate := 1, sigidx := 2 ^ 20 }
    (List.replicate 32 (0 : Byte)).length = 32 ∧ s.jobRuns = false ∧ u.jobRuns = true ∧ s.psc.sigidx < 2 ^ 20 ∧ 2 ^ 20 ≤ u.psc.sigidx ∧
      s.psc.pfail = [] ∧ 2000 % 50 = 0 ∧ 10000 % 50 = 0 := by decide +kernel

/-- A node of two packs of one task, priority 1, one window whose descriptor stands at 0x40. -/
def nodeOne : Node := { desc := [0x0001000100010002, 0x100010000, 0x40], comp := { remain := 2 } }
def instOne (n : Node) : Inst := { obj := 0, objva := 0, slot := 0, serial := 0, nodes := [(0, n)] }
def walkerState (n : Node) (w : Walker) : State :=
  { State.reset with
    work := [], now := 18000000, mem := [(0x40, 0x80), (0x41, 7), (0x50, 1)], walker := { w with insts := [(4, instOne n)] } }
def entryOne : Ready := { inst := 4, node := 0, since := 0 }

theorem witness_WalkerSteps :
    let s (w : Walker) := walkerState nodeOne w
    let y : SealOp := { undo := false, base := 0, off := 8, org := {}, gate := 0, acc := 0 }
    launchOver (s {}) 4 0 = false ∧ launchOver (walkerState { nodeOne with comp := {} } {}) 4 0 = true ∧
      ((s { held := [(4, 0)] }).node? 4 0).isSome = true ∧ (smGet [] (s { held := [(4, 0)] }).walker.queues nodeOne.prio).length < 4096 ∧
      (let t := s { queues := [(2, [entryOne])], takes := [(3, 2)] }
       t.walker.takes = [(3, 2)] ∧ headEntry t = some (2, entryOne) ∧ (t.node? entryOne.inst entryOne.node).map (fun x => (x.unclaimed, x.back)) = some (2, [])) ∧
      nodeOne.wins = none ∧
      (let t := walkerState { nodeOne with wins := some [] } { queues := [(2, [entryOne])], takes := [(3, 2)] }
       headEntry t = some (2, entryOne) ∧ (t.node? 4 0).map (fun x => (x.wins, x.cands)) = some (some [], [])) ∧
      (s {}).walker.takes = [] ∧
      (let full := s { queues := (List.range 4).map fun k => (k, List.replicate 4096 { entryOne with node := 7 }) }
       (List.range 4).all (fun k => 4096 ≤ (smGet [] full.walker.queues k).length && (smGet [] full.walker.queues k).all fun z => z.node ≠ 0)) = true ∧
      (let a := s { queues := [(2, [entryOne])] }
       smGet [] a.walker.queues 3 = [] ∧ entryOne.raised + 18000000 ≤ a.now ∧ nodeHeld a 4 0 = false ∧ headEntry a = some (2, entryOne) ∧
         (a.node? 4 0).map (fun x => (x.unclaimed, x.back)) = some (2, [])) ∧
      Node.placeable { nodeOne with claimed := 1 } 0 = true ∧ nodeOne.placeable 0 = false ∧ nodeOne.st = .waiting ∧
      ((s {}).instance? 4).map (·.windows) = some false ∧ isOk (windowList (s {}) 0 nodeOne.winlist.1 nodeOne.winlist.2) = true ∧
      sealDue (s { seals := [y] }) y = true := by decide +kernel

/-- A record of the first pack of that node for slot 0 of region 0, member 0 of 1, refresh step 1, lease entry 0. -/
def recordOne : List Word := [0x8000000000000000, 0, 0x10000, 0, 0x10000, 0x0001000000000040, 0, 0]
def recordState (slots : List (List Word)) (k : Core) : State :=
  { walkerState { nodeOne with claimed := 1 } {} with
    leases := [{}], cores := [(0, { k with lavail := 1 })], regions := [(0, { slots := [(0, slots)] })] }

theorem witness_RecordSteps :
    let s := recordState [recordOne] {}
    recordCode (recordState [] {}) 0 0 recordOne = 0 ∧ recordCode (recordState [] {}) 0 0 [] = 2 ∧ slotOfCore 0 = 0 ∧
      (smGet [] (s.region 0).slots 0).length = 1 ∧ smFind (s.region 0).preload 0 = none ∧
      smFind ((s.modRegion 0 fun r => { r with preload := [(0, 9)] }).region 0).preload 0 = some 9 ∧ (s.core 0).stage = .free ∧
      (s.core 0).handler = none ∧ isOk (windowList s 0 (wfld (rWord recordOne 5) 47 0) (wfld (rWord recordOne 5) 55 48)) = true ∧
      headRecords s 0 = [(0, recordOne)] ∧ recordOwner s recordOne = some 4 ∧ recRestore recordOne = false ∧
      (smFind ({ s with releases := [(0, 5)] } : State).releases 0).isSome = true ∧ s.walker.doomed = [] ∧ isOk (preloadList s 0 recordOne) = true ∧
      (let d : Doomed := { group := 0, inst := 4, node := 0, tasks := [(0, 0)] }
       ({ s with releases := [(0, 5)], walker := { s.walker with doomed := [d] } } : State).walker.doomed = [d] ∧ d.group = 0) := by decide +kernel

/-- Every check of R231 passed; the list of a node with a window that no second-level
entry covers but with a poisoned descriptor. -/
theorem witness_RecordSteps_checks :
    let s := recordState [] {}
    recBad s 0 recordOne = false ∧ (recordOwner s recordOne).isSome = true ∧
      badLease s 0 (recGroup recordOne) (recLease s recordOne) (wfld (rWord recordOne 4) 15 12) = false ∧ (s.core 0).lavail ≠ 0 ∧
      Nat.land (wfld (rWord recordOne 6) 7 0) (s.core 0).lavail = wfld (rWord recordOne 6) 7 0 ∧ badPack s 0 recordOne = false ∧
      badOrder s 0 (recGroup recordOne) [] = false ∧
      isOk (preloadList { recordState [recordOne] {} with mem := [(0x40, 0x81)] } 0 recordOne) = false := by decide +kernel

theorem witness_RecordSteps_shepherd :
    let a := walkerState nodeOne { queues := [(2, [entryOne])] }
    readyPrios a 4 = [2] ∧ readyPrios a 7 = [] ∧ runningPrios (instOne nodeOne) = [] ∧ (instOne nodeOne).hold = false ∧
      ({ instOne nodeOne with hold := true } : Inst).hold = true ∧
      isOk (tlbFill State.reset (State.reset.core 0).tlb 384 383 ⟨0x780, 0⟩) = true ∧
      isOk (tlbFill State.reset (State.reset.core 0).tlb 384 384 ⟨0x780, 0⟩) = false ∧
      isOk (tlbFill State.reset (State.reset.region 0).l2 8192 8191 ⟨0x780, 0⟩) = true ∧ markersIn (State.reset.core 0) 1 < 16 ∧ markersIn (State.reset.core 0) 2 < 16 ∧
      16 ≤ markersIn ((onCore { markers := List.replicate 16 (markOne (some 0)) }).core 0) 1 ∧
      smGet [] (State.reset.region 0).slots 0 = [] ∧ (State.reset.core 0).stage = .free ∧ gatedCore State.reset 0 = false := by decide +kernel

/-- A region in each state of power. -/
theorem witness_GatingSteps :
    let s (p : Power) : State := { State.reset with now := 900000, regions := [(3, { power := p })], ramps := [3] }
    powerOf (s (.idle 0)) 3 = .idle 0 ∧ 0 + ((s (.idle 0)).region 3).holdFor ≤ (s (.idle 0)).now ∧ regionIdle (s (.idle 0)) 3 = true ∧
      powerOf State.reset 31 = .awake ∧ hbmIdle State.reset 15 = true ∧ powerOf { s .awake with hbms := [(15, { power := .idle 0 })] } 31 = .idle 0 ∧
      hbmIdle { s .awake with hbms := [(15, { power := .idle 0 })] } 15 = true ∧ 0 + 900000 ≤ (s .awake).now ∧
      powerOf (s (.gating 0)) 3 = .gating 0 ∧ refPeriod 0 ≠ refPeriod (s (.gating 0)).now ∧ refPeriod 899999 ≠ refPeriod 900000 ∧
      refPeriod 900000 = refPeriod (s (.gating 900000)).now ∧ ({ s (.gating 0) with ramps := [] } : State).ramps = [] ∧
      powerOf (s .gated) 3 = .gated ∧ (s .gated).psc.tripped = false ∧ (withPsc { tripped := true }).psc.tripped = true ∧
      (s .queued).ramps.head? = some 3 ∧ ramping (s .queued) < 2 ∧ State.reset.ramps.head? ≠ some 3 ∧ powerOf (s .ramping) 3 = .ramping := by
  decide +kernel

/-- A task of a pack of two with no freeze, and with one that its packmate has begun; the primary is the earlier fault. -/
theorem witness_FaultEntry :
    let s := leaseState
    (s.core 0).frozen = none ∧ (s.core 0).group = 0 ∧ (s.pack 0).map (fun p => (p.members, p.freeze)) = some ([0, 1], none) ∧
      (s.pack 0).map s.liveMembers = some [0, 1] ∧ ((handling {}).core 0).handler.isSome = true ∧
      (let u := takeFault s 1 false 9 { code := 9, src := 3 }
       (u.core 0).frozen = none ∧ ((u.pack 0).bind (·.freeze)).map (fun z => (z.primary, z.phi)) = some (1, 9) ∧
         (((takeFault u 0 false 4 { code := 9, src := 3 }).pack 0).bind (·.freeze)).map (fun z => (z.primary, z.phi)) = some (0, 4)) := by
  decide +kernel

/-! The clauses that no witness above meets. -/

/-- A handler of core 0 with one item pending, beside the task. -/
def handlerPending (p : Pending) : State :=
  { onCore { handler := some { regs := [(3, 9)], agenda := [p], nid := 1 } } with cur := { core := 0, hd := true } }

/-- A result of three destinations, the bypass last, and one of a handler for a register and a predicate (R303). -/
theorem witness_ResultCommits_more :
    stands (itemOf (.result replayed { writes := [(.sreg 5, 7), (.mat 3, 8), (.bypass, 9)], flags := 16 })) = true ∧
      ([(Dest.sreg 5, (7 : Vec)), (.mat 3, 8), (.bypass, 9)].getLast? = some (.bypass, 9)) ∧
      (let q := itemOf (.result replayed { writes := [(.sreg 5, 7), (.pred 3, 1)] })
       let s := handlerPending q
       s.findItem 0 true 0 = some q ∧ (s.core 0).handler.isSome = true) := by decide +kernel

/-- The return of an MLDX, of a G atomic with its slot; the boundary values of the table of R441 at both widths; a swap that has no register. -/
theorem witness_AccessCommits_more :
    [Act.xret { instr := .mldx g0 9 40 } (some 7) false 0 false, .xret { instr := .axchgD g0 1 0 5 8 9 } (some 7) false 0 true,
      .xret { instr := .acasW g0 0 0 5 8 9 } (some 7) false 0 false].all (fun a => stands (itemOf a)) = true ∧
      atomDest (.axchgD g0 1 0 5 8 9) = some 37 ∧ 2 ^ 32 - 1 < 2 ^ (8 * 4) ∧ 2 ^ 64 - 1 < 2 ^ (8 * 8) := by decide +kernel

/-- An Ending task with a PUT that has been sent, one with an access that has not performed, and one that is frozen. -/
theorem witness_AtomicUnitAndRetire_more :
    let x : FabOp := { id := 0, org := {}, kind := 0, cc := 0, fwin := 0, foff := 0, len := 64, data := List.replicate 64 0, acc := 4 }
    let e (k : Core) := onCore { k with stage := .ending, task := { outst := [{ id := 4 }] } }
    (((e { fabs := [x] }).core 0).task.outst.all fun o => ((e { fabs := [x] }).core 0).fabs.any fun y => y.acc = o.id && y.isSent) = true ∧
      (((e {}).core 0).task.outst.all fun o => !o.over ((e {}).tick 0 false) && ((e {}).core 0).fabs.isEmpty) = true ∧
      ((e { frozen := some { held := 3, phi := 0 } }).core 0).frozen ≠ none := by decide +kernel

/-- The handler of a frozen core waits for an instance. -/
theorem witness_WaitsEnd_handler :
    let s := onCore { frozen := some { held := 3, phi := 0 }, handler := some { wait := some (.inst 5 9 false) } }
    let u := onCore { frozen := some { held := 3, phi := 0 } }
    (s.core 0).frozen.isSome = true ∧ ((s.core 0).handler.bind (·.wait)) = some (.inst 5 9 false) ∧ (gwaitValue s 9).isSome = true ∧
      (u.core 0).frozen.isSome = true ∧ (u.core 0).handler = none := by decide +kernel

theorem witness_CopySteps_more :
    stands (itemOf (.xperf { core := 1, face := 1, off := 8, op := .store [5] })) = true ∧
      stands (itemOf (.copyBeat 0 7 0 2 1 0x300 [1, 2] true false)) = true ∧ stands (itemOf (.copyBeat 0 7 0 2 1 0x300 [1, 2] false false)) = true ∧
      linesOf (faceLoc 0 1 0x300) 2 ≠ [] ∧
      (let data : List Byte := List.replicate 64 5
       stands (itemOf (.copyBeat 0 7 0 2 1 0x300 data false false)) = true ∧ faceLoc 0 1 0x300 % 64 = 0 ∧ data.length = 64) := by decide +kernel

/-- Package 1,023 itself: window 2 of its export table gives every right over 4 KiB, and its own fabric window 0 leads there. -/
def ownState (x : FabOp) : State :=
  { onCore { stage := .running, fabs := [x] } with
    exptab := [(2, ⟨0x8007000000000000, 0x1000⟩)], ftlb := [⟨0xF80, 0⟩], fwtab := [(0, ⟨0x8000000700000000 + 1023 * 256 + 2, 0x1000⟩)] }

theorem witness_FabricSteps_own :
    let s := ownState (fabOne 1)
    [0, 1, 2].all (fun r => isOk (exported s 2 0 8 r)) = true ∧ isOk (exported s 2 0 4 2) = true ∧ isOk (exported s 2 0xFF8 8 0) = true ∧
      isOk (exported s 2 0x1000 8 0) = false ∧ wfld (smGet {} s.exptab 2).w1 39 0 < 0x1000 + 8 ∧
      [fabOne 1, fabOne 2, { fabOne 2 with ret := true }, { fabOne 0 with len := 8, data := [1, 2, 3, 4, 5, 6, 7, 8] }].all (fun x =>
        ownWindow (ownState x) 0 && ((ownState x).core 0).fab 0 = some x && !olderFab ((ownState x).core 0) x) = true ∧
      (fabOne 2).ret = false ∧ wfld (smGet {} s.fwtab 0).w0 7 0 = 2 := by decide +kernel


/-- A command of two layers and one of one layer, BF16, K 16; its results on the last diagonal; a step of the stream; an INT8 command. -/
theorem witness_CubeSteps_more :
    let f (x : XCmd) (k : Core) : Core := { k with cubes := [x], lavail := 128 }
    let m : XCmd := { cubeOne 0 with afmt := 1, bfmt := 1 }
    let o : XCmd := { m with lmask := 1 }
    (stands (itemOf (.cubeRead 7 0 0)) (f o) && stands (itemOf (.cubeRes 7 0 14)) (f m)) = true ∧
      ((pendingState (itemOf (.cubeRead 7 0 0)) (f o)).core 0).cube 7 = some o ∧
      ((pendingState (itemOf (.cubeRes 7 0 14)) (f m)).core 0).cube 7 = some m ∧
      cubeFault (pendingState (itemOf (.cubeRead 7 0 0)) (f o)) 0 (itemOf (.cubeRead 7 0 0)) = none ∧ m.n ≤ 64 ∧ 1 < o.tau ∧
      (7, 7) ∈ diagonal m.m m.n 14 ∧ m.layers = [0, 1] ∧ o.layers = [0] ∧ o.stepsAt 0 0 ≠ [] ∧ o.readsA = true ∧ o.readsW = true ∧
      m.fp4 = false ∧ m.kind ≤ 1 ∧ isIntFmt m.afmt = false ∧ isIntFmt 5 = true := by decide +kernel

/-! A command of core 0 presented at stamp 16 on PC 0 of stack 0, bank 0, row 0. -/

def tlCmd (op : Nat) (bs : List Burst) : TlCmd := { id := 7, org := {}, op := op, stamp := 16, tick := 16, bursts := bs, rows := [0], face := 2 }
/-- The bank open at a row, or not; what has been presented to the PC. -/
def tlState (x : TlCmd) (row : Option Nat) (hist : List Pres) : State :=
  { State.reset with
    work := [], cores := [(0, { stage := .running, tlq := [x] })],
    hbms := [(0, { lock := true, banks := [(bankIx 0 0, { row := row })], pcs := [(0, { hist := hist })] })] }

/-- An ACT of a closed bank, a PRE and bursts of its open row, a refresh, each without a fault. -/
theorem witness_TimelineSteps_performs :
    let ok (op : Nat) (bs : List Burst) (row : Option Nat) : Bool :=
      let x := tlCmd op bs
      let s := tlState x row []
      decide ((s.core 0).tlq.find? (fun y => y.id = 7) = some x) && (presentFault s 0 x (x.show s 0)).isNone && (burstOperand s 0 x).isNone &&
        decide ((x.show s 0).banks = [0]) && decide ((x.show s 0).rows = [0]) && decide ((x.show s 0).rel = 16)
    (ok 0 [] none && ok 1 [] (some 0) && ok 7 [] none && ok 3 [⟨16, 0, 0⟩] (some 0) && ok 4 [⟨16, 0, 0⟩] (some 0)) = true := by decide +kernel

/-- A bus taken, another holder's command at the stamp, a burst of a row not open, an ACT of an open bank, and an ACT 40 ticks behind a PRE (R105: 48). -/
theorem witness_TimelineSteps_rejects :
    let sees (s : State) (x : TlCmd) : Bool := (s.hbm 0).lock && decide (((s.hbm 0).pc 0).hold ≤ ceilDiv s.now 10 * 10) && !fencing (s.core 0) 0 &&
      decide ((x.show s 0).hs = 0) && decide ((x.show s 0).pc = 0)
    let a := tlCmd 0 []
    let r := tlCmd 3 [⟨16, 0, 0⟩]
    let other : Pres := { stamp := 16, op := 3, bank := 4, core := 1 }
    let before : Pres := { stamp := -24, op := 1, bank := 0, core := 0 }
    let l : Lease := { entry := { slots := [(0, 0, 0)] } }
    let taken : State := { tlState r (some 0) [] with
      cores := [(0, { stage := .running, tlq := [{ r with org := { issued := 1 } }], lease := l }), (1, { stage := .running, tlq := [r], lease := l })], packs := [(0, { members := [0, 1], inst := 0, node := 0 })] }
    sees taken r = true ∧ busTaken taken 0 { r with org := { issued := 1 } } (r.show taken 0) = true ∧
      (let s := tlState r (some 0) [other]
       sees s r = true ∧ busTaken s 0 r (r.show s 0) = false ∧ seen s 0 0 0 = [other] ∧ other.core ≠ 0 ∧ other.stamp = (r.show s 0).rel) ∧
      (let s := tlState r (some 5) []
       sees s r = true ∧ busTaken s 0 r (r.show s 0) = false ∧ seen s 0 0 0 = [] ∧ ((s.hbm 0).bank 0 0).row ≠ some 0) ∧
      (let s := tlState a (some 5) []
       sees s a = true ∧ busTaken s 0 a (a.show s 0) = false ∧ seen s 0 0 0 = [] ∧ 0 ∈ (a.show s 0).banks ∧ ((s.hbm 0).bank 0 0).row.isSome = true) ∧
      (let s := tlState a none [before]
       sees s a = true ∧ busTaken s 0 a (a.show s 0) = false ∧ seen s 0 0 0 = [before] ∧ (a.show s 0).banks = [0] ∧ ((s.hbm 0).bank 0 0).row = none ∧
         ((s.hbm 0).bank 0 0).wmark = false ∧ ((s.hbm 0).bank 0 0).mmark = false ∧ ((s.hbm 0).bank 0 0).busy ≤ (a.show s 0).rel ∧
         (a.show s 0).rel < before.stamp + minGap ((s.hbm 0).pc 0).half before 0 0) := by decide +kernel

/-- Four activations of four bank groups in 24 ticks, and a fifth 4 ticks before the window of 64 is over (R105). -/
theorem witness_TimelineSteps_faw :
    let ps : List Pres := [0, 8, 16, 24].map fun t => { stamp := t, op := 0, bank := 0, core := 0 }
    let st : Int := 60
    (ps.all fun q => decide (q.stamp + minGap false { q with bank := 4 } 0 8 ≤ st)) = true ∧
      4 ≤ (ps.filter fun q => actClass q.op && decide (st < q.stamp + 64)).length := by decide +kernel

/-- The task of a pack with no freeze whose bank misses its refresh. -/
theorem witness_ControllerSteps_miss :
    let s := leaseState
    (s.core 0).frozen = none ∧ (s.core 0).group = 0 ∧ (s.pack 0).map (fun p => (p.members, p.freeze)) = some ([0, 1], none) := by decide +kernel

/-- A package booted and with power, and the boot of one never booted. -/
theorem witness_JobSteps_boot :
    let s := withPsc { booted := true }
    s.psc.booted = true ∧ s.psc.tripped = false ∧ State.reset.psc.booted = false ∧ wfld (0 : Word) 63 63 = 0 := by decide +kernel

/-- CMD 4 of 8 bytes and of 0, CMD 12; a request being served; a read and a write over an aligned boundary of eight bytes. -/
theorem witness_HostRegisterSteps_request :
    let s := withPsc {}
    let want (v : Word) : Option Ev := requestStep s.psc (wfld v 15 0) (wfld v 63 32) (wfld v 31 16)
    want 0x700080004 = some (.readEnergy 7) ∧ want 0x700000004 = none ∧ want 0x70008000C = none ∧ s.psc.serving = none ∧
      (withPsc { serving := some 7 }).psc.serving.isSome = true ∧ min 4 (8 - 6 % 8) = 2 ∧ 6 + 4 ≤ 2 ^ 36 ∧ 8 - 6 % 8 < 4 := by decide +kernel

/-- The tag being served, another one; entries that are there and those behind the last. Whether an image verifies is a free value: one clause
speaks of each case. -/
theorem witness_MailboxSteps_more :
    (withPsc { serving := some 7 }).psc.serving = some 7 ∧ (7 : Nat) ≠ 8 ∧ 16383 / 16 < 1024 ∧ 1024 ≤ 16384 / 16 ∧ 2 ^ 21 ≤ 2 ^ 23 / 4 ∧
      (2 ^ 23 - 1) / 4 < 2 ^ 21 ∧ 1975 < 2000 ∧ 2025 % 50 ≠ 0 ∧ (List.replicate 31 (0 : Byte)).length ≠ 32 ∧
      (withPsc { jstate := 2, image := some { phaseImage with sealed := true } }).psc.image.map (·.sealed) = some true ∧
      (withPsc { jstate := 2 }).jobRuns = true := by decide +kernel

/-- A record refused; an invalidation that passes over an entry written in its tick. -/
theorem witness_RecordSteps_more :
    recordCode (recordState [] {}) 0 0 [] ≠ 0 ∧
      isOk (preloadList { recordState [recordOne] {} with mem := [(0x40, 0x81)] } 0 recordOne) = false ∧
      (let k : Core := { tlb := [(3, ⟨0x780, 0⟩)], tlbNew := [3] }
       k.tlbNew.contains 3 = true ∧ k.tlbDue = [(3, ⟨0x780, 0⟩)]) ∧
      (({ instOne nodeOne with hold := true } : Inst).hold = true) ∧ readyPrios (walkerState nodeOne {}) 4 = [] := by decide +kernel

/-- A trapping result of a task of a pack with no freeze. -/
theorem witness_FaultEntry_arith :
    let q := itemOf (.result replayed { writes := [(.sreg 5, 7)], flags := 1 })
    let s : State := { pendingState q (fun k => { k with trapen := 1 }) with packs := [(0, { members := [0, 1], inst := 0, node := 0 })] }
    s.findItem 0 false 0 = some q ∧ trapCause (s.core 0).trapen 1 = some 0 ∧ (s.core 0).frozen = none ∧ (s.core 0).group = 0 ∧
      (s.pack 0).map (fun p => (p.members, p.freeze)) = some ([0, 1], none) := by decide +kernel

/-- A handler that issues a HEEL of its core's group and a REBASE; a HEEL pending at a REBASE; the least constant refused above; HMASK and FAULTINFO. -/
theorem witness_HeelRebaseAndControlRegisters_more :
    let s := handling { task := { regs := [] } }
    let p := leaseState.modCore 0 fun k => { k with heel := some { target := 9, fpc := 0, fword := 0 } }
    allIssue s .both [.heel g0 40 0, .rebase g0 64] = true ∧ (0 : BitVec 9).toNat = s.ccore.group ∧ s.cur.hd = true ∧
      issues p (.rebase g0 64) .both = true ∧ p.ccore.heel ≠ none ∧ kAssigned (rdReg leaseState 58).toNat = true ∧
      kAssigned (rdReg leaseState 57).toNat = true ∧ kAssigned 0x60 = false := by decide +kernel

/-! ### One step of the machine -/

/-- After reset, an ADD of S1 that stands where the next step fetches issues as the next step, and posts a result for s44 (R303, R334). -/
theorem test_step_runs_the_word :
    (match step (State.reset.withFetchWord 32 0x1042CB27) with
      | .next t => decide (((t.core 0).task.agenda.map fun p => match p.act with
        | .result _ r => r.writes.map (·.1)
        | _ => []) = [[.sreg 44]] ∧ (t.core 0).task.pc = 1)
      | _ => false) = true := by decide +kernel

/-- A NOP in the same place posts nothing and moves the task on (R281, R336). -/
theorem test_step_nop : (match step (State.reset.withFetchWord 32 0) with
    | .next t => decide ((t.core 0).task.pc = 1 ∧ (t.core 0).task.agenda = [])
    | _ => false) = true := by decide +kernel

/-- A task at packet 0 with a NOP in its instruction buffer, the issue next; and with the start of its tick next. -/
theorem witness_StepRunsWord :
    let s : State := { running [] with work := [.issue 0 false] }
    let p : State := { running [] with work := [.start 0 false true] }
    let th := s.thread 0 false
    fetchWords s 0 th.pc 7 0 = [0] ∧ bit 0 31 = false ∧ pipeOf 0 < 6 ∧ th.loop = none ∧ th.delay = none ∧ (s.core 0).skip = 0 ∧
      poisonIn s (faceLoc 0 3 (12 * th.pc)) 12 = none ∧ isOk (decodeWord 0) = true ∧ isNext { s with work := [], cur := {} } (.nop h0) = true ∧
      (let t := p.tick 0 false
       let a := writeStages 0 false { p with work := [] }
       let b := resultFaults 0 t (a.modCore 0 fun k => { k with trapen := wfld k.echk 20 16 })
       let d := openTick 0 t b
       stoppedCore p 0 = false ∧ stopsNow a 0 = false ∧ awaitsStopped a 0 t = false ∧ stopsAtIssue (openTick 0 t a) 0 = false ∧ stoppedCore b 0 = false ∧ arrivesNow d 0 = false ∧
         issuesNow d 0 = true ∧ (match issueBundle (d.planned 0) 0 false with
           | (.next _, _) => true
           | _ => false) = true) ∧
      (let l : State := { running [] with work := [.late 0] }
       stoppedCore l 0 = false ∧ arrivesNow { l with work := [] } 0 = false ∧ issuesNow { l with work := [] } 0 = true ∧
         (match issueBundle (State.planned { l with work := [] } 0) 0 false with
           | (.next _, _) => true
           | _ => false) = true) := by decide +kernel

/-- The state after reset is canonical, and its first step answers a next state. -/
theorem witness_CanonicalKept :
    (State.reset.mem.wf = true ∧ smSorted State.reset.burstErr = true) ∧ (match step State.reset with
      | .next _ => true
      | _ => false) = true := by decide +kernel

/-- A task with an item of number 4 pending and 5 its next number, and a step from it. -/
theorem witness_PendingNumbersBelowNext :
    let s : State := { onCore { stage := .running, task := { agenda := [{ id := 4, tick := 9, act := .lfence 0 }], nid := 5 } } with
      work := [.issue 0 false] }
    ((s.thread 0 false).agenda.all fun p => decide (p.id < (s.thread 0 false).nid)) = true ∧ (match step s with
      | .next _ => true
      | _ => false) = true := by decide +kernel

end Sys2Proof.Tests
end

section
/-!
O55: a written byte is the byte read, in the memory of the machine (R10, R173, R185). Each of the four parts is the rule of one memory
operation in Laws/Memory.
-/
namespace Sys2Proof.Machine

/-- A number written as its `n` bytes in the byte order of R10 reads back as its low `n` bytes. -/
theorem leNat_readBytes_writeBytes (m : Memory) (loc n v : Nat) :
    leNat (readBytes (writeBytes m loc (leBytes n v)) loc n) = v % 2 ^ (8 * n) := by
  have hread : readBytes (writeBytes m loc (leBytes n v)) loc n = leBytes n v := by
    simpa only [length_leBytes] using readBytes_writeBytes m loc (leBytes n v)
  rw [hread, leNat_leBytes]

/-- Settles O55: each operation of the memory by its own rule. -/
theorem memoryReadAfterWrite : Obligations.MemoryReadAfterWrite := by
  intro m loc n v lo hi data
  exact ⟨readByte_writeBytes m loc data, readBytes_writeBytes m loc data, leNat_readBytes_writeBytes m loc n v, readByte_clearRange m lo hi⟩

end Sys2Proof.Machine
end

section
/-!
O50: the commands of the Jeloth mailbox (R493). Each command serves its tag by one response word and its data; the cases are those of the command's own checks.
-/
namespace Sys2Proof.Machine

/-! ### A response -/

@[simp] theorem respond_traces (s : State) (tag st : Nat) (d : List Word) : (respond s tag st d).traces = s.traces := rfl
@[simp] theorem respond_resp (s : State) (tag st : Nat) (d : List Word) :
    (respond s tag st d).psc.resp = BitVec.ofNat 64 (tag % 2 ^ 32 * 2 ^ 32 + st) :: d := rfl

/-- A response raises JCAUSE bit 4 (R493). -/
theorem respond_jcause (s : State) (tag st : Nat) (d : List Word) : (respond s tag st d).psc.jcause.testBit 4 = true := by
  show (s.psc.jcause ||| 2 ^ 4).testBit 4 = true
  rw [Nat.testBit_or, Nat.testBit_two_pow_self, Bool.or_true]

/-- The response to the tag being served, or to one of a mailbox that serves none, leaves the mailbox serving none. -/
theorem respond_serving {s : State} {tag : Nat} (st : Nat) (d : List Word) (h : s.psc.serving = none ∨ s.psc.serving = some tag) :
    (respond s tag st d).psc.serving = none := by
  show (if s.psc.serving = some tag then none else s.psc.serving) = none
  rcases h with h | h <;> simp [h]

/-- A step answers the tag it serves with a status, and has no effect where another tag is being served (R493). -/
def Answers (s : State) (tag : Nat) (i : Instr) (st : Nat) (q : State → Prop) : Prop :=
  (s.psc.serving = none ∨ s.psc.serving = some tag → ∃ t d, exec i s = .next t ∧ sameMem s t ∧ sameRegs s t ∧
    t.psc.resp = BitVec.ofNat 64 (tag % 2 ^ 32 * 2 ^ 32 + st) :: d ∧ t.psc.jcause.testBit 4 = true ∧ t.psc.serving = none ∧ q t) ∧
  ∀ k, s.psc.serving = some k → k ≠ tag → exec i s = .next s

/-- A command that ends in a response from a state with the memory, the cores and the served tag as before answers with it. -/
theorem answers_of_respond {s u : State} {tag st : Nat} {i : Instr} {f : State → State} {d : List Word} {q : State → Prop}
    (hi : exec i s = serve s tag f) (hf : f s = respond u tag st d)
    (hu : u.mem = s.mem ∧ u.cores = s.cores ∧ u.psc.serving = s.psc.serving) (hq : q (respond u tag st d)) : Answers s tag i st q := by
  obtain ⟨hm, hc, hv⟩ := hu
  refine ⟨fun h => ⟨respond u tag st d, d, ?_, sameMem_of_mem hm, sameRegs_of_cores hc, rfl, respond_jcause .., ?_, hq⟩, fun k hk ne => ?_⟩
  · have served : s.psc.serving.getD tag = tag := by rcases h with h | h <;> simp [h]
    rw [hi, serve, if_pos served, hf]
  · exact respond_serving st d (hv ▸ h)
  · rw [hi, serve, hk]
    simp [ne]

/-! ### The commands, case by case -/

section
variable (s : State) (tag : Nat)

theorem answers_readErrorLog (sel : Nat) (h : sel / 16 < 1024) :
    Answers s tag (.readErrorLog tag sel) 0 fun t => t.psc.resp.tail = ((s.hbm (sel % 16)).log.drop (sel / 16)).flatten :=
  answers_of_respond (u := s) (exec_readErrorLog ..) (if_neg (Nat.not_le.mpr h)) ⟨rfl, rfl, rfl⟩ (by simp)

theorem answers_readErrorLog_outside (sel : Nat) (h : 1024 ≤ sel / 16) :
    Answers s tag (.readErrorLog tag sel) 2 fun t => t.psc.resp.tail = [] :=
  answers_of_respond (u := s) (exec_readErrorLog ..) (if_pos h) ⟨rfl, rfl, rfl⟩ rfl

theorem answers_readClocks :
    Answers s tag (.readClocks tag) 0 fun t => t.psc.resp.tail = ((List.range 33).map (clkstat s) ++ powerWords s).drop (pageFrom s.psc) :=
  answers_of_respond (u := s) (exec_readClocks ..) rfl ⟨rfl, rfl, rfl⟩ rfl

theorem answers_setPcap (watts : Nat) (lo : 2000 ≤ watts) (hi : watts ≤ 10000) (st : watts % 50 = 0) :
    Answers s tag (.setPcap tag watts) 0 fun t => t.psc.pcap = watts :=
  answers_of_respond (u := { s with psc := { s.psc with pcap := watts } }) (exec_setPcap ..)
    (if_neg (by simp; omega)) ⟨rfl, rfl, rfl⟩ rfl

theorem answers_setPcap_outside (watts : Nat) (h : watts < 2000 ∨ 10000 < watts ∨ watts % 50 ≠ 0) :
    Answers s tag (.setPcap tag watts) 2 fun t => t.psc.pcap = s.psc.pcap :=
  answers_of_respond (u := s) (exec_setPcap ..) (if_pos (by simp; omega)) ⟨rfl, rfl, rfl⟩ rfl

theorem answers_readEnergy :
    Answers s tag (.readEnergy tag) 0 fun t => t.psc.resp.tail = ([BitVec.ofNat 64 s.psc.energyJob, BitVec.ofNat 64 s.psc.energyMaint] ++
      s.walker.insts.flatMap fun i => [i.2.handle, BitVec.ofNat 64 i.2.energy]).drop (pageFrom s.psc) :=
  answers_of_respond (u := s) (exec_readEnergy ..) rfl ⟨rfl, rfl, rfl⟩ rfl

theorem answers_readAvailabilityMap (hs : Nat) (h : hs < 16) : Answers s tag (.readAvailabilityMap tag hs) 0 fun t =>
      t.psc.resp.tail = (List.range 64).flatMap (availability s hs) ++ layerWords s hs :=
  answers_of_respond (u := s) (exec_readAvailabilityMap ..) (if_neg (Nat.not_le.mpr h)) ⟨rfl, rfl, rfl⟩ rfl

theorem answers_readAvailabilityMap_outside (hs : Nat) (h : 16 ≤ hs) :
    Answers s tag (.readAvailabilityMap tag hs) 2 fun t => t.psc.resp.tail = [] :=
  answers_of_respond (u := s) (exec_readAvailabilityMap ..) (if_pos h) ⟨rfl, rfl, rfl⟩ rfl

theorem answers_setPkgid (id : Nat) (idle : s.jobRuns = false) (h : id ≤ 1023) :
    Answers s tag (.setPkgid tag id) 0 fun t => t.psc.pkgid = id :=
  answers_of_respond (u := { s with psc := { s.psc with pkgid := id } }) (exec_setPkgid ..)
    ((if_neg (Bool.eq_false_iff.mp idle)).trans (if_neg (Nat.not_lt.mpr h))) ⟨rfl, rfl, rfl⟩ rfl

theorem answers_setPkgid_running (id : Nat) (runs : s.jobRuns = true) :
    Answers s tag (.setPkgid tag id) 1 fun t => t.psc.pkgid = s.psc.pkgid :=
  answers_of_respond (u := s) (exec_setPkgid ..) (if_pos runs) ⟨rfl, rfl, rfl⟩ rfl

theorem answers_setPkgid_outside (id : Nat) (idle : s.jobRuns = false) (h : 1023 < id) :
    Answers s tag (.setPkgid tag id) 2 fun t => t.psc.pkgid = s.psc.pkgid :=
  answers_of_respond (u := s) (exec_setPkgid ..) ((if_neg (Bool.eq_false_iff.mp idle)).trans (if_pos h)) ⟨rfl, rfl, rfl⟩ rfl

theorem answers_readKeys : Answers s tag (.readKeys tag) 0 fun t => t.psc.resp.tail = wordsOf publicKeys :=
  answers_of_respond (u := s) (exec_readKeys ..) rfl ⟨rfl, rfl, rfl⟩ rfl

theorem answers_attest_malformed (nonce : List Byte) (h : nonce.length ≠ 32) :
    Answers s tag (.attest tag nonce) 2 fun t => t.psc.sigidx = s.psc.sigidx :=
  answers_of_respond (u := s) (exec_attest ..) (if_pos h) ⟨rfl, rfl, rfl⟩ rfl

theorem answers_attest (nonce : List Byte) (h : nonce.length = 32) (left : s.psc.sigidx < 2 ^ 20) :
    Answers s tag (.attest tag nonce) 0 fun t => t.psc.sigidx = s.psc.sigidx + 1 ∧
      t.psc.resp.tail = wordsOf (report s nonce ++ Config.xmssSign identityKey s.psc.sigidx (report s nonce)) :=
  answers_of_respond (u := { s with psc := { s.psc with sigidx := s.psc.sigidx + 1 } }) (exec_attest ..)
    ((if_neg (not_not.mpr h)).trans (if_neg (Nat.not_le.mpr left))) ⟨rfl, rfl, rfl⟩ ⟨rfl, rfl⟩

theorem answers_attest_exhausted (nonce : List Byte) (h : nonce.length = 32) (out : 2 ^ 20 ≤ s.psc.sigidx) :
    Answers s tag (.attest tag nonce) 3 fun t => t.psc.sigidx = s.psc.sigidx :=
  answers_of_respond (u := s) (exec_attest ..) ((if_neg (not_not.mpr h)).trans (if_pos out))
    ⟨rfl, rfl, rfl⟩ rfl

theorem answers_readTrace_outside (sel : Nat) (stop : Bool) (h : 2 ^ 21 ≤ sel / 4) :
    Answers s tag (.readTrace tag sel stop) 2 fun t => t.traces = s.traces ∧ t.psc.resp.tail = [] :=
  answers_of_respond (u := s) (exec_readTrace ..) (if_pos h) ⟨rfl, rfl, rfl⟩ ⟨rfl, rfl⟩

theorem answers_readTrace (sel : Nat) (stop : Bool) (h : sel / 4 < 2 ^ 21) :
    Answers s tag (.readTrace tag sel stop) 0 fun t => (smGet {} t.traces (sel % 4)).stop = stop ∧
      (s.jobRuns = false → t.psc.resp.tail =
        BitVec.ofNat 64 (smGet {} s.traces (sel % 4)).dropped :: ((smGet {} s.traces (sel % 4)).recs.drop (sel / 4)).flatten) ∧
      (s.jobRuns = true → s.psc.image.map (·.sealed) = some true → t.psc.resp.tail = []) :=
  answers_of_respond (u := { s with traces := smSet s.traces (sel % 4) { smGet {} s.traces (sel % 4) with stop := stop } })
    (exec_readTrace ..) (if_neg (Nat.not_le.mpr h)) ⟨rfl, rfl, rfl⟩
    ⟨by simp, fun idle => by simp [idle, rw], fun runs closed => by simp [runs, closed]⟩

theorem answers_installFirmware_running (kind : Nat) (image : List Byte) (runs : s.jobRuns = true) :
    Answers s tag (.installFirmware tag kind image) 1 fun t => t.psc.fwver = s.psc.fwver :=
  answers_of_respond (u := s) (exec_installFirmware ..) (if_pos runs) ⟨rfl, rfl, rfl⟩ rfl

theorem answers_installFirmware (kind : Nat) (image : List Byte) (idle : s.jobRuns = false) (hk : kind < 3)
    (signed : Config.xmssVerify kind image = true) (newer : smGet 0 s.psc.fwver kind ≤ Config.imageVersion kind image) :
    Answers s tag (.installFirmware tag kind image) 0 fun t =>
      t.psc.fwver = smSet s.psc.fwver kind (Config.imageVersion kind image) ∧
        t.psc.fwnew = smSet s.psc.fwnew kind (Config.shake256 512 image) :=
  answers_of_respond (u := { s with psc := { s.psc with
      fwver := smSet s.psc.fwver kind (Config.imageVersion kind image), fwnew := smSet s.psc.fwnew kind (Config.shake256 512 image) } })
    (exec_installFirmware ..)
    ((if_neg (Bool.eq_false_iff.mp idle)).trans (if_neg (by simp [firmwareOk, signed, newer, hk]))) ⟨rfl, rfl, rfl⟩ ⟨rfl, rfl⟩

theorem answers_installFirmware_refused (kind : Nat) (image : List Byte) (idle : s.jobRuns = false)
    (h : 3 ≤ kind ∨ Config.xmssVerify kind image = false ∨ Config.imageVersion kind image < smGet 0 s.psc.fwver kind) :
    Answers s tag (.installFirmware tag kind image) 2 fun t => t.psc.fwver = s.psc.fwver ∧ t.psc.fwnew = s.psc.fwnew := by
  have refused : (decide (kind ≥ 3) || !firmwareOk s.psc kind image) = true := by
    rcases h with h | h | h
    · simp [h]
    · simp [firmwareOk, h]
    · simp [firmwareOk, Nat.not_le.mpr h]
  exact answers_of_respond (u := s) (exec_installFirmware ..) ((if_neg (Bool.eq_false_iff.mp idle)).trans (if_pos refused)) ⟨rfl, rfl, rfl⟩ ⟨rfl, rfl⟩

theorem answers_readPhaseFailure : Answers s tag (.readPhaseFailure tag) 0 fun t =>
      t.psc.resp.tail = (if s.psc.pfail = [] then [0, 0, 0, 0, 0, 0] else s.psc.pfail).map (BitVec.ofNat 64) :=
  answers_of_respond (u := s) (exec_readPhaseFailure ..) rfl ⟨rfl, rfl, rfl⟩ (by simp [List.isEmpty_iff, rw])

end

/-- Settles O50: every command by its own rule. -/
theorem mailboxSteps : Obligations.MailboxSteps := by
  intro s tag hs sel watts id kind stop nonce image
  exact ⟨answers_readErrorLog s tag sel, answers_readErrorLog_outside s tag sel, answers_readClocks s tag, answers_setPcap s tag watts,
    answers_setPcap_outside s tag watts, answers_readEnergy s tag, answers_readAvailabilityMap s tag hs,
    answers_readAvailabilityMap_outside s tag hs, answers_setPkgid s tag id, answers_setPkgid_running s tag id,
    answers_setPkgid_outside s tag id, answers_readKeys s tag, answers_attest_malformed s tag nonce, answers_attest s tag nonce,
    answers_attest_exhausted s tag nonce, answers_readTrace_outside s tag sel stop, answers_readTrace s tag sel stop,
    answers_installFirmware_running s tag kind image, answers_installFirmware s tag kind image,
    answers_installFirmware_refused s tag kind image, answers_readPhaseFailure s tag⟩

end Sys2Proof.Machine
end

section
/-!
SUPPORT. What the transfers of bursts, the error log and the lane swaps of the HBM stacks leave alone (R117, R127 to R133): memory as it
reads, every core, and of each stack the operations at its atomic unit and the rows of its patrol scrub.
-/
namespace Sys2Proof.Machine

/-- One state comes from another by transfers, log entries, swaps and draws alone. -/
structure StackLog (s t : State) : Prop where
  reads : ReadsAs s t
  cores : t.cores = s.cores
  now : t.now = s.now
  units : ∀ h, (t.hbm h).units = (s.hbm h).units
  scrub : ∀ h, (t.hbm h).scrub = (s.hbm h).scrub

namespace StackLog

theorem refl (s : State) : StackLog s s := ⟨readsAs_refl s, rfl, rfl, fun _ => rfl, fun _ => rfl⟩

theorem trans {s t u : State} (a : StackLog s t) (b : StackLog t u) : StackLog s u :=
  ⟨readsAs_trans a.reads b.reads, b.cores.trans a.cores, b.now.trans a.now, fun h => (b.units h).trans (a.units h),
    fun h => (b.scrub h).trans (a.scrub h)⟩

theorem foldl {α : Type} {f : State → α → State} (hf : ∀ s x, StackLog s (f s x)) (l : List α) (s : State) : StackLog s (l.foldl f s) := by
  induction l generalizing s with
  | nil => exact refl s
  | cons x l ih => exact (hf s x).trans (ih (f s x))

theorem mem {s t : State} (h : StackLog s t) : t.mem = s.mem := h.reads.1

/-- A change of one stack that keeps its hash mask, its unit and its scrub. -/
theorem modHbm (s : State) (hs : Nat) (f : Hbm → Hbm)
    (hf : ∀ h, (f h).hmask = h.hmask ∧ (f h).units = h.units ∧ (f h).scrub = h.scrub) : StackLog s (s.modHbm hs f) := by
  refine ⟨readsAs_modHbm s hs f (hf _).1, rfl, rfl, fun d => ?_, fun d => ?_⟩ <;> rw [hbm_modHbm] <;> split
  · next e => rw [(hf _).2.1, e]
  · rfl
  · next e => rw [(hf _).2.2, e]
  · rfl

theorem modPc (s : State) (hs pc : Nat) (f : Pc → Pc) : StackLog s (s.modHbm hs fun h => h.modPc pc f) :=
  modHbm s hs _ fun _ => ⟨rfl, rfl, rfl⟩

theorem draw (s : State) (n : Nat) : StackLog s (s.draw n).2 := ⟨readsAs_draw s, rfl, rfl, fun _ => rfl, fun _ => rfl⟩

theorem freeFails (s : State) (n : Nat) : StackLog s (freeFails s n).2.2 := (draw s n).trans (draw _ 38)

theorem cause (s : State) (b : Nat) : StackLog s (s.cause b) := ⟨⟨rfl, rfl, rfl, fun _ => rfl⟩, rfl, rfl, fun _ => rfl, fun _ => rfl⟩

theorem rewritten (s : State) (cell : Nat) (bad : Bool) : StackLog s (s.rewritten cell bad) :=
  ⟨⟨rfl, rfl, rfl, fun _ => rfl⟩, rfl, rfl, fun _ => rfl, fun _ => rfl⟩

theorem owes (s : State) (i : Nat) : StackLog s (s.owes i) := ⟨⟨rfl, rfl, rfl, fun _ => rfl⟩, rfl, rfl, fun _ => rfl, fun _ => rfl⟩

theorem hbmLog (s : State) (hs pc type : Nat) (p : LogPos) : StackLog s (hbmLog s hs pc type p) :=
  (modHbm s hs (fun h => { h with log := (if h.log.length ≥ 1024 then h.log.drop 1 else h.log) ++ _ }) fun _ => ⟨rfl, rfl, rfl⟩).trans
    (cause _ 2)

end StackLog

theorem hbm_hbmLog_pc (s : State) (hs pc type : Nat) (p : LogPos) (h q : Nat) : ((hbmLog s hs pc type p).hbm h).pc q = (s.hbm h).pc q := by
  show ((s.setHbm hs _).hbm h).pc q = _
  by_cases e : h = hs
  · subst e; rw [hbm_setHbm_self]; rfl
  · rw [hbm_setHbm_ne _ _ e]

@[simp] theorem Hbm.modPc_pc_self (h : Hbm) (p : Nat) (f : Pc → Pc) : (h.modPc p f).pc p = f (h.pc p) := by simp [Hbm.pc, Hbm.modPc]

/-- The swap of a lane ends in one log entry, behind which no swap of the PC is pending (R129, R130). -/
theorem swapLane_eq_hbmLog (s : State) (hs pc stamp : Nat) :
    ∃ u type p, swapLane s hs pc stamp = hbmLog u hs pc type p ∧ StackLog s u ∧ ((u.hbm hs).pc pc).swap = false := by
  have cleared (u : State) (hu : StackLog s u) (f g : Pc → Pc) (hf : ∀ q, (f q).swap = false) (hg : ∀ q, (g q).swap = q.swap) :
      StackLog s ((u.modHbm hs fun h => h.modPc pc f).modHbm hs fun h => h.modPc pc g) ∧
        ((((u.modHbm hs fun h => h.modPc pc f).modHbm hs fun h => h.modPc pc g).hbm hs).pc pc).swap = false := by
    refine ⟨(hu.trans (.modPc ..)).trans (.modPc ..), ?_⟩
    rw [hbm_modHbm_self, Hbm.modPc_pc_self, hg, hbm_modHbm_self, Hbm.modPc_pc_self, hf]
  have drawn : StackLog s (s.draw 38).2 := .draw s 38
  unfold swapLane
  dsimp only
  cases worstLane ((s.hbm hs).pc pc).window with
  | some l =>
    dsimp only
    split
    · exact ⟨_, _, _, rfl, cleared s (.refl s) _ _ (fun _ => rfl) fun _ => rfl⟩
    · exact ⟨_, _, _, rfl, cleared s (.refl s) _ _ (fun _ => rfl) fun _ => rfl⟩
  | none =>
    dsimp only
    by_cases c : (s.draw 38).1 < 38
    · simp only [c, if_true]
      split
      · exact ⟨_, _, _, rfl, cleared _ drawn _ _ (fun _ => rfl) fun _ => rfl⟩
      · exact ⟨_, _, _, rfl, cleared _ drawn _ _ (fun _ => rfl) fun _ => rfl⟩
    · simp only [c, if_false]
      refine ⟨_, _, _, rfl, drawn.trans (.modPc ..), ?_⟩
      rw [hbm_modHbm_self, Hbm.modPc_pc_self]

theorem StackLog.swapLane (s : State) (hs pc stamp : Nat) : StackLog s (swapLane s hs pc stamp) := by
  obtain ⟨u, type, p, e, hu, -⟩ := swapLane_eq_hbmLog s hs pc stamp
  exact e ▸ hu.trans (.hbmLog ..)

/-- Behind a swap no swap of the PC is pending (R129). -/
theorem swap_swapLane (s : State) (hs pc stamp : Nat) : (((swapLane s hs pc stamp).hbm hs).pc pc).swap = false := by
  obtain ⟨u, type, p, e, -, h⟩ := swapLane_eq_hbmLog s hs pc stamp
  rw [e, hbm_hbmLog_pc, h]

namespace StackLog

theorem resent (s : State) (cell type : Nat) (p : LogPos) : StackLog s (resent s cell type p) := by
  unfold Machine.resent
  dsimp only
  generalize hu : s.modHbm _ _ = u
  have counted : StackLog s u := hu ▸ modHbm s _ _ fun _ => ⟨rfl, rfl, rfl⟩
  have logged := counted.trans (.hbmLog u (locHs cell) (locPc cell) type p)
  split
  · exact logged.trans (.swapLane ..)
  · exact logged

theorem logArray (s : State) (cell : Nat) (p : LogPos) : StackLog s (logArray s cell p) := by
  unfold Machine.logArray
  dsimp only
  split
  · exact refl s
  · split <;> exact .hbmLog ..

theorem readBurst (s : State) (cell core stamp fails lane : Nat) : StackLog s (readBurst s cell core stamp fails lane).2.2 := by
  unfold Machine.readBurst
  dsimp only
  split
  · exact .logArray ..
  · exact (logArray ..).trans (.resent ..)

theorem writeTransfer (s : State) (cell core stamp fails lane : Nat) : StackLog s (writeTransfer s cell core stamp fails lane).2 := by
  unfold Machine.writeTransfer
  dsimp only
  split
  · exact refl s
  · exact .resent ..

end StackLog

/-! ### A line under states that read alike -/

theorem loc_readsAs {s t : State} (h : ReadsAs s t) (a : Nat) : t.loc a = s.loc a := by rw [State.loc, State.loc, h.2.2.2]

theorem inSealedRange_readsAs {s t : State} (h : ReadsAs s t) (a : Nat) : inSealedRange t a = inSealedRange s a := by
  simp only [inSealedRange, h.2.1]

theorem readLine_readsAs {s t : State} (h : ReadsAs s t) (l : Nat) : readLine t l = readLine s l := by
  simp only [readLine, loc_readsAs h, inSealedRange_readsAs h, h.1, h.2.1]

theorem writeLine_mem_readsAs {s t : State} (h : ReadsAs s t) (l : Nat) (d : List Byte) : (writeLine t l d).mem = (writeLine s l d).mem := by
  simp only [writeLine, loc_readsAs h, inSealedRange_readsAs h, h.1, h.2.1]

end Sys2Proof.Machine
end

section
/-!
O38: an atomic unit performs what is due (R174, R441, R444), and a task retires (R197, R254).
-/
namespace Sys2Proof.Machine

/-! ### The return of an atomic and the records of its errors -/

/-- A change of the items pending for a thread is none of a register. -/
theorem sameRegs_agenda (s : State) (c : Nat) (hd : Bool) (f : List Pending → List Pending) :
    sameRegs s (s.modThread c hd fun t => { t with agenda := f t.agenda }) := sameRegs_modThread s c hd _ fun _ => ⟨rfl, rfl⟩

theorem giveReturn_sameRegs (s : State) (c : Nat) (hd : Bool) (acc : Nat) (v : Option Vec) (bad : Bool) :
    sameRegs s (giveReturn s c hd acc v bad) := sameRegs_agenda s c hd _

theorem markProbe_frame (s : State) (c : Nat) (hd : Bool) (acc : Nat) :
    sameRegs s (markProbe s c hd acc).1 ∧ (markProbe s c hd acc).1.mem = s.mem ∧ (markProbe s c hd acc).1.hbms = s.hbms := by
  unfold markProbe
  dsimp only
  split
  · exact ⟨sameRegs_agenda s c hd _, rfl, rfl⟩
  · exact ⟨.refl s, rfl, rfl⟩

theorem atomError_frame (s : State) (o : Origin) :
    (atomError s o).cores = s.cores ∧ (atomError s o).mem = s.mem ∧ (atomError s o).hbms = s.hbms := by
  unfold atomError memError
  split
  · simp
  · split
    · exact ⟨rfl, rfl, rfl⟩
    · simp

/-! ### One operation of a unit -/

/-- The line of an operation as it stands, and with the operation's value in its cell (R441, R444). -/
def GAtom.oldLine (a : GAtom) (s : State) : List Byte := readLine s (a.cell / 64 * 64)
@[inherit_doc GAtom.oldLine] def GAtom.newLine (a : GAtom) (s : State) : List Byte :=
  let data := a.oldLine s
  data.take (a.cell % 64) ++ leBytes a.n (atomVal a.op a.n (leNat ((data.drop (a.cell % 64)).take a.n)) a.b.toNat a.c.toNat)
    ++ data.drop (a.cell % 64 + a.n)

/-- An operation keeps the line of its cell: its burst is uncorrectable, or the read transfer has failed a fourth time (R127, R128). -/
def GAtom.keepsLine (a : GAtom) (s : State) : Prop := s.badBurst (a.cell / 64 * 64) = true ∨ Config.freeNat s.fresh % 5 = 4

/-- What an operation of a core of the package does at its unit: its line, where it does not keep it, and nothing else of memory, of the registers and of the
operations that wait (R441, R444). -/
structure Performs (s t : State) (a : GAtom) : Prop where
  regs : sameRegs s t
  units : ∀ h, (t.hbm h).units = (s.hbm h).units
  kept : a.keepsLine s → t.mem = s.mem
  written : ¬ a.keepsLine s → t.mem = (writeLine s (a.cell / 64 * 64) (a.newLine s)).mem

theorem hbm_of_hbms {s t : State} (h : t.hbms = s.hbms) (d : Nat) : t.hbm d = s.hbm d := by simp only [State.hbm, h]

/-- An operation's read of its line brings the line as it stands, and poison exactly where the operation keeps it (R127, R128). -/
theorem readBurst_oldLine (s : State) (a : GAtom) (i by_ : Nat) :
    let r := freeFails (s.owes i) 4
    let b := readBurst r.2.2 (a.cell / 64 * 64) by_ 0 r.1 r.2.1
    b.1 = a.oldLine s ∧ (b.2.1 = true ↔ a.keepsLine s) ∧ StackLog s b.2.2 := by
  have drawn : StackLog s (freeFails (s.owes i) 4).2.2 := (StackLog.owes s i).trans (.freeFails ..)
  refine ⟨readLine_readsAs drawn.reads _, ?_, drawn.trans (.readBurst ..)⟩
  have : Config.freeNat s.fresh % 5 < 5 := Nat.mod_lt _ (by decide)
  show (decide (s.stored (a.cell / 64 * 64) > 256) || decide (Config.freeNat s.fresh % 5 > 3)) = true ↔ _
  simp only [GAtom.keepsLine, State.badBurst, Bool.or_eq_true, decide_eq_true_eq]
  omega

/-- What follows on transfers and log entries, with no register and no stack changed. -/
theorem StackLog.then_return {s v t : State} (h : StackLog s v) (regs : sameRegs v t) (hbms : t.hbms = v.hbms) :
    sameRegs s t ∧ ∀ d, (t.hbm d).units = (s.hbm d).units :=
  ⟨(sameRegs_of_cores h.cores).trans regs, fun d => by rw [hbm_of_hbms hbms, h.units]⟩

/-- The end of an operation that has met poison: its error is recorded, and its issuer learns of it (R446). -/
theorem StackLog.poisoned_return {s v : State} (h : StackLog s v) (a : GAtom) :
    let t := if a.grouped.isSome then (markProbe (atomError v a.org) a.org.core a.org.hd a.acc).1
      else giveReturn (atomError v a.org) a.org.core a.org.hd a.acc none true
    t.mem = s.mem ∧ sameRegs s t ∧ ∀ d, (t.hbm d).units = (s.hbm d).units := by
  obtain ⟨errCores, errMem, errHbms⟩ := atomError_frame v a.org
  have errRegs : sameRegs v (atomError v a.org) := sameRegs_of_cores errCores
  dsimp only
  split
  · obtain ⟨regs, mem, hbms⟩ := markProbe_frame (atomError v a.org) a.org.core a.org.hd a.acc
    exact ⟨(mem.trans errMem).trans h.mem, h.then_return (errRegs.trans regs) (hbms.trans errHbms)⟩
  · exact ⟨errMem.trans h.mem, h.then_return (errRegs.trans (giveReturn_sameRegs _ _ _ _ _ _)) errHbms⟩

theorem performG_performs (s : State) (a : GAtom) (hc : a.org.core < 384) : Performs s (performG s a) a := by
  unfold performG
  simp only [ge_iff_le, Nat.not_le.mpr hc, if_false, hc, if_true]
  generalize (if a.org.hd = true then _ else _) = i
  obtain ⟨line, bad_iff, read⟩ := readBurst_oldLine s a i a.org.core
  generalize readBurst _ _ _ _ _ _ = b at line bad_iff read ⊢
  split
  · next bad =>
    obtain ⟨mem, regs, units⟩ := read.poisoned_return a
    exact ⟨regs, units, fun _ => mem, fun good => absurd (bad_iff.mp bad) good⟩
  · next good =>
    have drawn := read.trans (.freeFails _ 3)
    generalize freeFails b.2.2 3 = r at drawn ⊢
    have transferred := drawn.trans (.writeTransfer r.2.2 (a.cell / 64 * 64) a.org.core 0 r.1 r.2.1)
    generalize writeTransfer _ _ _ _ _ _ = w at transferred ⊢
    obtain ⟨regs, units⟩ := transferred.then_return
      (t := giveReturn ((writeLine w.2 (a.cell / 64 * 64) _).rewritten (a.cell / 64 * 64) w.1) a.org.core a.org.hd a.acc _ false)
      (sameRegs.trans (sameRegs_of_cores rfl) (giveReturn_sameRegs _ _ _ _ _ _)) rfl
    refine ⟨regs, units, fun bad => absurd (bad_iff.mpr bad) good, fun _ => ?_⟩
    rw [line]
    exact writeLine_mem_readsAs transferred.reads _ _

/-! ### The order of a unit -/

/-- The only operation of a unit stands behind no other. -/
theorem unitOrder_single {s : State} {a : GAtom} (h : a.isDue s = true) : unitOrder s [a] = [a] := by
  have free : heldBehind s [a] a = false := by simp [heldBehind]
  have alone : aheadOf [a] a = [] := by simp [aheadOf]
  simp [unitOrder, h, free, sortBy, insertBy, alone, List.eraseDups_cons]

/-- A unit with nothing due performs nothing. -/
theorem unitOrder_nil {s : State} {us : List GAtom} (h : ∀ u ∈ us, u.isDue s = false) : unitOrder s us = [] := by
  have none : us.filter (fun a => a.isDue s && !heldBehind s us a) = [] :=
    List.filter_eq_nil_iff.mpr fun u hu => by simp [h u hu]
  simp [unitOrder, none, sortBy]

/-- The only operation of a unit, due, is performed on the state without it (R444). -/
theorem exec_gAtomicPerform_single {s : State} {hs : Nat} {a : GAtom} (hu : (s.hbm hs).units = [a]) (due : a.isDue s = true) :
    exec (.gAtomicPerform hs) s = .next (performG (s.modHbm hs fun h => { h with units := [] }) a) := by
  rw [exec_gAtomicPerform, execGAtomicPerform]
  simp only [hu, unitOrder_single due, List.foldl_cons, List.foldl_nil]
  simp [State.modHbm, hu]

theorem exec_gAtomicPerform_idle {s : State} {hs : Nat} (h : ∀ u ∈ (s.hbm hs).units, u.isDue s = false) :
    exec (.gAtomicPerform hs) s = .next (s.modHbm hs fun h => { h with units := h.units }) := by
  rw [exec_gAtomicPerform, execGAtomicPerform]
  simp [unitOrder_nil h]

/-! ### Retirement -/

/-- All that an Ending task waits for has come: each access has performed, or is a fabric operation that has been sent (R197, log 31). -/
def mayRetire (s : State) (c : Nat) : Bool :=
  (s.core c).task.outst.all fun o => o.over (s.tick c false) || (s.core c).fabs.any fun x => x.acc = o.id && x.isSent

theorem mayRetire_iff (s : State) (c : Nat) : mayRetire s c = true ↔
    ∀ o ∈ (s.core c).task.outst, o.over (s.tick c false) = true ∨ ∃ x ∈ (s.core c).fabs, x.acc = o.id ∧ x.isSent = true := by
  simp [mayRetire]

theorem exec_taskRetire_eq (s : State) (c : Nat) : exec (.taskRetire c) s = .next
    (if (s.core c).stage = .ending ∧ (s.core c).frozen = none ∧ mayRetire s c = true then
      retireTask ((heldWrites s c).foldl (commitHeld c) s) c else s) := by
  rw [exec_taskRetire, execTaskRetire]
  refine congrArg _ (if_congr ?_ rfl rfl)
  simp only [mayRetire, Bool.and_eq_true, decide_eq_true_eq, Option.isNone_iff_eq_none, and_assoc]

/-- Settles O38: the unit by its one operation, the retirement by its condition. -/
theorem atomicUnitAndRetire : Obligations.AtomicUnitAndRetire := by
  intro s hs c a
  refine ⟨fun hu due hc => ?_, fun idle => ?_, fun ending thawed waits => ?_, fun frozen => ?_, fun o ho late unsent => ?_, fun st => ?_⟩
  · have taken : ReadsAs s (s.modHbm hs fun h => { h with units := [] }) := readsAs_modHbm s hs _ rfl
    obtain ⟨regs, units, kept, written⟩ := performG_performs (s.modHbm hs fun h => { h with units := [] }) a hc
    refine ⟨_, exec_gAtomicPerform_single hu due, ?_, sameRegs.trans (sameRegs_of_cores rfl) regs, ?_⟩
    · rw [units, hbm_modHbm_self]
    · split
      · next keeps => exact kept keeps
      · next writes =>
        rw [written writes, writeLine_mem_readsAs taken, GAtom.newLine, GAtom.oldLine, readLine_readsAs taken]
  · exact ⟨_, exec_gAtomicPerform_idle idle, .refl s, by rw [hbm_modHbm_self]⟩
  · rw [exec_taskRetire_eq, if_pos ⟨ending, thawed, (mayRetire_iff s c).mpr waits⟩]
  · rw [exec_taskRetire_eq, if_neg fun h => frozen h.2.1]
  · rw [exec_taskRetire_eq, if_neg]
    rintro ⟨-, -, waits⟩
    rcases (mayRetire_iff s c).mp waits o ho with done | sent
    · rw [late] at done
      cases done
    · exact unsent sent
  · rw [exec_taskRetire_eq, if_neg fun h => st h.1]

end Sys2Proof.Machine
end

section
/-!
SUPPORT. What the freeze of a pack by a task's fault leaves alone, memory and the registers of every task among it, and what it records of
the member that has faulted (R248, R251, R260).
-/
namespace Sys2Proof.Machine

/-- What every step of a fold keeps, the fold keeps. -/
theorem foldl_keeps {α β : Type} {f : State → α → State} (g : State → β) (h : ∀ s x, g (f s x) = g s) (l : List α) (s : State) :
    g (l.foldl f s) = g s := by
  induction l generalizing s with
  | nil => rfl
  | cons x l ih => exact (ih (f s x)).trans (h s x)

/-- Memory, registers and the rescues that the stacks owe are as before. -/
structure FreezeFrame (s t : State) : Prop where
  mem : t.mem = s.mem
  regs : sameRegs s t
  rescue : ∀ h, (t.hbm h).rescue = (s.hbm h).rescue

namespace FreezeFrame

theorem refl (s : State) : FreezeFrame s s := ⟨rfl, .refl s, fun _ => rfl⟩

theorem trans {s t u : State} (a : FreezeFrame s t) (b : FreezeFrame t u) : FreezeFrame s u :=
  ⟨b.mem.trans a.mem, a.regs.trans b.regs, fun h => (b.rescue h).trans (a.rescue h)⟩

theorem foldl {α : Type} {f : State → α → State} (hf : ∀ s x, FreezeFrame s (f s x)) (l : List α) (s : State) :
    FreezeFrame s (l.foldl f s) := by
  induction l generalizing s with
  | nil => exact refl s
  | cons x l ih => exact (hf s x).trans (ih (f s x))

/-- A change of neither memory nor a core nor a stack. -/
theorem of_fields {s t : State} (mem : t.mem = s.mem) (cores : t.cores = s.cores) (hbms : t.hbms = s.hbms) : FreezeFrame s t :=
  ⟨mem, sameRegs_of_cores cores, fun h => by simp only [State.hbm, hbms]⟩

/-- A change of a core that keeps its registers. -/
theorem modCore (s : State) (c : Nat) (f : Core → Core)
    (hf : ∀ k, (f k).task.regs = k.task.regs ∧ (f k).task.preds = k.task.preds ∧ (f k).mrf = k.mrf ∧ (f k).bypass = k.bypass) :
    FreezeFrame s (s.modCore c f) := ⟨rfl, sameRegs_modCore s c f hf, fun _ => rfl⟩

theorem post (s : State) (c : Nat) (hd : Bool) (p : Pending) : FreezeFrame s (s.post c hd p) := ⟨rfl, post_sameRegs s c hd p, fun _ => rfl⟩

theorem later (s : State) (n : Nat) (e : Ev) : FreezeFrame s (s.later n e) := of_fields rfl rfl rfl

theorem modBank (s : State) (hs pc b : Nat) (f : Bank → Bank) : FreezeFrame s (s.modBank hs pc b f) := by
  refine ⟨rfl, sameRegs_of_cores rfl, fun h => ?_⟩
  rw [State.modBank, hbm_modHbm]
  split
  · next e => rw [e]; rfl
  · rfl

theorem modLease (s : State) (c : Nat) (f : Bank → Bank) : FreezeFrame s (s.modLease c f) := foldl (fun _ _ => .modBank ..) _ _

theorem modPack (s : State) (g : Nat) (f : Pack → Pack) : FreezeFrame s (s.modPack g f) := of_fields (by simp) (by simp) (by simp)

theorem trace (s : State) (k ty c : Nat) (r a : Word) : FreezeFrame s (s.trace k ty c r a) := of_fields (by simp) (by simp) (by simp)

theorem returnReads (s : State) (c : Nat) : FreezeFrame s (returnReads s c) := by
  unfold Machine.returnReads
  dsimp only
  refine trans (modCore s c _ (by exact fun _ => ⟨rfl, rfl, rfl, rfl⟩)) (foldl (fun s p => ?_) _ _)
  split
  · exact .post ..
  · exact refl s

theorem freeEffects (s : State) (c : Nat) : FreezeFrame s (freeEffects s c) := modCore s c _ (by exact fun _ => ⟨rfl, rfl, rfl, rfl⟩)

theorem fillInfo (s : State) (g : Nat) : FreezeFrame s (fillInfo s g) := by
  unfold Machine.fillInfo
  split
  · split
    · refine foldl (fun s c => ?_) _ _
      split
      · exact modCore s c _ (by exact fun _ => ⟨rfl, rfl, rfl, rfl⟩)
      · exact refl s
    · exact refl s
  · exact refl s

/-- The state in which a member has stopped, before the registers of its pack's FAULTINFO are written (R248, R251). -/
theorem stopped (s : State) (c : Nat) (f : Frozen) :
    FreezeFrame s (((Machine.freeEffects (Machine.returnReads s c) c).modLease c Bank.close).modCore c fun k => { k with frozen := some f }) :=
  (((returnReads s c).trans (freeEffects _ c)).trans (modLease _ c _)).trans (modCore _ c _ (by exact fun _ => ⟨rfl, rfl, rfl, rfl⟩))

theorem stopMember (s : State) (c held : Nat) (fault : Option FaultRec) (second late : Bool) :
    FreezeFrame s (stopMember s c held fault second late) := by
  unfold Machine.stopMember
  dsimp only
  split
  · exact refl s
  · split
    · exact refl s
    · split
      · exact ((stopped s c _).trans (fillInfo _ _)).trans (later ..)
      · exact (stopped s c _).trans (fillInfo _ _)

theorem moveFreeze (s : State) (p : Pack) (rel : Nat) : FreezeFrame s (moveFreeze s p rel) := by
  unfold Machine.moveFreeze
  exact foldl (fun s m => modCore s m _ (by exact fun _ => ⟨rfl, rfl, rfl, rfl⟩)) _ _

theorem freezeAt (s : State) (c t : Nat) (r : FaultRec) : FreezeFrame s (freezeAt s c t r) := by
  unfold Machine.freezeAt
  dsimp only
  have traced := trace s (stackOf c) 4 c (BitVec.ofNat 64 (BitVec.ofNat 64 t - (s.core c).tbase).toNat) (BitVec.ofNat 64 (r.code * 256 + r.cause))
  split
  · exact refl s
  · split
    · exact traced
    · split
      · refine trans ?_ (stopMember ..)
        split
        · exact ((traced.trans (modPack ..)).trans (foldl (fun _ _ => modLease ..) _ _)).trans (later ..)
        · exact (traced.trans (modPack ..)).trans (foldl (fun _ _ => modLease ..) _ _)
      · split
        · exact ((traced.trans (modPack ..)).trans (moveFreeze ..)).trans (stopMember ..)
        · exact traced.trans (stopMember ..)

end FreezeFrame

/-! ### What a stop records -/

/-- The FAULTINFO registers of one stopped member written, as `fillInfo` writes those of each in turn (R260). -/
def fillMember (z : Freeze) (s : State) (m : Nat) : State :=
  match (s.core m).frozen with
  | some f => s.modCore m fun k => { k with fi := faultInfo s m f z }
  | none => s

theorem fillInfo_eq_foldl {s : State} {g : Nat} {p : Pack} {z : Freeze} (hp : s.pack g = some p) (hz : p.freeze = some z) :
    fillInfo s g = p.members.foldl (fillMember z) s := by
  simp only [fillInfo, hp, hz]
  rfl

/-- The writing of another member's registers leaves a core alone. -/
theorem core_fillMember_ne (z : Freeze) (s : State) {m c : Nat} (h : c ≠ m) : (fillMember z s m).core c = s.core c := by
  unfold fillMember
  split
  · exact core_modCore_ne s _ h
  · rfl

theorem core_fillMember_self (z : Freeze) (s : State) {c : Nat} {f : Frozen} (h : (s.core c).frozen = some f) :
    (fillMember z s c).core c = { s.core c with fi := faultInfo s c f z } := by
  simp only [fillMember, h, core_modCore_self]

/-- A stopped core behind the writing of several members' registers: its own are those of its stop, if it is one of them or had them before. -/
theorem core_foldl_fillMember (z : Freeze) {c : Nat} {f : Frozen} (ms : List Nat) (s : State) (h : (s.core c).frozen = some f) :
    ∃ fi, (ms.foldl (fillMember z) s).core c = { s.core c with fi := fi } ∧
      (c ∈ ms ∨ (∃ u, (s.core c).fi = faultInfo u c f z) → ∃ u, fi = faultInfo u c f z) := by
  induction ms generalizing s with
  | nil => exact ⟨_, rfl, fun h => h.resolve_left List.not_mem_nil⟩
  | cons m ms ih =>
    by_cases e : c = m
    · subst e
      have first := core_fillMember_self z s h
      obtain ⟨fi, core, info⟩ := ih (fillMember z s c) (by rw [first]; exact h)
      exact ⟨fi, by rw [List.foldl_cons, core, first], fun _ => info (.inr ⟨s, by rw [first]⟩)⟩
    · have same := core_fillMember_ne z s e
      obtain ⟨fi, core, info⟩ := ih (fillMember z s m) (by rw [same]; exact h)
      refine ⟨fi, by rw [List.foldl_cons, core, same], fun member => info ?_⟩
      rw [same]
      simpa [e] using member

theorem returnReads_packs (s : State) (c : Nat) : (returnReads s c).packs = s.packs := by
  unfold returnReads
  dsimp only
  refine foldl_keeps State.packs (fun s p => ?_) _ _
  split <;> rfl

theorem modLease_packs (s : State) (c : Nat) (f : Bank → Bank) : (s.modLease c f).packs = s.packs :=
  foldl_keeps (f := fun (s : State) (b : Nat × Nat × Nat) => s.modBank b.1 b.2.1 b.2.2 f) State.packs (fun _ _ => rfl) _ s

theorem modLease_cores (s : State) (c : Nat) (f : Bank → Bank) : (s.modLease c f).cores = s.cores :=
  foldl_keeps (f := fun (s : State) (b : Nat × Nat × Nat) => s.modBank b.1 b.2.1 b.2.2 f) State.cores (fun _ _ => rfl) _ s

/-- A member of a frozen pack that stops holds its tick and its fault, and its FAULTINFO registers are those of its stop (R248, R260). -/
theorem stopMember_records {s : State} {c : Nat} {p : Pack} {z : Freeze} (hp : s.pack (s.core c).group = some p) (hz : p.freeze = some z)
    (hm : c ∈ p.members) (held : Nat) (fault : Option FaultRec) (second late : Bool) :
    ∃ f u, ((stopMember s c held fault second late).core c).frozen = some f ∧ f.held = held ∧ f.fault = fault ∧
      ((stopMember s c held fault second late).core c).fi = faultInfo u c f z := by
  unfold stopMember
  simp only [hp, hz]
  generalize hf : (⟨held, _, _, _, fault, second, late⟩ : Frozen) = f
  generalize hv : ((freeEffects (returnReads s c) c).modLease c Bank.close).modCore c _ = v
  have frozen : (v.core c).frozen = some f := by rw [← hv, core_modCore_self]
  have pack : v.pack (s.core c).group = some p := by
    rw [← hv, ← hp]
    show smFind ((freeEffects (returnReads s c) c).modLease c Bank.close).packs _ = smFind s.packs _
    rw [modLease_packs, ← returnReads_packs s c]
    rfl
  obtain ⟨fi, core, info⟩ := core_foldl_fillMember z p.members v frozen
  obtain ⟨u, rfl⟩ := info (.inl hm)
  rw [fillInfo_eq_foldl pack hz]
  refine ⟨f, u, ?_, by rw [← hf], by rw [← hf], ?_⟩
  · split <;> simpa [core] using frozen
  · split <;> simp [core]

theorem pack_modPack_self {s : State} {g : Nat} {p : Pack} (h : s.pack g = some p) (f : Pack → Pack) : (s.modPack g f).pack g = some (f p) := by
  simp only [State.modPack, h]
  exact smFind_smSet_self ..

/-- The first fault of a pack stops the member that it meets at its tick, with the fault (R248, R251, R260). -/
theorem freezeAt_records {s : State} {c : Nat} {p : Pack} (frozen : (s.core c).frozen = none) (hp : s.pack (s.core c).group = some p)
    (hm : c ∈ p.members) (hz : p.freeze = none) (t : Nat) (r : FaultRec) :
    ∃ z f u, ((freezeAt s c t r).core c).frozen = some f ∧ f.held = t ∧ f.fault = some r ∧ ((freezeAt s c t r).core c).fi = faultInfo u c f z := by
  unfold freezeAt
  simp only [frozen, Option.isSome_none, Bool.false_eq_true, if_false]
  generalize hu : s.trace _ _ _ _ _ = u
  have cores : u.cores = s.cores := by rw [← hu, State.trace_cores]
  have pack : u.pack (s.core c).group = some p := by rw [← hp, ← hu, State.pack, State.trace_packs, State.pack]
  simp only [pack, hz]
  generalize hv : (List.foldl _ (u.modPack _ _) _) = v
  have vcores : v.cores = s.cores := by
    rw [← hv, foldl_keeps State.cores fun s m => modLease_cores s m Bank.close, State.modPack_cores, cores]
  have vpack := pack_modPack_self pack fun p =>
    { p with freeze := some { phi := (BitVec.ofNat 64 t - (s.core c).tbase).toNat, primary := c, wall := u.now }, epoch := p.epoch + 1 }
  rw [State.pack, ← foldl_keeps (f := fun s m => s.modLease m Bank.close) State.packs (fun s m => modLease_packs s m Bank.close), hv] at vpack
  generalize hw : (if (v.liveMembers p).length > 1 then v.later 20 (.freezeNoticeArrive (s.core c).group) else v) = w
  have wcore : w.core c = s.core c := by
    rw [State.core, State.core, ← vcores, ← hw]
    split <;> rfl
  have wpack : w.packs = v.packs := by
    rw [← hw]
    split <;> rfl
  rw [← wpack, ← wcore] at vpack
  obtain ⟨f, x, records⟩ := stopMember_records (s := w) vpack rfl hm t (some r) false false
  exact ⟨_, f, x, records⟩

end Sys2Proof.Machine
end

section
/-!
O44: the maintenance of the HBM controller (R113 to R123, R129, R485), each step by a rule of its own.
-/
namespace Sys2Proof.Machine

@[simp] theorem Hbm.modBank_bank_self (h : Hbm) (p b : Nat) (f : Bank → Bank) : (h.modBank p b f).bank p b = f (h.bank p b) := by
  simp [Hbm.bank, Hbm.modBank]

@[simp] theorem hbm_modBank_self (s : State) (hs pc b : Nat) (f : Bank → Bank) :
    (s.modBank hs pc b f).hbm hs = (s.hbm hs).modBank pc b f := hbm_modHbm_self ..

@[simp] theorem Hbm.modPc_bank (h : Hbm) (p q b : Nat) (f : Pc → Pc) : (h.modPc p f).bank q b = h.bank q b := rfl

/-- The rescues that a stack owes are no part of its banks. -/
theorem Hbm.bank_with_rescue (h : Hbm) (l : List (Nat × Nat)) (p b : Nat) : ({ h with rescue := l } : Hbm).bank p b = h.bank p b := rfl

/-! ### Lent spans (R114, R118) -/

theorem lentSpanStart_precharges (s : State) (hs pc f : Nat) :
    ∃ t, exec (.lentSpanStart hs pc f) s = .next t ∧ sameMem s t ∧ sameRegs s t ∧
      ((t.hbm hs).bank pc ((s.hbm hs).phys pc (f % 64))).row = none ∧ ∀ q, q ≠ hs → t.hbm q = s.hbm q := by
  refine ⟨_, exec_lentSpanStart .., .refl s, sameRegs_of_cores rfl, ?_, fun q hq => hbm_modHbm_ne s _ hq⟩
  simp [modLent]

theorem lentSpanEnd_refreshes (s : State) (hs pc f : Nat) : let b := (s.hbm hs).phys pc (f % 64)
    ∃ t, exec (.lentSpanEnd hs pc f) s = .next t ∧ sameMem s t ∧ sameRegs s t ∧ ((t.hbm hs).bank pc b).row = none ∧
      ((t.hbm hs).bank pc b).busy ≤ ((t.hbm hs).bank pc b).ref ∧
      ((t.hbm hs).bank pc b).ref = ((4096 * f + 4095 : Nat) : Int) - behind s hs pc b ∧ (pc, b) ∉ (t.hbm hs).rescue := by
  intro b
  refine ⟨_, exec_lentSpanEnd .., .refl s, sameRegs_of_cores rfl, ?_⟩
  simp only [modLent, hbm_modHbm_self, hbm_modBank_self]
  rw [Hbm.bank_with_rescue, Hbm.modBank_bank_self]
  exact ⟨rfl, min_le_right _ _, rfl, by simp [b]⟩

/-! ### Holes (R113, R115 to R118, R129) -/

theorem StackLog.verifyBurst (stamp : Nat) (s : State) (cell : Nat) : StackLog s (verifyBurst stamp s cell) :=
  ((StackLog.modHbm s (locHs cell) (fun h => { h with backlog := h.backlog.erase cell }) fun _ => ⟨rfl, rfl, rfl⟩).trans
    (.freeFails _ 4)).trans (.readBurst ..)

theorem StackLog.scrubBurst (stamp cell : Nat) (s : State) : StackLog s (scrubBurst stamp cell s) := by
  unfold Machine.scrubBurst
  dsimp only
  have drawn := StackLog.freeFails s 4
  generalize Machine.freeFails s 4 = r at drawn ⊢
  generalize hu : (if r.1 = 0 then r.2.2 else Machine.resent _ _ _ _) = u
  have sent : StackLog s u := by
    rw [← hu]
    split
    · exact drawn
    · exact drawn.trans (.resent ..)
  split
  · exact sent
  · split
    · exact sent.trans (.hbmLog ..)
    · exact (((sent.trans (.freeFails u 3)).trans (.writeTransfer ..)).trans (.hbmLog ..)).trans (.rewritten ..)

/-- The frame tick stands at a place of the hole of a frame (R113). -/
theorem frameTick_in_hole {s : State} {hs pc f off : Nat} (ht : frameTick s hs pc = ((4096 * f + 4032 + off : Nat) : Int)) (ho : off < 64) :
    ¬ (decide (frameTick s hs pc < ((4096 * f + 4032 : Nat) : Int)) || decide ((4096 * f + 4096 : Int) ≤ frameTick s hs pc)) = true ∧
      (frameTick s hs pc - ((4096 * f + 4032 : Nat) : Int)).toNat = off := by
  rw [ht, Bool.or_eq_true, decide_eq_true_eq, decide_eq_true_eq]
  omega

/-- The column commands of a hole, behind its first stamp (R116). -/
theorem exec_holeMaintenance_columns {s : State} {hs pc f k : Nat} (hk : 0 < k) (hk' : k < 8)
    (ht : frameTick s hs pc = ((4096 * f + 4032 + 2 * k : Nat) : Int)) :
    exec (.holeMaintenance hs pc f) s = .next (holeColumns s hs pc ((s.hbm hs).phys pc (f % 64)) (4096 * f + 4032) k) := by
  obtain ⟨inside, off⟩ := frameTick_in_hole ht (by omega)
  rw [exec_holeMaintenance, execHoleMaintenance]
  dsimp only
  rw [if_neg inside, off, if_neg (by simp; omega), if_pos (by omega), if_neg (by omega), Nat.mul_div_cancel_left k (by decide)]

/-- The first ACT-class command of a hole of a stack with no directed refresh queued (R116). -/
theorem exec_holeMaintenance_act {s : State} {hs pc f : Nat} (ht : frameTick s hs pc = ((4096 * f + 4032 + 16 : Nat) : Int))
    (hd : (s.hbm hs).drfm = []) :
    exec (.holeMaintenance hs pc f) s = .next (holeAct s hs pc ((s.hbm hs).phys pc ((f + 1) % 64)) (4096 * f + 4032) 16) := by
  obtain ⟨inside, off⟩ := frameTick_in_hole ht (by decide)
  rw [exec_holeMaintenance, execHoleMaintenance]
  dsimp only
  rw [if_neg inside, off, hd]
  simp

/-- The hole before a REBASE, where a swap is pending (R129, R516). -/
theorem exec_holeMaintenance_swap {s : State} {hs pc f : Nat} (ht : frameTick s hs pc < 0) (hq : ((s.hbm hs).pc pc).swap = true) :
    exec (.holeMaintenance hs pc f) s = .next (swapLane s hs pc (2 ^ 32 - 64)) := by
  rw [exec_holeMaintenance, execHoleMaintenance]
  dsimp only
  rw [if_pos (by rw [Bool.or_eq_true, decide_eq_true_eq, decide_eq_true_eq]; omega), if_pos hq]

/-- Behind the last columns of a hole the patrol scrub of the bank is one row on (R117). -/
theorem holeColumns_last {s : State} {hs pc bank stamp : Nat} (row : ((s.hbm hs).bank pc bank).row = some (smGet 0 (s.hbm hs).scrub (bankIx pc bank)))
    (clear : ctlClear s hs pc 3 bank ((stamp + 2 * 7 : Nat) : Int) [] = true) :
    ∃ u, StackLog s u ∧ holeColumns s hs pc bank stamp 7 =
      u.modHbm hs fun h => { h with scrub := smSet h.scrub (bankIx pc bank) ((smGet 0 (s.hbm hs).scrub (bankIx pc bank) + 1) % 16384) } := by
  unfold holeColumns
  simp only [row, clear, Bool.not_true, Bool.false_eq_true, if_false, if_true]
  generalize hv : List.foldl (verifyBurst stamp) s _ = v
  have verified : StackLog s v := hv ▸ StackLog.foldl (fun _ _ => .verifyBurst ..) _ s
  rw [if_neg (by rw [verified.scrub]; exact fun h => h rfl)]
  exact ⟨_, verified.trans (.foldl (fun _ _ => .scrubBurst ..) _ v), rfl⟩

/-- Where the rules before it allow it, the first ACT-class command of a hole opens the row to be scrubbed next (R116, R117). -/
theorem holeAct_opens {s : State} {hs pc bank stamp : Nat} (pre : ctlClear s hs pc 8 64 ((stamp + 16 : Nat) : Int) [] = true)
    (act : ctlClear s hs pc 7 bank ((stamp + 16 : Nat) : Int) [] = true) (closed : ((s.hbm hs).bank pc bank).row = none)
    (hd : (s.hbm hs).drfm = []) (hr : (s.hbm hs).rescue = []) (hb : (s.hbm hs).backlog = []) :
    holeAct s hs pc bank stamp 16 = s.modBank hs pc bank fun b => { b with row := some (smGet 0 (s.hbm hs).scrub (bankIx pc bank)) } := by
  simp only [holeAct, if_true, pre, act, closed]
  simp [hd, hr, backlogOf, hb]

/-- Where the rules before it allow it, the first ACT-class command of a hole refreshes a bank that awaits its rescue (R117, R118). -/
theorem holeAct_rescues {s : State} {hs pc bank stamp : Nat} (pre : ctlClear s hs pc 8 64 ((stamp + 16 : Nat) : Int) [] = true)
    (act : ctlClear s hs pc 7 bank ((stamp + 16 : Nat) : Int) [] = true) (closed : ((s.hbm hs).bank pc bank).row = none)
    (hd : (s.hbm hs).drfm = []) (hr : (pc, bank) ∈ (s.hbm hs).rescue) :
    holeAct s hs pc bank stamp 16 = (s.modBank hs pc bank fun b => { b with ref := ((stamp + 16 : Nat) : Int) - behind s hs pc bank }).modHbm hs
      fun h => { h with rescue := h.rescue.filter (· ≠ (pc, bank)) } := by
  simp only [holeAct, if_true, pre, act, closed]
  simp [hd, hr, rescueRefresh]

/-! ### Refresh (R118, R119, R123) -/

/-- The fault word of FAULTINFO0 begins with the code and the cause (R260). -/
theorem wfld_faultWord (x code cause : Nat) (hc : code < 256) (hk : cause < 256) :
    wfld (BitVec.ofNat 64 (x * 2 ^ 16 + cause * 2 ^ 8 + code)) 7 0 = code ∧ wfld (BitVec.ofNat 64 (x * 2 ^ 16 + cause * 2 ^ 8 + code)) 15 8 = cause := by
  simp only [wfld, fld, BitVec.toNat_ofNat]
  omega

theorem faultInfo_word0 (u : State) (c : Nat) (f : Frozen) (z : Freeze) {r : FaultRec} (hf : f.fault = some r) (hc : r.code < 256) (hk : r.cause < 256) :
    wfld (smGet 0 (faultInfo u c f z) 0) 7 0 = r.code ∧ wfld (smGet 0 (faultInfo u c f z) 0) 15 8 = r.cause := by
  have word : ∃ x, smGet 0 (faultInfo u c f z) 0 = BitVec.ofNat 64 (x * 2 ^ 16 + r.cause * 2 ^ 8 + r.code) := by
    refine ⟨r.incause * 2 ^ 24 + r.incode * 2 ^ 16 + (replays (u.core c).task).length * 2 ^ 8 + b2n f.late * 2 ^ 6 + b2n f.second * 2 ^ 5
      + b2n (z.primary = c) * 2 ^ 4 + r.src, ?_⟩
    simp only [faultInfo, hf, Option.getD_some, smGet, smFind, if_true]
    exact congrArg (BitVec.ofNat 64) (by omega)
  obtain ⟨x, e⟩ := word
  rw [e]
  exact wfld_faultWord x r.code r.cause hc hk

/-- The state in which the rescue of a bank is queued (R118). -/
def awaitRescue (s : State) (hs pc bank : Nat) : State :=
  s.modHbm hs fun h => { h with rescue := if h.rescue.contains (pc, bank) then h.rescue else h.rescue ++ [(pc, bank)] }

theorem mem_rescue_awaitRescue (s : State) (hs pc bank : Nat) : (pc, bank) ∈ ((awaitRescue s hs pc bank).hbm hs).rescue := by
  rw [awaitRescue, hbm_modHbm_self]
  dsimp only
  split
  · next h => exact List.contains_iff_mem.mp h
  · simp

theorem refreshWindowExpire_faults (s : State) (c hs pc bank : Nat) :
    ∃ u t, exec (.refreshWindowExpire c hs pc bank) s = .next t ∧ sameMem s t ∧ sameRegs s t ∧ (pc, bank) ∈ (t.hbm hs).rescue ∧ u.cores = s.cores ∧
      t = takeFault u c false (s.tick c false)
        (faultOf { core := c } 7 4 5 0 (dramAux (((s.hbm hs).bank pc bank).ref % 2 ^ 32).toNat (s.rel c).toNat)) ∧
      ∀ g p, (s.core c).frozen = none → (s.core c).group = g → s.pack g = some p → c ∈ p.members → p.freeze = none →
        ∃ z r, (t.core c).frozen = some z ∧ z.held = s.tick c false ∧ z.fault = some r ∧ r.code = 4 ∧ r.cause = 5 ∧
          wfld (smGet 0 (t.core c).fi 0) 7 0 = 4 ∧ wfld (smGet 0 (t.core c).fi 0) 15 8 = 5 := by
  have frame := FreezeFrame.freezeAt (awaitRescue s hs pc bank) c (s.tick c false)
    (faultOf { core := c } 7 4 5 0 (dramAux (((s.hbm hs).bank pc bank).ref % 2 ^ 32).toNat (s.rel c).toNat))
  refine ⟨awaitRescue s hs pc bank, _, exec_refreshWindowExpire .., sameMem_of_mem frame.mem, sameRegs.trans (sameRegs_of_cores rfl) frame.regs, ?_, rfl,
    rfl, fun g p thawed hg hp hm hz => ?_⟩
  · exact (frame.rescue hs).symm ▸ mem_rescue_awaitRescue s hs pc bank
  · subst hg
    obtain ⟨z, f, u, frozen, held, fault, info⟩ := freezeAt_records (s := awaitRescue s hs pc bank) thawed hp hm hz (s.tick c false)
      (faultOf { core := c } 7 4 5 0 (dramAux (((s.hbm hs).bank pc bank).ref % 2 ^ 32).toNat (s.rel c).toNat))
    obtain ⟨code, cause⟩ := faultInfo_word0 u c f z fault (show 4 < 256 by decide) (show 5 < 256 by decide)
    exact ⟨f, _, frozen, held, fault, rfl, rfl, info ▸ code, info ▸ cause⟩

theorem safetyRefresh_refreshes (s : State) (hs pc bank : Nat) :
    ∃ t, exec (.safetyRefresh hs pc bank) s = .next t ∧ sameMem s t ∧ sameRegs s t ∧ ((t.hbm hs).pc pc).hold = s.now + 2880 ∧
      ((t.hbm hs).bank pc bank).ref = frameTick s hs pc - behind s hs pc bank := by
  refine ⟨_, exec_safetyRefresh .., .refl s, sameRegs_of_cores rfl, ?_, ?_⟩
  · rw [hbm_modHbm_self, Hbm.modPc_pc_self]
    rfl
  · rw [hbm_modHbm_self, hbm_modBank_self]
    rw [Hbm.modPc_bank, Hbm.modBank_bank_self]

theorem idlePcRefresh_refreshes (s : State) (hs pc : Nat) (idle : ((s.hbm hs).pc pc).mode ≠ 1) :
    ∃ t, exec (.idlePcRefresh hs pc) s = .next t ∧ sameMem s t ∧ sameRegs s t ∧ ((t.hbm hs).pc pc).refreshed = s.now := by
  have verified := StackLog.foldl (fun s x => StackLog.verifyBurst 0 s x) ((s.hbm hs).backlog.filter fun x => locPc x = pc) s
  rw [exec_idlePcRefresh, execIdlePcRefresh]
  simp only [idle, ne_eq, not_false_eq_true, decide_true, Bool.true_or, if_true]
  generalize List.foldl (verifyBurst 0) s _ = v at verified ⊢
  refine ⟨_, rfl, sameMem_of_mem verified.mem, sameRegs_of_cores verified.cores, ?_⟩
  rw [hbm_modHbm_self, Hbm.modPc_pc_self]
  exact verified.now

/-! ### Counters and temperature (R129, R485) -/

theorem Pc.rcnt_clearWindow (q : Pc) : q.clearWindow.rcnt = 0 := by
  unfold Pc.clearWindow
  split <;> rfl

theorem rcntWindowClear_clears (s : State) (hs : Nat) :
    ∃ t, exec (.rcntWindowClear hs) s = .next t ∧ sameMem s t ∧ sameRegs s t ∧ ∀ q, ((t.hbm hs).pc q).rcnt = 0 := by
  refine ⟨_, exec_rcntWindowClear .., .refl s, sameRegs_of_cores rfl, fun q => ?_⟩
  rw [State.later_hbm, hbm_modHbm_self]
  simp only [Hbm.pc, smGet, smFind_smMap]
  cases smFind (s.hbm hs).pcs q with
  | none => rfl
  | some p => exact p.rcnt_clearWindow

/-- A temperature 2 °C below the lower edge of a band lies in a lower band. -/
theorem bandOf_le_pred {t b : Nat} (h : t + 8 ≤ bandEdge b) : bandOf t ≤ b - 1 := by
  unfold bandEdge at h
  unfold bandOf
  split_ifs <;> omega

/-- After a reading the band is at least that of the reading, and no more where it has risen (R485). -/
theorem Hbm.band_heated (h : Hbm) (t : Nat) : (h.band < bandOf t → (h.heated t).band = bandOf t) ∧ bandOf t ≤ (h.heated t).band := by
  unfold Hbm.heated
  dsimp only
  generalize hg : (if bandOf t > 1 then { h with coolMs := 0 } else { h with coolMs := h.coolMs + 1 }) = g
  have band : g.band = h.band := by
    rw [← hg]
    split <;> rfl
  rw [← band]
  split
  · exact ⟨fun _ => rfl, le_rfl⟩
  · next low =>
    refine ⟨fun rise => absurd rise low, ?_⟩
    split
    · next cool =>
      rw [Bool.and_eq_true, decide_eq_true_eq, decide_eq_true_eq] at cool
      split
      · exact bandOf_le_pred cool.2
      · exact Nat.not_lt.mp low
    · exact Nat.not_lt.mp low

theorem beginEmergency_frame (s : State) :
    (beginEmergency s).mem = s.mem ∧ (beginEmergency s).cores = s.cores ∧ (beginEmergency s).hbms = s.hbms := by
  unfold beginEmergency
  split <;> exact ⟨rfl, rfl, rfl⟩

theorem hbmTemperatureRead_heats (s : State) (hs temp : Nat) :
    ∃ t, exec (.hbmTemperatureRead hs temp) s = .next t ∧ sameMem s t ∧ sameRegs s t ∧
      ((s.hbm hs).band < bandOf temp → (t.hbm hs).band = bandOf temp) ∧ bandOf temp ≤ (t.hbm hs).band := by
  rw [exec_hbmTemperatureRead, execHbmTemperatureRead]
  dsimp only
  generalize hv : (if ((s.modHbm hs (·.heated temp)).hbm hs).band = 3 then _ else _) = v
  obtain ⟨mem, cores, band⟩ : v.mem = s.mem ∧ v.cores = s.cores ∧ (v.hbm hs).band = ((s.hbm hs).heated temp).band := by
    rw [← hv]
    split
    · obtain ⟨mem, cores, hbms⟩ := beginEmergency_frame ((s.modHbm hs (·.heated temp)).modHbm hs fun h => { h with hot := true })
      refine ⟨mem, cores, ?_⟩
      rw [State.hbm, hbms]
      show ((State.modHbm _ hs _).hbm hs).band = _
      rw [hbm_modHbm_self, hbm_modHbm_self]
    · exact ⟨rfl, rfl, by rw [hbm_modHbm_self]⟩
  refine ⟨_, rfl, sameMem_of_mem mem, sameRegs_of_cores cores, ?_⟩
  show (_ → (v.hbm hs).band = _) ∧ _ ≤ (v.hbm hs).band
  rw [band]
  exact Hbm.band_heated ..

/-! ### The steps together -/

theorem holeMaintenance_columns (s : State) (hs pc f : Nat) (ht : frameTick s hs pc = ((4096 * f + 4046 : Nat) : Int))
    (row : ((s.hbm hs).bank pc ((s.hbm hs).phys pc (f % 64))).row = some (smGet 0 (s.hbm hs).scrub (bankIx pc ((s.hbm hs).phys pc (f % 64)))))
    (clear : ctlClear s hs pc 3 ((s.hbm hs).phys pc (f % 64)) ((4096 * f + 4046 : Nat) : Int) [] = true) :
    ∃ t, exec (.holeMaintenance hs pc f) s = .next t ∧ sameMem s t ∧ sameRegs s t ∧
      smGet 0 (t.hbm hs).scrub (bankIx pc ((s.hbm hs).phys pc (f % 64))) =
        (smGet 0 (s.hbm hs).scrub (bankIx pc ((s.hbm hs).phys pc (f % 64))) + 1) % 16384 := by
  have place : 4096 * f + 4046 = 4096 * f + 4032 + 2 * 7 := by omega
  rw [place] at ht clear
  obtain ⟨u, scrubbed, e⟩ := holeColumns_last row clear
  refine ⟨_, exec_holeMaintenance_columns (by decide) (by decide) ht, ?_⟩
  rw [e]
  refine ⟨sameMem_of_mem scrubbed.mem, sameRegs_of_cores scrubbed.cores, ?_⟩
  rw [hbm_modHbm_self]
  exact smGet_smSet_self ..

theorem holeMaintenance_act (s : State) (hs pc f : Nat) (ht : frameTick s hs pc = ((4096 * f + 4048 : Nat) : Int))
    (pre : ctlClear s hs pc 8 64 ((4096 * f + 4048 : Nat) : Int) [] = true)
    (act : ctlClear s hs pc 7 ((s.hbm hs).phys pc ((f + 1) % 64)) ((4096 * f + 4048 : Nat) : Int) [] = true)
    (closed : ((s.hbm hs).bank pc ((s.hbm hs).phys pc ((f + 1) % 64))).row = none) (hd : (s.hbm hs).drfm = []) :
    let into := (s.hbm hs).phys pc ((f + 1) % 64)
    ((s.hbm hs).rescue = [] → (s.hbm hs).backlog = [] → ∃ t, exec (.holeMaintenance hs pc f) s = .next t ∧ sameMem s t ∧ sameRegs s t ∧
      ((t.hbm hs).bank pc into).row = some (smGet 0 (s.hbm hs).scrub (bankIx pc into))) ∧
    ((pc, into) ∈ (s.hbm hs).rescue → ∃ t, exec (.holeMaintenance hs pc f) s = .next t ∧ sameMem s t ∧ sameRegs s t ∧
      (pc, into) ∉ (t.hbm hs).rescue ∧ ((t.hbm hs).bank pc into).ref = ((4096 * f + 4048 : Nat) : Int) - behind s hs pc into) := by
  intro into
  have place : 4096 * f + 4048 = 4096 * f + 4032 + 16 := by omega
  rw [place] at ht pre act ⊢
  refine ⟨fun hr hb => ⟨_, exec_holeMaintenance_act ht hd, ?_⟩, fun hr => ⟨_, exec_holeMaintenance_act ht hd, ?_⟩⟩
  · rw [holeAct_opens pre act closed hd hr hb]
    refine ⟨.refl s, sameRegs_of_cores rfl, ?_⟩
    rw [hbm_modBank_self, Hbm.modBank_bank_self]
  · rw [holeAct_rescues pre act closed hd hr]
    refine ⟨.refl s, sameRegs_of_cores rfl, ?_⟩
    rw [hbm_modHbm_self, hbm_modBank_self]
    rw [Hbm.bank_with_rescue, Hbm.modBank_bank_self]
    exact ⟨by simp [into], rfl⟩

theorem holeMaintenance_swap (s : State) (hs pc f : Nat) (ht : frameTick s hs pc < 0) (hq : ((s.hbm hs).pc pc).swap = true) :
    ∃ t, exec (.holeMaintenance hs pc f) s = .next t ∧ sameMem s t ∧ sameRegs s t ∧ ((t.hbm hs).pc pc).swap = false :=
  ⟨_, exec_holeMaintenance_swap ht hq, sameMem_of_mem (StackLog.swapLane ..).mem, sameRegs_of_cores (StackLog.swapLane ..).cores,
    swap_swapLane s hs pc _⟩

/-- Settles O44: each step of the controller by its own rule. -/
theorem controllerSteps : Obligations.ControllerSteps := by
  intro s hs pc f bank c temp
  exact ⟨lentSpanStart_precharges s hs pc f, lentSpanEnd_refreshes s hs pc f, holeMaintenance_columns s hs pc f,
    holeMaintenance_act s hs pc f, holeMaintenance_swap s hs pc f, refreshWindowExpire_faults s c hs pc bank,
    safetyRefresh_refreshes s hs pc bank, idlePcRefresh_refreshes s hs pc, rcntWindowClear_clears s hs, hbmTemperatureRead_heats s hs temp⟩

end Sys2Proof.Machine
end

section
/-!
O28: a timeline word that passes its checks posts one command (R101, R420 to R429). What the checks of R422 ask of the locations of a command is
`openAt`; what the posting leaves behind is one command with the bursts and rows that its word asks for.
-/
namespace Sys2Proof.Machine

/-! ### Sequences of checks (R422) -/

@[simp] theorem chk_eq_none (bad : Bool) (f : Flt) : chk bad f = none ↔ bad = false := by cases bad <;> simp [chk]

theorem firstFlt_eq_none (cs : List (Option Flt)) : firstFlt cs = none ↔ ∀ c ∈ cs, c = none := by
  induction cs with
  | nil => simp [firstFlt]
  | cons c cs ih =>
    cases c with
    | none => simp [firstFlt, ih]
    | some f => simp [firstFlt]

/-! ### Posting (R101, R424) -/

/-- The bursts of the command that a word asks for, at its stamp and with its locations; of a command other than reads and writes none. -/
def TlAsk.burstsAt (q : TlAsk) (s : State) (st : Nat) (locs : List Nat) : List Burst :=
  if isCol q.op then
    List.zipWith (fun y f => ⟨y.2, y.1, f⟩) ((stamped q (s.ccore.lease.cls = 1) st locs).map fun x => (x.1, s.fromBase x.2)) q.foffs
  else []

/-- The rows of the command that a word asks for; of reads and writes none. -/
def TlAsk.rowsAt (q : TlAsk) (locs : List Nat) : List Nat := if isCol q.op then [] else locs

/-- Stamped locations are the locations. -/
theorem map_fst_stamped (q : TlAsk) (half : Bool) (st : Nat) (locs : List Nat) : (stamped q half st locs).map (·.1) = locs := by
  unfold stamped
  split
  · exact List.ext_getElem (by simp) fun i _ _ => by simp
  · rw [List.map_map]
    exact List.map_id locs

theorem noteOrder_frame (k : Core) (op : Nat) (xs : List (Nat × Nat)) :
    (k.noteOrder op xs).task = k.task ∧ (k.noteOrder op xs).mrf = k.mrf ∧ (k.noteOrder op xs).bypass = k.bypass := by
  unfold Core.noteOrder
  split
  · exact ⟨rfl, rfl, rfl⟩
  · split <;> exact ⟨rfl, rfl, rfl⟩

theorem postCommand_mem (s : State) (q : TlAsk) (st : Nat) (xs : List (Nat × Nat)) : (postCommand s q st xs).mem = s.mem := by
  simp [postCommand]

theorem postCommand_sameRegs (s : State) (q : TlAsk) (st : Nat) (xs : List (Nat × Nat)) : sameRegs s (postCommand s q st xs) := by
  unfold postCommand
  dsimp only
  refine ((access_sameRegs s _ _ _).trans (sameRegs_of_cores (State.trace_cores ..))).trans (sameRegs_modCore _ _ _ fun k => ?_)
  obtain ⟨task, mrf, bypass⟩ := noteOrder_frame k q.op (xs.map fun x => (x.1, s.fromBase x.2))
  exact ⟨congrArg Thread.regs task, congrArg Thread.preds task, mrf, bypass⟩

/-- The posting puts one command at the end of the queue of its core. -/
theorem postCommand_tlq (s : State) (q : TlAsk) (st : Nat) (locs : List Nat) :
    ∃ x, ((postCommand s q st (stamped q (s.ccore.lease.cls = 1) st locs)).core s.cur.core).tlq = s.ccore.tlq ++ [x] ∧
      x.op = q.op ∧ x.stamp = st ∧ x.tick = s.fromBase st ∧ x.bursts = q.burstsAt s st locs ∧ x.rows = q.rowsAt locs := by
  unfold postCommand
  dsimp only
  rw [core_modCore_self]
  refine ⟨_, congrArg (· ++ [_]) ?_, rfl, rfl, rfl, rfl, ?_⟩
  · rw [State.trace_core, State.access, core_modThread_self, Core.modThread_tlq]
    rfl
  · rw [TlAsk.rowsAt, map_fst_stamped]

/-! ### The issue of a timeline word -/

section
variable {s : State} {i : Instr} {t : BitVec 6} {ask : State → TlAsk}

/-- A reserved bit in the descriptor faults ILLEGAL, cause RESERVED, before any other check (R422). -/
theorem exec_timeline_reserved (hx : exec i s = issueTimeline s i t ask) (hi : issues s i .task = true) (hb : (ask s).bad = true) :
    exec i s = .next (raise s 5 1 1) := by
  rw [hx, issueTimeline, issueWord_of_issues hi]
  simp [hb, chk, firstFlt, raiseFlt]

/-- A word that passes every check of R422 posts its command. -/
theorem timeline_posts {st : Nat} {locs : List Nat} (hx : exec i s = issueTimeline s i t ask) (hi : issues s i .task = true)
    (hb : (ask s).bad = false) (he : firstFlt (ask s).early = none) (hl : askLocs s (ask s) = .ok locs) (ho : offsetOf s t.toNat = some st)
    (hc : lateChecks s (ask s) (some st) st (stamped (ask s) (s.ccore.lease.cls = 1) st locs) = none) :
    postsCommand s i (ask s).op st ((ask s).burstsAt s st locs) ((ask s).rowsAt locs) := by
  refine ⟨postCommand s (ask s) st (stamped (ask s) (s.ccore.lease.cls = 1) st locs), ?_, sameMem_of_mem (postCommand_mem ..),
    postCommand_sameRegs _ _ _ _, postCommand_tlq ..⟩
  rw [hx, issueTimeline, issueWord_of_issues hi]
  simp only [hb, chk, Bool.false_eq_true, if_false, firstFlt, he, hl, ho, Option.getD_some, hc]

end

/-! ### The checks of R422 from order 6 on, for open locations -/

/-- The two rows of an MCOPY or MCMP lie in one PC, in two of its banks (R427, R428). -/
def PairFits (s : State) (op : Nat) (locs : List Nat) : Prop :=
  ∀ a b, locs = [a, b] → op = 10 ∨ op = 11 → locHs a = locHs b ∧ locPc a = locPc b ∧
    (s.hbm (locHs a)).phys (locPc a) (locBank a) ≠ (s.hbm (locHs a)).phys (locPc a) (locBank b)

theorem badRows_eq_false {s : State} {op : Nat} {locs : List Nat} (pair : PairFits s op locs)
    (inService : s.ccore.lease.cls = 2 → op = 0 ∨ isCol op = true ∨ isMem op = true → ∀ x ∈ locs, locRow x < 8192) :
    badRows s op locs = false := by
  have fold : (s.ccore.lease.cls = 2 && (op = 0 || isCol op || isMem op) && locs.any fun x => locRow x ≥ 8192) = false := by
    rw [Bool.eq_false_iff]
    simp only [ne_eq, Bool.and_eq_true, Bool.or_eq_true, decide_eq_true_eq, List.any_eq_true, or_assoc]
    rintro ⟨⟨cls, kind⟩, x, hx, high⟩
    exact absurd (inService cls kind x hx) (Nat.not_lt.mpr high)
  unfold badRows
  rw [fold, Bool.false_or]
  split
  · next a b =>
    obtain ⟨hs, pc, bank⟩ := pair a b rfl (.inl rfl)
    simpa [hs, pc] using bank
  · next a b =>
    obtain ⟨hs, pc, bank⟩ := pair a b rfl (.inr rfl)
    simpa [hs, pc] using bank
  · rfl

/-! What an open location is, part by part. -/

section
variable {s : State} {op loc x : Nat} (h : openAt s op loc x)
include h

theorem openAt.stack : locHs loc / 4 = stackOf s.cur.core := by obtain ⟨a, -⟩ := h; exact a
theorem openAt.mode : ((s.hbm (locHs loc)).pc (locPc loc)).mode ≠ 2 := by obtain ⟨-, a, -⟩ := h; exact a
theorem openAt.slot : leaseKey s.cur.core loc ∈ s.ccore.lease.entry.slots := by obtain ⟨-, -, a, -⟩ := h; exact a
theorem openAt.lane : bit (laneMask (if isCol op then s.ccore.lease.entry.cols else s.ccore.lease.entry.rows) s.cur.core loc) (x / 2 % 8) = true := by
  obtain ⟨-, -, -, a, -⟩ := h; exact a
theorem openAt.row : s.ccore.lease.cls = 2 → op = 0 ∨ isCol op = true ∨ isMem op = true → locRow loc < 8192 := by
  obtain ⟨-, -, -, -, a, -⟩ := h; exact a
theorem openAt.order : ∀ p, smFind (if isCol op then s.ccore.lastCol else s.ccore.lastRow) (pcKey loc) = some p → p < s.fromBase x := by
  obtain ⟨-, -, -, -, -, a, -⟩ := h; exact a
theorem openAt.hole : (inHole x || rebaseHole s (s.fromBase x)) = false := by
  obtain ⟨-, -, -, -, -, -, a, b, -⟩ := h; rw [a, b]; rfl
theorem openAt.care : inCare s.ccore (s.fromBase x) = false := by obtain ⟨-, -, -, -, -, -, -, -, a, -⟩ := h; exact a
theorem openAt.lent : op ≠ 2 → op ≠ 8 → lentAt s loc x = false := by obtain ⟨-, -, -, -, -, -, -, -, -, a⟩ := h; exact a

end

section
variable {s : State} {op : Nat} {xs : List (Nat × Nat)} (isOpen : ∀ x ∈ xs, openAt s op x.1 x.2)
include isOpen

/-- The lease checks pass where the locations are open, and the lease holds every bank of the PC that a PREA or a REFAB names (R422 order 7). -/
theorem leaseChecks_pass (addr : Word)
    (whole : op = 2 ∨ op = 8 → (s.ccore.lease.entry.slots.filter fun x => x.1 = (leaseKey s.cur.core ((xs.map (·.1)).headD 0)).1 &&
      x.2.1 = (leaseKey s.cur.core ((xs.map (·.1)).headD 0)).2.1).length = 64) :
    ∀ c ∈ leaseChecks s op addr xs, c = none := by
  have stack : ((xs.map (·.1)).any fun x => locHs x / 4 ≠ stackOf s.cur.core) = false := by
    simpa using fun l st h => (isOpen (l, st) h).stack
  have mode : ((xs.map (·.1)).any fun x => ((s.hbm (locHs x)).pc (locPc x)).mode = 2) = false := by
    simpa using fun l st h => (isOpen (l, st) h).mode
  have slot : ((xs.map (·.1)).any fun x => !s.ccore.lease.entry.slots.contains (leaseKey s.cur.core x)) = false := by
    simpa using fun l st h => (isOpen (l, st) h).slot
  have lane : (xs.any fun x => !bit (laneMask (if isCol op then s.ccore.lease.entry.cols else s.ccore.lease.entry.rows) s.cur.core x.1)
      (x.2 / 2 % 8)) = false := by
    simpa using fun l st h => (isOpen (l, st) h).lane
  have held : ((op = 2 || op = 8) && (s.ccore.lease.entry.slots.filter fun x => x.1 = (leaseKey s.cur.core ((xs.map (·.1)).headD 0)).1 &&
      x.2.1 = (leaseKey s.cur.core ((xs.map (·.1)).headD 0)).2.1).length ≠ 64) = false := by
    rw [Bool.eq_false_iff]
    simp only [ne_eq, Bool.and_eq_true, Bool.or_eq_true, decide_eq_true_eq]
    exact fun h => h.2 (whole h.1)
  simp only [leaseChecks, List.forall_mem_cons, chk_eq_none]
  exact ⟨stack, mode, slot, held, lane, by simp⟩

/-- No location stands at or before the last posting to its PC (R102). -/
theorem orderCheck_pass : ∀ x ∈ xs, orderCheck s op x = none := by
  intro x hx
  unfold orderCheck
  split
  · next p hp => exact (chk_eq_none ..).mpr (decide_eq_false (Nat.not_le.mpr ((isOpen x hx).order p hp)))
  · rfl

/-- The order and frame checks pass where the locations are open (R422 order 10). -/
theorem frameChecks_pass (stamp : Nat) : ∀ c ∈ frameChecks s op stamp xs, c = none := by
  have hole : (xs.any fun x => inHole x.2 || rebaseHole s (s.fromBase x.2)) = false :=
    List.any_eq_false.mpr fun x hx => Bool.eq_false_iff.mp (isOpen x hx).hole
  have lent : (op ≠ 2 && op ≠ 8 && xs.any fun x => lentAt s x.1 x.2) = false := by
    rw [Bool.eq_false_iff]
    simp only [ne_eq, Bool.and_eq_true, decide_eq_true_eq, List.any_eq_true]
    rintro ⟨⟨prea, refab⟩, x, hx, lent⟩
    rw [(isOpen x hx).lent prea refab] at lent
    cases lent
  have care : (xs.any fun x => inCare s.ccore (s.fromBase x.2)) = false :=
    List.any_eq_false.mpr fun x hx => Bool.eq_false_iff.mp (isOpen x hx).care
  simp only [frameChecks, List.forall_mem_append, List.forall_mem_map, List.forall_mem_cons, chk_eq_none]
  exact ⟨orderCheck_pass isOpen, hole, lent, care, by simp⟩

end

/-- Every check of R422 from order 6 on passes for open locations at a stamp that fits, where the command writes no sealed object. -/
theorem lateChecks_pass {s : State} {q : TlAsk} {t st : Nat} {xs : List (Nat × Nat)} (fits : stampFits s t st)
    (isOpen : ∀ x ∈ xs, openAt s q.op x.1 x.2) (unsealed : writesSealed s q (xs.map (·.1)) = none) (pair : PairFits s q.op (xs.map (·.1)))
    (whole : q.op = 2 ∨ q.op = 8 → (s.ccore.lease.entry.slots.filter fun x => x.1 = (leaseKey s.cur.core ((xs.map (·.1)).headD 0)).1 &&
      x.2.1 = (leaseKey s.cur.core ((xs.map (·.1)).headD 0)).2.1).length = 64) :
    lateChecks s q (some st) st xs = none := by
  obtain ⟨-, even, ahead, room⟩ := fits
  have rows : badRows s q.op (xs.map (·.1)) = false := badRows_eq_false pair fun cls kind x hx => by
    obtain ⟨y, hy, rfl⟩ := List.mem_map.mp hx
    exact (isOpen y hy).row cls kind
  simp only [lateChecks, firstFlt_eq_none, List.forall_mem_append, List.forall_mem_cons, chk_eq_none]
  refine ⟨⟨⟨⟨⟨⟨by rw [unsealed]; rfl, by simp⟩, ?lease⟩, rfl, by simp [even], by simpa using ahead, by simp⟩, rows, by simp⟩, ?frame⟩,
    by simpa using room, by simp⟩
  case lease =>
    split
    · simp
    · exact leaseChecks_pass isOpen _ whole
  case frame =>
    split
    · simp
    · exact frameChecks_pass isOpen st

/-! ### Row commands -/

section
variable {s : State} {i : Instr} {t : BitVec 6} {ask : State → TlAsk}

/-- A command on rows or slots, each open at its stamp, posts with those rows (R421, R424). -/
theorem rowCommand_posts {st : Nat} {locs : List Nat} (hx : exec i s = issueTimeline s i t ask) (hi : issues s i .task = true)
    (hb : (ask s).bad = false) (he : firstFlt (ask s).early = none) (hl : askLocs s (ask s) = .ok locs) (hcol : isCol (ask s).op = false)
    (fits : stampFits s t.toNat st) (isOpen : ∀ l ∈ locs, openAt s (ask s).op l st) (unsealed : writesSealed s (ask s) locs = none)
    (pair : PairFits s (ask s).op locs)
    (whole : (ask s).op = 2 ∨ (ask s).op = 8 → (s.ccore.lease.entry.slots.filter fun x => x.1 = (leaseKey s.cur.core (locs.headD 0)).1 &&
      x.2.1 = (leaseKey s.cur.core (locs.headD 0)).2.1).length = 64) :
    postsCommand s i (ask s).op st [] locs := by
  have stamps : stamped (ask s) (s.ccore.lease.cls = 1) st locs = locs.map fun l => (l, st) := if_neg (Bool.eq_false_iff.mp hcol)
  have locations := map_fst_stamped (ask s) (s.ccore.lease.cls = 1) st locs
  have passes := lateChecks_pass (q := ask s) (xs := stamped (ask s) (s.ccore.lease.cls = 1) st locs) fits
    (by rw [stamps]; exact List.forall_mem_map.mpr isOpen) (by rw [locations]; exact unsealed) (by rw [locations]; exact pair)
    (by rw [locations]; exact whole)
  have posts := timeline_posts hx hi hb he hl fits.1 passes
  rwa [TlAsk.burstsAt, TlAsk.rowsAt, hcol, if_neg Bool.false_ne_true, if_neg Bool.false_ne_true] at posts

/-- A command on a lease slot posts with the location of its bank (R96, R421, R424). -/
theorem slotCommand_posts {a : BitVec 6} {op st pos pc bank : Nat} (hop : op = 0 ∨ op = 1 ∨ op = 2 ∨ op = 7 ∨ op = 8)
    (hx : exec i s = issueTimeline s i t (slotAsk op a)) (hi : issues s i .task = true) (fits : stampFits s t.toNat st) :
    let av := rdReg s a.toNat
    let loc := mkLoc (stackOf s.cur.core * 4 + pos) (wfld av 29 16) bank 0 pc
    wfld av 63 30 = 0 → wfld av 15 9 = 0 → (op = 0 ∨ wfld av 29 16 = 0) → s.ccore.lease.entry.slots[wfld av 8 0]? = some (pos, pc, bank) →
    (op = 2 ∨ op = 8 → (s.ccore.lease.entry.slots.filter fun x =>
      x.1 = (leaseKey s.cur.core loc).1 && x.2.1 = (leaseKey s.cur.core loc).2.1).length = 64) →
    openAt s op loc st → postsCommand s i op st [] [loc] := by
  intro av loc high mid row slot whole isOpen
  have hb : (slotAsk op a s).bad = false := by
    have noRow : (op ≠ 0 && wfld av 29 16 ≠ 0) = false := by
      rcases row with row | row <;> simp [row]
    simp only [slotAsk]
    rw [noRow]
    simp [av, high, mid]
  have hl : askLocs s (slotAsk op a s) = .ok [loc] := by simp [askLocs, slotAsk, av, slot, loc]
  have kind : isCol op = false ∧ isWr op = false ∧ op ≠ 9 ∧ op ≠ 10 := by
    rcases hop with rfl | rfl | rfl | rfl | rfl <;> decide
  obtain ⟨col, wr, zero, copy⟩ := kind
  exact rowCommand_posts hx hi hb rfl hl col fits (List.forall_mem_singleton.mpr isOpen) (by simp [writesSealed, slotAsk, wr, zero, copy])
    (fun _ _ e => by cases e) whole

/-- The location of a G address that translates with its right, in front of those of the addresses behind it (R45, R423). -/
theorem tlLocs_cons {va : Word} {perm pa : Nat} {se : Bool} {as : List (Word × Nat)} {ls : List Nat} (h : translate s.ccore.tlb va perm = .ok pa se)
    (hl : tlLocs s as = .ok ls) : tlLocs s ((va, perm) :: as) = .ok (s.loc pa :: ls) := by simp only [tlLocs, h, hl]

/-- MZERO of an unsealed row (R427). -/
theorem zeroCommand_posts {va : Word} {st pa : Nat} {se : Bool} (hx : exec i s = issueTimeline s i t ask) (hi : issues s i .task = true)
    (hq : ask s = { op := 9, addrs := [(va, 256)] }) (fits : stampFits s t.toNat st) (ht : translate s.ccore.tlb va 256 = .ok pa se)
    (unsealed : sealedRow s (s.loc pa) = false) (isOpen : openAt s 9 (s.loc pa) st) : postsCommand s i 9 st [] [s.loc pa] := by
  have posts := rowCommand_posts (st := st) (locs := [s.loc pa]) hx hi
  rw [hq] at posts
  exact posts rfl rfl (tlLocs_cons (as := []) (ls := []) ht rfl) rfl fits (List.forall_mem_singleton.mpr isOpen)
    (by simp [writesSealed, isWr, unsealed]) (fun _ _ e => by cases e) (by simp)

/-- The rows of an MCOPY or an MCMP: in two banks of one PC, each open to the command (R427, R428). -/
def RowsFit (s : State) (op a b st : Nat) : Prop :=
  (s.hbm (locHs a)).phys (locPc a) (locBank a) ≠ (s.hbm (locHs a)).phys (locPc a) (locBank b) ∧ locHs a = locHs b ∧ locPc a = locPc b ∧
    openAt s op a st ∧ openAt s op b st

/-- MCOPY and MCMP of two rows, the second of an MCOPY unsealed (R427, R428). -/
theorem pairCommand_posts {op va vb ix st pa pb : Nat} {sa sb : Bool} {wa wb : Word} (hop : op = 10 ∨ op = 11) (hx : exec i s = issueTimeline s i t ask)
    (hi : issues s i .task = true) (hq : ask s = { op := op, addrs := [(wa, va), (wb, vb)], ridx := ix }) (fits : stampFits s t.toNat st)
    (ha : translate s.ccore.tlb wa va = .ok pa sa) (hb : translate s.ccore.tlb wb vb = .ok pb sb)
    (unsealed : op = 10 → sealedRow s (s.loc pb) = false) (rows : RowsFit s op (s.loc pa) (s.loc pb) st) :
    postsCommand s i op st [] [s.loc pa, s.loc pb] := by
  obtain ⟨banks, stack, pc, openA, openB⟩ := rows
  have posts := rowCommand_posts (st := st) (locs := [s.loc pa, s.loc pb]) hx hi
  rw [hq] at posts
  have isOpen : ∀ l ∈ [s.loc pa, s.loc pb], openAt s op l st := by simpa using ⟨openA, openB⟩
  have pair : PairFits s op [s.loc pa, s.loc pb] := by
    rintro a b e -
    cases e
    exact ⟨stack, pc, banks⟩
  rcases hop with rfl | rfl
  · exact posts rfl rfl (tlLocs_cons ha (tlLocs_cons hb rfl)) rfl fits isOpen (by simp [writesSealed, isWr, unsealed rfl]) pair (by simp)
  · exact posts rfl rfl (tlLocs_cons ha (tlLocs_cons hb rfl)) rfl fits isOpen (by simp [writesSealed, isWr]) pair (by simp)

/-- LFENCE names no location (R429). -/
theorem fenceCommand_posts {st n : Nat} {bad : Bool} (hx : exec i s = issueTimeline s i t ask) (hi : issues s i .task = true)
    (hq : ask s = { op := 12, bad := bad, pos := n }) (hb : bad = false) (fits : stampFits s t.toNat st) : postsCommand s i 12 st [] [] := by
  have posts := rowCommand_posts (st := st) (locs := []) hx hi
  rw [hq] at posts
  exact posts hb rfl rfl rfl fits (List.forall_mem_nil _) (by simp [writesSealed, isWr]) (fun _ _ e => by cases e) (by simp)

end

/-! ### Reads and writes of bursts (R111, R423) -/

section
variable {s : State} {i : Instr} {t a b : BitVec 6} {op st : Nat} {pa : Nat → Nat} {se : Nat → Bool}

/-- The locations of several addresses that each translate with one right (R45, R423). -/
theorem tlLocs_map {perm : Nat} {va : Nat → Word} (js : List Nat) (h : ∀ j ∈ js, translate s.ccore.tlb (va j) perm = .ok (pa j) (se j)) :
    tlLocs s (js.map fun j => (va j, perm)) = .ok (js.map fun j => s.loc (pa j)) := by
  induction js with
  | nil => rfl
  | cons j js ih => exact tlLocs_cons (h j List.mem_cons_self) (ih fun k hk => h k (List.mem_cons_of_mem j hk))

/-- A write none of whose bursts lies in a sealed object writes none (R216, R422 order 6). -/
theorem writesSealed_bursts {q : TlAsk} {locs : List Nat} (col : isCol q.op = true)
    (h : isWr q.op = true → ∀ l ∈ locs, sealedBurst s l = false) :
    writesSealed s q locs = none := by
  unfold writesSealed
  split
  · next wr =>
    rw [Option.map_eq_none_iff, List.find?_eq_none]
    intro x hx
    rw [h wr x.2 (List.of_mem_zip hx).2]
    exact Bool.false_ne_true
  · have : q.op ≠ 9 ∧ q.op ≠ 10 := by
      simp only [isCol, Bool.and_eq_true, decide_eq_true_eq] at col
      omega
    simp [this]

/-- The stamps of a train are its first and those a burst's gap apart (R111). -/
theorem stamped_bursts {q : TlAsk} (col : isCol q.op = true) (half : Bool) (n : Nat) (loc : Nat → Nat) :
    stamped q half st ((List.range n).map loc) = (List.range n).map fun j => (loc j, st + burstGap half * j) := by
  rw [stamped, if_pos col]
  exact List.ext_getElem (by simp) fun j _ _ => by simp

theorem isRd_of_isWr {op : Nat} (wr : isWr op = true) : isRd op = false := by
  simp only [isWr, Bool.or_eq_true, decide_eq_true_eq] at wr
  rcases wr with rfl | rfl <;> rfl

/-- The bursts of a train: each with its tick, its location and the 64 bytes of the face behind those of the burst before it (R111, R423). -/
def trainBursts (s : State) (st foff n : Nat) (pa : Nat → Nat) : List Burst :=
  (List.range n).map fun j => ⟨s.fromBase (st + burstGap (s.ccore.lease.cls = 1) * j), s.loc (pa j), foff + 64 * j⟩

theorem burstsAt_train {q : TlAsk} {foff n : Nat} (col : isCol q.op = true) (foffs : q.foffs = (List.range n).map fun k => foff + 64 * k) :
    q.burstsAt s st ((List.range n).map fun j => s.loc (pa j)) = trainBursts s st foff n pa := by
  rw [TlAsk.burstsAt, if_pos col, stamped_bursts col, foffs]
  exact List.ext_getElem (by simp [trainBursts]) fun j _ _ => by simp [trainBursts]

/-- A read or write of bursts whose descriptors are in order, each burst translated, unsealed where it is written and open at its stamp. -/
theorem burstCommand_posts (col : isCol op = true) (hx : exec i s = issueTimeline s i t (burstAsk op a b)) (hi : issues s i .task = true)
    (fits : stampFits s t.toNat st) :
    let av := rdReg s a.toNat
    let bv := rdReg s b.toNat
    let n := wfld bv 26 23 + 1
    let face := wfld bv 22 21
    let foff := wfld bv 20 0
    wfld bv 63 27 = 0 → face < 3 → (op = 3 ∨ op = 4 → n = 1) → addrCol av + n ≤ 16 → av.toNat % 64 = 0 → foff % 64 = 0 →
    foff + 64 * n ≤ faceSize face → (isRd op = true ↔ face ≠ 2) →
    (∀ j, j < n → translate s.ccore.tlb (withCol av (addrCol av + j)) (if isRd op then 512 else 256) = .ok (pa j) (se j) ∧
      (isRd op = false → sealedBurst s (s.loc (pa j)) = false) ∧
      openAt s op (s.loc (pa j)) (st + burstGap (s.ccore.lease.cls = 1) * j)) →
    postsCommand s i op st (trainBursts s st foff n pa) [] := by
  intro av bv n face foff high faceIn one cols aligned faceAligned inFace role bursts
  have asked : isCol (burstAsk op a b s).op = true := col
  have hb : (burstAsk op a b s).bad = false := by
    simp only [burstAsk, Bool.or_eq_false_iff, Bool.and_eq_false_imp, Bool.or_eq_true, decide_eq_true_eq, decide_eq_false_iff_not, not_not]
    exact ⟨⟨⟨high, Nat.ne_of_lt faceIn⟩, one⟩, Nat.not_lt.mpr cols⟩
  have he : firstFlt (burstAsk op a b s).early = none := by
    simp only [firstFlt_eq_none, burstAsk, List.forall_mem_cons, chk_eq_none, decide_eq_false_iff_not, not_not]
    exact ⟨aligned, faceAligned, Nat.not_lt.mpr inFace, by simpa using fun e => iff_not_self (e.symm.trans role), by simp⟩
  have hl : askLocs s (burstAsk op a b s) = .ok ((List.range n).map fun j => s.loc (pa j)) :=
    tlLocs_map (se := se) (va := fun j => withCol av (addrCol av + j)) (List.range n) fun j hj => (bursts j (List.mem_range.mp hj)).1
  have opens : ∀ x ∈ stamped (burstAsk op a b s) (s.ccore.lease.cls = 1) st ((List.range n).map fun j => s.loc (pa j)), openAt s op x.1 x.2 := by
    rw [stamped_bursts asked, List.forall_mem_map]
    intro j hj
    obtain ⟨-, -, isOpen⟩ := bursts j (List.mem_range.mp hj)
    exact isOpen
  have unsealed : writesSealed s (burstAsk op a b s) ((List.range n).map fun j => s.loc (pa j)) = none :=
    writesSealed_bursts asked fun wr => List.forall_mem_map.mpr fun j hj => by
      obtain ⟨-, unsealed, -⟩ := bursts j (List.mem_range.mp hj)
      exact unsealed (isRd_of_isWr wr)
  have row : op ≠ 2 ∧ op ≠ 8 ∧ op ≠ 10 ∧ op ≠ 11 := by
    simp only [isCol, Bool.and_eq_true, decide_eq_true_eq] at col
    omega
  obtain ⟨prea, refab, copy, compare⟩ := row
  have passes := lateChecks_pass (q := burstAsk op a b s) fits opens (by rw [map_fst_stamped]; exact unsealed)
    (fun _ _ _ kind => (kind.elim copy compare).elim) (fun kind => (kind.elim prea refab).elim)
  have posts := timeline_posts hx hi hb he hl fits.1 passes
  rwa [burstsAt_train asked rfl, TlAsk.rowsAt, if_pos asked] at posts

end

/-! ### Every word (R420 to R429) -/

/-- The cells of the bursts of a read or write are its locations, one for each face offset. -/
theorem burstsAt_cells {q : TlAsk} (col : isCol q.op = true) (s : State) (st : Nat) (locs : List Nat) :
    (q.burstsAt s st locs).map (·.cell) = (locs.zip q.foffs).map (·.1) := by
  rw [TlAsk.burstsAt, if_pos col]
  conv_rhs => rw [← map_fst_stamped q (s.ccore.lease.cls = 1) st locs]
  exact List.ext_getElem (by simp) fun j _ _ => by simp

/-- What a timeline word does that asks for `q`: passing every check of R422 it posts its command, and a reserved bit in its descriptor faults
first. -/
theorem timeline_posts_or_reserved {s : State} {i : Instr} {t : BitVec 6} {ask : State → TlAsk} {q : TlAsk} {st : Nat} {locs : List Nat}
    (hx : exec i s = issueTimeline s i t ask) (hq : ask s = q) (hi : issues s i .task = true) :
    (q.bad = false → firstFlt q.early = none → askLocs s q = .ok locs → offsetOf s t.toNat = some st →
      lateChecks s q (some st) st (stamped q (s.ccore.lease.cls = 1) st locs) = none →
      completes s i fun u =>
        ∃ x, (u.core s.cur.core).tlq = s.ccore.tlq ++ [x] ∧ x.op = q.op ∧ x.stamp = st ∧ x.tick = s.fromBase st ∧
          (isCol q.op = true → x.bursts.map (·.cell) = (locs.zip q.foffs).map (·.1)) ∧ (isCol q.op = false → x.rows = locs)) ∧
    (q.bad = true → exec i s = .next (raise s 5 1 1)) := by
  subst hq
  refine ⟨fun hb he hl ho hc => ?_, exec_timeline_reserved hx hi⟩
  obtain ⟨u, hu, mem, regs, x, queue, op, stamp, tick, bursts, rows⟩ := timeline_posts hx hi hb he hl ho hc
  refine ⟨u, hu, mem, regs, x, queue, op, stamp, tick, fun col => ?_, fun row => ?_⟩
  · rw [bursts, burstsAt_cells col]
  · rw [rows, TlAsk.rowsAt, row, if_neg Bool.false_ne_true]

/-- Settles O28: a word whose checks all pass posts its command (`timeline_posts_or_reserved`); the checks pass for open slots
(`slotCommand_posts`), for trains of open bursts (`burstCommand_posts`) and for open rows (`zeroCommand_posts`, `pairCommand_posts`, `fenceCommand_posts`). -/
theorem timelinePosted : Obligations.TimelinePosted := by
  unfold Obligations.TimelinePosted
  intro s h t a b st pos pc bank pa se locs av bv c k S B rows2 P
  refine ⟨timeline_posts_or_reserved (exec_act ..) rfl, timeline_posts_or_reserved (exec_pre ..) rfl,
    timeline_posts_or_reserved (exec_prea ..) rfl, timeline_posts_or_reserved (exec_rd ..) rfl,
    timeline_posts_or_reserved (exec_wr ..) rfl, timeline_posts_or_reserved (exec_rdt ..) rfl,
    timeline_posts_or_reserved (exec_wrt ..) rfl, timeline_posts_or_reserved (exec_refpb ..) rfl,
    timeline_posts_or_reserved (exec_refab ..) rfl, timeline_posts_or_reserved (exec_mzero ..) rfl,
    timeline_posts_or_reserved (exec_mcopy ..) rfl, timeline_posts_or_reserved (exec_mcmp ..) rfl,
    timeline_posts_or_reserved (exec_lfence ..) rfl, slotCommand_posts (by decide) (exec_act ..),
    slotCommand_posts (by decide) (exec_pre ..), slotCommand_posts (by decide) (exec_prea ..),
    slotCommand_posts (by decide) (exec_refpb ..), slotCommand_posts (by decide) (exec_refab ..), burstCommand_posts rfl (exec_rd ..),
    burstCommand_posts rfl (exec_wr ..), burstCommand_posts rfl (exec_rdt ..), burstCommand_posts rfl (exec_wrt ..),
    ?mzero, ?mcopy, ?mcmp, ?lfence⟩
  case mzero => exact fun hi fits ht unsealed isOpen => zeroCommand_posts (exec_mzero ..) hi rfl fits ht unsealed isOpen
  case mcopy =>
    exact fun hi fits ha hb unsealed banks stack pc openA openB =>
      pairCommand_posts (.inl rfl) (exec_mcopy ..) hi rfl fits ha hb (fun _ => unsealed) ⟨banks, stack, pc, openA, openB⟩
  case mcmp =>
    exact fun hi fits ha hb banks stack pc openA openB =>
      pairCommand_posts (.inr rfl) (exec_mcmp ..) hi rfl fits ha hb (by simp) ⟨banks, stack, pc, openA, openB⟩
  case lfence => exact fun hi fits reserved => fenceCommand_posts (exec_lfence ..) hi rfl (by simpa using reserved) fits

end Sys2Proof.Machine
end

section
/-!
SUPPORT. What the steps of the clocks, of the alignment network and of the governor leave alone: memory, every core and the instant (R141, R147, R163, R480).
-/
namespace Sys2Proof.Machine

/-! ### Timers -/

theorem mem_insertTimer (t : Nat) (e : Ev) (xs : List (Nat × Ev)) : (t, e) ∈ insertTimer t e xs := by
  induction xs with
  | nil => exact List.mem_singleton_self _
  | cons x xs ih =>
    rw [insertTimer]
    split
    · exact List.mem_cons_self
    · exact List.mem_cons_of_mem x ih

/-- A step due later stands among the timers. -/
theorem mem_timers_later (s : State) (d : Nat) (e : Ev) : (s.now + d, e) ∈ (s.later d e).timers := mem_insertTimer ..

/-! ### Steps that touch neither memory nor a core -/

/-- Memory, every core and the instant are as before. -/
structure ClockFrame (s t : State) : Prop where
  mem : t.mem = s.mem
  cores : t.cores = s.cores
  now : t.now = s.now

namespace ClockFrame

theorem refl (s : State) : ClockFrame s s := ⟨rfl, rfl, rfl⟩

theorem trans {s t u : State} (a : ClockFrame s t) (b : ClockFrame t u) : ClockFrame s u :=
  ⟨b.mem.trans a.mem, b.cores.trans a.cores, b.now.trans a.now⟩

theorem foldl {α : Type} {f : State → α → State} (hf : ∀ s x, ClockFrame s (f s x)) (l : List α) (s : State) : ClockFrame s (l.foldl f s) :=
  ⟨foldl_keeps State.mem (fun s x => (hf s x).mem) l s, foldl_keeps State.cores (fun s x => (hf s x).cores) l s,
    foldl_keeps State.now (fun s x => (hf s x).now) l s⟩

theorem sameMem {s t : State} (h : ClockFrame s t) : sameMem s t := sameMem_of_mem h.mem

theorem sameRegs {s t : State} (h : ClockFrame s t) : sameRegs s t := sameRegs_of_cores h.cores

theorem modRegion (s : State) (r : Nat) (f : Region → Region) : ClockFrame s (s.modRegion r f) := ⟨rfl, rfl, rfl⟩

theorem later (s : State) (d : Nat) (e : Ev) : ClockFrame s (s.later d e) := ⟨rfl, rfl, rfl⟩

theorem trace (s : State) (k ty c : Nat) (r a : Word) : ClockFrame s (s.trace k ty c r a) := ⟨by simp, by simp, by simp⟩

theorem traceClock (s : State) (k : Nat) (hw : Word) (ps : List (Nat × Pack)) : ClockFrame s (traceClock s k hw ps) :=
  foldl (fun _ _ => .trace ..) _ s

theorem traceClockIf (q : Prop) [Decidable q] (s : State) (k : Nat) (hw : Word) (ps : List (Nat × Pack)) :
    ClockFrame s (if q then Machine.traceClock s k hw ps else s) := by
  split
  · exact .traceClock ..
  · exact refl s

theorem applyStep (s : State) (r : Nat) : ClockFrame s (applyStep s r) := by
  unfold Machine.applyStep
  split
  · exact refl s
  · dsimp only
    split
    · exact .modRegion ..
    · refine trans ?_ (.trace ..)
      exact ⟨rfl, rfl, rfl⟩

theorem unifySteps (gs : List Nat) (s : State) (g : Nat) : ClockFrame s (unifySteps gs s g) := by
  unfold Machine.unifySteps
  dsimp only
  split
  · exact refl s
  · exact (foldl (fun _ _ => .modRegion ..) _ s).trans (foldl applyStep _ _)

end ClockFrame

/-! ### Regions and stacks behind a trace record or a step of a region -/

@[simp] theorem traceClock_region (s : State) (k : Nat) (hw : Word) (ps : List (Nat × Pack)) (r : Nat) : (traceClock s k hw ps).region r = s.region r :=
  foldl_keeps (fun s => s.region r) (fun _ _ => State.trace_region ..) _ s

theorem traceClockIf_region (q : Prop) [Decidable q] (s : State) (k : Nat) (hw : Word) (ps : List (Nat × Pack)) (r : Nat) :
    (if q then traceClock s k hw ps else s).region r = s.region r := by
  split
  · exact traceClock_region ..
  · rfl

@[simp] theorem traceClock_hbm (s : State) (k : Nat) (hw : Word) (ps : List (Nat × Pack)) (h : Nat) : (traceClock s k hw ps).hbm h = s.hbm h :=
  foldl_keeps (fun s => s.hbm h) (fun _ _ => State.trace_hbm ..) _ s

/-- What a change of a region keeps of it, it keeps of every region. -/
theorem region_modRegion_keeps {β : Type} (g : Region → β) {f : Region → Region} (hf : ∀ k, g (f k) = g k) (s : State) (r d : Nat) :
    g ((s.modRegion r f).region d) = g (s.region d) := by
  rw [region_modRegion]
  split
  · next h => rw [hf, h]
  · rfl

/-- Of steps that each touch their own region, those of other regions leave a region alone. -/
theorem region_foldl_of_notMem {f : State → Nat → State} (hf : ∀ s q d, d ≠ q → (f s q).region d = s.region d) {r : Nat} {l : List Nat} (h : r ∉ l)
    (s : State) : (l.foldl f s).region r = s.region r := by
  induction l generalizing s with
  | nil => rfl
  | cons q l ih =>
    obtain ⟨ne, out⟩ := not_or.mp (mt List.mem_cons.mpr h)
    rw [List.foldl_cons, ih out, hf s q r ne]

/-- Of steps that each touch their own region, a region sees its own alone. -/
theorem region_foldl_of_mem {f : State → Nat → State} (hf : ∀ s q d, d ≠ q → (f s q).region d = s.region d) {r : Nat} {l : List Nat} (hl : l.Nodup)
    (h : r ∈ l) (s : State) : ∃ u : State, u.region r = s.region r ∧ (l.foldl f s).region r = (f u r).region r := by
  induction l generalizing s with
  | nil => exact absurd h List.not_mem_nil
  | cons q l ih =>
    obtain ⟨out, nodup⟩ := List.nodup_cons.mp hl
    by_cases e : r = q
    · subst e
      exact ⟨s, rfl, region_foldl_of_notMem hf out _⟩
    · obtain ⟨u, before, own⟩ := ih nodup (List.mem_of_ne_of_mem e h) (f s q)
      exact ⟨u, before.trans (hf s q r e), own⟩

/-- What the package system controller holds is no part of a region. -/
theorem region_with_psc (s : State) (p : Psc) (r : Nat) : ({ s with psc := p } : State).region r = s.region r := rfl

theorem region_applyStep_ne (s : State) {r d : Nat} (h : d ≠ r) : (applyStep s r).region d = s.region d := by
  unfold applyStep
  split
  · rfl
  · dsimp only
    split
    · exact region_modRegion_ne s _ h
    · rw [State.trace_region, region_with_psc]
      exact region_modRegion_ne s _ h

/-- The next step of a region, put in force (R141). -/
theorem region_applyStep_self {s : State} {r m : Nat} (h : (s.region r).nextStep = some m) :
    ((applyStep s r).region r).step = m ∧ ((applyStep s r).region r).nextStep = none := by
  unfold applyStep
  simp only [h]
  split
  · next old =>
    rw [region_modRegion_self]
    exact ⟨old, rfl⟩
  · rw [State.trace_region, region_with_psc, region_modRegion_self]
    exact ⟨rfl, rfl⟩

end Sys2Proof.Machine
end

section
/-!
O45: the clocks, the snapshots of the alignment network, and the HEEL (R140, R147 to R149, R160 to R162, R208, R209), each step by a rule of its own.
-/
namespace Sys2Proof.Machine

/-! ### Clocks (R140, R160 to R162) -/

theorem droopStretch_stretches (s : State) (r : Nat) (hr : r < 16) :
    ∃ t, exec (.droopStretch r) s = .next t ∧ sameMem s t ∧ sameRegs s t ∧
      (t.region r).edge = (s.region r).edge + (s.region r).period ∧ (t.region r).nstretch = ((s.region r).nstretch + 1) % 2 ^ 16 ∧
      (t.region r).lastStr = some (s.region r).hw.toNat := by
  rw [exec_droopStretch, execDroopStretch, if_neg (Nat.not_le.mpr hr)]
  refine ⟨_, rfl, (ClockFrame.traceClockIf ..).sameMem, (ClockFrame.traceClockIf ..).sameRegs, ?_⟩
  rw [traceClockIf_region, region_setRegion_self]
  exact ⟨rfl, rfl, rfl⟩

theorem referenceLost_loses (s : State) (r : Nat) (hr : r < 16) :
    ∃ t, exec (.referenceLost r) s = .next t ∧ sameMem s t ∧ sameRegs s t ∧ (t.region r).lock = false ∧ (t.region r).freerun = true := by
  rw [exec_referenceLost, execReferenceLost, if_neg (by omega), if_pos hr]
  refine ⟨_, rfl, (ClockFrame.traceClock ..).sameMem, (ClockFrame.traceClock ..).sameRegs, ?_⟩
  rw [traceClock_region, region_modRegion_self]
  exact ⟨rfl, rfl⟩

theorem hbmReferenceLost_loses (s : State) (hs : Nat) (h : hs < 16) :
    ∃ t, exec (.hbmReferenceLost hs) s = .next t ∧ sameMem s t ∧ sameRegs s t ∧ (t.hbm hs).lock = false ∧ (t.hbm hs).freerun = true := by
  rw [exec_hbmReferenceLost, execHbmReferenceLost, if_neg (Nat.not_le.mpr h), loseHbm]
  refine ⟨_, rfl, (ClockFrame.traceClock ..).sameMem, (ClockFrame.traceClock ..).sameRegs, ?_⟩
  rw [traceClock_hbm, hbm_modHbm_self]
  exact ⟨rfl, rfl⟩

theorem referenceRelock_locks (s : State) (r : Nat) (hr : r < 16) :
    ∃ t, exec (.referenceRelock r) s = .next t ∧ sameMem s t ∧ sameRegs s t ∧ (t.region r).lock = true ∧
      (t.region r).freerun = (s.region r).freerun := by
  rw [exec_referenceRelock, execReferenceRelock, if_neg (by omega), if_pos hr]
  refine ⟨_, rfl, .refl s, sameRegs_of_cores rfl, ?_⟩
  rw [region_modRegion_self]
  exact ⟨rfl, rfl⟩

/-! ### Snapshots (R147) -/

/-- The state whose cores are as the snapshot of this instant shows them (R147). -/
def snapped (s : State) : State := { s with cores := smMap (snapCore s) s.cores }

theorem core_snapped {s : State} {c : Nat} {k : Core} (h : smFind s.cores c = some k) : (snapped s).core c = snapCore s c k := by
  rw [State.core, snapped, smGet, smFind_smMap, h]
  rfl

/-- Behind the snapshot, the releases and the joined step domains leave memory and every core alone, and the next snapshot is due. -/
theorem snapshotPublish_snaps (s : State) :
    ∃ u, exec .snapshotPublish s = .next (u.later 320 .snapshotPublish) ∧ ClockFrame (snapped s) u := by
  rw [exec_snapshotPublish, execSnapshotPublish]
  exact ⟨_, rfl, ((ClockFrame.foldl (fun _ _ => .later ..) _ _).trans (.foldl (.unifySteps _) _ _)).trans (.foldl (by exact fun _ _ => ⟨rfl, rfl, rfl⟩) _ _)⟩

theorem snapshotPublish_shows (s : State) (c : Nat) (k : Core) :
    ∃ t, exec .snapshotPublish s = .next t ∧ sameMem s t ∧ (s.now + 320, Ev.snapshotPublish) ∈ t.timers ∧
      (smFind s.cores c = some k → (t.core c).snapRel = (s.rel c).toNat ∧ (t.core c).snapHold = holdsAt s c ∧
        (t.core c).task = k.task ∧ (t.core c).mrf = k.mrf) := by
  obtain ⟨u, step, frame⟩ := snapshotPublish_snaps s
  refine ⟨_, step, sameMem_of_mem frame.mem, ?_, fun listed => ?_⟩
  · have due := mem_timers_later u 320 .snapshotPublish
    rwa [frame.now] at due
  · have shown : (u.later 320 .snapshotPublish).core c = snapCore s c k := by
      rw [State.later_core, State.core, frame.cores]
      exact core_snapped listed
    rw [shown]
    exact ⟨rfl, rfl, rfl, rfl⟩

/-! ### The arrival at a HEEL (R148, R149) -/

/-- An instant that lies before the alignment, or whose flag no longer stands at a retry, raises no fault at a HEEL (log 93). -/
theorem since_eq_false {o : Option Nat} {a : Nat} {tried flag : Bool} (h : ∀ t, o = some t → t < a ∨ (tried = true ∧ flag = false)) :
    ((o.map fun t => decide (a ≤ t)).getD false && (!tried || flag)) = false := by
  cases o with
  | none => rfl
  | some t =>
    rcases h t rfl with before | ⟨again, cleared⟩
    · simp [before]
    · simp [again, cleared]

theorem heelFault_none {s : State} {c : Nat} {tried : Bool} (lock : (s.region (regionOf c)).lock = true)
    (lost : ∀ t, (s.region (regionOf c)).lost = some t → t < (s.core c).aligned ∨ (tried = true ∧ (s.region (regionOf c)).freerun = false))
    (breach : ∀ t, (s.region (regionOf c)).breach = some t → t < (s.core c).aligned ∨ (tried = true ∧ (s.region (regionOf c)).droopovr = false)) :
    heelFault s c tried = none := by
  rw [heelFault]
  simp only [lock, since_eq_false lost, since_eq_false breach]
  rfl

theorem heelFault_unlocked {s : State} {c : Nat} (tried : Bool) (lock : (s.region (regionOf c)).lock = false) : heelFault s c tried = some 6 := by
  simp only [heelFault, lock, Bool.not_false, Bool.true_or, if_true]

section
variable {s : State} {c : Nat} {h : Heel} (heel : (s.core c).heel = some h) (coming : h.holds = false) (here : s.tick c false = h.target)
include heel coming here

/-- A core that nothing keeps from its HEEL holds at the target (R148). -/
theorem exec_heelArrive_holds (clear : heelFault s c h.tried = none) :
    exec (.heelArrive c) s = .next (s.modCore c fun k => { k with heel := some { h with holds := true } }) := by
  rw [exec_heelArrive, execHeelArrive]
  simp [heel, coming, here, clear]

/-- A core faults at the target of its HEEL, which it has then tried (R149). -/
theorem exec_heelArrive_faults {cause : Nat} (fault : heelFault s c h.tried = some cause) : exec (.heelArrive c) s =
    .next (takeFault (s.modCore c fun k => { k with heel := some { h with tried := true } }) c false h.target (heelRec h cause)) := by
  rw [exec_heelArrive, execHeelArrive]
  simp [heel, coming, here, fault]

end

/-! ### The release and the exit (R148, R208, R209) -/

theorem aligned_frame (s : State) (p : Pack) (c : Nat) :
    FreezeFrame s (aligned s p) ∧ ((aligned s p).core c).heel = (s.core c).heel ∧ (aligned s p).now = s.now := by
  unfold aligned
  refine ⟨.foldl (fun s m => .modCore s m _ (by exact fun _ => ⟨rfl, rfl, rfl, rfl⟩)) _ s, foldl_keeps (fun s => (s.core c).heel) (fun s m => ?_) _ s,
    foldl_keeps State.now (by exact fun _ _ => rfl) _ s⟩
  rw [core_modCore]
  split
  · next e => rw [e]
  · rfl

/-- The groups of 16 periods of one region alone stay as they are. -/
theorem rephase_single (s : State) (c : Nat) : rephase s [c] = s := by simp [rephase, List.eraseDups_cons]

theorem releaseMember_releases {s : State} {c : Nat} {h : Heel} (heel : (s.core c).heel = some h) :
    FreezeFrame s (releaseMember s c) ∧ ((releaseMember s c).core c).heel = some { h with released := some s.now } := by
  simp only [releaseMember, heel]
  refine ⟨(FreezeFrame.modCore s c _ (by exact fun _ => ⟨rfl, rfl, rfl, rfl⟩)).trans (.trace ..), ?_⟩
  rw [State.trace_core, core_modCore_self]

theorem allArrived_single {s : State} {p : Pack} {c : Nat} (live : s.liveMembers p = [c]) (shown : (s.core c).snapHold.isSome = true) :
    allArrived s p = true := by
  obtain ⟨t, e⟩ := Option.isSome_iff_exists.mp shown
  simp [allArrived, live, e]

theorem heelRelease_releases (s : State) (g c : Nat) (h : Heel) (p : Pack) (pack : s.pack g = some p) (thawed : p.freeze = none)
    (live : s.liveMembers p = [c]) (heel : (s.core c).heel = some h) (shown : (s.core c).snapHold.isSome = true)
    (holds : holdsAt s c = (s.core c).snapHold) :
    ∃ t, exec (.heelRelease g) s = .next t ∧ sameMem s t ∧ sameRegs s t ∧ (t.core c).heel = some { h with released := some s.now } := by
  obtain ⟨frame, kept, now⟩ := aligned_frame s p c
  obtain ⟨released, heel'⟩ := releaseMember_releases (kept.trans heel)
  have whole := frame.trans released
  refine ⟨releaseMember (aligned s p) c, ?_, sameMem_of_mem whole.mem, whole.regs, now ▸ heel'⟩
  rw [exec_heelRelease, execHeelRelease]
  simp [pack, thawed, allArrived_single live shown, live, shown, holds, rephase_single]

theorem endCare_mem (s : State) (c : Nat) : (endCare s c).mem = s.mem :=
  (foldl_keeps State.mem (by exact fun _ _ => rfl) _ _).trans (FreezeFrame.modLease ..).mem

theorem endCare_cores (s : State) (c : Nat) : (endCare s c).cores = s.cores :=
  (foldl_keeps State.cores (by exact fun _ _ => rfl) _ _).trans (modLease_cores ..)

/-- A core whose HEEL has ended at `T + 24`, from which its issue resumes (R148, R150). -/
def Core.leftHeel (h : Heel) (k : Core) : Core :=
  { k with heel := none, lastExit := h.target + 24, task := { k.task with next := max k.task.next (h.target + 24), seq := false } }

/-- A core at the end of the guard and the care that its unbounded wait began; those of a later wait go on (R208, R209). -/
def Core.leftWait (k : Core) : Core :=
  { k with waited := k.careNext.isSome, careFrom := k.careNext, careNext := none, careReb := if k.careNext.isSome then k.careReb else none }

/-- The exit from a HEEL 24 ticks behind its target (R148, R150, R208, R209). -/
theorem exec_heelExit_at {s : State} {c : Nat} {h : Heel} (heel : (s.core c).heel = some h) (released : h.released.isSome = true)
    (late : h.target + 24 ≤ s.tick c false) :
    let u := s.modCore c (Core.leftHeel h)
    exec (.heelExit c) s = .next (if h.fresh then (if (s.core c).careFrom.isSome then endCare u c else u).modCore c Core.leftWait else u) := by
  rw [exec_heelExit, execHeelExit]
  have due : (h.released.isNone || decide (s.tick c false < h.target + 24)) = false := by
    rw [Bool.or_eq_false_iff, decide_eq_false_iff_not]
    exact ⟨Option.isNone_eq_false_iff.mpr released, Nat.not_lt.mpr late⟩
  simp only [heel, due, Bool.false_eq_true, if_false]
  cases h.fresh <;> rfl

theorem heelExit_leaves (s : State) (c : Nat) (h : Heel) (heel : (s.core c).heel = some h) (released : h.released.isSome = true)
    (late : h.target + 24 ≤ s.tick c false) :
    ∃ t, exec (.heelExit c) s = .next t ∧ sameMem s t ∧ sameRegs s t ∧ (t.core c).heel = none ∧ (t.core c).lastExit = h.target + 24 ∧
      (h.fresh = true → (t.core c).careFrom = (s.core c).careNext ∧ (t.core c).waited = (s.core c).careNext.isSome) := by
  refine ⟨_, exec_heelExit_at heel released late, ?_⟩
  have left : sameRegs s (s.modCore c (Core.leftHeel h)) := sameRegs_modCore s c _ fun _ => ⟨rfl, rfl, rfl, rfl⟩
  split
  · generalize hv : (if (s.core c).careFrom.isSome then _ else _) = v
    obtain ⟨mem, cores⟩ : v.mem = s.mem ∧ v.cores = (s.modCore c (Core.leftHeel h)).cores := by
      rw [← hv]
      split
      · exact ⟨endCare_mem .., endCare_cores ..⟩
      · exact ⟨rfl, rfl⟩
    have core : v.core c = (s.core c).leftHeel h := by
      rw [State.core, cores]
      exact core_modCore_self ..
    refine ⟨sameMem_of_mem mem, (left.trans (sameRegs_of_cores cores)).trans (sameRegs_modCore v c _ fun _ => ⟨rfl, rfl, rfl, rfl⟩), ?_⟩
    rw [core_modCore_self, core]
    exact ⟨rfl, rfl, fun _ => ⟨rfl, rfl⟩⟩
  · next stale =>
    refine ⟨.refl s, left, ?_⟩
    rw [core_modCore_self]
    exact ⟨rfl, rfl, fun fresh => absurd fresh stale⟩

/-- Settles O45: each step of the clocks and of the alignment network by its own rule. -/
theorem alignmentSteps : Obligations.AlignmentSteps := by
  intro s r hs c g h p k
  refine ⟨droopStretch_stretches s r, referenceLost_loses s r, hbmReferenceLost_loses s hs, referenceRelock_locks s r, snapshotPublish_shows s c k,
    fun heel coming here => ⟨fun lock lost breach => ?_, fun lock => ?_⟩, heelRelease_releases s g c h p, heelExit_leaves s c h⟩
  · exact exec_heelArrive_holds heel coming here (heelFault_none lock lost breach)
  · exact exec_heelArrive_faults heel coming here (heelFault_unlocked _ lock)

end Sys2Proof.Machine
end

section
/-!
O47: the governor, the sensors, the trips and the whistle (R141, R477 to R484), each step by a rule of its own.
-/
namespace Sys2Proof.Machine

/-! ### The governor (R479, R480) -/

/-- The power request depends on the last one, on the cap and on the FLOOR of each region (R479, log 109). -/
theorem powerRequest_congr {s t : State} (psc : t.psc = s.psc) (floor : ∀ r, (t.region r).floor = (s.region r).floor) (amps watts : Nat) (calm : Bool) :
    powerRequest t amps watts calm = powerRequest s amps watts calm := by
  simp only [powerRequest, leastFloor, psc, floor]

/-- The state in which every region has made its thermal request and taken the whistle step to come (R478, R483). -/
def requested (s : State) : State :=
  (List.range 16).foldl (fun s r => s.modRegion r fun k => { k.thermal with gov := { k.thermal.gov with
    wstep := (s.psc.whistleNext).getD k.gov.wstep } }) s

theorem requested_frame (s : State) : ClockFrame s (requested s) ∧ (requested s).psc = s.psc ∧
    (∀ r, ((requested s).region r).floor = (s.region r).floor) ∧ ∀ r, ((requested s).region r).step = (s.region r).step := by
  unfold requested
  exact ⟨.foldl (by exact fun _ _ => .modRegion ..) _ s, foldl_keeps State.psc (by exact fun _ _ => rfl) _ s,
    fun r => foldl_keeps (fun s => (s.region r).floor) (by exact fun s q => region_modRegion_keeps Region.floor (by exact fun _ => rfl) s q r) _ s,
    fun r => foldl_keeps (fun s => (s.region r).step) (by exact fun s q => region_modRegion_keeps Region.step (by exact fun _ => rfl) s q r) _ s⟩

/-- What the evaluation of domains keeps: every step stays in force, and the requests of the package stand (R480). -/
structure KeepsSteps (s t : State) : Prop extends ClockFrame s t where
  psc : t.psc = s.psc
  step : ∀ r, (t.region r).step = (s.region r).step

theorem KeepsSteps.foldl {α : Type} {f : State → α → State} (hf : ∀ s x, KeepsSteps s (f s x)) (l : List α) (s : State) :
    KeepsSteps s (l.foldl f s) :=
  ⟨.foldl (fun s x => (hf s x).toClockFrame) l s, foldl_keeps State.psc (fun s x => (hf s x).psc) l s,
    fun r => foldl_keeps (fun s => (s.region r).step) (fun s x => (hf s x).step r) l s⟩

theorem evalDomain_keepsSteps (s : State) (ds : List Nat) : KeepsSteps s (evalDomain s ds) := by
  unfold evalDomain
  exact .foldl (by exact fun s q => ⟨.modRegion .., rfl, region_modRegion_keeps Region.step (by exact fun _ => rfl) s q⟩) _ s

/-- The state in which a power request stands, and no whistle step is to come (R479, R483). -/
def withRequest (s : State) (p : Nat) : State := { s with psc := { s.psc with preq := p, whistleNext := none } }

theorem withRequest_frame (s : State) (p : Nat) : ClockFrame s (withRequest s p) ∧ ∀ r, (withRequest s p).region r = s.region r :=
  ⟨⟨rfl, rfl, rfl⟩, fun _ => rfl⟩

/-- One state comes from another by timers and draws of free numbers alone. -/
def Scheduled (s t : State) : Prop := ∃ ts n, t = { s with timers := ts, fresh := n }

/-- An evaluation evaluates every domain and, where a step is to change, awaits the next publication; it comes again in 10 µs (R480). -/
theorem exec_governorEvaluation_eq (s : State) (amps watts : Nat) (calm : Bool) : ∃ (dss : List (List Nat)) (v : State) (a b : Nat) (d : Bool),
    exec (.governorEvaluation amps watts calm) s = .next (v.later 180000 (.governorEvaluation a b d)) ∧
      Scheduled (dss.foldl evalDomain (withRequest (requested s) (powerRequest (requested s) amps watts calm))) v := by
  rw [exec_governorEvaluation, execGovernorEvaluation]
  dsimp only
  rw [← requested, ← withRequest]
  generalize withRequest (requested s) _ = u
  generalize (List.map (domainOf u) (List.range 16)).eraseDups = dss
  refine ⟨dss, _, _, _, _, rfl, ?_⟩
  generalize dss.foldl evalDomain u = v
  split <;> exact ⟨_, _, rfl⟩

theorem governorEvaluation_evaluates (s : State) (amps watts r : Nat) (calm : Bool) :
    ∃ t, exec (.governorEvaluation amps watts calm) s = .next t ∧ sameMem s t ∧ sameRegs s t ∧ t.psc.preq = powerRequest s amps watts calm ∧
      (∃ a b d, (s.now + 180000, Ev.governorEvaluation a b d) ∈ t.timers) ∧ (t.region r).step = (s.region r).step := by
  obtain ⟨dss, _, a, b, d, e, ts, n, rfl⟩ := exec_governorEvaluation_eq s amps watts calm
  obtain ⟨before, psc, floor, step⟩ := requested_frame s
  rw [powerRequest_congr psc floor] at e
  generalize requested s = u at e before step
  generalize powerRequest s amps watts calm = request at e ⊢
  obtain ⟨entered, regions⟩ := withRequest_frame u request
  have evaluated := KeepsSteps.foldl evalDomain_keepsSteps dss (withRequest u request)
  generalize dss.foldl evalDomain _ = v at e evaluated
  have frame : ClockFrame s v := (before.trans entered).trans evaluated.toClockFrame
  refine ⟨_, e, sameMem_of_mem frame.mem, sameRegs_of_cores frame.cores, congrArg Psc.preq evaluated.psc, ⟨a, b, d, ?again⟩, ?step⟩
  case again =>
    rw [← frame.now]
    exact mem_timers_later ..
  case step =>
    show (v.region r).step = _
    rw [evaluated.step, regions, step]

/-! ### Steps (R141) -/

theorem stepApply_applies (s : State) (r m : Nat) (hr : r < 16) (next : (s.region r).nextStep = some m) :
    ∃ t, exec .stepApply s = .next t ∧ sameMem s t ∧ sameRegs s t ∧ (t.region r).step = m ∧ (t.region r).nextStep = none := by
  obtain ⟨u, before, own⟩ := region_foldl_of_mem (f := applyStep) (fun s _ _ h => region_applyStep_ne s h) List.nodup_range (List.mem_range.mpr hr) s
  have frame := ClockFrame.foldl ClockFrame.applyStep (List.range 16) s
  refine ⟨_, exec_stepApply s, frame.sameMem, frame.sameRegs, ?_⟩
  rw [own]
  exact region_applyStep_self (before ▸ next)

/-! ### Sensors (R477, R482, R484) -/

/-- The state in which each region holds its eleven readings (R477). -/
def sampled (temps : List Nat) (s : State) : State :=
  (List.range 16).foldl (fun s r => s.modRegion r fun k => { k with temps := (temps.drop (11 * r)).take 11 }) s

theorem sampled_frame (temps : List Nat) (s : State) : ClockFrame s (sampled temps s) := .foldl (by exact fun _ _ => .modRegion ..) _ s

theorem temps_sampled (temps : List Nat) (s : State) {r : Nat} (hr : r < 16) :
    ((sampled temps s).region r).temps = (temps.drop (11 * r)).take 11 := by
  obtain ⟨u, -, own⟩ := region_foldl_of_mem (f := fun s r => s.modRegion r fun k => { k with temps := (temps.drop (11 * r)).take 11 })
    (fun s _ _ h => region_modRegion_ne s _ h) List.nodup_range (List.mem_range.mpr hr) s
  rw [sampled, own, region_modRegion_self]

/-- One state comes from another by changes of the package system controller, the timers and the free numbers alone. -/
def Monitored (s t : State) : Prop := ∃ p ts n, t = { s with psc := p, timers := ts, fresh := n }

theorem Monitored.trans {s t u : State} (a : Monitored s t) (b : Monitored t u) : Monitored s u := by
  obtain ⟨_, _, _, rfl⟩ := a
  obtain ⟨p, ts, n, rfl⟩ := b
  exact ⟨p, ts, n, rfl⟩

theorem beginEmergency_monitored (s : State) : Monitored s (beginEmergency s) := by
  unfold beginEmergency
  split <;> exact ⟨_, _, _, rfl⟩

theorem Monitored.ite {s t : State} (q : Prop) [Decidable q] (h : Monitored s t) : Monitored s (if q then t else s) := by
  split
  · exact h
  · exact ⟨_, _, _, rfl⟩

theorem Monitored.later (s : State) (d : Nat) (e : Ev) : Monitored s (s.later d e) := ⟨_, _, _, rfl⟩

/-- The draw of the next readings counts the free numbers and changes nothing else (log 5). -/
theorem freeTemps_monitored (s : State) : Monitored s (freeTemps s).2 := by
  unfold freeTemps
  exact List.foldlRecOn (motive := fun (a : List Nat × State) => Monitored s a.2) _ _ ⟨_, _, _, rfl⟩ fun _ drawn _ _ => drawn.trans ⟨_, _, _, rfl⟩

/-- Behind the readings, a sample looks for a trip, for an emergency to begin and for one to end, and comes again in 1 µs (R477, R482, R484). -/
theorem exec_sensorSample_eq (temps : List Nat) (s : State) :
    ∃ u l, exec (.sensorSample temps) s = .next (u.later 18000 (.sensorSample l)) ∧ Monitored (sampled temps s) u := by
  rw [exec_sensorSample, execSensorSample]
  dsimp only
  rw [← sampled]
  generalize sampled temps s = u
  refine ⟨_, _, rfl, ?_⟩
  refine .trans (.trans (.trans ?_ (.ite _ (beginEmergency_monitored _))) (.ite _ (.later ..))) (freeTemps_monitored _)
  split <;> exact ⟨_, _, _, rfl⟩

theorem sensorSample_samples (s : State) (r : Nat) (temps : List Nat) (hr : r < 16) :
    ∃ t, exec (.sensorSample temps) s = .next t ∧ sameMem s t ∧ sameRegs s t ∧ (t.region r).temps = (temps.drop (11 * r)).take 11 ∧
      ∃ l, (s.now + 18000, Ev.sensorSample l) ∈ t.timers := by
  obtain ⟨_, l, e, p, ts, n, rfl⟩ := exec_sensorSample_eq temps s
  have frame := sampled_frame temps s
  have read := temps_sampled temps s hr
  generalize sampled temps s = u at e frame read
  refine ⟨_, e, sameMem_of_mem frame.mem, sameRegs_of_cores frame.cores, read, l, ?_⟩
  rw [← frame.now]
  exact mem_timers_later ..

/-! ### Trips (R484) -/

theorem swapLane_tripped (s : State) (hs pc stamp : Nat) : (swapLane s hs pc stamp).psc.tripped = s.psc.tripped := by
  unfold swapLane State.draw
  dsimp only
  cases worstLane ((s.hbm hs).pc pc).window with
  | some l =>
    dsimp only
    split <;> rfl
  | none =>
    dsimp only
    by_cases c : Config.freeNat s.fresh % (38 + 1) < 38
    · simp only [c, if_true]
      split <;> rfl
    · simp only [c, if_false]
      rfl

theorem releasePc_tripped (s : State) (hs pc : Nat) : (releasePc s hs pc).psc.tripped = s.psc.tripped := by
  unfold releasePc
  dsimp only
  split
  · exact swapLane_tripped ..
  · rfl

theorem releasePcs_tripped (s : State) (g : Nat) : (releasePcs s g).psc.tripped = s.psc.tripped :=
  foldl_keeps (fun s => s.psc.tripped) (fun _ _ => foldl_keeps (fun s => s.psc.tripped) (fun _ _ => releasePc_tripped ..) _ _) _ s

/-- A job state written leaves memory, the packs and the record of a trip alone. -/
theorem setJob_frame (s : State) (st err : Nat) :
    (setJob s st err).mem = s.mem ∧ (setJob s st err).packs = s.packs ∧ (setJob s st err).psc.tripped = s.psc.tripped := by
  have closed : (closeJob s).mem = s.mem ∧ (closeJob s).packs = s.packs ∧ (closeJob s).psc.tripped = s.psc.tripped := by
    unfold closeJob
    split <;> exact ⟨rfl, rfl, rfl⟩
  unfold setJob
  split
  · exact ⟨rfl, rfl, rfl⟩
  · dsimp only
    split
    · exact closed
    · exact ⟨rfl, rfl, rfl⟩

/-- A package whose core rails a trip has cut off (R484). -/
def CutOff (s : State) : Prop :=
  s.psc.tripped = true ∧ s.packs = [] ∧ ∀ a, faceLoc 0 0 0 ≤ a → a < faceLoc 384 0 0 → readByte s.mem a = 0

/-- The job of a package that is cut off fails, where one runs. -/
theorem CutOff.failJob {s : State} (h : CutOff s) : CutOff (if s.jobRuns then setJob s 4 8 else s) := by
  obtain ⟨mem, packs, tripped⟩ := setJob_frame s 4 8
  split
  · unfold CutOff
    rwa [mem, packs, tripped]
  · exact h

/-- A trip records itself, leaves no pack and clears the faces of every core (R484, log 71). -/
theorem tripAll_cutOff (s : State) (thermal : Bool) (v : Nat) : CutOff (tripAll s thermal v) := by
  unfold tripAll
  dsimp only
  refine CutOff.failJob ⟨?_, rfl, fun a lo hi => ?_⟩
  · refine (foldl_keeps (fun s => s.psc.tripped) releasePcs_tripped _ _).trans ?_
    split <;> rfl
  · simp only [readByte_clearRange, lo, hi, and_self, if_true]

theorem thermalTrip_trips (s : State) (sensor : Nat) (h : sensor < 176) (on : s.psc.tripped = false) :
    ∃ t, exec (.thermalTrip sensor) s = .next t ∧ CutOff t := by
  refine ⟨tripAll s true sensor, ?_, tripAll_cutOff ..⟩
  rw [exec_thermalTrip, execThermalTrip, if_neg (Nat.not_le.mpr h), if_neg (Bool.eq_false_iff.mp on)]

theorem currentTrip_trips (s : State) (amps : Nat) (h : 21000 < amps) (on : s.psc.tripped = false) :
    ∃ t, exec (.currentTrip amps) s = .next t ∧ CutOff t := by
  refine ⟨tripAll s false amps, ?_, tripAll_cutOff ..⟩
  rw [exec_currentTrip, execCurrentTrip, if_neg (by simp [on, h])]

/-! ### Whistle and emergency (R482, R483) -/

theorem whistleSend_sends (s : State) (on : s.psc.emergency = true) :
    ∃ t, exec .whistleSend s = .next t ∧ sameMem s t ∧ sameRegs s t ∧ t.psc.whistled = whistleTargets s ∧
      (s.now + 1800000, Ev.whistleSend) ∈ t.timers := by
  rw [exec_whistleSend, execWhistleSend, if_pos on]
  exact ⟨_, rfl, .refl s, sameRegs_of_cores rfl, rfl, mem_timers_later ..⟩

theorem whistleReceive_sets (s : State) (job w : Nat) (runs : s.jobRuns = true) (own : job = s.psc.jserial) (first : s.psc.whistleNext = none) :
    ∃ t, exec (.whistleReceive job w) s = .next t ∧ sameMem s t ∧ sameRegs s t ∧ t.psc.whistleNext = some (min 16 (max 8 w)) ∧
      t.psc.whistleCnt = s.psc.whistleCnt := by
  rw [exec_whistleReceive, execWhistleReceive, if_pos (by simp [runs, own])]
  exact ⟨_, rfl, .refl s, sameRegs_of_cores rfl, by simp [first], rfl⟩

theorem exec_whistleReceive_other (s : State) (job w : Nat) (other : job ≠ s.psc.jserial) :
    exec (.whistleReceive job w) s = .next { s with psc := { s.psc with whistleCnt := s.psc.whistleCnt + 1 } } := by
  rw [exec_whistleReceive, execWhistleReceive, if_neg (by simp [other])]

theorem whistleTimeout_returns (s : State) (r : Nat) (k : Region) (late : s.psc.whistleAt + 5400000 ≤ s.now) (listed : smFind s.regions r = some k) :
    ∃ t, exec .whistleTimeout s = .next t ∧ sameMem s t ∧ sameRegs s t ∧ (t.region r).gov.wstep = 16 ∧ t.psc.whistleNext = none := by
  rw [exec_whistleTimeout, execWhistleTimeout, if_pos late]
  refine ⟨_, rfl, .refl s, sameRegs_of_cores rfl, ?_, rfl⟩
  rw [State.region, smGet, smFind_smMap, listed]
  rfl

theorem emergencyEnd_ends (s : State) (on : s.psc.emergency = true) (calm : s.psc.emCalm + 18000000 ≤ s.now) :
    ∃ t, exec .emergencyEnd s = .next t ∧ sameMem s t ∧ sameRegs s t ∧ t.psc.emergency = false := by
  rw [exec_emergencyEnd, execEmergencyEnd, if_pos (by simp [on, msUnits, calm])]
  exact ⟨_, rfl, .refl s, sameRegs_of_cores rfl, rfl⟩

/-- Settles O47: each step of the governor, the sensors, the trips and the whistle by its own rule. -/
theorem powerSteps : Obligations.PowerSteps := by
  intro s amps watts sensor r job w m calm temps k
  exact ⟨governorEvaluation_evaluates s amps watts r calm, stepApply_applies s r m, sensorSample_samples s r temps, thermalTrip_trips s sensor,
    currentTrip_trips s amps, whistleSend_sends s, whistleReceive_sets s job w, exec_whistleReceive_other s job w, whistleTimeout_returns s r k,
    emergencyEnd_ends s⟩

end Sys2Proof.Machine
end

section
/-!
O26: fences, flags and barrier words begin their waits (R190, R447 to R452, R461, R464).
-/
namespace Sys2Proof.Machine

/-! ### The thread that issues -/

/-- The thread that issues is there: a task always is, a handler where its core runs one (R263). -/
def State.IssuerLive (s : State) : Prop := s.cur.hd = true → (s.core s.cur.core).handler.isSome = true

theorem issuerLive_of_issues {s : State} {i : Instr} {p : Perm} (h : issues s i p = true) : s.IssuerLive := fun hd => by
  have live : s.ccore.handler.isSome = true := by simp_all [issues]
  exact live

/-- A thread that is there is changed by what changes it. -/
theorem thread_modThread_of_live {s : State} {c : Nat} {hd : Bool} (live : hd = true → (s.core c).handler.isSome = true) (f : Thread → Thread) :
    (s.modThread c hd f).thread c hd = f (s.thread c hd) := by
  cases hd with
  | false => exact thread_modThread_task s c f
  | true =>
    obtain ⟨t, ht⟩ := Option.isSome_iff_exists.mp (live rfl)
    simp [State.thread, ht]

/-! ### A wait begun -/

/-- The issuing thread of one state waits in the other, which has its memory and its registers. -/
structure Waits (s t : State) (v : Wait) : Prop where
  mem : t.mem = s.mem
  regs : sameRegs s t
  wait : (t.thread s.cur.core s.cur.hd).wait = some v

/-- A word completes with its thread waiting, and with no byte of memory and no register changed. -/
def BeginsWait (s : State) (i : Instr) (w : Wait → Prop) : Prop :=
  ∃ t, exec i s = .next t ∧ sameMem s t ∧ sameRegs s t ∧ ∃ v, (t.thread s.cur.core s.cur.hd).wait = some v ∧ w v

theorem Waits.begins {s t : State} {i : Instr} {v : Wait} {w : Wait → Prop} (h : Waits s t v) (step : exec i s = .next t) (hw : w v) :
    BeginsWait s i w :=
  ⟨t, step, sameMem_of_mem h.mem, h.regs, v, h.wait, hw⟩

theorem setWait_waits {s : State} (live : s.IssuerLive) (v : Wait) : Waits s (setWait s v) v where
  mem := rfl
  regs := setWait_sameRegs s v
  wait := by rw [setWait, thread_modThread_of_live live]

theorem setWait_beginUnbounded_waits {s : State} (live : s.IssuerLive) (v : Wait) : Waits s (setWait (beginUnbounded s) v) v where
  mem := beginUnbounded_mem s
  regs := (beginUnbounded_sameRegs s).trans (setWait_sameRegs _ v)
  wait := by
    unfold beginUnbounded
    split
    · exact (setWait_waits live v).wait
    · exact (setWait_waits (s := { s with cur := { s.cur with unb := true } }) live v).wait

theorem beginUnbounded_ctick (s : State) : (beginUnbounded s).ctick = s.ctick := by
  unfold beginUnbounded
  split <;> rfl

/-- A fence waits from its issue tick on, with what follows it (R190). -/
theorem startFence_waits {s : State} (live : s.IssuerLive) (scope upTo : Nat) (after : After) :
    Waits s (startFence s scope upTo after) (.fence scope upTo s.ctick (fenceUnbounded s scope upTo) after) := by
  unfold startFence
  dsimp only
  split
  · rw [beginUnbounded_ctick]
    exact setWait_beginUnbounded_waits live _
  · exact setWait_waits live _

theorem startFence_cur (s : State) (scope upTo : Nat) (after : After) :
    (startFence s scope upTo after).cur.core = s.cur.core ∧ (startFence s scope upTo after).cur.hd = s.cur.hd := by
  unfold startFence beginUnbounded setWait
  dsimp only
  split
  · split <;> exact ⟨rfl, rfl⟩
  · exact ⟨rfl, rfl⟩

/-- An access recorded for a thread leaves its wait as it is. -/
theorem access_wait (s : State) (c : Nat) (hd : Bool) (o : Outst) : ((s.access c hd o).thread c hd).wait = (s.thread c hd).wait := by
  unfold State.access
  cases hd with
  | false => rw [thread_modThread_task]
  | true => cases h : (s.core c).handler <;> simp [State.thread, h]

theorem Waits.xOutst {s t : State} {v : Wait} (h : Waits s t v) (cur : t.cur.core = s.cur.core ∧ t.cur.hd = s.cur.hd) (d tick : Nat) (known : Bool) :
    Waits s (xOutst t d tick known) v where
  mem := h.mem
  regs := h.regs.trans (access_sameRegs t _ _ _)
  wait := by
    rw [Machine.xOutst, ← cur.1, ← cur.2]
    exact (access_wait t _ _ _).trans (by rw [cur.1, cur.2, h.wait])

/-! ### Flag descriptors (R447) -/

/-- A descriptor is legal, and names a condition, a scope and the place of a flag word. -/
def NamesFlag (s : State) (av : Word) (set : Bool) (cond scope e face off : Nat) : Prop :=
  wfld av 63 38 = 0 ∧ wfld av 31 31 = 0 ∧ wfld av 34 32 = scope ∧ scope < 6 ∧ wfld av 37 35 = cond ∧
    (if set then cond = 0 else cond < 4) ∧ xTarget s (BitVec.ofNat 64 (wfld av 30 0)) 8 = .ok (e, face, off)

theorem flagTarget_of_namesFlag {s : State} {av : Word} {set : Bool} {cond scope e face off : Nat} (h : NamesFlag s av set cond scope e face off) :
    flagTarget s av set = .ok (cond, scope, e, face, off) := by
  obtain ⟨high, bit31, rfl, small, rfl, legal, target⟩ := h
  have ok : (if set then wfld av 37 35 ≠ 0 else wfld av 37 35 ≥ 4) ↔ False := by
    cases set <;> simpa using legal
  simp [flagTarget, high, bit31, Nat.not_le.mpr small, ok, target]

/-! ### The words -/

section
variable {s : State} {h : Head} {d a b : BitVec 6}

theorem fence_begins (sp : BitVec 3) (hi : issues s (.fence h sp) .both = true) :
    BeginsWait s (.fence h sp) fun v => ∃ unb, v = .fence sp.toNat s.cthread.nid s.ctick unb .nothing := by
  refine (startFence_waits (issuerLive_of_issues hi) sp.toNat s.nextId .nothing).begins ?_ ⟨_, rfl⟩
  rw [exec_fence, execFence, issueWord_of_issues hi]

/-- A FLAGSET's fence is recorded with its store as an access to come (R448). -/
theorem flagset_begins {scope e face off : Nat} {cond : Nat} (hi : issues s (.flagset h a b) .both = true)
    (value : wfld (rdReg s b.toNat) 63 56 ≠ 0xE0) (named : NamesFlag s (rdReg s a.toNat) true cond scope e face off) :
    BeginsWait s (.flagset h a b) fun v => ∃ unb, v = .fence scope s.cthread.nid s.ctick unb (.flagStore
      { org := origin s 5, core := e, face := face, off := off, op := .store (leBytes 8 (rdReg s b.toNat).toNat), acc := s.cthread.nid }) := by
  refine ((startFence_waits (issuerLive_of_issues hi) scope s.nextId (.flagStore _)).xOutst (startFence_cur ..) e 0 false).begins ?_ ⟨_, rfl⟩
  rw [exec_flagset, execFlagset, issueWord_of_issues hi, if_neg value, flagTarget_of_namesFlag named]
  rfl

theorem flagwait_begins {cond scope e face off : Nat} (hi : issues s (.flagwait h d a b) .both = true)
    (named : NamesFlag s (rdReg s a.toNat) false cond scope e face off) :
    BeginsWait s (.flagwait h d a b) (· = .flag d.toNat (faceLoc e face off) cond (rdReg s b.toNat)) := by
  refine (setWait_beginUnbounded_waits (issuerLive_of_issues hi) _).begins ?_ rfl
  rw [exec_flagwait, execFlagwait, issueWord_of_issues hi]
  simp only [flagTarget_of_namesFlag named]

theorem bararr_begins (hi : issues s (.bararr h d a) .task = true) (high : wfld (rdReg s a.toNat) 63 16 = 0) (mid : wfld (rdReg s a.toNat) 7 4 = 0)
    (members : 1 ≤ wfld (rdReg s a.toNat) 15 8) (atMost : wfld (rdReg s a.toNat) 15 8 ≤ 192) :
    BeginsWait s (.bararr h d a) fun v =>
      ∃ unb, v = .fence 3 s.cthread.nid s.ctick unb (.arrive (wfld (rdReg s a.toNat) 3 0) (wfld (rdReg s a.toNat) 15 8) d.toNat) := by
  refine (startFence_waits (issuerLive_of_issues hi) 3 s.nextId (.arrive _ _ _)).begins ?_ ⟨_, rfl⟩
  rw [exec_bararr, execBararr, issueWord_of_issues hi, if_neg]
  simp [high, mid, Nat.ne_of_gt members, atMost]

theorem barwait_begins (hi : issues s (.barwait h d a b) .task = true) : BeginsWait s (.barwait h d a b)
    (· = .bar d.toNat (clusterOf s.cur.core * 16 + wfld (rdReg s a.toNat) 3 0) (wfld (rdReg s b.toNat) 31 0)) := by
  refine (setWait_beginUnbounded_waits (issuerLive_of_issues hi) _).begins ?_ rfl
  rw [exec_barwait, execBarwait, issueWord_of_issues hi]

theorem waitc_begins (hi : issues s (.waitc h d a b) .task = true) (high : wfld (rdReg s a.toNat) 63 3 = 0) :
    BeginsWait s (.waitc h d a b) (· = .cc d.toNat (wfld (rdReg s a.toNat) 2 0) (wfld (rdReg s b.toNat) 31 0)) := by
  refine (setWait_beginUnbounded_waits (issuerLive_of_issues hi) _).begins ?_ rfl
  rw [exec_waitc, execWaitc, issueWord_of_issues hi, if_neg (not_not.mpr high)]

theorem gwait_begins (hi : issues s (.gwait h d a b) .both = true) :
    BeginsWait s (.gwait h d a b) (· = .inst d.toNat (rdReg s a.toNat) (wfld (rdReg s b.toNat) 0 0 = 1)) := by
  refine (setWait_beginUnbounded_waits (issuerLive_of_issues hi) _).begins ?_ rfl
  rw [exec_gwait, execGwait, issueWord_of_issues hi]

end

/-- Settles O26: each word by its own rule. -/
theorem waitsBegin : Obligations.WaitsBegin := by
  intro s h d a b sp cond scope e face off
  exact ⟨fun hi _ => fence_begins sp hi, fun hi ⟨value, named⟩ => flagset_begins hi value named, fun hi named => flagwait_begins hi named,
    fun hi ⟨high, mid, members, atMost⟩ => bararr_begins hi high mid members atMost, fun hi _ => barwait_begins hi, fun hi high => waitc_begins hi high,
    fun hi _ => gwait_begins hi⟩

end Sys2Proof.Machine
end

section
/-!
O39: waits end when their condition holds, and only then (R190, R257, R449 to R452, R461, R463, R464).
-/
namespace Sys2Proof.Machine

/-! ### The end of a wait -/

/-- The state in which the wait of a thread has ended with a value: its next bundle issues at the present tick, and D takes the value. -/
def endWith (s : State) (c : Nat) (hd : Bool) (d : Nat) (v : Word) : State :=
  (endWait s c hd (s.tick c hd)).modThread c hd (·.setReg d v)

/-- What ends the wait of a task with a value leaves memory as it is, the task without a wait and D with the value. -/
theorem endWait_setReg_task (s : State) (c u d : Nat) (v : Word) :
    let t := (endWait s c false u).modThread c false (·.setReg d v)
    t.mem = s.mem ∧ (t.core c).task.wait = none ∧ (d ≠ 0 → (t.core c).task.reg d = v) := by
  refine ⟨rfl, ?_, fun hd => ?_⟩
  · simp [endWait]
  · simp [endWait, reg_setReg, hd]

/-! ### Barrier arrivals (R451) -/

/-- The first arrival of a generation brings its count and its launch. -/
def Barrier.joined (b : Barrier) (count : Nat) (launch : Nat × Nat) : Barrier :=
  if b.arrived = 0 then { b with count := count, launch := some launch } else b

/-- One more arrival, which closes the generation where it completes the count. -/
def Barrier.counted (b : Barrier) : Barrier :=
  let b := { b with arrived := b.arrived + 1 }
  if b.arrived ≥ b.count then b.close else b

/-- What an arrival finds: the generation, marked where it stands in error (log 57). -/
def Barrier.generation (b : Barrier) : Word := BitVec.ofNat 64 ((if b.err then 0xE0 * 2 ^ 56 else 0) + b.gen)

theorem Barrier.joined_generation (b : Barrier) (count : Nat) (launch : Nat × Nat) : (b.joined count launch).generation = b.generation := by
  unfold Barrier.joined
  split <;> rfl

/-! ### What each step looks at -/

section
variable {s : State} {c : Nat}

theorem exec_fenceEnd_of_wait {hd unb : Bool} {scope upTo since : Nat} {after : After}
    (hw : (s.thread c hd).wait = some (.fence scope upTo since unb after)) :
    exec (.fenceEnd c hd) s = .next (if fenceOver s c hd scope upTo since (s.tick c hd) = true then
      afterFence (endWait s c hd (s.tick c hd)) c hd (s.tick c hd) after else s) := by
  rw [exec_fenceEnd, execFenceEnd, hw]

theorem exec_flagwaitSatisfied_of_wait {hd : Bool} {dest loc cond : Nat} {w : Word} (hw : (s.thread c hd).wait = some (.flag dest loc cond w)) :
    let v := BitVec.ofNat 64 (leNat (readBytes s.mem loc 8))
    exec (.flagwaitSatisfied c hd) s = .next (if flagCond cond v w = true ∨ wfld v 63 56 = 0xE0 then endWith s c hd dest v else s) := by
  rw [exec_flagwaitSatisfied, execFlagwaitSatisfied, hw]
  refine congrArg _ (if_congr ?_ rfl rfl)
  rw [Bool.or_eq_true, decide_eq_true_eq]

theorem exec_barwaitEnd_of_wait {dest bar g : Nat} (hw : (s.core c).task.wait = some (.bar dest bar g)) :
    exec (.barwaitEnd c) s = .next (((barrierEnd (smGet {} s.barriers bar) g).map (endWith s c false dest)).getD s) := by
  rw [exec_barwaitEnd, execBarwaitEnd, hw]
  dsimp only
  cases barrierEnd (smGet {} s.barriers bar) g <;> rfl

theorem exec_waitcSatisfied_of_wait {dest ix b : Nat} (hw : (s.core c).task.wait = some (.cc dest ix b)) :
    exec (.waitcSatisfied c) s = .next (if (wfld (smGet 0 (s.core c).cc ix) 31 0 + 2 ^ 32 - b) % 2 ^ 32 < 2 ^ 31 then
      endWith s c false dest (smGet 0 (s.core c).cc ix) else s) := by
  rw [exec_waitcSatisfied, execWaitcSatisfied, hw]
  rfl

theorem exec_walkerIntakeFree_of_wait {dest base gate : Nat} {ginst : Bool} {va : Word} {patch : List (Word × Word)}
    (hw : (s.core c).task.wait = some (.intake dest ginst base va patch gate)) :
    exec (.walkerIntakeFree c) s = .next (if 64 ≤ intakeUsed s then s else
      endWith (createInst s c ginst base va patch gate).1 c false dest (createInst s c ginst base va patch gate).2) := by
  rw [exec_walkerIntakeFree, execWalkerIntakeFree, hw]
  rfl

theorem exec_barrierArrival_of_wait {bar count dest : Nat} (hw : (s.core c).task.wait = some (.arrive bar count dest)) :
    let n := clusterOf c * 16 + bar
    let b := smGet {} s.barriers n
    exec (.barrierArrival c) s = .next
      ((endWait { s with barriers := smSet s.barriers n (b.joined count ((s.core c).inst, (s.core c).node)).counted } c false
        (s.tick c false + 1)).modThread c false (·.setReg dest b.generation)) := by
  dsimp only
  rw [exec_barrierArrival, execBarrierArrival, hw, ← Barrier.joined_generation _ count ((s.core c).inst, (s.core c).node)]
  rfl

/-! ### Instance waits (R257, R464) -/

theorem endGwait_of_wait {hd : Bool} {dest : Nat} {h : Word} {y : Bool} (hw : (s.thread c hd).wait = some (.inst dest h y)) :
    endGwait s c hd = ((gwaitValue s h).map (endWith s c hd dest)).getD s := by
  rw [endGwait, hw]
  dsimp only
  cases gwaitValue s h <;> rfl

theorem endGwait_no_handler (alone : (s.core c).handler = none) : endGwait s c true = s := by
  rw [endGwait, State.thread, if_pos rfl, alone]
  rfl

theorem endGwait_task_handler (s : State) (c : Nat) : ((endGwait s c false).core c).handler = (s.core c).handler := by
  unfold endGwait
  split
  · split
    · simp [endWait]
    · rfl
  · rfl

/-- The wait of a task that is stopped stands; that of the handler on its core is looked at (R257). -/
theorem exec_gwaitEnd_frozen (frozen : (s.core c).frozen.isSome = true) : exec (.gwaitEnd c) s = .next (endGwait s c true) := by
  rw [exec_gwaitEnd, execGwaitEnd]
  simp [frozen]

theorem exec_gwaitEnd_running (alone : (s.core c).handler = none) (thawed : (s.core c).frozen = none) (free : (s.core c).absorb = 0) :
    exec (.gwaitEnd c) s = .next (endGwait s c false) := by
  rw [exec_gwaitEnd, execGwaitEnd]
  simp [thawed, free, endGwait_no_handler ((endGwait_task_handler s c).trans alone)]

end

/-! ### The steps -/

/-- A step that ends a wait with the value that there is, and else changes nothing. -/
theorem ends_by_value {s : State} {i : Instr} {o : Option Word} {c d : Nat} {hd : Bool} (step : exec i s = .next ((o.map (endWith s c hd d)).getD s)) :
    (∀ z, o = some z → exec i s = .next (endWith s c hd d z)) ∧ (o = none → exec i s = .next s) := by
  refine ⟨fun z value => ?_, fun none_ => ?_⟩
  · rw [step, value]
    rfl
  · rw [step, none_]
    rfl

section
variable {s : State} {c : Nat}

theorem fenceEnd_ends {hd unb : Bool} {scope upTo since : Nat} (hw : (s.thread c hd).wait = some (.fence scope upTo since unb .nothing)) :
    (fenceOver s c hd scope upTo since (s.tick c hd) = true → exec (.fenceEnd c hd) s = .next (endWait s c hd (s.tick c hd))) ∧
      (fenceOver s c hd scope upTo since (s.tick c hd) = false → exec (.fenceEnd c hd) s = .next s) := by
  rw [exec_fenceEnd_of_wait hw]
  refine ⟨fun passed => ?_, fun waits => ?_⟩
  · rw [if_pos passed, afterFence]
  · rw [if_neg (Bool.eq_false_iff.mp waits)]

theorem flagwaitSatisfied_ends {hd : Bool} {dest loc cond : Nat} {w : Word} (hw : (s.thread c hd).wait = some (.flag dest loc cond w)) :
    let v := BitVec.ofNat 64 (leNat (readBytes s.mem loc 8))
    (flagCond cond v w = true ∨ wfld v 63 56 = 0xE0 → exec (.flagwaitSatisfied c hd) s = .next (endWith s c hd dest v)) ∧
      (flagCond cond v w = false → wfld v 63 56 ≠ 0xE0 → exec (.flagwaitSatisfied c hd) s = .next s) := by
  rw [exec_flagwaitSatisfied_of_wait hw]
  refine ⟨fun met => ?_, fun unmet clear => ?_⟩
  · rw [if_pos met]
  · rw [if_neg (not_or.mpr ⟨Bool.eq_false_iff.mp unmet, clear⟩)]

theorem barrierArrival_ends {bar count dest : Nat} (hw : (s.core c).task.wait = some (.arrive bar count dest)) :
    ∃ t, exec (.barrierArrival c) s = .next t ∧ sameMem s t ∧ (t.core c).task.wait = none ∧
      (dest ≠ 0 → (t.core c).task.reg dest = (smGet {} s.barriers (clusterOf c * 16 + bar)).generation) := by
  obtain ⟨mem, wait, reg⟩ := endWait_setReg_task { s with barriers := _ } c (s.tick c false + 1) dest _
  exact ⟨_, exec_barrierArrival_of_wait hw, sameMem_of_mem mem, wait, reg⟩

/-- Counters are compared as int32: one less than 2^31 ahead of the awaited count has reached it (R461). -/
theorem waitcSatisfied_ends {dest ix b : Nat} (hw : (s.core c).task.wait = some (.cc dest ix b)) :
    let v := smGet 0 (s.core c).cc ix
    ((wfld v 31 0 + 2 ^ 32 - b) % 2 ^ 32 < 2 ^ 31 → exec (.waitcSatisfied c) s = .next (endWith s c false dest v)) ∧
      (2 ^ 31 ≤ (wfld v 31 0 + 2 ^ 32 - b) % 2 ^ 32 → exec (.waitcSatisfied c) s = .next s) := by
  rw [exec_waitcSatisfied_of_wait hw]
  refine ⟨fun reached => ?_, fun short => ?_⟩
  · rw [if_pos reached]
  · rw [if_neg (Nat.not_lt.mpr short)]

theorem gwaitEnd_ends_handler {dest : Nat} {h : Word} {y : Bool} {th : Thread} (frozen : (s.core c).frozen.isSome = true)
    (handler : (s.core c).handler = some th) (hw : th.wait = some (.inst dest h y)) :
    (∀ z, gwaitValue s h = some z → exec (.gwaitEnd c) s = .next (endWith s c true dest z)) ∧
      (gwaitValue s h = none → exec (.gwaitEnd c) s = .next s) := by
  have waits : (s.thread c true).wait = some (.inst dest h y) := by rw [State.thread, if_pos rfl, handler, Option.getD_some, hw]
  refine ends_by_value ?_
  rw [exec_gwaitEnd_frozen frozen, endGwait_of_wait waits]

theorem gwaitEnd_ends_task {dest : Nat} {h : Word} {y : Bool} (hw : (s.core c).task.wait = some (.inst dest h y))
    (alone : (s.core c).handler = none) (thawed : (s.core c).frozen = none) (free : (s.core c).absorb = 0) :
    (∀ z, gwaitValue s h = some z → exec (.gwaitEnd c) s = .next (endWith s c false dest z)) ∧
      (gwaitValue s h = none → exec (.gwaitEnd c) s = .next s) := by
  refine ends_by_value ?_
  rw [exec_gwaitEnd_running alone thawed free, endGwait_of_wait (hd := false) hw]

theorem walkerIntakeFree_ends {dest base gate : Nat} {ginst : Bool} {va : Word} {patch : List (Word × Word)}
    (hw : (s.core c).task.wait = some (.intake dest ginst base va patch gate)) :
    (intakeUsed s < 64 → exec (.walkerIntakeFree c) s =
      .next (endWith (createInst s c ginst base va patch gate).1 c false dest (createInst s c ginst base va patch gate).2)) ∧
      (64 ≤ intakeUsed s → exec (.walkerIntakeFree c) s = .next s) := by
  rw [exec_walkerIntakeFree_of_wait hw]
  refine ⟨fun room => ?_, fun full => ?_⟩
  · rw [if_neg (Nat.not_le.mpr room)]
  · rw [if_pos full]

end

/-- Settles O39: each wait by the condition that its step looks at. -/
theorem waitsEnd : Obligations.WaitsEnd := by
  intro s c dest loc cond scope upTo since bar g ix b count hd unb y gi w h va pa patch
  refine ⟨fenceEnd_ends, flagwaitSatisfied_ends, barrierArrival_ends, fun hw => ends_by_value (exec_barwaitEnd_of_wait hw), waitcSatisfied_ends,
    fun th => gwaitEnd_ends_handler, fun frozen alone => ?_, gwaitEnd_ends_task, walkerIntakeFree_ends⟩
  rw [exec_gwaitEnd_frozen frozen, endGwait_no_handler alone]

end Sys2Proof.Machine
end

section
/-!
SUPPORT. Steps that write down work to come, and what is in flight, alone: timers, free numbers and the walker's records (R210, R232, R238).
-/
namespace Sys2Proof.Machine

/-- One state comes from another by the walker's records, timers and draws of free numbers alone. -/
def Booked (s t : State) : Prop := ∃ w ts n, t = { s with walker := w, timers := ts, fresh := n }

namespace Booked

theorem refl (s : State) : Booked s s := ⟨_, _, _, rfl⟩

theorem trans {s t u : State} (a : Booked s t) (b : Booked t u) : Booked s u := by
  obtain ⟨_, _, _, rfl⟩ := a
  obtain ⟨w, ts, n, rfl⟩ := b
  exact ⟨w, ts, n, rfl⟩

theorem foldl {α : Type} {f : State → α → State} (hf : ∀ s x, Booked s (f s x)) (l : List α) (s : State) : Booked s (l.foldl f s) :=
  List.foldlRecOn (motive := Booked s) l f (refl s) fun t booked x _ => booked.trans (hf t x)

theorem later (s : State) (d : Nat) (e : Ev) : Booked s (s.later d e) := ⟨_, _, _, rfl⟩

theorem laterIf (q : Prop) [Decidable q] (s : State) (d : Nat) (e : Ev) : Booked s (if q then s.later d e else s) := by
  split
  · exact .later ..
  · exact refl s

theorem modNode (s : State) (i n : Nat) (f : Node → Node) : Booked s (s.modNode i n f) := by
  unfold State.modNode
  split
  · split <;> exact ⟨_, _, _, rfl⟩
  · exact refl s

theorem checkLaunch (s : State) (i n : Nat) : Booked s (checkLaunch s i n) := .laterIf ..

theorem itemOver (s : State) (p : Pending) : Booked s (itemOver s p) := by
  unfold Machine.itemOver
  split
  · exact (modNode ..).trans (.checkLaunch ..)
  · split
    · exact (modNode ..).trans (.checkLaunch ..)
    · exact refl s
  · exact refl s

theorem nextPreload (s : State) (c : Nat) : Booked s (nextPreload s c) := .laterIf ..

theorem nextRamp (s : State) : Booked s (nextRamp s) := by
  unfold Machine.nextRamp
  split
  · exact refl s
  · exact .laterIf ..

variable {s t : State} (h : Booked s t)
include h

theorem clock : ClockFrame s t := by
  obtain ⟨_, _, _, rfl⟩ := h
  exact ⟨rfl, rfl, rfl⟩

theorem powerOf (r : Nat) : powerOf t r = powerOf s r := by
  obtain ⟨_, _, _, rfl⟩ := h
  rfl

theorem ramps : t.ramps = s.ramps := by
  obtain ⟨_, _, _, rfl⟩ := h
  rfl

end Booked

theorem mem_insertTimer_of_mem {x : Nat × Ev} {xs : List (Nat × Ev)} (t : Nat) (e : Ev) (h : x ∈ xs) : x ∈ insertTimer t e xs := by
  induction xs with
  | nil => exact absurd h List.not_mem_nil
  | cons y ys ih =>
    rw [insertTimer]
    split
    · exact List.mem_cons_of_mem _ h
    · exact (List.mem_cons.mp h).elim (fun first => first ▸ List.mem_cons_self) fun rest => List.mem_cons_of_mem y (ih rest)

/-- What a step of a fold brings about and every other keeps holds behind the fold. -/
theorem foldl_establishes {α : Type} {f : State → α → State} {P : State → Prop} {x : α} {l : List α} (made : ∀ s, P (f s x))
    (kept : ∀ s y, P s → P (f s y)) (h : x ∈ l) (s : State) : P (l.foldl f s) := by
  obtain ⟨front, back, rfl⟩ := List.append_of_mem h
  rw [List.foldl_append, List.foldl_cons]
  exact List.foldlRecOn (motive := P) back f (made _) fun t holds y _ => kept t y holds

end Sys2Proof.Machine
end

section
/-!
O53: the gating of regions, their wake and the in-rush arbiter (R228, R235 to R238), each step by a rule of its own.
-/
namespace Sys2Proof.Machine

/-! ### The power of a region -/

theorem powerOf_core {s : State} {r : Nat} (h : r < 16) : powerOf s r = (s.region r).power := if_pos h

theorem powerOf_hbm {s : State} {r : Nat} (h : 16 ≤ r) : powerOf s r = (s.hbm (r - 16)).power := if_neg (Nat.not_lt.mpr h)

@[simp] theorem powerOf_setPower_self (s : State) (r : Nat) (p : Power) : powerOf (setPower s r p) r = p := by
  unfold powerOf setPower
  split
  · rw [region_modRegion_self]
  · rw [hbm_modHbm_self]

theorem setPower_clock (s : State) (r : Nat) (p : Power) : ClockFrame s (setPower s r p) := by
  unfold setPower
  split <;> exact ⟨rfl, rfl, rfl⟩

@[simp] theorem setPower_ramps (s : State) (r : Nat) (p : Power) : (setPower s r p).ramps = s.ramps := by
  unfold setPower
  split <;> rfl

theorem mem_timers_nextRamp {s : State} {x : Nat × Ev} (h : x ∈ s.timers) : x ∈ (nextRamp s).timers := by
  unfold nextRamp
  split
  · exact h
  · split
    · exact mem_insertTimer_of_mem _ _ h
    · exact h

/-! ### Gating begins (R236, R237) -/

/-- The state in which a region begins to gate. -/
def beginGating (s : State) (r : Nat) : State := (setPower s r (.gating s.now)).later 18000 (.gatingComplete r)

theorem beginGating_gates {s : State} {r : Nat} (step : exec (.regionGateBegin r) s = .next (beginGating s r)) :
    ∃ t, exec (.regionGateBegin r) s = .next t ∧ sameMem s t ∧ sameRegs s t ∧ powerOf t r = .gating s.now ∧
      (s.now + 18000, Ev.gatingComplete r) ∈ t.timers := by
  have frame := setPower_clock s r (.gating s.now)
  have whole : ClockFrame s (beginGating s r) := frame.trans (.later ..)
  refine ⟨_, step, whole.sameMem, whole.sameRegs, powerOf_setPower_self .., ?_⟩
  rw [← frame.now]
  exact mem_timers_later ..

theorem regionGateBegin_core {s : State} {r since : Nat} (hr : r < 16) (hold : (s.region r).power = .idle since)
    (late : since + (s.region r).holdFor ≤ s.now) (idle : regionIdle s r = true) : exec (.regionGateBegin r) s = .next (beginGating s r) := by
  have small : ¬ r ≥ 32 := by omega
  rw [exec_regionGateBegin, execRegionGateBegin, if_neg small, powerOf_core hr, hold]
  simp [hr, late, idle, beginGating]

theorem regionGateBegin_hbm {s : State} {r since : Nat} (lo : 16 ≤ r) (hi : r < 32) (hold : powerOf s r = .idle since)
    (late : since + 900000 ≤ s.now) (idle : hbmIdle s (r - 16) = true) : exec (.regionGateBegin r) s = .next (beginGating s r) := by
  rw [exec_regionGateBegin, execRegionGateBegin, if_neg (Nat.not_le.mpr hi), hold]
  simp [Nat.not_lt.mpr lo, late, idle, beginGating]

theorem regionGateBegin_awake {s : State} {r : Nat} (hr : r < 32) (awake : powerOf s r = .awake) : exec (.regionGateBegin r) s = .next s := by
  rw [exec_regionGateBegin, execRegionGateBegin, if_neg (Nat.not_le.mpr hr), awake]

/-! ### Gating ends (R236) -/

theorem gateCore_booked (s : State) (c : Nat) : Booked ((clearFaces s c).modCore c Core.gated) (gateCore s c) := .foldl .itemOver _ _

theorem core_gateCore (s : State) (c d : Nat) : (gateCore s c).core d = if d = c then (s.core c).gated else s.core d := by
  rw [State.core, (gateCore_booked s c).clock.cores]
  exact core_modCore (clearFaces s c) c d Core.gated

theorem readByte_gateCore (s : State) (c a : Nat) :
    readByte (gateCore s c).mem a = if faceLoc c 0 0 ≤ a ∧ a < faceLoc c 3 0 then 0 else readByte s.mem a := by
  rw [(gateCore_booked s c).clock.mem]
  exact readByte_clearRange ..

theorem regs_gateCore (s : State) (c d : Nat) : ((gateCore s c).core d).task.regs = (s.core d).task.regs := by
  rw [core_gateCore]
  split
  · next e => subst e; rfl
  · rfl

/-- A gated core whose faces read zero. -/
def LostSupply (c : Nat) (s : State) : Prop := (s.core c).mrf = [] ∧ ∀ a, faceLoc c 0 0 ≤ a → a < faceLoc c 3 0 → readByte s.mem a = 0

theorem gateCore_losesSupply (s : State) (c : Nat) : LostSupply c (gateCore s c) := by
  refine ⟨?_, fun a lo hi => ?_⟩
  · rw [core_gateCore, if_pos rfl]
    rfl
  · rw [readByte_gateCore, if_pos ⟨lo, hi⟩]

theorem LostSupply.gateCore {s : State} {c : Nat} (h : LostSupply c s) (d : Nat) : LostSupply c (gateCore s d) := by
  obtain ⟨mrf, zero⟩ := h
  refine ⟨?_, fun a lo hi => ?_⟩
  · rw [core_gateCore]
    split
    · rfl
    · exact mrf
  · rw [readByte_gateCore, zero a lo hi, ite_self]

/-- An instruction buffer lies outside every face that a gating clears. -/
theorem readByte_gateCore_buffer (s : State) {c a : Nat} (lo : faceLoc c 3 0 ≤ a) (hi : a < faceLoc (c + 1) 0 0) (d : Nat) :
    readByte (gateCore s d).mem a = readByte s.mem a := by
  rw [readByte_gateCore, if_neg]
  simp only [faceLoc] at lo hi ⊢
  omega

theorem gateCore_power (s : State) (c r : Nat) : powerOf (gateCore s c) r = powerOf s r := (gateCore_booked s c).powerOf r

theorem gateCore_ramps (s : State) (c : Nat) : (gateCore s c).ramps = s.ramps := (gateCore_booked s c).ramps

theorem mem_regionCores (c : Nat) : c ∈ regionCores (regionOf c) := by
  refine List.mem_map.mpr ⟨c % 96 / 8 % 3 * 8 + c % 8, List.mem_range.mpr (by omega), ?_⟩
  unfold slotCore regionOf
  omega

/-- The end of gating: the region is gated, or waits for its ramp where its wake has been requested meanwhile (R236, R237). -/
def endGating (s : State) (r : Nat) : State :=
  if s.ramps.contains r then nextRamp (setPower s r .queued) else setPower s r .gated

theorem endGating_frame (s : State) (r : Nat) : ClockFrame s (endGating s r) := by
  unfold endGating
  split
  · exact (setPower_clock ..).trans (Booked.nextRamp _).clock
  · exact setPower_clock ..

theorem powerOf_endGating (s : State) (r : Nat) : powerOf (endGating s r) r = if s.ramps.contains r then .queued else .gated := by
  unfold endGating
  split
  · rw [(Booked.nextRamp _).powerOf, powerOf_setPower_self]
  · exact powerOf_setPower_self ..

theorem gatingComplete_gates (s : State) (r since : Nat) (hr : r < 16) (gating : powerOf s r = .gating since) :
    ∃ t, exec (.gatingComplete r) s = .next t ∧ powerOf t r = (if s.ramps.contains r then .queued else .gated) ∧
      ∀ c, c < 384 → (t.core c).task.regs = (s.core c).task.regs ∧
        (regionOf c = r → (t.core c).mrf = [] ∧ ∀ a, faceLoc c 0 0 ≤ a → a < faceLoc c 3 0 → readByte t.mem a = 0) ∧
        (∀ a, faceLoc c 3 0 ≤ a → a < faceLoc (c + 1) 0 0 → readByte t.mem a = readByte s.mem a) := by
  obtain ⟨u, hu⟩ : ∃ u, u = (regionCores r).foldl gateCore s := ⟨_, rfl⟩
  have ramps : u.ramps = s.ramps := hu ▸ foldl_keeps State.ramps gateCore_ramps _ s
  have frame := endGating_frame u r
  have core (c : Nat) : (endGating u r).core c = u.core c := by rw [State.core, frame.cores, State.core]
  refine ⟨endGating u r, ?step, ?power, fun c _ => ⟨?regs, fun own => ?lost, fun a lo hi => ?buffer⟩⟩
  case step =>
    have small : ¬ r ≥ 32 := by omega
    rw [exec_gatingComplete, execGatingComplete, if_neg small, gating]
    dsimp only
    rw [if_pos hr, ← hu, endGating]
  case power => rw [powerOf_endGating, ramps]
  case regs =>
    rw [core, hu]
    exact foldl_keeps (fun s => (s.core c).task.regs) (fun s d => regs_gateCore s d c) _ s
  case lost =>
    rw [core, frame.mem, hu]
    exact foldl_establishes (P := LostSupply c) (fun s => gateCore_losesSupply s c) (fun _ d lost => lost.gateCore d) (own ▸ mem_regionCores c) s
  case buffer =>
    rw [frame.mem, hu]
    exact foldl_keeps (fun s => readByte s.mem a) (fun s d => readByte_gateCore_buffer s lo hi d) _ s

/-! ### Wake (R237) -/

theorem lookHbm_clock (s : State) (hs : Nat) : ClockFrame s (lookHbm s hs) := by
  unfold lookHbm
  split
  · split
    · exact setPower_clock ..
    · exact .refl s
  · split
    · exact .refl s
    · exact setPower_clock ..
  · exact .refl s

/-- An awake HBM region stays so, or begins its hold (R237). -/
theorem powerOf_lookHbm {s : State} {r : Nat} (lo : 16 ≤ r) (awake : powerOf s r = .awake) :
    powerOf (lookHbm s (r - 16)) r = .awake ∨ powerOf (lookHbm s (r - 16)) r = .idle s.now := by
  rw [powerOf_hbm lo] at awake
  unfold lookHbm
  rw [awake]
  dsimp only
  split
  · rw [Nat.add_sub_cancel' lo, powerOf_setPower_self]
    exact .inr rfl
  · rw [powerOf_hbm lo]
    exact .inl awake

theorem awaken_clock (s : State) (r : Nat) : ClockFrame s (awaken s r) := by
  unfold awaken
  dsimp only
  split
  · exact (setPower_clock ..).trans (Booked.foldl .nextPreload _ _).clock
  · exact (setPower_clock ..).trans (lookHbm_clock ..)

theorem powerOf_awaken (s : State) (r : Nat) : powerOf (awaken s r) r = .awake ∨ 16 ≤ r ∧ powerOf (awaken s r) r = .idle s.now := by
  unfold awaken
  dsimp only
  split
  · rw [(Booked.foldl .nextPreload _ _).powerOf, powerOf_setPower_self]
    exact .inl rfl
  · next high =>
    have lo := Nat.not_lt.mp high
    rw [← (setPower_clock s r .awake).now]
    exact (powerOf_lookHbm lo (powerOf_setPower_self ..)).imp_right fun idle => ⟨lo, idle⟩

section
variable {s : State} {r : Nat} (hr : r < 32)
include hr

theorem wakeRequest_awakens {since : Nat} (h : powerOf s r = .idle since ∨ powerOf s r = .gating since ∧ refPeriod since = refPeriod s.now) :
    exec (.wakeRequest r) s = .next (awaken s r) := by
  rw [exec_wakeRequest, execWakeRequest, if_neg (Nat.not_le.mpr hr)]
  obtain idle | ⟨gating, same⟩ := h
  · rw [idle]
  · rw [gating]
    dsimp only
    rw [if_pos same]

theorem exec_wakeRequest_gating {since : Nat} (gating : powerOf s r = .gating since) (later : refPeriod since ≠ refPeriod s.now) :
    exec (.wakeRequest r) s = .next (if s.psc.tripped || s.ramps.contains r then s else { s with ramps := s.ramps ++ [r] }) := by
  rw [exec_wakeRequest, execWakeRequest, if_neg (Nat.not_le.mpr hr), gating]
  dsimp only
  rw [if_neg later]

theorem wakeRequest_waits {since : Nat} (gating : powerOf s r = .gating since) (later : refPeriod since ≠ refPeriod s.now) :
    (s.psc.tripped = false → r ∉ s.ramps → exec (.wakeRequest r) s = .next { s with ramps := s.ramps ++ [r] }) ∧
      (s.psc.tripped = true ∨ r ∈ s.ramps → exec (.wakeRequest r) s = .next s) := by
  rw [exec_wakeRequest_gating hr gating later]
  refine ⟨fun on out => ?_, fun off => ?_⟩
  · simp [on, out]
  · simp [off]

theorem exec_wakeRequest_gated (gated : powerOf s r = .gated) : exec (.wakeRequest r) s = .next (if s.psc.tripped then s else joinRamps s r) := by
  rw [exec_wakeRequest, execWakeRequest, if_neg (Nat.not_le.mpr hr), gated]

theorem wakeRequest_joins (gated : powerOf s r = .gated) (on : s.psc.tripped = false) :
    ∃ t, exec (.wakeRequest r) s = .next t ∧ sameMem s t ∧ sameRegs s t ∧ powerOf t r = .queued ∧ t.ramps = s.ramps ++ [r] := by
  have power := setPower_clock s r .queued
  have queued : ClockFrame s { setPower s r .queued with ramps := s.ramps ++ [r] } := ⟨power.mem, power.cores, power.now⟩
  have booked : Booked { setPower s r .queued with ramps := s.ramps ++ [r] } (joinRamps s r) := .nextRamp _
  have frame := queued.trans booked.clock
  refine ⟨joinRamps s r, ?_, frame.sameMem, frame.sameRegs, (booked.powerOf r).trans (powerOf_setPower_self s r .queued), booked.ramps⟩
  rw [exec_wakeRequest_gated hr gated, on, if_neg Bool.false_ne_true]

theorem wakeRequest_tripped (gated : powerOf s r = .gated) (off : s.psc.tripped = true) : exec (.wakeRequest r) s = .next s := by
  rw [exec_wakeRequest_gated hr gated, off, if_pos rfl]

/-! ### Ramps (R238) -/

/-- The state in which the head of the arbiter's queue ramps. -/
def startRamp (s : State) (r : Nat) : State := ({ setPower s r .ramping with ramps := s.ramps.drop 1 }).later 216000 (.rampEnd r)

theorem rampStart_starts (head : s.ramps.head? = some r) (queued : powerOf s r = .queued) (few : ramping s < 2) :
    ∃ t, exec (.rampStart r) s = .next t ∧ sameMem s t ∧ sameRegs s t ∧ powerOf t r = .ramping ∧ t.ramps = s.ramps.drop 1 ∧
      (s.now + 216000, Ev.rampEnd r) ∈ t.timers := by
  have power := setPower_clock s r .ramping
  have started : ClockFrame s (startRamp s r) := ⟨power.mem, power.cores, power.now⟩
  have booked := Booked.nextRamp (startRamp s r)
  have frame := started.trans booked.clock
  refine ⟨nextRamp (startRamp s r), ?_, frame.sameMem, frame.sameRegs, (booked.powerOf r).trans (powerOf_setPower_self s r .ramping), booked.ramps, ?_⟩
  · rw [exec_rampStart, execRampStart, if_neg (Nat.not_le.mpr hr)]
    simp [head, queued, few, startRamp]
  · rw [← power.now]
    exact mem_timers_nextRamp (mem_timers_later ..)

theorem rampStart_refused (h : s.ramps.head? ≠ some r ∨ 2 ≤ ramping s) : exec (.rampStart r) s = .next s := by
  rw [exec_rampStart, execRampStart, if_neg (Nat.not_le.mpr hr)]
  obtain behind | many := h
  · simp [behind]
  · simp [Nat.not_lt.mpr many]

theorem rampEnd_wakes (ramps : powerOf s r = .ramping) :
    ∃ t, exec (.rampEnd r) s = .next t ∧ sameMem s t ∧ sameRegs s t ∧ (powerOf t r = .awake ∨ 16 ≤ r ∧ powerOf t r = .idle s.now) := by
  have booked := Booked.nextRamp (awaken s r)
  have frame := (awaken_clock s r).trans booked.clock
  refine ⟨nextRamp (awaken s r), ?_, frame.sameMem, frame.sameRegs, ?_⟩
  · rw [exec_rampEnd, execRampEnd, if_neg (Nat.not_le.mpr hr), if_pos ramps]
  · rw [booked.powerOf]
    exact powerOf_awaken s r

end

/-! ### The hold (R228) -/

theorem gateHoldOverride_lengthens (s : State) (r time : Nat) (hr : r < 16) :
    ∃ t, exec (.gateHoldOverride r time) s = .next t ∧ sameMem s t ∧ sameRegs s t ∧
      (t.region r).holdFor = max (s.region r).holdFor (time * 18000) := by
  rw [exec_gateHoldOverride, execGateHoldOverride, if_neg (Nat.not_le.mpr hr)]
  dsimp only
  generalize hu : s.modRegion r _ = u
  have frame : ClockFrame s u := hu ▸ .modRegion ..
  have hold : (u.region r).holdFor = max (s.region r).holdFor (time * 18000) := by rw [← hu, region_modRegion_self]
  refine ⟨_, rfl, ?_⟩
  split <;> exact ⟨frame.sameMem, frame.sameRegs, hold⟩

/-- Settles O53: each step of gating, wake and ramps by the power that its region has. -/
theorem gatingSteps : Obligations.GatingSteps := by
  intro s r since time
  refine ⟨fun hr hold late idle => beginGating_gates (regionGateBegin_core hr hold late idle),
    fun lo hi hold late idle => beginGating_gates (regionGateBegin_hbm lo hi hold late idle), regionGateBegin_awake, gatingComplete_gates s r since,
    fun hr => ⟨wakeRequest_awakens hr, wakeRequest_waits hr, wakeRequest_joins hr, wakeRequest_tripped hr⟩, gateHoldOverride_lengthens s r time,
    rampStart_starts, rampStart_refused, rampEnd_wakes⟩

end Sys2Proof.Machine
end

section
/-!
SUPPORT. What the host's writes and the zeroing of the device leave alone of a job: its serial, its phases and the traces (R128, R173, R489, R490).
-/
namespace Sys2Proof.Machine

/-- No piece of a host write is due. -/
def HostDone (s : State) : Prop := ∀ x ∈ s.timers, ∀ off d, x.2 ≠ Ev.hostWritePiece off d

/-- The serial of the job, its phases and the traces are as before, and no piece of a host write has become due. -/
structure JobFrame (s t : State) : Prop where
  jserial : t.psc.jserial = s.psc.jserial
  nextPhase : t.psc.nextPhase = s.psc.nextPhase
  jphase : t.psc.jphase = s.psc.jphase
  traces : t.traces = s.traces
  done : HostDone s → HostDone t

theorem eq_or_mem_of_mem_insertTimer {x : Nat × Ev} {t : Nat} {e : Ev} {xs : List (Nat × Ev)} (h : x ∈ insertTimer t e xs) : x = (t, e) ∨ x ∈ xs := by
  induction xs with
  | nil => exact .inl (List.mem_singleton.mp h)
  | cons y ys ih =>
    rw [insertTimer] at h
    split at h
    · exact List.mem_cons.mp h
    · obtain first | rest := List.mem_cons.mp h
      · exact .inr (first ▸ List.mem_cons_self)
      · exact (ih rest).imp_right (List.mem_cons_of_mem y)

namespace JobFrame

theorem refl (s : State) : JobFrame s s := ⟨rfl, rfl, rfl, rfl, id⟩

theorem trans {s t u : State} (a : JobFrame s t) (b : JobFrame t u) : JobFrame s u :=
  ⟨b.jserial.trans a.jserial, b.nextPhase.trans a.nextPhase, b.jphase.trans a.jphase, b.traces.trans a.traces, fun h => b.done (a.done h)⟩

theorem foldl {α : Type} {f : State → α → State} (hf : ∀ s x, JobFrame s (f s x)) (l : List α) (s : State) : JobFrame s (l.foldl f s) :=
  List.foldlRecOn (motive := JobFrame s) l f (refl s) fun t kept x _ => kept.trans (hf t x)

theorem later (s : State) (d : Nat) {e : Ev} (other : ∀ off d, e ≠ .hostWritePiece off d) : JobFrame s (s.later d e) :=
  ⟨rfl, rfl, rfl, rfl, fun h x hx => (eq_or_mem_of_mem_insertTimer hx).elim (fun own => own ▸ other) (h x)⟩

/-! ### Transfers of bursts (R128) -/

theorem hbmLog (s : State) (hs pc type : Nat) (p : LogPos) : JobFrame s (hbmLog s hs pc type p) := ⟨rfl, rfl, rfl, rfl, id⟩

theorem swapLane (s : State) (hs pc stamp : Nat) : JobFrame s (swapLane s hs pc stamp) := by
  unfold Machine.swapLane
  dsimp only
  cases worstLane ((s.hbm hs).pc pc).window with
  | some l =>
    dsimp only
    split <;> exact ⟨rfl, rfl, rfl, rfl, id⟩
  | none =>
    dsimp only
    by_cases c : (s.draw 38).1 < 38
    · simp only [c, if_true]
      split <;> exact ⟨rfl, rfl, rfl, rfl, id⟩
    · simp only [c, if_false]
      exact ⟨rfl, rfl, rfl, rfl, id⟩

theorem resent (s : State) (cell type : Nat) (p : LogPos) : JobFrame s (resent s cell type p) := by
  unfold Machine.resent
  dsimp only
  generalize hu : s.modHbm _ _ = u
  have counted : JobFrame s u := hu ▸ ⟨rfl, rfl, rfl, rfl, id⟩
  have logged := counted.trans (.hbmLog u (locHs cell) (locPc cell) type p)
  split
  · exact logged.trans (.swapLane ..)
  · exact logged

theorem writeTransfer (s : State) (cell core stamp fails lane : Nat) : JobFrame s (writeTransfer s cell core stamp fails lane).2 := by
  unfold Machine.writeTransfer
  dsimp only
  split
  · exact refl s
  · exact .resent ..

theorem writeLines (s : State) (pa n : Nat) : JobFrame s (writeLines s pa n) := by
  unfold Machine.writeLines
  refine foldl (fun s l => ?_) _ s
  dsimp only
  have drawn : JobFrame s (freeFails s 3).2.2 := ⟨rfl, rfl, rfl, rfl, id⟩
  split
  · exact (drawn.trans (.writeTransfer ..)).trans ⟨rfl, rfl, rfl, rfl, id⟩
  · exact drawn.trans (.writeTransfer ..)

theorem noteWrites (s : State) (ps : List (Nat × Nat)) : JobFrame s (s.noteWrites ps) := ⟨rfl, rfl, rfl, rfl, id⟩

/-! ### Host writes (R173, R489) -/

theorem hostWrite (pa : Nat) (data : List Byte) (s : State) : JobFrame s (hostWrite s pa data) := by
  induction data generalizing pa s with
  | nil => exact refl s
  | cons b bs ih =>
    rw [Machine.hostWrite]
    refine .trans ?_ (ih ..)
    split <;> exact ⟨rfl, rfl, rfl, rfl, id⟩

theorem writePiece (off : Nat) (data : List Byte) (s : State) : JobFrame s (writePiece off data s) := by
  unfold Machine.writePiece countSealed
  dsimp only
  have written : JobFrame s (if (List.range (hostPiece off data.length)).all fun i => closedByte s (hostPhys s off + i) then s
      else Machine.writeLines (Machine.hostWrite s (hostPhys s off) (data.take (hostPiece off data.length))) (hostPhys s off) (hostPiece off data.length)) := by
    split
    · exact refl s
    · exact (hostWrite ..).trans (.writeLines ..)
  split
  · exact written.trans ⟨rfl, rfl, rfl, rfl, id⟩
  · exact written

theorem writeAll (n off : Nat) (data : List Byte) (s : State) : JobFrame s (writeAll n off data s) := by
  induction n generalizing off data s with
  | zero => exact refl s
  | succ n ih =>
    rw [Machine.writeAll]
    split
    · exact refl s
    · exact (writePiece ..).trans (ih ..)

/-! ### The zeroing of the device (R490) -/

theorem checkLaunch (s : State) (i n : Nat) : JobFrame s (checkLaunch s i n) := by
  unfold Machine.checkLaunch
  split
  · exact .later s 0 (by simp)
  · exact refl s

theorem forgetOrphans (s : State) : JobFrame s (forgetOrphans s) := by
  unfold Machine.forgetOrphans
  dsimp only
  refine .trans ?_ (.foldl (fun s _ => .checkLaunch s ..) ..)
  exact ⟨rfl, rfl, rfl, rfl, id⟩

theorem zeroDevice (s : State) : JobFrame s (zeroDevice s) := by
  unfold Machine.zeroDevice
  dsimp only
  refine .trans (.trans (.trans ?_ (.forgetOrphans _)) (.foldl (by exact fun _ _ => ⟨rfl, rfl, rfl, rfl, id⟩) _ _)) (.noteWrites _ _)
  exact ⟨rfl, rfl, rfl, rfl, id⟩

end JobFrame

end Sys2Proof.Machine
end

section
/-!
O48: the start of a job, the bind of a phase and the boot (R222, R484, R489 to R491, R495, R496), each step by rules of its own.
-/
namespace Sys2Proof.Machine

/-! ### The state of a job (R491) -/

/-- A new job state records itself and its error, a cause, and what the end of the job takes (R491, R492, R501). -/
theorem setJob_eq_of_ne {s : State} {st : Nat} (err : Nat) (h : s.psc.jstate ≠ st) : ∃ meas image jcause pba,
    setJob s st err = { s with psc := { s.psc with
      jstate := st, jerr := err, meas := meas, image := image, jcause := jcause, pba := pba } } := by
  have closed : ∃ meas image, closeJob s = { s with psc := { s.psc with meas := meas, image := image } } := by
    unfold closeJob
    split <;> exact ⟨_, _, rfl⟩
  obtain ⟨_, _, closed⟩ := closed
  rw [setJob, if_neg h]
  dsimp only
  split
  · rw [closed]
    exact ⟨_, _, _, _, rfl⟩
  · exact ⟨_, _, _, _, rfl⟩

theorem setJob_same {s : State} {st : Nat} (err : Nat) (h : s.psc.jstate = st) : setJob s st err = s := by rw [setJob, if_pos h]

/-! ### The verification of an image (R490, R500, R501) -/

/-- Memory and what `JobFrame` names are as before. -/
structure Verifies (s t : State) : Prop extends JobFrame s t where
  mem : t.mem = s.mem

namespace Verifies

theorem trans {s t u : State} (a : Verifies s t) (b : Verifies t u) : Verifies s u := ⟨a.toJobFrame.trans b.toJobFrame, b.mem.trans a.mem⟩

theorem setJob (s : State) (st err : Nat) : Verifies s (setJob s st err) := by
  by_cases same : s.psc.jstate = st
  · rw [setJob_same err same]
    exact ⟨.refl s, rfl⟩
  · obtain ⟨_, _, _, _, e⟩ := setJob_eq_of_ne err same
    rw [e]
    exact ⟨⟨rfl, rfl, rfl, rfl, id⟩, rfl⟩

theorem withImage (s : State) (im : Option Image) : Verifies s { s with psc := { s.psc with image := im } } := ⟨⟨rfl, rfl, rfl, rfl, id⟩, rfl⟩

theorem failJob (s : State) (im : Option Image) (err : Nat) : Verifies s (failJob s im err) :=
  ((withImage s im).trans (setJob _ 4 err)).trans (.withImage _ none)

theorem noteReads (s : State) (ps : List (Nat × Nat)) : Verifies s (s.noteReads ps) := ⟨⟨rfl, rfl, rfl, rfl, id⟩, rfl⟩

theorem verifySealed (s : State) (im : Image) : Verifies s (verifySealed s im) := by
  unfold Machine.verifySealed
  dsimp only
  split
  · exact .failJob ..
  · split
    · exact .failJob ..
    · split
      · exact (withImage ..).trans (.setJob ..)
      · exact ⟨⟨rfl, rfl, rfl, rfl, id⟩, rfl⟩

end Verifies

/-- The state in which JSTART has verified its image, or has found that it does not verify (R490). -/
def verifyJob (v : Word) (s : State) : State :=
  let a := wfld v 39 0
  let phase := wfld v 47 40
  if s.psc.tripped then failJob s none 8
  else
    let h := readHeader s a
    let e := headerErr s h a phase
    let im := imageOf s h a
    let t := if e ≠ 0 then failJob s (if e = 2 then none else some im) e
      else if im.sealed then verifySealed s im else { s with psc := { s.psc with image := some im } }
    t.noteReads (verifyPieces s a phase)

theorem verifyJob_verifies (v : Word) (s : State) : Verifies s (verifyJob v s) := by
  unfold verifyJob
  dsimp only
  split
  · exact .failJob ..
  · refine .trans ?_ (.noteReads ..)
    split
    · exact .failJob ..
    · split
      · exact .verifySealed ..
      · exact .withImage ..

/-! ### The zeroed device (R490) -/

/-- Every face and instruction buffer reads zero. -/
def FacesZero (s : State) : Prop := ∀ a, faceLoc 0 0 0 ≤ a → a < faceLoc 384 0 0 → readByte s.mem a = 0

theorem FacesZero.of_mem {s t : State} (h : FacesZero s) (mem : t.mem = s.mem) : FacesZero t := by
  unfold FacesZero
  rwa [mem]

theorem readByte_filter_zero {m : Memory} {a : Nat} (p : Nat → Bool) (h : readByte m a = 0) : readByte (m.filter fun x => p x.1) a = 0 := by
  rw [readByte, smGet, smFind_filter]
  split
  · exact h
  · rfl

theorem Booked.forgetOrphans (s : State) : Booked s (forgetOrphans s) := by
  unfold Machine.forgetOrphans
  exact .trans ⟨_, _, _, rfl⟩ (.foldl (fun s _ => .checkLaunch s ..) ..)

theorem zeroDevice_facesZero (s : State) : FacesZero (zeroDevice s) := by
  unfold zeroDevice
  dsimp only
  refine .of_mem ?_ (readsAs_noteWrites _ _).1
  refine List.foldlRecOn (motive := FacesZero) _ _ (.of_mem ?_ (Booked.forgetOrphans _).clock.mem) fun t zero r _ a lo hi => ?_
  · intro a lo hi
    simp only [readByte_clearRange, lo, hi, and_self, if_true]
  · exact readByte_filter_zero (fun k => !(decide (k < 2 ^ 40) && decide (r.1 ≤ t.loc k) && decide (t.loc k < r.1 + r.2))) (zero a lo hi)

/-! ### JSTART (R489) -/

theorem releaseWrites_frame (s : State) : ∃ u, JobFrame u (releaseWrites s) ∧ HostDone u ∧ u.psc = s.psc ∧ u.traces = s.traces := by
  refine ⟨_, .foldl (fun s x => .writeAll ..) _ _, fun x hx off d e => ?_, rfl, rfl⟩
  obtain ⟨-, kept⟩ := List.mem_filter.mp hx
  simp [e] at kept

/-- The state in which a job has taken its serial and the phase to bind (R490). -/
def numberJob (v : Word) (s : State) : State :=
  { s with psc := { s.psc with
    jserial := (s.psc.jserial + 1) % 2 ^ 16, nextPhase := wfld v 47 40, sacnt := 0, pfail := [], phaseOpen := false
    fwrun := newFirmware s.psc.fwrun s.psc.fwnew } }

/-- The state in which that job runs, its traces and measurements begun anew (R503, R507). -/
def beginJob (v : Word) (s : State) : State :=
  let s := setJob (numberJob v s) 1 0
  { s with traces := smMap (fun _ (t : Trace) => { stop := t.stop }) s.traces, psc := { s.psc with meas := startMeas s (wfld v 39 0), energyJob := 0 } }

theorem exec_jstart_go {s : State} {v : Word} (go : wfld v 63 63 = 1) (booted : s.psc.booted = true) (idle : s.jobRuns = false) :
    exec (.jstart v) s = .next (verifyJob v (beginJob v (zeroDevice (releaseWrites s)))) := by
  rw [exec_jstart, execJstart]
  have due : ¬ (decide (wfld v 63 63 = 0) || !s.psc.booted) = true := by simp [go, booted]
  rw [if_neg due, if_neg (Bool.eq_false_iff.mp idle)]
  rfl

theorem jstart_starts (s : State) (v : Word) (go : wfld v 63 63 = 1) (booted : s.psc.booted = true) (idle : s.jobRuns = false) :
    ∃ t, exec (.jstart v) s = .next t ∧ t.psc.jserial = (s.psc.jserial + 1) % 2 ^ 16 ∧ t.psc.nextPhase = wfld v 47 40 ∧
      t.psc.jphase = s.psc.jphase ∧ HostDone t ∧ t.traces = smMap (fun _ (x : Trace) => { stop := x.stop }) s.traces ∧ FacesZero t := by
  obtain ⟨w, released, done, psc, traces⟩ := releaseWrites_frame s
  have zeroed := released.trans (.zeroDevice _)
  have zero := zeroDevice_facesZero (releaseWrites s)
  refine ⟨_, exec_jstart_go go booted idle, ?_⟩
  generalize zeroDevice (releaseWrites s) = u at zeroed zero ⊢
  have started := Verifies.setJob (numberJob v u) 1 0
  have verified := verifyJob_verifies v (beginJob v u)
  refine ⟨verified.jserial.trans (started.jserial.trans ?serial), verified.nextPhase.trans started.nextPhase,
    verified.jphase.trans (started.jphase.trans ?phase), verified.done (started.done (zeroed.done done)), verified.traces.trans ?traces,
    zero.of_mem (verified.mem.trans started.mem)⟩
  case serial =>
    show (u.psc.jserial + 1) % 2 ^ 16 = _
    rw [zeroed.jserial, psc]
  case phase =>
    show u.psc.jphase = _
    rw [zeroed.jphase, psc]
  case traces =>
    show smMap (fun _ x => ({ stop := x.stop } : Trace)) (setJob (numberJob v u) 1 0).traces = _
    rw [started.traces, ← traces, ← zeroed.traces]
    rfl

theorem jstart_busy {s : State} {v : Word} (go : wfld v 63 63 = 1) (booted : s.psc.booted = true) (runs : s.jobRuns = true) :
    exec (.jstart v) s = .next { s with psc := { s.psc with jerr := 1 } } := by
  rw [exec_jstart, execJstart]
  simp [go, booted, runs]

theorem jstart_without_go (s : State) {v : Word} (idle : wfld v 63 63 = 0) : exec (.jstart v) s = .next s := by
  rw [exec_jstart, execJstart]
  simp [idle]

/-! ### PHASE_BIND (R222) -/

theorem exec_phaseBind_due {s : State} {im : Image} (image : s.psc.image = some im) (runs : s.jobRuns = true) (shut : s.psc.phaseOpen = false)
    (free : s.packs = []) (ls : List LeaseEntry) :
    exec (.phaseBind ls) s = .next (if ls ≠ leaseTable s im then s else bindPhase ls im s) := by
  rw [exec_phaseBind, execPhaseBind, image]
  simp [runs, shut, free]

theorem bindPhase_malformed {s : State} {im : Image} (ls : List LeaseEntry) (bad : badPhase s im = true) :
    bindPhase ls im s = failPhase s 0 0 0 0 0 := by
  rw [bindPhase, if_pos bad]
  rfl

/-- Steps 6 and 7 of a bind, with the phase's code in the instruction buffers. -/
def bindLast (ls : List LeaseEntry) (im : Image) (base : Nat) (ws : List (List Tlb × List Nat)) (v : State) : State :=
  match stepSix v ls (wfld (phaseWord v im 6) 3 0) (leaseRefs v base ws) with
  | some f => bindFailed v f
  | none => bindRoot (bindTables v im ls (allEntries ws)) base ws

theorem bindLast_binds {ls : List LeaseEntry} {im : Image} {base : Nat} {ws : List (List Tlb × List Nat)} {v : State}
    (pass : stepSix v ls (wfld (phaseWord v im 6) 3 0) (leaseRefs v base ws) = none) :
    bindLast ls im base ws v = bindRoot (bindTables v im ls (allEntries ws)) base ws := by
  rw [bindLast, pass]

theorem bindLast_fails {ls : List LeaseEntry} {im : Image} {base : Nat} {ws : List (List Tlb × List Nat)} {v : State} {e : BindFail}
    (fail : stepSix v ls (wfld (phaseWord v im 6) 3 0) (leaseRefs v base ws) = some e) : bindLast ls im base ws v = bindFailed v e := by
  rw [bindLast, fail]

section
variable {s u : State} {im : Image} {ls : List LeaseEntry} {ws : List (List Tlb × List Nat)} {base : Nat}
  (good : badPhase s im = false) (root : (phaseWord s im 2).toNat = base)
include good root

theorem bindPhase_unfilled {e : BindFail} (fill : fillRoot (bindFront s im) base (min 4096 (nNode (bindFront s im) base)) = .error e) :
    bindPhase ls im s = bindFailed (bindFront s im) e := by
  rw [bindPhase, if_neg (Bool.eq_false_iff.mp good), root]
  dsimp only
  rw [fill]

theorem bindPhase_filled (fill : fillRoot (bindFront s im) base (min 4096 (nNode (bindFront s im) base)) = .ok (u, ws))
    (unsealed : exportsSealed im (readTable u (phaseWord u im 9).toNat) (allEntries ws) = none) :
    bindPhase ls im s = bindLast ls im base ws (loadCode u (phaseWord u im 0).toNat (phaseWord u im 1).toNat) := by
  rw [bindPhase, if_neg (Bool.eq_false_iff.mp good), root]
  dsimp only
  rw [fill]
  dsimp only
  rw [unsealed]
  rfl

end

/-! ### BOOT (R484, R496) -/

theorem smFind_map_of_mem {α : Type} (f : Nat → α) {l : List Nat} {c : Nat} (h : c ∈ l) : smFind (l.map fun k => (k, f k)) c = some (f c) := by
  induction l with
  | nil => exact absurd h List.not_mem_nil
  | cons k l ih =>
    rw [List.map_cons, smFind]
    split
    · next own => rw [own]
    · next other => exact ih (List.mem_of_ne_of_mem (Ne.symm other) h)

theorem Booked.bootTimers (s : State) (hs : Nat) : Booked s (bootTimers s hs) := ⟨_, _, _, rfl⟩

theorem Booked.freeTemps (s : State) : Booked s (freeTemps s).2 := by
  unfold Machine.freeTemps
  exact List.foldlRecOn (motive := fun (a : List Nat × State) => Booked s a.2) _ _ (.refl s) fun _ drawn _ _ => drawn.trans ⟨_, _, _, rfl⟩

/-- The state in which the boot has set up the cores, the stacks and the package system controller (R496, R497). -/
def bootUnits (s : State) : State :=
  { s with
    cores := (List.range 384).map fun c => (c, ({ lavail := bootLavail (c / 96) } : Core))
    hbms := (List.range 16).map fun hs => (hs, bootHbm hs)
    psc := { s.psc with booted := true, pkgid := 1023, clkFab := 1, fwrun := (List.range 3).map fun k => (k, bootDigest s.psc k) } }

theorem bootDone_booked (s : State) : Booked ((List.range 16).foldl lockRegion (bootUnits s)) (bootDone s) := by
  unfold bootDone
  dsimp only
  rw [← bootUnits]
  generalize (List.range 16).foldl lockRegion (bootUnits s) = u
  exact (Booked.foldl .bootTimers _ u).trans ((Booked.freeTemps _).trans (.later ..))

theorem lockRegion_clock (s : State) (r : Nat) : ClockFrame s (lockRegion s r) := ⟨rfl, rfl, rfl⟩

theorem region_lockRegion_ne (s : State) (q d : Nat) (h : d ≠ q) : (lockRegion s q).region d = s.region d := region_setRegion_ne s _ h

theorem region_lockRegion_self (s : State) (r : Nat) : ((lockRegion s r).region r).lock = true ∧ ((lockRegion s r).region r).power = .awake := by
  rw [lockRegion, region_setRegion_self]
  exact ⟨rfl, rfl⟩

/-- What a boot whose steps have all passed leaves (R496). -/
theorem bootDone_boots (s : State) : (bootDone s).mem = s.mem ∧ (bootDone s).psc = (bootUnits s).psc ∧
    (∀ c, c < 384 → (bootDone s).core c = { lavail := bootLavail (c / 96) }) ∧ ∀ r, r < 16 → ((bootDone s).region r).lock = true := by
  obtain ⟨w, ts, n, e⟩ := bootDone_booked s
  have frame := ClockFrame.foldl lockRegion_clock (List.range 16) (bootUnits s)
  have psc : ((List.range 16).foldl lockRegion (bootUnits s)).psc = _ := foldl_keeps State.psc (by exact fun _ _ => rfl) (List.range 16) (bootUnits s)
  have lock (r : Nat) (hr : r < 16) : (((List.range 16).foldl lockRegion (bootUnits s)).region r).lock = true := by
    obtain ⟨u, -, own⟩ := region_foldl_of_mem region_lockRegion_ne List.nodup_range (List.mem_range.mpr hr) (bootUnits s)
    rw [own]
    exact (region_lockRegion_self u r).1
  generalize (List.range 16).foldl lockRegion (bootUnits s) = u at e frame psc lock
  rw [e]
  refine ⟨frame.mem, psc, fun c hc => ?_, lock⟩
  show (smFind u.cores c).getD {} = _
  rw [frame.cores, bootUnits, smFind_map_of_mem _ (List.mem_range.mpr hc)]
  rfl

/-! The steps of boot. -/

theorem mem_bootSteps {k : Nat} : k ∈ [1, 2, 3, 4, 5] ↔ 1 ≤ k ∧ k ≤ 5 := by
  simp only [List.mem_cons, List.not_mem_nil, or_false]
  omega

theorem bootUp_passes {s : State} (pass : ∀ k, 1 ≤ k → k ≤ 5 → bootStep s k = true) : bootUp s = bootDone s := by
  have none : [1, 2, 3, 4, 5].find? (fun k => !bootStep s k) = none := List.find?_eq_none.mpr fun k hk => by
    simp [pass k (mem_bootSteps.mp hk).1 (mem_bootSteps.mp hk).2]
  rw [bootUp, none]

theorem bootUp_fails {s : State} (fail : ∃ k, 1 ≤ k ∧ k ≤ 5 ∧ bootStep s k = false) :
    ∃ k, bootStep s k = false ∧ bootUp s = setJob { s with psc := { s.psc with bootFail := k } } 4 9 := by
  cases found : [1, 2, 3, 4, 5].find? (fun k => !bootStep s k) with
  | none =>
    obtain ⟨k, lo, hi, bad⟩ := fail
    have good := List.find?_eq_none.mp found k (mem_bootSteps.mpr ⟨lo, hi⟩)
    simp [bad] at good
  | some k =>
    have bad := List.find?_some found
    exact ⟨k, by simpa using bad, by rw [bootUp, found]⟩

theorem bootUp_holds {s : State} (fail : ∃ k, 1 ≤ k ∧ k ≤ 5 ∧ bootStep s k = false) (fresh : s.psc.jstate ≠ 4) :
    (bootUp s).mem = s.mem ∧ (bootUp s).psc.booted = s.psc.booted ∧ (bootUp s).psc.jstate = 4 ∧ (bootUp s).psc.jerr = 9 ∧
      bootStep s (bootUp s).psc.bootFail = false := by
  obtain ⟨k, bad, e⟩ := bootUp_fails fail
  obtain ⟨_, _, _, _, held⟩ := setJob_eq_of_ne (s := { s with psc := { s.psc with bootFail := k } }) 9 fresh
  rw [e, held]
  exact ⟨rfl, rfl, rfl, rfl, bad⟩

theorem bootStep_powerOn (s : State) (k : Nat) : bootStep (powerOn s) k = bootStep s k := rfl

theorem powerOn_jstate (s : State) : (powerOn s).psc.jstate ≠ 4 := Nat.zero_ne_add_one 3

theorem exec_boot_unbooted {s : State} (cold : s.psc.booted = false) :
    exec .boot s = .next (bootUp (if s.psc.bootFail = 0 then s else powerOn s)) := by
  rw [exec_boot, execBoot, cold]
  rfl

theorem exec_boot_reset {s : State} (booted : s.psc.booted = true) (on : s.psc.tripped = false) : exec .boot s = .next (bootUp (powerOn s)) := by
  rw [exec_boot, execBoot, booted, on]
  rfl

theorem boot_boots (s : State) (c : Nat) (cold : s.psc.booted = false) (hc : c < 384) : ∃ t, exec .boot s = .next t ∧
    ((∀ k, 1 ≤ k → k ≤ 5 → bootStep s k = true) → t.psc.booted = true ∧ t.psc.pkgid = 1023 ∧ t.psc.bootFail = 0 ∧
      (s.psc.bootFail ≠ 0 → t.psc.jstate = 0 ∧ t.psc.jerr = 0) ∧
      t.core c = { lavail := bootLavail (c / 96) } ∧ (t.region (c % 16)).lock = true ∧
      t.psc.fwrun = (List.range 3).map fun k => (k, (smFind s.psc.fwnew k).getD (Config.shake256 512 (Config.firmware k)))) ∧
    ((∃ k, 1 ≤ k ∧ k ≤ 5 ∧ bootStep s k = false) → (s.psc.bootFail = 0 → s.psc.jstate ≠ 4) → t.psc.booted = false ∧ t.psc.jstate = 4 ∧
      t.psc.jerr = 9 ∧ bootStep s t.psc.bootFail = false) := by
  refine ⟨_, exec_boot_unbooted cold, ?_⟩
  generalize hu : (if s.psc.bootFail = 0 then s else powerOn s) = u
  obtain ⟨steps, fail, fwnew, down, job, state⟩ : (∀ k, bootStep u k = bootStep s k) ∧ u.psc.bootFail = 0 ∧ u.psc.fwnew = s.psc.fwnew ∧
      u.psc.booted = false ∧ (s.psc.bootFail ≠ 0 → u.psc.jstate = 0 ∧ u.psc.jerr = 0) ∧
      ((s.psc.bootFail = 0 → s.psc.jstate ≠ 4) → u.psc.jstate ≠ 4) := by
    subst hu
    split
    · next first => exact ⟨fun _ => rfl, first, rfl, cold, fun again => absurd first again, fun h => h first⟩
    · exact ⟨bootStep_powerOn s, rfl, rfl, rfl, fun _ => ⟨rfl, rfl⟩, fun _ => powerOn_jstate s⟩
  simp only [← steps, ← fwnew]
  refine ⟨fun pass => ?_, fun bad fresh => ?_⟩
  · rw [bootUp_passes pass]
    obtain ⟨-, psc, core, lock⟩ := bootDone_boots u
    rw [psc]
    exact ⟨rfl, rfl, fail, job, core c hc, lock _ (Nat.mod_lt c (by decide)), rfl⟩
  · obtain ⟨-, booted, held, err, step⟩ := bootUp_holds bad (state fresh)
    exact ⟨booted.trans down, held, err, step⟩

theorem boot_resets (s : State) (booted : s.psc.booted = true) (on : s.psc.tripped = false) : ∃ t, exec .boot s = .next t ∧ t.mem = [] ∧
    (powerOn s).psc = { fwver := s.psc.fwver, fwnew := s.psc.fwnew, sigidx := s.psc.sigidx } ∧
    ((∀ k, 1 ≤ k → k ≤ 5 → bootStep s k = true) → t.psc = { (powerOn s).psc with booted := true, pkgid := 1023, clkFab := 1, fwrun := t.psc.fwrun }) ∧
    ((∃ k, 1 ≤ k ∧ k ≤ 5 ∧ bootStep s k = false) → t.psc.booted = false ∧ t.psc.jstate = 4 ∧ t.psc.jerr = 9) := by
  refine ⟨_, exec_boot_reset booted on, ?_⟩
  simp only [← bootStep_powerOn s]
  refine ⟨?mem, rfl, fun pass => ?pass, fun bad => ?fail⟩
  case mem =>
    by_cases pass : ∀ k, 1 ≤ k → k ≤ 5 → bootStep (powerOn s) k = true
    · rw [bootUp_passes pass, (bootDone_boots _).1]
      rfl
    · simp only [not_forall, Bool.not_eq_true] at pass
      obtain ⟨k, lo, hi, bad⟩ := pass
      exact (bootUp_holds ⟨k, lo, hi, bad⟩ (powerOn_jstate s)).1
  case pass =>
    rw [bootUp_passes pass, (bootDone_boots _).2.1]
    rfl
  case fail =>
    obtain ⟨-, down, held, err, -⟩ := bootUp_holds bad (powerOn_jstate s)
    exact ⟨down, held, err⟩

/-! ### Power restored after a trip (R484) -/

/-- The state in which a region whose power is restored locks again, the PCs of its cube stack counted from its new counter on. -/
def restoreRegion (s : State) (r : Nat) : State :=
  (List.range 4).foldl (fun t j => t.modHbm (r / 4 * 4 + j) fun h => h.recount (r % 4) (s.region r).hw.toNat)
    ((lockRegion s r).modRegion r fun k => { k with temps := (s.region r).temps })

theorem restoreRegion_regions (s : State) (r : Nat) :
    (restoreRegion s r).regions = ((lockRegion s r).modRegion r fun k => { k with temps := (s.region r).temps }).regions :=
  foldl_keeps State.regions (by exact fun _ _ => rfl) _ _

theorem restoreRegion_clock (s : State) (r : Nat) : ClockFrame s (restoreRegion s r) :=
  .trans (t := (lockRegion s r).modRegion r fun k => { k with temps := (s.region r).temps }) ⟨rfl, rfl, rfl⟩
    (.foldl (by exact fun _ _ => ⟨rfl, rfl, rfl⟩) _ _)

theorem region_restoreRegion_ne (s : State) (q d : Nat) (h : d ≠ q) : (restoreRegion s q).region d = s.region d := by
  rw [State.region, restoreRegion_regions, ← State.region, region_modRegion_ne _ _ h, region_lockRegion_ne s q d h]

theorem region_restoreRegion_self (s : State) (r : Nat) :
    ((restoreRegion s r).region r).lock = true ∧ ((restoreRegion s r).region r).power = .awake := by
  rw [State.region, restoreRegion_regions, ← State.region, region_modRegion_self]
  exact region_lockRegion_self s r

/-- The state in which no trip holds the power of the core rails. -/
def untrip (s : State) : State := { s with psc := { s.psc with tripped := false } }

theorem restorePower_eq (s : State) : restorePower s = untrip ((List.range 16).foldl restoreRegion s) := rfl

theorem region_restoreRegions (s : State) {r : Nat} (hr : r < 16) : (((List.range 16).foldl restoreRegion s).region r).lock = true ∧
    (((List.range 16).foldl restoreRegion s).region r).power = .awake := by
  obtain ⟨u, -, own⟩ := region_foldl_of_mem region_restoreRegion_ne List.nodup_range (List.mem_range.mpr hr) s
  rw [own]
  exact region_restoreRegion_self u r

/-- Power is restored: memory and the registers are kept, no trip holds the power, and every region is locked and awake. -/
def PowerRestored (s t : State) : Prop :=
  sameMem s t ∧ sameRegs s t ∧ t.psc.tripped = false ∧ ∀ r, r < 16 → (t.region r).lock = true ∧ (t.region r).power = .awake

theorem restorePower_restores (s : State) : PowerRestored s (restorePower s) := by
  have untripped (u : State) (frame : ClockFrame s u) (awake : ∀ r, r < 16 → (u.region r).lock = true ∧ (u.region r).power = .awake) :
      PowerRestored s (untrip u) := ⟨sameMem_of_mem frame.mem, sameRegs_of_cores frame.cores, rfl, awake⟩
  rw [restorePower_eq]
  exact untripped _ (.foldl restoreRegion_clock _ s) fun r hr => region_restoreRegions s hr

theorem exec_boot_tripped {s : State} (booted : s.psc.booted = true) (off : s.psc.tripped = true) :
    exec .boot s = .next (if (List.range 16).all fun r => (s.region r).hot < 240 then restorePower s else s) := by
  rw [exec_boot, execBoot, booted, off]
  rfl

theorem boot_hot {s : State} (booted : s.psc.booted = true) (off : s.psc.tripped = true) (hot : ∃ r, r < 16 ∧ 240 ≤ (s.region r).hot) :
    exec .boot s = .next s := by
  obtain ⟨r, hr, hot⟩ := hot
  rw [exec_boot_tripped booted off, if_neg]
  intro cool
  exact absurd (of_decide_eq_true (List.all_eq_true.mp cool r (List.mem_range.mpr hr))) (Nat.not_lt.mpr hot)

theorem boot_restores {s : State} (booted : s.psc.booted = true) (off : s.psc.tripped = true) (cool : ∀ r, r < 16 → (s.region r).hot < 240) :
    ∃ t, exec .boot s = .next t ∧ PowerRestored s t := by
  refine ⟨restorePower s, ?_, restorePower_restores s⟩
  rw [exec_boot_tripped booted off, if_pos]
  exact List.all_eq_true.mpr fun r hr => decide_eq_true (cool r (List.mem_range.mp hr))

/-- Settles O48: JSTART, PHASE_BIND and BOOT, each by the state of the job and of the package. -/
theorem jobSteps : Obligations.JobSteps := by
  intro s v ls im ws u e c
  refine ⟨jstart_starts s v, jstart_busy, jstart_without_go s, fun image runs shut free => ⟨fun due => ?due, fun other => ?other, bindPhase_malformed ls,
    fun good => ⟨bindPhase_unfilled good rfl, fun fill unsealed => ⟨fun pass => ?pass, fun fail => ?fail⟩⟩⟩, boot_boots s c, boot_resets s,
    fun booted off => ⟨boot_hot booted off, boot_restores booted off⟩⟩
  case due => rw [exec_phaseBind_due image runs shut free, if_neg (not_not_intro due)]
  case other => rw [exec_phaseBind_due image runs shut free, if_pos other]
  case pass => exact (bindPhase_filled good rfl fill unsealed).trans (bindLast_binds pass)
  case fail => exact (bindPhase_filled good rfl fill unsealed).trans (bindLast_fails fail)

end Sys2Proof.Machine
end

section
/-!
O6: a word illegal where it stands faults ILLEGAL, and a legal word of the other thread faults PRIV (R263, R280, R285, R302).
-/
namespace Sys2Proof.Machine

/-- A fault raised for a word is the fault of its bundle (R260). -/
theorem raise_raised (s : State) (pipe code cause : Nat) : ∃ r, (raise s pipe code cause).cur.raised = some r ∧ r.code = code ∧ r.cause = cause :=
  ⟨_, rfl, rfl, rfl⟩

/-- A word illegal where it stands has its effect where that raises an ILLEGAL fault of a lower cause (R280). -/
theorem issueWord_lower {s : State} {i : Instr} (p : Perm) {eff : State → State} {c e : Nat} (hr : s.cur.raised = none)
    (h : illegalCause s.cur i.toWord = some c) (he : effectIllegal s i eff = some e) (lower : e < c) : issueWord s i p eff = .next (eff s) := by
  simp [issueWord, hr, h, he, lower]

/-- A legal word a value of whose registers is illegal has the effect that raises that fault, whoever issues it (R280). -/
theorem issueWord_effectIllegal {s : State} {i : Instr} (p : Perm) {eff : State → State} {e : Nat} (hr : s.cur.raised = none)
    (h : illegalCause s.cur i.toWord = none) (he : effectIllegal s i eff = some e) : issueWord s i p eff = .next (eff s) := by
  simp [issueWord, hr, h, he]

/-- A word illegal where it stands faults ILLEGAL with its cause or a lower one (R302). -/
theorem issueWord_faults_illegal {s : State} {i : Instr} (p : Perm) (eff : State → State) {c : Nat} (hr : s.cur.raised = none)
    (h : illegalCause s.cur i.toWord = some c) :
    ∃ t r, issueWord s i p eff = .next t ∧ t.cur.raised = some r ∧ r.code = 1 ∧ r.cause ≤ c := by
  by_cases lower : ∃ e, effectIllegal s i eff = some e ∧ e < c
  · obtain ⟨e, he, lt⟩ := lower
    obtain ⟨r, raised, code, cause⟩ := effectIllegal_some he
    exact ⟨_, r, issueWord_lower p hr h he lt, raised, code, cause ▸ Nat.le_of_lt lt⟩
  · have least (e : Nat) (he : effectIllegal s i eff = some e) : c ≤ e := Nat.not_lt.mp fun lt => lower ⟨e, he, lt⟩
    obtain ⟨r, raised, code, cause⟩ := raise_raised s (srcOf i.toWord) 1 c
    exact ⟨_, r, issueWord_illegal p eff hr h least, raised, code, Nat.le_of_eq cause⟩

/-- A legal word that its thread may not issue faults PRIV, or ILLEGAL where a value of its registers is illegal (R263, R280). -/
theorem issueWord_refused_or_illegal {s : State} {i : Instr} {p : Perm} (eff : State → State) (hr : s.cur.raised = none)
    (hc : illegalCause s.cur i.toWord = none) (hg : guardTrue s i.toWord = true) (refused : p.refuses s.cur.hd = true) :
    issueWord s i p eff = .next (raise s (srcOf i.toWord) 13 0) ∨
      ∃ t r, issueWord s i p eff = .next t ∧ t.cur.raised = some r ∧ r.code = 1 := by
  cases he : effectIllegal s i eff with
  | none => exact .inl (issueWord_refused eff hr hc hg refused he)
  | some e =>
    obtain ⟨r, raised, code, -⟩ := effectIllegal_some he
    exact .inr ⟨_, r, issueWord_effectIllegal p hr hc he, raised, code⟩

/-- No word is of the handler alone and of the task alone. -/
theorem taskOnly_of_handlerOnly {i : Instr} (h : handlerOnly i = true) : taskOnly i = false := by
  unfold handlerOnly at h
  split at h
  rotate_right
  · exact absurd h Bool.false_ne_true
  all_goals rfl

/-- The thread that a word is not of is refused it (R263, R469, R472). -/
theorem permOf_refuses {i : Instr} {hd : Bool} (h : (taskOnly i = true ∧ hd = true) ∨ (handlerOnly i = true ∧ hd = false)) :
    (permOf i).refuses hd = true := by
  rcases h with ⟨task, rfl⟩ | ⟨handler, rfl⟩
  · simp [permOf, task, Perm.refuses]
  · simp [permOf, handler, taskOnly_of_handlerOnly handler, Perm.refuses]

/-- Settles O6: every word issues by issueWord, with the right that permOf names. -/
theorem illegalAndPriv : Obligations.IllegalAndPriv := by
  intro i s cause word fresh
  obtain ⟨eff, issue⟩ := issue_all i s word
  rw [issue]
  refine ⟨fun illegal => ⟨fun plain => ?_, issueWord_faults_illegal _ eff fresh illegal⟩, fun legal guard other => ⟨fun plain => ?_, ?_⟩⟩
  · exact issueWord_illegal _ eff fresh illegal fun e he => by simp [effectIllegal_of_noIllegal plain] at he
  · exact issueWord_refused eff fresh legal guard (permOf_refuses other) (effectIllegal_of_noIllegal plain s eff)
  · exact issueWord_refused_or_illegal eff fresh legal guard (permOf_refuses other)

end Sys2Proof.Machine
end

section
/-!
SUPPORT. The stop of a member, the steps of a freeze and the end of a handler: which packs stand, who is stopped, which handlers run and what is
still due (R248, R251, R256, R272).
-/
namespace Sys2Proof.Machine

/-- What a change of a core keeps of it, it keeps of every core. -/
theorem core_modCore_keeps {β : Type} (g : Core → β) {f : Core → Core} (hf : ∀ k, g (f k) = g k) (s : State) (c d : Nat) :
    g ((s.modCore c f).core d) = g (s.core d) := by
  rw [core_modCore]
  split
  · next h => rw [hf, h]
  · rfl

/-! ### What the stop of a member leaves alone besides memory and registers -/

/-- The packs, the stops of the members and the handlers are as before, and what was due is due. -/
structure StopFrame (s t : State) : Prop where
  packs : t.packs = s.packs
  frozen : ∀ m, (t.core m).frozen = (s.core m).frozen
  handler : ∀ m, (t.core m).handler = (s.core m).handler
  timers : ∀ x ∈ s.timers, x ∈ t.timers

namespace StopFrame

theorem refl (s : State) : StopFrame s s := ⟨rfl, fun _ => rfl, fun _ => rfl, fun _ => id⟩

theorem trans {s t u : State} (a : StopFrame s t) (b : StopFrame t u) : StopFrame s u :=
  ⟨b.packs.trans a.packs, fun m => (b.frozen m).trans (a.frozen m), fun m => (b.handler m).trans (a.handler m),
    fun x h => b.timers x (a.timers x h)⟩

theorem foldl {α : Type} {f : State → α → State} (hf : ∀ s x, StopFrame s (f s x)) (l : List α) (s : State) : StopFrame s (l.foldl f s) :=
  List.foldlRecOn (motive := StopFrame s) l f (refl s) fun t kept x _ => kept.trans (hf t x)

theorem modCore (s : State) (c : Nat) (f : Core → Core) (hf : ∀ k, (f k).frozen = k.frozen ∧ (f k).handler = k.handler) :
    StopFrame s (s.modCore c f) :=
  ⟨rfl, core_modCore_keeps Core.frozen (fun k => (hf k).1) s c, core_modCore_keeps Core.handler (fun k => (hf k).2) s c, fun _ => id⟩

theorem later (s : State) (n : Nat) (e : Ev) : StopFrame s (s.later n e) :=
  ⟨rfl, fun _ => rfl, fun _ => rfl, fun _ => mem_insertTimer_of_mem _ e⟩

theorem modBank (s : State) (hs pc b : Nat) (f : Bank → Bank) : StopFrame s (s.modBank hs pc b f) :=
  ⟨rfl, fun _ => rfl, fun _ => rfl, fun _ => id⟩

theorem modLease (s : State) (c : Nat) (f : Bank → Bank) : StopFrame s (s.modLease c f) := foldl (fun _ _ => modBank ..) _ s

theorem post (s : State) (c : Nat) (p : Pending) : StopFrame s (s.post c false p) :=
  modCore s c (Core.modThread · false _) fun _ => ⟨rfl, rfl⟩

theorem returnReads (s : State) (c : Nat) : StopFrame s (returnReads s c) := by
  unfold Machine.returnReads
  dsimp only
  refine trans (modCore s c _ (by exact fun _ => ⟨rfl, rfl⟩)) (foldl (fun s p => ?_) _ _)
  split
  · exact .post ..
  · exact refl s

theorem freeEffects (s : State) (c : Nat) : StopFrame s (freeEffects s c) := modCore s c _ (by exact fun _ => ⟨rfl, rfl⟩)

theorem fillMember (z : Freeze) (s : State) (m : Nat) : StopFrame s (fillMember z s m) := by
  unfold Machine.fillMember
  split
  · exact modCore s m _ (by exact fun _ => ⟨rfl, rfl⟩)
  · exact refl s

theorem fillInfo (s : State) (g : Nat) : StopFrame s (fillInfo s g) := by
  cases hp : s.pack g with
  | none => rw [Machine.fillInfo, hp]; exact refl s
  | some p =>
    cases hz : p.freeze with
    | none => simp only [Machine.fillInfo, hp, hz]; exact refl s
    | some z => exact fillInfo_eq_foldl hp hz ▸ foldl (fillMember z) _ s

end StopFrame

/-! ### The stop of a member -/

/-- What the stop of a member at a tick records of it, in a freeze (R248, R251, R260). -/
def stopRecord (s : State) (c : Nat) (z : Freeze) (held : Nat) (fault : Option FaultRec) (second late : Bool) : Frozen :=
  { held := held, hw := (s.region (regionOf c)).hw.toNat, due := dueTick s c, phi := ownTick s c z.phi, fault := fault, second := second, late := late }

/-- The stop of a member is the record of it, and what leaves the packs, the other stops and the handlers alone. -/
theorem stopMember_stops {s : State} {c : Nat} {p : Pack} {z : Freeze} (hp : s.pack (s.core c).group = some p) (hz : p.freeze = some z)
    (held : Nat) (fault : Option FaultRec) (second late : Bool) :
    StopFrame (s.modCore c fun k => { k with frozen := some (stopRecord s c z held fault second late) })
      (stopMember s c held fault second late) := by
  have before : StopFrame s ((freeEffects (returnReads s c) c).modLease c Bank.close) :=
    ((StopFrame.returnReads s c).trans (.freeEffects _ c)).trans (.modLease _ c _)
  unfold stopMember
  simp only [hp, hz]
  rw [← stopRecord]
  generalize stopRecord s c z held fault second late = f
  generalize (freeEffects (returnReads s c) c).modLease c Bank.close = v at before
  have marked : StopFrame (s.modCore c fun k => { k with frozen := some f }) (v.modCore c fun k => { k with frozen := some f }) := by
    refine ⟨before.packs, fun m => ?_, fun m => ?_, before.timers⟩
    · rw [core_modCore, core_modCore]
      split
      · rfl
      · exact before.frozen m
    · rw [core_modCore_keeps Core.handler (by exact fun _ => rfl), core_modCore_keeps Core.handler (by exact fun _ => rfl), before.handler]
  split
  · exact (marked.trans (.fillInfo ..)).trans (.later ..)
  · exact marked.trans (.fillInfo ..)

/-- Who is stopped after the stop of a member: that member, as its record says, and whoever was. -/
theorem frozen_stopMember {s : State} {c : Nat} {p : Pack} {z : Freeze} (hp : s.pack (s.core c).group = some p) (hz : p.freeze = some z)
    (held : Nat) (fault : Option FaultRec) (second late : Bool) (m : Nat) : ((stopMember s c held fault second late).core m).frozen =
      if m = c then some (stopRecord s c z held fault second late) else (s.core m).frozen := by
  rw [(stopMember_stops hp hz held fault second late).frozen, core_modCore]
  split <;> rfl

/-! ### The freeze that moves down to a new primary fault (R256) -/

/-- A core whose stop counts from another relative tick; one with a fault of its own is SECOND. -/
def Core.moved (rel : Nat) (k : Core) : Core :=
  { k with frozen := k.frozen.map fun f => { f with phi := (k.tbase + BitVec.ofNat 64 rel).toNat, second := f.second || f.fault.isSome } }

theorem Core.moved_moved (rel : Nat) (k : Core) : (k.moved rel).moved rel = k.moved rel := by
  simp only [Core.moved, Option.map_map]
  congr 2
  funext f
  simp

/-- A change that made twice is made once, made of the cores of a list: each of them is changed, and no other. -/
theorem core_foldl_modCore {f : Core → Core} (hf : ∀ k, f (f k) = f k) (l : List Nat) (s : State) (d : Nat) :
    (l.foldl (fun s m => s.modCore m f) s).core d = if d ∈ l then f (s.core d) else s.core d := by
  induction l generalizing s with
  | nil => rfl
  | cons m l ih =>
    rw [List.foldl_cons, ih, core_modCore]
    by_cases e : d = m
    · subst e; simp [hf]
    · simp [e]

theorem core_moveFreeze (s : State) (p : Pack) (rel m : Nat) :
    (moveFreeze s p rel).core m = if m ∈ p.members then (s.core m).moved rel else s.core m :=
  core_foldl_modCore (Core.moved_moved rel) p.members s m

theorem moveFreeze_packs (s : State) (p : Pack) (rel : Nat) : (moveFreeze s p rel).packs = s.packs :=
  foldl_keeps State.packs (by exact fun _ _ => rfl) _ _

/-! ### The end of a handler -/

theorem handler_endHandler (s : State) (c : Nat) : ((endHandler s c).core c).handler = none := by
  unfold endHandler
  split
  · next none => exact Option.isNone_iff_eq_none.mp none
  · dsimp only
    split
    · rw [State.modRegion_core, core_modCore_self]
    · rw [State.later_core, State.modRegion_core, core_modCore_self]

theorem core_endHandler_ne (s : State) {c d : Nat} (h : d ≠ c) : (endHandler s c).core d = s.core d := by
  unfold endHandler
  split
  · rfl
  · dsimp only
    split
    · rw [State.modRegion_core, core_modCore_ne _ _ h]
    · rw [State.later_core, State.modRegion_core, core_modCore_ne _ _ h]

theorem FreezeFrame.endHandler (s : State) (c : Nat) : FreezeFrame s (endHandler s c) := by
  have ended := FreezeFrame.modCore s c (fun k => { k with handler := none, leash := [] }) fun _ => ⟨rfl, rfl, rfl, rfl⟩
  unfold Machine.endHandler
  split
  · exact refl s
  · dsimp only
    split
    · exact ended.trans (of_fields rfl rfl rfl)
    · exact ended.trans (of_fields rfl rfl rfl)

/-- A fault in a handler ends it, and touches neither memory nor a register of a task (R272). -/
theorem nest_ends (s : State) (c : Nat) (r : FaultRec) : FreezeFrame s (nest s c r) ∧ ((nest s c r).core c).handler = none := by
  unfold nest
  dsimp only
  have ended := (FreezeFrame.trace s (stackOf c) 4 c (s.rel c) (BitVec.ofNat 64 (15 * 256 + r.code))).trans (.endHandler _ c)
  have gone := handler_endHandler (s.trace (stackOf c) 4 c (s.rel c) (BitVec.ofNat 64 (15 * 256 + r.code))) c
  generalize endHandler _ c = u at ended gone
  split
  · refine ⟨(ended.trans (.modCore u _ _ (by exact fun _ => ⟨rfl, rfl, rfl, rfl⟩))).trans (.fillInfo ..), ?_⟩
    rw [(StopFrame.fillInfo ..).handler, core_modCore_keeps Core.handler (by exact fun _ => rfl), gone]
  · exact ⟨ended, gone⟩

end Sys2Proof.Machine
end

section
/-!
O54: a fault is taken: the freeze of a pack begins at its first fault, moves to an earlier one, and a fault of a handler ends the handler (R248,
R251, R256, R260, R272, R320).
-/
namespace Sys2Proof.Machine

theorem faultInfo_addr (u : State) (c : Nat) {f : Frozen} (z : Freeze) {r : FaultRec} (hf : f.fault = some r) :
    smGet 0 (faultInfo u c f z) 4 = r.addr := by
  simp [faultInfo, hf, smGet, smFind]

/-- The fault word of FAULTINFO0 begins with the code, whatever the cause (R260). -/
theorem faultInfo_code (u : State) (c : Nat) {f : Frozen} (z : Freeze) {r : FaultRec} (hf : f.fault = some r) (hc : r.code < 256) :
    wfld (smGet 0 (faultInfo u c f z) 0) 7 0 = r.code := by
  have word : ∃ x, smGet 0 (faultInfo u c f z) 0 = BitVec.ofNat 64 (x * 2 ^ 8 + r.code) := by
    refine ⟨r.incause * 2 ^ 32 + r.incode * 2 ^ 24 + (replays (u.core c).task).length * 2 ^ 16 + b2n f.late * 2 ^ 14 + b2n f.second * 2 ^ 13
      + b2n (z.primary = c) * 2 ^ 12 + r.src * 2 ^ 8 + r.cause, ?_⟩
    simp only [faultInfo, hf, Option.getD_some, smGet, smFind, if_true]
    exact congrArg (BitVec.ofNat 64) (by omega)
  obtain ⟨x, e⟩ := word
  rw [e]
  simp only [wfld, fld, BitVec.toNat_ofNat]
  omega

/-- The relative tick of a core's tick (R145). -/
def relTick (s : State) (c t : Nat) : Nat := (BitVec.ofNat 64 t - (s.core c).tbase).toNat

theorem liveMembers_of_cores {s t : State} (h : t.cores = s.cores) (p : Pack) : t.liveMembers p = s.liveMembers p := by
  simp only [State.liveMembers, State.core, h]

theorem core_of_cores {s t : State} (h : t.cores = s.cores) (c : Nat) : t.core c = s.core c := by simp only [State.core, h]

theorem ClockFrame.modBank (s : State) (hs pc b : Nat) (f : Bank → Bank) : ClockFrame s (s.modBank hs pc b f) := ⟨rfl, rfl, rfl⟩

theorem ClockFrame.modLease (s : State) (c : Nat) (f : Bank → Bank) : ClockFrame s (s.modLease c f) := foldl (fun _ _ => modBank ..) _ s

/-! ### The first fault of a pack (R248, R251) -/

/-- A pack whose freeze a fault of core `c` at its tick `t` has begun. -/
def Pack.frozenBy (p : Pack) (s : State) (c t : Nat) : Pack :=
  { p with freeze := some { phi := relTick s c t, primary := c, wall := s.now }, epoch := p.epoch + 1 }

/-- The first fault of a pack stops its member in a state in which the freeze has begun and the notice is on its way. -/
theorem freezeAt_begins {s : State} {c : Nat} {p : Pack} (thawed : (s.core c).frozen = none) (hp : s.pack (s.core c).group = some p)
    (hz : p.freeze = none) (t : Nat) (r : FaultRec) :
    ∃ w, freezeAt s c t r = stopMember w c t (some r) false false ∧ w.cores = s.cores ∧
      w.pack (s.core c).group = some (p.frozenBy s c t) ∧
      (1 < (s.liveMembers p).length → (s.now + 20, Ev.freezeNoticeArrive (s.core c).group) ∈ w.timers) := by
  unfold freezeAt
  simp only [thawed, Option.isSome_none, Bool.false_eq_true, if_false]
  rw [← relTick]
  generalize hu : s.trace _ _ _ _ _ = u
  obtain ⟨cores, packs, now⟩ : u.cores = s.cores ∧ u.packs = s.packs ∧ u.now = s.now := by simp [← hu]
  have pack : u.pack (s.core c).group = some p := by rw [← hp, State.pack, packs, State.pack]
  simp only [pack, hz]
  have begun := pack_modPack_self pack fun p => { p with freeze := some { phi := relTick s c t, primary := c, wall := u.now }, epoch := p.epoch + 1 }
  generalize hm : u.modPack _ _ = m at begun ⊢
  obtain ⟨mcores, mnow⟩ : m.cores = s.cores ∧ m.now = s.now := by simp [← hm, cores, now]
  generalize hv : List.foldl _ m _ = v
  have closed : ClockFrame m v := hv ▸ .foldl (fun s n => .modLease s n Bank.close) _ m
  have vcores : v.cores = s.cores := closed.cores.trans mcores
  have vnow : v.now = s.now := closed.now.trans mnow
  have vpacks : v.packs = m.packs := by rw [← hv, foldl_keeps State.packs fun s n => modLease_packs s n Bank.close]
  rw [liveMembers_of_cores vcores p]
  have frozen : v.pack (s.core c).group = some (p.frozenBy s c t) := by
    rw [State.pack, vpacks, ← State.pack, begun, now, Pack.frozenBy]
  refine ⟨_, rfl, ?_, ?_, fun many => ?_⟩
  · split <;> exact vcores
  · split <;> exact frozen
  · rw [if_pos many, ← vnow]
    exact mem_timers_later ..

/-- What the first fault of a pack leaves: its member stopped at the tick with the fault, the freeze begun, the FAULTINFO registers written
and the notice on its way (R248, R251, R260). -/
theorem freezeAt_first {s : State} {c : Nat} {p : Pack} (thawed : (s.core c).frozen = none) (hp : s.pack (s.core c).group = some p)
    (hm : c ∈ p.members) (hz : p.freeze = none) (t : Nat) (r : FaultRec) :
    let u := freezeAt s c t r
    (∃ f, (u.core c).frozen = some f ∧ f.held = t ∧ f.fault = some r ∧ f.second = false) ∧
      u.pack (s.core c).group = some (p.frozenBy s c t) ∧ smGet 0 (u.core c).fi 4 = r.addr ∧
      (r.code < 256 → wfld (smGet 0 (u.core c).fi 0) 7 0 = r.code) ∧
      (r.cause < 256 → r.code < 256 → wfld (smGet 0 (u.core c).fi 0) 15 8 = r.cause) ∧
      (1 < (s.liveMembers p).length → (s.now + 20, Ev.freezeNoticeArrive (s.core c).group) ∈ u.timers) := by
  intro u
  obtain ⟨w, e, cores, pack, notice⟩ := freezeAt_begins thawed hp hz t r
  rw [← core_of_cores cores] at pack
  have stops := stopMember_stops pack rfl t (some r) false false
  have record := frozen_stopMember pack rfl t (some r) false false c
  obtain ⟨f, x, frozen, held, fault, info⟩ := stopMember_records pack rfl hm t (some r) false false
  rw [← e] at stops record frozen info
  rw [if_pos rfl, frozen] at record
  refine ⟨⟨f, frozen, held, fault, congrArg Frozen.second (Option.some.inj record)⟩, ?_, info ▸ faultInfo_addr x c _ fault,
    fun code => info ▸ faultInfo_code x c _ fault code, fun cause code => info ▸ (faultInfo_word0 x c f _ fault code cause).2,
    fun many => stops.timers _ (notice many)⟩
  rw [State.pack, stops.packs, ← core_of_cores cores]
  exact pack

/-! ### A later fault (R256) -/

/-- Whether the primary fault of a freeze yields to one of core `c` at a relative tick (R256). -/
def Freeze.yields (z : Freeze) (rel c : Nat) : Bool := decide (rel < z.phi) || decide (rel = z.phi) && decide (c < z.primary)

theorem Freeze.yields_iff (z : Freeze) (rel c : Nat) : z.yields rel c = true ↔ rel < z.phi ∨ rel = z.phi ∧ c < z.primary := by
  simp [Freeze.yields]

/-- A freeze that has met a later fault of core `c` at a relative tick (R256). -/
def Freeze.met (z : Freeze) (rel c : Nat) : Freeze := if z.yields rel c then { z with phi := rel, primary := c } else z

theorem Freeze.met_primary (z : Freeze) (rel c : Nat) : (z.met rel c).primary = if z.yields rel c then c else z.primary := by
  unfold Freeze.met
  split <;> rfl

theorem Freeze.met_phi (z : Freeze) (rel c : Nat) : (z.met rel c).phi = min rel z.phi := by
  unfold Freeze.met
  split
  · next first =>
    have := (z.yields_iff rel c).mp first
    show rel = _
    omega
  · next kept =>
    have := mt (z.yields_iff rel c).mpr kept
    omega

/-- A later fault of a pack stops its member in a state in which the freeze has met it. -/
theorem freezeAt_meets {s : State} {c : Nat} {p : Pack} {z : Freeze} (thawed : (s.core c).frozen = none)
    (hp : s.pack (s.core c).group = some p) (hz : p.freeze = some z) (t : Nat) (r : FaultRec) :
    ∃ w, freezeAt s c t r = stopMember w c t (some r) (!z.yields (relTick s c t) c) false ∧
      (∀ m, w.core m = if z.yields (relTick s c t) c ∧ m ∈ p.members then (s.core m).moved (relTick s c t) else s.core m) ∧
      w.pack (s.core c).group = some { p with freeze := some (z.met (relTick s c t) c) } := by
  unfold freezeAt
  simp only [thawed, Option.isSome_none, Bool.false_eq_true, if_false]
  rw [← relTick]
  generalize hu : s.trace _ _ _ _ _ = u
  obtain ⟨cores, packs⟩ : u.cores = s.cores ∧ u.packs = s.packs := by simp [← hu]
  have pack : u.pack (s.core c).group = some p := by rw [← hp, State.pack, packs, State.pack]
  simp only [pack, hz]
  rw [← Freeze.yields, Freeze.met]
  cases z.yields (relTick s c t) c with
  | true =>
    refine ⟨_, rfl, fun m => ?_, ?_⟩
    · rw [core_moveFreeze, State.modPack_core, core_of_cores cores]
      simp
    · rw [State.pack, moveFreeze_packs]
      exact pack_modPack_self pack _
  | false =>
    refine ⟨_, rfl, fun m => ?_, ?_⟩
    · rw [core_of_cores cores]
      simp
    · rw [pack]
      exact congrArg some (by rw [if_neg Bool.false_ne_true, ← hz])

/-- What a later fault of a pack leaves: its member stopped at the tick with the fault, SECOND unless it is the primary one; the freeze tick of the
others moved where it is; the freeze met (R256). -/
theorem freezeAt_later {s : State} {c : Nat} {p : Pack} {z : Freeze} (thawed : (s.core c).frozen = none)
    (hp : s.pack (s.core c).group = some p) (hz : p.freeze = some z) (t : Nat) (r : FaultRec) :
    let u := freezeAt s c t r
    (∃ f, (u.core c).frozen = some f ∧ f.held = t ∧ f.fault = some r ∧ f.second = !z.yields (relTick s c t) c) ∧
      (∀ m f, m ≠ c → m ∈ p.members → (s.core m).frozen = some f → (u.core m).frozen = some (if z.yields (relTick s c t) c then
        { f with phi := ownTick s m (relTick s c t), second := f.second || f.fault.isSome } else f)) ∧
      u.pack (s.core c).group = some { p with freeze := some (z.met (relTick s c t) c) } := by
  intro u
  obtain ⟨w, e, cores, pack⟩ := freezeAt_meets thawed hp hz t r
  have group : (w.core c).group = (s.core c).group := by
    rw [cores]
    split <;> rfl
  rw [← group] at pack ⊢
  have stops := stopMember_stops pack rfl t (some r) (!z.yields (relTick s c t) c) false
  have record := frozen_stopMember pack rfl t (some r) (!z.yields (relTick s c t) c) false
  rw [← e] at stops record
  refine ⟨⟨_, (record c).trans (if_pos rfl), rfl, rfl, rfl⟩, fun m f other member stopped => ?_, ?_⟩
  · rw [record, if_neg other, cores]
    cases z.yields (relTick s c t) c <;> simp [member, stopped, Core.moved, ownTick]
  · rw [State.pack, stops.packs]
    exact pack

/-! ### The trap of a result (R320) -/

/-- A cause of ARITH is one of the five flags. -/
theorem trapCause_lt {trapen flags cause : Nat} (h : trapCause trapen flags = some cause) : cause < 5 := by
  have := List.mem_of_find?_eq_some h
  simp at this
  omega

/-- A result whose flags meet an enabled trap takes the fault ARITH with its cause, and its item stays (R249, R320). -/
theorem exec_resultCommit_trapped {s : State} {c id cause : Nat} {q : Pending} {rp : Replay} {res : Res} (hq : s.findItem c false id = some q)
    (act : q.act = .result rp res) (trap : trapCause (s.core c).trapen res.flags = some cause) :
    exec (.resultCommit c false id) s = .next (takeFault (s.setItem c false q.id (·.withReplay { rp with faulted := true })) c false
      (s.tick c false) (faultOf rp.org rp.org.pipe 10 cause 0 (BitVec.ofNat 64 (res.flags % 32)))) := by
  have tick : (s.setItem c false q.id (·.withReplay { rp with faulted := true })).tick c false = s.tick c false := by
    rw [State.tick, State.setItem, thread_modThread_task]
    rfl
  rw [exec_resultCommit, execResultCommit]
  simp only [hq, act, commitResult, Bool.false_eq_true, if_false, trap, tick]

/-- Settles O54: a fault by the state of its pack, a handler's by the end of the handler, a trap by the fault that it takes. -/
theorem faultEntry : Obligations.FaultEntry := by
  intro s c g t id cause r p z q rp res
  refine ⟨fun thawed hg hp hm hz => ?first, fun thawed hg hp hz => ?later, fun runs => (nest_ends s c r).2, fun hq act trap => ?trap⟩
  case first =>
    subst hg
    have frame := FreezeFrame.freezeAt s c t r
    obtain ⟨frozen, pack, addr, code, cause, notice⟩ := freezeAt_first thawed hp hm hz t r
    refine ⟨sameMem_of_mem frame.mem, frame.regs, frozen, ?_⟩
    simp only [takeFault, Bool.false_eq_true, if_false, pack]
    exact ⟨⟨_, rfl, rfl, rfl⟩, rfl, addr, code, cause, notice⟩
  case later =>
    subst hg
    have frame := FreezeFrame.freezeAt s c t r
    obtain ⟨frozen, others, pack⟩ := freezeAt_later thawed hp hz t r
    refine ⟨sameMem_of_mem frame.mem, frame.regs, frozen, ?_⟩
    simp only [takeFault, Bool.false_eq_true, if_false, pack, ← Freeze.yields_iff]
    exact ⟨others, _, rfl, Freeze.met_primary .., Freeze.met_phi ..⟩
  case trap =>
    intro v u
    have frame := FreezeFrame.freezeAt v c (s.tick c false) (faultOf rp.org rp.org.pipe 10 cause 0 (BitVec.ofNat 64 (res.flags % 32)))
    refine ⟨exec_resultCommit_trapped hq act trap, sameMem_of_mem frame.mem, (sameRegs_agenda s c false _).trans frame.regs, ?_⟩
    intro thawed hg hp hm hz
    have core : v.core c = (s.core c).modThread false _ := core_modThread_self ..
    have group : (v.core c).group = g := by rw [core, ← hg]; rfl
    obtain ⟨⟨f, frozen, held, fault, -⟩, -, -, code, least, -⟩ := freezeAt_first (s := v) (c := c) (p := p) (by rw [core]; exact thawed)
      (by rw [group]; exact hp) hm hz (s.tick c false) (faultOf rp.org rp.org.pipe 10 cause 0 (BitVec.ofNat 64 (res.flags % 32)))
    exact ⟨⟨f, _, frozen, held, fault, rfl, rfl⟩, code (show 10 < 256 by decide),
      least (Nat.lt_trans (trapCause_lt trap) (by decide)) (show 10 < 256 by decide)⟩

end Sys2Proof.Machine
end

section
/-!
SUPPORT. No handler begins while a pack is killed: the steps of a kill end handlers and start none (R270, R272).
-/
namespace Sys2Proof.Machine

/-- A core that runs no handler runs none afterwards. -/
def NoneBegins (s t : State) : Prop := ∀ c, (s.core c).handler = none → (t.core c).handler = none

namespace NoneBegins

theorem refl (s : State) : NoneBegins s s := fun _ => id

theorem trans {s t u : State} (a : NoneBegins s t) (b : NoneBegins t u) : NoneBegins s u := fun c h => b c (a c h)

theorem foldl {α : Type} {f : State → α → State} (hf : ∀ s x, NoneBegins s (f s x)) (l : List α) (s : State) : NoneBegins s (l.foldl f s) :=
  List.foldlRecOn (motive := NoneBegins s) l f (refl s) fun t none x _ => none.trans (hf t x)

theorem of_cores {s t : State} (h : t.cores = s.cores) : NoneBegins s t := fun c => by
  simp only [State.core, h]
  exact id

theorem modCore (s : State) (c : Nat) (f : Core → Core) (hf : ∀ k, (f k).handler = k.handler) : NoneBegins s (s.modCore c f) := fun d h => by
  rw [core_modCore_keeps Core.handler hf, h]

theorem endHandler (s : State) (c : Nat) : NoneBegins s (endHandler s c) := fun d h => by
  by_cases e : d = c
  · exact e ▸ handler_endHandler s c
  · rw [core_endHandler_ne s e, h]

theorem retireMarker (s : State) (inv : Nat) : NoneBegins s (retireMarker s inv) := by
  unfold Machine.retireMarker
  split
  · exact refl s
  · split
    · exact of_cores (by exact rfl)
    · split <;> exact of_cores (by exact rfl)

theorem booked {s t : State} (h : Booked s t) : NoneBegins s t := of_cores h.clock.cores

theorem looseAgenda (s : State) (c : Nat) (kill : Bool) : NoneBegins s (looseAgenda s c kill) :=
  (modCore s c _ (by exact fun _ => rfl)).trans (foldl (fun s p => booked (.itemOver s p)) _ _)

theorem orphanAll (s : State) (c : Nat) : NoneBegins s (orphanAll s c) := by
  unfold Machine.orphanAll
  dsimp only
  refine trans (t := { s with
    cores := smMap (fun d (x : Core) => x.mapItems (orphanItem c (s.core c).inst (s.core c).node (s.core c).ltile d)) s.cores }) (fun d h => ?_)
    (trans (trans (of_cores (by exact rfl)) (modCore _ c _ (by exact fun _ => rfl))) (booked (.modNode ..)))
  simp only [State.core, smGet, smFind_smMap] at h ⊢
  cases found : smFind s.cores d with
  | none => rfl
  | some k =>
    rw [found] at h
    exact h

theorem countOut (s : State) (c : Nat) (err : Option (Nat × Nat)) : NoneBegins s (countOut s c err) :=
  booked (Booked.trans (.modNode ..) (.checkLaunch ..))

theorem killMember (s : State) (c : Nat) (err : Nat × Nat) : NoneBegins s (killMember s c err) := by
  unfold Machine.killMember
  dsimp only
  refine trans (trans (trans ?_ (orphanAll _ c)) (looseAgenda _ c true)) (trans (countOut _ c _) (modCore _ c _ (by exact fun _ => rfl)))
  exact ((endHandler s c).trans (of_cores (by exact rfl))).trans (foldl retireMarker _ _)

theorem releasePc (s : State) (hs pc : Nat) : NoneBegins s (releasePc s hs pc) := by
  unfold Machine.releasePc
  dsimp only
  generalize hu : s.modHbm hs _ = u
  have cores : u.cores = s.cores := by rw [← hu, State.modHbm_cores]
  split
  · exact of_cores ((StackLog.swapLane ..).cores.trans cores)
  · exact of_cores cores

theorem releasePcs (s : State) (g : Nat) : NoneBegins s (releasePcs s g) := by
  unfold Machine.releasePcs
  exact foldl (fun s (h : Nat × Hbm) => foldl (fun s (q : Nat × Pc) => releasePc s h.1 q.1) _ s) _ s

theorem endPack (s : State) (g : Nat) : NoneBegins s (endPack s g) := by
  unfold Machine.endPack
  split
  · exact refl s
  · dsimp only
    refine trans (trans (trans (of_cores (by exact rfl)) (releasePcs _ g)) (foldl (fun s c => ?_) _ _)) (foldl (fun s c => booked (.nextPreload s c)) _ _)
    exact (looseAgenda s c false).trans (modCore _ c _ (by exact fun _ => rfl))

theorem killPack (s : State) (g : Nat) : NoneBegins s (killPack s g) := by
  unfold Machine.killPack
  split
  · exact refl s
  · next p _ =>
    dsimp only
    generalize hv : List.foldl _ _ _ = v
    have killed : NoneBegins s v := by
      refine hv ▸ trans (of_cores (by exact rfl)) (foldl (fun s c => ?_) _ _)
      split
      · exact killMember _ _ _
      · exact refl s
    exact trans killed (trans (of_cores (by exact rfl)) (endPack { v with regions := _ } g))

end NoneBegins

end Sys2Proof.Machine
end

section
/-!
O34: the leash words, each by its own rule: what a leash with the right does, and that a leash without it posts false and does nothing else
(R266 to R274, R472 to R474).
-/
namespace Sys2Proof.Machine

/-! ### The issue of a leash word (R472) -/

/-- A leash word posts false and changes nothing else. -/
def LeashFails (s : State) (i : Instr) (lat : Nat) (pd : BitVec 4) : Prop :=
  gives s i lat none [] false { writes := [(.pred pd.toNat, slotOf (BitVec.ofNat 64 0))] }

/-- A leash word posts true in the state that it leaves. -/
def LeashActs (s : State) (i : Instr) (t : State) (lat : Nat) (pd : BitVec 4) : Prop :=
  exec i s = .next (postResult t lat (mkReplay s i none [] false) { writes := [(.pred pd.toNat, slotOf (BitVec.ofNat 64 1))] })

/-- A leash word posts true and a value for X, and changes nothing else. -/
def LeashGives (s : State) (i : Instr) (lat : Nat) (pd : BitVec 4) (x : BitVec 6) (v : Word) : Prop :=
  gives s i lat none [] false { writes := [(.sreg x.toNat, slotOf v), (.pred pd.toNat, slotOf (BitVec.ofNat 64 1))] }

theorem issueLeash_some {s t : State} {i : Instr} {lat : Nat} {pd : BitVec 4} {act : State → Option (State × Option (Nat × Word))}
    {v : Option (Nat × Word)} (hi : issues s i .handler = true) (acts : act s = some (t, v)) :
    issueLeash s i lat pd act = .next (postResult t lat (mkReplay s i none [] false) (leashRes pd.toNat true v)) := by
  rw [issueLeash, issueWord_of_issues hi, acts]

theorem issueLeash_gives {s : State} {i : Instr} {lat : Nat} {pd : BitVec 4} {act : State → Option (State × Option (Nat × Word))}
    {x : BitVec 6} {v : Word} (hi : issues s i .handler = true) (gives : act s = some (s, some (x.toNat, v))) :
    issueLeash s i lat pd act = .next (postResult s lat (mkReplay s i none [] false)
      { writes := [(.sreg x.toNat, slotOf v), (.pred pd.toNat, slotOf (BitVec.ofNat 64 1))] }) := issueLeash_some hi gives

theorem issueLeash_acts {s t : State} {i : Instr} {lat : Nat} {pd : BitVec 4} {act : State → Option (State × Option (Nat × Word))}
    (hi : issues s i .handler = true) (acts : act s = some (t, none)) : issueLeash s i lat pd act =
      .next (postResult t lat (mkReplay s i none [] false) { writes := [(.pred pd.toNat, slotOf (BitVec.ofNat 64 1))] }) := issueLeash_some hi acts

theorem issueLeash_none {s : State} {i : Instr} {lat : Nat} {pd : BitVec 4} {act : State → Option (State × Option (Nat × Word))}
    (hi : issues s i .handler = true) (fails : act s = none) :
    issueLeash s i lat pd act = .next (postResult s lat (mkReplay s i none [] false) (leashRes pd.toNat false none)) := by
  rw [issueLeash, issueWord_of_issues hi, fails]

/-! ### Selectors (R473, R474) -/

/-- A selector without reserved bits names the core of its member, its KIND and its INDEX. -/
theorem selector_some {s : State} {p : Pack} {v : Word} {c : Nat} (high : wfld v 63 56 = 0) (mid : wfld v 43 16 = 0)
    (member : memberCore s p (wfld v 55 48) = some c) : selector s p v = some (c, wfld v 47 44, wfld v 15 0) := by
  simp [selector, high, mid, member]

/-- A selector names a replay entry of its member and a part that the entry has. -/
theorem entryOf_some {s : State} {p : Pack} {v : Word} {c : Nat} {it : Pending} {rp : Replay} (member : memberCore s p (wfld v 55 48) = some c)
    (entry : (replays (s.core c).task)[wfld v 4 0]? = some it) (replay : it.replay = some rp) (part : wfld v 9 8 ≤ rp.slots.length) :
    entryOf s p v = some (c, it, rp) := by
  simp only [entryOf, member, entry, replay, part, if_true]

theorem leashRead_reg (s : State) (c : Nat) {ix : Nat} (h : ix < 64) : leashRead s c 0 ix = some ((s.core c).task.reg ix) := by
  simp [leashRead, h]

theorem leashWrite_reg (s : State) (c : Nat) {ix : Nat} (v : Word) (lo : 1 ≤ ix) (hi : ix < 64) :
    leashWrite s c 0 ix v = some (s.modCore c fun k => { k with task := k.task.setReg ix v }) := by
  simp [leashWrite, lo, hi]

section
variable {s : State} {h : Head} {pd : BitVec 4} {l : BitVec 2} {x y : BitVec 6} {p : Pack} {c kind ix : Nat}

/-! ### LINSP and LPATCH -/

section
variable (hi : issues s (.linsp h pd l x y) .handler = true)
include hi

theorem linsp_reads {v : Word} (right : leashWith s s.cur.core l.toNat 32 = some p) (sel : selector s p (rdReg s y.toNat) = some (c, kind, ix))
    (read : leashRead s c kind ix = some v) : LeashGives s (.linsp h pd l x y) 4 pd x v := by
  rw [LeashGives, gives, exec_linsp, execLinsp]
  exact issueLeash_gives hi (by simp only [right, sel, read, Option.map_some])

theorem linsp_unreadable (right : leashWith s s.cur.core l.toNat 32 = some p) (sel : selector s p (rdReg s y.toNat) = some (c, kind, ix))
    (read : leashRead s c kind ix = none) : LeashFails s (.linsp h pd l x y) 4 pd := by
  rw [LeashFails, gives, exec_linsp, execLinsp]
  exact issueLeash_none hi (by simp only [right, sel, read, Option.map_none])

theorem linsp_unnamed (right : leashWith s s.cur.core l.toNat 32 = some p) (sel : selector s p (rdReg s y.toNat) = none) :
    LeashFails s (.linsp h pd l x y) 4 pd := by
  rw [LeashFails, gives, exec_linsp, execLinsp]
  exact issueLeash_none hi (by simp only [right, sel])

theorem linsp_refused (wrong : leashWith s s.cur.core l.toNat 32 = none) : LeashFails s (.linsp h pd l x y) 4 pd := by
  rw [LeashFails, gives, exec_linsp, execLinsp]
  exact issueLeash_none hi (by rw [wrong])

end

section
variable (hi : issues s (.lpatch h pd l x y) .handler = true)
include hi

theorem lpatch_patches {t : State} (right : leashWith s s.cur.core l.toNat 33 = some p)
    (sel : selector s p (rdReg s x.toNat) = some (c, kind, ix)) (write : leashWrite s c kind ix (rdReg s y.toNat) = some t) :
    LeashActs s (.lpatch h pd l x y) t 2 pd := by
  rw [LeashActs, exec_lpatch, execLpatch]
  exact issueLeash_acts hi (by simp only [right, sel, write, Option.map_some])

theorem lpatch_unwritable (right : leashWith s s.cur.core l.toNat 33 = some p) (sel : selector s p (rdReg s x.toNat) = some (c, kind, ix))
    (write : leashWrite s c kind ix (rdReg s y.toNat) = none) : LeashFails s (.lpatch h pd l x y) 2 pd := by
  rw [LeashFails, gives, exec_lpatch, execLpatch]
  exact issueLeash_none hi (by simp only [right, sel, write, Option.map_none])

theorem lpatch_unnamed (right : leashWith s s.cur.core l.toNat 33 = some p) (sel : selector s p (rdReg s x.toNat) = none) :
    LeashFails s (.lpatch h pd l x y) 2 pd := by
  rw [LeashFails, gives, exec_lpatch, execLpatch]
  exact issueLeash_none hi (by simp only [right, sel])

theorem lpatch_refused (wrong : leashWith s s.cur.core l.toNat 33 = none) : LeashFails s (.lpatch h pd l x y) 2 pd := by
  rw [LeashFails, gives, exec_lpatch, execLpatch]
  exact issueLeash_none hi (by rw [wrong])

end

/-! ### LRQ and LREINJ -/

theorem lrq_reads {it : Pending} {rp : Replay} (hi : issues s (.lrq h pd l x y) .handler = true)
    (right : leashWith s s.cur.core l.toNat 32 = some p) (entry : entryOf s p (rdReg s y.toNat) = some (c, it, rp)) :
    LeashGives s (.lrq h pd l x y) 4 pd x (entryRead (((s.core c).frozen.map (·.held)).getD 0) it rp (rdReg s y.toNat)) := by
  rw [LeashGives, gives, exec_lrq, execLrq]
  exact issueLeash_gives hi (by simp only [right, entry, Option.map_some])

theorem lrq_refused (hi : issues s (.lrq h pd l x y) .handler = true) (wrong : leashWith s s.cur.core l.toNat 32 = none) :
    LeashFails s (.lrq h pd l x y) 4 pd := by
  rw [LeashFails, gives, exec_lrq, execLrq]
  exact issueLeash_none hi (by rw [wrong])

theorem lreinj_writes {it : Pending} {rp : Replay} (hi : issues s (.lreinj h pd l x y) .handler = true)
    (right : leashWith s s.cur.core l.toNat 33 = some p) (entry : entryOf s p (rdReg s x.toNat) = some (c, it, rp)) :
    LeashActs s (.lreinj h pd l x y) (s.modThread c false fun t =>
      { t with agenda := t.agenda.map fun q => if q.id = it.id then it.withReplay (entryWrite rp (rdReg s x.toNat) (rdReg s y.toNat)) else q }) 2 pd := by
  rw [LeashActs, exec_lreinj, execLreinj]
  exact issueLeash_acts hi (by simp only [right, entry, Option.map_some])

theorem lreinj_refused (hi : issues s (.lreinj h pd l x y) .handler = true) (wrong : leashWith s s.cur.core l.toNat 33 = none) :
    LeashFails s (.lreinj h pd l x y) 2 pd := by
  rw [LeashFails, gives, exec_lreinj, execLreinj]
  exact issueLeash_none hi (by rw [wrong])

/-! ### RESUME, KILL and HRET -/

theorem resume_fences (hi : issues s (.resume h pd l) .handler = true) (right : leashWith s s.cur.core l.toNat 34 = some p) :
    exec (.resume h pd l) s = .next (startFence s 1 s.cthread.nid (.resume l.toNat pd.toNat)) := by
  rw [exec_resume, execResume, issueWord_of_issues hi]
  simp only [right, State.nextId]

theorem resume_refused (hi : issues s (.resume h pd l) .handler = true) (wrong : leashWith s s.cur.core l.toNat 34 = none) :
    LeashFails s (.resume h pd l) 1 pd := by
  rw [LeashFails, gives, exec_resume, execResume, issueWord_of_issues hi]
  simp only [wrong]
  rfl

theorem kill_kills (hi : issues s (.kill h pd l) .handler = true) (right : leashWith s s.cur.core l.toNat 35 = some p) :
    exec (.kill h pd l) s = .next (endHandler (killPack s (wfld (smGet 0 s.ccore.leash l.toNat) 8 0)) s.cur.core) := by
  rw [exec_kill, execKill, issueWord_of_issues hi]
  simp only [right]

theorem kill_refused (hi : issues s (.kill h pd l) .handler = true) (wrong : leashWith s s.cur.core l.toNat 35 = none) :
    LeashFails s (.kill h pd l) 1 pd := by
  rw [LeashFails, gives, exec_kill, execKill, issueWord_of_issues hi]
  simp only [wrong]
  rfl

/-- HRET ends the handler that issues it, and a kill of its pack starts none (R271). -/
theorem hret_ends (hi : issues s (.hret h) .handler = true) : ∃ u, exec (.hret h) s = .next u ∧ (u.core s.cur.core).handler = none := by
  rw [exec_hret, execHret, issueWord_of_issues hi]
  refine ⟨_, rfl, ?_⟩
  dsimp only
  have ended := handler_endHandler s s.cur.core
  generalize endHandler s s.cur.core = u at ended
  split
  · split
    · exact ended
    · exact NoneBegins.killPack u _ _ ended
  · exact ended

/-! ### LDELEG -/

theorem ldeleg_delegates (hi : issues s (.ldeleg h pd l x y) .handler = true) (valid : leashPack s (smGet 0 s.ccore.leash l.toNat) = some p)
    (ctx : smFind (s.region (clusterOf s.cur.core * 8 + wfld (rdReg s x.toNat) 5 0 / 8)).ctxs (wfld (rdReg s x.toNat) 5 0 % 8) = some c)
    (other : c ≠ s.cur.core) (free : freeLeash s c = some ix) :
    LeashActs s (.ldeleg h pd l x y) (s.modCore c fun k => { k with leash := smSet k.leash ix (BitVec.ofNat 64
      (setField (smGet 0 s.ccore.leash l.toNat).toNat 32 4
        (Nat.land (wfld (smGet 0 s.ccore.leash l.toNat) 35 32) (wfld (rdReg s y.toNat) 3 0)))) }) 2 pd := by
  rw [LeashActs, exec_ldeleg, execLdeleg]
  exact issueLeash_acts hi (by simp only [valid, ctx, other, if_false, free, Option.map_some])

end

/-- Settles O34: each leash word by its own rules. -/
theorem leashWords : Obligations.LeashWords := by
  intro s s' h pd l x y p c kind ix v it rp
  refine ⟨fun hi => ⟨fun right sel => ⟨linsp_reads hi right sel, linsp_unreadable hi right sel⟩, linsp_unnamed hi, ?inspect, linsp_refused hi⟩,
    fun hi => ⟨fun right sel => ⟨lpatch_patches hi right sel, lpatch_unwritable hi right sel⟩, lpatch_unnamed hi, ?patch, lpatch_refused hi⟩,
    fun hi => ⟨fun right member entry replay part => lrq_reads hi right (entryOf_some member entry replay part), lrq_refused hi⟩,
    fun hi => ⟨fun right member entry replay part => lreinj_writes hi right (entryOf_some member entry replay part), lreinj_refused hi⟩,
    fun hi => ⟨resume_fences hi, resume_refused hi⟩, fun hi => ⟨kill_kills hi, kill_refused hi⟩, hret_ends, ldeleg_delegates⟩
  case inspect =>
    intro right high mid member reg small
    have sel := selector_some high mid member
    rw [reg] at sel
    exact linsp_reads hi right sel (leashRead_reg s c small)
  case patch =>
    intro right high mid member reg lo small
    have sel := selector_some high mid member
    rw [reg] at sel
    exact lpatch_patches hi right sel (leashWrite_reg s c _ lo small)

end Sys2Proof.Machine
end

section
/-!
O46: the steps of a freeze, from its notice to the release of the pack (R251 to R253, R262, R265, R266, R269, R272).
-/
namespace Sys2Proof.Machine

/-! ### The notice, the stop, the budget and the kill -/

theorem freezeNoticeArrive_notices {s : State} {g : Nat} {p : Pack} (hp : s.pack g = some p) :
    ∃ t, exec (.freezeNoticeArrive g) s = .next t ∧ sameMem s t ∧ sameRegs s t ∧
      t.pack g = some { p with freeze := p.freeze.map fun z => { z with noticed := true } } := by
  have frame := FreezeFrame.modPack s g fun p => { p with freeze := p.freeze.map fun z => { z with noticed := true } }
  exact ⟨_, exec_freezeNoticeArrive .., sameMem_of_mem frame.mem, frame.regs, pack_modPack_self hp _⟩

theorem exec_memberStop_stops {s : State} {c : Nat} (stops : stopsNow s c = true) :
    exec (.memberStop c) s = .next (stopMember s c (s.tick c false) none false (lateMember s c)) := by
  rw [exec_memberStop, execMemberStop, if_pos stops]

theorem exec_memberStop_runs {s : State} {c : Nat} (runs : stopsNow s c = false) : exec (.memberStop c) s = .next s := by
  rw [exec_memberStop, execMemberStop, runs]
  rfl

theorem handlerBudgetExpire_ends {s : State} {c serial : Nat} (runs : (s.core c).handler.isSome = true) (own : (s.core c).hserial = serial) :
    ∃ t, exec (.handlerBudgetExpire c serial) s = .next t ∧ sameMem s t ∧ sameRegs s t ∧ (t.core c).handler = none := by
  rw [exec_handlerBudgetExpire, execHandlerBudgetExpire]
  simp only [runs, own, decide_true, Bool.and_self, if_true]
  obtain ⟨frame, ended⟩ := nest_ends (s.draw 255).2 c { code := 0, cause := (s.draw 255).1 }
  exact ⟨_, rfl, sameMem_of_mem frame.mem, (sameRegs_of_cores rfl).trans frame.regs, ended⟩

theorem exec_handlerBudgetExpire_stale {s : State} {c serial : Nat} (stale : (s.core c).hserial ≠ serial) :
    exec (.handlerBudgetExpire c serial) s = .next s := by
  rw [exec_handlerBudgetExpire, execHandlerBudgetExpire]
  simp [stale]

theorem exec_shepherdKill_frozen {s : State} {g : Nat} {p : Pack} {z : Freeze} (hp : s.pack g = some p) (hz : p.freeze = some z) :
    exec (.shepherdKill g) s = .next (killPack s g) := by
  rw [exec_shepherdKill, execShepherdKill]
  simp [hp, hz]

/-! ### The kennel (R262, R264) -/

/-- The state in which a pack waits alone for a handler context of a region. -/
def awaitKennel (s : State) (g c : Nat) : State :=
  s.modRegion (regionOf c) fun k => { k with waiters := [((((s.core c).frozen).map (·.hw)).getD 0, c, g)] }

theorem serveWaiter_idle {s : State} {r : Nat} (none : (s.region r).waiters = []) : serveWaiter r s = s := by
  rw [serveWaiter, none]

theorem foldl_serveWaiter_idle {s : State} {r : Nat} (l : List Nat) (none : (s.region r).waiters = []) :
    l.foldl (fun s _ => serveWaiter r s) s = s := by
  induction l with
  | nil => rfl
  | cons n l ih => rw [List.foldl_cons, serveWaiter_idle none, ih]

theorem FreezeFrame.modRegion (s : State) (r : Nat) (f : Region → Region) : FreezeFrame s (s.modRegion r f) := of_fields rfl rfl rfl

theorem FreezeFrame.startHandler (s : State) (g c n : Nat) (p : Pack) : FreezeFrame s (startHandler s g c n p) := by
  unfold Machine.startHandler
  dsimp only
  refine trans ?_ (later ..)
  refine trans ?_ (modPack ..)
  refine trans ?_ (modRegion ..)
  exact modCore s c _ (by exact fun _ => ⟨rfl, rfl, rfl, rfl⟩)

/-- What the dispatch of a handler leaves: the handler at the packet of KENNEL with the member number, a leash with every right, the context
taken and no pack waiting; memory and the registers of every task kept (R262, R263, R266). -/
theorem startHandler_starts (s : State) (g c n : Nat) (p : Pack) :
    let t := startHandler (awaitKennel s g c) g c n p
    FreezeFrame s t ∧ (t.core c).handler = some
        { regs := [(1, BitVec.ofNat 64 (wfld (s.core c).packid 7 0))], pc := wfld (s.core c).kennel 14 0, ab := (s.region (regionOf c)).hw,
          next := 1, nid := 1000000 * ((s.core c).hserial + 1) } ∧
      smGet 0 (t.core c).leash 0 = BitVec.ofNat 64 (15 * 2 ^ 32 + p.epoch % 2 ^ 16 * 2 ^ 16 + g) ∧
      smFind (t.region (regionOf c)).ctxs n = some c ∧ (t.region (regionOf c)).waiters = [] := by
  intro t
  refine ⟨?frame, ?handler, ?leash, ?context, ?waiters⟩
  case frame => exact (FreezeFrame.modRegion ..).trans (.startHandler ..)
  case handler => simp [t, startHandler, awaitKennel]
  case leash => simp [t, startHandler, smGet, smFind]
  case context => simp [t, startHandler]
  case waiters => simp [t, startHandler, awaitKennel]

/-- A frozen pack whose members have stopped receives the lowest free context of its region (R262, R264). -/
theorem kennelDispatch_starts {s : State} {g n : Nat} {p : Pack} {z : Freeze} (hp : s.pack g = some p) (hz : p.freeze = some z)
    (unserved : z.served = false) (held : z.resuming = false) (stopped : ∀ m ∈ s.liveMembers p, (s.core m).frozen.isSome = true)
    (budget : wfld (s.core z.primary).kennel 47 32 ≠ 0) (alone : (s.region (regionOf z.primary)).waiters = [])
    (free : freeCtx s (regionOf z.primary) = some n) :
    exec (.kennelDispatch g) s = .next (startHandler (awaitKennel s g z.primary) g z.primary n p) := by
  have all : ((s.liveMembers p).all fun m => (s.core m).frozen.isSome) = true := List.all_eq_true.mpr stopped
  have served : serveWaiter (regionOf z.primary) (awaitKennel s g z.primary) = startHandler (awaitKennel s g z.primary) g z.primary n p := by
    have ctx : freeCtx (awaitKennel s g z.primary) (regionOf z.primary) = some n := by
      rw [← free]
      simp only [freeCtx, awaitKennel, region_modRegion_self]
    have pack : (awaitKennel s g z.primary).pack g = some p := hp
    have first : ((awaitKennel s g z.primary).region (regionOf z.primary)).waiters =
        [((((s.core z.primary).frozen).map (·.hw)).getD 0, z.primary, g)] := by
      rw [awaitKennel, region_modRegion_self]
    have ready : (p.freeze.map fun z => !z.served && !z.resuming) = some true := by simp [hz, unserved, held]
    simp only [serveWaiter, first, ctx, pack, ready, if_true]
  have joined : (s.modRegion (regionOf z.primary) fun k =>
      { k with waiters := insertBy waiterLe ((((s.core z.primary).frozen).map (·.hw)).getD 0, z.primary, g) k.waiters }) = awaitKennel s g z.primary := by
    simp only [awaitKennel, State.modRegion, alone, insertBy]
  have rest := (startHandler_starts s g z.primary n p).2.2.2.2
  rw [exec_kennelDispatch, execKennelDispatch]
  simp only [hp, hz, unserved, held, all, Bool.or_self, Bool.not_true, Bool.false_eq_true, if_false, budget, alone, List.any_nil]
  rw [joined, List.range_succ_eq_map, List.foldl_cons, served, foldl_serveWaiter_idle _ rest]

/-! ### The release (R249, R254, R269) -/

/-- One state comes from another by changes of stacks and regions alone. -/
def UnitsOnly (s t : State) : Prop := ∃ hs rs, t = { s with hbms := hs, regions := rs }

namespace UnitsOnly

theorem refl (s : State) : UnitsOnly s s := ⟨_, _, rfl⟩

theorem trans {s t u : State} (a : UnitsOnly s t) (b : UnitsOnly t u) : UnitsOnly s u := by
  obtain ⟨_, _, rfl⟩ := a
  obtain ⟨hs, rs, rfl⟩ := b
  exact ⟨hs, rs, rfl⟩

theorem foldl {α : Type} {f : State → α → State} (hf : ∀ s x, UnitsOnly s (f s x)) (l : List α) (s : State) : UnitsOnly s (l.foldl f s) :=
  List.foldlRecOn (motive := UnitsOnly s) l f (refl s) fun t units x _ => units.trans (hf t x)

theorem modHbm (s : State) (h : Nat) (f : Hbm → Hbm) : UnitsOnly s (s.modHbm h f) := ⟨_, _, rfl⟩

theorem modRegion (s : State) (r : Nat) (f : Region → Region) : UnitsOnly s (s.modRegion r f) := ⟨_, _, rfl⟩

theorem modBank (s : State) (hs pc b : Nat) (f : Bank → Bank) : UnitsOnly s (s.modBank hs pc b f) := ⟨_, _, rfl⟩

theorem modLease (s : State) (c : Nat) (f : Bank → Bank) : UnitsOnly s (s.modLease c f) := foldl (fun _ _ => modBank ..) _ s

theorem rescueRefresh (s : State) (hs pc bank : Nat) (stamp : Int) : UnitsOnly s (rescueRefresh s hs pc bank stamp) := by
  unfold Machine.rescueRefresh
  split
  · exact (modBank ..).trans (modHbm ..)
  · exact refl s

theorem rescueAll (s : State) (hs pc : Nat) : UnitsOnly s (rescueAll s hs pc) := foldl (fun _ _ => rescueRefresh ..) _ s

theorem restoreBanks (s : State) (ms : List Nat) : UnitsOnly s (restoreBanks s ms) :=
  foldl (fun s c => (foldl (fun s (q : Nat × Nat) => rescueAll s q.1 q.2) _ s).trans (modLease _ c Bank.reopen)) ms s

theorem rephase (s : State) (cs : List Nat) : UnitsOnly s (rephase s cs) := by
  unfold Machine.rephase
  split
  · exact refl s
  · exact foldl (fun _ _ => modRegion ..) _ s

end UnitsOnly

/-- The state in which the access of a replay entry that the handler has dropped has performed at the held tick (R259). -/
def dropEntry (c held : Nat) (s : State) (p : Pending) : State :=
  match p.acc with
  | some a => s.performed c false a held
  | none => s

theorem dropEntry_frame (c held : Nat) (s : State) (p : Pending) : FreezeFrame s (dropEntry c held s p) ∧ StopFrame s (dropEntry c held s p) ∧
    ((dropEntry c held s p).core c).absorb = (s.core c).absorb := by
  unfold dropEntry
  split
  · exact ⟨.modCore s c (Core.modThread · false _) fun _ => ⟨rfl, rfl, rfl, rfl⟩, .modCore s c (Core.modThread · false _) fun _ => ⟨rfl, rfl⟩,
      core_modCore_keeps Core.absorb (f := (Core.modThread · false _)) (fun _ => rfl) s c c⟩
  · exact ⟨.refl s, .refl s, rfl⟩

theorem resumeMember_eq (mates : List Nat) {s : State} {c : Nat} {f : Frozen} (stopped : (s.core c).frozen = some f) :
    ∃ gone items freed, resumeMember mates s c = List.foldl (dropEntry c f.held) (s.modCore c fun k => k.resumed c f mates items freed) gone := by
  unfold resumeMember
  simp only [stopped]
  exact ⟨_, _, _, rfl⟩

/-- What a stopped member that goes on leaves: memory, its registers and the packs as they were, its stop ended and its lead to absorb (R269). -/
theorem resumeMember_resumes (mates : List Nat) {s : State} {c : Nat} {f : Frozen} (stopped : (s.core c).frozen = some f) :
    FreezeFrame s (resumeMember mates s c) ∧ (resumeMember mates s c).packs = s.packs ∧ ((resumeMember mates s c).core c).frozen = none ∧
      ((resumeMember mates s c).core c).absorb = f.held - f.phi + 1 := by
  obtain ⟨gone, items, freed, e⟩ := resumeMember_eq mates stopped
  rw [e]
  have resumed := FreezeFrame.modCore s c (fun k => k.resumed c f mates items freed) fun _ => ⟨rfl, rfl, rfl, rfl⟩
  have dropped := StopFrame.foldl (fun s p => (dropEntry_frame c f.held s p).2.1) gone (s.modCore c fun k => k.resumed c f mates items freed)
  refine ⟨resumed.trans (.foldl (fun s p => (dropEntry_frame c f.held s p).1) gone _), dropped.packs, ?_, ?_⟩
  · rw [dropped.frozen, core_modCore_self]
    rfl
  · rw [foldl_keeps (fun s => (s.core c).absorb) fun s p => (dropEntry_frame c f.held s p).2.2, core_modCore_self]
    rfl

/-- The release of a resuming pack with one live member lets it go on and ends the freeze (R269). -/
theorem packResumeRelease_releases {s : State} {g c epoch : Nat} {p : Pack} {z : Freeze} {f : Frozen} (hp : s.pack g = some p)
    (hz : p.freeze = some z) (resuming : z.resuming = true) (same : p.epoch = epoch) (only : s.liveMembers p = [c])
    (stopped : (s.core c).frozen = some f) :
    ∃ t, exec (.packResumeRelease g epoch) s = .next t ∧ sameMem s t ∧ sameRegs s t ∧ (t.core c).frozen = none ∧
      (t.core c).absorb = f.held - f.phi + 1 ∧ t.pack g = some { p with freeze := none } := by
  subst same
  rw [exec_packResumeRelease, execPackResumeRelease]
  simp only [hp, hz, Option.map_some, resuming, ne_eq, not_true_eq_false, decide_false, Bool.or_self, Bool.false_eq_true, if_false]
  obtain ⟨hs, rs, restored⟩ := UnitsOnly.restoreBanks s p.members
  have pack : (restoreBanks s p.members).pack g = some p := by rw [restored]; exact hp
  have thawed := pack_modPack_self pack fun p => { p with freeze := none }
  generalize hu : (restoreBanks s p.members).modPack g _ = u at thawed ⊢
  obtain ⟨mem, cores⟩ : u.mem = s.mem ∧ u.cores = s.cores := by
    rw [← hu, State.modPack_mem, State.modPack_cores, restored]
    exact ⟨rfl, rfl⟩
  have live : u.liveMembers p = [c] := by rw [← only, State.liveMembers, State.liveMembers]; simp only [State.core, cores]
  rw [live]
  obtain ⟨_, _, phased⟩ := UnitsOnly.rephase u [c]
  generalize rephase u [c] = v at phased
  subst phased
  obtain ⟨frame, packs, goes, lead⟩ := resumeMember_resumes p.members (s := { u with hbms := _, regions := _ }) (c := c) (f := f)
    (by simp only [State.core, cores]; exact stopped)
  refine ⟨_, rfl, sameMem_of_mem (frame.mem.trans mem), (sameRegs_of_cores cores).trans frame.regs, goes, lead, ?_⟩
  rw [List.foldl_cons, List.foldl_nil, State.pack, packs]
  exact thawed

/-- Settles O46: each step by its own rule. -/
theorem freezeSteps : Obligations.FreezeSteps := by
  intro s g c n serial epoch p z f
  refine ⟨freezeNoticeArrive_notices, exec_memberStop_stops, exec_memberStop_runs, ?kennel, handlerBudgetExpire_ends,
    exec_handlerBudgetExpire_stale, exec_shepherdKill_frozen, packResumeRelease_releases⟩
  case kennel =>
    intro hp hz unserved held stopped budget alone free
    obtain ⟨frame, handler, leash, context, -⟩ := startHandler_starts s g z.primary n p
    exact ⟨_, _, kennelDispatch_starts hp hz unserved held stopped budget alone free, sameMem_of_mem frame.mem, frame.regs, handler, rfl, rfl,
      leash, context⟩

end Sys2Proof.Machine
end
